-- ==== Sys2Proof/Word.lean ====
section
/-! DEFINITION. The word types of the 2840: port bytes, the wider numbers sent on a port, audio samples, and the
fourfold collections (lines 1 to 4, key lines K1 to K4, player channels P1 to P4). -/

namespace Sys2Proof

/-- A byte on a control port or on the transmitter link. -/
abbrev Byte := BitVec 8
/-- A number of two bytes (section 10.6). -/
abbrev Half := BitVec 16
/-- A number of three bytes (section 10.6): area codes and alert times. -/
abbrev Tri := BitVec 24
/-- A number of four bytes (section 10.6): times of day, log references, log serials. -/
abbrev Long := BitVec 32
/-- One audio sample, 24-bit two's complement (the forward frame's layout, section 10.6). -/
abbrev Sample := BitVec 24

/-- One stereo sample: left and right. -/
structure Stereo where
  left : Sample
  right : Sample
deriving DecidableEq, Repr, Inhabited

/-- The audio of one block: 240 stereo samples (R1). -/
abbrev Audio := List Stereo
/-- One block of one channel: a caller's audio (R6). -/
abbrev Mono := List Sample

/-- One of four: a telephone line 1 to 4, a key line K1 to K4 or a player channel P1 to P4. -/
inductive Nth where
  | n1 | n2 | n3 | n4
deriving DecidableEq, Repr, Inhabited

/-- All four, in number order. -/
def Nth.all : List Nth := [.n1, .n2, .n3, .n4]

/-- The place counting from 0. -/
def Nth.place : Nth → Nat
  | .n1 => 0 | .n2 => 1 | .n3 => 2 | .n4 => 3

/-- The printed number 1 to 4. -/
def Nth.number (i : Nth) : Nat := i.place + 1

/-- The one at a place counting from 0. -/
def Nth.ofPlace : Nat → Option Nth
  | 0 => some .n1 | 1 => some .n2 | 2 => some .n3 | 3 => some .n4 | _ => none

/-- The one with a number 1 to 4. -/
def Nth.ofNumber (n : Nat) : Option Nth := if n = 0 then none else Nth.ofPlace (n - 1)

/-- Four like things. -/
structure Four (α : Type) where
  a : α
  b : α
  c : α
  d : α
deriving DecidableEq, Repr, Inhabited

/-- Read one of four. -/
def Four.get {α : Type} (f : Four α) : Nth → α
  | .n1 => f.a | .n2 => f.b | .n3 => f.c | .n4 => f.d

/-- Write one of four. -/
def Four.set {α : Type} (f : Four α) (i : Nth) (x : α) : Four α :=
  match i with
  | .n1 => { f with a := x }
  | .n2 => { f with b := x }
  | .n3 => { f with c := x }
  | .n4 => { f with d := x }

/-- Change one of four. -/
def Four.modify {α : Type} (f : Four α) (i : Nth) (g : α → α) : Four α := f.set i (g (f.get i))

/-- Change all four. -/
def Four.map {α β : Type} (f : Four α) (g : α → β) : Four β := ⟨g f.a, g f.b, g f.c, g f.d⟩

/-- Change all four, each by its number. -/
def Four.mapIdx {α β : Type} (f : Four α) (g : Nth → α → β) : Four β :=
  ⟨g .n1 f.a, g .n2 f.b, g .n3 f.c, g .n4 f.d⟩

/-- The same thing four times. -/
def Four.all {α : Type} (x : α) : Four α := ⟨x, x, x, x⟩

/-- The four as a list in number order. -/
def Four.toList {α : Type} (f : Four α) : List α := [f.a, f.b, f.c, f.d]

end Sys2Proof
end

