-- ==== Sys2Proof/Syntax.lean ====
section
/-! DEFINITION. The commands of the 2840: one constructor of Instr per row of spec/opcode_table.json, and the names
their operands use. -/

namespace Sys2Proof

/-- The three control ports (R193). -/
inductive PortId where
  | a | b | c
deriving DecidableEq, Repr, Inhabited

/-- The level of an input pin. The order is that of R15: HIGH, LOW. -/
inductive Level where
  | high | low
deriving DecidableEq, Repr, Inhabited

/-- The link states, in the order of R164's table. -/
inductive LinkState where
  | down | syncing | up | degraded
deriving DecidableEq, Repr, Inhabited

/-- What the pins brought in the block period that ends at a boundary (R1, R6, R8, R16, R86, R97). An audio input is the
list of its sample places, `none` where no sample arrived; places past the end of the list brought none. -/
structure PeriodInput where
  studio : List (Option Stereo) := []
  players : Four (List (Option Stereo)) := Four.all []
  netA : List (Option Stereo) := []
  netB : List (Option Stereo) := []
  fill : List (Option Stereo) := []
  alert : List (Option Stereo) := []
  consoleReturn : List (Option Stereo) := []
  screenerIn : List (Option Stereo) := []
  lineReceive : Four (List (Option Sample)) := Four.all []
  /-- sample periods in which a house word clock edge arrived, 0 to 240 (R8) -/
  houseEdges : Nat := 0
  /-- the measured rate of the house sync input, parts per million from the crystal (R8) -/
  housePpm : Int := 0
  /-- raw levels of K1 to K4 (R16) -/
  keys : Four Level := Four.all .low
  /-- ring-detect levels (R86) -/
  ring : Four Level := Four.all .low
  /-- loop-sense levels, high while loop current flows (R97) -/
  loop : Four Level := Four.all .high
deriving DecidableEq, Repr, Inhabited

/-- The kinds of internal event that come due for an owner and are taken one at a time (log 2). -/
inductive DueKind where
  -- events of the boundary
  | clockSet | clockSelect | house
  | keyEdge (k : Nth)
  | requestTimeout (p : PortId)
  | ringEdge (l : Nth) | ringTimeout (l : Nth) | loopDrop (l : Nth) | clearingEnd (l : Nth)
  | programme | lineAudio | delay | output | link | site | window | cueCounts | cueTimes | alerts
  -- reports that one owner hands another and that are taken as events of their own
  | dropLines | gateReport | dumpReport | carrying | joinEnd | withdrawal
deriving DecidableEq, Repr, Inhabited

/-- The fields of a cue entry as APPEND and INSERT carry them (section 10.6, code 25). -/
structure EntryFields where
  kind : Byte
  channel : Byte
  length : Long
  segue : Byte
  fade : Half
  timing : Byte
  time : Long
  policy : Byte
  logRef : Long
deriving DecidableEq, Repr, Inhabited

/-- An alert header as ALERT HEADER carries it (section 10.6). -/
structure HeaderFields where
  originator : Half
  serial : Half
  event1 : Byte
  event2 : Byte
  event3 : Byte
  priority : Byte
  validity : Half
  audioLength : Half
  areas : List Tri
deriving DecidableEq, Repr, Inhabited

/-- The commands. A request row names the port it comes from and carries its parameters as the catalogue of section 10.6
gives them, at their width on the port; an owner's rule judges their range. -/
inductive Instr where
  -- resets
  | powerOn
  | chipReset
  /-- the init pin of a port goes to a level; its fall is the port reset (R199) -/
  | portInit (p : PortId) (level : Level)
  -- the boundary and the pins
  /-- a block boundary: what the period brought; the events to take first, in order; the events left for steps of
  their own (R1; log 2) -/
  | blockBoundary (inp : PeriodInput) (first later : List DueKind)
  | returnFrame (bytes : List Byte)
  -- link and site
  | linkUp
  | linkDegraded
  | linkDown
  | commandTimeout
  | carryingReport
  | slotLengthElapsed
  | confirmLimit
  | windowTimeDue
  -- timebase
  | houseLock
  | houseSyncLoss
  | clockSelectionTaken
  | clockSetTakesEffect
  /-- the settled level of a key line changes to a level (R17) -/
  | keyLineEdge (k : Nth) (level : Level)
  -- lines
  | dropLines
  | ringEdge (l : Nth)
  | ringTimeout (l : Nth)
  | loopSenseDrop (l : Nth)
  | clearingEnd (l : Nth)
  -- delay
  | gateReport
  | buildStep
  | shrinkStep
  | dumpReport
  -- cue
  | seguePoint
  | entryLengthEnd
  | openLengthLimit
  | crossfadeEnd
  | runLineDelayedRise
  | hardTimeDue
  | breakInDue
  -- air
  | joinEndRelease
  | withdrawalWithoutRecord
  -- alerts
  | holdExpiry
  | advisoryWaitExpiry
  | validityExpiry
  | alertLengthReached
  | goLineDelayedRise
  -- output
  | silenceStart
  | silenceEnd
  -- port bytes
  | commandAddressWrite (p : PortId) (byte : Byte)
  /-- a write at the data address; `now`: should it complete a request, whether the owner takes it in the same event or
  later, by the request's own row (R195; log 29) -/
  | dataAddressWrite (p : PortId) (byte : Byte) (now : Bool)
  | statusRead (p : PortId)
  | replyByteRead (p : PortId)
  | requestTimeout (p : PortId)
  -- requests to PI
  | readNotices (p : PortId)
  | setNoticeMask (p : PortId) (mask : Half)
  | portReset (p : PortId)
  -- requests to TB
  | readTimebase (p : PortId) (part : Option Byte)
  | selectClock (p : PortId) (source : Byte)
  | setClock (p : PortId) (time : Long)
  | setKeyLine (p : PortId) (line action edge level : Byte)
  -- requests to AIR
  | readAir (p : PortId) (part : Option Byte)
  | setMode (p : PortId) (mode : Byte)
  | setMaxDepth (p : PortId) (depth : Byte)
  | liveInsert (p : PortId)
  | liveInsertEnd (p : PortId)
  | clearResumeLost (p : PortId)
  -- requests to CUE
  | readCue (p : PortId) (start : Half)
  | append (p : PortId) (f : EntryFields)
  | insert (p : PortId) (anchor : Half) (f : EntryFields)
  | delete (p : PortId) (serial : Half)
  | skip (p : PortId) (serial : Half)
  | take (p : PortId) (expected : Option Half)
  | itemEnd (p : PortId) (serial : Half)
  | setLowWater (p : PortId) (threshold : Byte)
  | armLowWater (p : PortId)
  -- requests to LSW
  | readLines (p : PortId) (part : Option Byte)
  | answer (p : PortId) (line : Byte)
  | hold (p : PortId) (line : Byte)
  | screen (p : PortId) (line : Byte)
  | ready (p : PortId) (line : Byte) (note : Option (List Byte))
  | unready (p : PortId) (line : Byte)
  | lineNote (p : PortId) (line : Byte) (note : List Byte)
  | takeLine (p : PortId) (line : Option Byte)
  | drop (p : PortId) (line : Byte)
  | setLineOptions (p : PortId) (dropOnDump liveCalls edge1 edge2 edge3 edge4 : Byte)
  -- requests to DLY
  | readDelay (p : PortId)
  | engage (p : PortId) (target : Half)
  | disengage (p : PortId)
  | dump (p : PortId)
  | setDelayOptions (p : PortId) (amount : Half) (ratio : Byte)
  -- requests to ALC
  | readAlerts (p : PortId) (place : Byte) (part : Option Byte)
  | readAlertTables (p : PortId) (selector start : Byte)
  | alertHeader (p : PortId) (h : HeaderFields)
  | alertEnd (p : PortId) (originator serial : Half)
  | setAreas (p : PortId) (codes : List Tri)
  | setEventAction (p : PortId) (event1 event2 event3 action : Byte)
  | setAlertTimes (p : PortId) (liveHold autoHold advisoryWait : Tri) (wake : Byte)
  | forwardAlert (p : PortId) (pair : Option (Half × Half))
  | cancelAlert (p : PortId) (originator serial : Half)
  -- requests to OUT
  | readOutput (p : PortId) (part : Option Byte)
  | safeOn (p : PortId)
  | safeOff (p : PortId)
  | setSilence (p : PortId) (threshold : Byte) (silenceTime restoreTime : Half) (failover : Byte)
  -- requests to LNK
  | readLink (p : PortId) (part : Option Byte)
  | linkRestart (p : PortId)
  -- requests to SITE
  | readSite (p : PortId) (part : Option Byte)
  | siteUp (p : PortId)
  | siteDown (p : PortId)
  | siteLow (p : PortId)
  | siteFull (p : PortId)
  | setSiteResource (p : PortId) (resource slot keepInLow : Byte) (label : List Byte)
  | setSiteOptions (p : PortId) (slotLength fullStep lowStep restore sequentialOff : Byte)
  | setLowWindow (p : PortId) (lowTime fullTime : Long) (enabled : Byte)
  -- request to LOG
  | readLog (p : PortId) (start : Long) (count : Byte)
deriving DecidableEq, Repr

end Sys2Proof
end

