-- ==== Sys2Proof/Decode.lean ====
section
/-! DEFINITION. The request catalogue of section 10.6: the code, ports and parameter bytes of each request, and the reading
of a completed request's bytes. No row of the opcode table gives bits, so no word spells a command. -/

namespace Sys2Proof

/-- The command a word spells by the opcode table's bits: none of the 109 rows gives bits (log 35). -/
def decodeTableWord (_nbits _w : Nat) : Option Instr := none

/-- A number sent most significant byte first in `k` bytes (section 10.6). -/
def beBytes : Nat → Nat → List Byte
  | 0, _ => []
  | k + 1, v => BitVec.ofNat 8 (v / 256 ^ k) :: beBytes k v

/-- The bytes of a two-byte number, most significant first. -/
def halfBytes (h : Half) : List Byte := [h.extractLsb' 8 8, h.extractLsb' 0 8]
/-- The bytes of a three-byte number, most significant first. -/
def triBytes (t : Tri) : List Byte := [t.extractLsb' 16 8, t.extractLsb' 8 8, t.extractLsb' 0 8]
/-- The bytes of a four-byte number, most significant first. -/
def longBytes (w : Long) : List Byte :=
  [w.extractLsb' 24 8, w.extractLsb' 16 8, w.extractLsb' 8 8, w.extractLsb' 0 8]

/-- A two-byte number from its bytes. -/
def half (x y : Byte) : Half := x ++ y
/-- A three-byte number from its bytes. -/
def tri (x y z : Byte) : Tri := x ++ y ++ z
/-- A four-byte number from its bytes. -/
def long (x y z w : Byte) : Long := x ++ y ++ z ++ w

/-- The three-byte items of a counted list. -/
def triList : List Byte → List Tri
  | x :: y :: z :: rest => tri x y z :: triList rest
  | _ => []

/-- The bytes of a list of three-byte items. -/
def triListBytes (ts : List Tri) : List Byte := ts.flatMap triBytes

/-- The nineteen bytes of an entry's fields (section 10.6, code 25). -/
def EntryFields.bytes (f : EntryFields) : List Byte :=
  [f.kind, f.channel] ++ longBytes f.length ++ [f.segue] ++ halfBytes f.fade ++ [f.timing] ++ longBytes f.time ++
  [f.policy] ++ longBytes f.logRef

/-- An entry's fields from nineteen bytes. -/
def EntryFields.ofBytes : List Byte → Option EntryFields
  | [k, c, l1, l2, l3, l4, g, f1, f2, t, m1, m2, m3, m4, y, r1, r2, r3, r4] =>
    some ⟨k, c, long l1 l2 l3 l4, g, half f1 f2, t, long m1 m2 m3 m4, y, long r1 r2 r3 r4⟩
  | _ => none

/-- The bytes of an alert header (section 10.6). -/
def HeaderFields.bytes (h : HeaderFields) : List Byte :=
  halfBytes h.originator ++ halfBytes h.serial ++ [h.event1, h.event2, h.event3, h.priority] ++
  halfBytes h.validity ++ halfBytes h.audioLength ++ [BitVec.ofNat 8 h.areas.length] ++ triListBytes h.areas

/-- An alert header from its bytes; its length must agree with the number of areas it declares (R127, R195). -/
def HeaderFields.ofBytes : List Byte → Option HeaderFields
  | o1 :: o2 :: s1 :: s2 :: e1 :: e2 :: e3 :: p :: v1 :: v2 :: a1 :: a2 :: n :: rest =>
    if rest.length = 3 * n.toNat then
      some ⟨half o1 o2, half s1 s2, e1, e2, e3, p, half v1 v2, half a1 a2, triList rest⟩
    else none
  | _ => none

/-- A request as its bytes: the port it comes from, its code and its parameters (R193). -/
structure Request where
  port : PortId
  code : Nat
  params : List Byte
deriving DecidableEq, Repr

/-- The optional part number of a reading request (R196). -/
def partBytes : Option Byte → List Byte
  | none => []
  | some n => [n]

/-- The request a command is, by the catalogue of section 10.6; none for a command that is no request. -/
def Instr.request : Instr → Option Request
  | .readNotices p => some ⟨p, 1, []⟩
  | .setNoticeMask p m => some ⟨p, 2, halfBytes m⟩
  | .portReset p => some ⟨p, 3, []⟩
  | .readTimebase p part => some ⟨p, 8, partBytes part⟩
  | .selectClock p src => some ⟨p, 9, [src]⟩
  | .setClock p t => some ⟨p, 10, longBytes t⟩
  | .setKeyLine p l a e v => some ⟨p, 11, [l, a, e, v]⟩
  | .readAir p part => some ⟨p, 16, partBytes part⟩
  | .setMode p m => some ⟨p, 17, [m]⟩
  | .setMaxDepth p d => some ⟨p, 18, [d]⟩
  | .liveInsert p => some ⟨p, 19, []⟩
  | .liveInsertEnd p => some ⟨p, 20, []⟩
  | .clearResumeLost p => some ⟨p, 21, []⟩
  | .readCue p n => some ⟨p, 24, halfBytes n⟩
  | .append p f => some ⟨p, 25, f.bytes⟩
  | .insert p n f => some ⟨p, 26, halfBytes n ++ f.bytes⟩
  | .delete p n => some ⟨p, 27, halfBytes n⟩
  | .skip p n => some ⟨p, 28, halfBytes n⟩
  | .take p none => some ⟨p, 29, []⟩
  | .take p (some n) => some ⟨p, 29, halfBytes n⟩
  | .itemEnd p n => some ⟨p, 30, halfBytes n⟩
  | .setLowWater p t => some ⟨p, 31, [t]⟩
  | .armLowWater p => some ⟨p, 32, []⟩
  | .readLines p part => some ⟨p, 40, partBytes part⟩
  | .answer p l => some ⟨p, 41, [l]⟩
  | .hold p l => some ⟨p, 42, [l]⟩
  | .screen p l => some ⟨p, 43, [l]⟩
  | .ready p l none => some ⟨p, 44, [l]⟩
  | .ready p l (some note) => some ⟨p, 44, l :: BitVec.ofNat 8 note.length :: note⟩
  | .unready p l => some ⟨p, 45, [l]⟩
  | .lineNote p l note => some ⟨p, 46, l :: BitVec.ofNat 8 note.length :: note⟩
  | .takeLine p none => some ⟨p, 47, []⟩
  | .takeLine p (some l) => some ⟨p, 47, [l]⟩
  | .drop p l => some ⟨p, 48, [l]⟩
  | .setLineOptions p d l e1 e2 e3 e4 => some ⟨p, 49, [d, l, e1, e2, e3, e4]⟩
  | .readDelay p => some ⟨p, 56, []⟩
  | .engage p t => some ⟨p, 57, halfBytes t⟩
  | .disengage p => some ⟨p, 58, []⟩
  | .dump p => some ⟨p, 59, []⟩
  | .setDelayOptions p a r => some ⟨p, 60, halfBytes a ++ [r]⟩
  | .readAlerts p n part => some ⟨p, 64, n :: partBytes part⟩
  | .readAlertTables p t n => some ⟨p, 65, [t, n]⟩
  | .alertHeader p h => some ⟨p, 66, h.bytes⟩
  | .alertEnd p o n => some ⟨p, 67, halfBytes o ++ halfBytes n⟩
  | .setAreas p codes => some ⟨p, 68, BitVec.ofNat 8 codes.length :: triListBytes codes⟩
  | .setEventAction p e1 e2 e3 a => some ⟨p, 69, [e1, e2, e3, a]⟩
  | .setAlertTimes p l a w k => some ⟨p, 70, triBytes l ++ triBytes a ++ triBytes w ++ [k]⟩
  | .forwardAlert p none => some ⟨p, 71, []⟩
  | .forwardAlert p (some (o, n)) => some ⟨p, 71, halfBytes o ++ halfBytes n⟩
  | .cancelAlert p o n => some ⟨p, 72, halfBytes o ++ halfBytes n⟩
  | .readOutput p part => some ⟨p, 80, partBytes part⟩
  | .safeOn p => some ⟨p, 81, []⟩
  | .safeOff p => some ⟨p, 82, []⟩
  | .setSilence p t q r f => some ⟨p, 83, [t] ++ halfBytes q ++ halfBytes r ++ [f]⟩
  | .readLink p part => some ⟨p, 88, partBytes part⟩
  | .linkRestart p => some ⟨p, 89, []⟩
  | .readSite p part => some ⟨p, 96, partBytes part⟩
  | .siteUp p => some ⟨p, 97, []⟩
  | .siteDown p => some ⟨p, 98, []⟩
  | .siteLow p => some ⟨p, 99, []⟩
  | .siteFull p => some ⟨p, 100, []⟩
  | .setSiteResource p r t k label => some ⟨p, 101, r :: t :: k :: BitVec.ofNat 8 label.length :: label⟩
  | .setSiteOptions p l f w r q => some ⟨p, 102, [l, f, w, r, q]⟩
  | .setLowWindow p l f e => some ⟨p, 103, longBytes l ++ longBytes f ++ [e]⟩
  | .readLog p n k => some ⟨p, 112, longBytes n ++ [k]⟩
  | _ => none

/-- The ports a request code is permitted on; none for a code that is not in the catalogue (section 10.6, R195). -/
def portsOf (code : Nat) : Option (List PortId) :=
  if code ∈ [1, 2, 3, 8, 16, 24, 40, 56, 64, 65, 80, 88, 96, 112] then some [.a, .b, .c]
  else if code ∈ [9, 11, 17, 18, 19, 20, 41, 42, 43, 44, 45, 46, 47, 48, 49, 57, 58, 59, 60, 71, 72, 89] then some [.b]
  else if code ∈ [10, 21, 25, 26, 27, 28, 29, 31, 32, 68, 69, 70, 81, 82, 83, 97, 98, 99, 100, 101, 102, 103]
    then some [.a, .b]
  else if code = 30 then some [.a]
  else if code ∈ [66, 67] then some [.c]
  else none

/-- A reading's optional part number from its bytes (R196). -/
def partOf : List Byte → Option (Option Byte)
  | [] => some none
  | [n] => some (some n)
  | _ => none

/-- The request that a completed request's bytes are; none when the code is unknown or does not allow the length (R195,
section 10.6). -/
def decodeRequest (p : PortId) (code : Nat) (bs : List Byte) : Option Instr :=
  match code, bs with
  | 1, [] => some (.readNotices p)
  | 2, [x, y] => some (.setNoticeMask p (half x y))
  | 3, [] => some (.portReset p)
  | 8, bs => (partOf bs).map (.readTimebase p)
  | 9, [x] => some (.selectClock p x)
  | 10, [x, y, z, w] => some (.setClock p (long x y z w))
  | 11, [x, y, z, w] => some (.setKeyLine p x y z w)
  | 16, bs => (partOf bs).map (.readAir p)
  | 17, [x] => some (.setMode p x)
  | 18, [x] => some (.setMaxDepth p x)
  | 19, [] => some (.liveInsert p)
  | 20, [] => some (.liveInsertEnd p)
  | 21, [] => some (.clearResumeLost p)
  | 24, [x, y] => some (.readCue p (half x y))
  | 25, bs => (EntryFields.ofBytes bs).map (.append p)
  | 26, x :: y :: bs => (EntryFields.ofBytes bs).map (.insert p (half x y))
  | 27, [x, y] => some (.delete p (half x y))
  | 28, [x, y] => some (.skip p (half x y))
  | 29, [] => some (.take p none)
  | 29, [x, y] => some (.take p (some (half x y)))
  | 30, [x, y] => some (.itemEnd p (half x y))
  | 31, [x] => some (.setLowWater p x)
  | 32, [] => some (.armLowWater p)
  | 40, bs => (partOf bs).map (.readLines p)
  | 41, [x] => some (.answer p x)
  | 42, [x] => some (.hold p x)
  | 43, [x] => some (.screen p x)
  | 44, [x] => some (.ready p x none)
  | 44, x :: n :: note => if note.length = n.toNat then some (.ready p x (some note)) else none
  | 45, [x] => some (.unready p x)
  | 46, x :: n :: note => if note.length = n.toNat then some (.lineNote p x note) else none
  | 47, [] => some (.takeLine p none)
  | 47, [x] => some (.takeLine p (some x))
  | 48, [x] => some (.drop p x)
  | 49, [x, y, e1, e2, e3, e4] => some (.setLineOptions p x y e1 e2 e3 e4)
  | 56, [] => some (.readDelay p)
  | 57, [x, y] => some (.engage p (half x y))
  | 58, [] => some (.disengage p)
  | 59, [] => some (.dump p)
  | 60, [x, y, r] => some (.setDelayOptions p (half x y) r)
  | 64, x :: bs => (partOf bs).map (.readAlerts p x)
  | 65, [x, y] => some (.readAlertTables p x y)
  | 66, bs => (HeaderFields.ofBytes bs).map (.alertHeader p)
  | 67, [x, y, z, w] => some (.alertEnd p (half x y) (half z w))
  | 68, n :: bs => if bs.length = 3 * n.toNat then some (.setAreas p (triList bs)) else none
  | 69, [x, y, z, a] => some (.setEventAction p x y z a)
  | 70, [l1, l2, l3, a1, a2, a3, w1, w2, w3, k] => some (.setAlertTimes p (tri l1 l2 l3) (tri a1 a2 a3) (tri w1 w2 w3) k)
  | 71, [] => some (.forwardAlert p none)
  | 71, [x, y, z, w] => some (.forwardAlert p (some (half x y, half z w)))
  | 72, [x, y, z, w] => some (.cancelAlert p (half x y) (half z w))
  | 80, bs => (partOf bs).map (.readOutput p)
  | 81, [] => some (.safeOn p)
  | 82, [] => some (.safeOff p)
  | 83, [t, q1, q2, r1, r2, f] => some (.setSilence p t (half q1 q2) (half r1 r2) f)
  | 88, bs => (partOf bs).map (.readLink p)
  | 89, [] => some (.linkRestart p)
  | 96, bs => (partOf bs).map (.readSite p)
  | 97, [] => some (.siteUp p)
  | 98, [] => some (.siteDown p)
  | 99, [] => some (.siteLow p)
  | 100, [] => some (.siteFull p)
  | 101, r :: t :: k :: n :: label => if label.length = n.toNat then some (.setSiteResource p r t k label) else none
  | 102, [l, f, w, r, q] => some (.setSiteOptions p l f w r q)
  | 103, [l1, l2, l3, l4, f1, f2, f3, f4, e] => some (.setLowWindow p (long l1 l2 l3 l4) (long f1 f2 f3 f4) e)
  | 112, [x, y, z, w, k] => some (.readLog p (long x y z w) k)
  | _, _ => none

end Sys2Proof
end

