-- ==== Sys2Proof/Config.lean ====
section
/-! DEFINITION. What is fixed for every 2840 (the spec's constants) and the values the spec leaves open. -/

namespace Sys2Proof.Config

/-- Blocks in one day; the air clock runs from 0 to one less (R12). -/
def day : Nat := 17280000
/-- Samples in one block (R1). -/
def blockSamples : Nat := 240
/-- Cells of the delay ring (R106). -/
def ringCells : Nat := 8192
/-- The longest delay (R106). -/
def maxDelay : Nat := 6000
/-- Entries the cue list may hold (R52). -/
def cueEntries : Nat := 64
/-- The longest length of a cue entry, and the limit of an open-length item (R52, R62). -/
def maxLength : Nat := 1440000
/-- Entries the alert queue may hold (R135). -/
def alertEntries : Nat := 8
/-- Pairs the duplicate table may hold (R128). -/
def knownPairs : Nat := 32
/-- Entry places of the air log (R188). -/
def logPlaces : Nat := 512
/-- Log serials in use, 1 to this number (R188, R191). -/
def logSerials : Nat := 4294967295
/-- Commands the site command queue may hold (R167). -/
def siteCommands : Nat := 8
/-- Boundaries before an outstanding command fails (R169). -/
def commandTimeout : Nat := 100
/-- Boundaries a stage may take (R177). -/
def confirmLimit : Nat := 2000
/-- Ring quiet at which a ringing line times out (R87). -/
def ringTimeout : Nat := 1600
/-- The clearing guard in boundaries (R96). -/
def clearingGuard : Nat := 200
/-- Loop loss at which a line is dropped (R97). -/
def loopLossLimit : Nat := 20
/-- Qualifying periods in a row after which HOUSE is locked (R8). -/
def houseLock : Nat := 200
/-- Boundaries of idleness after which an open request is discarded (R197). -/
def requestIdle : Nat := 10
/-- Full scale of the dBFS scale: the largest positive sample. DESIGN CHOICE (log 9): unsafe. -/
def fullScale : Nat := 8388607

/-- FREE VALUE (log 10): R26 gives the gains of a crossfade and not how a sample that is no whole number is rounded.
Whether the sum `num / den` is rounded up rather than down; consulted only when `den` does not divide `num`. -/
opaque mixRoundsUp (num : Int) (den : Nat) : Bool

/-- FREE VALUE (log 12): R83 sends a caller a stereo block over an output of one channel (R7), and no rule says how two
channels become one. The sample at a place of the one channel that stands for a block. -/
opaque oneChannel (block : Audio) (place : Nat) : Sample

end Sys2Proof.Config
end

