-- ==== Sys2Proof/Machine/State.lean ====
section
/-! DEFINITION. The state of the 2840 as plain data, block by block, and the state after power-on. -/

namespace Sys2Proof.Machine

open Sys2Proof

/-! ### Names shared by the blocks -/

/-- The results of a reply, with the codes of section 10.6. -/
inductive Result where
  | ok | pending | badFormat | notPermitted | badValue | wrongState | wrongMode | full | notFound | inUse | stale
  | heldByLine | duplicate | stackFull
deriving DecidableEq, Repr, Inhabited

/-- The 16 notice kinds, in the order of the introduction's list (bit 0 to bit 15). -/
inductive Notice where
  | entryStarted | entryEnded | lowWater | hardTime | lineRing | lineChange | delayState | dump | alertArrived
  | alertState | safeChange | linkState | siteState | clock | resumeLost | logNew
deriving DecidableEq, Repr, Inhabited

/-- Clock sources, in the order of R8. -/
inductive ClockSource where
  | internal | house | link
deriving DecidableEq, Repr, Inhabited

/-- Key line actions, in the order of R15. -/
inductive KeyAction where
  | none | take | dump | safe | forward | dropLines
deriving DecidableEq, Repr, Inhabited

/-- Key line edges, in the order of R15. -/
inductive KeyEdge where
  | none | rising | falling | both
deriving DecidableEq, Repr, Inhabited

/-- The direction of a ring edge, in the order of R94. -/
inductive RingDir where
  | rising | falling
deriving DecidableEq, Repr, Inhabited

/-- Air modes, in the order of R21. -/
inductive Mode where
  | live | auto | unattended | test
deriving DecidableEq, Repr, Inhabited

/-- Network feeds. -/
inductive Feed where
  | netA | netB
deriving DecidableEq, Repr, Inhabited

/-- What the programme selector may select (R25). -/
inductive Source where
  | studio
  | play (channel : Nth)
  | net (feed : Feed)
  | fill
deriving DecidableEq, Repr, Inhabited

/-- The origin field of a block tag (R2). -/
inductive Origin where
  | programme (source : Source)
  | alert
deriving DecidableEq, Repr, Inhabited

/-- An alert's identity: originator and serial (R127). -/
structure Pair where
  originator : Half
  serial : Half
deriving DecidableEq, Repr, Inhabited

/-- A block tag (R2). `peak` is the peak level in decibels below full scale, 0 to 96. -/
structure Tag where
  origin : Origin
  /-- entry serial and log reference, both present or both absent -/
  entry : Option (Nat × Long)
  lines : Four Bool
  stretch : Bool
  peak : Nat
  alert : Option Pair
deriving DecidableEq, Repr, Inhabited

/-- A block with its tag. -/
structure Block where
  audio : Audio
  tag : Tag
deriving DecidableEq, Repr, Inhabited

/-- A block of 240 zero samples (R6). -/
def silence : Audio := List.replicate 240 ⟨0, 0⟩

/-- One channel of 240 zero samples (R6). -/
def monoSilence : Mono := List.replicate 240 0

/-- The block an unlisted ring cell reads as, and the programme block before the first boundary: silence tagged STUDIO.
DESIGN CHOICE (logs 11 and 13): unsafe. -/
def silentBlock : Block := ⟨silence, ⟨.programme .studio, none, Four.all false, false, 96, none⟩⟩

/-- The air block before the first boundary: silence tagged FILL. DESIGN CHOICE (log 11): unsafe. -/
def silentFill : Block := ⟨silence, ⟨.programme .fill, none, Four.all false, false, 96, none⟩⟩

/-! ### PI -/

/-- Phases of a request (R193). -/
inductive Phase where
  | idle | codeTaken | parameters | complete
deriving DecidableEq, Repr, Inhabited

/-- One control port (R193). -/
structure Port where
  phase : Phase := .idle
  code : Byte := 0
  length : Nat := 0
  params : List Byte := []
  idleCount : Nat := 0
  reply : List Byte := []
  bytesRead : Nat := 0
  busy : Bool := false
  replyReady : Bool := false
  timeout : Bool := false
  overrun : Bool := false
  flags : Half := 0
  mask : Half := 0
  /-- the level of the init pin (R199) -/
  init : Level := .high
  /-- the byte the last read drove on the data pins -/
  dataOut : Byte := 0
deriving DecidableEq, Repr, Inhabited

/-- A request handed to its owner and not yet taken (R195); its reply is discarded when its port was reset (R199). -/
structure Handed where
  request : Instr
  discard : Bool
deriving DecidableEq, Repr

/-- The Port Interface. -/
structure PI where
  a : Port := {}
  b : Port := {}
  c : Port := {}
  handed : List Handed := []
deriving DecidableEq, Repr

/-! ### TB -/

/-- A key line record (R15) with its filter (R16). -/
structure KeyLine where
  action : KeyAction := .none
  edge : KeyEdge := .none
  active : Level := .high
  /-- LOW until the first boundary's sampling. DESIGN CHOICE (log 32): unsafe. -/
  settled : Level := .low
  /-- a boundary has sampled the line since the reset (R16, R20) -/
  sampled : Bool := false
  /-- the raw level differed from the settled level at the last boundary -/
  differed : Bool := false
deriving DecidableEq, Repr, Inhabited

/-- What TB hands CUE and SITE when a SET CLOCK takes effect (R14). -/
structure ClockReport where
  old : Nat
  new : Nat
  /-- the clock-set flag before the setting -/
  wasSet : Bool
deriving DecidableEq, Repr, Inhabited

/-- The Timebase. -/
structure TB where
  source : ClockSource := .internal
  pendingSource : Option ClockSource := none
  /-- a chip reset's switch to INTERNAL awaits the next boundary (R20; log 27) -/
  toInternal : Bool := false
  houseCount : Nat := 0
  /-- the house sync input qualified in the period just ended (R8) -/
  houseOk : Bool := false
  /-- the link state LNK last reported (R8) -/
  link : LinkState := .down
  clock : Nat := 0
  clockSet : Bool := false
  pendingTime : Option Nat := none
  /-- the report of this boundary's SET CLOCK, if one took effect -/
  report : Option ClockReport := none
  keys : Four KeyLine := Four.all {}
  keyHeld : Bool := false
deriving DecidableEq, Repr, Inhabited

/-! ### DLY (before AIR, whose records keep a delay state) -/

/-- States of the delay store other than FROZEN, in the order of R28. -/
inductive RunState where
  | bypass | building | engaged | shrinking
deriving DecidableEq, Repr, Inhabited

/-- States of the delay store (R106). -/
inductive DelayState where
  | run (r : RunState)
  | frozen
deriving DecidableEq, Repr, Inhabited

/-- The Delay Store. -/
structure DLY where
  /-- the written cells, in the canonical form of Ring.wf (R106) -/
  ring : List (Nat × Block) := []
  writePos : Nat := 0
  readPos : Nat := 0
  state : DelayState := .run .bypass
  target : Nat := 0
  dumpAmount : Nat := 1400
  ratio : Nat := 20
  stepCount : Nat := 0
  last : Option Block := none
  recompute : Bool := false
  kept : Option RunState := none
  gateAir : Bool := false
  gateLive : Bool := false
deriving DecidableEq, Repr, Inhabited

/-! ### AIR -/

/-- The two air slots. -/
inductive Slot where
  | a | b
deriving DecidableEq, Repr, Inhabited

/-- Kinds of context record, in the order of R28. -/
inductive RecordKind where
  | alert | breakIn | liveInsert
deriving DecidableEq, Repr, Inhabited

/-- A context record on the stack (R28); the record below is the next in the stack's list. -/
structure ContextRecord where
  number : Nat
  kind : RecordKind
  before : Source
  /-- cue serial and elapsed -/
  suspended : Option (Nat × Nat)
  parked : List (Nth × Slot)
  delayBefore : Option RunState
  /-- cue serial of a JOIN and its due time -/
  late : Option (Nat × Nat)
deriving DecidableEq, Repr, Inhabited

/-- The alert chain state of the current air context, in the order of R49. -/
inductive ChainState where
  | none | withContext | withoutContext
deriving DecidableEq, Repr, Inhabited

/-- The Air Controller. -/
structure AIR where
  mode : Mode := .live
  chain : ChainState := .none
  chainSource : Option Source := none
  /-- top first -/
  stack : List ContextRecord := []
  free : List Nat := [1, 2, 3, 4]
  maxDepth : Nat := 3
deriving DecidableEq, Repr, Inhabited

/-! ### CUE -/

/-- The segue of an ITEM (R52). -/
inductive Segue where
  | cut
  | fade (length : Nat)
deriving DecidableEq, Repr, Inhabited

/-- The policy of an ITEM (R52); a JOIN's is always REJOIN. -/
inductive Policy where
  | resume | restart | skip
deriving DecidableEq, Repr, Inhabited

/-- An entry's kind with the fields that kind has (R52). -/
inductive CueKind where
  | item (channel : Nth) (length : Option Nat) (segue : Segue) (policy : Policy)
  | join (feed : Feed) (length : Nat)
  | stop
deriving DecidableEq, Repr, Inhabited

/-- An entry's timing (R52). -/
inductive Timing where
  | none
  | hard (time : Nat)
  | breakIn (time : Nat)
deriving DecidableEq, Repr, Inhabited

/-- An entry's state, in the order of R52. -/
inductive CueState where
  | waiting | cued | cuedLate | playing | fading | suspended
deriving DecidableEq, Repr, Inhabited

/-- A cue entry (R52). `begun` and `added` are the numbers of the last boundaries before the events that started it and that
added it (R74; log 15). -/
structure CueEntry where
  serial : Nat
  kind : CueKind
  timing : Timing
  logRef : Long
  state : CueState := .waiting
  elapsed : Nat := 0
  timeReached : Bool := false
  joinEnd : Option Nat := none
  begun : Nat := 0
  added : Nat := 0
deriving DecidableEq, Repr, Inhabited

/-- A channel run line (R61). `riseAfter`: held low until the boundary after the one with this number, whatever starts on the
channel until then. -/
structure RunLine where
  high : Bool := false
  riseAfter : Option Nat := none
  /-- the line fell in the event being taken -/
  fell : Bool := false
deriving DecidableEq, Repr, Inhabited

/-- The Cue Sequencer. -/
structure CUE where
  list : List CueEntry := []
  counter : Nat := 1
  threshold : Nat := 0
  armed : Bool := false
  held : Bool := false
  run : Four RunLine := Four.all {}
  /-- an entry has started in the event being taken (R142) -/
  started : Bool := false
deriving DecidableEq, Repr, Inhabited

/-! ### LSW -/

/-- Line states, in the order of R81. -/
inductive LineState where
  | idle | ringing | screening | hold | ready | air | parked | clearing
deriving DecidableEq, Repr, Inhabited

/-- A line record (R81); its slot is the slot that holds it. -/
structure Line where
  state : LineState := .idle
  note : Option (List Byte) := none
  waiting : Option Nat := none
  /-- on-air time and dumps -/
  onAir : Option (Nat × Nat) := none
  ringQuiet : Nat := 0
  clearing : Nat := 0
  loopLoss : Nat := 0
  /-- ring-detect level as last sampled -/
  ring : Option Level := none
  /-- loop-sense level as last sampled -/
  loop : Option Level := none
deriving DecidableEq, Repr, Inhabited

/-- The Line Switch. -/
structure LSW where
  lines : Four Line := Four.all {}
  queue : List Nth := []
  slotA : Option Nth := none
  slotB : Option Nth := none
  dropOnDump : Bool := false
  liveCalls : Bool := false
  ringEdges : Four RingDir := Four.all .rising
deriving DecidableEq, Repr, Inhabited

/-! ### ALC -/

/-- An event code: three character codes (R127). -/
structure EventCode where
  c1 : Byte
  c2 : Byte
  c3 : Byte
deriving DecidableEq, Repr, Inhabited

/-- Event actions, in the order of R130. -/
inductive EventAction where
  | forward | hold | ignore
deriving DecidableEq, Repr, Inhabited

/-- Alert states, in the order of R135. -/
inductive AlertState where
  | pending | ready | onAir
deriving DecidableEq, Repr, Inhabited

/-- An alert header in range (R127). -/
structure Header where
  pair : Pair
  event : EventCode
  priority : Nat
  areas : List Nat
  /-- minutes -/
  validity : Nat
  /-- blocks -/
  audioLength : Nat
deriving DecidableEq, Repr, Inhabited

/-- An entry of the alert queue (R135). `begun` is the number of the last boundary before its airing (log 15). -/
structure AlertEntry where
  header : Header
  state : AlertState
  arrival : Nat
  hold : Nat := 0
  advisory : Nat := 0
  validity : Nat
  interruptions : Nat := 0
  played : Nat := 0
  begun : Nat := 0
deriving DecidableEq, Repr, Inhabited

/-- The Alert Controller. -/
structure ALC where
  queue : List AlertEntry := []
  /-- oldest first -/
  known : List Pair := []
  areas : List Nat := []
  events : List (EventCode × EventAction) := []
  liveHold : Nat := 24000
  autoHold : Nat := 24000
  advisoryWait : Nat := 12000
  wake : Bool := true
  chainOpen : Bool := false
  go : Bool := false
  /-- the go line is held low, to rise at the boundary after the one with this number (R144) -/
  goRiseAfter : Option Nat := none
  nextArrival : Nat := 0
deriving DecidableEq, Repr, Inhabited

/-! ### OUT -/

/-- Safe reasons, in the order of R154. -/
inductive SafeReason where
  | key | port | silence | test | resumeLost
deriving DecidableEq, Repr, Inhabited

/-- The safe-reason set (R154). -/
structure SafeSet where
  key : Bool := false
  port : Bool := false
  silence : Bool := false
  test : Bool := false
  resumeLost : Bool := false
deriving DecidableEq, Repr, Inhabited

/-- The Output Stage. -/
structure OUT where
  reasons : SafeSet := {}
  alertFlag : Bool := false
  alertId : Option Pair := none
  /-- decibels below full scale, 20 to 60 -/
  threshold : Nat := 45
  silenceTime : Nat := 4000
  restoreTime : Nat := 1000
  failover : Bool := true
  quietRun : Nat := 0
  soundRun : Nat := 0
  deadAir : Bool := false
  origin : Option Origin := none
  entry : Option (Nat × Long) := none
  lines : Four Bool := Four.all false
  entryRun : Nat := 0
  carriedRun : Nat := 0
  lineCounts : Four Nat := Four.all 0
  carrying : Bool := false
deriving DecidableEq, Repr, Inhabited

/-! ### LNK and SITE -/

/-- Site modes, in the order of R163. -/
inductive SiteMode where
  | off | full | low | fault
deriving DecidableEq, Repr, Inhabited

/-- What the site reports of a resource, in the order of R163. -/
inductive Reported where
  | off | on | fault
deriving DecidableEq, Repr, Inhabited

/-- A return frame whose check is correct and whose fields are in range (R163). -/
structure ReturnFrame where
  echo : Nat
  mode : SiteMode
  /-- resources 0 to 7 -/
  resources : List Reported
  power : Nat
  /-- command number, and whether the outcome is DONE -/
  ack : Option (Nat × Bool)
  fill : Bool
deriving DecidableEq, Repr, Inhabited

/-- Site commands (R167). -/
inductive SiteCommand where
  | on (resource : Nat)
  | off (resource : Nat)
  | power (step : Nat)
deriving DecidableEq, Repr, Inhabited

/-- A command in the site command queue, with the stage it was put for (log 20). -/
structure QueuedCommand where
  command : SiteCommand
  stage : Nat
deriving DecidableEq, Repr, Inhabited

/-- The outstanding command's number, the boundary at which it became outstanding, and its first sequence (R168). -/
structure Outstanding where
  number : Nat
  since : Nat
  firstSeq : Option Nat
deriving DecidableEq, Repr, Inhabited

/-- Why a command failed, in the order of R169. -/
inductive FailReason where
  | timeout | link | refused
deriving DecidableEq, Repr, Inhabited

/-- Content kinds of a forward frame (R162). -/
inductive Content where
  | programme | alert | fill
deriving DecidableEq, Repr, Inhabited

/-- A forward frame (R162): its bytes 0 to 4, the audio, and the check. -/
structure ForwardFrame where
  seq : Nat
  content : Content
  command : Option (Nat × SiteCommand)
  audio : Audio
  check : Half
deriving DecidableEq, Repr, Inhabited

/-- The Link Controller. -/
structure LNK where
  state : LinkState := .down
  good : Nat := 0
  missing : Nat := 0
  nextSeq : Nat := 0
  lastSent : Option Nat := none
  lastEcho : Option Nat := none
  /-- the first good frame of the period in progress -/
  period : Option ReturnFrame := none
  /-- the frame of the period just ended, for the judgement -/
  judged : Option ReturnFrame := none
  /-- head first; the outstanding command is the head -/
  queue : List QueuedCommand := []
  outstanding : Option Outstanding := none
  nextNumber : Nat := 0
  delivered : Option ReturnFrame := none
  siteFill : Bool := false
  frame : Option ForwardFrame := none
deriving DecidableEq, Repr, Inhabited

/-- Site states, in the order of R173. -/
inductive SiteState where
  | unknown | off | starting | full | lowering | low | raising | stopping | fault
deriving DecidableEq, Repr, Inhabited

/-- A resource's record (R173). -/
structure Resource where
  slot : Option Nat := none
  keepInLow : Bool := false
  label : Option (List Byte) := none
  /-- commanded ON -/
  commanded : Bool := false
  reported : Reported := .off
deriving DecidableEq, Repr, Inhabited

/-- Stage kinds, in the order of R177. -/
inductive StageKind where
  | upSlot | downSlot | power
deriving DecidableEq, Repr, Inhabited

/-- A stage (R177). -/
structure Stage where
  kind : StageKind
  /-- for UP SLOT and DOWN SLOT; none for the one stage of a stop that is not sequential (R180; log 21) -/
  slot : Option Nat
  /-- for POWER -/
  step : Nat
  toPut : List SiteCommand
  awaiting : List SiteCommand
  age : Nat
  /-- the stage put at least one command -/
  commands : Bool
  /-- the resources the stage commanded OFF -/
  offs : List Nat
  /-- the commanded values before the stage's commands (R180, step 1) -/
  prior : List (Nat × Bool)
  /-- number of the stage, which its commands carry -/
  id : Nat
  /-- number of the last boundary before it began (log 15) -/
  begun : Nat
deriving DecidableEq, Repr, Inhabited

/-- The low window's settings (R173), as one boundary finds them. -/
structure LowWindow where
  low : Nat
  full : Nat
  enabled : Bool
deriving DecidableEq, Repr, Inhabited

/-- The Site Sequencer. -/
structure SITE where
  /-- resources 0 to 7 -/
  resources : List Resource := List.replicate 8 {}
  slotLength : Nat := 200
  fullStep : Nat := 15
  lowStep : Nat := 8
  /-- restore choice PREVIOUS -/
  restorePrevious : Bool := true
  sequentialOff : Bool := true
  lowTime : Nat := 15840000
  fullTime : Nat := 4320000
  windowEnabled : Bool := false
  state : SiteState := .unknown
  power : Option Nat := none
  stepBeforeLow : Nat := 15
  lastMode : Option SiteMode := none
  reportedStep : Option Nat := none
  stage : Option Stage := none
  /-- the resources a STOPPING works on (R180, step 3) -/
  toStop : List Nat := []
  pendingWake : Bool := false
  nextStage : Nat := 0
deriving DecidableEq, Repr, Inhabited

/-! ### LOG -/

/-- Log kinds, in the order of section 9.3's table. -/
inductive LogKind where
  | itemAired | itemEnded | lineOnAir | lineOffAir | safeOn | safeOff | silence | itemSkipped | itemMissed | joinStart
  | joinEnd | liveInsertStart | liveInsertEnd | stackFull | resumeLost | modeChange | dump | alertReceived
  | alertFiltered | alertIgnored | alertRefusedFull | alertDisplaced | alertForwarded | alertOnAir | alertInterrupted
  | alertEnded | alertCancelled | alertExpired | alertDuplicate | clockFallback | linkState | siteCommandFailed
  | siteState | scheduleNotTaken | reset
deriving DecidableEq, Repr, Inhabited

/-- The subject of a log entry (R188). -/
inductive Subject where
  | none
  | cue (serial : Nat)
  | line (l : Nth)
  | alert (pair : Pair)
  | resource (r : Nat)
deriving DecidableEq, Repr, Inhabited

/-- Why an entry leaves as SKIPPED, in the order of section 3.9's table. -/
inductive SkipCause where
  | request | stopPassed | hardTime | noContext | policy
deriving DecidableEq, Repr, Inhabited

/-- Why an entry leaves as MISSED, in the order of section 3.9's table. -/
inductive MissCause where
  | sameTime | held | stackFull | tooLate | clockJump
deriving DecidableEq, Repr, Inhabited

/-- Causes of a site state change, in the order of R174 and R183. -/
inductive SiteCause where
  | request | window | wake | adopted | complete
  | resourceFault (r : Nat)
  | siteFault
  | confirmLimit (kind : StageKind) (slot : Option Nat) (step : Nat)
  | commandTimeout | commandRefused
deriving DecidableEq, Repr, Inhabited

/-- How an alert was forwarded, in the order of section 6.8's table. -/
inductive ForwardCause where
  | auto | request | key
deriving DecidableEq, Repr, Inhabited

/-- How an airing ended as AIRED, in the order of R146. -/
inductive EndCause where
  | length | ended | cutShort
deriving DecidableEq, Repr, Inhabited

/-- A schedule that was not taken, in the order of section 8.8's table. -/
inductive ScheduleWord where
  | lowTime | fullTime | wake
deriving DecidableEq, Repr, Inhabited

/-- The detail of a log entry, as the rule that appends it gives (R188). -/
inductive Detail where
  | number (n : Nat)
  | aired (logRef : Long) (carrying : Bool)
  | ended (entryRun carriedRun : Nat)
  | carrying (yes : Bool)
  | reason (r : SafeReason)
  | silence (start : Bool)
  | skipped (c : SkipCause)
  | missed (c : MissCause)
  | mode (m : Mode) (forced : Bool)
  | source (c : ClockSource)
  | received (priority : Nat) (s : AlertState)
  | event (e : EventCode)
  | pair (p : Pair)
  | forwarded (c : ForwardCause)
  | onAir (priority interruptions : Nat)
  | alertEnd (c : EndCause)
  | alertState (s : AlertState)
  | link (old new : LinkState)
  | siteFill (yes : Bool)
  | command (c : SiteCommand) (r : FailReason)
  | site (old new : SiteState) (c : SiteCause)
  | schedule (w : ScheduleWord) (s : SiteState)
deriving DecidableEq, Repr, Inhabited

/-- A log entry (R188). A time of `none` is "clock not set". -/
structure LogEntry where
  serial : Nat
  time : Option Nat
  kind : LogKind
  subject : Subject
  detail : Detail
  repeats : Nat
  /-- present only when repeat is above 1 -/
  lastTime : Option (Option Nat)
deriving DecidableEq, Repr, Inhabited

/-- The Air Log. -/
structure LOG where
  /-- newest first -/
  entries : List LogEntry := []
  next : Nat := 1
deriving DecidableEq, Repr, Inhabited

/-! ### Audio -/

/-- The input blocks of one boundary (R6). -/
structure Inputs where
  studio : Audio := silence
  players : Four Audio := Four.all silence
  netA : Audio := silence
  netB : Audio := silence
  fill : Audio := silence
  alert : Audio := silence
  consoleReturn : Audio := silence
  screenerIn : Audio := silence
  lineReceive : Four Mono := Four.all monoSilence
deriving DecidableEq, Repr, Inhabited

/-- The blocks formed at one boundary that a stage downstream takes at the next (R1). -/
structure Blocks where
  inputs : Inputs := {}
  programme : Block := silentBlock
  delayed : Option Block := none
  air : Block := silentFill
deriving DecidableEq, Repr, Inhabited

/-- The audio of the chain: the blocks of this boundary and of the previous one, and the line audio sent in this period
(R1, R7, R83). That AIR A, AIR B and SCREENER OUT carry one channel is the model's: R7 says so of the telephone outputs alone.
DESIGN CHOICE (log 57): unsafe. -/
structure Audios where
  cur : Blocks := {}
  prev : Blocks := {}
  /-- LINE 1 to LINE 4 SEND (R83), one channel each (R7; log 12) -/
  lineSend : Four Mono := Four.all monoSilence
  /-- the callers in slot A, in slot B and in SCREENING (R7; log 57) -/
  airA : Mono := monoSilence
  airB : Mono := monoSilence
  screenerOut : Mono := monoSilence
deriving DecidableEq, Repr, Inhabited

/-! ### The whole machine -/

/-- An internal event that has come due and has not been taken (log 2). -/
inductive Due where
  | clockSet | clockSelect | house
  | keyEdge (k : Nth)
  | requestTimeout (p : PortId)
  | ringEdge (l : Nth) | ringTimeout (l : Nth) | loopDrop (l : Nth) | clearingEnd (l : Nth)
  | programme | lineAudio | delay | output | link | site
  /-- with the settings in force at the boundary: new ones are matched from the next (R176) -/
  | window (settings : LowWindow)
  | cueCounts | cueTimes | alerts
  | dropLines
  | gateReport (anyAir liveCalls : Bool)
  /-- with whether DLY was FROZEN at the dump, which then drops and counts no one (R100) -/
  | dumpReport (frozen : Bool)
  | carrying (link : LinkState) (siteFill : Bool)
  | joinEnd (record serial : Nat)
  | withdrawal (record serial : Nat)
deriving DecidableEq, Repr, Inhabited

/-- The state of the 2840. -/
structure State where
  /-- commands waiting, first in first out -/
  pending : List Instr := []
  pi : PI := {}
  tb : TB := {}
  air : AIR := {}
  cue : CUE := {}
  lsw : LSW := {}
  dly : DLY := {}
  alc : ALC := {}
  out : OUT := {}
  lnk : LNK := {}
  site : SITE := {}
  log : LOG := {}
  audio : Audios := {}
  /-- internal events that have come due and have not been taken, oldest first (log 2) -/
  due : List Due := []
  /-- the number of boundaries taken (log 15) -/
  boundaryNo : Nat := 0
deriving DecidableEq, Repr

/-- Reasons a command could stop the block. The spec names none (00_scope, Errors: an error in a request is its reply, an
error in an event is a log entry and a notice), so there is no constructor. -/
inductive Fault where
deriving DecidableEq, Repr

/-- Reasons a command has no meaning in the model. -/
inductive Refusal where
  /-- Raised by exec for a row that has no meaning yet; safe: nothing can be proved about a next state. -/
  | notModelled (mnemonic : String)
deriving DecidableEq, Repr

/-- The machine right after power-on, by the power-on columns of R20, R50, R80, R105, R126, R151, R172, R187, R192 and
R200; the values the spec leaves to the model are named in logs 3, 11, 13 and 28. -/
def State.reset : State := {}

end Sys2Proof.Machine
end

