-- ==== Sys2Proof/Machine/Ops.lean ====
section
/-! DEFINITION. The named operations every owner uses: writing one block's state, the delay ring's cells, raising a notice,
appending to the air log, handing over an event, and filling a reply. -/

namespace Sys2Proof.Machine

open Sys2Proof

/-! ### Writing one block's state -/

/-- Write PI's state. -/
def State.withPi (s : State) (x : PI) : State := { s with pi := x }
/-- Write TB's state. -/
def State.withTb (s : State) (x : TB) : State := { s with tb := x }
/-- Write AIR's state. -/
def State.withAir (s : State) (x : AIR) : State := { s with air := x }
/-- Write CUE's state. -/
def State.withCue (s : State) (x : CUE) : State := { s with cue := x }
/-- Write LSW's state. -/
def State.withLsw (s : State) (x : LSW) : State := { s with lsw := x }
/-- Write DLY's state. -/
def State.withDly (s : State) (x : DLY) : State := { s with dly := x }
/-- Write ALC's state. -/
def State.withAlc (s : State) (x : ALC) : State := { s with alc := x }
/-- Write OUT's state. -/
def State.withOut (s : State) (x : OUT) : State := { s with out := x }
/-- Write LNK's state. -/
def State.withLnk (s : State) (x : LNK) : State := { s with lnk := x }
/-- Write SITE's state. -/
def State.withSite (s : State) (x : SITE) : State := { s with site := x }
/-- Write LOG's state. -/
def State.withLog (s : State) (x : LOG) : State := { s with log := x }
/-- Write the audio of the chain. -/
def State.withAudio (s : State) (x : Audios) : State := { s with audio := x }
/-- Write the events that have come due. -/
def State.withDue (s : State) (x : List Due) : State := { s with due := x }

/-! ### The ring's cells -/

/-- What a cell of the ring holds; an unlisted cell reads as `silentBlock` (R106; log 13). -/
def Memory.read : List (Nat × Block) → Nat → Block
  | [], _ => silentBlock
  | (i, b) :: rest, n => if i = n then b else Memory.read rest n

/-- Write a cell, keeping the cells rising and listing none that reads as an unlisted cell does. -/
def Memory.write : List (Nat × Block) → Nat → Block → List (Nat × Block)
  | [], n, x => if x = silentBlock then [] else [(n, x)]
  | (i, b) :: rest, n, x =>
    if n < i then (if x = silentBlock then (i, b) :: rest else (n, x) :: (i, b) :: rest)
    else if n = i then (if x = silentBlock then rest else (n, x) :: rest)
    else (i, b) :: Memory.write rest n x

/-- The canonical form: cell numbers strictly rising from `least`, no cell listed with what an unlisted cell reads as. -/
def Memory.wfFrom : Nat → List (Nat × Block) → Bool
  | _, [] => true
  | least, (i, b) :: rest => decide (least ≤ i) && !decide (b = silentBlock) && Memory.wfFrom (i + 1) rest

/-- The canonical form of the ring's cells. -/
def Memory.wf (m : List (Nat × Block)) : Bool := Memory.wfFrom 0 m

/-! ### Notices -/

/-- A notice kind's bit (section 10.6). -/
def Notice.bit : Notice → Nat
  | .entryStarted => 0 | .entryEnded => 1 | .lowWater => 2 | .hardTime => 3 | .lineRing => 4 | .lineChange => 5
  | .delayState => 6 | .dump => 7 | .alertArrived => 8 | .alertState => 9 | .safeChange => 10 | .linkState => 11
  | .siteState => 12 | .clock => 13 | .resumeLost => 14 | .logNew => 15

/-- Set a notice flag on one port; while the init pin is low no flag is set (R199). -/
def Port.raise (p : Port) (k : Notice) : Port :=
  match p.init with
  | .high => { p with flags := p.flags ||| (1#16 <<< k.bit) }
  | .low => p

/-- Raise a notice: PI sets its flag on all three ports in one event (R198). -/
def raise (k : Notice) (s : State) : State :=
  s.withPi { s.pi with a := s.pi.a.raise k, b := s.pi.b.raise k, c := s.pi.c.raise k }

/-! ### The air log -/

/-- The time an entry is stamped with: the air clock, or none for "clock not set" (R12, R189). -/
def stamp (s : State) : Option Nat := if s.tb.clockSet then some s.tb.clock else none

/-- The kinds that merge repeats (R190). -/
def merges (k : LogKind) (d : Detail) : Bool :=
  match k with
  | .alertDuplicate => true
  | .siteCommandFailed => true
  | .dump => decide (d = .number 0)
  | _ => false

/-- The serial after one (R188). -/
def nextSerial (n : Nat) : Nat := if n = Config.logSerials then 1 else n + 1

/-- Append to the log or merge into its newest entry (R189, R190). -/
def LOG.append (l : LOG) (time : Option Nat) (k : LogKind) (subject : Subject) (d : Detail) : LOG :=
  let fresh : LOG :=
    { entries := ⟨l.next, time, k, subject, d, 1, none⟩ :: l.entries.take (Config.logPlaces - 1),
      next := nextSerial l.next }
  match l.entries with
  | e :: rest =>
    if merges k d ∧ e.kind = k ∧ e.subject = subject ∧ e.detail = d ∧ e.repeats < 255 then
      { l with entries := { e with repeats := e.repeats + 1, lastTime := some time } :: rest }
    else fresh
  | [] => fresh

/-- Append an entry to the air log and raise LOG NEW (R189). -/
def logEntry (k : LogKind) (subject : Subject) (d : Detail) (s : State) : State :=
  raise .logNew (s.withLog (s.log.append (stamp s) k subject d))

/-! ### Handing over an event -/

/-- Hand an owner a report that it takes as an event of its own (log 2). -/
def handOver (d : Due) (s : State) : State := s.withDue (s.due ++ [d])

/-- Do something when a condition holds. -/
def when (c : Bool) (f : State → State) (s : State) : State := if c then f s else s

/-! ### Ports and replies -/

/-- A port's state. -/
def PI.get (x : PI) : PortId → Port
  | .a => x.a | .b => x.b | .c => x.c

/-- Write a port's state. -/
def PI.set (x : PI) (p : PortId) (v : Port) : PI :=
  match p with
  | .a => { x with a := v }
  | .b => { x with b := v }
  | .c => { x with c := v }

/-- A port of the part. -/
def State.port (s : State) (p : PortId) : Port := s.pi.get p

/-- Write a port of the part. -/
def State.withPort (s : State) (p : PortId) (v : Port) : State := s.withPi (s.pi.set p v)

/-- The code of a result (section 10.6). -/
def Result.code : Result → Nat
  | .ok => 0 | .pending => 1 | .badFormat => 2 | .notPermitted => 3 | .badValue => 4 | .wrongState => 5 | .wrongMode => 7
  | .full => 8 | .notFound => 9 | .inUse => 10 | .stale => 11 | .heldByLine => 12 | .duplicate => 13 | .stackFull => 14

/-- What an owner replies: the result and the value bytes (R196). -/
structure Reply where
  result : Result
  values : List Byte := []
deriving DecidableEq, Repr

/-- Fill a port's reply buffer: code echo, result, value length, values; REQUEST BUSY clear, REPLY READY set, phase NONE
(R196). -/
def Port.fill (p : Port) (code : Nat) (r : Reply) : Port :=
  { p with
    reply := BitVec.ofNat 8 code :: BitVec.ofNat 8 r.result.code :: BitVec.ofNat 8 r.values.length :: r.values
    bytesRead := 0, busy := false, replyReady := true, phase := .idle }

/-- Return a reply to a port (R196). -/
def replyTo (p : PortId) (code : Nat) (r : Reply) (s : State) : State := s.withPort p ((s.port p).fill code r)

/-- A byte is dropped and OVERRUN set (R197). -/
def overrun (p : PortId) (s : State) : State := s.withPort p { s.port p with overrun := true }

/-- A request is open: bytes of it are awaited (R197). -/
def Port.open_ (q : Port) : Bool := decide (q.phase = .codeTaken ∨ q.phase = .parameters)

/-- A request is at its owner or a reply waits to be read: no byte is taken (R197). -/
def Port.occupied (q : Port) : Bool := q.busy || q.replyReady || decide (q.phase = .complete)

/-- The request being assembled is discarded (R194, R197). -/
def Port.discard (q : Port) : Port :=
  { q with phase := .idle, code := 0, length := 0, params := [], idleCount := 0 }

/-- Take a request out of the requests handed to owners: the first that equals it, and whether its reply is discarded. -/
def takeHanded : List Handed → Instr → Option (Bool × List Handed)
  | [], _ => none
  | h :: rest, i =>
    if h.request = i then some (h.discard, rest)
    else (takeHanded rest i).map fun r => (r.1, h :: r.2)

/-- The refusal PI makes itself, before any owner: a length above 62, or a port the request is not permitted on (R195,
checks 1 and 2). -/
def piRefusal (r : Request) : Option Result :=
  if 62 < r.params.length then some .badFormat
  else match portsOf r.code with
    | none => some .badFormat
    | some ps => if r.port ∈ ps then none else some .notPermitted

/-- An owner's event that takes a request: the state it leaves and its reply. -/
abbrev OwnerEvent := State → State × Reply

/-- A reply that leaves the state as it was. -/
def refuse (r : Result) : OwnerEvent := fun s => (s, ⟨r, []⟩)

/-- An effect with a reply that carries no values. -/
def reply (r : Result) (f : State → State) : OwnerEvent := fun s => (f s, ⟨r, []⟩)

end Sys2Proof.Machine
end

