-- ==== Sys2Proof/Machine/Operands.lean ====
section
/-! DEFINITION. Reading the parameters of requests as the names and numbers of the owners' rules, and writing names and numbers
as bytes. Names are sent as their place in the list where their rule first names them (section 10.6; log 5). -/

namespace Sys2Proof.Machine

open Sys2Proof

/-! ### From bytes to names -/

/-- "yes or no", "on, off", "enabled, disabled": the place in that order (section 10.6; log 5). -/
def yesNoOf (b : Byte) : Option Bool :=
  match b.toNat with
  | 0 => some true | 1 => some false | _ => none

/-- A telephone line or key line number 1 to 4. -/
def nthOf (b : Byte) : Option Nth := Nth.ofNumber b.toNat

/-- A clock source (R8). -/
def clockSourceOf (b : Byte) : Option ClockSource :=
  match b.toNat with
  | 0 => some .internal | 1 => some .house | 2 => some .link | _ => none

/-- A key line action (R15). -/
def keyActionOf (b : Byte) : Option KeyAction :=
  match b.toNat with
  | 0 => some .none | 1 => some .take | 2 => some .dump | 3 => some .safe | 4 => some .forward | 5 => some .dropLines
  | _ => none

/-- A key line edge (R15). -/
def keyEdgeOf (b : Byte) : Option KeyEdge :=
  match b.toNat with
  | 0 => some .none | 1 => some .rising | 2 => some .falling | 3 => some .both | _ => none

/-- A level: HIGH, LOW (R15). -/
def levelOf (b : Byte) : Option Level :=
  match b.toNat with
  | 0 => some .high | 1 => some .low | _ => none

/-- An air mode (R21). -/
def modeOf (b : Byte) : Option Mode :=
  match b.toNat with
  | 0 => some .live | 1 => some .auto | 2 => some .unattended | 3 => some .test | _ => none

/-- A ring edge: RISING, FALLING (R94). -/
def ringDirOf (b : Byte) : Option RingDir :=
  match b.toNat with
  | 0 => some .rising | 1 => some .falling | _ => none

/-- A player channel: 0 to 3 (section 10.6). -/
def playerOf (b : Byte) : Option Nth := Nth.ofPlace b.toNat

/-- A network feed: 4 for NET A and 5 for NET B (section 10.6). -/
def feedOf (b : Byte) : Option Feed :=
  match b.toNat with
  | 4 => some .netA | 5 => some .netB | _ => none

/-- An ITEM's policy (R52). -/
def policyOf (b : Byte) : Option Policy :=
  match b.toNat with
  | 0 => some .resume | 1 => some .restart | 2 => some .skip | _ => none

/-- A time of day (R13). -/
def timeOf (t : Long) : Option Nat := if t.toNat < Config.day then some t.toNat else none

/-- A length of a cue entry, 1 to 1,440,000 (R52). -/
def lengthOf (l : Long) : Option Nat :=
  if 1 ≤ l.toNat ∧ l.toNat ≤ Config.maxLength then some l.toNat else none

/-- An ITEM's length: 0 stands for absent (section 10.6). -/
def itemLengthOf (l : Long) : Option (Option Nat) := if l.toNat = 0 then some none else (lengthOf l).map some

/-- An ITEM's segue with its fade length 1 to 400 (R52). The fade length sent with CUT, which has none, is not checked and not kept.
DESIGN CHOICE (log 59): unsafe. -/
def segueOf (g : Byte) (fade : Half) : Option Segue :=
  match g.toNat with
  | 0 => some .cut
  | 1 => if 1 ≤ fade.toNat ∧ fade.toNat ≤ 400 then some (.fade fade.toNat) else none
  | _ => none

/-- An ITEM with FADE and a length must be longer than its fade (R57). -/
def fadeFits : Option Nat → Segue → Bool
  | some l, .fade f => decide (f < l)
  | _, _ => true

/-- The kind of an entry with its fields, checked by R57; values of fields the kind does not have are not read. -/
def cueKindOf (f : EntryFields) : Option CueKind :=
  match f.kind.toNat with
  | 0 =>
    match playerOf f.channel, itemLengthOf f.length, segueOf f.segue f.fade, policyOf f.policy with
    | some ch, some len, some g, some pol => if fadeFits len g then some (.item ch len g pol) else none
    | _, _, _, _ => none
  | 1 =>
    match feedOf f.channel, lengthOf f.length with
    | some feed, some len => some (.join feed len)
    | _, _ => none
  | 2 => some .stop
  | _ => none

/-- The timing of an entry (R52, R57): BREAK-IN on a JOIN alone, HARD on no STOP. The time sent with timing NONE is not checked.
DESIGN CHOICE (log 59): unsafe. -/
def timingOf (k : CueKind) (f : EntryFields) : Option Timing :=
  match f.timing.toNat, k with
  | 0, _ => some .none
  | 1, .stop => none
  | 1, _ => (timeOf f.time).map .hard
  | 2, .join _ _ => (timeOf f.time).map .breakIn
  | _, _ => none

/-- A note or label: at most `most` characters, each printable, codes 32 to 126 (R91, R176). -/
def printable (most : Nat) (cs : List Byte) : Bool :=
  decide (cs.length ≤ most) && cs.all fun c => decide (32 ≤ c.toNat ∧ c.toNat ≤ 126)

/-- A text, absent when written with 0 characters (R81, R173). -/
def textOf (cs : List Byte) : Option (List Byte) := if cs = [] then none else some cs

/-- Three capital letters A to Z (R127, R130). -/
def eventCodeOf (x y z : Byte) : Option EventCode :=
  if [x, y, z].all (fun c => decide (65 ≤ c.toNat ∧ c.toNat ≤ 90)) then some ⟨x, y, z⟩ else none

/-- An area code, 0 to 999,999 (R127). -/
def areaInRange (t : Tri) : Bool := decide (t.toNat ≤ 999999)

/-- An alert header in range (R127). -/
def headerOf (h : HeaderFields) : Option Header :=
  match eventCodeOf h.event1 h.event2 h.event3 with
  | none => none
  | some e =>
    if 1 ≤ h.priority.toNat ∧ h.priority.toNat ≤ 3 ∧ 1 ≤ h.areas.length ∧ h.areas.length ≤ 16 ∧
       h.areas.all areaInRange ∧ 1 ≤ h.validity.toNat ∧ h.validity.toNat ≤ 1440 ∧
       200 ≤ h.audioLength.toNat ∧ h.audioLength.toNat ≤ 24000 then
      some ⟨⟨h.originator, h.serial⟩, e, h.priority.toNat, h.areas.map (·.toNat), h.validity.toNat,
            h.audioLength.toNat⟩
    else none

/-- An action of SET EVENT ACTION: FORWARD, HOLD, IGNORE or REMOVE (R130); none inside for REMOVE. -/
def eventActionOf (b : Byte) : Option (Option EventAction) :=
  match b.toNat with
  | 0 => some (some .forward) | 1 => some (some .hold) | 2 => some (some .ignore) | 3 => some none | _ => none

/-- A resource's slot 0 to 7, or 255 for NONE (R176, section 10.6). -/
def slotOf (b : Byte) : Option (Option Nat) :=
  if b.toNat ≤ 7 then some (some b.toNat) else if b.toNat = 255 then some none else none

/-- A slot length by its place in 0, 200, 400 or 1000 (R173, section 10.6). -/
def slotLengthOf (b : Byte) : Option Nat :=
  match b.toNat with
  | 0 => some 0 | 1 => some 200 | 2 => some 400 | 3 => some 1000 | _ => none

/-- A silence threshold, −60 to −20 dBFS sent as a signed byte, as decibels below full scale (R156). -/
def thresholdOf (b : Byte) : Option Nat :=
  if -60 ≤ b.toInt ∧ b.toInt ≤ -20 then some (-b.toInt).toNat else none

/-! ### From names to bytes -/

/-- One byte. -/
def byte (n : Nat) : Byte := BitVec.ofNat 8 n

/-- A yes-or-no value: its place in "yes or no" (log 5). -/
def yesNo (b : Bool) : Byte := if b then 0 else 1

/-- An optional value in a reading: whether it is present, then the value when it is (log 6). -/
def optional {α : Type} (f : α → List Byte) : Option α → List Byte
  | none => [yesNo false]
  | some x => yesNo true :: f x

/-- Place in R15's list. -/
def Level.place : Level → Nat
  | .high => 0 | .low => 1
/-- Place in R8's list. -/
def ClockSource.place : ClockSource → Nat
  | .internal => 0 | .house => 1 | .link => 2
/-- Place in R15's list. -/
def KeyAction.place : KeyAction → Nat
  | .none => 0 | .take => 1 | .dump => 2 | .safe => 3 | .forward => 4 | .dropLines => 5
/-- Place in R15's list. -/
def KeyEdge.place : KeyEdge → Nat
  | .none => 0 | .rising => 1 | .falling => 2 | .both => 3
/-- Place in R21's list. -/
def Mode.place : Mode → Nat
  | .live => 0 | .auto => 1 | .unattended => 2 | .test => 3
/-- Channel code of a feed (section 10.6). -/
def Feed.code : Feed → Nat
  | .netA => 4 | .netB => 5
/-- A source in a reading: its place in STUDIO, PLAY, NET, FILL (R28), and a channel for PLAY and NET (log 6). -/
def Source.bytes : Source → List Byte
  | .studio => [byte 0, byte 0]
  | .play ch => [byte 1, byte ch.place]
  | .net f => [byte 2, byte f.code]
  | .fill => [byte 3, byte 0]
/-- An origin in a reading: as a source, with ALERT after FILL (R2; log 6). -/
def Origin.bytes : Origin → List Byte
  | .programme s => s.bytes
  | .alert => [byte 4, byte 0]
/-- Place in R28's list. -/
def RecordKind.place : RecordKind → Nat
  | .alert => 0 | .breakIn => 1 | .liveInsert => 2
/-- Place in R28's list. -/
def RunState.place : RunState → Nat
  | .bypass => 0 | .building => 1 | .engaged => 2 | .shrinking => 3
/-- Place in R106's list. -/
def DelayState.place : DelayState → Nat
  | .run r => r.place | .frozen => 4
/-- Place in R49's list. -/
def ChainState.place : ChainState → Nat
  | .none => 0 | .withContext => 1 | .withoutContext => 2
/-- Place of a slot: A, B. -/
def Slot.place : Slot → Nat
  | .a => 0 | .b => 1
/-- Place in R52's list. -/
def CueState.place : CueState → Nat
  | .waiting => 0 | .cued => 1 | .cuedLate => 2 | .playing => 3 | .fading => 4 | .suspended => 5
/-- Place in R52's list. -/
def Policy.place : Policy → Nat
  | .resume => 0 | .restart => 1 | .skip => 2
/-- Place in R81's list. -/
def LineState.place : LineState → Nat
  | .idle => 0 | .ringing => 1 | .screening => 2 | .hold => 3 | .ready => 4 | .air => 5 | .parked => 6 | .clearing => 7
/-- Place in R94's list. -/
def RingDir.place : RingDir → Nat
  | .rising => 0 | .falling => 1
/-- Place in R130's list. -/
def EventAction.place : EventAction → Nat
  | .forward => 0 | .hold => 1 | .ignore => 2
/-- Place in R135's list. -/
def AlertState.place : AlertState → Nat
  | .pending => 0 | .ready => 1 | .onAir => 2
/-- Place in R154's list. -/
def SafeReason.place : SafeReason → Nat
  | .key => 0 | .port => 1 | .silence => 2 | .test => 3 | .resumeLost => 4
/-- Place in R164's list. -/
def linkPlace : LinkState → Nat
  | .down => 0 | .syncing => 1 | .up => 2 | .degraded => 3
/-- Place in R163's list. -/
def SiteMode.place : SiteMode → Nat
  | .off => 0 | .full => 1 | .low => 2 | .fault => 3
/-- Place in R163's list. -/
def Reported.place : Reported → Nat
  | .off => 0 | .on => 1 | .fault => 2
/-- Place in R173's list. -/
def SiteState.place : SiteState → Nat
  | .unknown => 0 | .off => 1 | .starting => 2 | .full => 3 | .lowering => 4 | .low => 5 | .raising => 6
  | .stopping => 7 | .fault => 8
/-- Place in R177's list. -/
def StageKind.place : StageKind → Nat
  | .upSlot => 0 | .downSlot => 1 | .power => 2
/-- Place in R169's list. -/
def FailReason.place : FailReason → Nat
  | .timeout => 0 | .link => 1 | .refused => 2
/-- Place of a command's name in R167's list, counting from 0. -/
def SiteCommand.place : SiteCommand → Nat
  | .on _ => 0 | .off _ => 1 | .power _ => 2
/-- The resource or the power step of a command. -/
def SiteCommand.value : SiteCommand → Nat
  | .on r => r | .off r => r | .power n => n
/-- Place in section 3.9's list. -/
def SkipCause.place : SkipCause → Nat
  | .request => 0 | .stopPassed => 1 | .hardTime => 2 | .noContext => 3 | .policy => 4
/-- Place in section 3.9's list. -/
def MissCause.place : MissCause → Nat
  | .sameTime => 0 | .held => 1 | .stackFull => 2 | .tooLate => 3 | .clockJump => 4
/-- Place in R174's and R183's list. -/
def SiteCause.place : SiteCause → Nat
  | .request => 0 | .window => 1 | .wake => 2 | .adopted => 3 | .complete => 4 | .resourceFault _ => 5 | .siteFault => 6
  | .confirmLimit _ _ _ => 7 | .commandTimeout => 8 | .commandRefused => 9
/-- Place in section 6.8's list. -/
def ForwardCause.place : ForwardCause → Nat
  | .auto => 0 | .request => 1 | .key => 2
/-- Place in R146's list. -/
def EndCause.place : EndCause → Nat
  | .length => 0 | .ended => 1 | .cutShort => 2
/-- Place in section 8.8's list. -/
def ScheduleWord.place : ScheduleWord → Nat
  | .lowTime => 0 | .fullTime => 1 | .wake => 2
/-- Place in section 9.3's table, read row by row. -/
def LogKind.place : LogKind → Nat
  | .itemAired => 0 | .itemEnded => 1 | .lineOnAir => 2 | .lineOffAir => 3 | .safeOn => 4 | .safeOff => 5 | .silence => 6
  | .itemSkipped => 7 | .itemMissed => 8 | .joinStart => 9 | .joinEnd => 10 | .liveInsertStart => 11
  | .liveInsertEnd => 12 | .stackFull => 13 | .resumeLost => 14 | .modeChange => 15 | .dump => 16 | .alertReceived => 17
  | .alertFiltered => 18 | .alertIgnored => 19 | .alertRefusedFull => 20 | .alertDisplaced => 21 | .alertForwarded => 22
  | .alertOnAir => 23 | .alertInterrupted => 24 | .alertEnded => 25 | .alertCancelled => 26 | .alertExpired => 27
  | .alertDuplicate => 28 | .clockFallback => 29 | .linkState => 30 | .siteCommandFailed => 31 | .siteState => 32
  | .scheduleNotTaken => 33 | .reset => 34

/-- A pair of originator and serial in four bytes (section 10.6). -/
def Pair.bytes (p : Pair) : List Byte := halfBytes p.originator ++ halfBytes p.serial

/-- The three characters of an event code. -/
def EventCode.bytes (e : EventCode) : List Byte := [e.c1, e.c2, e.c3]

/-- The subject type and the four bytes of a log subject (section 10.6). The four bytes of an entry with no subject are 0. DESIGN
CHOICE (log 61): unsafe. -/
def Subject.bytes : Subject → List Byte
  | .none => byte 0 :: beBytes 4 0
  | .cue n => byte 1 :: beBytes 4 n
  | .line l => byte 2 :: beBytes 4 l.number
  | .alert p => byte 3 :: p.bytes
  | .resource r => byte 4 :: beBytes 4 r

/-- A detail of several parts, one byte per part, the first in the highest byte (section 10.6). The bytes below the last part are 0.
DESIGN CHOICE (log 61): unsafe. -/
def parts (ns : List Nat) : List Byte := (ns.map byte ++ beBytes 8 0).take 8

/-- The lost source of a CLOCK FALLBACK by its place in the words of R11, HOUSE or LINK; INTERNAL is never lost. DEDUCED (log 53):
unsafe. -/
def ClockSource.lostPlace (c : ClockSource) : Nat := c.place - 1

/-- The eight bytes of a log detail (section 10.6; logs 26 and 53). The three bytes after ITEM AIRED's carrying flag are 0. DESIGN
CHOICE (log 61): unsafe. -/
def Detail.bytes : Detail → List Byte
  | .number n => beBytes 8 n
  | .aired ref c => longBytes ref ++ [yesNo c, 0, 0, 0]
  | .ended e c => beBytes 4 e ++ beBytes 4 c
  | .carrying c => beBytes 7 0 ++ [yesNo c]
  | .reason r => beBytes 8 r.place
  | .silence start => beBytes 8 (if start then 0 else 1)
  | .skipped c => beBytes 8 c.place
  | .missed c => beBytes 8 c.place
  | .mode m forced => parts [m.place, if forced then 1 else 0]
  | .source c => beBytes 8 c.lostPlace
  | .received p st => parts [p, st.place]
  | .event e => beBytes 5 0 ++ e.bytes
  | .pair p => beBytes 4 0 ++ p.bytes
  | .forwarded c => beBytes 8 c.place
  | .onAir p i => parts [p, i]
  | .alertEnd c => beBytes 8 c.place
  | .alertState st => beBytes 8 st.place
  | .link o n => parts [linkPlace o, linkPlace n]
  | .siteFill on => beBytes 8 (if on then 0 else 1)
  | .command c r => parts [c.place, c.value, r.place]
  | .site o n (.resourceFault r) => parts [o.place, n.place, 5, r]
  | .site o n (.confirmLimit k slot step) => parts [o.place, n.place, 7, k.place, slot.getD (if k = .power then step else 255)]
  | .site o n c => parts [o.place, n.place, c.place]
  | .schedule w st => parts [w.place, st.place]

/-- A time of day in four bytes; "clock not set" is 4,294,967,295 (section 10.6). -/
def timeBytes : Option Nat → List Byte
  | none => beBytes 4 4294967295
  | some t => beBytes 4 t

/-- The 27 bytes of a log entry (section 10.6). -/
def LogEntry.bytes (e : LogEntry) : List Byte :=
  beBytes 4 e.serial ++ timeBytes e.time ++ [byte e.kind.place] ++ e.subject.bytes ++ e.detail.bytes ++
  [byte e.repeats] ++ timeBytes (e.lastTime.getD none)

end Sys2Proof.Machine
end

