-- ==== Sys2Proof/Machine/Flags.lean ====
section
/-! DEFINITION. The computed bits and numbers: the status byte and the notice line, the safe-reason set, peak levels, mixed
samples, frame checks, and the two link frames as bytes. -/

namespace Sys2Proof.Machine

open Sys2Proof

/-! ### Port status -/

/-- The notice line: active while a flag is set whose enable is on (R198). -/
def Port.noticeLine (p : Port) : Bool := !decide (p.flags &&& p.mask = 0#16)

/-- A flag in its place of the status byte. -/
def flagBit (b : Bool) (n : Nat) : Byte := if b then 1#8 <<< n else 0#8

/-- The status byte (R193, section 10.6). -/
def Port.status (p : Port) : Byte :=
  flagBit p.busy 0 ||| flagBit p.replyReady 1 ||| flagBit p.noticeLine 2 ||| flagBit p.timeout 3 ||| flagBit p.overrun 4

/-! ### The safe-reason set (R154) -/

/-- Whether a reason is held. -/
def SafeSet.get (x : SafeSet) : SafeReason → Bool
  | .key => x.key | .port => x.port | .silence => x.silence | .test => x.test | .resumeLost => x.resumeLost

/-- Hold a reason or let it go. -/
def SafeSet.set (x : SafeSet) (r : SafeReason) (held : Bool) : SafeSet :=
  match r with
  | .key => { x with key := held }
  | .port => { x with port := held }
  | .silence => { x with silence := held }
  | .test => { x with test := held }
  | .resumeLost => { x with resumeLost := held }

/-- No reason is held. -/
def SafeSet.isEmpty (x : SafeSet) : Bool := !(x.key || x.port || x.silence || x.test || x.resumeLost)

/-! ### Levels and mixing -/

/-- The absolute value of a sample. -/
def magnitude (x : Sample) : Nat := x.toInt.natAbs

/-- The largest absolute sample value of a block over both channels (R3). -/
def loudest (a : Audio) : Nat := a.foldl (fun m x => max m (max (magnitude x.left) (magnitude x.right))) 0

/-- Decibels below full scale of an amplitude, rounded down to a whole decibel and held at 96 (R3; log 9): the least `k`
with `m ≥ full scale · 10^(-k/20)`. -/
def decibelsBelow (m : Nat) : Nat :=
  ((List.range 97).find? fun k => decide (Config.fullScale ^ 20 ≤ m ^ 20 * 10 ^ k)).getD 96

/-- The peak level of a block, in decibels below full scale (R3). -/
def peakOf (a : Audio) : Nat := decibelsBelow (loudest a)

/-- A value held within full scale (R26). -/
def clip (x : Int) : Sample := BitVec.ofInt 24 (max (-8388608) (min 8388607 x))

/-- One mixed sample at the `k`th boundary of a fade of `f` blocks (R26); its rounding is a free value (log 10). -/
def mixSample (f k : Nat) (outgoing incoming : Sample) : Sample :=
  let num : Int := outgoing.toInt * ((f - k : Nat) : Int) + incoming.toInt * (k : Int)
  let low := num / (f : Int)
  clip (if num % (f : Int) = 0 then low else if Config.mixRoundsUp num f then low + 1 else low)

/-- A mixed block (R26). -/
def mix (f k : Nat) (outgoing incoming : Audio) : Audio :=
  List.zipWith (fun o i => ⟨mixSample f k o.left i.left, mixSample f k o.right i.right⟩) outgoing incoming

/-! ### The frame check (section 10.6) -/

/-- One bit of the division by x^16 + x^12 + x^5 + 1. -/
def crcBit (r : Half) (b : Bool) : Half :=
  if r.msb = b then r <<< 1 else (r <<< 1) ^^^ 0x1021#16

/-- One byte, most significant bit first. -/
def crcByte (r : Half) (x : Byte) : Half :=
  [7, 6, 5, 4, 3, 2, 1, 0].foldl (fun r i => crcBit r (x.getLsbD i)) r

/-- The check of a frame: the register preset to all ones, the remainder sent without inversion. -/
def crc (bs : List Byte) : Half := bs.foldl crcByte 0xFFFF#16

/-! ### The link frames (section 10.6) -/

/-- The content kind derived from a tag's origin (R5). -/
def Origin.content : Origin → Content
  | .alert => .alert
  | .programme .fill => .fill
  | .programme _ => .programme

/-- The place of a content kind. -/
def Content.place : Content → Nat
  | .programme => 0 | .alert => 1 | .fill => 2

/-- Bytes 2 to 4 of a forward frame. -/
def commandUnit : Option (Nat × SiteCommand) → List Byte
  | none => [0, 0, 0]
  | some (n, c) => [byte (128 + n), byte (c.place + 1), byte c.value]

/-- Bytes 0 to 1444 of a forward frame. -/
def frameBody (seq : Nat) (k : Content) (c : Option (Nat × SiteCommand)) (a : Audio) : List Byte :=
  [byte seq, byte k.place] ++ commandUnit c ++ a.flatMap fun x => triBytes x.left ++ triBytes x.right

/-- A forward frame as LNK sends it: 1447 bytes. -/
def ForwardFrame.bytes (f : ForwardFrame) : List Byte :=
  frameBody f.seq f.content f.command f.audio ++ halfBytes f.check

/-- A site mode from its byte. -/
def siteModeOf (n : Nat) : Option SiteMode :=
  match n with
  | 0 => some .off | 1 => some .full | 2 => some .low | 3 => some .fault | _ => none

/-- A resource's two bits in a return frame. -/
def reportedOf (n : Nat) : Option Reported :=
  match n with
  | 0 => some .off | 1 => some .on | 2 => some .fault | _ => none

/-- Resources 0 to 7 from bytes 2 and 3 of a return frame; none when one of them is out of range. -/
def resourcesOf (h : Half) : Option (List Reported) :=
  (List.range 8).mapM fun r => reportedOf (h.toNat / 4 ^ r % 4)

/-- A return frame as it arrives: good only when it has nine bytes, its check is correct and its fields are in range
(R163, section 10.6). -/
def ReturnFrame.ofBytes : List Byte → Option ReturnFrame
  | [echo, mode, r1, r2, power, ack, fill, c1, c2] =>
    if crc [echo, mode, r1, r2, power, ack, fill] = half c1 c2 ∧ power.toNat ≤ 15 ∧ fill.toNat ≤ 1 ∧
       ack.toNat / 16 % 4 = 0 then
      match siteModeOf mode.toNat, resourcesOf (half r1 r2) with
      | some m, some rs =>
        some ⟨echo.toNat, m, rs, power.toNat,
              if ack.toNat < 128 then none else some (ack.toNat % 16, decide (ack.toNat / 64 % 2 = 0)),
              decide (fill.toNat = 1)⟩
      | _, _ => none
    else none
  | _ => none

end Sys2Proof.Machine
end

