-- ==== Sys2Proof/Machine/Timebase.lean ====
section
/-! DEFINITION. TB: the sample clock sources, the air clock, the key line table (R8 to R18). -/

namespace Sys2Proof.Machine

open Sys2Proof

/-! ### Sample clock sources -/

/-- A source is good (R8). -/
def TB.good (t : TB) : ClockSource → Bool
  | .internal => true
  | .house => decide (Config.houseLock ≤ t.houseCount)
  | .link => decide (t.link = .up)

/-- The fallback to INTERNAL when the current source is not good (R11); none while a chip reset's switch to INTERNAL awaits
its boundary (R20; log 27). -/
def clockFallback (s : State) : State :=
  if s.tb.good s.tb.source || s.tb.toInternal then s
  else raise .clock (logEntry .clockFallback .none (.source s.tb.source)
    (s.withTb { s.tb with source := .internal, pendingSource := none }))

/-- LNK reports a link state to TB (R8, R164). -/
def linkToTb (l : LinkState) (s : State) : State := clockFallback (s.withTb { s.tb with link := l })

/-- TB's judgement of HOUSE for the period just ended (R8, R11). -/
def houseStage (s : State) : State :=
  if s.tb.houseOk then s.withTb { s.tb with houseCount := min Config.houseLock (s.tb.houseCount + 1) }
  else clockFallback (s.withTb { s.tb with houseCount := 0 })

/-- HOUSE becomes locked in the judgement that is due. -/
def houseLocks (s : State) : Bool := s.tb.houseOk && decide (s.tb.houseCount + 1 = Config.houseLock)

/-- HOUSE ceases to be good in the judgement that is due. -/
def houseLost (s : State) : Bool := !s.tb.houseOk && s.tb.good .house

/-- A pending selection is carried out or abandoned (R10). -/
def selectionStage (s : State) : State :=
  match s.tb.pendingSource with
  | none => s
  | some src =>
    raise .clock (s.withTb { s.tb with source := if s.tb.good src then src else s.tb.source, pendingSource := none })

/-- SELECT CLOCK (R9). A selection is carried out at the first boundary after it, so one that a boundary left due and that it replaces
is no longer due (R10). While a chip reset's switch is pending the source in use is no longer the one that will be (log 27). -/
def ownerSelectClock (source : Byte) : OwnerEvent := fun s =>
  match clockSourceOf source with
  | none => refuse .badValue s
  | some src =>
    if !s.tb.good src then refuse .wrongState s
    else if src = s.tb.source ∧ !s.tb.toInternal then reply .ok (fun s => s.withTb { s.tb with pendingSource := none }) s
    else reply .pending (fun s =>
      (s.withTb { s.tb with pendingSource := some src }).withDue (s.due.erase .clockSelect)) s

/-! ### The air clock -/

/-- The air clock one block later (R12). -/
def clockAfter (n : Nat) : Nat := if n + 1 = Config.day then 0 else n + 1

/-- A time of day `later` blocks after `earlier`, going forward through midnight (R14, R48, R72). -/
def blocksFrom (earlier later : Nat) : Nat := (later + Config.day - earlier) % Config.day

/-- The step of a clock change (R14). -/
def ClockReport.step (r : ClockReport) : Nat := blocksFrom r.old r.new

/-- A clock change is FORWARD (R14). -/
def ClockReport.forward (r : ClockReport) : Bool := decide (1 ≤ r.step ∧ r.step ≤ 8640000)

/-- A time is among those a FORWARD change passes over (R14). -/
def ClockReport.passes (r : ClockReport) (t : Nat) : Bool :=
  decide (1 ≤ blocksFrom r.old t ∧ blocksFrom r.old t ≤ r.step)

/-- A pending SET CLOCK takes effect at this boundary; without one the clock advances (R12, R13). -/
def clockSetStage (s : State) : State :=
  match s.tb.pendingTime with
  | none => s.withTb { s.tb with clock := clockAfter s.tb.clock }
  | some t =>
    raise .clock (s.withTb { s.tb with
      clock := t, clockSet := true, pendingTime := none, report := some ⟨s.tb.clock, t, s.tb.clockSet⟩ })

/-- A SET CLOCK that a boundary left due takes effect before any owner's event that is taken after that boundary: the air
clock at the boundary is the one it sets (R12, R13; log 2). -/
def clockFirst (s : State) : State :=
  if .clockSet ∈ s.due then clockSetStage (s.withDue (s.due.erase .clockSet)) else s

/-- SET CLOCK (R13). -/
def ownerSetClock (time : Long) : OwnerEvent := fun s =>
  match timeOf time with
  | none => refuse .badValue s
  | some t => reply .pending (fun s => s.withTb { s.tb with pendingTime := some t }) s

/-! ### Key lines -/

/-- A record as SET KEY LINE writes it: SAFE keeps no edge, another action no active level, NONE neither (R15). -/
def KeyLine.write (k : KeyLine) (a : KeyAction) (e : KeyEdge) (l : Level) : KeyLine :=
  match a with
  | .none => { k with action := .none, edge := .none, active := .high }
  | .safe => { k with action := .safe, edge := .none, active := l }
  | a => { k with action := a, edge := e, active := .high }

/-- A key line holds the KEY reason (R18). -/
def KeyLine.holds (k : KeyLine) : Bool := decide (k.action = .safe ∧ k.settled = k.active)

/-- The other level. -/
def otherLevel : Level → Level
  | .high => .low | .low => .high

/-- A change to a level matches a record's edge (R17). -/
def KeyEdge.acts : KeyEdge → Level → Bool
  | .both, _ => true
  | .rising, .high => true
  | .falling, .low => true
  | _, _ => false

/-- The sampling of one key line at a boundary (R16): the first sample settles it; a second differing sample is noted in
`differed` until the change is taken. -/
def KeyLine.sample (k : KeyLine) (raw : Level) : KeyLine :=
  if k.sampled then { k with differed := decide (raw ≠ k.settled) }
  else { k with settled := raw, sampled := true, differed := false }

/-- The sampling makes the settled level change: the raw level differs at two consecutive boundaries (R16). -/
def KeyLine.changes (k : KeyLine) (raw : Level) : Bool := k.sampled && k.differed && decide (raw ≠ k.settled)

end Sys2Proof.Machine
end

