-- ==== Sys2Proof/Machine/Output.lean ====
section
/-! DEFINITION. OUT: the air block, the safe-reason set, the silence monitor, and the log of what aired (R152 to R161). -/

namespace Sys2Proof.Machine

open Sys2Proof

/-! ### The safe-reason set -/

/-- Add or remove a safe reason (R154). -/
def safeChange (r : SafeReason) (held : Bool) (s : State) : State :=
  if s.out.reasons.get r = held then s
  else
    let reasons := s.out.reasons.set r held
    let changed := raise .safeChange (s.withOut { s.out with reasons := reasons })
    if s.out.reasons.isEmpty then logEntry .safeOn .none (.reason r) changed
    else if reasons.isEmpty then logEntry .safeOff .none (.reason r) changed
    else changed

/-- OUT judges the SILENCE reason (R157). -/
def judgeSilence (s : State) : State :=
  safeChange .silence (s.out.deadAir && (s.out.failover || decide (s.air.mode = .unattended))) s

/-- TB judges whether KEY is held and tells OUT of a change (R18). -/
def judgeKey (s : State) : State :=
  let held := s.tb.keys.toList.any KeyLine.holds
  if held = s.tb.keyHeld then s
  else safeChange .key held (s.withTb { s.tb with keyHeld := held })

/-- AIR tells OUT whether an alert holds the air (R153). -/
def alertHolds (yes : Bool) (s : State) : State := s.withOut { s.out with alertFlag := yes }

/-- SET KEY LINE (R15, R18). -/
def ownerSetKeyLine (line action edge level : Byte) : OwnerEvent := fun s =>
  match nthOf line, keyActionOf action, keyEdgeOf edge, levelOf level with
  | some k, some a, some e, some l =>
    reply .ok (fun s => judgeKey (s.withTb { s.tb with keys := s.tb.keys.modify k fun r => r.write a e l })) s
  | _, _, _, _ => refuse .badValue s

/-- SAFE ON (R155). -/
def ownerSafeOn : OwnerEvent := reply .ok (safeChange .port true)

/-- SAFE OFF (R155). -/
def ownerSafeOff : OwnerEvent := fun s =>
  if s.out.reasons.key then refuse .heldByLine s
  else if !s.out.reasons.port then refuse .wrongState s
  else reply .ok (safeChange .port false) s

/-- CLEAR RESUME LOST (R46). -/
def ownerClearResumeLost : OwnerEvent := fun s =>
  if s.out.reasons.resumeLost then reply .ok (safeChange .resumeLost false) s else refuse .wrongState s

/-- SET SILENCE (R158). -/
def ownerSetSilence (threshold : Byte) (silenceTime restoreTime : Half) (failover : Byte) : OwnerEvent := fun s =>
  match thresholdOf threshold, yesNoOf failover with
  | some t, some f =>
    if 400 ≤ silenceTime.toNat ∧ silenceTime.toNat ≤ 24000 ∧ 200 ≤ restoreTime.toNat ∧ restoreTime.toNat ≤ 12000 then
      reply .ok (fun s => judgeSilence (s.withOut { s.out with
        threshold := t, silenceTime := silenceTime.toNat, restoreTime := restoreTime.toNat, failover := f })) s
    else refuse .badValue s
  | _, _ => refuse .badValue s

/-! ### The air block -/

/-- A fill air block (R5). -/
def fillBlock (a : Audio) : Block := ⟨a, ⟨.programme .fill, none, Four.all false, false, peakOf a, none⟩⟩

/-- The air block OUT forms at this boundary (R152). -/
def airBlock (s : State) : Block :=
  let from_ := s.audio.prev
  if s.out.alertFlag then
    ⟨from_.inputs.alert, ⟨.alert, none, Four.all false, false, peakOf from_.inputs.alert, s.out.alertId⟩⟩
  else if !s.out.reasons.isEmpty then fillBlock from_.inputs.fill
  else match from_.delayed with
    | some b => b
    | none => fillBlock from_.inputs.fill

/-- A count of blocks that stops at 17,280,000 (R81, R159, R160). -/
def countUp (n : Nat) : Nat := min Config.day (n + 1)

/-- OUT compares the block's entry serial with the remembered one and logs what aired; the memory then holds the block's own
origin, serial and log reference (R159). -/
def logAired (b : Block) (s : State) : State :=
  let differs := !decide (b.tag.entry.map (·.1) = s.out.entry.map (·.1))
  let s1 := match differs, s.out.entry with
    | true, some (n, _) => logEntry .itemEnded (.cue n) (.ended s.out.entryRun s.out.carriedRun) s
    | _, _ => s
  let s2 := match differs, b.tag.entry with
    | true, some (n, ref) => logEntry .itemAired (.cue n) (.aired ref s.out.carrying) s1
    | _, _ => s1
  let entryRun := if differs then 0 else s.out.entryRun
  let carriedRun := if differs then 0 else s.out.carriedRun
  s2.withOut { s2.out with
    origin := some b.tag.origin
    entry := b.tag.entry
    entryRun := if b.tag.entry.isSome then countUp entryRun else entryRun
    carriedRun := if b.tag.entry.isSome && s.out.carrying then countUp carriedRun else carriedRun }

/-- OUT logs one line entering or leaving the lines on air (R160). -/
def logLine (b : Block) (s : State) (l : Nth) : State :=
  match b.tag.lines.get l, s.out.lines.get l with
  | true, false => logEntry .lineOnAir (.line l) (.carrying s.out.carrying) s
  | false, true => logEntry .lineOffAir (.line l) (.number (s.out.lineCounts.get l)) s
  | _, _ => s

/-- OUT compares the block's lines on air with the remembered set (R160). -/
def logLines (b : Block) (s : State) : State :=
  let s1 := Nth.all.foldl (logLine b) s
  s1.withOut { s1.out with
    lines := b.tag.lines
    lineCounts := s1.out.lineCounts.mapIdx fun l n => if b.tag.lines.get l then countUp n else 0 }

/-! ### The silence monitor -/

/-- A delayed block is quiet (R156): its peak level is below the threshold. -/
def OUT.quiet (o : OUT) (b : Block) : Bool := decide (o.threshold < b.tag.peak)

/-- The block OUT takes makes the quiet run reach the silence time (R157). -/
def silenceStarts (s : State) : Bool :=
  match s.audio.prev.delayed with
  | none => false
  | some b => !s.out.deadAir && s.out.quiet b && decide (s.out.silenceTime ≤ s.out.quietRun + 1)

/-- The block OUT takes makes the sound run reach the restore time (R157). -/
def silenceEnds (s : State) : Bool :=
  match s.audio.prev.delayed with
  | none => false
  | some b => s.out.deadAir && !s.out.quiet b && decide (s.out.restoreTime ≤ s.out.soundRun + 1)

/-- The silence monitor at a boundary (R156, R157). -/
def silenceMonitor (s : State) : State :=
  match s.audio.prev.delayed with
  | none => s
  | some b =>
    if silenceStarts s then
      judgeSilence (logEntry .silence .none (.silence true)
        (s.withOut { s.out with quietRun := s.out.silenceTime, deadAir := true, soundRun := 0 }))
    else if silenceEnds s then
      judgeSilence (logEntry .silence .none (.silence false)
        (s.withOut { s.out with soundRun := s.out.restoreTime, deadAir := false, quietRun := 0 }))
    else match s.out.deadAir, s.out.quiet b with
      | false, true => s.withOut { s.out with quietRun := s.out.quietRun + 1 }
      | false, false => s.withOut { s.out with quietRun := 0 }
      | true, true => s.withOut { s.out with soundRun := 0 }
      | true, false => s.withOut { s.out with soundRun := s.out.soundRun + 1 }

/-- OUT's event at a boundary: the air block, the log of what aired, the silence monitor (log 17). -/
def outputStage (s : State) : State :=
  let b := airBlock s
  silenceMonitor (logLines b (logAired b
    (s.withAudio { s.audio with cur := { s.audio.cur with air := b } })))

/-- OUT takes a report from LNK (R161). -/
def carryingReport (l : LinkState) (siteFill : Bool) (s : State) : State :=
  s.withOut { s.out with carrying := decide (l = .up ∨ l = .degraded) && !siteFill }

end Sys2Proof.Machine
end

