-- ==== Sys2Proof/Machine/Delay.lean ====
section
/-! DEFINITION. DLY: the ring's positions, the delay states, the dump, freeze and unfreeze (R106 to R124). -/

namespace Sys2Proof.Machine

open Sys2Proof

/-- A cell `n` places after a position (R107). -/
def cellAfter (position n : Nat) : Nat := (position + n) % Config.ringCells

/-- The current delay (R107). -/
def DLY.delay (d : DLY) : Nat := (d.writePos + Config.ringCells - d.readPos) % Config.ringCells

/-- The gate is open: no line in AIR, or live calls permitted (R109). -/
def DLY.gateOpen (d : DLY) : Bool := !d.gateAir || d.gateLive

/-- The state R109's table gives. -/
def DLY.settled (d : DLY) : RunState :=
  if d.delay < d.target then .building
  else if d.target < d.delay then .shrinking
  else if 1 ≤ d.target then .engaged
  else if d.gateOpen then .bypass
  else .engaged

/-- Go to a state; the step count is kept only in a state already held (R109, R123). -/
def DLY.enter (d : DLY) (r : RunState) : DLY :=
  { d with state := .run r, stepCount := if d.state = .run r then d.stepCount else 0 }

/-- Write DLY's state and raise DELAY STATE when its delay state changed (R124). LSW reads the state itself. -/
def dlyBecomes (d : DLY) (s : State) : State :=
  when (!decide (d.state = s.dly.state)) (raise .delayState) (s.withDly d)

/-- Settle the state (R109). -/
def settle (s : State) : State := dlyBecomes (s.dly.enter s.dly.settled) s

/-! ### The boundary action -/

/-- Emit a delayed block (R108). -/
def emit (b : Block) (s : State) : State :=
  (s.withDly { s.dly with last := some b }).withAudio { s.audio with cur := { s.audio.cur with delayed := some b } }

/-- Write the incoming block at the write position (R108). -/
def DLY.put (d : DLY) (b : Block) : DLY :=
  { d with ring := Memory.write d.ring d.writePos b, writePos := cellAfter d.writePos 1 }

/-- The stretch block: a copy of the last emitted block with stretch set (R113). -/
def stretchOf (b : Block) : Block := { b with tag := { b.tag with stretch := true } }

/-- The end of a step: when the current delay equals the target, DLY settles (R111, R112). -/
def DLY.afterStep (d : DLY) : DLY := if d.delay = d.target then d.enter d.settled else d

/-- Write, read one cell, emit it (R108, ENGAGED). -/
def passOne (b : Block) (s : State) : State :=
  let d := s.dly.put b
  emit (Memory.read d.ring d.readPos) (s.withDly { d with readPos := cellAfter d.readPos 1 })

/-- A step of growth (R111, R113). -/
def buildStep (b : Block) (s : State) : State :=
  let stretch := stretchOf (s.dly.last.getD b)
  let d := { s.dly.put b with stepCount := 0 }
  emit stretch (dlyBecomes d.afterStep s)

/-- A step of shrinkage (R112). -/
def shrinkStep (b : Block) (s : State) : State :=
  let d := { s.dly.put b with stepCount := 0 }
  let out := Memory.read d.ring (cellAfter d.readPos 1)
  emit out (dlyBecomes { d with readPos := cellAfter d.readPos 2 }.afterStep s)

/-- The step count reaches the build ratio at this boundary (R111, R112, R117). -/
def DLY.stepDue (d : DLY) : Bool := decide (d.ratio ≤ d.stepCount + 1)

/-- A step of growth is due at this boundary. -/
def buildDue (s : State) : Bool := decide (s.dly.state = .run .building) && s.dly.stepDue

/-- A step of shrinkage is due at this boundary. -/
def shrinkDue (s : State) : Bool := decide (s.dly.state = .run .shrinking) && s.dly.stepDue

/-- DLY's event at a boundary (R108). The incoming block is the programme block AIR formed at the boundary before, in every state
(R1); at DLY's first boundary after an unfreeze that may be the last block of an alert chain, which R27 would have DLY discard.
DEDUCED (log 56): unsafe. -/
def delayStage (s : State) : State :=
  let b := s.audio.prev.programme
  match s.dly.state with
  | .frozen => s.withAudio { s.audio with cur := { s.audio.cur with delayed := none } }
  | .run .bypass => emit b s
  | .run .engaged => passOne b s
  | .run .building =>
    if s.dly.stepDue then buildStep b s
    else passOne b (s.withDly { s.dly with stepCount := s.dly.stepCount + 1 })
  | .run .shrinking =>
    if s.dly.stepDue then shrinkStep b s
    else passOne b (s.withDly { s.dly with stepCount := s.dly.stepCount + 1 })

/-! ### Freeze and unfreeze -/

/-- The state a freeze records (R121). -/
def DLY.runState (d : DLY) : RunState :=
  match d.state with
  | .run r => r
  | .frozen => d.kept.getD .bypass

/-- Freeze (R121); `keep` for a chain without a context record. -/
def freeze (keep : Bool) (s : State) : State :=
  dlyBecomes { s.dly with
    state := .frozen, recompute := false, kept := if keep then some s.dly.runState else none } s

/-- The state R109's table gives at an unfreeze, where no line is in AIR and the gate is open, whatever report of it is still to
be taken (R123). -/
def DLY.unfrozen (d : DLY) : RunState := { d with gateAir := false }.settled

/-- Unfreeze to the state before freeze, or to the state settled afresh (R123). -/
def unfreeze (before : RunState) (s : State) : State :=
  let d := s.dly.enter (if s.dly.recompute then s.dly.unfrozen else before)
  dlyBecomes { d with recompute := false, kept := none } s

/-! ### Requests and reports -/

/-- The recorded gate shows a line in AIR with live calls permitted no (R115, R116). In FROZEN the requests are not
refused on this ground (R122). -/
def DLY.gateRefuses (d : DLY) : Bool := !d.gateOpen && !decide (d.state = .frozen)

/-- The reply to ENGAGE and DISENGAGE: PENDING until ENGAGED or BYPASS is reached (R115, R116). -/
def delayResult (s : State) : Result :=
  match s.dly.state with
  | .frozen => .pending
  | .run .building => .pending
  | .run .shrinking => .pending
  | .run _ => .ok

/-- A target is set: in FROZEN the state is recomputed at the unfreeze; BYPASS stays at a target of 0; otherwise DLY settles
(R115, R116, R122). -/
def setTarget (target : Nat) (s : State) : State :=
  match s.dly.state with
  | .frozen => s.withDly { s.dly with target := target, recompute := true }
  | .run .bypass =>
    if target = 0 then s.withDly { s.dly with target := 0 } else settle (s.withDly { s.dly with target := target })
  | _ => settle (s.withDly { s.dly with target := target })

/-- ENGAGE (R115). -/
def ownerEngage (target : Half) : OwnerEvent := fun s =>
  if Config.maxDelay < target.toNat then refuse .badValue s
  else if target.toNat = 0 ∧ s.dly.state ≠ .run .bypass ∧ s.dly.gateRefuses then refuse .inUse s
  else (setTarget target.toNat s, ⟨delayResult (setTarget target.toNat s), []⟩)

/-- DISENGAGE (R116). -/
def ownerDisengage : OwnerEvent := fun s =>
  if s.dly.gateRefuses then refuse .inUse s else (setTarget 0 s, ⟨delayResult (setTarget 0 s), []⟩)

/-- The amount a dump discards (R118). -/
def DLY.dumped (d : DLY) : Nat := min d.dumpAmount d.delay

/-- A dump is performed (R118, R120); its report says whether DLY was FROZEN (R100). -/
def performDump (s : State) : State :=
  let amount := s.dly.dumped
  let moved := s.withDly { s.dly with readPos := cellAfter s.dly.readPos amount }
  let settled := match s.dly.state with
    | .frozen => moved.withDly { moved.dly with recompute := true }
    | _ => settle moved
  handOver (.dumpReport (decide (s.dly.state = .frozen))) (raise .dump (logEntry .dump .none (.number amount) settled))

/-- DUMP on port B (R118, R119). -/
def ownerDump : OwnerEvent := fun s =>
  match s.dly.state with
  | .run .bypass => refuse .wrongState s
  | _ => (performDump s, ⟨.ok, beBytes 2 s.dly.dumped⟩)

/-- A DUMP key (R118, R119). -/
def keyDump (s : State) : State :=
  match s.dly.state with
  | .run .bypass => logEntry .dump .none (.number 0) s
  | _ => performDump s

/-- SET DELAY OPTIONS (R117). -/
def ownerSetDelayOptions (amount : Half) (ratio : Byte) : OwnerEvent := fun s =>
  if 1 ≤ amount.toNat ∧ amount.toNat ≤ Config.maxDelay ∧ 8 ≤ ratio.toNat ∧ ratio.toNat ≤ 64 then
    reply .ok (fun s => s.withDly { s.dly with dumpAmount := amount.toNat, ratio := ratio.toNat }) s
  else refuse .badValue s

/-- DLY takes a gate report (R114). Any report that gives an open gate takes ENGAGED at 0 and 0 to BYPASS, also one that finds the
recorded gate open already. DESIGN CHOICE (log 47): unsafe. -/
def gateReport (anyAir liveCalls : Bool) (s : State) : State :=
  let d := { s.dly with gateAir := anyAir, gateLive := liveCalls }
  match d.state with
  | .run .engaged =>
    dlyBecomes (if d.target = 0 ∧ d.delay = 0 ∧ d.gateOpen then d.enter .bypass else d) s
  | .run .bypass => dlyBecomes (if d.gateOpen then d else { d.enter .engaged with target := 0 }) s
  | _ => s.withDly d

end Sys2Proof.Machine
end

