-- ==== Sys2Proof/Machine/Lines.lean ====
section
/-! DEFINITION. LSW: the line records, the ready queue, the air slots, and line audio (R81 to R103). -/

namespace Sys2Proof.Machine

open Sys2Proof

/-- Off-hook is asserted in the connected states (R82). -/
def LineState.offHook : LineState → Bool
  | .idle => false | .ringing => false | .clearing => false
  | .screening => true | .hold => true | .ready => true | .air => true | .parked => true

/-- The air slot a line holds (R81, R84). -/
def LSW.slotOf (x : LSW) (l : Nth) : Option Slot :=
  if x.slotA = some l then some .a else if x.slotB = some l then some .b else none

/-- A slot holds a line, or none. -/
def LSW.setSlot (x : LSW) (slot : Slot) (l : Option Nth) : LSW :=
  match slot with
  | .a => { x with slotA := l }
  | .b => { x with slotB := l }

/-- A line leaves its slot and the ready queue (R84, R85). -/
def LSW.release (x : LSW) (l : Nth) : LSW :=
  { x with
    slotA := if x.slotA = some l then none else x.slotA
    slotB := if x.slotB = some l then none else x.slotB
    queue := x.queue.filter fun m => !decide (m = l) }

/-- Change one line's record. -/
def LSW.modify (x : LSW) (l : Nth) (f : Line → Line) : LSW := { x with lines := x.lines.modify l f }

/-- A record in a state in which waiting is absent (R81). -/
def Line.goes (r : Line) (st : LineState) : Line := { r with state := st, waiting := none }

/-- A record that enters HOLD or READY from another state (R81). -/
def Line.waits (r : Line) (st : LineState) : Line := { r with state := st, waiting := some 0 }

/-- A record at the return to IDLE: note, on-air time and dumps absent (R81). -/
def Line.toIdle (r : Line) : Line := { ring := r.ring, loop := r.loop }

/-- A line's state. -/
def State.line (s : State) (l : Nth) : LineState := (s.lsw.lines.get l).state

/-- Some line is in a state. -/
def LSW.anyIn (x : LSW) (st : LineState) : Bool := x.lines.toList.any fun r => decide (r.state = st)

/-- Write LSW's state and raise LINE CHANGE (R82). -/
def linesChange (x : LSW) (s : State) : State := raise .lineChange (s.withLsw x)

/-! ### Ringing and clearing -/

/-- LSW takes a ring edge (R86). -/
def ringEdge (l : Nth) (s : State) : State :=
  match s.line l with
  | .idle => raise .lineRing (s.withLsw (s.lsw.modify l fun r => { r with state := .ringing, ringQuiet := 0 }))
  | .ringing => s.withLsw (s.lsw.modify l fun r => { r with ringQuiet := 0 })
  | _ => s

/-- A ringing line's ring quiet has reached its limit (R87). -/
def ringTimedOut (l : Nth) (s : State) : Bool :=
  decide (s.line l = .ringing ∧ Config.ringTimeout ≤ (s.lsw.lines.get l).ringQuiet)

/-- The ring timeout (R87). -/
def ringTimeout (l : Nth) (s : State) : State :=
  if ringTimedOut l s then linesChange (s.lsw.modify l Line.toIdle) s else s

/-- The clearing guard has ended (R98). -/
def clearingEnded (l : Nth) (s : State) : Bool :=
  decide (s.line l = .clearing ∧ (s.lsw.lines.get l).clearing = 0)

/-- The end of the clearing guard (R98). -/
def clearingEnd (l : Nth) (s : State) : State :=
  if clearingEnded l s then linesChange (s.lsw.modify l Line.toIdle) s else s

/-- AIR removes a line's pair from the record that lists it (R29). -/
def removeParked (l : Nth) (s : State) : State :=
  s.withAir { s.air with stack := s.air.stack.map fun r =>
    { r with parked := r.parked.filter fun p => !decide (p.1 = l) } }

/-- A line goes to CLEARING (R96): slot freed, out of the queue, a PARKED line reported to AIR. -/
def dropLine (l : Nth) (s : State) : State :=
  when (decide (s.line l = .parked)) (removeParked l)
    (linesChange ((s.lsw.release l).modify l fun r =>
      { r.goes .clearing with clearing := Config.clearingGuard, ringQuiet := 0, loopLoss := 0 }) s)

/-- The loop loss of a connected line has reached its limit (R97). -/
def loopLost (l : Nth) (s : State) : Bool :=
  (s.line l).offHook && decide (Config.loopLossLimit ≤ (s.lsw.lines.get l).loopLoss)

/-- The loop-sense drop (R97). -/
def loopDrop (l : Nth) (s : State) : State := if loopLost l s then dropLine l s else s

/-- Every line in AIR, by number. -/
def LSW.inAir (x : LSW) : List Nth := Nth.all.filter fun l => decide ((x.lines.get l).state = .air)

/-- DROP LINES from a key line (R99). -/
def dropLines (s : State) : State := s.lsw.inAir.foldl (fun s l => dropLine l s) s

/-- LSW takes DLY's report of a dump (R100). A dump performed in FROZEN drops and counts no one, also when its report is taken
after the chain's end has returned lines to AIR. -/
def dumpReport (frozen : Bool) (s : State) : State :=
  if frozen then s
  else if s.lsw.dropOnDump then dropLines s
  else s.withLsw { s.lsw with lines := s.lsw.lines.map fun r =>
    if r.state = .air then { r with onAir := r.onAir.map fun p => (p.1, min 255 (p.2 + 1)) } else r }

/-! ### Requests -/

/-- A request that names a line in one of some states: BAD_VALUE, then WRONG_STATE, else its effect (R88 to R96). -/
def onLine (line : Byte) (allowed : LineState → Bool) (act : Nth → State → State) : OwnerEvent := fun s =>
  match nthOf line with
  | none => refuse .badValue s
  | some l => if allowed (s.line l) then reply .ok (act l) s else refuse .wrongState s

/-- A line already in SCREENING goes to HOLD (R88, R90). -/
def LSW.screenAside (x : LSW) : LSW :=
  { x with lines := x.lines.map fun r => if r.state = .screening then r.waits .hold else r }

/-- ANSWER (R88). -/
def ownerAnswer (line : Byte) : OwnerEvent :=
  onLine line (fun st => decide (st = .ringing)) fun l s =>
    linesChange (s.lsw.screenAside.modify l fun r => { r.goes .screening with ringQuiet := 0, loopLoss := 0 }) s

/-- HOLD (R89). -/
def ownerHold (line : Byte) : OwnerEvent :=
  onLine line (fun st => decide (st = .screening)) fun l s => linesChange (s.lsw.modify l (·.waits .hold)) s

/-- SCREEN (R90). -/
def ownerScreen (line : Byte) : OwnerEvent :=
  onLine line (fun st => decide (st = .hold ∨ st = .ready)) fun l s =>
    linesChange ((s.lsw.screenAside.release l).modify l (·.goes .screening)) s

/-- A note as R91 checks it. -/
def noteFits (note : Option (List Byte)) : Bool :=
  match note with
  | none => true
  | some cs => printable 24 cs

/-- A record with a note written, or kept when none is given (R91). -/
def Line.annotate (r : Line) (note : Option (List Byte)) : Line :=
  match note with
  | none => r
  | some cs => { r with note := textOf cs }

/-- READY (R91). -/
def ownerReady (line : Byte) (note : Option (List Byte)) : OwnerEvent := fun s =>
  if !noteFits note then refuse .badValue s
  else onLine line (fun st => decide (st = .screening ∨ st = .hold)) (fun l s =>
    let x := s.lsw.modify l fun r =>
      let r := r.annotate note
      { r with state := .ready, waiting := if r.state = .hold then r.waiting else some 0 }
    linesChange { x with queue := x.queue ++ [l] } s) s

/-- UNREADY (R92). -/
def ownerUnready (line : Byte) : OwnerEvent :=
  onLine line (fun st => decide (st = .ready)) fun l s =>
    linesChange ((s.lsw.release l).modify l fun r => { r with state := .hold }) s

/-- LINE NOTE (R93). -/
def ownerLineNote (line : Byte) (note : List Byte) : OwnerEvent := fun s =>
  if !printable 24 note then refuse .badValue s
  else onLine line LineState.offHook (fun l s => linesChange (s.lsw.modify l (·.annotate (some note))) s) s

/-- DROP (R96). -/
def ownerDrop (line : Byte) : OwnerEvent :=
  onLine line (fun st => !decide (st = .idle ∨ st = .clearing)) dropLine

/-- A line goes to AIR in a slot (R81, R95, R102). -/
def LSW.toAir (x : LSW) (l : Nth) (slot : Slot) : LSW :=
  ((x.release l).setSlot slot (some l)).modify l fun r =>
    { r.goes .air with onAir := some (r.onAir.getD (0, 0)) }

/-- TAKE LINE (R95): checks 2 to 6 in order. -/
def takeLineNamed (l : Option Nth) : OwnerEvent := fun s =>
  if s.air.mode ≠ .live then refuse .wrongMode s
  else if s.air.chain ≠ .none ∨ s.lsw.anyIn .parked then refuse .inUse s
  else if s.dly.state = .run .bypass ∧ !s.lsw.liveCalls then refuse .wrongState s
  else if s.lsw.slotA.isSome ∧ s.lsw.slotB.isSome then refuse .full s
  else
    let slot := if s.lsw.slotA = none then Slot.a else Slot.b
    let go (l : Nth) : State × Reply := (linesChange (s.lsw.toAir l slot) s, ⟨.ok, [byte l.number, byte slot.place]⟩)
    match l, s.lsw.queue with
    | some l, _ => if s.line l = .ready then go l else refuse .wrongState s
    | none, l :: _ => go l
    | none, [] => refuse .notFound s

/-- TAKE LINE (R95). -/
def ownerTakeLine (line : Option Byte) : OwnerEvent := fun s =>
  match line with
  | none => takeLineNamed none s
  | some b =>
    match nthOf b with
    | none => refuse .badValue s
    | some l => takeLineNamed (some l) s

/-- SET LINE OPTIONS (R94). -/
def ownerSetLineOptions (dropOnDump liveCalls edge1 edge2 edge3 edge4 : Byte) : OwnerEvent := fun s =>
  match yesNoOf dropOnDump, yesNoOf liveCalls, ringDirOf edge1, ringDirOf edge2, ringDirOf edge3, ringDirOf edge4 with
  | some d, some live, some e1, some e2, some e3, some e4 =>
    if s.lsw.liveCalls ∧ !live ∧ s.dly.state = .run .bypass ∧ s.lsw.anyIn .air then refuse .inUse s
    else reply .ok (fun s => s.withLsw { s.lsw with
      dropOnDump := d, liveCalls := live, ringEdges := ⟨e1, e2, e3, e4⟩ }) s
  | _, _, _, _, _, _ => refuse .badValue s

/-! ### AIR's instructions -/

/-- Each line in AIR with its slot, in slot order (R31, R101). -/
def LSW.airPairs (x : LSW) : List (Nth × Slot) :=
  x.slotA.toList.map (fun l => (l, Slot.a)) ++ x.slotB.toList.map (fun l => (l, Slot.b))

/-- Lines leave AIR at a grant and the slots are freed; LINE CHANGE when there was one (R101). -/
def emptyAir (f : Line → Line) (s : State) : State :=
  if s.lsw.anyIn .air then
    linesChange { s.lsw with
      slotA := none, slotB := none
      lines := s.lsw.lines.map fun r => if r.state = .air then f r else r } s
  else s

/-- Park (R101). -/
def parkLines : State → State := emptyAir (·.goes .parked)

/-- Hold, for a grant without a record (R101). -/
def holdLines : State → State := emptyAir (·.waits .hold)

/-- A PARKED line goes to HOLD (R101); a line in HOLD has no slot and no place in the ready queue (R84, R85). -/
def holdParked (s : State) (l : Nth) : State := linesChange ((s.lsw.release l).modify l (·.waits .hold)) s

/-- A parked line returns to its slot, or to HOLD in BYPASS without live calls (R102). -/
def returnLine (s : State) (p : Nth × Slot) : State :=
  if s.dly.state = .run .bypass ∧ !s.lsw.liveCalls then holdParked s p.1
  else linesChange (s.lsw.toAir p.1 p.2) s

/-! ### Boundary counts and line audio -/

/-- A ring edge between two samples (R86). -/
def RingDir.edge (d : RingDir) (old : Option Level) (new : Level) : Bool :=
  match d with
  | .rising => decide (old = some .low ∧ new = .high)
  | .falling => decide (old = some .high ∧ new = .low)

/-- One line's counts and samples at a boundary (R81, R86, R97, R98). -/
def Line.tick (r : Line) (ring loop : Level) : Line :=
  let counted : Line := match r.state with
    | .hold => { r with waiting := r.waiting.map countUp }
    | .ready => { r with waiting := r.waiting.map countUp }
    | .air => { r with onAir := r.onAir.map fun p => (countUp p.1, p.2) }
    | .ringing => { r with ringQuiet := min Config.ringTimeout (r.ringQuiet + 1) }
    | .clearing => { r with clearing := r.clearing - 1 }
    | _ => r
  { counted with
    loopLoss := if r.state.offHook then (if loop = .high then 0 else min Config.loopLossLimit (r.loopLoss + 1)) else 0
    ring := some ring, loop := some loop }

/-- The block a line's caller hears (R83). -/
def sendAudio (s : State) (r : Line) : Audio :=
  match r.state with
  | .screening => s.audio.prev.inputs.screenerIn
  | .hold => s.audio.prev.air.audio
  | .ready => s.audio.prev.air.audio
  | .parked => s.audio.prev.air.audio
  | .air => s.audio.prev.inputs.consoleReturn
  | _ => silence

/-- What LINE SEND carries: the one-channel form of the block the caller hears, which is a free value (R7, R83; log 12), and
silence while no call is connected. -/
def sendMono (s : State) (r : Line) : Mono :=
  if r.state.offHook then (List.range Config.blockSamples).map (Config.oneChannel (sendAudio s r)) else monoSilence

/-- What a line receives, or silence for no line (R83). -/
def receiveAudio (s : State) : Option Nth → Mono
  | none => monoSilence
  | some l => s.audio.prev.inputs.lineReceive.get l

/-- LSW forms the line audio (R83). -/
def lineStage (s : State) : State :=
  s.withAudio { s.audio with
    lineSend := s.lsw.lines.map (sendMono s)
    airA := receiveAudio s s.lsw.slotA
    airB := receiveAudio s s.lsw.slotB
    screenerOut := receiveAudio s (Nth.all.find? fun l => decide (s.line l = .screening)) }

end Sys2Proof.Machine
end

