-- ==== Sys2Proof/Machine/Site.lean ====
section
/-! DEFINITION. LNK's site command queue and SITE: the resource table, the stages, the sequences, faults, the low window and the
alert wake (R167, R168, R173 to R185). -/

namespace Sys2Proof.Machine

open Sys2Proof

/-! ### LNK's queue -/

/-- While no command is outstanding, the head of the queue becomes outstanding when the link can send (R168). -/
def considerOutstanding (s : State) : State :=
  if s.lnk.outstanding.isNone ∧ s.lnk.queue ≠ [] ∧ (s.lnk.state = .up ∨ s.lnk.state = .degraded) then
    s.withLnk { s.lnk with
      outstanding := some ⟨s.lnk.nextNumber, s.boundaryNo, none⟩, nextNumber := (s.lnk.nextNumber + 1) % 16 }
  else s

/-- Every queued command that is not outstanding leaves the queue (R167). -/
def LNK.keepOutstanding (x : LNK) : LNK :=
  { x with queue := if x.outstanding.isSome then x.queue.take 1 else [] }

/-- The queued commands that are not outstanding. -/
def LNK.behind (x : LNK) : List QueuedCommand := if x.outstanding.isSome then x.queue.drop 1 else x.queue

/-! ### The resource table -/

/-- A resource's record. -/
def SITE.resource (x : SITE) (r : Nat) : Resource := x.resources.getD r {}

/-- Change one resource's record. -/
def SITE.modify (x : SITE) (r : Nat) (f : Resource → Resource) : SITE :=
  { x with resources := x.resources.modify r f }

/-- The resources for which something holds, in resource order. -/
def SITE.those (x : SITE) (p : Resource → Bool) : List Nat := (List.range 8).filter fun r => p (x.resource r)

/-- A resource has a slot (R173). -/
def Resource.sequenced (r : Resource) : Bool := r.slot.isSome

/-- A sequence state (R173). -/
def SiteState.inSequence : SiteState → Bool
  | .starting => true | .lowering => true | .raising => true | .stopping => true
  | _ => false

/-! ### Stages -/

/-- SITE puts commands of the stage into the queue while it takes them (R167, R177). -/
def putCommands (s : State) : State :=
  match s.site.stage with
  | none => s
  | some st =>
    let room := Config.siteCommands - s.lnk.queue.length
    let put := st.toPut.take room
    let s1 := s.withSite { s.site with
      stage := some { st with toPut := st.toPut.drop room, awaiting := st.awaiting ++ put } }
    considerOutstanding (s1.withLnk { s1.lnk with queue := s1.lnk.queue ++ put.map fun c => ⟨c, st.id⟩ })

/-- The commanded value a command sets. -/
def SITE.obey (x : SITE) : SiteCommand → SITE
  | .on r => x.modify r fun v => { v with commanded := true }
  | .off r => x.modify r fun v => { v with commanded := false }
  | .power _ => x

/-- The resource a command is for. -/
def SiteCommand.resource : SiteCommand → Option Nat
  | .on r => some r | .off r => some r | .power _ => none

/-- A stage begins (R177): its commands are worked out, the commanded values set, the commands put. -/
def beginStage (kind : StageKind) (slot : Option Nat) (step : Nat) (commands : List SiteCommand) (s : State) : State :=
  let x := s.site
  let rs := commands.filterMap SiteCommand.resource
  putCommands (s.withSite { commands.foldl SITE.obey x with
    nextStage := x.nextStage + 1
    stage := some {
      kind := kind, slot := slot, step := step, toPut := commands, awaiting := [], age := 0
      commands := !commands.isEmpty
      offs := if kind = .downSlot then rs else []
      prior := rs.map fun r => (r, (x.resource r).commanded)
      id := x.nextStage, begun := s.boundaryNo } })

/-- The commands of an UP SLOT stage: in STARTING every sequenced resource of the slot, in RAISING those that do not
report ON (R179, R182). -/
def upCommands (x : SITE) (slot : Nat) : List SiteCommand :=
  (x.those fun r => decide (r.slot = some slot) &&
    (decide (x.state = .starting) || !decide (r.reported = .on))).map .on

/-- The commands of a DOWN SLOT stage of LOWERING (R181) or of STOPPING (R180). -/
def downCommands (x : SITE) (slot : Nat) : List SiteCommand :=
  if x.state = .stopping then
    (x.toStop.filter fun r => decide ((x.resource r).slot = some slot)).map .off
  else (x.those fun r => decide (r.slot = some slot) && !r.keepInLow && r.commanded).map .off

/-- The step of a POWER stage (R179, R181, R182). -/
def powerStep (x : SITE) : Nat :=
  match x.state with
  | .lowering => x.lowStep
  | .raising => if x.restorePrevious then x.stepBeforeLow else x.fullStep
  | _ => x.fullStep

/-- Begin an UP SLOT stage. -/
def beginUp (slot : Nat) (s : State) : State := beginStage .upSlot (some slot) 0 (upCommands s.site slot) s

/-- Begin a DOWN SLOT stage. -/
def beginDown (slot : Nat) (s : State) : State := beginStage .downSlot (some slot) 0 (downCommands s.site slot) s

/-- Begin a POWER stage. -/
def beginPower (s : State) : State :=
  beginStage .power none (powerStep s.site) [.power (powerStep s.site)] s

/-- The stage in force is confirmed (R177). -/
def SITE.confirmed (x : SITE) (st : Stage) : Bool :=
  st.toPut.isEmpty && st.awaiting.isEmpty &&
  match st.kind with
  | .upSlot =>
    (x.those fun r => match r.slot, st.slot with
      | some a, some b => decide (a ≤ b) && !decide (r.reported = .on)
      | _, _ => false).isEmpty && (!st.commands || decide (x.slotLength ≤ st.age))
  | .downSlot => st.offs.all fun r =>
      decide ((x.resource r).reported = .off) || (decide (x.state = .stopping) && decide ((x.resource r).reported = .fault))
  | .power => decide (x.reportedStep = some st.step)

/-- The site state changes (R174). -/
def siteChange (new : SiteState) (cause : SiteCause) (s : State) : State :=
  raise .siteState (logEntry .siteState .none (.site s.site.state new cause)
    (s.withSite { s.site with state := new }))

/-- A schedule that is not taken (R183 to R185). -/
def notTaken (w : ScheduleWord) (s : State) : State :=
  logEntry .scheduleNotTaken .none (.schedule w s.site.state) s

/-- RAISING begins (R182). -/
def startRaising (cause : SiteCause) (s : State) : State := beginUp 0 (siteChange .raising cause s)

/-- LOWERING begins (R181). -/
def startLowering (cause : SiteCause) (s : State) : State :=
  beginPower (siteChange .lowering cause
    (s.withSite { s.site with stepBeforeLow := s.site.power.getD s.site.stepBeforeLow }))

/-- The sequence completes (R179 to R182). -/
def completeSequence (s : State) : State :=
  let s := s.withSite { s.site with stage := none }
  match s.site.state with
  | .lowering =>
    let low := siteChange .low .complete s
    if low.site.pendingWake then startRaising .wake (low.withSite { low.site with pendingWake := false }) else low
  | .stopping =>
    siteChange .off .complete (s.withSite { s.site with
      resources := s.site.resources.map fun r => if r.sequenced then { r with commanded := false } else r })
  | .starting => siteChange .full .complete s
  | .raising => siteChange .full .complete s
  | _ => s

/-- The stage after a confirmed one begins, or the sequence completes (R177, R179 to R182). -/
def advance (st : Stage) (s : State) : State :=
  match st.kind, st.slot with
  | .upSlot, some n => if n < 7 then beginUp (n + 1) s else beginPower s
  | .downSlot, some n => if 0 < n then beginDown (n - 1) s else completeSequence s
  | .power, _ =>
    let s := s.withSite { s.site with power := some st.step }
    if s.site.state = .lowering then beginDown 7 s else completeSequence s
  | _, none => completeSequence s

/-- Confirmation is checked, and goes on through the stages that are confirmed as they begin (R177). The number bounds
the stages of one event: nine of LOWERING and nine of RAISING at most. -/
def runStages : Nat → State → State
  | 0, s => s
  | k + 1, s =>
    match s.site.stage with
    | none => s
    | some st => if s.site.confirmed st then runStages k (advance st s) else s

/-- Check for confirmation. -/
def checkStage (s : State) : State := runStages 32 s

/-! ### Abandoning and faults -/

/-- A stage is abandoned (R180, step 1): queued commands withdrawn, commanded values returned. -/
def abandonStage (s : State) : State :=
  match s.site.stage with
  | none => s
  | some st =>
    let undone := (s.lnk.behind.map (·.command) ++ st.toPut).filterMap SiteCommand.resource
    let back (x : SITE) (p : Nat × Bool) : SITE :=
      if p.1 ∈ undone then x.modify p.1 fun v => { v with commanded := p.2 } else x
    (s.withLnk s.lnk.keepOutstanding).withSite { st.prior.foldl back s.site with stage := none }

/-- SITE goes to FAULT from a state other than OFF and FAULT (R183). -/
def siteFault (cause : SiteCause) (s : State) : State :=
  let s1 := abandonStage s
  let woke := s1.site.pendingWake
  let s2 := s1.withSite { s1.site with pendingWake := false }
  let s3 := when woke (logEntry .scheduleNotTaken .none (.schedule .wake .fault)) s2
  siteChange .fault cause s3

/-- A new fault reported by the site (R175). -/
def newFault (s : State) (cause : SiteCause) : State :=
  match s.site.state with
  | .off => s
  | .fault => siteChange .fault cause s
  | _ => siteFault cause s

/-! ### LNK's reports -/

/-- What became of a command that left the queue (R178). -/
inductive Left where
  | done
  | failed (r : FailReason)
deriving DecidableEq, Repr

/-- SITE acts on the report that a command left the queue (R178). -/
def commandLeft (q : QueuedCommand) (outcome : Left) (s : State) : State :=
  match s.site.stage with
  | none => s
  | some st =>
    if st.id ≠ q.stage then checkStage (putCommands s)
    else
      let gone := { st with awaiting := st.awaiting.erase q.command }
      match outcome with
      | .done => checkStage (putCommands (s.withSite { s.site with stage := some gone }))
      | .failed .link =>
        checkStage (putCommands (s.withSite { s.site with
          stage := some { gone with toPut := gone.toPut ++ [q.command] } }))
      | .failed .timeout => siteFault .commandTimeout s
      | .failed .refused => siteFault .commandRefused s

/-- SITE records the contents of a delivered return frame (R175). -/
def SITE.record (x : SITE) (f : ReturnFrame) : SITE :=
  { x with
    lastMode := some f.mode, reportedStep := some f.power
    resources := List.zipWith (fun r v => { r with reported := v }) x.resources f.resources }

/-- The state an adoption sets (R174). -/
def SiteMode.adopted : SiteMode → SiteState
  | .off => .off | .full => .full | .low => .low | .fault => .fault

/-- Adoption (R174), with the contents already recorded. -/
def adopt (f : ReturnFrame) (s : State) : State :=
  siteChange f.mode.adopted .adopted (s.withSite { s.site with
    resources := s.site.resources.map fun r => { r with commanded := decide (r.reported = .on) }
    power := some f.power
    stepBeforeLow := if f.mode = .low then s.site.fullStep else s.site.stepBeforeLow })

/-- The resources and the site mode that have newly faulted in a delivery (R175; log 20). -/
def newFaults (x : SITE) (f : ReturnFrame) : List SiteCause :=
  ((List.range 8).filter fun r =>
    decide (f.resources.getD r .off = .fault) && !decide ((x.resource r).reported = .fault)).map .resourceFault ++
  match x.lastMode with
  | none => []
  | some m => if m ≠ .fault ∧ f.mode = .fault then [.siteFault] else []

/-- SITE takes a delivery (R174, R175). In UNKNOWN the fault rule is applied to the state adopted: an adoption of OFF stays OFF when a
resource has newly faulted. DEDUCED (log 20): unsafe. -/
def siteDelivery (f : ReturnFrame) (s : State) : State :=
  let recorded := s.withSite (s.site.record f)
  let known := if s.site.state = .unknown then adopt f recorded else recorded
  checkStage ((newFaults s.site f).foldl newFault known)

/-! ### SITE's events at a boundary -/

/-- SITE's event for the stage at a boundary (R177): the age, confirmation, the confirm limit. -/
def siteStage (s : State) : State :=
  match s.site.stage with
  | none => s
  | some st =>
    let aged := if st.begun < s.boundaryNo then { st with age := min Config.confirmLimit (st.age + 1) } else st
    let s1 := checkStage (s.withSite { s.site with stage := some aged })
    match s1.site.stage with
    | none => s1
    | some now =>
      if now.id = st.id ∧ Config.confirmLimit ≤ now.age then
        siteFault (.confirmLimit now.kind now.slot now.step) s1
      else s1

/-- The stage in force reaches an age at this boundary. -/
def stageReaches (age : Nat) (s : State) : Bool :=
  match s.site.stage with
  | none => false
  | some st => decide (st.begun < s.boundaryNo ∧ st.age + 1 = age)

/-- The low window's settings in force. -/
def SITE.window (x : SITE) : LowWindow := ⟨x.lowTime, x.fullTime, x.windowEnabled⟩

/-- A time of the settings that a boundary found is due at it (R176, R184; R14 for a SET CLOCK). -/
def windowDue (w : LowWindow) (s : State) (t : Nat) : Bool :=
  w.enabled && s.tb.clockSet &&
  match s.tb.report with
  | none => decide (t = s.tb.clock)
  | some r => if r.wasSet && r.forward then r.passes t else decide (t = r.new)

/-- The low time is taken (R184). -/
def takeLowTime (s : State) : State :=
  if s.site.state = .full then checkStage (startLowering .window s) else notTaken .lowTime s

/-- The full time is taken (R184). -/
def takeFullTime (s : State) : State :=
  if s.site.state = .low then checkStage (startRaising .window s) else notTaken .fullTime s

/-- SITE's event for the low window at a boundary, with the settings the boundary found (R176, R184). -/
def windowStage (w : LowWindow) (s : State) : State :=
  match windowDue w s w.low, windowDue w s w.full, s.tb.report with
  | true, true, some r =>
    if blocksFrom r.old w.low < blocksFrom r.old w.full then takeFullTime (notTaken .lowTime s)
    else takeLowTime (notTaken .fullTime s)
  | true, _, _ => takeLowTime s
  | false, true, _ => takeFullTime s
  | false, false, _ => s

/-- A wake request from ALC (R185). -/
def wakeSite (s : State) : State :=
  match s.site.state with
  | .low => checkStage (startRaising .wake s)
  | .lowering => s.withSite { s.site with pendingWake := true }
  | .full => s | .starting => s | .raising => s
  | .unknown => notTaken .wake s
  | .off => notTaken .wake s
  | .stopping => notTaken .wake s
  | .fault => notTaken .wake s

/-! ### Requests -/

/-- SITE UP (R179). -/
def ownerSiteUp : OwnerEvent := fun s =>
  if s.site.state = .off then
    reply .pending (fun s => checkStage (beginUp 0 (siteChange .starting .request
      (s.withSite { s.site with pendingWake := false })))) s
  else refuse .wrongState s

/-- The stop of R180. -/
def stopSite (s : State) : State :=
  let s1 := abandonStage s
  let s2 := siteChange .stopping .request (s1.withSite { s1.site with pendingWake := false })
  let s3 := s2.withSite { s2.site with
    toStop := s2.site.those fun r => r.sequenced && (r.commanded || decide (r.reported = .on)) }
  checkStage (if s3.site.sequentialOff then beginDown 7 s3
    else beginStage .downSlot none 0 (s3.site.toStop.map .off) s3)

/-- SITE DOWN (R180). -/
def ownerSiteDown : OwnerEvent := fun s =>
  match s.site.state with
  | .full => reply .pending stopSite s
  | .low => reply .pending stopSite s
  | .starting => reply .pending stopSite s
  | .raising => reply .pending stopSite s
  | .fault => reply .pending stopSite s
  | _ => refuse .wrongState s

/-- SITE LOW (R181). -/
def ownerSiteLow : OwnerEvent := fun s =>
  if s.site.state = .full then reply .pending (fun s => checkStage (startLowering .request s)) s
  else refuse .wrongState s

/-- SITE FULL (R182). -/
def ownerSiteFull : OwnerEvent := fun s =>
  if s.site.state = .low then reply .pending (fun s => checkStage (startRaising .request s)) s
  else refuse .wrongState s

/-- SET SITE RESOURCE (R176). -/
def ownerSetSiteResource (resource slot keepInLow : Byte) (label : List Byte) : OwnerEvent := fun s =>
  match slotOf slot, yesNoOf keepInLow with
  | some sl, some keep =>
    if 7 < resource.toNat ∨ !printable 8 label then refuse .badValue s
    else if s.site.state.inSequence then refuse .wrongState s
    else reply .ok (fun s => s.withSite (s.site.modify resource.toNat fun r =>
      { r with slot := sl, keepInLow := keep, label := textOf label })) s
  | _, _ => refuse .badValue s

/-- SET SITE OPTIONS (R176). The restore choice is PREVIOUS, DEFAULT in that order (R173). -/
def ownerSetSiteOptions (slotLength fullStep lowStep restore sequentialOff : Byte) : OwnerEvent := fun s =>
  match slotLengthOf slotLength, yesNoOf restore, yesNoOf sequentialOff with
  | some l, some previous, some sequential =>
    if fullStep.toNat ≤ 15 ∧ lowStep.toNat < fullStep.toNat then
      if s.site.state.inSequence then refuse .wrongState s
      else reply .ok (fun s => s.withSite { s.site with
        slotLength := l, fullStep := fullStep.toNat, lowStep := lowStep.toNat
        restorePrevious := previous, sequentialOff := sequential }) s
    else refuse .badValue s
  | _, _, _ => refuse .badValue s

/-- SET LOW WINDOW (R176). -/
def ownerSetLowWindow (lowTime fullTime : Long) (enabled : Byte) : OwnerEvent := fun s =>
  match timeOf lowTime, timeOf fullTime, yesNoOf enabled with
  | some l, some f, some e =>
    if l = f then refuse .badValue s
    else reply .ok (fun s => s.withSite { s.site with lowTime := l, fullTime := f, windowEnabled := e }) s
  | _, _, _ => refuse .badValue s

end Sys2Proof.Machine
end

