-- ==== Sys2Proof/Machine/Link.lean ====
section
/-! DEFINITION. LNK: forward frames, return frames, the link state, and the outstanding command (R162 to R169). -/

namespace Sys2Proof.Machine

open Sys2Proof

/-! ### Frames -/

/-- The command that rides in the frame formed at this boundary: one that became outstanding before it (R168). -/
def ridingCommand (s : State) : Option (Nat × SiteCommand) :=
  match s.lnk.outstanding, s.lnk.queue with
  | some o, q :: _ => if o.since < s.boundaryNo then some (o.number, q.command) else none
  | _, _ => none

/-- The forward frame formed at this boundary from the air block of the previous one (R162). -/
def forwardFrame (s : State) : ForwardFrame :=
  let b := s.audio.prev.air
  let k := b.tag.origin.content
  { seq := s.lnk.nextSeq, content := k, command := ridingCommand s, audio := b.audio
    check := crc (frameBody s.lnk.nextSeq k (ridingCommand s) b.audio) }

/-- LNK forms the forward frame (R162); the first frame that carries a command gives its first sequence (R168). -/
def formFrame (s : State) : State :=
  let first (o : Outstanding) : Outstanding :=
    if o.since < s.boundaryNo ∧ o.firstSeq.isNone then { o with firstSeq := some s.lnk.nextSeq } else o
  s.withLnk { s.lnk with
    frame := some (forwardFrame s)
    lastSent := some s.lnk.nextSeq
    nextSeq := (s.lnk.nextSeq + 1) % 256
    outstanding := s.lnk.outstanding.map first }

/-- A return frame arrives: the first good one of the period is the period's frame (R163). -/
def returnFrame (bytes : List Byte) (s : State) : State :=
  match ReturnFrame.ofBytes bytes, s.lnk.period with
  | some f, none => s.withLnk { s.lnk with period := some f }
  | _, _ => s

/-! ### A command leaves the queue -/

/-- The head leaves the queue, SITE is told, and the next command is considered (R168). SITE acts before the next command becomes
outstanding, so that the commands it withdraws never do (R169, R183). DESIGN CHOICE (log 49): unsafe. -/
def headLeaves (q : QueuedCommand) (outcome : Left) (s : State) : State :=
  considerOutstanding (commandLeft q outcome
    (s.withLnk { s.lnk with queue := s.lnk.queue.drop 1, outstanding := none }))

/-- The subject of SITE COMMAND FAILED (R169). -/
def SiteCommand.subject (c : SiteCommand) : Subject :=
  match c.resource with
  | some r => .resource r
  | none => .none

/-- The outstanding command fails (R169). -/
def failOutstanding (r : FailReason) (s : State) : State :=
  match s.lnk.outstanding, s.lnk.queue with
  | some _, q :: _ =>
    headLeaves q (.failed r)
      (raise .siteState (logEntry .siteCommandFailed q.command.subject (.command q.command r) s))
  | _, _ => s

/-- The period's acknowledgement is accepted for the outstanding command: its number and the place of the echo (R168). -/
def accepted (x : LNK) (f : ReturnFrame) : Option Bool :=
  match x.outstanding, f.ack with
  | some o, some (n, done) =>
    match o.firstSeq with
    | some q => if n = o.number ∧ (f.echo + 256 - q) % 256 ≤ 127 then some done else none
    | none => none
  | _, _ => none

/-- The period's acknowledgement is taken (R168, R169). -/
def takeAck (f : ReturnFrame) (s : State) : State :=
  match accepted s.lnk f, s.lnk.queue with
  | some true, q :: _ => headLeaves q .done s
  | some false, _ => failOutstanding .refused s
  | _, _ => s

/-- The outstanding command has been out for 100 boundaries (R169). -/
def commandOverdue (s : State) : Bool :=
  match s.lnk.outstanding with
  | none => false
  | some o => decide (o.since + Config.commandTimeout ≤ s.boundaryNo)

/-! ### The link state -/

/-- R164's table: the state after a period, with the counts after it. -/
def nextLink (st : LinkState) (good : Bool) (goodCount missingCount : Nat) : LinkState :=
  match st, good with
  | .down, true => .syncing
  | .down, false => .down
  | .syncing, true => if 8 ≤ goodCount then .up else .syncing
  | .syncing, false => .down
  | .up, true => .up
  | .up, false => if 10 ≤ missingCount then .degraded else .up
  | .degraded, true => if 8 ≤ goodCount then .up else .degraded
  | .degraded, false => if 400 ≤ missingCount then .down else .degraded

/-- The good and missing counts after the period just judged (R164). -/
def LNK.counted (x : LNK) : LNK :=
  match x.judged with
  | some f => { x with good := min 8 (x.good + 1), missing := 0, lastEcho := some f.echo }
  | none => { x with good := 0, missing := min 400 (x.missing + 1) }

/-- The link state after the period just judged (R164). -/
def LNK.judgement (x : LNK) : LinkState := nextLink x.state x.judged.isSome x.counted.good x.counted.missing

/-- LNK reports the link state and the site fill to OUT, which takes the report as an event of its own (R161, R166). -/
def reportCarrying (s : State) : State := handOver (.carrying s.lnk.state s.lnk.siteFill) s

/-- The link goes to another state: the entry, the notice, the reports to TB and OUT, and the outstanding command on
entering DOWN or UP (R164, R168, R169). LINK STATE stands before TB's CLOCK FALLBACK. DESIGN CHOICE (log 52): unsafe. On entering UP
the head becomes outstanding before the period's delivery reaches SITE. DESIGN CHOICE (log 60): unsafe. -/
def linkGoes (new : LinkState) (s : State) : State :=
  if new = s.lnk.state then s
  else
    let old := s.lnk.state
    let s1 := raise .linkState (logEntry .linkState .none (.link old new) (s.withLnk { s.lnk with state := new }))
    let s2 := reportCarrying (linkToTb new s1)
    match new with
    | .down => failOutstanding .link s2
    | .up => considerOutstanding s2
    | _ => s2

/-- LNK takes the site fill of a delivery (R166). -/
def takeSiteFill (f : ReturnFrame) (s : State) : State :=
  if f.fill = s.lnk.siteFill then s
  else reportCarrying (raise .linkState (logEntry .linkState .none (.siteFill f.fill)
    (s.withLnk { s.lnk with siteFill := f.fill })))

/-- A good period in UP or DEGRADED is delivered (R166). -/
def deliver (f : ReturnFrame) (s : State) : State :=
  let s1 := s.withLnk { s.lnk with delivered := some f }
  takeAck f (takeSiteFill f (siteDelivery f s1))

/-- The judgement of the period just ended (R163, R164, R166, R168, R169). -/
def judgePeriod (s : State) : State :=
  let new := s.lnk.judgement
  let s1 := linkGoes new (s.withLnk { s.lnk.counted with judged := none })
  let s2 := match s.lnk.judged with
    | some f => if new = .up ∨ new = .degraded then deliver f s1 else s1
    | none => s1
  when (commandOverdue s2) (failOutstanding .timeout) s2

/-- LNK's event at a boundary (log 18). -/
def linkStage (s : State) : State := judgePeriod (formFrame s)

/-- The judgement that is due moves the link to a state. -/
def linkWillGo (l : LinkState) (s : State) : Bool := decide (s.lnk.judgement = l ∧ s.lnk.state ≠ l)

/-- The judgement that is due finds the outstanding command without an accepted acknowledgement at its limit. -/
def timeoutDue (s : State) : Bool :=
  commandOverdue s &&
  match s.lnk.judged with
  | some f => (accepted s.lnk f).isNone
  | none => true

/-- LINK RESTART (R165; log 19). -/
def ownerLinkRestart : OwnerEvent := reply .ok fun s =>
  linkGoes .down (s.withLnk { s.lnk with good := 0, missing := 0 })

end Sys2Proof.Machine
end

