-- ==== Sys2Proof/Machine/Cue.lean ====
section
/-! DEFINITION. CUE: the list, the CUED entry, starts and ends, run lines, segues, suspension and resumption (R52 to R73). -/

namespace Sys2Proof.Machine

open Sys2Proof

/-! ### Entries -/

/-- An entry that counts as waiting (R78). -/
def CueEntry.waits (e : CueEntry) : Bool := decide (e.state = .waiting ∨ e.state = .cued)

/-- An entry's timing is BREAK-IN. -/
def CueEntry.breaksIn (e : CueEntry) : Bool :=
  match e.timing with
  | .breakIn _ => true
  | _ => false

/-- An entry that may be CUED (R56). -/
def CueEntry.cueable (e : CueEntry) : Bool := e.waits && !e.breaksIn

/-- A CUED entry is startable by the sequence (R63). -/
def CueEntry.startable (e : CueEntry) : Bool :=
  match e.kind, e.timing with
  | .stop, _ => false
  | _, .none => true
  | _, .hard _ => e.timeReached
  | _, .breakIn _ => false

/-- An ITEM's channel. -/
def CueEntry.player (e : CueEntry) : Option Nth :=
  match e.kind with
  | .item ch _ _ _ => some ch
  | _ => none

/-- A JOIN's feed. -/
def CueEntry.feed (e : CueEntry) : Option Feed :=
  match e.kind with
  | .join f _ => some f
  | _ => none

/-- An entry's length, when it has one. -/
def CueEntry.length (e : CueEntry) : Option Nat :=
  match e.kind with
  | .item _ len _ _ => len
  | .join _ len => some len
  | .stop => none

/-- The fade length of an ITEM with FADE. -/
def CueEntry.fade (e : CueEntry) : Option Nat :=
  match e.kind with
  | .item _ _ (.fade f) _ => some f
  | _ => none

/-- The elapsed count of the segue point of an entry with a length (R63). -/
def CueEntry.seguePoint (e : CueEntry) : Option Nat := e.length.map fun l => l - e.fade.getD 0

/-- The first entry in a state. -/
def CUE.inState (x : CUE) (st : CueState) : Option CueEntry := x.list.find? fun e => decide (e.state = st)

/-- The PLAYING entry. -/
def CUE.playing (x : CUE) : Option CueEntry := x.inState .playing
/-- The FADING entry. -/
def CUE.fading (x : CUE) : Option CueEntry := x.inState .fading
/-- The CUED entry. -/
def CUE.cued (x : CUE) : Option CueEntry := x.inState .cued

/-- The entry with a serial. -/
def CUE.find (x : CUE) (serial : Nat) : Option CueEntry := x.list.find? fun e => decide (e.serial = serial)

/-- The waiting count (R78). -/
def CUE.waiting (x : CUE) : Nat := (x.list.filter CueEntry.waits).length

/-- Change the entry with a serial. -/
def CUE.modify (x : CUE) (serial : Nat) (f : CueEntry → CueEntry) : CUE :=
  { x with list := x.list.map fun e => if e.serial = serial then f e else e }

/-- A mode in which the list advances by itself. -/
def Mode.automatic : Mode → Bool
  | .live => false | .auto => true | .unattended => true | .test => true

/-! ### Run lines (R61) -/

/-- A run line falls; one that is held low stays held. -/
def RunLine.drop (r : RunLine) : RunLine := { r with high := false, fell := r.fell || r.high }

/-- A run line rises at a start. It is held low until the next boundary when it fell in the same event, and stays held low to the
end of the block period when an earlier event of it holds the line. -/
def RunLine.rise (r : RunLine) (now : Nat) : RunLine :=
  if r.fell then { r with high := false, riseAfter := some now } else { r with high := r.riseAfter.isNone }

/-- The run line of an entry's channel falls. -/
def CUE.dropLine (x : CUE) (e : CueEntry) : CUE :=
  match e.player with
  | some ch => { x with run := x.run.modify ch RunLine.drop }
  | none => x

/-- The run line of an entry's channel rises. -/
def CUE.raiseLine (x : CUE) (e : CueEntry) (now : Nat) : CUE :=
  match e.player with
  | some ch => { x with run := x.run.modify ch fun r => r.rise now }
  | none => x

/-! ### Leaving and the CUED entry -/

/-- AIR clears the late break-in field that holds a serial (R47). -/
def clearLate (serial : Nat) (s : State) : State :=
  let clear (r : ContextRecord) : ContextRecord :=
    if (r.late.map fun p => p.1) = some serial then { r with late := none } else r
  s.withAir { s.air with stack := s.air.stack.map clear }

/-- An entry has started and has not ended. -/
def CueEntry.onAir (e : CueEntry) : Bool := decide (e.state = .playing ∨ e.state = .fading ∨ e.state = .suspended)

/-- An entry leaves the list (R55): run line dropped, ENTRY ENDED for one that had started, the late break-in cleared. -/
def leave (e : CueEntry) (s : State) : State :=
  let gone := { s.cue with list := s.cue.list.filter fun x => !decide (x.serial = e.serial) }
  let x := if e.state = .playing ∨ e.state = .fading then gone.dropLine e else gone
  when (decide (e.state = .cuedLate)) (clearLate e.serial) (when e.onAir (raise .entryEnded) (s.withCue x))

/-- An entry leaves as SKIPPED (R55). -/
def leaveSkipped (c : SkipCause) (e : CueEntry) (s : State) : State :=
  logEntry .itemSkipped (.cue e.serial) (.skipped c) (leave e s)

/-- An entry leaves as MISSED (R55). -/
def leaveMissed (c : MissCause) (e : CueEntry) (s : State) : State :=
  logEntry .itemMissed (.cue e.serial) (.missed c) (leave e s)

/-- The CUED entry is the first entry that may be CUED (R56). -/
def CUE.recue (x : CUE) : CUE :=
  let first := (x.list.find? CueEntry.cueable).map (·.serial)
  { x with list := x.list.map fun e =>
      if e.waits then { e with state := if first = some e.serial then .cued else .waiting } else e }

/-- CUE decides the CUED entry; a STOP that becomes CUED in UNATTENDED leaves at once (R56, R67). The flag says whether
a STOP was passed over. The number bounds the STOPs passed: at most 64 entries. -/
def recueLoop : Nat → State → State × Bool
  | 0, s => (s, false)
  | k + 1, s =>
    let was := s.cue.cued.map (·.serial)
    let s1 := s.withCue s.cue.recue
    match s1.cue.cued with
    | some e =>
      if e.kind = .stop ∧ s.air.mode = .unattended ∧ was ≠ some e.serial then
        ((recueLoop k (leaveSkipped .stopPassed e s1)).1, true)
      else (s1, false)
    | none => (s1, false)

/-- CUE decides the CUED entry (R56). -/
def recue (s : State) : State := (recueLoop 65 s).1

/-- A STOP that is CUED in UNATTENDED is passed over at a segue point or an event of R66 (R67). -/
def passStops (s : State) : State :=
  match s.cue.cued with
  | some e =>
    if e.kind = .stop ∧ s.air.mode = .unattended then recue (leaveSkipped .stopPassed e s) else s
  | none => s

/-! ### Starting and ending -/

/-- Make an entry PLAYING (R61, R62, R71): its count, its run line, ENTRY STARTED, and the mark ALC reads (R142). -/
def setPlaying (serial elapsed : Nat) (joinEnd : Option Nat) (s : State) : State :=
  match s.cue.find serial with
  | none => s
  | some e =>
    let x := (s.cue.modify serial fun e =>
      { e with state := .playing, elapsed := elapsed, joinEnd := joinEnd, begun := s.boundaryNo }).raiseLine e s.boundaryNo
    raise .entryStarted (s.withCue { x with started := true })

/-- The join end at a start by the sequence, a TAKE or a hard time (R72). -/
def joinEndAt (e : CueEntry) (s : State) : Option Nat :=
  match e.kind with
  | .join _ len => some ((s.tb.clock + len) % Config.day)
  | _ => none

/-- An entry starts by the sequence, a TAKE or a hard time (R62, R72). -/
def startEntry (e : CueEntry) (s : State) : State := setPlaying e.serial 0 (joinEndAt e s) s

/-- The FADING entry ends as DONE (R54). -/
def endFading (s : State) : State :=
  match s.cue.fading with
  | some e => leave e s
  | none => s

/-- The idle start (R66): a STOP passed over, then the CUED entry when nothing is PLAYING. -/
def considerIdle (s : State) : State :=
  let s1 := passStops s
  if s1.air.mode.automatic ∧ s1.cue.playing.isNone ∧ !s1.cue.held then
    match s1.cue.cued with
    | some e => if e.startable then recue (startEntry e s1) else s1
    | none => s1
  else s1

/-- The list has changed: the CUED entry is decided, and the idle start considered, in an event of R66 or when a STOP was
passed over. The decision comes first: in UNATTENDED an INSERT ahead of a STOP that was CUED already sends the STOP back to WAITING,
to be passed over when it is CUED again, where R67 would let it leave at once, as at any event of R66. DESIGN CHOICE (log 62):
unsafe. -/
def settleList (consider : Bool) (s : State) : State :=
  let r := recueLoop 65 s
  if consider || r.2 then considerIdle r.1 else r.1

/-- A crossfade is made from the outgoing entry into the incoming one: an ITEM with FADE and another channel (R64). -/
def crossfades (outgoing incoming : CueEntry) : Bool :=
  outgoing.fade.isSome && !decide (outgoing.player = incoming.player)

/-- A segue from the PLAYING entry into another: a crossfade or a cut (R64). -/
def segueTo (outgoing incoming : CueEntry) (s : State) : State :=
  let s1 := endFading s
  let s2 := if crossfades outgoing incoming then
      s1.withCue (s1.cue.modify outgoing.serial fun e => { e with state := .fading })
    else leave outgoing s1
  recue (startEntry incoming s2)

/-- The PLAYING entry reaches its segue point (R64). -/
def reachSegue (p : CueEntry) (s : State) : State :=
  let s1 := endFading s
  if s1.air.mode.automatic then
    let s2 := passStops s1
    match s2.cue.cued, s2.cue.held with
    | some e, false => if e.startable then segueTo p e s2 else s2
    | _, _ => s2
  else s1

/-! ### Suspension and resumption -/

/-- Suspend (R70). -/
def suspend (s : State) : State :=
  let s1 := endFading s
  let x := match s1.cue.playing with
    | some p => (s1.cue.modify p.serial fun e => { e with state := .suspended }).dropLine p
    | none => s1.cue
  s1.withCue { x with held := true }

/-- CUE's sequence is held (R70). -/
def holdSequence (s : State) : State := s.withCue { s.cue with held := true }

/-- End without suspending (R70). The end of the PLAYING entry is an event of R66, in which a CUED STOP is passed over (R67). -/
def endNoContext (s : State) : State :=
  let s1 := endFading s
  match s1.cue.playing with
  | some p => passStops (recue (holdSequence (leaveSkipped .noContext p s1)))
  | none => recue (holdSequence s1)

/-- A suspended entry resumes or rejoins by its policy, or ends (R71, R72). -/
def resumeEntry (serial elapsed : Nat) (s : State) : State :=
  match s.cue.find serial with
  | none => s
  | some e =>
    match e.kind with
    | .item _ _ _ .resume => setPlaying serial elapsed e.joinEnd s
    | .item _ _ _ .restart => setPlaying serial 0 e.joinEnd s
    | .item _ _ _ .skip => recue (leaveSkipped .policy e s)
    | .join _ len =>
      let left := blocksFrom s.tb.clock (e.joinEnd.getD s.tb.clock)
      if 1 ≤ left ∧ left ≤ len then setPlaying serial (len - left) e.joinEnd s else recue (leave e s)
    | .stop => s

/-- AIR releases the sequence when the stack is empty and no chain holds the air (R73). -/
def considerRelease (s : State) : State :=
  if s.air.stack.isEmpty ∧ s.air.chain = .none then considerIdle (s.withCue { s.cue with held := false }) else s

end Sys2Proof.Machine
end

