-- ==== Sys2Proof/Machine/Air.lean ====
section
/-! DEFINITION. AIR: the air mode, the programme selector, the context records and the stack (R21 to R48). -/

namespace Sys2Proof.Machine

open Sys2Proof

/-! ### The selected source and the programme block -/

/-- The feed of the JOIN that is PLAYING. -/
def CUE.playingFeed (x : CUE) : Option Feed := x.playing.bind CueEntry.feed

/-- The source of the PLAYING entry, FILL when none is PLAYING (R25). -/
def CUE.source (x : CUE) : Source :=
  match x.playing with
  | none => .fill
  | some e =>
    match e.kind with
    | .item ch _ _ _ => .play ch
    | .join f _ => .net f
    | .stop => .fill

/-- The selected source by R25's table; it is not stored (log 23). -/
def selectedSource (s : State) : Source :=
  if s.air.chain ≠ .none then s.air.chainSource.getD .studio
  else match s.air.stack with
    | r :: _ =>
      match r.kind with
      | .liveInsert => .studio
      | _ => match s.cue.playingFeed with
        | some f => .net f
        | none => .fill
    | [] => if s.air.mode = .live then .studio else s.cue.source

/-- The input block of a source (R26). -/
def Inputs.of (i : Inputs) : Source → Audio
  | .studio => i.studio
  | .play ch => i.players.get ch
  | .net .netA => i.netA
  | .net .netB => i.netB
  | .fill => i.fill

/-- The source of an entry. -/
def CueEntry.source (e : CueEntry) : Source :=
  match e.kind with
  | .item ch _ _ _ => .play ch
  | .join f _ => .net f
  | .stop => .fill

/-- The crossfade in progress at the top level of an automatic mode: outgoing entry, incoming entry, fade length and the
number of boundaries of the fade so far, this one included (R25, R26, R65). -/
def fadeInProgress (s : State) : Option (CueEntry × CueEntry × Nat × Nat) :=
  if s.air.chain = .none ∧ s.air.stack = [] ∧ s.air.mode.automatic then
    match s.cue.playing, s.cue.fading with
    | some p, some o => some (o, p, o.fade.getD 0, s.boundaryNo - p.begun)
    | _, _ => none
  else none

/-- The tag of a programme block (R4, R27). -/
def programmeTag (s : State) (source : Source) (entry : Option CueEntry) (a : Audio) : Tag :=
  { origin := .programme source
    entry := entry.map fun e => (e.serial, e.logRef)
    lines := s.lsw.lines.map fun r => decide (r.state = .air)
    stretch := false, peak := peakOf a, alert := none }

/-- The entry a block of the selected source is formed for (R4, R27). -/
def sourceEntry (s : State) : Option CueEntry :=
  if s.air.chain ≠ .none then none
  else match selectedSource s with
    | .play _ => s.cue.playing
    | .net _ => s.cue.playing
    | _ => none

/-- The programme block AIR forms at this boundary (R4, R25, R26, R27; log 24). -/
def programmeBlock (s : State) : Block :=
  let inp := s.audio.prev.inputs
  let single (src : Source) (e : Option CueEntry) : Block := ⟨inp.of src, programmeTag s src e (inp.of src)⟩
  match fadeInProgress s with
  | some (o, p, f, k) =>
    if k = 0 then single o.source (some o)
    else if k ≤ f then
      let a := mix f k (inp.of o.source) (inp.of p.source)
      ⟨a, programmeTag s p.source (some p) a⟩
    else single p.source (some p)
  | none => single (selectedSource s) (sourceEntry s)

/-- AIR's event at a boundary (R1, R25, R27). -/
def programmeStage (s : State) : State :=
  s.withAudio { s.audio with cur := { s.audio.cur with programme := programmeBlock s } }

/-! ### The air mode -/

/-- A change of air mode (R23), and OUT's judgement of SILENCE with it (R157). OUT's SAFE ON or SAFE OFF for TEST stands before AIR's
MODE CHANGE, that for SILENCE after it. DESIGN CHOICE (log 54): unsafe. -/
def changeMode (new : Mode) (forced : Bool) (s : State) : State :=
  let old := s.air.mode
  let s1 := s.withAir { s.air with mode := new }
  let s2 := when (decide (new = .test)) (safeChange .test true) s1
  let s3 := when (decide (old = .test ∧ new ≠ .test)) (safeChange .test false) s2
  judgeSilence (logEntry .modeChange .none (.mode new forced) s3)

/-- AIR takes ALC's report of an alert that enters READY (R24). -/
def readyReport (s : State) : State :=
  if s.air.mode = .test then raise .alertState (changeMode .live true s) else s

/-! ### Taking the air -/

/-- A record can be given (R31). -/
def AIR.hasRoom (x : AIR) : Bool := decide (x.stack.length < x.maxDepth)

/-- AIR appends STACK FULL (R51). -/
def logStackFull (subject : Subject) (s : State) : State :=
  logEntry .stackFull subject (.number s.air.stack.length) s

/-- The record a push fills from the air as it stands (R31). -/
def newRecord (k : RecordKind) (s : State) : ContextRecord :=
  { number := s.air.free.headD 1
    kind := k
    before := selectedSource s
    suspended := s.cue.playing.map fun e => (e.serial, e.elapsed)
    parked := s.lsw.airPairs
    delayBefore := if k = .alert then some s.dly.runState else none
    late := none }

/-- A push (R31, R35): the record, then the instructions to CUE and LSW. -/
def push (k : RecordKind) (s : State) : State :=
  parkLines (suspend (s.withAir { s.air with
    stack := newRecord k s :: s.air.stack, free := s.air.free.drop 1 }))

/-- A chain begins: its state and its source (R27, R32, R43). -/
def beginChainAt (c : ChainState) (s : State) : State :=
  s.withAir { s.air with chain := c, chainSource := some (selectedSource s) }

/-- The withdrawal that the end of a BREAK-IN's JOIN at a grant without a record brings about (R44). -/
def reportJoinLost (s : State) : State :=
  match s.air.stack, s.cue.playing with
  | r :: _, some e => if r.kind = .breakIn ∧ e.feed.isSome then handOver (.withdrawal r.number e.serial) s else s
  | _, _ => s

/-- The grant of the air to an alert, with a record or without one (R32, R43). CUE's ITEM SKIPPED stands before AIR's STACK FULL.
DESIGN CHOICE (log 54): unsafe. -/
def grantAlert (pair : Pair) (s : State) : State :=
  if s.air.hasRoom then
    alertHolds true (freeze false (push .alert (beginChainAt .withContext s)))
  else
    logStackFull (.alert pair) (alertHolds true (freeze true (holdLines (endNoContext
      (reportJoinLost (beginChainAt .withoutContext s))))))

/-! ### Giving the air back -/

/-- The entry that ends a preemption (R37, R51). -/
def logPreemptionEnd (k : RecordKind) (serial : Nat) (s : State) : State :=
  match k with
  | .liveInsert => logEntry .liveInsertEnd .none (.number 0) s
  | .breakIn => logEntry .joinEnd (.cue serial) (.number 0) s
  | .alert => s

/-- AIR sets the alert chain state to NONE and forgets the chain's source (R27, R37). -/
def chainOver (s : State) : State :=
  alertHolds false (s.withAir { s.air with chain := .none, chainSource := none })

/-- A suspended entry is a JOIN. -/
def CUE.isJoin (x : CUE) (serial : Nat) : Bool := ((x.find serial).bind CueEntry.feed).isSome

/-- The end of a JOIN at its restore is a release of its own for the BREAK-IN record now at the top (R39). -/
def reportJoinEnd (serial : Nat) (s : State) : State :=
  match s.air.stack with
  | r :: _ => if r.kind = .breakIn then handOver (.joinEnd r.number serial) s else s
  | [] => s

/-- CUE resumes the suspended entry of a popped record (R37, step 2). -/
def restoreEntry (suspended : Option (Nat × Nat)) (s : State) : State :=
  match suspended with
  | some (serial, elapsed) =>
    let s1 := resumeEntry serial elapsed s
    when (s.cue.isJoin serial && (s1.cue.find serial).isNone) (reportJoinEnd serial) s1
  | none => s

/-- A record leaves the stack for the free list (R28). -/
def AIR.free_ (x : AIR) (number : Nat) : AIR :=
  { x with stack := x.stack.filter fun r => !decide (r.number = number), free := number :: x.free }

/-- The pop of the top record (R37); DLY and OUT have been told already. CUE's ITEM SKIPPED for an entry that SKIP ends stands before
AIR's LIVE INSERT END or JOIN END, that for a STOP passed at the release after it. DESIGN CHOICE (log 54): unsafe. -/
def popRecord (r : ContextRecord) (serial : Nat) (s : State) : State :=
  let s1 := restoreEntry r.suspended (s.withAir (s.air.free_ r.number))
  let s2 := r.parked.foldl returnLine s1
  considerRelease (logPreemptionEnd r.kind serial s2)

/-- A record that is not the top is withdrawn: the record above takes what it saved (R40), and keeps the lines it parked itself
(log 55). -/
def withdrawRecord (r : ContextRecord) (serial : Nat) (s : State) : State :=
  let rec take : List ContextRecord → List ContextRecord
    | above :: below :: rest =>
      if below.number = r.number then
        { above with before := r.before, suspended := r.suspended, parked := above.parked ++ r.parked } :: rest
      else above :: take (below :: rest)
    | rest => rest
  logPreemptionEnd r.kind serial (s.withAir { s.air with stack := take s.air.stack, free := r.number :: s.air.free })

/-- A suspended entry is ended without a record to hand it to; a JOIN so lost ends its BREAK-IN record in an event that
follows (R36, R44). -/
def endSuspended (suspended : Option (Nat × Nat)) (s : State) : State :=
  match suspended.bind fun p => s.cue.find p.1 with
  | none => s
  | some e =>
    let s1 := recue (leaveSkipped .noContext e s)
    match e.feed, s1.air.stack with
    | some _, r :: _ => if r.kind = .breakIn then handOver (.withdrawal r.number e.serial) s1 else s1
    | _, _ => s1

/-- The top record is withdrawn while a chain without a record holds the air (R44). CUE's ITEM SKIPPED stands before AIR's LIVE
INSERT END or JOIN END. DESIGN CHOICE (log 54): unsafe. -/
def withdrawTop (r : ContextRecord) (serial : Nat) (s : State) : State :=
  let s1 := endSuspended r.suspended (s.withAir (s.air.free_ r.number))
  logPreemptionEnd r.kind serial ((r.parked.map (·.1)).foldl holdParked s1)

/-- A record ends: a pop, a withdrawal, or a withdrawal without a record (R36, R40, R41, R44). -/
def endRecord (number serial : Nat) (s : State) : State :=
  match s.air.stack.find? fun r => decide (r.number = number) with
  | none => s
  | some r =>
    if s.air.stack.head?.map (·.number) ≠ some number then withdrawRecord r serial s
    else if s.air.chain = .withoutContext then withdrawTop r serial s
    else popRecord r serial s

/-- The LIVE INSERT record on the stack. -/
def AIR.insertRecord (x : AIR) : Option ContextRecord := x.stack.find? fun r => decide (r.kind = .liveInsert)

/-- A live insert in force ends (R41, R42). -/
def endLiveInsert (s : State) : State :=
  match s.air.insertRecord with
  | none => s
  | some r => endRecord r.number 0 s

/-- The handover of the ALERT record to a late break-in, or its pop when the join is too late (R48). CUE's entries for a STOP passed
stand before AIR's JOIN START. DESIGN CHOICE (log 54): unsafe. -/
def handOverRecord (r : ContextRecord) (serial due : Nat) (s : State) : State :=
  let s1 := chainOver (unfreeze (r.delayBefore.getD .bypass) s)
  let change (f : ContextRecord → ContextRecord) (s : State) : State :=
    s.withAir { s.air with stack := s.air.stack.map fun x => if x.number = r.number then f x else x }
  match s.cue.find serial with
  | none => popRecord r serial s1
  | some e =>
    let len := e.length.getD 0
    let gone := blocksFrom due s1.tb.clock
    if gone < len then
      let s2 := change (fun x => { x with kind := .breakIn, delayBefore := none, late := none }) s1
      logEntry .joinStart (.cue serial) (.number (len - gone))
        (recue (setPlaying serial gone (some ((due + len) % Config.day)) s2))
    else
      let s2 := raise .hardTime (recue (leaveMissed .tooLate e s1))
      popRecord { r with late := none } serial s2

/-- The end of a chain without a record (R45). OUT's SAFE ON stands before AIR's RESUME LOST. DESIGN CHOICE (log 54): unsafe. -/
def endWithoutRecord (s : State) : State :=
  let s1 := safeChange .resumeLost true (chainOver (unfreeze (s.dly.kept.getD .bypass) s))
  considerRelease (logEntry .resumeLost .none (.number s1.air.stack.length) (raise .resumeLost s1))

/-- ALC reports the end of the chain (R37, R45, R48). -/
def endChain (s : State) : State :=
  match s.air.chain, s.air.stack with
  | .none, _ => s
  | .withoutContext, _ => endWithoutRecord s
  | .withContext, [] => chainOver s
  | .withContext, r :: _ =>
    match r.late with
    | some (serial, due) => handOverRecord r serial due s
    | none => popRecord r 0 (chainOver (unfreeze (r.delayBefore.getD .bypass) s))

/-! ### Requests -/

/-- SET MODE, the checks of R22 and the change of R23; ALC's part follows in the request. -/
def setModeTo (new : Mode) : OwnerEvent := fun s =>
  if new = s.air.mode then reply .ok id s
  else if s.air.mode ≠ .live ∧ new ≠ .live then refuse .wrongMode s
  else if s.air.stack ≠ [] ∨ s.air.chain ≠ .none then refuse .inUse s
  else if s.air.mode = .live ∧ s.lsw.anyIn .air then refuse .inUse s
  else reply .ok (changeMode new false) s

/-- SET MAX DEPTH (R30). -/
def ownerSetMaxDepth (depth : Byte) : OwnerEvent := fun s =>
  if depth.toNat < 1 ∨ 4 < depth.toNat then refuse .badValue s
  else if depth.toNat < s.air.stack.length then refuse .inUse s
  else reply .ok (fun s => s.withAir { s.air with maxDepth := depth.toNat }) s

/-- LIVE INSERT (R34). -/
def liveInsert : OwnerEvent := fun s =>
  if s.air.mode = .live ∨ s.air.mode = .test then refuse .wrongMode s
  else if s.air.chain ≠ .none then refuse .wrongState s
  else if s.air.insertRecord.isSome then refuse .wrongState s
  else if !s.air.hasRoom then refuse .stackFull s
  else reply .ok (fun s => logEntry .liveInsertStart .none (.number 0) (push .liveInsert s)) s

/-- LIVE INSERT END (R41). -/
def liveInsertEnd : OwnerEvent := fun s =>
  if s.air.insertRecord.isNone then refuse .wrongState s else reply .ok endLiveInsert s

end Sys2Proof.Machine
end

