-- ==== Sys2Proof/Machine/Playout.lean ====
section
/-! DEFINITION. CUE's requests and its events at a boundary: segues, ends, hard times and break-ins (R57 to R78). -/

namespace Sys2Proof.Machine

open Sys2Proof

/-! ### Ends of the PLAYING entry -/

/-- The PLAYING entry has left, an event of R66. While the sequence is held that is the end of the BREAK-IN record at the top,
and only a CUED STOP is passed over; otherwise an idle start is considered too (R36, R60, R64, R66, R67). CUE's ITEM SKIPPED
stands before AIR's JOIN END. DESIGN CHOICE (log 54): unsafe. -/
def afterPlaying (p : CueEntry) (s : State) : State :=
  if s.cue.held then
    let s1 := passStops (recue s)
    match s1.air.stack with
    | r :: _ => if r.kind = .breakIn then endRecord r.number p.serial s1 else s1
    | [] => s1
  else settleList true s

/-- The PLAYING entry ends as DONE; a FADING one first (R54, R62, R69). -/
def endPlaying (p : CueEntry) (s : State) : State := afterPlaying p (leave p (endFading s))

/-- An open-length item reaches its segue point and its end in one event (R64, R69). -/
def itemEnds (p : CueEntry) (s : State) : State :=
  let s1 := reachSegue p s
  match s1.cue.find p.serial with
  | some q => if q.state = .playing then endPlaying q s1 else s1
  | none => s1

/-! ### Requests -/

/-- The serial after one (R53). -/
def serialAfter (n : Nat) : Nat := if n = 65535 then 1 else n + 1

/-- The next serial that is not in the list (R53); at most 64 are. -/
def CUE.freeSerial (x : CUE) : Nat → Nat → Nat
  | 0, n => n
  | k + 1, n => if (x.find n).isSome then CUE.freeSerial x k (serialAfter n) else n

/-- The serial a new entry is given. -/
def CUE.nextSerial (x : CUE) : Nat := x.freeSerial 65 x.counter

/-- A new entry, WAITING, with the number of the last boundary before it was added (R52, R57, R74). -/
def newEntry (serial : Nat) (k : CueKind) (t : Timing) (ref : Long) (boundaryNo : Nat) : CueEntry :=
  { serial := serial, kind := k, timing := t, logRef := ref, added := boundaryNo }

/-- Add an entry at a place of the list and settle it (R53, R57, R58). -/
def addEntry (place : Nat) (k : CueKind) (t : Timing) (ref : Long) : OwnerEvent := fun s =>
  let n := s.cue.nextSerial
  (settleList true (s.withCue { s.cue with
    list := s.cue.list.insertIdx place (newEntry n k t ref s.boundaryNo), counter := serialAfter n }),
   ⟨.ok, beBytes 2 n⟩)

/-- APPEND (R57). -/
def append (f : EntryFields) : OwnerEvent := fun s =>
  match (cueKindOf f).bind fun k => (timingOf k f).map fun t => (k, t) with
  | none => refuse .badValue s
  | some (k, t) =>
    if Config.cueEntries ≤ s.cue.list.length then refuse .full s
    else addEntry s.cue.list.length k t f.logRef s

/-- The place just after the entry with a serial; the head for anchor 0 (R58). -/
def CUE.placeAfter (x : CUE) (anchor : Nat) : Option Nat :=
  if anchor = 0 then some 0
  else (x.list.findIdx? fun e => decide (e.serial = anchor)).map (· + 1)

/-- INSERT (R58). An entry placed ahead of a STOP that is CUED in UNATTENDED becomes CUED before the STOP is passed over. DESIGN
CHOICE (log 62): unsafe. -/
def insert (anchor : Half) (f : EntryFields) : OwnerEvent := fun s =>
  match (cueKindOf f).bind fun k => (timingOf k f).map fun t => (k, t) with
  | none => refuse .badValue s
  | some (k, t) =>
    if Config.cueEntries ≤ s.cue.list.length then refuse .full s
    else match s.cue.placeAfter anchor.toNat with
      | none => refuse .notFound s
      | some place => addEntry place k t f.logRef s

/-- DELETE (R59). -/
def delete (serial : Half) : OwnerEvent := fun s =>
  match s.cue.find serial.toNat with
  | none => refuse .notFound s
  | some e => if e.onAir then refuse .inUse s else reply .ok (fun s => settleList true (leave e s)) s

/-- SKIP (R60). -/
def skip (serial : Half) : OwnerEvent := fun s =>
  match s.cue.find serial.toNat with
  | none => refuse .notFound s
  | some e =>
    match e.state with
    | .suspended => refuse .inUse s
    | .playing => reply .ok (fun s => afterPlaying e (leaveSkipped .request e (endFading s))) s
    | _ => reply .ok (fun s => settleList true (leaveSkipped .request e s)) s

/-- A TAKE that passes its checks (R68). -/
def takeEntry (e : CueEntry) (s : State) : State :=
  if e.kind = .stop then settleList true (leave e s)
  else
    let s1 := endFading s
    let s2 := match s1.cue.playing with
      | some p => leave p s1
      | none => s1
    recue (startEntry e s2)

/-- TAKE, with the expected serial (R68). -/
def take (expected : Option Half) : OwnerEvent := fun s =>
  if s.cue.held then refuse .inUse s
  else match expected, s.cue.cued with
    | some n, some e => if e.serial = n.toNat then reply .ok (takeEntry e) s else refuse .stale s
    | some _, none => refuse .stale s
    | none, some e => reply .ok (takeEntry e) s
    | none, none => refuse .wrongState s

/-- ITEM END (R69). -/
def itemEnd (serial : Half) : OwnerEvent := fun s =>
  match s.cue.find serial.toNat with
  | none => refuse .notFound s
  | some e =>
    if e.state ≠ .playing ∨ e.feed.isSome then refuse .wrongState s
    else if e.length.isSome then reply .ok (endPlaying e) s
    else reply .ok (itemEnds e) s

/-- SET LOW WATER (R78). -/
def ownerSetLowWater (threshold : Byte) : OwnerEvent := fun s =>
  if 63 < threshold.toNat then refuse .badValue s
  else reply .ok (fun s => s.withCue { s.cue with
    threshold := threshold.toNat, armed := decide (threshold.toNat < s.cue.waiting) }) s

/-- ARM LOW WATER (R78). -/
def ownerArmLowWater : OwnerEvent := reply .ok fun s =>
  if s.cue.threshold = 0 ∨ s.cue.threshold < s.cue.waiting then s.withCue { s.cue with armed := true }
  else raise .lowWater (s.withCue { s.cue with armed := false })

/-- The low-water check after an event that changed the waiting count (R78). A rise arms the flag when the count it ends with is
above the threshold, also when it was above it before. DEDUCED (log 44): unsafe. -/
def lowWaterCheck (before : State) (s : State) : State :=
  let old := before.cue.waiting
  let new := s.cue.waiting
  if new < old ∧ new ≤ s.cue.threshold ∧ s.cue.armed ∧ 1 ≤ s.cue.threshold then
    raise .lowWater (s.withCue { s.cue with armed := false })
  else if old < new ∧ s.cue.threshold < new then s.withCue { s.cue with armed := true }
  else s

/-! ### The counts of a boundary -/

/-- A run line's delayed rise is due (R61). -/
def RunLine.due (r : RunLine) (now : Nat) : Bool :=
  match r.riseAfter with
  | some b => decide (b < now)
  | none => false

/-- An ITEM on a channel is PLAYING or FADING. -/
def CUE.sounding (x : CUE) (ch : Nth) : Bool :=
  x.list.any fun e => decide (e.player = some ch) && decide (e.state = .playing ∨ e.state = .fading)

/-- The delayed rises of the run lines (R61). -/
def delayedRises (s : State) : State :=
  let rise (ch : Nth) (r : RunLine) : RunLine :=
    if r.due s.boundaryNo then { r with high := r.high || s.cue.sounding ch, riseAfter := none } else r
  s.withCue { s.cue with run := s.cue.run.mapIdx rise }

/-- The elapsed counts of one boundary (R54). -/
def countElapsed (s : State) : State :=
  let tick (e : CueEntry) : CueEntry :=
    if (e.state = .playing ∨ e.state = .fading) ∧ e.begun < s.boundaryNo then { e with elapsed := e.elapsed + 1 } else e
  s.withCue { s.cue with list := s.cue.list.map tick }

/-- The crossfade has run its length (R65). -/
def fadeOver (s : State) : Bool :=
  match s.cue.playing, s.cue.fading with
  | some p, some o => decide (o.fade.getD 0 < p.elapsed)
  | _, _ => false

/-- The PLAYING entry has come to its segue point at this boundary (R63). -/
def atSegue (s : State) : Bool :=
  match s.cue.playing with
  | some p => decide (p.seguePoint = some p.elapsed ∧ p.begun < s.boundaryNo)
  | none => false

/-- The PLAYING entry has reached its length (R62). -/
def atLength (s : State) : Bool :=
  match s.cue.playing with
  | some p => p.length.any fun l => decide (l ≤ p.elapsed)
  | none => false

/-- The PLAYING open-length item has reached its limit (R62). -/
def atLimit (s : State) : Bool :=
  match s.cue.playing with
  | some p => p.length.isNone && p.player.isSome && decide (Config.maxLength ≤ p.elapsed)
  | none => false

/-- Act on the PLAYING entry. -/
def onPlaying (f : CueEntry → State → State) (s : State) : State :=
  match s.cue.playing with
  | some p => f p s
  | none => s

/-- The counts with nothing acted on yet. -/
def counted (s : State) : State := countElapsed (delayedRises s)

/-- CUE's event for its counts at a boundary (R54, R61 to R65; log 14). -/
def cueCounts (s : State) : State :=
  let s1 := counted s
  let s2 := if fadeOver s1 then recue (endFading s1) else s1
  if atLimit s2 then onPlaying itemEnds s2
  else
    let moved := atSegue s2
    let s3 := if moved then onPlaying reachSegue s2 else s2
    if atLength s3 then onPlaying endPlaying s3 else s3

/-! ### Hard times and break-ins -/

/-- An entry that is compared with the air clock, with its time (R74). -/
def CueEntry.compared (e : CueEntry) : Option Nat :=
  match e.waits, e.timing with
  | true, .hard t => if e.timeReached then none else some t
  | true, .breakIn t => some t
  | _, _ => none

/-- The change report is a jump of more than 200 blocks (R77). -/
def ClockReport.jump (r : ClockReport) : Bool := r.wasSet && r.forward && decide (200 < r.step)

/-- A time falls due at this boundary (R74, R77). -/
def cueTimeDue (s : State) (t : Nat) : Bool :=
  s.tb.clockSet &&
  match s.tb.report with
  | none => decide (t = s.tb.clock)
  | some r => if !r.wasSet then decide (t = r.new) else r.forward && r.passes t

/-- The entries that fall due at this boundary, in list order: an entry added after the boundary is not compared at it (R74). -/
def dueEntries (s : State) : List CueEntry :=
  s.cue.list.filter fun e => decide (e.added < s.boundaryNo) && e.compared.any fun t => cueTimeDue s t

/-- An entry is missed and HARD TIME raised (R74 to R77). -/
def miss (c : MissCause) (s : State) (e : CueEntry) : State := raise .hardTime (leaveMissed c e s)

/-- The entries before one that a hard time passes over (R75). -/
def passedOver (e : CueEntry) (list : List CueEntry) : List CueEntry :=
  (list.takeWhile fun x => !decide (x.serial = e.serial)).filter CueEntry.cueable

/-- A HARD entry that falls due (R75). In LIVE, and where it is missed by CLOCK JUMP (R77), it does not end a FADING entry. DEDUCED
(log 45): unsafe. Of several entries passed over each leaves and is logged in list order. DESIGN CHOICE (log 40): unsafe. -/
def hardTimeDue (e : CueEntry) (s : State) : State :=
  if s.air.mode.automatic ∧ s.cue.held then settleList false (miss .held s e)
  else
    let s1 := (passedOver e s.cue.list).foldl (fun s x => leaveSkipped .hardTime x s) s
    if s.air.mode.automatic then
      match s1.cue.playing with
      | some p => segueTo p e s1
      | none => recue (startEntry e s1)
    else
      raise .hardTime (recue (s1.withCue (s1.cue.modify e.serial fun x => { x with timeReached := true })))

/-- AIR decides a BREAK-IN (R33, R44, R47) and CUE acts on the answer (R76). AIR's STACK FULL stands before CUE's ITEM MISSED,
and CUE's ITEM SKIPPED for a STOP passed before AIR's JOIN START. DESIGN CHOICE (log 54): unsafe. -/
def breakInDue (e : CueEntry) (len due : Nat) (s : State) : State :=
  let gone := blocksFrom due s.tb.clock
  let refused (s : State) : State := settleList false (miss .stackFull (logStackFull (.cue e.serial) s) e)
  if len ≤ gone then settleList false (miss .clockJump s e)
  else match s.air.chain, s.air.stack with
    | .withContext, r :: rest =>
      if r.late.isSome then refused s
      else
        let s1 := s.withAir { s.air with stack := { r with late := some (e.serial, due) } :: rest }
        recue (s1.withCue (s1.cue.modify e.serial fun x => { x with state := .cuedLate }))
    | .none, _ =>
      if s.air.hasRoom then
        logEntry .joinStart (.cue e.serial) (.number len)
          (recue (setPlaying e.serial gone (some ((due + len) % Config.day)) (push .breakIn s)))
      else refused s
    | _, _ => refused s

/-- The first of the entries that fall due is taken (R75, R76). -/
def takeDueEntry (e : CueEntry) (s : State) : State :=
  match e.timing, e.length with
  | .breakIn t, some len => breakInDue e len t s
  | .hard _, _ => hardTimeDue e s
  | _, _ => s

/-- CUE's event for the times that fall due at a boundary (R74 to R77). -/
def cueTimes (s : State) : State :=
  match dueEntries s with
  | [] => s
  | e :: others =>
    if s.tb.report.any ClockReport.jump then settleList false ((e :: others).foldl (miss .clockJump) s)
    else takeDueEntry e (others.foldl (miss .sameTime) s)

/-! ### AIR's events for the ends of joins -/

/-- A release brought about by the end of a JOIN at its restore or at a withdrawal without a record: the BREAK-IN record that the
report names ends (R36, R39, R44). -/
def joinReleased (record serial : Nat) (s : State) : State :=
  when (s.air.stack.any fun r => decide (r.number = record ∧ r.kind = .breakIn)) (endRecord record serial) s

end Sys2Proof.Machine
end

