-- ==== Sys2Proof/Machine/Alert.lean ====
section
/-! DEFINITION. ALC: the header's judgement, the alert queue, the chain, and the alert tables (R127 to R148); and what every
owner's event ends with: ALC's look at a cue start, the low-water check, LSW's gate report. -/

namespace Sys2Proof.Machine

open Sys2Proof

/-! ### The queue -/

/-- The ON AIR entry (R135). -/
def ALC.onAir (x : ALC) : Option AlertEntry := x.queue.find? fun e => decide (e.state = .onAir)
/-- The READY head (R135). -/
def ALC.readyHead (x : ALC) : Option AlertEntry := x.queue.find? fun e => decide (e.state = .ready)
/-- The PENDING head (R135). -/
def ALC.pendingHead (x : ALC) : Option AlertEntry := x.queue.find? fun e => decide (e.state = .pending)
/-- The entry with an identity. -/
def ALC.find (x : ALC) (p : Pair) : Option AlertEntry := x.queue.find? fun e => decide (e.header.pair = p)

/-- Change the entry with an identity. -/
def ALC.modify (x : ALC) (p : Pair) (f : AlertEntry → AlertEntry) : ALC :=
  { x with queue := x.queue.map fun e => if e.header.pair = p then f e else e }

/-- The entry with an identity leaves the queue. -/
def ALC.remove (x : ALC) (p : Pair) : ALC :=
  { x with queue := x.queue.filter fun e => !decide (e.header.pair = p) }

/-- Place an entry by priority, then by arrival (R135); it arrived last. -/
def place (e : AlertEntry) (q : List AlertEntry) : List AlertEntry :=
  q.takeWhile (fun x => decide (e.header.priority ≤ x.header.priority)) ++ e ::
  q.dropWhile fun x => decide (e.header.priority ≤ x.header.priority)

/-- An entry in READY: no hold, the advisory wait set for priority 1 (R137). -/
def AlertEntry.readied (e : AlertEntry) (wait : Nat) : AlertEntry :=
  { e with state := .ready, hold := 0, advisory := if e.header.priority = 1 then wait else 0 }

/-- Append an entry about an alert. -/
def logAlert (k : LogKind) (p : Pair) (d : Detail) (s : State) : State := logEntry k (.alert p) d s

/-! ### Airing -/

/-- The airing of an alert (R144); `later`: another alert left the air in the same event, and the go line is held low until the
next boundary. SITE's entry for the wake stands before ALERT ON AIR. DESIGN CHOICE (log 54): unsafe. -/
def airing (later : Bool) (e : AlertEntry) (s : State) : State :=
  let p := e.header.pair
  let x := s.alc.modify p fun e => { e with state := .onAir, played := 0, advisory := 0, begun := s.boundaryNo }
  let s1 := s.withAlc (if later then { x with goRiseAfter := some s.boundaryNo }
    else { x with go := true, goRiseAfter := none })
  let s2 := when s.alc.wake wakeSite (s1.withOut { s1.out with alertId := some p })
  raise .alertState (logAlert .alertOnAir p (.onAir e.header.priority e.interruptions) s2)

/-- The go line falls. -/
def goFalls (s : State) : State := s.withAlc { s.alc with go := false, goRiseAfter := none }

/-- An alert begins a chain (R143). -/
def beginChain (e : AlertEntry) (s : State) : State :=
  let s1 := grantAlert e.header.pair s
  airing false e (s1.withAlc { s1.alc with chainOpen := true })

/-- The READY head may take the air now (R142). -/
def mayAir (e : AlertEntry) (s : State) : Bool :=
  decide (2 ≤ e.header.priority) || decide (s.air.mode = .live) || decide (e.advisory = 0) || s.cue.started

/-- ALC considers taking the air (R142). -/
def considerAir (s : State) : State :=
  if s.alc.onAir.isNone ∧ !s.alc.chainOpen then
    match s.alc.readyHead with
    | some e => if mayAir e s then beginChain e s else s
    | none => s
  else s

/-- After an airing has ended, the chain goes on, the go line held low to the next boundary, or ends (R145, R147, R148). -/
def chainGoesOn (s : State) : State :=
  match s.alc.readyHead with
  | some e => airing true e s
  | none => endChain (s.withAlc { s.alc with chainOpen := false })

/-- An airing ends: the go line falls and the entry leaves with its outcome (R146). -/
def endAiring (e : AlertEntry) (k : LogKind) (d : Detail) (s : State) : State :=
  let s1 := goFalls s
  raise .alertState (logAlert k e.header.pair d (s1.withAlc (s1.alc.remove e.header.pair)))

/-- An airing ends in an event of its own (R146, R147). -/
def airingEnds (e : AlertEntry) (k : LogKind) (d : Detail) (s : State) : State := chainGoesOn (endAiring e k d s)

/-- An alert interrupts the ON AIR alert (R145). -/
def interrupt (new old : AlertEntry) (s : State) : State :=
  let p := old.header.pair
  let s1 := goFalls s
  let s2 := if old.validity = 0 then
      logAlert .alertExpired p (.alertState .onAir) (s1.withAlc (s1.alc.remove p))
    else s1.withAlc (s1.alc.modify p fun e =>
      { e with state := .ready, played := 0, advisory := 0, interruptions := min 255 (e.interruptions + 1) })
  airing true new (raise .alertState (logAlert .alertInterrupted p (.pair new.header.pair) s2))

/-- An alert has entered READY by arrival, at the end of its hold or by forwarding: the report to AIR, then the air is
decided (R141, R142, R145). -/
def afterReady (e : AlertEntry) (s : State) : State :=
  let s1 := readyReport s
  match s1.alc.onAir with
  | some o => if o.header.priority < e.header.priority then interrupt e o s1 else s1
  | none => considerAir s1

/-! ### What an owner's event ends with -/

/-- LSW tells DLY of each change of the gate (R103, R114): a report DLY takes as an event of its own. -/
def gateCheck (before s : State) : State :=
  if s.lsw.anyIn .air = before.lsw.anyIn .air ∧ s.lsw.liveCalls = before.lsw.liveCalls then s
  else handOver (.gateReport (s.lsw.anyIn .air) s.lsw.liveCalls) s

/-- The marks CUE keeps within one event are wiped: an entry started, a run line fell (log 14). -/
def clearMarks (s : State) : State :=
  s.withCue { s.cue with started := false, run := s.cue.run.map fun r => { r with fell := false } }

/-- The end of an event: ALC considers the air when a cue entry started in it (R142), CUE checks the low-water count (R78),
LSW reports the gate (R103), and the marks of the event are wiped. -/
def finish (before after : State) : State :=
  clearMarks (gateCheck before (lowWaterCheck before (when after.cue.started considerAir after)))

/-- A whole event: it begins with its marks wiped, and ends as `finish` says. -/
def event (f : State → State) (s : State) : State := finish s (f (clearMarks s))

/-- A whole event with a reply. -/
def eventReply (act : OwnerEvent) : OwnerEvent := fun s =>
  (finish s (act (clearMarks s)).1, (act (clearMarks s)).2)

/-! ### Arrival -/

/-- The hold time for the mode in force (R131, R136). -/
def holdTime (s : State) : Nat :=
  match s.air.mode with
  | .live => s.alc.liveHold
  | .unattended => 0
  | _ => s.alc.autoHold

/-- The action for an event code: HOLD for a code that is not in the table (R130). -/
def ALC.actionFor (x : ALC) (e : EventCode) : EventAction :=
  ((x.events.find? fun r => decide (r.1 = e)).map (·.2)).getD .hold

/-- What R132's steps 3 and 4 make of a header: none for FILTERED (false) or IGNORED (true), or the state entered with
whether it was forwarded because its hold time is 0. -/
inductive Judgement where
  | filtered | ignored
  | enters (s : AlertState) (noHold : Bool)
deriving DecidableEq, Repr

/-- The area and event checks (R132, steps 3 and 4). -/
def judge (h : Header) (s : State) : Judgement :=
  if h.priority = 3 then .enters .ready false
  else if !h.areas.any (fun a => decide (a ∈ s.alc.areas)) then .filtered
  else match s.alc.actionFor h.event with
    | .ignore => .ignored
    | .forward => .enters .ready false
    | .hold => if holdTime s = 0 then .enters .ready true else .enters .pending false

/-- A pair becomes known (R128). -/
def ALC.recordKnown (x : ALC) (p : Pair) : ALC :=
  { x with known := (if x.known.length < Config.knownPairs then x.known else x.known.drop 1) ++ [p] }

/-- The entry R133 displaces for an arrival of a priority: the last in queue order that is not ON AIR, when its priority
is lower. -/
def ALC.displaceable (x : ALC) (priority : Nat) : Option AlertEntry :=
  match (x.queue.filter fun e => !decide (e.state = .onAir)).getLast? with
  | some e => if e.header.priority < priority then some e else none
  | none => none

/-- The entry of an accepted header (R135). -/
def acceptedEntry (h : Header) (st : AlertState) (s : State) : AlertEntry :=
  let e : AlertEntry := { header := h, state := st, arrival := s.alc.nextArrival, validity := h.validity * 12000 }
  match st with
  | .pending => { e with hold := holdTime s }
  | _ => e.readied s.alc.advisoryWait

/-- An alert is placed in the queue (R134). -/
def acceptAlert (h : Header) (st : AlertState) (noHold : Bool) (s : State) : State :=
  let e := acceptedEntry h st s
  let x := { s.alc with queue := place e s.alc.queue, nextArrival := s.alc.nextArrival + 1 }
  let s1 := logAlert .alertReceived h.pair (.received h.priority st) (s.withAlc (x.recordKnown h.pair))
  let s2 := when noHold (logAlert .alertForwarded h.pair (.forwarded .auto)) s1
  let s3 := raise .alertArrived s2
  if st = .ready then afterReady e s3 else s3

/-- An entry is displaced by an arriving alert (R133). -/
def displace (e : AlertEntry) (h : Header) (s : State) : State :=
  raise .alertState (logAlert .alertDisplaced e.header.pair (.pair h.pair) (s.withAlc (s.alc.remove e.header.pair)))

/-- The value bytes of an accepted header's reply: the outcome in the order FILTERED, IGNORED, QUEUED PENDING, QUEUED READY,
then the displaced pair (R134; log 6). -/
def queuedReply (st : AlertState) (displaced : Option Pair) : Reply :=
  ⟨.ok, byte (if st = .pending then 2 else 3) :: optional Pair.bytes displaced⟩

/-- A header in range is judged (R132, steps 2 to 6). -/
def takeHeader (h : Header) : OwnerEvent := fun s =>
  if h.pair ∈ s.alc.known ∨ (s.alc.find h.pair).isSome then
    (logAlert .alertDuplicate h.pair (.number 0) s, ⟨.duplicate, []⟩)
  else match judge h s with
    | .filtered =>
      (logAlert .alertFiltered h.pair (.event h.event) (s.withAlc (s.alc.recordKnown h.pair)), ⟨.ok, [byte 0]⟩)
    | .ignored =>
      (logAlert .alertIgnored h.pair (.event h.event) (s.withAlc (s.alc.recordKnown h.pair)), ⟨.ok, [byte 1]⟩)
    | .enters st noHold =>
      if s.alc.queue.length < Config.alertEntries then (acceptAlert h st noHold s, queuedReply st none)
      else match s.alc.displaceable h.priority with
        | some e => (acceptAlert h st noHold (displace e h s), queuedReply st (some e.header.pair))
        | none => (logAlert .alertRefusedFull h.pair (.number h.priority) s, ⟨.full, []⟩)

/-- ALERT HEADER (R127, R132). -/
def alertHeader (h : HeaderFields) : OwnerEvent := fun s =>
  match headerOf h with
  | none => refuse .badValue s
  | some h => takeHeader h s

/-! ### Forwarding, cancelling, the end of the audio -/

/-- A PENDING entry goes to READY (R136, R139). -/
def readyEntry (e : AlertEntry) (cause : ForwardCause) (s : State) : State :=
  raise .alertState (logAlert .alertForwarded e.header.pair (.forwarded cause)
    (s.withAlc (s.alc.modify e.header.pair fun e => e.readied s.alc.advisoryWait)))

/-- A PENDING entry is forwarded (R139). -/
def forwardEntry (e : AlertEntry) (cause : ForwardCause) (s : State) : State :=
  afterReady e (readyEntry e cause s)

/-- FORWARD ALERT on port B (R139). -/
def forwardAlert (pair : Option (Half × Half)) : OwnerEvent := fun s =>
  match pair with
  | some (o, n) =>
    match s.alc.find ⟨o, n⟩ with
    | none => refuse .notFound s
    | some e =>
      if e.state = .pending then (forwardEntry e .request s, ⟨.ok, e.header.pair.bytes⟩) else refuse .wrongState s
  | none =>
    match s.alc.pendingHead with
    | none => refuse .notFound s
    | some e => (forwardEntry e .request s, ⟨.ok, e.header.pair.bytes⟩)

/-- A FORWARD key (R17, R139). -/
def keyForward (s : State) : State :=
  match s.alc.pendingHead with
  | none => s
  | some e => forwardEntry e .key s

/-- CANCEL ALERT (R140). -/
def cancelAlert (originator serial : Half) : OwnerEvent := fun s =>
  match s.alc.find ⟨originator, serial⟩ with
  | none => refuse .notFound s
  | some e =>
    if e.state = .onAir then
      if e.header.priority = 3 then refuse .inUse s
      else reply .ok (airingEnds e .alertCancelled (.alertState .onAir)) s
    else reply .ok (fun s => considerAir (raise .alertState
      (logAlert .alertCancelled e.header.pair (.alertState e.state) (s.withAlc (s.alc.remove e.header.pair))))) s

/-- ALERT END (R146). -/
def alertEnd (originator serial : Half) : OwnerEvent := fun s =>
  match s.alc.onAir with
  | none => refuse .wrongState s
  | some e =>
    if e.header.pair = ⟨originator, serial⟩ then reply .ok (airingEnds e .alertEnded (.alertEnd .ended)) s
    else refuse .stale s

/-- A port C reset cuts an ON AIR alert short (R148). -/
def cutShort (s : State) : State :=
  match s.alc.onAir with
  | none => s
  | some e => airingEnds e .alertEnded (.alertEnd .cutShort) s

/-! ### Tables -/

/-- SET AREAS (R129). -/
def ownerSetAreas (codes : List Tri) : OwnerEvent := fun s =>
  if codes.length ≤ 16 ∧ codes.all areaInRange ∧ codes.Nodup then
    reply .ok (fun s => s.withAlc { s.alc with areas := codes.map (·.toNat) }) s
  else refuse .badValue s

/-- The event action table without a code. -/
def ALC.without (x : ALC) (e : EventCode) : List (EventCode × EventAction) :=
  x.events.filter fun r => !decide (r.1 = e)

/-- SET EVENT ACTION (R130). -/
def ownerSetEventAction (event1 event2 event3 action : Byte) : OwnerEvent := fun s =>
  match eventCodeOf event1 event2 event3, eventActionOf action with
  | some e, some a =>
    let present := s.alc.events.any fun r => decide (r.1 = e)
    match a, present with
    | none, false => refuse .notFound s
    | none, true => reply .ok (fun s => s.withAlc { s.alc with events := s.alc.without e }) s
    | some a, true => reply .ok (fun s => s.withAlc { s.alc with
        events := s.alc.events.map fun r => if r.1 = e then (e, a) else r }) s
    | some a, false =>
      if s.alc.events.length < 32 then
        reply .ok (fun s => s.withAlc { s.alc with events := s.alc.events ++ [(e, a)] }) s
      else refuse .full s
  | _, _ => refuse .badValue s

/-- SET ALERT TIMES (R131); the wake option is "on, off" in that order. -/
def ownerSetAlertTimes (liveHold autoHold advisoryWait : Tri) (wake : Byte) : OwnerEvent := fun s =>
  match yesNoOf wake with
  | some w =>
    if liveHold.toNat ≤ 180000 ∧ autoHold.toNat ≤ 180000 ∧ advisoryWait.toNat ≤ 180000 then
      reply .ok (fun s => s.withAlc { s.alc with
        liveHold := liveHold.toNat, autoHold := autoHold.toNat, advisoryWait := advisoryWait.toNat, wake := w }) s
    else refuse .badValue s
  | none => refuse .badValue s

/-- SET MODE (R22, R23), with ALC's look at the air (R142). -/
def setMode (mode : Byte) : OwnerEvent := fun s =>
  match modeOf mode with
  | none => refuse .badValue s
  | some m =>
    let r := setModeTo m s
    (if r.1.air.mode = s.air.mode then r.1 else considerAir r.1, r.2)

/-! ### The counts of a boundary (R138) -/

/-- The go line's delayed rise is due (R144). -/
def goRiseDue (s : State) : Bool :=
  match s.alc.goRiseAfter with
  | some b => decide (b < s.boundaryNo)
  | none => false

/-- The go line rises, when an alert is ON AIR; or the played count rises by one (R144). -/
def countPlayed (s : State) : State :=
  if goRiseDue s then s.withAlc { s.alc with go := s.alc.go || s.alc.onAir.isSome, goRiseAfter := none }
  else s.withAlc { s.alc with queue := s.alc.queue.map fun e =>
    if e.state = .onAir ∧ e.begun < s.boundaryNo then { e with played := e.played + 1 } else e }

/-- The ON AIR entry whose played count has reached its audio length (R146). -/
def lengthReached (s : State) : Option AlertEntry :=
  s.alc.onAir.bind fun e => if e.header.audioLength ≤ e.played then some e else none

/-- An entry whose validity has ended leaves as EXPIRED (R138). -/
def expire (s : State) (e : AlertEntry) : State :=
  raise .alertState (logAlert .alertExpired e.header.pair (.alertState e.state) (s.withAlc (s.alc.remove e.header.pair)))

/-- The validities with their expiries (R138); of several that end at one boundary the entries leave and are logged in queue order.
DESIGN CHOICE (log 40): unsafe. -/
def countValidity (s : State) : State :=
  let s1 := s.withAlc { s.alc with queue := s.alc.queue.map fun e => { e with validity := e.validity - 1 } }
  (s1.alc.queue.filter fun e => decide (e.validity = 0 ∧ e.state ≠ .onAir)).foldl expire s1

/-- The end of a hold (R136). -/
def holdEnds (s : State) (e : AlertEntry) : State := readyReport (readyEntry e .auto s)

/-- The holds, each entry whose hold ends going to READY in queue order (R136). -/
def countHolds (s : State) : State :=
  let s1 := s.withAlc { s.alc with queue := s.alc.queue.map fun e =>
    if e.state = .pending then { e with hold := e.hold - 1 } else e }
  (s1.alc.queue.filter fun e => decide (e.state = .pending ∧ e.hold = 0)).foldl holdEnds s1

/-- The advisory waits (R137; log 22). -/
def countAdvisory (s : State) : State :=
  s.withAlc { s.alc with queue := s.alc.queue.map fun e =>
    if e.state = .ready ∧ e.header.priority = 1 then { e with advisory := e.advisory - 1 } else e }

/-- The identities of the entries in READY. -/
def ALC.readyPairs (x : ALC) : List Pair := (x.queue.filter fun e => decide (e.state = .ready)).map (·.header.pair)

/-- ALC's event at a boundary: the counts in R138's order, then one decision on the air. -/
def alertStage (s : State) : State :=
  let s1 := countPlayed s
  let ended := lengthReached s1
  let s2 := match ended with
    | some e => endAiring e .alertEnded (.alertEnd .length) s1
    | none => s1
  let readyBefore := s2.alc.readyPairs
  let s3 := countAdvisory (countHolds (countValidity s2))
  if ended.isSome then chainGoesOn s3
  else match s3.alc.onAir, s3.alc.readyHead with
    | some o, some h =>
      if o.header.priority < h.header.priority ∧ h.header.pair ∉ readyBefore then interrupt h o s3 else s3
    | _, _ => considerAir s3

/-- A hold ends at this boundary (R136). -/
def holdDue (s : State) : Bool :=
  s.alc.queue.any fun e => decide (e.state = .pending ∧ e.hold ≤ 1 ∧ 1 < e.validity)
/-- An advisory wait reaches 0 at this boundary (R137). -/
def advisoryDue (s : State) : Bool :=
  s.alc.queue.any fun e => decide (e.state = .ready ∧ e.header.priority = 1 ∧ e.advisory = 1)
/-- A PENDING or READY entry's validity reaches 0 at this boundary (R138). -/
def validityDue (s : State) : Bool :=
  s.alc.queue.any fun e => decide (e.validity ≤ 1 ∧ e.state ≠ .onAir)

end Sys2Proof.Machine
end

