-- ==== Sys2Proof/Machine/Reading.lean ====
section
/-! DEFINITION. The replies of the reading requests: their values in the order of the owners' rules (R19, R49, R79, R104, R125,
R149, R150, R170, R171, R186, R191), laid out as logs 5 to 8 and 46 say. -/

namespace Sys2Proof.Machine

open Sys2Proof

/-- A reading: its values when a reply holds them all, else one part of them, the part number and the number of parts before up
to 59 value bytes (R196; log 7). -/
def paged (part : Option Byte) (values : List Byte) : Reply :=
  let n := (part.map (·.toNat)).getD 0
  let total := if values.length ≤ 61 then 1 else (values.length + 58) / 59
  if total ≤ n then ⟨.badValue, []⟩
  else if values.length ≤ 61 then ⟨.ok, values⟩
  else ⟨.ok, byte n :: byte total :: (values.drop (59 * n)).take 59⟩

/-- A counted list. -/
def counted_ {α : Type} (f : α → List Byte) (xs : List α) : List Byte := byte xs.length :: xs.flatMap f

/-- A level. -/
def levelByte (l : Level) : Byte := byte (Level.place l)

/-! ### TB (R19) -/

/-- A key line's fields. -/
def KeyLine.bytes (k : KeyLine) : List Byte :=
  [byte k.action.place, byte k.edge.place, levelByte k.active, levelByte k.settled]

/-- The values of READ TIMEBASE (R19). -/
def timebaseValues (s : State) : List Byte :=
  let t := s.tb
  [byte t.source.place] ++ optional (fun c => [byte (ClockSource.place c)]) t.pendingSource ++
  [yesNo (t.good .internal), yesNo (t.good .house), yesNo (t.good .link)] ++
  beBytes 4 t.clock ++ [yesNo t.clockSet, yesNo t.pendingTime.isSome] ++ t.keys.toList.flatMap KeyLine.bytes ++
  [yesNo t.keyHeld]

/-! ### AIR (R49) -/

/-- A context record's fields; the elapsed count of a suspended entry is sent in three bytes, the width its range needs. DESIGN
CHOICE (log 46): unsafe. -/
def ContextRecord.bytes (r : ContextRecord) : List Byte :=
  [byte r.number, byte r.kind.place] ++ r.before.bytes ++
  optional (fun p : Nat × Nat => beBytes 2 p.1 ++ beBytes 3 p.2) r.suspended ++
  counted_ (fun p : Nth × Slot => [byte p.1.number, byte p.2.place]) r.parked ++
  optional (fun d => [byte (RunState.place d)]) r.delayBefore ++
  optional (fun p : Nat × Nat => beBytes 2 p.1 ++ beBytes 4 p.2) r.late

/-- The values of READ AIR (R49). -/
def airValues (s : State) : List Byte :=
  let a := s.air
  [byte a.mode.place] ++ (selectedSource s).bytes ++ optional Source.bytes a.chainSource ++
  [byte a.chain.place, byte a.maxDepth, byte a.stack.length] ++ a.stack.flatMap ContextRecord.bytes ++ a.free.map byte

/-! ### CUE (R79) -/

/-- A value that is there, with nothing to say so. -/
def present {α : Type} (f : α → List Byte) : Option α → List Byte
  | none => []
  | some x => f x

/-- An entry's channel: P1 to P4, NET A, NET B, and 255 for a STOP; it tells the kind too (log 8). -/
def CueEntry.channelPlace (e : CueEntry) : Nat :=
  match e.kind with
  | .item ch _ _ _ => ch.place
  | .join f _ => f.code
  | .stop => 255

/-- A timing's place in NONE, HARD, BREAK-IN (R52). -/
def Timing.place : Timing → Nat
  | .none => 0 | .hard _ => 1 | .breakIn _ => 2

/-- The time of day of an entry's timing. -/
def Timing.time : Timing → Option Nat
  | .none => Option.none
  | .hard t => some t
  | .breakIn t => some t

/-- A JOIN's join end, from its first start. -/
def CueEntry.endTime (e : CueEntry) : Option Nat := if e.feed.isSome then e.joinEnd else none

/-- An entry's timing in bits 1 and 0, time reached in bit 7, and whether the join end follows in bit 6 (log 8). -/
def CueEntry.timingByte (e : CueEntry) : Byte :=
  byte e.timing.place ||| flagBit e.timeReached 7 ||| flagBit e.endTime.isSome 6

/-- An entry's policy: RESUME, RESTART, SKIP, REJOIN, and 4 for a STOP, which has none. -/
def CueEntry.policyPlace (e : CueEntry) : Nat :=
  match e.kind with
  | .item _ _ _ pol => pol.place
  | .join _ _ => 3
  | .stop => 4

/-- The fields of R52 that an entry has, in R52's order, packed so that two entries fit a reply (log 8). -/
def CueEntry.bytes (e : CueEntry) : List Byte :=
  let fields := match e.kind with
    | .item _ len _ _ => beBytes 3 (len.getD 0) ++ beBytes 2 (e.fade.getD 0)
    | .join _ len => beBytes 3 len
    | .stop => []
  beBytes 2 e.serial ++ [byte e.channelPlace] ++ fields ++ [e.timingByte] ++
  present (beBytes 4) e.timing.time ++ [byte (16 * e.policyPlace + e.state.place)] ++ longBytes e.logRef ++ (if e.onAir then beBytes 3 e.elapsed else []) ++
  present (beBytes 4) e.endTime

/-- A serial, 0 for none. -/
def serialBytes (e : Option CueEntry) : List Byte := beBytes 2 ((e.map (·.serial)).getD 0)

/-- The summary of READ CUE (R79); held, armed and "further entries follow" are bits 0, 1 and 2 of one byte (log 8). -/
def cueSummary (x : CUE) (further : Bool) : List Byte :=
  [byte x.list.length] ++ serialBytes x.playing ++ serialBytes x.fading ++ serialBytes x.cued ++
  serialBytes (x.inState .cuedLate) ++
  [flagBit x.held 0 ||| flagBit x.armed 1 ||| flagBit further 2, byte x.waiting, byte x.threshold] ++ beBytes 2 x.counter

/-- READ CUE (R79): the summary, then the first two entries, or the two that follow the named one. -/
def ownerReadCue (start : Half) : OwnerEvent := fun s =>
  match s.cue.placeAfter start.toNat with
  | none => refuse .notFound s
  | some n =>
    let rest := s.cue.list.drop n
    (s, ⟨.ok, cueSummary s.cue (decide (2 < rest.length)) ++ (rest.take 2).flatMap CueEntry.bytes⟩)

/-! ### LSW (R104) -/

/-- A line's fields. -/
def lineBytes (x : LSW) (l : Nth) : List Byte :=
  let r := x.lines.get l
  [byte r.state.place] ++ optional (fun s => [byte (Slot.place s)]) (x.slotOf l) ++
  optional (counted_ fun c => [c]) r.note ++ optional (beBytes 4) r.waiting ++
  optional (fun p : Nat × Nat => beBytes 4 p.1 ++ [byte p.2]) r.onAir ++ [yesNo r.state.offHook] ++
  optional (fun l => [levelByte l]) r.ring ++ optional (fun l => [levelByte l]) r.loop

/-- The line a slot holds, 0 for free. -/
def slotLine (l : Option Nth) : Byte := byte ((l.map Nth.number).getD 0)

/-- The values of READ LINES (R104). -/
def lineValues (s : State) : List Byte :=
  let x := s.lsw
  Nth.all.flatMap (lineBytes x) ++ counted_ (fun l => [byte (Nth.number l)]) x.queue ++
  [slotLine x.slotA, slotLine x.slotB, yesNo x.dropOnDump, yesNo x.liveCalls] ++
  x.ringEdges.toList.map fun d => byte d.place

/-! ### DLY (R125) -/

/-- Boundaries until the target is reached (R125); 0 where the formula is negative, after the ratio was lowered below the count.
DESIGN CHOICE (log 48): unsafe. -/
def DLY.remaining (d : DLY) : Nat := (d.target - d.delay + (d.delay - d.target)) * d.ratio - d.stepCount

/-- The values of READ DELAY (R125). The boundaries until the target are at most 384,000 and go in three bytes. DESIGN CHOICE (log
6): unsafe. -/
def delayValues (s : State) : List Byte :=
  let d := s.dly
  let steps := byte d.stepCount :: beBytes 3 d.remaining
  [byte d.state.place] ++ beBytes 2 d.delay ++ beBytes 2 d.target ++ beBytes 2 d.dumpAmount ++ [byte d.ratio] ++
  (match d.state with
    | .run .building => steps
    | .run .shrinking => steps
    | .frozen => yesNo d.recompute :: optional (fun r => [byte (RunState.place r)]) d.kept
    | _ => []) ++
  [yesNo d.gateAir, yesNo d.gateLive]

/-! ### ALC (R149, R150) -/

/-- A header as received. -/
def Header.bytes (h : Header) : List Byte :=
  h.pair.bytes ++ h.event.bytes ++ [byte h.priority] ++ beBytes 2 h.validity ++ beBytes 2 h.audioLength ++
  counted_ (beBytes 3) h.areas

/-- An alert entry's fields that are present (R135). -/
def AlertEntry.bytes (e : AlertEntry) : List Byte :=
  e.header.bytes ++ [byte e.state.place] ++ beBytes 4 e.arrival ++
  (if e.state = .pending then beBytes 3 e.hold else []) ++
  (if e.state = .ready ∧ e.header.priority = 1 then beBytes 3 e.advisory else []) ++
  beBytes 4 e.validity ++ [byte e.interruptions] ++ (if e.state = .onAir then beBytes 2 e.played else [])

/-- How many entries are in a state. -/
def ALC.count (x : ALC) (st : AlertState) : Nat := (x.queue.filter fun e => decide (e.state = st)).length

/-- The pair of an entry, or none. -/
def pairOf (e : Option AlertEntry) : Option Pair := e.map (·.header.pair)

/-- The summary of READ ALERTS (R149); the chain state is OPEN, CLOSED in that order (R135). -/
def alertSummary (x : ALC) : List Byte :=
  [byte x.queue.length, byte (x.count .pending), byte (x.count .ready), yesNo x.chainOpen,
   levelByte (if x.go then .high else .low)] ++
  optional (fun e : AlertEntry => e.header.pair.bytes ++ beBytes 2 e.played) x.onAir ++
  optional Pair.bytes (pairOf x.readyHead) ++ optional Pair.bytes (pairOf x.pendingHead)

/-- READ ALERTS (R149). -/
def ownerReadAlerts (place : Byte) (part : Option Byte) : OwnerEvent := fun s =>
  if 8 < place.toNat then refuse .badValue s
  else if place.toNat = 0 then (s, paged part (alertSummary s.alc))
  else match s.alc.queue[place.toNat - 1]? with
    | none => refuse .notFound s
    | some e => (s, paged part (alertSummary s.alc ++ e.bytes))

/-- An event code as a number, in the order AAA to ZZZ. -/
def EventCode.rank (e : EventCode) : Nat := (e.c1.toNat * 256 + e.c2.toNat) * 256 + e.c3.toNat

/-- Insert a record in the order of its event code. -/
def insertByCode (r : EventCode × EventAction) : List (EventCode × EventAction) → List (EventCode × EventAction)
  | [] => [r]
  | x :: rest => if r.1.rank < x.1.rank then r :: x :: rest else x :: insertByCode r rest

/-- The event action table in the order of its event codes (R150). -/
def ALC.sortedEvents (x : ALC) : List (EventCode × EventAction) := x.events.foldr insertByCode []

/-- One page of a table: the starting place and up to 14 entries of four bytes (section 10.6). -/
def tablePage {α : Type} (start : Byte) (f : α → List Byte) (xs : List α) : Reply :=
  if 31 < start.toNat then ⟨.badValue, []⟩ else ⟨.ok, start :: ((xs.drop start.toNat).take 14).flatMap f⟩

/-- READ ALERT TABLES (R150): AREAS, EVENTS, DUPLICATES, TIMES in that order. -/
def ownerReadAlertTables (selector start : Byte) : OwnerEvent := fun s =>
  let x := s.alc
  match selector.toNat with
  | 0 => (s, ⟨.ok, counted_ (beBytes 3) x.areas⟩)
  | 1 => (s, tablePage start (fun r : EventCode × EventAction => r.1.bytes ++ [byte r.2.place]) x.sortedEvents)
  | 2 => (s, tablePage start Pair.bytes x.known)
  | 3 => (s, ⟨.ok, beBytes 3 x.liveHold ++ beBytes 3 x.autoHold ++ beBytes 3 x.advisoryWait ++ [yesNo x.wake]⟩)
  | _ => refuse .badValue s

/-! ### OUT (R170) -/

/-- The values of READ OUTPUT (R170). The safe-reason set and the set of lines on air are each sent as yes-or-no bytes, one for each
reason and each line in order, with no count. DESIGN CHOICE (log 6): unsafe. -/
def outputValues (s : State) : List Byte :=
  let o := s.out
  [yesNo o.reasons.key, yesNo o.reasons.port, yesNo o.reasons.silence, yesNo o.reasons.test, yesNo o.reasons.resumeLost,
   yesNo s.tb.keyHeld, yesNo o.alertFlag] ++ optional Pair.bytes o.alertId ++
  [BitVec.ofInt 8 (-(o.threshold : Int))] ++ beBytes 2 o.silenceTime ++ beBytes 2 o.restoreTime ++ [yesNo o.failover] ++
  beBytes 2 o.quietRun ++ beBytes 2 o.soundRun ++ [yesNo o.deadAir] ++ optional Origin.bytes o.origin ++
  optional (fun p : Nat × Long => beBytes 2 p.1 ++ longBytes p.2) o.entry ++ o.lines.toList.map yesNo ++
  beBytes 4 o.entryRun ++ beBytes 4 o.carriedRun ++ [yesNo o.carrying]

/-! ### LNK (R171) -/

/-- A command with its value. -/
def SiteCommand.bytes (c : SiteCommand) : List Byte := [byte c.place, byte c.value]

/-- The outstanding command with its number, its first sequence and the boundaries left (R171). -/
def outstandingBytes (s : State) : List Byte :=
  match s.lnk.outstanding, s.lnk.queue with
  | some o, q :: _ =>
    yesNo true :: (q.command.bytes ++ [byte o.number] ++ optional (fun n => [byte n]) o.firstSeq ++
      [byte (o.since + Config.commandTimeout - s.boundaryNo)])
  | _, _ => [yesNo false]

/-- The contents LNK delivers to SITE (R166). -/
def ReturnFrame.contents (f : ReturnFrame) : List Byte :=
  [byte f.mode.place] ++ f.resources.map (fun r => byte (Reported.place r)) ++ [byte f.power, yesNo f.fill]

/-- The values of READ LINK (R171). -/
def linkValues (s : State) : List Byte :=
  let x := s.lnk
  [byte (linkPlace x.state), byte x.good] ++ beBytes 2 x.missing ++ optional (fun n => [byte n]) x.lastSent ++
  optional (fun n => [byte n]) x.lastEcho ++ outstandingBytes s ++
  counted_ (fun q : QueuedCommand => q.command.bytes) x.behind ++ [byte x.nextNumber] ++
  optional ReturnFrame.contents x.delivered ++ [yesNo x.siteFill]

/-! ### SITE (R186) -/

/-- A resource's fields. -/
def Resource.bytes (r : Resource) : List Byte :=
  [byte (r.slot.getD 255), yesNo r.keepInLow] ++ optional (counted_ fun c => [c]) r.label ++
  [yesNo r.commanded, byte r.reported.place]

/-- A slot length is sent as SET SITE OPTIONS codes it, by its place in 0, 200, 400 or 1000. DESIGN CHOICE (log 6): unsafe. -/
def slotLengthPlace (n : Nat) : Nat := if n = 0 then 0 else if n = 200 then 1 else if n = 400 then 2 else 3

/-- The stage's fields that READ SITE gives; 255 stands for the stage of a stop that is not sequential (log 21). -/
def Stage.bytes (st : Stage) : List Byte :=
  [byte st.kind.place, byte (if st.kind = .power then st.step else st.slot.getD 255), byte st.toPut.length,
   byte st.awaiting.length] ++ beBytes 2 st.age

/-- The values of READ SITE (R186). -/
def siteValues (s : State) : List Byte :=
  let x := s.site
  [byte x.state.place] ++ optional (fun n => [byte n]) x.power ++ [byte x.stepBeforeLow] ++
  x.resources.flatMap Resource.bytes ++
  [byte (slotLengthPlace x.slotLength), byte x.fullStep, byte x.lowStep, yesNo x.restorePrevious, yesNo x.sequentialOff] ++
  beBytes 4 x.lowTime ++ beBytes 4 x.fullTime ++ [yesNo x.windowEnabled] ++
  optional (fun m => [byte (SiteMode.place m)]) x.lastMode ++ optional (fun n => [byte n]) x.reportedStep ++
  optional Stage.bytes x.stage ++ [yesNo x.pendingWake]

/-! ### LOG (R191) -/

/-- The place, counting back from the newest entry, of the first entry READ LOG returns, and the gap flag (R191). -/
def LOG.first (l : LOG) (start : Nat) : Option (Nat × Bool) :=
  match l.entries with
  | [] => none
  | newest :: _ =>
    let held := l.entries.length
    let distance := if start ≤ newest.serial then newest.serial - start else newest.serial + Config.logSerials - start
    if start = 0 then some (held - 1, false)
    else if distance < held then some (distance, false)
    else if distance < 2147483648 then some (held - 1, true)
    else none

/-- The entries READ LOG returns, oldest of them first: at most two fit a reply (R191, section 10.6). -/
def LOG.page (l : LOG) (start count : Nat) : List LogEntry :=
  match l.first start with
  | none => []
  | some (n, _) => ((l.entries.take (n + 1)).reverse).take (min count 2)

/-- READ LOG (R191). The first byte has the gap flag in bit 7 and the number returned in bits 1 to 0; section 10.6 is silent on bits 6
to 2, which are sent as 0. DESIGN CHOICE (log 61): unsafe. -/
def ownerReadLog (start : Long) (count : Byte) : OwnerEvent := fun s =>
  if count.toNat < 1 ∨ 8 < count.toNat then refuse .badValue s
  else
    let page := s.log.page start.toNat count.toNat
    let gap := ((s.log.first start.toNat).map (·.2)).getD false
    let newest := (s.log.entries.head?.map (·.serial)).getD 0
    (s, ⟨.ok, byte (page.length + if gap then 128 else 0) :: (beBytes 4 newest ++ beBytes 2 s.log.entries.length ++
      page.flatMap LogEntry.bytes)⟩)

/-! ### The readings as owner's events -/

/-- READ TIMEBASE (R19). -/
def ownerReadTimebase (part : Option Byte) : OwnerEvent := fun s => (s, paged part (timebaseValues s))
/-- READ AIR (R49). -/
def ownerReadAir (part : Option Byte) : OwnerEvent := fun s => (s, paged part (airValues s))
/-- READ LINES (R104). -/
def ownerReadLines (part : Option Byte) : OwnerEvent := fun s => (s, paged part (lineValues s))
/-- READ DELAY (R125). -/
def ownerReadDelay : OwnerEvent := fun s => (s, ⟨.ok, delayValues s⟩)
/-- READ OUTPUT (R170). -/
def ownerReadOutput (part : Option Byte) : OwnerEvent := fun s => (s, paged part (outputValues s))
/-- READ LINK (R171). -/
def ownerReadLink (part : Option Byte) : OwnerEvent := fun s => (s, paged part (linkValues s))
/-- READ SITE (R186). -/
def ownerReadSite (part : Option Byte) : OwnerEvent := fun s => (s, paged part (siteValues s))

end Sys2Proof.Machine
end

