-- ==== Sys2Proof/Machine/Requests.lean ====
section
/-! DEFINITION. The requests of the catalogue: what the owner does with each, and the meaning of each request row. -/

namespace Sys2Proof.Machine

open Sys2Proof

/-! ### Port reset (R199) -/

/-- The effect a port reset hands to the owners (R199): CUE disarms low water, AIR ends a live insert, ALC cuts short. -/
def portEffect : PortId → State → State
  | .a => fun s => s.withCue { s.cue with armed := false }
  | .b => event endLiveInsert
  | .c => event cutShort

/-- A port with nothing in it; the levels of its pins stay. -/
def Port.cleared (p : Port) : Port := { init := p.init, dataOut := p.dataOut }

/-- The replies of a port's requests still at their owners are to be discarded (R199). -/
def discardReplies (p : PortId) (hs : List Handed) : List Handed :=
  hs.map fun h => if h.request.request.any fun r => decide (r.port = p) then { h with discard := true } else h

/-- The port reset event (R199), after a SET CLOCK left due. -/
def resetPort (p : PortId) (s : State) : State :=
  let s1 := clockFirst s
  portEffect p (s1.withPi { s1.pi.set p (s1.port p).cleared with handed := discardReplies p s1.pi.handed })

/-! ### A request row (R195 to R197, R199; log 4) -/

/-- A request whose bytes are written whole: a port whose init pin is low takes none (R199); while a request is at its owner
or a reply waits, the bytes are dropped with OVERRUN (R197); an open request is discarded with OVERRUN (R194). -/
def writeWhole (p : PortId) (take : State → State) (s : State) : State :=
  let q := s.port p
  match q.init with
  | .low => s
  | .high =>
    if q.occupied then overrun p s
    else if q.open_ then take (s.withPort p { q.discard with overrun := true })
    else take s

/-- A request that came as bytes is answered: by PI's own refusal, or by its owner (R195). -/
def answer (r : Request) (act : OwnerEvent) (s : State) : State :=
  match piRefusal r with
  | some res => replyTo r.port r.code ⟨res, []⟩ s
  | none => replyTo r.port r.code (act s).2 (act s).1

/-- The owner takes a request and PI returns its reply, after a SET CLOCK left due. A request handed over by PI is taken off
PI's list, and its reply is discarded when its port was reset meanwhile (R199). A request not handed over stands for its
bytes written whole and taken at once (log 4). -/
def takeRequest (i : Instr) (act : OwnerEvent) (s0 : State) : State :=
  let s := clockFirst s0
  match i.request with
  | none => s0
  | some r =>
    match takeHanded s.pi.handed i with
    | some (discard, rest) =>
      let out := act (s.withPi { s.pi with handed := rest })
      if discard then out.1 else replyTo r.port r.code out.2 out.1
    | none =>
      writeWhole r.port (answer r act) s

/-! ### PI's own requests (R198) -/

/-- READ NOTICES: the flags returned as set are cleared on this port (R198). -/
def ownerReadNotices (p : PortId) : OwnerEvent := fun s =>
  (s.withPort p { s.port p with flags := 0 }, ⟨.ok, halfBytes (s.port p).flags⟩)

/-- SET NOTICE MASK (R198). -/
def ownerSetNoticeMask (p : PortId) (mask : Half) : OwnerEvent :=
  reply .ok fun s => s.withPort p { s.port p with mask := mask }

/-! ### The owners' events whole: each ends with `finish` where it can start an entry, change the list or move a line -/

/-- SET MODE (R22). -/
def ownerSetMode (mode : Byte) : OwnerEvent := eventReply (setMode mode)
/-- LIVE INSERT (R34). -/
def ownerLiveInsert : OwnerEvent := eventReply liveInsert
/-- LIVE INSERT END (R41). -/
def ownerLiveInsertEnd : OwnerEvent := eventReply liveInsertEnd
/-- APPEND (R57). -/
def ownerAppend (f : EntryFields) : OwnerEvent := eventReply (append f)
/-- INSERT (R58). -/
def ownerInsert (anchor : Half) (f : EntryFields) : OwnerEvent := eventReply (insert anchor f)
/-- DELETE (R59). -/
def ownerDelete (serial : Half) : OwnerEvent := eventReply (delete serial)
/-- SKIP (R60). -/
def ownerSkip (serial : Half) : OwnerEvent := eventReply (skip serial)
/-- TAKE (R68). -/
def ownerTake (expected : Option Half) : OwnerEvent := eventReply (take expected)
/-- ITEM END (R69). -/
def ownerItemEnd (serial : Half) : OwnerEvent := eventReply (itemEnd serial)
/-- TAKE LINE (R95), with LSW's gate report. -/
def ownerTakeLineEvent (line : Option Byte) : OwnerEvent := eventReply (ownerTakeLine line)
/-- DROP (R96), with LSW's gate report. -/
def ownerDropEvent (line : Byte) : OwnerEvent := eventReply (ownerDrop line)
/-- SET LINE OPTIONS (R94), with LSW's gate report. -/
def ownerLineOptionsEvent (d l e1 e2 e3 e4 : Byte) : OwnerEvent := eventReply (ownerSetLineOptions d l e1 e2 e3 e4)
/-- ALERT HEADER (R127, R132). -/
def ownerAlertHeader (h : HeaderFields) : OwnerEvent := eventReply (alertHeader h)
/-- ALERT END (R146). -/
def ownerAlertEnd (originator serial : Half) : OwnerEvent := eventReply (alertEnd originator serial)
/-- FORWARD ALERT (R139). -/
def ownerForwardAlert (pair : Option (Half × Half)) : OwnerEvent := eventReply (forwardAlert pair)
/-- CANCEL ALERT (R140). -/
def ownerCancelAlert (originator serial : Half) : OwnerEvent := eventReply (cancelAlert originator serial)

/-- What the owner of a request does with it. PORT RESET and the commands that are no requests have no owner. -/
def ownerAct : Instr → OwnerEvent
  | .readNotices p => ownerReadNotices p
  | .setNoticeMask p m => ownerSetNoticeMask p m
  | .readTimebase _ part => ownerReadTimebase part
  | .selectClock _ src => ownerSelectClock src
  | .setClock _ t => ownerSetClock t
  | .setKeyLine _ l a e v => ownerSetKeyLine l a e v
  | .readAir _ part => ownerReadAir part
  | .setMode _ m => ownerSetMode m
  | .setMaxDepth _ d => ownerSetMaxDepth d
  | .liveInsert _ => ownerLiveInsert
  | .liveInsertEnd _ => ownerLiveInsertEnd
  | .clearResumeLost _ => ownerClearResumeLost
  | .readCue _ n => ownerReadCue n
  | .append _ f => ownerAppend f
  | .insert _ n f => ownerInsert n f
  | .delete _ n => ownerDelete n
  | .skip _ n => ownerSkip n
  | .take _ n => ownerTake n
  | .itemEnd _ n => ownerItemEnd n
  | .setLowWater _ t => ownerSetLowWater t
  | .armLowWater _ => ownerArmLowWater
  | .readLines _ part => ownerReadLines part
  | .answer _ l => ownerAnswer l
  | .hold _ l => ownerHold l
  | .screen _ l => ownerScreen l
  | .ready _ l note => ownerReady l note
  | .unready _ l => ownerUnready l
  | .lineNote _ l note => ownerLineNote l note
  | .takeLine _ l => ownerTakeLineEvent l
  | .drop _ l => ownerDropEvent l
  | .setLineOptions _ d l e1 e2 e3 e4 => ownerLineOptionsEvent d l e1 e2 e3 e4
  | .readDelay _ => ownerReadDelay
  | .engage _ t => ownerEngage t
  | .disengage _ => ownerDisengage
  | .dump _ => ownerDump
  | .setDelayOptions _ a r => ownerSetDelayOptions a r
  | .readAlerts _ n part => ownerReadAlerts n part
  | .readAlertTables _ t n => ownerReadAlertTables t n
  | .alertHeader _ h => ownerAlertHeader h
  | .alertEnd _ o n => ownerAlertEnd o n
  | .setAreas _ codes => ownerSetAreas codes
  | .setEventAction _ e1 e2 e3 a => ownerSetEventAction e1 e2 e3 a
  | .setAlertTimes _ l a w k => ownerSetAlertTimes l a w k
  | .forwardAlert _ pair => ownerForwardAlert pair
  | .cancelAlert _ o n => ownerCancelAlert o n
  | .readOutput _ part => ownerReadOutput part
  | .safeOn _ => ownerSafeOn
  | .safeOff _ => ownerSafeOff
  | .setSilence _ t q r f => ownerSetSilence t q r f
  | .readLink _ part => ownerReadLink part
  | .linkRestart _ => ownerLinkRestart
  | .readSite _ part => ownerReadSite part
  | .siteUp _ => ownerSiteUp
  | .siteDown _ => ownerSiteDown
  | .siteLow _ => ownerSiteLow
  | .siteFull _ => ownerSiteFull
  | .setSiteResource _ r t k label => ownerSetSiteResource r t k label
  | .setSiteOptions _ l f w r q => ownerSetSiteOptions l f w r q
  | .setLowWindow _ l f e => ownerSetLowWindow l f e
  | .readLog _ n k => ownerReadLog n k
  | _ => reply .ok id

/-! ### The request rows -/

/-- The outcome of a command: a next state. -/
abbrev Next := Host.Outcome State Fault Refusal

/-- READ NOTICES (R198). -/
def execReadNotices (p : PortId) (s : State) : Next :=
  .next (takeRequest (.readNotices p) (ownerReadNotices p) s)

/-- SET NOTICE MASK (R198). -/
def execSetNoticeMask (p : PortId) (mask : Half) (s : State) : Next :=
  .next (takeRequest (.setNoticeMask p mask) (ownerSetNoticeMask p mask) s)

/-- READ TIMEBASE (R19). -/
def execReadTimebase (p : PortId) (part : Option Byte) (s : State) : Next :=
  .next (takeRequest (.readTimebase p part) (ownerReadTimebase part) s)

/-- SELECT CLOCK (R9). -/
def execSelectClock (p : PortId) (source : Byte) (s : State) : Next :=
  .next (takeRequest (.selectClock p source) (ownerSelectClock source) s)

/-- SET CLOCK (R13). -/
def execSetClock (p : PortId) (time : Long) (s : State) : Next :=
  .next (takeRequest (.setClock p time) (ownerSetClock time) s)

/-- SET KEY LINE (R15). -/
def execSetKeyLine (p : PortId) (line action edge level : Byte) (s : State) : Next :=
  .next (takeRequest (.setKeyLine p line action edge level) (ownerSetKeyLine line action edge level) s)

/-- READ AIR (R49). -/
def execReadAir (p : PortId) (part : Option Byte) (s : State) : Next :=
  .next (takeRequest (.readAir p part) (ownerReadAir part) s)

/-- SET MODE (R22). -/
def execSetMode (p : PortId) (mode : Byte) (s : State) : Next :=
  .next (takeRequest (.setMode p mode) (ownerSetMode mode) s)

/-- SET MAX DEPTH (R30). -/
def execSetMaxDepth (p : PortId) (depth : Byte) (s : State) : Next :=
  .next (takeRequest (.setMaxDepth p depth) (ownerSetMaxDepth depth) s)

/-- LIVE INSERT (R34). -/
def execLiveInsert (p : PortId) (s : State) : Next :=
  .next (takeRequest (.liveInsert p) ownerLiveInsert s)

/-- LIVE INSERT END (R41). -/
def execLiveInsertEnd (p : PortId) (s : State) : Next :=
  .next (takeRequest (.liveInsertEnd p) ownerLiveInsertEnd s)

/-- CLEAR RESUME LOST (R46). -/
def execClearResumeLost (p : PortId) (s : State) : Next :=
  .next (takeRequest (.clearResumeLost p) ownerClearResumeLost s)

/-- READ CUE (R79). -/
def execReadCue (p : PortId) (start : Half) (s : State) : Next :=
  .next (takeRequest (.readCue p start) (ownerReadCue start) s)

/-- APPEND (R57). -/
def execAppend (p : PortId) (f : EntryFields) (s : State) : Next :=
  .next (takeRequest (.append p f) (ownerAppend f) s)

/-- INSERT (R58). -/
def execInsert (p : PortId) (anchor : Half) (f : EntryFields) (s : State) : Next :=
  .next (takeRequest (.insert p anchor f) (ownerInsert anchor f) s)

/-- DELETE (R59). -/
def execDelete (p : PortId) (serial : Half) (s : State) : Next :=
  .next (takeRequest (.delete p serial) (ownerDelete serial) s)

/-- SKIP (R60). -/
def execSkip (p : PortId) (serial : Half) (s : State) : Next :=
  .next (takeRequest (.skip p serial) (ownerSkip serial) s)

/-- TAKE (R68). -/
def execTake (p : PortId) (expected : Option Half) (s : State) : Next :=
  .next (takeRequest (.take p expected) (ownerTake expected) s)

/-- ITEM END (R69). -/
def execItemEnd (p : PortId) (serial : Half) (s : State) : Next :=
  .next (takeRequest (.itemEnd p serial) (ownerItemEnd serial) s)

/-- SET LOW WATER (R78). -/
def execSetLowWater (p : PortId) (threshold : Byte) (s : State) : Next :=
  .next (takeRequest (.setLowWater p threshold) (ownerSetLowWater threshold) s)

/-- ARM LOW WATER (R78). -/
def execArmLowWater (p : PortId) (s : State) : Next :=
  .next (takeRequest (.armLowWater p) ownerArmLowWater s)

/-- READ LINES (R104). -/
def execReadLines (p : PortId) (part : Option Byte) (s : State) : Next :=
  .next (takeRequest (.readLines p part) (ownerReadLines part) s)

/-- ANSWER (R88). -/
def execAnswer (p : PortId) (line : Byte) (s : State) : Next :=
  .next (takeRequest (.answer p line) (ownerAnswer line) s)

/-- HOLD (R89). -/
def execHold (p : PortId) (line : Byte) (s : State) : Next :=
  .next (takeRequest (.hold p line) (ownerHold line) s)

/-- SCREEN (R90). -/
def execScreen (p : PortId) (line : Byte) (s : State) : Next :=
  .next (takeRequest (.screen p line) (ownerScreen line) s)

/-- READY (R91). -/
def execReady (p : PortId) (line : Byte) (note : Option (List Byte)) (s : State) : Next :=
  .next (takeRequest (.ready p line note) (ownerReady line note) s)

/-- UNREADY (R92). -/
def execUnready (p : PortId) (line : Byte) (s : State) : Next :=
  .next (takeRequest (.unready p line) (ownerUnready line) s)

/-- LINE NOTE (R93). -/
def execLineNote (p : PortId) (line : Byte) (note : List Byte) (s : State) : Next :=
  .next (takeRequest (.lineNote p line note) (ownerLineNote line note) s)

/-- TAKE LINE (R95). -/
def execTakeLine (p : PortId) (line : Option Byte) (s : State) : Next :=
  .next (takeRequest (.takeLine p line) (ownerTakeLineEvent line) s)

/-- DROP (R96). -/
def execDrop (p : PortId) (line : Byte) (s : State) : Next :=
  .next (takeRequest (.drop p line) (ownerDropEvent line) s)

/-- SET LINE OPTIONS (R94). -/
def execSetLineOptions (p : PortId) (d l e1 e2 e3 e4 : Byte) (s : State) : Next :=
  .next (takeRequest (.setLineOptions p d l e1 e2 e3 e4) (ownerLineOptionsEvent d l e1 e2 e3 e4) s)

/-- READ DELAY (R125). -/
def execReadDelay (p : PortId) (s : State) : Next :=
  .next (takeRequest (.readDelay p) ownerReadDelay s)

/-- ENGAGE (R115). -/
def execEngage (p : PortId) (target : Half) (s : State) : Next :=
  .next (takeRequest (.engage p target) (ownerEngage target) s)

/-- DISENGAGE (R116). -/
def execDisengage (p : PortId) (s : State) : Next :=
  .next (takeRequest (.disengage p) ownerDisengage s)

/-- DUMP (R118). -/
def execDump (p : PortId) (s : State) : Next :=
  .next (takeRequest (.dump p) ownerDump s)

/-- SET DELAY OPTIONS (R117). -/
def execSetDelayOptions (p : PortId) (amount : Half) (ratio : Byte) (s : State) : Next :=
  .next (takeRequest (.setDelayOptions p amount ratio) (ownerSetDelayOptions amount ratio) s)

/-- READ ALERTS (R149). -/
def execReadAlerts (p : PortId) (place : Byte) (part : Option Byte) (s : State) : Next :=
  .next (takeRequest (.readAlerts p place part) (ownerReadAlerts place part) s)

/-- READ ALERT TABLES (R150). -/
def execReadAlertTables (p : PortId) (selector start : Byte) (s : State) : Next :=
  .next (takeRequest (.readAlertTables p selector start) (ownerReadAlertTables selector start) s)

/-- ALERT HEADER (R127). -/
def execAlertHeader (p : PortId) (h : HeaderFields) (s : State) : Next :=
  .next (takeRequest (.alertHeader p h) (ownerAlertHeader h) s)

/-- ALERT END (R146). -/
def execAlertEnd (p : PortId) (originator serial : Half) (s : State) : Next :=
  .next (takeRequest (.alertEnd p originator serial) (ownerAlertEnd originator serial) s)

/-- SET AREAS (R129). -/
def execSetAreas (p : PortId) (codes : List Tri) (s : State) : Next :=
  .next (takeRequest (.setAreas p codes) (ownerSetAreas codes) s)

/-- SET EVENT ACTION (R130). -/
def execSetEventAction (p : PortId) (e1 e2 e3 action : Byte) (s : State) : Next :=
  .next (takeRequest (.setEventAction p e1 e2 e3 action) (ownerSetEventAction e1 e2 e3 action) s)

/-- SET ALERT TIMES (R131). -/
def execSetAlertTimes (p : PortId) (liveHold autoHold advisoryWait : Tri) (wake : Byte) (s : State) : Next :=
  .next (takeRequest (.setAlertTimes p liveHold autoHold advisoryWait wake) (ownerSetAlertTimes liveHold autoHold advisoryWait wake) s)

/-- FORWARD ALERT (R139). -/
def execForwardAlert (p : PortId) (pair : Option (Half × Half)) (s : State) : Next :=
  .next (takeRequest (.forwardAlert p pair) (ownerForwardAlert pair) s)

/-- CANCEL ALERT (R140). -/
def execCancelAlert (p : PortId) (originator serial : Half) (s : State) : Next :=
  .next (takeRequest (.cancelAlert p originator serial) (ownerCancelAlert originator serial) s)

/-- READ OUTPUT (R170). -/
def execReadOutput (p : PortId) (part : Option Byte) (s : State) : Next :=
  .next (takeRequest (.readOutput p part) (ownerReadOutput part) s)

/-- SAFE ON (R155). -/
def execSafeOn (p : PortId) (s : State) : Next :=
  .next (takeRequest (.safeOn p) ownerSafeOn s)

/-- SAFE OFF (R155). -/
def execSafeOff (p : PortId) (s : State) : Next :=
  .next (takeRequest (.safeOff p) ownerSafeOff s)

/-- SET SILENCE (R158). -/
def execSetSilence (p : PortId) (threshold : Byte) (silenceTime restoreTime : Half) (failover : Byte) (s : State) : Next :=
  .next (takeRequest (.setSilence p threshold silenceTime restoreTime failover) (ownerSetSilence threshold silenceTime restoreTime failover) s)

/-- READ LINK (R171). -/
def execReadLink (p : PortId) (part : Option Byte) (s : State) : Next :=
  .next (takeRequest (.readLink p part) (ownerReadLink part) s)

/-- LINK RESTART (R165). -/
def execLinkRestart (p : PortId) (s : State) : Next :=
  .next (takeRequest (.linkRestart p) ownerLinkRestart s)

/-- READ SITE (R186). -/
def execReadSite (p : PortId) (part : Option Byte) (s : State) : Next :=
  .next (takeRequest (.readSite p part) (ownerReadSite part) s)

/-- SITE UP (R179). -/
def execSiteUp (p : PortId) (s : State) : Next :=
  .next (takeRequest (.siteUp p) ownerSiteUp s)

/-- SITE DOWN (R180). -/
def execSiteDown (p : PortId) (s : State) : Next :=
  .next (takeRequest (.siteDown p) ownerSiteDown s)

/-- SITE LOW (R181). -/
def execSiteLow (p : PortId) (s : State) : Next :=
  .next (takeRequest (.siteLow p) ownerSiteLow s)

/-- SITE FULL (R182). -/
def execSiteFull (p : PortId) (s : State) : Next :=
  .next (takeRequest (.siteFull p) ownerSiteFull s)

/-- SET SITE RESOURCE (R176). -/
def execSetSiteResource (p : PortId) (resource slot keep : Byte) (label : List Byte) (s : State) : Next :=
  .next (takeRequest (.setSiteResource p resource slot keep label) (ownerSetSiteResource resource slot keep label) s)

/-- SET SITE OPTIONS (R176). -/
def execSetSiteOptions (p : PortId) (l f w r q : Byte) (s : State) : Next :=
  .next (takeRequest (.setSiteOptions p l f w r q) (ownerSetSiteOptions l f w r q) s)

/-- SET LOW WINDOW (R176). -/
def execSetLowWindow (p : PortId) (lowTime fullTime : Long) (enabled : Byte) (s : State) : Next :=
  .next (takeRequest (.setLowWindow p lowTime fullTime enabled) (ownerSetLowWindow lowTime fullTime enabled) s)

/-- READ LOG (R191). -/
def execReadLog (p : PortId) (start : Long) (count : Byte) (s : State) : Next :=
  .next (takeRequest (.readLog p start count) (ownerReadLog start count) s)

/-- PORT RESET (R199): PI takes it itself and makes no reply. -/
def execPortReset (p : PortId) (s : State) : Next := .next (writeWhole p (resetPort p) s)

end Sys2Proof.Machine
end

