-- ==== Sys2Proof/Machine/Ports.lean ====
section
/-! DEFINITION. PI: the bytes of the control ports, from a request's first byte to its reply (R193 to R199). -/

namespace Sys2Proof.Machine

open Sys2Proof

/-- A new request begins with its code (R194). -/
def Port.begin_ (q : Port) (code : Byte) : Port :=
  { q with phase := .codeTaken, code := code, length := 0, params := [], idleCount := 0 }

/-- A write at the command address (R194, R197, R199). -/
def writeCommand (p : PortId) (byte : Byte) (s : State) : State :=
  let q := s.port p
  if q.init = .low then s
  else if q.busy || q.replyReady then overrun p s
  else match q.phase with
    | .idle => s.withPort p (q.begin_ byte)
    | .complete => overrun p s
    | _ => s.withPort p { q.begin_ byte with overrun := true }

/-- PI's judgement of a completed request by its bytes: the reply it makes itself, or the request (R195). -/
def judgeRequest (p : PortId) (code : Nat) (length : Nat) (params : List Byte) : Result ⊕ Instr :=
  match portsOf code with
  | none => .inl .badFormat
  | some ps =>
    if 62 < length then .inl .badFormat
    else if p ∉ ps then .inl .notPermitted
    else match decodeRequest p code params with
      | none => .inl .badFormat
      | some i => .inr i

/-- The completion of a request (R194, R195): PI's own reply, PORT RESET, or the hand-over to the owner, which takes it in
the same event (`now`) or later, by the request's own row (log 29). -/
def complete (p : PortId) (length : Nat) (params : List Byte) (now : Bool) (s : State) : State :=
  let q := s.port p
  let s1 := s.withPort p
    { q with phase := .complete, length := length, params := params, idleCount := 0, busy := true }
  match judgeRequest p q.code.toNat length params with
  | .inl r => replyTo p q.code.toNat ⟨r, []⟩ s1
  | .inr i =>
    if i = .portReset p then resetPort p s1
    else if now then replyTo p q.code.toNat (ownerAct i (clockFirst s1)).2 (ownerAct i (clockFirst s1)).1
    else s1.withPi { s1.pi with handed := s1.pi.handed ++ [⟨i, false⟩] }

/-- A write at the data address (R194, R197, R199). -/
def writeData (p : PortId) (byte : Byte) (now : Bool) (s : State) : State :=
  let q := s.port p
  if q.init = .low then s
  else if q.busy || q.replyReady then overrun p s
  else match q.phase with
    | .codeTaken =>
      if byte.toNat = 0 ∨ 62 < byte.toNat then complete p byte.toNat [] now s
      else s.withPort p { q with phase := .parameters, length := byte.toNat, params := [], idleCount := 0 }
    | .parameters =>
      if q.length ≤ q.params.length + 1 then complete p q.length (q.params ++ [byte]) now s
      else s.withPort p { q with params := q.params ++ [byte], idleCount := 0 }
    | _ => overrun p s

/-- A read at the command address: the status byte; TIMEOUT and OVERRUN are cleared (R193, R199). -/
def readStatus (p : PortId) (s : State) : State :=
  let q := s.port p
  if q.init = .low then s.withPort p { q with dataOut := 0 }
  else s.withPort p { q with dataOut := q.status, timeout := false, overrun := false }

/-- A read at the data address: the next reply byte; the last one clears REPLY READY (R196, R199). -/
def readReply (p : PortId) (s : State) : State :=
  let q := s.port p
  if q.init = .low then s.withPort p { q with dataOut := 0 }
  else if q.replyReady then
    s.withPort p { q with
      dataOut := q.reply.getD q.bytesRead 0
      bytesRead := q.bytesRead + 1
      replyReady := decide (q.bytesRead + 1 < q.reply.length) }
  else s.withPort p { q with dataOut := 0 }

/-- The idle count of an open request at a boundary (R197). -/
def Port.tick (q : Port) : Port :=
  if q.open_ then { q with idleCount := min Config.requestIdle (q.idleCount + 1) } else q

/-- An open request has been idle for its limit (R197). -/
def Port.timedOut (q : Port) : Bool := q.open_ && decide (Config.requestIdle ≤ q.idleCount)

/-- PI discards a request that has timed out (R197). -/
def requestTimesOut (p : PortId) (s : State) : State :=
  let q := s.port p
  if q.timedOut then
    s.withPort p { q.discard with timeout := true }
  else s

/-- COMMAND_ADDRESS_WRITE (R194). -/
def execCommandAddressWrite (p : PortId) (byte : Byte) (s : State) : Next := .next (writeCommand p byte s)

/-- DATA_ADDRESS_WRITE (R194). -/
def execDataAddressWrite (p : PortId) (byte : Byte) (now : Bool) (s : State) : Next := .next (writeData p byte now s)

/-- STATUS_READ (R193). -/
def execStatusRead (p : PortId) (s : State) : Next := .next (readStatus p s)

/-- REPLY_BYTE_READ (R196). -/
def execReplyByteRead (p : PortId) (s : State) : Next := .next (readReply p s)

/-- REQUEST_TIMEOUT (R197). -/
def execRequestTimeout (p : PortId) (s : State) : Next :=
  .next (requestTimesOut p (s.withDue (s.due.erase (.requestTimeout p))))

end Sys2Proof.Machine
end

