-- ==== Sys2Proof/Machine/Boundary.lean ====
section
/-! DEFINITION. The block boundary: the input blocks, the counts, and the owners' events that come due (R1; log 2). -/

namespace Sys2Proof.Machine

open Sys2Proof

/-! ### Key lines (R16 to R18) -/

/-- The action request a key line's edge hands to its owner (R17). -/
def keyAction (a : KeyAction) (s : State) : State :=
  match a with
  | .take => (take none s).1
  | .dump => keyDump s
  | .forward => keyForward s
  | .dropLines => handOver .dropLines s
  | .none => s
  | .safe => s

/-- The settled level of a key line changes to a level (R16, R17, R18). The first settling is no edge. -/
def keyEdgeTo (k : Nth) (l : Level) (s : State) : State :=
  let r := s.tb.keys.get k
  if r.sampled ∧ r.settled = l then s
  else
    let s1 := judgeKey (s.withTb { s.tb with
      keys := s.tb.keys.set k { r with settled := l, sampled := true, differed := false } })
    if r.sampled && r.edge.acts l then keyAction r.action s1 else s1

/-- The change of level that a boundary's sampling found is taken (R16). -/
def keyEdgeDue (k : Nth) (s : State) : State := keyEdgeTo k (otherLevel (s.tb.keys.get k).settled) s

/-! ### Taking what has come due (log 2) -/

/-- The kind of an event that is due. -/
def Due.kind : Due → DueKind
  | .clockSet => .clockSet | .clockSelect => .clockSelect | .house => .house
  | .keyEdge k => .keyEdge k | .requestTimeout p => .requestTimeout p
  | .ringEdge l => .ringEdge l | .ringTimeout l => .ringTimeout l | .loopDrop l => .loopDrop l
  | .clearingEnd l => .clearingEnd l
  | .programme => .programme | .lineAudio => .lineAudio | .delay => .delay | .output => .output | .link => .link
  | .site => .site | .window _ => .window | .cueCounts => .cueCounts | .cueTimes => .cueTimes | .alerts => .alerts
  | .dropLines => .dropLines | .gateReport _ _ => .gateReport | .dumpReport _ => .dumpReport
  | .carrying _ _ => .carrying | .joinEnd _ _ => .joinEnd | .withdrawal _ _ => .withdrawal

/-- A report one owner handed another, as against an event of the boundary itself. -/
def DueKind.isReport : DueKind → Bool
  | .dropLines => true | .gateReport => true | .dumpReport => true | .carrying => true | .joinEnd => true
  | .withdrawal => true
  | _ => false

/-- The owner's event for what is due. -/
def takeDue : Due → State → State
  | .clockSet => clockSetStage
  | .clockSelect => selectionStage
  | .house => houseStage
  | .keyEdge k => event (keyEdgeDue k)
  | .requestTimeout p => requestTimesOut p
  | .ringEdge l => event (ringEdge l)
  | .ringTimeout l => event (ringTimeout l)
  | .loopDrop l => event (loopDrop l)
  | .clearingEnd l => event (clearingEnd l)
  | .programme => programmeStage
  | .lineAudio => lineStage
  | .delay => delayStage
  | .output => outputStage
  | .link => linkStage
  | .site => siteStage
  | .window w => windowStage w
  | .cueCounts => event cueCounts
  | .cueTimes => event cueTimes
  | .alerts => event alertStage
  | .dropLines => event dropLines
  | .gateReport a l => gateReport a l
  | .dumpReport frozen => event (dumpReport frozen)
  | .carrying l f => carryingReport l f
  | .joinEnd r n => event (joinReleased r n)
  | .withdrawal r n => event (joinReleased r n)

/-- Take the first event of a kind that is due, if there is one. -/
def takeOne (k : DueKind) (s : State) : State :=
  match s.due.find? fun d => decide (d.kind = k) with
  | none => s
  | some d => takeDue d (s.withDue (s.due.erase d))

/-- The events that stand before one of a kind at the same boundary (log 2): the clock's setting before all, LNK's
judgement before SITE's stage check (R177), CUE's counts before its times (log 14), and OUT's air block before the boundary
at which DLY stands FROZEN, so that an unfreeze between the two makes one fill block and no second (R152). -/
def takeBefore (k : DueKind) (s : State) : State :=
  let s1 := if k = .clockSet then s else clockFirst s
  match k with
  | .site => takeOne .link s1
  | .cueTimes => takeOne .cueCounts s1
  | .delay => if s1.dly.state = .frozen then takeOne .output s1 else s1
  | _ => s1

/-- Take an event of a kind, after those that stand before it. -/
def takeKind (k : DueKind) (s : State) : State := takeOne k (takeBefore k s)

/-- Take what is due, oldest first, but for the kinds that are kept. The number bounds the events of one draining. -/
def drain (keep : DueKind → Bool) : Nat → State → State
  | 0, s => s
  | n + 1, s =>
    match s.due.find? fun d => !keep d.kind with
    | none => s
    | some d => drain keep n (takeKind d.kind s)

/-! ### What a boundary does at once -/

/-- The samples of a period in 240 places, a given one where none arrived (R6). -/
def fillPlaces {α : Type} (z : α) : Nat → List (Option α) → List α
  | 0, _ => []
  | n + 1, [] => z :: fillPlaces z n []
  | n + 1, x :: rest => x.getD z :: fillPlaces z n rest

/-- An input block (R6). -/
def inputBlock (xs : List (Option Stereo)) : Audio := fillPlaces ⟨0, 0⟩ Config.blockSamples xs

/-- One channel's input block (R6). -/
def monoBlock (xs : List (Option Sample)) : Mono := fillPlaces 0 Config.blockSamples xs

/-- The input blocks of a boundary (R6). -/
def formInputs (i : PeriodInput) : Inputs :=
  { studio := inputBlock i.studio, players := i.players.map inputBlock, netA := inputBlock i.netA
    netB := inputBlock i.netB, fill := inputBlock i.fill, alert := inputBlock i.alert
    consoleReturn := inputBlock i.consoleReturn, screenerIn := inputBlock i.screenerIn
    lineReceive := i.lineReceive.map monoBlock }

/-- The house sync input qualified in the period (R8). -/
def houseQualifies (i : PeriodInput) : Bool := decide (240 ≤ i.houseEdges ∧ -500 ≤ i.housePpm ∧ i.housePpm ≤ 500)

/-- The events of the pins and counts that this boundary brings, judged on the state after its counts; `before` is the
state before it. -/
def pinEvents (i : PeriodInput) (before s : State) : List Due :=
  Nth.all.filterMap (fun k => if (before.tb.keys.get k).changes (i.keys.get k) then some (.keyEdge k) else none) ++
  [PortId.a, .b, .c].filterMap (fun p => if (s.port p).timedOut then some (.requestTimeout p) else none) ++
  Nth.all.filterMap (fun l => if (s.lsw.ringEdges.get l).edge (before.lsw.lines.get l).ring (i.ring.get l)
    then some (.ringEdge l) else none) ++
  Nth.all.filterMap (fun l => if ringTimedOut l s then some (.ringTimeout l) else none) ++
  Nth.all.filterMap (fun l => if loopLost l s then some (.loopDrop l) else none) ++
  Nth.all.filterMap (fun l => if clearingEnded l s then some (.clearingEnd l) else none)

/-- The owners' events of every boundary, in the order they are taken when no other is given (log 2). SITE's event for the low
window carries the settings in force at the boundary (R176). -/
def stageEvents (w : LowWindow) : List Due :=
  [.programme, .lineAudio, .delay, .output, .link, .site, .window w, .cueCounts, .cueTimes, .alerts]

/-- The boundary itself: its number, the input blocks, the air clock, the samples and the counts; and what comes due
(R1, R6, R8, R12, R16, R20, R81, R163, R197). -/
def latch (i : PeriodInput) (s : State) : State :=
  let s1 : State := { s with
    boundaryNo := s.boundaryNo + 1
    audio := { s.audio with prev := s.audio.cur, cur := { s.audio.cur with inputs := formInputs i } }
    pi := { s.pi with a := s.pi.a.tick, b := s.pi.b.tick, c := s.pi.c.tick }
    tb := { s.tb with
      source := if s.tb.toInternal then .internal else s.tb.source, toInternal := false
      houseOk := houseQualifies i, report := none
      clock := if s.tb.pendingTime.isSome then s.tb.clock else clockAfter s.tb.clock
      keys := s.tb.keys.mapIdx fun k r => r.sample (i.keys.get k) }
    lsw := { s.lsw with lines := s.lsw.lines.mapIdx fun l r => r.tick (i.ring.get l) (i.loop.get l) }
    lnk := { s.lnk with judged := s.lnk.period, period := none } }
  let clock : List Due := (if s.tb.pendingTime.isSome then [.clockSet] else []) ++
    (if s.tb.pendingSource.isSome then [.clockSelect] else []) ++ [.house]
  s1.withDue (s1.due ++ clock ++ pinEvents i s s1 ++ stageEvents s.site.window)

/-- The first sampling of the key lines after a reset settles their levels, and KEY is judged with it, on the clock of this
boundary (R12, R16, R18). -/
def firstSampling (before s : State) : State :=
  if before.tb.keys.toList.all (·.sampled) then s else judgeKey (clockFirst s)

/-- A block boundary (R1; log 2): what an earlier boundary left is taken first; then the boundary itself; then the events
named `first`, in that order; then the rest in their order, but for the kinds left for `later`. -/
def boundary (i : PeriodInput) (first later : List DueKind) (s : State) : State :=
  let s0 := drain DueKind.isReport 128 s
  let s1 := firstSampling s0 (latch i s0)
  let s2 := first.foldl (fun s k => takeKind k s) s1
  drain (fun k => decide (k ∈ later)) 128 s2

/-- BLOCK_BOUNDARY (R1). -/
def execBlockBoundary (inp : PeriodInput) (first later : List DueKind) (s : State) : Next :=
  .next (boundary inp first later s)

end Sys2Proof.Machine
end

