-- ==== Sys2Proof/Machine/Events.lean ====
section
/-! DEFINITION. The rows for events inside the part: each takes the event it names when it has come due (logs 2 and 3). -/

namespace Sys2Proof.Machine

open Sys2Proof

/-- Take an owner's boundary event when it is due and the occasion a row names arises in it; otherwise nothing changes. -/
def stageRow (k : DueKind) (occasion : State → Bool) (s : State) : State :=
  let s1 := takeBefore k s
  if s1.due.any (fun d => decide (d.kind = k)) && occasion s1 then takeOne k s1 else s

/-- Take an event directly, after a SET CLOCK left due; the same event is no longer due. -/
def directRow (d : Due) (f : State → State) (s : State) : State :=
  let s1 := clockFirst s
  f (s1.withDue (s1.due.erase d))

/-- A report of some kind is outstanding. -/
def State.hasDue (s : State) (k : DueKind) : Bool := s.due.any fun d => decide (d.kind = k)

/-- A state in which CUE's counts of this boundary stand, for the occasions of its rows. -/
def afterCounts (f : State → Bool) (s : State) : Bool := f (counted s)

/-- RETURN_FRAME (R163). -/
def execReturnFrame (bytes : List Byte) (s : State) : Next := .next (returnFrame bytes s)

/-- LINK_UP (R164). -/
def execLinkUp (s : State) : Next := .next (stageRow .link (linkWillGo .up) s)
/-- LINK_DEGRADED (R164). -/
def execLinkDegraded (s : State) : Next := .next (stageRow .link (linkWillGo .degraded) s)
/-- LINK_DOWN (R164). -/
def execLinkDown (s : State) : Next := .next (stageRow .link (linkWillGo .down) s)
/-- COMMAND_TIMEOUT (R169). -/
def execCommandTimeout (s : State) : Next := .next (stageRow .link timeoutDue s)

/-- CARRYING_REPORT (R161): the report outstanding, or LNK's present state. -/
def execCarryingReport (s : State) : Next :=
  .next (if s.hasDue .carrying then takeOne .carrying s else carryingReport s.lnk.state s.lnk.siteFill s)

/-- SLOT_LENGTH_ELAPSED (R177). -/
def execSlotLengthElapsed (s : State) : Next :=
  .next (stageRow .site (fun s => stageReaches s.site.slotLength s) s)
/-- CONFIRM_LIMIT (R177). -/
def execConfirmLimit (s : State) : Next := .next (stageRow .site (stageReaches Config.confirmLimit) s)
/-- A time of the low window is due, by the settings its boundary left with its event (R176, R184). -/
def windowTimeDue (s : State) : Bool :=
  s.due.any fun d =>
    match d with
    | .window w => windowDue w s w.low || windowDue w s w.full
    | _ => false

/-- WINDOW_TIME_DUE (R184). -/
def execWindowTimeDue (s : State) : Next := .next (stageRow .window windowTimeDue s)

/-- HOUSE_LOCK (R8). -/
def execHouseLock (s : State) : Next := .next (stageRow .house houseLocks s)
/-- HOUSE_SYNC_LOSS (R8). -/
def execHouseSyncLoss (s : State) : Next := .next (stageRow .house houseLost s)
/-- CLOCK_SELECTION_TAKEN (R10). -/
def execClockSelectionTaken (s : State) : Next :=
  .next (stageRow .clockSelect (fun s => s.tb.pendingSource.isSome) s)
/-- CLOCK_SET_TAKES_EFFECT (R13). -/
def execClockSetTakesEffect (s : State) : Next := .next (stageRow .clockSet (fun s => s.tb.pendingTime.isSome) s)
/-- KEY_LINE_EDGE (R17). -/
def execKeyLineEdge (k : Nth) (level : Level) (s : State) : Next :=
  .next (directRow (.keyEdge k) (event (keyEdgeTo k level)) s)

/-- DROP_LINES (R99). -/
def execDropLines (s : State) : Next := .next (directRow .dropLines (event dropLines) s)
/-- RING_EDGE (R86). -/
def execRingEdge (l : Nth) (s : State) : Next := .next (directRow (.ringEdge l) (event (ringEdge l)) s)
/-- RING_TIMEOUT (R87). -/
def execRingTimeout (l : Nth) (s : State) : Next := .next (directRow (.ringTimeout l) (event (ringTimeout l)) s)
/-- LOOP_SENSE_DROP (R97). -/
def execLoopSenseDrop (l : Nth) (s : State) : Next := .next (directRow (.loopDrop l) (event (loopDrop l)) s)
/-- CLEARING_END (R98). -/
def execClearingEnd (l : Nth) (s : State) : Next := .next (directRow (.clearingEnd l) (event (clearingEnd l)) s)

/-- GATE_REPORT (R114): the report outstanding, or LSW's present gate. -/
def execGateReport (s : State) : Next :=
  .next (if s.hasDue .gateReport then takeOne .gateReport s else gateReport (s.lsw.anyIn .air) s.lsw.liveCalls s)
/-- BUILD_STEP (R111). -/
def execBuildStep (s : State) : Next := .next (stageRow .delay buildDue s)
/-- SHRINK_STEP (R112). -/
def execShrinkStep (s : State) : Next := .next (stageRow .delay shrinkDue s)
/-- DUMP_REPORT (R100): the oldest report outstanding, or, with none, the report of a dump that finds DLY as it stands; after a SET
CLOCK left due. -/
def execDumpReport (s : State) : Next :=
  let s1 := clockFirst s
  .next (if s1.hasDue .dumpReport then takeOne .dumpReport s1
    else event (dumpReport (decide (s1.dly.state = .frozen))) s1)

/-- SEGUE_POINT (R64). -/
def execSeguePoint (s : State) : Next := .next (stageRow .cueCounts (afterCounts atSegue) s)
/-- ENTRY_LENGTH_END (R62). -/
def execEntryLengthEnd (s : State) : Next := .next (stageRow .cueCounts (afterCounts atLength) s)
/-- OPEN_LENGTH_LIMIT (R62). -/
def execOpenLengthLimit (s : State) : Next := .next (stageRow .cueCounts (afterCounts atLimit) s)
/-- CROSSFADE_END (R65). -/
def execCrossfadeEnd (s : State) : Next := .next (stageRow .cueCounts (afterCounts fadeOver) s)
/-- RUN_LINE_DELAYED_RISE (R61). -/
def execRunLineDelayedRise (s : State) : Next :=
  .next (stageRow .cueCounts (fun s => s.cue.run.toList.any fun r => r.due s.boundaryNo) s)
/-- HARD_TIME_DUE (R75). -/
def execHardTimeDue (s : State) : Next :=
  .next (stageRow .cueTimes (fun s => (dueEntries s).any fun e => !e.breaksIn) s)
/-- BREAK_IN_DUE (R76). -/
def execBreakInDue (s : State) : Next := .next (stageRow .cueTimes (fun s => (dueEntries s).any CueEntry.breaksIn) s)

/-- JOIN_END_RELEASE (R39). -/
def execJoinEndRelease (s : State) : Next := .next (takeOne .joinEnd (clockFirst s))
/-- WITHDRAWAL_WITHOUT_RECORD (R44). -/
def execWithdrawalWithoutRecord (s : State) : Next := .next (takeOne .withdrawal (clockFirst s))

/-- HOLD_EXPIRY (R136). -/
def execHoldExpiry (s : State) : Next := .next (stageRow .alerts holdDue s)
/-- ADVISORY_WAIT_EXPIRY (R137). -/
def execAdvisoryWaitExpiry (s : State) : Next := .next (stageRow .alerts advisoryDue s)
/-- VALIDITY_EXPIRY (R138). -/
def execValidityExpiry (s : State) : Next := .next (stageRow .alerts validityDue s)
/-- ALERT_LENGTH_REACHED (R146). -/
def execAlertLengthReached (s : State) : Next :=
  .next (stageRow .alerts (fun s => (lengthReached (countPlayed s)).isSome) s)
/-- GO_LINE_DELAYED_RISE (R144). -/
def execGoLineDelayedRise (s : State) : Next := .next (stageRow .alerts goRiseDue s)

/-- SILENCE_START (R157). -/
def execSilenceStart (s : State) : Next := .next (stageRow .output silenceStarts s)
/-- SILENCE_END (R157). -/
def execSilenceEnd (s : State) : Next := .next (stageRow .output silenceEnds s)

end Sys2Proof.Machine
end

