-- ==== Sys2Proof/Machine/Resets.lean ====
section
/-! DEFINITION. Power-on, chip reset and the init pins (R20, R50, R80, R105, R126, R151, R172, R187, R192, R199, R200). -/

namespace Sys2Proof.Machine

open Sys2Proof

/-- The power-on values of every block; only the queue of commands stands. -/
def powerOn (s : State) : State := { State.reset with pending := s.pending }

/-- An event of the boundary in progress that the chip reset lets stand: boundaries go on (R1, R20; log 27). The low window's
does not: the window is disabled after the reset (R187). -/
def survivesReset (d : Due) : Bool :=
  match d with
  | .house | .programme | .lineAudio | .delay | .output | .link | .site | .cueCounts | .cueTimes | .alerts => true
  | _ => false

/-- The chip reset values of every block, before the RESET entry. The switch of the source to INTERNAL awaits the next boundary
(R20; log 27). A good return frame that came earlier in the period is forgotten, and the last sequence sent is absent until
the next frame (logs 50 and 51). The link state last reported to TB is DOWN again, so that LINK is not good. DESIGN CHOICE (log
58): unsafe. -/
def resetValues (s : State) : State :=
  { s with
    pi := { a := s.pi.a.cleared, b := s.pi.b.cleared, c := s.pi.c.cleared, handed := [] }
    tb := { source := s.tb.source, toInternal := decide (s.tb.source ≠ .internal)
            clock := s.tb.clock, clockSet := s.tb.clockSet, houseCount := s.tb.houseCount, houseOk := s.tb.houseOk }
    air := {}
    cue := {}
    lsw := {}
    dly := { ring := s.dly.ring }
    alc := {}
    out := {}
    lnk := { frame := s.lnk.frame }
    site := {}
    due := s.due.filter survivesReset }

/-- A chip reset: a SET CLOCK left due is in effect, then every block's reset values, then the RESET entry (R192). -/
def chipReset (s : State) : State := logEntry .reset .none (.number 0) (resetValues (clockFirst s))

/-- The init pin of a port goes to a level: its fall is a port reset, its rise lets the port take bytes (R199). -/
def portInit (p : PortId) (level : Level) (s : State) : State :=
  match (s.port p).init, level with
  | .high, .low => resetPort p (s.withPort p { s.port p with init := .low })
  | _, _ => s.withPort p { s.port p with init := level }

/-- POWER_ON (R20). -/
def execPowerOn (s : State) : Next := .next (powerOn s)
/-- CHIP_RESET (R192). -/
def execChipReset (s : State) : Next := .next (chipReset s)
/-- PORT_INIT (R199). -/
def execPortInit (p : PortId) (level : Level) (s : State) : Next := .next (portInit p level s)

end Sys2Proof.Machine
end

