-- ==== Sys2Proof/Machine/Dispatch.lean ====
section
/-! DEFINITION. The meaning of each command: one arm per row of the opcode table. -/

namespace Sys2Proof.Machine

open Sys2Proof

/-- The effect of a command on everything but the queue. -/
def exec (i : Instr) (s : State) : Host.Outcome State Fault Refusal :=
  match i with
  | .powerOn => Sys2Proof.Machine.execPowerOn s
  | .chipReset => Sys2Proof.Machine.execChipReset s
  | .portInit p level => Sys2Proof.Machine.execPortInit p level s
  | .blockBoundary inp first later => Sys2Proof.Machine.execBlockBoundary inp first later s
  | .returnFrame bytes => Sys2Proof.Machine.execReturnFrame bytes s
  | .linkUp => Sys2Proof.Machine.execLinkUp s
  | .linkDegraded => Sys2Proof.Machine.execLinkDegraded s
  | .linkDown => Sys2Proof.Machine.execLinkDown s
  | .commandTimeout => Sys2Proof.Machine.execCommandTimeout s
  | .carryingReport => Sys2Proof.Machine.execCarryingReport s
  | .slotLengthElapsed => Sys2Proof.Machine.execSlotLengthElapsed s
  | .confirmLimit => Sys2Proof.Machine.execConfirmLimit s
  | .windowTimeDue => Sys2Proof.Machine.execWindowTimeDue s
  | .houseLock => Sys2Proof.Machine.execHouseLock s
  | .houseSyncLoss => Sys2Proof.Machine.execHouseSyncLoss s
  | .clockSelectionTaken => Sys2Proof.Machine.execClockSelectionTaken s
  | .clockSetTakesEffect => Sys2Proof.Machine.execClockSetTakesEffect s
  | .keyLineEdge k level => Sys2Proof.Machine.execKeyLineEdge k level s
  | .dropLines => Sys2Proof.Machine.execDropLines s
  | .ringEdge l => Sys2Proof.Machine.execRingEdge l s
  | .ringTimeout l => Sys2Proof.Machine.execRingTimeout l s
  | .loopSenseDrop l => Sys2Proof.Machine.execLoopSenseDrop l s
  | .clearingEnd l => Sys2Proof.Machine.execClearingEnd l s
  | .gateReport => Sys2Proof.Machine.execGateReport s
  | .buildStep => Sys2Proof.Machine.execBuildStep s
  | .shrinkStep => Sys2Proof.Machine.execShrinkStep s
  | .dumpReport => Sys2Proof.Machine.execDumpReport s
  | .seguePoint => Sys2Proof.Machine.execSeguePoint s
  | .entryLengthEnd => Sys2Proof.Machine.execEntryLengthEnd s
  | .openLengthLimit => Sys2Proof.Machine.execOpenLengthLimit s
  | .crossfadeEnd => Sys2Proof.Machine.execCrossfadeEnd s
  | .runLineDelayedRise => Sys2Proof.Machine.execRunLineDelayedRise s
  | .hardTimeDue => Sys2Proof.Machine.execHardTimeDue s
  | .breakInDue => Sys2Proof.Machine.execBreakInDue s
  | .joinEndRelease => Sys2Proof.Machine.execJoinEndRelease s
  | .withdrawalWithoutRecord => Sys2Proof.Machine.execWithdrawalWithoutRecord s
  | .holdExpiry => Sys2Proof.Machine.execHoldExpiry s
  | .advisoryWaitExpiry => Sys2Proof.Machine.execAdvisoryWaitExpiry s
  | .validityExpiry => Sys2Proof.Machine.execValidityExpiry s
  | .alertLengthReached => Sys2Proof.Machine.execAlertLengthReached s
  | .goLineDelayedRise => Sys2Proof.Machine.execGoLineDelayedRise s
  | .silenceStart => Sys2Proof.Machine.execSilenceStart s
  | .silenceEnd => Sys2Proof.Machine.execSilenceEnd s
  | .commandAddressWrite p byte => Sys2Proof.Machine.execCommandAddressWrite p byte s
  | .dataAddressWrite p byte now => Sys2Proof.Machine.execDataAddressWrite p byte now s
  | .statusRead p => Sys2Proof.Machine.execStatusRead p s
  | .replyByteRead p => Sys2Proof.Machine.execReplyByteRead p s
  | .requestTimeout p => Sys2Proof.Machine.execRequestTimeout p s
  | .readNotices p => Sys2Proof.Machine.execReadNotices p s
  | .setNoticeMask p mask => Sys2Proof.Machine.execSetNoticeMask p mask s
  | .portReset p => Sys2Proof.Machine.execPortReset p s
  | .readTimebase p part => Sys2Proof.Machine.execReadTimebase p part s
  | .selectClock p source => Sys2Proof.Machine.execSelectClock p source s
  | .setClock p time => Sys2Proof.Machine.execSetClock p time s
  | .setKeyLine p line action edge level => Sys2Proof.Machine.execSetKeyLine p line action edge level s
  | .readAir p part => Sys2Proof.Machine.execReadAir p part s
  | .setMode p mode => Sys2Proof.Machine.execSetMode p mode s
  | .setMaxDepth p depth => Sys2Proof.Machine.execSetMaxDepth p depth s
  | .liveInsert p => Sys2Proof.Machine.execLiveInsert p s
  | .liveInsertEnd p => Sys2Proof.Machine.execLiveInsertEnd p s
  | .clearResumeLost p => Sys2Proof.Machine.execClearResumeLost p s
  | .readCue p start => Sys2Proof.Machine.execReadCue p start s
  | .append p f => Sys2Proof.Machine.execAppend p f s
  | .insert p anchor f => Sys2Proof.Machine.execInsert p anchor f s
  | .delete p serial => Sys2Proof.Machine.execDelete p serial s
  | .skip p serial => Sys2Proof.Machine.execSkip p serial s
  | .take p expected => Sys2Proof.Machine.execTake p expected s
  | .itemEnd p serial => Sys2Proof.Machine.execItemEnd p serial s
  | .setLowWater p threshold => Sys2Proof.Machine.execSetLowWater p threshold s
  | .armLowWater p => Sys2Proof.Machine.execArmLowWater p s
  | .readLines p part => Sys2Proof.Machine.execReadLines p part s
  | .answer p line => Sys2Proof.Machine.execAnswer p line s
  | .hold p line => Sys2Proof.Machine.execHold p line s
  | .screen p line => Sys2Proof.Machine.execScreen p line s
  | .ready p line note => Sys2Proof.Machine.execReady p line note s
  | .unready p line => Sys2Proof.Machine.execUnready p line s
  | .lineNote p line note => Sys2Proof.Machine.execLineNote p line note s
  | .takeLine p line => Sys2Proof.Machine.execTakeLine p line s
  | .drop p line => Sys2Proof.Machine.execDrop p line s
  | .setLineOptions p dropOnDump liveCalls edge1 edge2 edge3 edge4 => Sys2Proof.Machine.execSetLineOptions p dropOnDump liveCalls edge1 edge2 edge3 edge4 s
  | .readDelay p => Sys2Proof.Machine.execReadDelay p s
  | .engage p target => Sys2Proof.Machine.execEngage p target s
  | .disengage p => Sys2Proof.Machine.execDisengage p s
  | .dump p => Sys2Proof.Machine.execDump p s
  | .setDelayOptions p amount ratio => Sys2Proof.Machine.execSetDelayOptions p amount ratio s
  | .readAlerts p place part => Sys2Proof.Machine.execReadAlerts p place part s
  | .readAlertTables p selector start => Sys2Proof.Machine.execReadAlertTables p selector start s
  | .alertHeader p h => Sys2Proof.Machine.execAlertHeader p h s
  | .alertEnd p originator serial => Sys2Proof.Machine.execAlertEnd p originator serial s
  | .setAreas p codes => Sys2Proof.Machine.execSetAreas p codes s
  | .setEventAction p event1 event2 event3 action => Sys2Proof.Machine.execSetEventAction p event1 event2 event3 action s
  | .setAlertTimes p liveHold autoHold advisoryWait wake => Sys2Proof.Machine.execSetAlertTimes p liveHold autoHold advisoryWait wake s
  | .forwardAlert p pair => Sys2Proof.Machine.execForwardAlert p pair s
  | .cancelAlert p originator serial => Sys2Proof.Machine.execCancelAlert p originator serial s
  | .readOutput p part => Sys2Proof.Machine.execReadOutput p part s
  | .safeOn p => Sys2Proof.Machine.execSafeOn p s
  | .safeOff p => Sys2Proof.Machine.execSafeOff p s
  | .setSilence p threshold silenceTime restoreTime failover => Sys2Proof.Machine.execSetSilence p threshold silenceTime restoreTime failover s
  | .readLink p part => Sys2Proof.Machine.execReadLink p part s
  | .linkRestart p => Sys2Proof.Machine.execLinkRestart p s
  | .readSite p part => Sys2Proof.Machine.execReadSite p part s
  | .siteUp p => Sys2Proof.Machine.execSiteUp p s
  | .siteDown p => Sys2Proof.Machine.execSiteDown p s
  | .siteLow p => Sys2Proof.Machine.execSiteLow p s
  | .siteFull p => Sys2Proof.Machine.execSiteFull p s
  | .setSiteResource p resource slot keepInLow label => Sys2Proof.Machine.execSetSiteResource p resource slot keepInLow label s
  | .setSiteOptions p slotLength fullStep lowStep restore sequentialOff => Sys2Proof.Machine.execSetSiteOptions p slotLength fullStep lowStep restore sequentialOff s
  | .setLowWindow p lowTime fullTime enabled => Sys2Proof.Machine.execSetLowWindow p lowTime fullTime enabled s
  | .readLog p start count => Sys2Proof.Machine.execReadLog p start count s

end Sys2Proof.Machine
end

