-- ==== Sys2Proof/Safety.lean ====
section
/-! DEFINITION. What stays true of the 2840 whatever it is commanded to do. -/

namespace Sys2Proof.Machine

open Sys2Proof

/-- A port that takes a request's bytes: its init pin is high, no request of it is at its owner and no reply waits; a request open on
it gives way to the new one (R194, R197, R199). -/
abbrev Port.TakesBytes (q : Port) : Prop := q.init = .high ∧ q.busy = false ∧ q.replyReady = false ∧ q.phase ≠ .complete

/-- A port that takes bytes and has no request open (R197, R199). -/
abbrev Port.Free (q : Port) : Prop := q.init = .high ∧ q.busy = false ∧ q.replyReady = false ∧ q.phase = .idle

/-- A request comes as bytes on a port that takes them; PI holds no such request handed to its owner, and no SET CLOCK is left
due, which would take effect before it (R12, R13; log 2). -/
abbrev Arrives (i : Instr) (p : PortId) (s : State) : Prop :=
  takeHanded s.pi.handed i = none ∧ (s.port p).Free ∧ .clockSet ∉ s.due

/-- The state an owner's event acts on: the state as it stands, or, while a SET CLOCK is left due, what it is once that has taken
effect (R12, R13; log 2). -/
abbrev ActsOn (s u : State) : Prop :=
  (.clockSet ∉ s.due ∧ u = s) ∨
  (.clockSet ∈ s.due ∧ s.tb.pendingTime ≠ none ∧ exec .clockSetTakesEffect s = .next u)

/-- On the ports a request is not permitted on, PI refuses it NOT_PERMITTED and nothing else changes (R195). -/
def RefusedOff (permitted : List PortId) (request : PortId → Instr) (code : Nat) (s : State) : Prop :=
  ∀ p, p ∉ permitted → Arrives (request p) p s →
    exec (request p) s = .next (replyTo p code ⟨.notPermitted, []⟩ s)

/-- The parameter lengths the catalogue gives a code without a counted list; a reading that may carry a part number has one more
(section 10.6). -/
def fixedLengths : List (Nat × List Nat) :=
  [(1, [0]), (2, [2]), (3, [0]), (8, [0, 1]), (9, [1]), (10, [4]), (11, [4]), (16, [0, 1]), (17, [1]), (18, [1]), (19, [0]),
   (20, [0]), (21, [0]), (24, [2]), (25, [19]), (26, [21]), (27, [2]), (28, [2]), (29, [0, 2]), (30, [2]), (31, [1]), (32, [0]),
   (40, [0, 1]), (41, [1]), (42, [1]), (43, [1]), (45, [1]), (47, [0, 1]), (48, [1]), (49, [6]), (56, [0]), (57, [2]), (58, [0]),
   (59, [0]), (60, [3]), (64, [1, 2]), (65, [2]), (67, [4]), (69, [4]), (70, [10]), (71, [0, 4]), (72, [4]), (80, [0, 1])] ++
  [(81, [0]), (82, [0]), (83, [6]), (88, [0, 1]), (89, [0]), (96, [0, 1]), (97, [0]), (98, [0]), (99, [0]), (100, [0]),
   (102, [5]), (103, [9]), (112, [5])]

/-- The catalogue allows a length for a code: the code's own, or the fixed part of a request with a counted list plus the count
times the item size (R195, section 10.6). -/
def AllowsLength (code : Nat) (params : List Byte) : Prop :=
  let counted (fixed place size : Nat) : Prop :=
    fixed ≤ params.length ∧ params.length = fixed + size * (params.getD place 0).toNat
  (∃ ls, (code, ls) ∈ fixedLengths ∧ params.length ∈ ls) ∨ (code = 44 ∧ (params.length = 1 ∨ counted 2 1 1)) ∨
  (code = 46 ∧ counted 2 1 1) ∨ (code = 66 ∧ counted 13 12 3) ∨ (code = 68 ∧ counted 1 0 3) ∨ (code = 101 ∧ counted 4 3 1)

/-- A number is the peak level of a block's audio, in whole decibels below full scale and at most 96 (R3; log 9): the least number
of decibels whose amplitude the loudest sample reaches. -/
def IsPeak (a : Audio) (k : Nat) : Prop :=
  ∃ m : Nat, (∀ x ∈ a, x.left.toInt.natAbs ≤ m ∧ x.right.toInt.natAbs ≤ m) ∧
    (m = 0 ∨ ∃ x ∈ a, x.left.toInt.natAbs = m ∨ x.right.toInt.natAbs = m) ∧
    k ≤ 96 ∧ (k < 96 → 8388607 ^ 20 ≤ m ^ 20 * 10 ^ k) ∧ ∀ j < k, m ^ 20 * 10 ^ j < 8388607 ^ 20

/-- The mixed block at the `k`th of a fade's `f` boundaries: each sample is the weighted sum of the two, rounded up or down (R26;
log 10). -/
def IsMix (f k : Nat) (outgoing incoming mixed : Audio) : Prop :=
  let near (o i z : Sample) : Prop :=
    (z.toInt * f - (o.toInt * ((f - k : Nat) : Int) + i.toInt * (k : Int))).natAbs < f
  mixed.length = min outgoing.length incoming.length ∧
  ∀ (j : Nat) (o i z : Stereo), outgoing[j]? = some o → incoming[j]? = some i → mixed[j]? = some z →
    near o.left i.left z.left ∧ near o.right i.right z.right

/-- The programme block that AIR forms in a state at a boundary, by its number, from the input blocks of the boundary before: its tag,
and by the chain, the stack, the mode and the list its source and its entry (R1, R3, R4, R25, R26, R27; log 24). That the incoming
entry alone is its source at the boundary after a crossfade's last, the FADING entry not yet ended, is the model's choice (log
25). -/
def ProgrammeFormed (inputs : Inputs) (boundaryNo : Nat) (s : State) (b : Block) : Prop :=
  let of (source : Source) (e : Option CueEntry) : Prop :=
    b.audio = inputs.of source ∧ b.tag.origin = .programme source ∧
    b.tag.entry = e.map fun e => (e.serial, e.logRef)
  IsPeak b.audio b.tag.peak ∧ (∀ l, b.tag.lines.get l = decide (s.line l = .air)) ∧ b.tag.stretch = false ∧
  b.tag.alert = none ∧
  (∀ x, s.air.chain ≠ .none → s.air.chainSource = some x → of x none) ∧
  (s.air.chain = .none →
    (∀ r rest, s.air.stack = r :: rest →
      (r.kind = .liveInsert → of .studio none) ∧
      (r.kind ≠ .liveInsert →
        (∀ e f, s.cue.playing = some e → e.feed = some f → of (.net f) (some e)) ∧
        ((∀ e, s.cue.playing = some e → e.feed = none) → of .fill none))) ∧
    (s.air.stack = [] →
      (s.air.mode = .live → of .studio none) ∧
      (s.air.mode ≠ .live →
        (s.cue.playing = none → of .fill none) ∧
        (∀ e ch, s.cue.playing = some e → e.player = some ch → s.cue.fading = none → of (.play ch) (some e)) ∧
        (∀ e f, s.cue.playing = some e → e.feed = some f → s.cue.fading = none → of (.net f) (some e)) ∧
        (∀ p o c f, s.cue.playing = some p → s.cue.fading = some o → o.player = some c → o.fade = some f →
          (boundaryNo - p.begun = 0 → of (.play c) (some o)) ∧
          (1 ≤ boundaryNo - p.begun → boundaryNo - p.begun ≤ f →
            IsMix f (boundaryNo - p.begun) (inputs.players.get c) (inputs.of p.source) b.audio ∧
            b.tag.origin = .programme p.source ∧ b.tag.entry = some (p.serial, p.logRef)) ∧
          (f < boundaryNo - p.begun → of p.source (some p))))))

/-- The ports changed only by notices, each raised on all three, a port whose init pin is low taking none; no request was handed
over or taken off PI's list (R198, R199). -/
def NoticesOnly (s t : State) : Prop :=
  t.pi.handed = s.pi.handed ∧ ∃ raised : Half, ∀ p, t.port p = { s.port p with
    flags := if (s.port p).init = .high then (s.port p).flags ||| raised else (s.port p).flags }

/-- Every key line has been sampled since the reset, so that a boundary's sampling is no first one (R16). -/
abbrev KeysSampled (s : State) : Prop := ∀ k, (s.tb.keys.get k).sampled = true

/-- An event of the boundary is due, and no SET CLOCK that would be taken before it (log 2). -/
abbrev DueNow (d : Due) (s : State) : Prop := d ∈ s.due ∧ .clockSet ∉ s.due

/-- The state an unfreeze returns DLY to: the one before the freeze, or, with recompute yes, R109's for a gate that is open (R123). -/
def DLY.returnsTo (d : DLY) (before : RunState) : RunState :=
  if d.recompute = false then before
  else if d.delay < d.target then .building
  else if d.target < d.delay then .shrinking
  else if 1 ≤ d.target then .engaged
  else .bypass

/-- DLY after an unfreeze (R123). -/
def DLY.returned (d : DLY) (before : RunState) : DLY :=
  { d with state := .run (d.returnsTo before), stepCount := 0, recompute := false, kept := none }

/-- A chain holds the air, its record on top with no late break-in in it. -/
abbrev ChainOnTop (r : ContextRecord) (rest : List ContextRecord) (s : State) : Prop :=
  s.air.chain = .withContext ∧ s.air.stack = r :: rest ∧ r.kind = .alert ∧ (∀ x ∈ rest, x.number ≠ r.number) ∧ r.late = none ∧
  s.dly.state = .frozen

/-- What the end of such a chain leaves, whatever its record saved: the record on the free list, DLY unfrozen, the alert flag down
(R37, R123, R147, R153), and every block as it was formed, the chain's last programme block for DLY to take among them (R1; log 56).
For a record that keeps no delay state, which no chain gives, BYPASS is the model's (log 43). -/
def ChainOver (r : ContextRecord) (rest : List ContextRecord) (s t : State) : Prop :=
  t.alc.queue = [] ∧ t.alc.chainOpen = false ∧ t.alc.go = false ∧
  t.air = { s.air with chain := .none, chainSource := none, stack := rest, free := r.number :: s.air.free } ∧
  t.dly = s.dly.returned (r.delayBefore.getD .bypass) ∧ t.out = { s.out with alertFlag := false } ∧
  t.audio = s.audio ∧ t.lnk = s.lnk ∧ t.site = s.site ∧ t.tb = s.tb

/-- A chain holds the air with its record alone on the stack, and the record gives nothing back: no entry, no caller; the cue list
is empty. -/
abbrev ChainAlone (r : ContextRecord) (s : State) : Prop :=
  ChainOnTop r [] s ∧ r.suspended = none ∧ r.parked = [] ∧ s.cue.list = []

/-- What the end of such a chain leaves: the sequence released, nothing given back (R37, R73). -/
def ChainGivenBack (r : ContextRecord) (s t : State) : Prop :=
  ChainOver r [] s t ∧ t.cue.held = false ∧ t.cue.list = [] ∧ t.lsw = s.lsw

/-- What the pop of a record gives back (R37, R39, R71 to R73, R102), in an event that leaves a state as `leaves` says, its own log
entries before and after CUE's as `before` and `after` say, with `due` left due; `list` is the cue list but for an entry that the
event ends. A suspended ITEM comes back by its policy, its run line up unless an earlier event of the block period holds it low, which
is the model's reading of R61 and R71 (log 41), a JOIN where the network then is or, its join end past, as DONE, a release of its own
for the BREAK-IN below; lines return to their slots or, for `bypass` with live calls not permitted, go to HOLD. -/
def GivesBack (r : ContextRecord) (rest : List ContextRecord) (list : List CueEntry) (bypass : Prop) (before after : LOG → LOG)
    (due : List Due) (s : State) (leaves : State → Prop) : Prop :=
  let back (x : List CueEntry) (bit : Nat) (log : LOG → LOG) (more : List Due) (t : State) : Prop :=
    leaves t ∧ t.cue.list = x ∧ t.log = after (log (before s.log)) ∧ t.due = due ++ more ∧
    t.cue.held = (if rest = [] then false else s.cue.held) ∧
    ∀ p, (t.port p).init = .high → (t.port p).flags.getLsbD bit = true
  let again (e : CueEntry) (elapsed : Nat) : CueEntry := { e with state := .playing, elapsed := elapsed, begun := s.boundaryNo }
  (∀ e el, r.suspended = some (e.serial, el) → r.parked = [] → list = [e] → e.state = .suspended →
    let entry (x : List CueEntry) (bit : Nat) (log : LOG → LOG) (more : List Due) : Prop :=
      ∃ t, back x bit log more t ∧ t.lsw = s.lsw ∧ ∀ ch, e.player = some ch → x ≠ [] →
        (t.cue.run.get ch).high = (s.cue.run.get ch).riseAfter.isNone
    (∀ ch len g, e.kind = .item ch len g .resume → entry [again e el] 0 id []) ∧
    (∀ ch len g, e.kind = .item ch len g .restart → entry [again e 0] 0 id []) ∧
    (∀ ch len g, e.kind = .item ch len g .skip →
      entry [] 1 (fun log => log.append (stamp s) .itemSkipped (.cue e.serial) (.skipped .policy)) []) ∧
    (∀ f len stop, e.kind = .join f len → e.joinEnd = some stop →
      let left := (stop + 17280000 - s.tb.clock) % 17280000
      (1 ≤ left → left ≤ len → entry [again e (len - left)] 0 id []) ∧
      (left = 0 ∨ len < left →
        ((∀ below, rest.head? = some below → below.kind ≠ .breakIn) → entry [] 1 id []) ∧
        (∀ below deeper, rest = below :: deeper → below.kind = .breakIn →
          entry [] 1 id [.joinEnd below.number e.serial])))) ∧
  (∀ x, r.parked ≠ [] → (r.parked.map (·.1)).Nodup → (r.parked.map (·.2)).Nodup → (∀ p ∈ r.parked, s.line p.1 = .parked) →
    s.lsw.anyIn .air = false →
    (r.suspended = none ∧ list = [] ∧ x = []) ∨ (∃ e el ch len g, r.suspended = some (e.serial, el) ∧ list = [e] ∧
      e.state = .suspended ∧ e.kind = .item ch len g .resume ∧ x = [again e el]) →
    let returned (line : Line → Line) (more : List Due) (t : State) : Prop := back x 5 id more t ∧
      (∀ p ∈ r.parked, t.lsw.lines.get p.1 = line (s.lsw.lines.get p.1)) ∧
      ∀ l, l ∉ r.parked.map (·.1) → t.lsw.lines.get l = s.lsw.lines.get l
    (bypass → s.lsw.liveCalls = false → ∃ t, returned (fun l => { l with state := .hold, waiting := some 0 }) [] t ∧
      ∀ p ∈ r.parked, t.lsw.slotA ≠ some p.1 ∧ t.lsw.slotB ≠ some p.1 ∧ p.1 ∉ t.lsw.queue) ∧
    (¬ bypass ∨ s.lsw.liveCalls = true →
      ∃ t, returned (fun l => { l with state := .air, waiting := none, onAir := some (l.onAir.getD (0, 0)) })
          [.gateReport true s.lsw.liveCalls] t ∧
        ∀ p ∈ r.parked, (p.2 = .a → t.lsw.slotA = some p.1) ∧ (p.2 = .b → t.lsw.slotB = some p.1)))

/-- What the withdrawal of the top record leaves while a chain without a record holds the air (R36, R41, R44): nothing comes back. Its
suspended entry, if any, leaves as ITEM SKIPPED, NO CONTEXT, a JOIN with a further withdrawal due for the BREAK-IN now on top; its
parked lines go to HOLD. `ended` appends the record's own end entry. -/
def Withdraws (r : ContextRecord) (rest : List ContextRecord) (ended : LOG → LOG) (due : List Due) (s : State)
    (leaves : State → Prop) : Prop :=
  let withdrawn (log : LOG) (more : List Due) (t : State) : Prop :=
    leaves t ∧ t.air = { s.air with stack := rest, free := r.number :: s.air.free } ∧ t.cue.list = [] ∧ t.cue.held = s.cue.held ∧
    t.log = ended log ∧ t.due = due ++ more ∧
    { t.lsw with lines := s.lsw.lines, slotA := s.lsw.slotA, slotB := s.lsw.slotB, queue := s.lsw.queue } = s.lsw ∧
    (∀ l, l ∈ r.parked.map (·.1) →
      t.lsw.lines.get l = { s.lsw.lines.get l with state := .hold, waiting := some 0 } ∧ t.lsw.slotA ≠ some l ∧
      t.lsw.slotB ≠ some l ∧ l ∉ t.lsw.queue) ∧
    (∀ l, l ∉ r.parked.map (·.1) → t.lsw.lines.get l = s.lsw.lines.get l) ∧
    (r.parked ≠ [] → ∀ p, (t.port p).init = .high → (t.port p).flags.getLsbD 5 = true) ∧
    { t with air := s.air, cue := s.cue, lsw := s.lsw, due := s.due, log := s.log, pi := s.pi } = s
  (∀ p ∈ r.parked, s.line p.1 = .parked) →
    (r.suspended = none → s.cue.list = [] → ∃ t, withdrawn s.log [] t) ∧
    (∀ e el, r.suspended = some (e.serial, el) → s.cue.list = [e] → e.state = .suspended →
      let log := s.log.append (stamp s) .itemSkipped (.cue e.serial) (.skipped .noContext)
      let skipped (more : List Due) : Prop := ∃ t, withdrawn log more t ∧
        ∀ p, (t.port p).init = .high → (t.port p).flags.getLsbD 1 = true
      (e.feed = none ∨ (∀ below, rest.head? = some below → below.kind ≠ .breakIn) → skipped []) ∧
      (∀ f below deeper, e.feed = some f → rest = below :: deeper → below.kind = .breakIn →
        skipped [.withdrawal below.number e.serial]))

/-- What the first alert of a chain leaves when a record can be given and no wake is asked for, in an event whose own log entries and
what is left due are `log` and `due` (R31, R32, R35, R70, R101, R103, R121, R124, R143, R144, R153): a record of the air as it
stood at the grant, DLY's state before the freeze among it, on top of the stack; the PLAYING entry SUSPENDED and the FADING one gone,
their run lines low and no other moved; the lines in AIR PARKED, LINE CHANGE raised and the gate reported; DLY FROZEN, DELAY STATE
raised; the alert ON AIR, logged, ALERT STATE raised. The list's clauses are for serials that differ, as R53 has them.
With no record free, which no run reaches, the number 1 is the model's (log 43). -/
def ChainBegun (e : AlertEntry) (log : LOG) (due : List Due) (s t : State) : Prop :=
  t.alc.chainOpen = true ∧ t.alc.go = true ∧
  t.alc.onAir = some { e with state := .onAir, played := 0, advisory := 0, begun := s.boundaryNo } ∧
  (∃ r, t.air = { s.air with chain := .withContext, chainSource := some (selectedSource s)
                             stack := r :: s.air.stack, free := s.air.free.drop 1 } ∧
    r.number = s.air.free.headD 1 ∧ r.kind = .alert ∧ r.before = selectedSource s ∧
    r.suspended = s.cue.playing.map (fun p => (p.serial, p.elapsed)) ∧ r.parked = s.lsw.airPairs ∧
    (∀ d, s.dly.state = .run d → r.delayBefore = some d) ∧ r.late = none) ∧
  t.cue.held = true ∧
  ((s.cue.list.map (·.serial)).Nodup →
    { t.cue with list := s.cue.list, run := s.cue.run } = { s.cue with held := true, started := false } ∧
    t.cue.list = (s.cue.list.filter fun x => !decide (s.cue.fading = some x)).map (fun x =>
      if s.cue.playing = some x then { x with state := .suspended } else x) ∧
    ∀ ch, (t.cue.run.get ch).high =
      if s.cue.playing.bind CueEntry.player = some ch ∨ s.cue.fading.bind CueEntry.player = some ch then false
      else (s.cue.run.get ch).high) ∧
  t.lsw = { s.lsw with lines := t.lsw.lines, slotA := t.lsw.slotA, slotB := t.lsw.slotB } ∧
  (s.lsw.anyIn .air = false → t.lsw = s.lsw ∧ t.due = due) ∧
  (s.lsw.anyIn .air = true → t.lsw.slotA = none ∧ t.lsw.slotB = none ∧ t.due = due ++ [.gateReport false s.lsw.liveCalls]) ∧
  (∀ l, (s.line l = .air → t.lsw.lines.get l = { s.lsw.lines.get l with state := .parked, waiting := none }) ∧
    (s.line l ≠ .air → t.lsw.lines.get l = s.lsw.lines.get l)) ∧
  t.dly = { s.dly with state := .frozen, recompute := false, kept := none } ∧
  t.out = { s.out with alertFlag := true, alertId := some e.header.pair } ∧
  t.log = log.append (stamp s) .alertOnAir (.alert e.header.pair) (.onAir e.header.priority e.interruptions) ∧
  (∀ p, (s.port p).init = .high → let raised (bit : Nat) : Prop := (t.port p).flags.getLsbD bit = true
    raised 9 ∧ raised 15 ∧ (s.dly.state ≠ .frozen → raised 6) ∧ (s.lsw.anyIn .air = true → raised 5) ∧
    (s.cue.fading ≠ none → raised 1)) ∧
  t.audio = s.audio ∧ t.lnk = s.lnk ∧ t.site = s.site ∧ t.tb = s.tb

/-- A stage that began in this event, its commands all in LNK's queue, which was empty, their resources' commanded values set, and
the first of them outstanding when the link can send (R167, R168, R177). -/
def StageHeld (kind : StageKind) (slot : Option Nat) (commands : List SiteCommand) (s t : State) : Prop :=
  (∃ st, t.site.stage = some st ∧ st.kind = kind ∧ st.slot = slot ∧ st.toPut = [] ∧ st.awaiting = commands ∧ st.age = 0 ∧
    st.begun = s.boundaryNo) ∧
  t.lnk.queue.map (·.command) = commands ∧
  t.lnk.outstanding = (if s.lnk.state = .up ∨ s.lnk.state = .degraded then some ⟨s.lnk.nextNumber, s.boundaryNo, none⟩
    else none) ∧
  (∀ r < 8, (t.site.resource r).commanded = if .on r ∈ commands then true else if .off r ∈ commands then false
    else (s.site.resource r).commanded) ∧
  t.tb = s.tb ∧ t.air = s.air ∧ t.cue = s.cue ∧ t.lsw = s.lsw ∧ t.dly = s.dly ∧ t.alc = s.alc ∧ t.out = s.out

/-- The same of a stage that follows another at a boundary, the link able to send and LNK's queue empty before it. -/
def StageFollows (kind : StageKind) (slot : Option Nat) (step : Nat) (commands : List SiteCommand) (s t : State) : Prop :=
  (∃ st, t.site.stage = some st ∧ st.kind = kind ∧ st.slot = slot ∧ st.step = step ∧ st.toPut = [] ∧ st.awaiting = commands ∧
    st.age = 0 ∧ st.begun = s.boundaryNo + 1) ∧
  t.lnk.queue.map (·.command) = commands ∧ t.lnk.outstanding = some ⟨s.lnk.nextNumber, s.boundaryNo + 1, none⟩ ∧
  (∀ r < 8, (t.site.resource r).commanded = if .on r ∈ commands then true else if .off r ∈ commands then false
    else (s.site.resource r).commanded)

/-- The site went to a state for a cause, which is logged and raises SITE STATE, and the sequence's first stage is held (R174). -/
def StageBegun (new : SiteState) (cause : SiteCause) (kind : StageKind) (slot : Option Nat) (commands : List SiteCommand)
    (s t : State) : Prop :=
  t.site.state = new ∧ t.log = s.log.append (stamp s) .siteState .none (.site s.site.state new cause) ∧
  (∀ p, (s.port p).init = .high → (t.port p).flags.getLsbD 12 = true) ∧ StageHeld kind slot commands s t

/-- What of an entry no settling of the list changes. -/
def CueEntry.identity (e : CueEntry) : Nat × CueKind × Timing × Long := (e.serial, e.kind, e.timing, e.logRef)

/-- The air clock and a pending SET CLOCK are times of day (R12, R13). -/
def ClockInRange (t : TB) : Prop := t.clock < Config.day ∧ ∀ n, t.pendingTime = some n → n < Config.day

/-- Each of the four context records is on the stack or free, never both; the depth is within the maximum depth, which is 1
to 4 (R28, R30). -/
def StackSound (a : AIR) : Prop :=
  (a.stack.map (·.number) ++ a.free).Perm [1, 2, 3, 4] ∧ a.stack.length ≤ a.maxDepth ∧ 1 ≤ a.maxDepth ∧ a.maxDepth ≤ 4

/-- The cue list holds at most 64 entries, no two with the same serial; the serials and the serial counter are 1 to 65535 (R52,
R53). -/
def CueSound (x : CUE) : Prop :=
  x.list.length ≤ Config.cueEntries ∧ (x.list.map (·.serial)).Nodup ∧
  (∀ n ∈ x.list.map (·.serial), 1 ≤ n ∧ n ≤ 65535) ∧ 1 ≤ x.counter ∧ x.counter ≤ 65535

/-- The ring's cells are in the canonical form, both positions are cells of the ring, and the target, the dump amount and the
build ratio are in their ranges (R106). -/
def RingSound (d : DLY) : Prop :=
  Memory.wf d.ring = true ∧ (∀ c ∈ d.ring, c.1 < Config.ringCells) ∧ d.writePos < Config.ringCells ∧
  d.readPos < Config.ringCells ∧ d.target ≤ Config.maxDelay ∧ 1 ≤ d.dumpAmount ∧ d.dumpAmount ≤ Config.maxDelay ∧
  8 ≤ d.ratio ∧ d.ratio ≤ 64

/-- A line that holds a slot is in AIR and holds no other, and the ready queue holds exactly the lines that are READY, each once
(R84, R85). -/
def LinesSound (x : LSW) : Prop :=
  (∀ l, x.slotA = some l ∨ x.slotB = some l → (x.lines.get l).state = .air) ∧ (∀ l, ¬ (x.slotA = some l ∧ x.slotB = some l)) ∧
  x.queue.Nodup ∧ ∀ l, l ∈ x.queue ↔ (x.lines.get l).state = .ready

/-- The serials of a list of log entries run down one by one from the serial before `next` (R188). -/
def serialsRun : Nat → List LogEntry → Prop
  | _, [] => True
  | next, e :: rest => nextSerial e.serial = next ∧ serialsRun e.serial rest

/-- The log holds at most 512 entries, with consecutive serials (R188). -/
def LogSound (l : LOG) : Prop := l.entries.length ≤ Config.logPlaces ∧ serialsRun l.next l.entries

/-- DLY's delay stands to its target as a delay state says; in BYPASS there is none (R109, R110). -/
def DLY.Fits (d : DLY) : RunState → Prop
  | .bypass => d.delay = 0 ∧ d.target = 0
  | .building => d.delay < d.target
  | .engaged => d.delay = d.target
  | .shrinking => d.target < d.delay

/-- The state a chain's end returns DLY to: the one the top record keeps, or DLY itself for a chain without a record (R121). -/
def DLY.before (d : DLY) (chain : ChainState) (stack : List ContextRecord) : Option RunState :=
  match chain with
  | .withContext => stack.head?.bind (·.delayBefore)
  | _ => d.kept

/-- DLY, AIR's chain and stack, and ALC's chain state agree. -/
structure DelaySound (d : DLY) (chain : ChainState) (stack : List ContextRecord) (chainOpen : Bool) : Prop where
  /-- the delay is at most 6000 blocks (R107) -/
  atMost : d.delay ≤ Config.maxDelay
  /-- AIR has a chain exactly while ALC's chain is open (R28, R135) -/
  opened : chainOpen = true ↔ chain ≠ .none
  /-- an ALERT record is the top while its chain lasts (R36) -/
  top : chain = .withContext → ∃ r, stack.head? = some r ∧ r.kind = .alert
  /-- DLY is FROZEN exactly during a chain (R121, R123), and otherwise its delay fits its state -/
  running : ∀ r, d.state = .run r → chain = .none ∧ d.Fits r
  /-- in FROZEN the delay fits the state kept for the chain's end, unless that is to be settled afresh (R121 to R123) -/
  frozen : d.state = .frozen → chain ≠ .none ∧ (d.recompute = false → ∃ b, d.before chain stack = some b ∧ d.Fits b)

/-- LNK's queue and SITE's stage agree: a command that is outstanding is the head of the queue (R168), and a stage awaits exactly
its commands in the queue, in their order (R177). -/
structure CommandsSound (x : LNK) (y : SITE) : Prop where
  head : x.outstanding.isSome = true → x.queue ≠ []
  /-- the queued commands and the stage in force were numbered before the next stage (log 20) -/
  numbered : ∀ q ∈ x.queue, q.stage < y.nextStage
  awaited : ∀ st, y.stage = some st → st.id < y.nextStage ∧
    st.awaiting = (x.queue.filter fun q => decide (q.stage = st.id)).map (·.command)

/-- What the rules say of each block's own state at every time. -/
structure BlocksSound (s : State) : Prop where
  clock : ClockInRange s.tb
  stack : StackSound s.air
  cue : CueSound s.cue
  lines : LinesSound s.lsw
  ring : RingSound s.dly
  /-- the alert queue holds at most 8 entries (R135) -/
  alerts : s.alc.queue.length ≤ Config.alertEntries
  /-- the duplicate table holds at most 32 pairs (R128) -/
  known : s.alc.known.length ≤ Config.knownPairs
  /-- the site command queue holds at most 8 commands (R167) -/
  commands : s.lnk.queue.length ≤ Config.siteCommands
  log : LogSound s.log

/-- The invariant of the part: what the rules say of each block, and of the blocks that act together, at every time. -/
structure Inv (s : State) : Prop extends BlocksSound s where
  delay : DelaySound s.dly s.air.chain s.air.stack s.alc.chainOpen
  site : CommandsSound s.lnk s.site

end Sys2Proof.Machine
end

