-- ==== Sys2Proof/WellFormed.lean ====
section
/-! DEFINITION. Which terms of Instr a sender can send: lists fit the port's 62 parameter bytes (R194) and a period
brings at most 240 samples on an input (R1, R6). -/

namespace Sys2Proof

/-- An input brings at most 240 samples in a period (R1). -/
def fitsPeriod {α : Type} (xs : List α) : Bool := decide (xs.length ≤ 240)

/-- A period's inputs are in their physical ranges (R1, R8). -/
def PeriodInput.wellFormed (i : PeriodInput) : Bool :=
  fitsPeriod i.studio && i.players.toList.all fitsPeriod && fitsPeriod i.netA && fitsPeriod i.netB &&
  fitsPeriod i.fill && fitsPeriod i.alert && fitsPeriod i.consoleReturn && fitsPeriod i.screenerIn &&
  i.lineReceive.toList.all fitsPeriod && decide (i.houseEdges ≤ 240)

/-- The command can be sent: a counted list fits the request that carries it (R194, R195, section 10.6). -/
def Instr.wellFormed : Instr → Bool
  | .blockBoundary inp _ _ => inp.wellFormed
  | .ready _ _ (some note) => decide (note.length ≤ 60)
  | .lineNote _ _ note => decide (note.length ≤ 60)
  | .alertHeader _ h => decide (h.areas.length ≤ 16)
  | .setAreas _ codes => decide (codes.length ≤ 20)
  | .setSiteResource _ _ _ _ label => decide (label.length ≤ 58)
  | _ => true

end Sys2Proof
end

