-- ==== Sys2Proof/Certificates/Slice0/Obligations.lean ====
section
/-! DEFINITION. The statements about the model. Each names the rules of spec/ it formalises or the choices of the model it
rests on in OBLIGATIONS.json. -/

open Sys2Proof Sys2Proof.Machine

/-! ### The queue, every command, the invariant -/

/-- A step takes the command at the front of the queue and runs it on the state with the queue's rest; on an empty queue the
part idles (the idling is the model's choice, log 1). -/
def Obligations.StepTakesTheFrontCommand : Prop :=
  (∀ (c : Instr) (rest : List Instr) (s : State), s.pending = c :: rest → step s = exec c { s with pending := rest }) ∧
  (∀ s : State, s.pending = [] → step s = .next s)

/-- Every command ends in a next state, and none touches the queue of commands. -/
def Obligations.EveryCommandEndsInANextState : Prop :=
  ∀ (c : Instr) (s : State), ∃ t, exec c s = .next t ∧ t.pending = s.pending

/-- Only a boundary and power-on change the boundary number, the blocks of the previous period, or the input blocks. -/
def Obligations.OnlyBoundariesBringBlocks : Prop :=
  ∀ (c : Instr) (s t : State), exec c s = .next t → c ≠ .powerOn → (∀ inp first later, c ≠ .blockBoundary inp first later) →
    t.boundaryNo = s.boundaryNo ∧ t.audio.prev = s.audio.prev ∧ t.audio.cur.inputs = s.audio.cur.inputs

/-- The invariant holds after power-on. -/
def Obligations.TheInvariantHoldsAtReset : Prop := Inv State.reset

/-- Every step keeps the invariant: the air clock is a time of day, each context record is on the stack or free, no two cue
entries have the same serial, the slots hold lines in AIR and the ready queue the lines that are READY, the lists and queues
keep to their sizes, the ring's cells are in canonical form, DLY's settings are in their ranges, the delay is at most 6000
blocks and fits DLY's state (0 in BYPASS), DLY is FROZEN exactly during a chain, ALC's chain is open exactly while AIR has one,
an outstanding command is the head of LNK's queue, a stage awaits exactly its commands there, and the log's serials run without
a gap. -/
def Obligations.EveryStepKeepsTheInvariant : Prop :=
  ∀ s t : State, Inv s → step s = .next t → Inv t

/-- The bytes of every well-formed request are read back as that request. -/
def Obligations.RequestsAreReadBackFromTheirBytes : Prop :=
  ∀ (i : Instr) (r : Request), i.wellFormed = true → i.request = some r → decodeRequest r.port r.code r.params = some i

/-! ### Resets -/

/-- Power-on leaves every block at its power-on values, written out here for the values the spec names (R20, R50, R80, R105,
R126, R151, R172, R187, R192, R200). That a port is wholly empty is the model's choice where no rule gives a value: the init
pin high (log 28), the byte last driven and the idle count 0 (log 3). -/
def Obligations.PowerOnValues : Prop :=
  ∀ s : State, ∃ t, exec .powerOn s = .next t ∧ t.pending = s.pending ∧
    t.tb.source = .internal ∧ t.tb.pendingSource = none ∧ t.tb.houseCount = 0 ∧ t.tb.clock = 0 ∧ t.tb.clockSet = false ∧
    t.tb.pendingTime = none ∧ t.tb.keyHeld = false ∧
    (∀ k, let r := t.tb.keys.get k; r.action = .none ∧ r.edge = .none ∧ r.active = .high ∧ r.sampled = false) ∧
    t.air.mode = .live ∧ t.air.chain = .none ∧ t.air.chainSource = none ∧ t.air.stack = [] ∧ t.air.free = [1, 2, 3, 4] ∧
    t.air.maxDepth = 3 ∧
    t.cue.list = [] ∧ t.cue.counter = 1 ∧ t.cue.threshold = 0 ∧ t.cue.armed = false ∧ t.cue.held = false ∧
    (∀ c, (t.cue.run.get c).high = false ∧ (t.cue.run.get c).riseAfter = none) ∧
    (∀ l, let r := t.lsw.lines.get l; r.state = .idle ∧ r.note = none ∧ r.waiting = none ∧ r.onAir = none ∧ r.ringQuiet = 0 ∧
      r.clearing = 0 ∧ r.loopLoss = 0 ∧ r.ring = none ∧ r.loop = none) ∧
    t.lsw.queue = [] ∧ t.lsw.slotA = none ∧ t.lsw.slotB = none ∧ t.lsw.dropOnDump = false ∧
    t.lsw.liveCalls = false ∧ (∀ l, t.lsw.ringEdges.get l = .rising) ∧
    t.dly.state = .run .bypass ∧ t.dly.target = 0 ∧ t.dly.delay = 0 ∧ t.dly.dumpAmount = 1400 ∧ t.dly.ratio = 20 ∧
    t.dly.writePos = 0 ∧ t.dly.readPos = 0 ∧ t.dly.stepCount = 0 ∧ t.dly.last = none ∧ t.dly.recompute = false ∧
    t.dly.kept = none ∧ t.dly.gateAir = false ∧ t.dly.gateLive = false ∧
    t.alc.queue = [] ∧ t.alc.known = [] ∧ t.alc.areas = [] ∧ t.alc.events = [] ∧ t.alc.liveHold = 24000 ∧
    t.alc.autoHold = 24000 ∧ t.alc.advisoryWait = 12000 ∧ t.alc.wake = true ∧ t.alc.chainOpen = false ∧ t.alc.go = false ∧
    t.out.reasons = {} ∧ t.out.alertFlag = false ∧ t.out.alertId = none ∧ t.out.threshold = 45 ∧ t.out.silenceTime = 4000 ∧
    t.out.restoreTime = 1000 ∧ t.out.failover = true ∧ t.out.quietRun = 0 ∧ t.out.soundRun = 0 ∧ t.out.deadAir = false ∧
    t.out.origin = none ∧ t.out.entry = none ∧ t.out.entryRun = 0 ∧ t.out.carriedRun = 0 ∧
    (∀ l, t.out.lines.get l = false ∧ t.out.lineCounts.get l = 0) ∧ t.out.carrying = false ∧
    t.lnk.state = .down ∧ t.lnk.good = 0 ∧ t.lnk.missing = 0 ∧ t.lnk.nextSeq = 0 ∧ t.lnk.lastEcho = none ∧ t.lnk.queue = [] ∧
    t.lnk.outstanding = none ∧ t.lnk.nextNumber = 0 ∧ t.lnk.delivered = none ∧ t.lnk.siteFill = false ∧
    t.site.state = .unknown ∧ t.site.power = none ∧ t.site.stepBeforeLow = 15 ∧ t.site.resources.length = 8 ∧
    (∀ r ∈ t.site.resources, r.slot = none ∧ r.keepInLow = false ∧ r.label = none ∧ r.commanded = false ∧ r.reported = .off) ∧
    t.site.slotLength = 200 ∧ t.site.fullStep = 15 ∧ t.site.lowStep = 8 ∧ t.site.restorePrevious = true ∧
    t.site.sequentialOff = true ∧ t.site.lowTime = 15840000 ∧ t.site.fullTime = 4320000 ∧ t.site.windowEnabled = false ∧
    t.site.lastMode = none ∧ t.site.reportedStep = none ∧ t.site.stage = none ∧ t.site.pendingWake = false ∧
    t.log.entries = [] ∧ t.log.next = 1 ∧ (∀ p, t.port p = {})

/-- A chip reset keeps the air clock, the clock-set flag, the house count and the log, to which it adds a RESET entry, and
brings every other block back to its values (R20, R50, R80, R105, R126, R151, R172, R187, R192); a source other than INTERNAL
stays in use until the next boundary (R20); a SET CLOCK left due is in effect before it (log 2). That requests at their owners
are dropped and the frame and the audio already formed are kept is log 27, that the pins keep their levels log 28, that a low
init pin withholds LOG NEW log 36; that a key line's settled level is LOW until its first sample log 32; that the good frame of
the period in progress is forgotten log 50, and the sequence last sent log 51; that LINK is not good until LNK reports again log 58.
An alert chain that the reset ends leaves every block as it was formed (R1); that its last programme block is therefore DLY's to take,
against R27's words, is log 56. -/
def Obligations.ChipResetKeepsTheClockAndTheLog : Prop :=
  ∀ s₀ s : State, ActsOn s₀ s → ∃ t, exec .chipReset s₀ = .next t ∧
    t.log = s.log.append (if s.tb.clockSet then some s.tb.clock else none) .reset .none (.number 0) ∧
    t.tb = { source := s.tb.source, toInternal := decide (s.tb.source ≠ .internal)
             clock := s.tb.clock, clockSet := s.tb.clockSet, houseCount := s.tb.houseCount, houseOk := s.tb.houseOk } ∧
    t.air = {} ∧ t.cue = {} ∧ t.lsw = {} ∧ t.dly = { ring := s.dly.ring } ∧ t.alc = {} ∧ t.out = {} ∧ t.site = {} ∧
    t.lnk = { frame := s.lnk.frame } ∧ t.pi.handed = [] ∧ t.pending = s.pending ∧ t.audio = s.audio ∧
    ∀ p, t.port p = { init := (s.port p).init, dataOut := (s.port p).dataOut,
                      flags := if (s.port p).init = .high then 0x8000#16 else 0#16 }

/-- A port reset, by the fall of the init pin or by PORT RESET on a port that takes bytes, a request open on it discarded, empties
the port and marks the replies of its requests still at their owners; an init pin that is given the level it has changes nothing. On
port A it disarms the low-water notice. On port B it ends a live insert in force as LIVE INSERT END would (R42): with the insert at
the top and no chain on air its record gives back what it saved (R37, R71, R72, R102), under other records it is withdrawn (R40), and
at the top in a chain without a record nothing comes back (R44). On port C it cuts an alert on air short, and the chain ends or goes
on with the READY head, its go line held low (R146, R147, R148, R199), the record giving back what it saved (R37, R71, R72, R102,
R105) and every block standing as it was formed (R1; that DLY takes the chain's last is log 56); a chain without a record, and one with
a late break-in, are stated for ALERT END in O49. On a port with a request at its owner or a reply waiting, PORT RESET is dropped with
OVERRUN (R197). An ITEM's run line rises as R71 says, but that an earlier event of the block period may hold it low, so that it is
high only where no rise is awaited, is the model's reading, log 41. That an ITEM SKIPPED (CUE) stands before the LIVE INSERT END (AIR)
of its event and after its ALERT ENDED (ALC) is the model's choice, log 54; that a record taking over parked lines keeps its own is
log 55; the BYPASS of a record that kept no delay state, which no chain gives, is the model's, log 43. Entries given back are stated
for a list of that one entry, on port B with no alert ready. -/
def Obligations.APortResetEmptiesThePort : Prop :=
  ∀ s : State, .clockSet ∉ s.due →
    ((s.port .a).TakesBytes →
      exec (.portReset .a) s = .next { s with
        pi := { s.pi with a := { init := .high, dataOut := s.pi.a.dataOut }, handed := discardReplies .a s.pi.handed }
        cue := { s.cue with armed := false } }) ∧
    ((s.port .a).init = .high →
      exec (.portInit .a .low) s = .next { s with
        pi := { s.pi with a := { init := .low, dataOut := s.pi.a.dataOut }, handed := discardReplies .a s.pi.handed }
        cue := { s.cue with armed := false } }) ∧
    (let cleared (l : Level) : State := { s with
        pi := { s.pi with b := { init := l, dataOut := s.pi.b.dataOut }, handed := discardReplies .b s.pi.handed } };
      (s.air.insertRecord = none →
        ((s.port .b).TakesBytes → exec (.portReset .b) s = .next (clearMarks (cleared .high))) ∧
        ((s.port .b).init = .high → exec (.portInit .b .low) s = .next (clearMarks (cleared .low)))) ∧
      (∀ r rest, s.air.stack = r :: rest → r.kind = .liveInsert → r.suspended = none → r.parked = [] → s.air.chain = .none →
        (∀ x ∈ rest, x.number ≠ r.number) → s.cue.list = [] →
        let ended (l : Level) : State := clearMarks (logEntry .liveInsertEnd .none (.number 0) { cleared l with
          air := { s.air with stack := rest, free := r.number :: s.air.free }
          cue := { s.cue with held := if rest = [] then false else s.cue.held } })
        ((s.port .b).TakesBytes → exec (.portReset .b) s = .next (ended .high)) ∧
        ((s.port .b).init = .high → exec (.portInit .b .low) s = .next (ended .low))) ∧
      (∀ r rest, s.air.stack = r :: rest → r.kind = .liveInsert → (∀ x ∈ rest, x.number ≠ r.number) →
        let ended (log : LOG) : LOG := log.append (stamp s) .liveInsertEnd .none (.number 0)
        let popped (c : Instr) : Prop := GivesBack r rest s.cue.list (s.dly.state = .run .bypass) id ended s.due s
          fun t => exec c s = .next t ∧ t.air = { s.air with stack := rest, free := r.number :: s.air.free } ∧
            { t with air := s.air, cue := s.cue, lsw := s.lsw, due := s.due, log := s.log, pi := s.pi } = s
        let lost (c : Instr) : Prop := Withdraws r rest ended s.due s fun t => exec c s = .next t
        (s.air.chain = .none → s.alc.readyHead = none →
          ((s.port .b).TakesBytes → popped (.portReset .b)) ∧ ((s.port .b).init = .high → popped (.portInit .b .low))) ∧
        (s.air.chain = .withoutContext →
          ((s.port .b).TakesBytes → lost (.portReset .b)) ∧ ((s.port .b).init = .high → lost (.portInit .b .low)))) ∧
      (∀ top above r rest, s.air.stack = top ++ above :: r :: rest → r.kind = .liveInsert →
        (∀ x ∈ top ++ [above], x.kind ≠ .liveInsert ∧ x.number ≠ r.number) →
        let withdrawn (l : Level) : State := clearMarks (logEntry .liveInsertEnd .none (.number 0) { cleared l with
          air := { s.air with
            stack := top ++ { above with
              before := r.before, suspended := r.suspended, parked := above.parked ++ r.parked } :: rest
            free := r.number :: s.air.free } })
        ((s.port .b).TakesBytes → exec (.portReset .b) s = .next (withdrawn .high)) ∧
        ((s.port .b).init = .high → exec (.portInit .b .low) s = .next (withdrawn .low)))) ∧
    (let cleared (l : Level) : State := { s with
        pi := { s.pi with c := { init := l, dataOut := s.pi.c.dataOut }, handed := discardReplies .c s.pi.handed } };
      (s.alc.onAir = none →
        ((s.port .c).TakesBytes → exec (.portReset .c) s = .next (clearMarks (cleared .high))) ∧
        ((s.port .c).init = .high → exec (.portInit .c .low) s = .next (clearMarks (cleared .low)))) ∧
      (∀ e r, s.alc.queue = [e] → e.state = .onAir → ChainAlone r s →
        let cutShort (t : State) : Prop := ChainGivenBack r s t ∧
          t.log = s.log.append (stamp s) .alertEnded (.alert e.header.pair) (.alertEnd .cutShort)
        ((s.port .c).TakesBytes → ∃ t, exec (.portReset .c) s = .next t ∧ cutShort t) ∧
        ((s.port .c).init = .high → ∃ t, exec (.portInit .c .low) s = .next t ∧ cutShort t ∧ (t.port .c).flags = 0)) ∧
      (∀ e r rest, s.alc.queue = [e] → e.state = .onAir → ChainOnTop r rest s →
        let cutShort (c : Instr) : Prop :=
          GivesBack r rest s.cue.list (s.dly.returnsTo (r.delayBefore.getD .bypass) = .bypass)
            (fun log => log.append (stamp s) .alertEnded (.alert e.header.pair) (.alertEnd .cutShort)) id s.due s
            fun t => exec c s = .next t ∧ ChainOver r rest s t
        ((s.port .c).TakesBytes → cutShort (.portReset .c)) ∧ ((s.port .c).init = .high → cutShort (.portInit .c .low))) ∧
      (∀ e f, s.alc.queue = [e, f] → e.state = .onAir → f.state = .ready → f.header.pair ≠ e.header.pair →
        s.alc.wake = false →
        let on (t : State) : Prop :=
          t.alc = { s.alc with
            queue := [{ f with state := .onAir, played := 0, advisory := 0, begun := s.boundaryNo }]
            go := false, goRiseAfter := some s.boundaryNo } ∧
          t.out = { s.out with alertId := some f.header.pair } ∧
          t.log = (s.log.append (stamp s) .alertEnded (.alert e.header.pair) (.alertEnd .cutShort)).append (stamp s)
            .alertOnAir (.alert f.header.pair) (.onAir f.header.priority f.interruptions) ∧
          { t with alc := s.alc, out := s.out, log := s.log, pi := s.pi } = clearMarks s
        ((s.port .c).TakesBytes → ∃ t, exec (.portReset .c) s = .next t ∧ on t) ∧
        ((s.port .c).init = .high → ∃ t, exec (.portInit .c .low) s = .next t ∧ on t))) ∧
    (∀ p, (s.port p).init = .low → exec (.portReset p) s = .next s ∧
      exec (.portInit p .high) s = .next (s.withPort p { s.port p with init := .high })) ∧
    (∀ p l, (s.port p).init = l → exec (.portInit p l) s = .next s) ∧
    (∀ p, (s.port p).init = .high → (s.port p).busy = true ∨ (s.port p).replyReady = true →
      exec (.portReset p) s = .next (s.withPort p { s.port p with overrun := true }))

/-! ### The boundary -/

/-- An input block has 240 places: what the period brought, and a zero sample where none arrived. A boundary counts, puts the
input blocks in place, and advances the air clock by one, through midnight to 0, unless a SET CLOCK is pending (R1, R6,
R12, R13). With nothing due before it and every event left for later it also takes a chip reset's switch to INTERNAL (R20),
finds whether the period qualified for HOUSE, 240 word clock edges at a rate within 500 parts per million, the judgement coming due
(R8), counts open requests (R197) and samples the key lines, whose changes come due (R16). The first sampling settles a line's level
and judges KEY with it, on the boundary's clock, a pending SET CLOCK in effect (R13, R16, R18); that any other boundary may leave
it due is log 2. With the programme event taken, AIR's block is as R3, R4 and R25 to R27 say (logs 9, 10 and 24); that at the
first boundary past a crossfade's last, the FADING entry not yet ended, it is the incoming entry's alone is the model's choice,
log 25. The end of an alert chain leaves every block as it was formed, and the events of OUT and DLY still due stay so, to be taken
after it (R1, R108); that DLY is then to take the chain's last block too, against R27's words, is log 56. -/
def Obligations.ABoundaryBringsItsPeriod : Prop :=
  (∀ (xs : List (Option Stereo)) (k : Nat), (inputBlock xs).length = 240 ∧
    (k < 240 → (inputBlock xs)[k]? = some ((xs[k]?.getD none).getD ⟨0, 0⟩))) ∧
  (∀ (inp : PeriodInput) (first later : List DueKind) (s : State),
    let clock := if s.tb.clock = 17279999 then 0 else s.tb.clock + 1
    ∃ t, exec (.blockBoundary inp first later) s = .next t ∧ t.boundaryNo = s.boundaryNo + 1 ∧
      t.audio.cur.inputs = formInputs inp ∧ (s.due = [] → t.audio.prev = s.audio.cur) ∧
      (s.due = [] → first = [] → (∀ k, k ∈ later) → s.tb.pendingTime = none →
        t.tb.clock = clock ∧ .clockSet ∉ t.due) ∧
      (s.due = [] → first = [] → (∀ k, k ∈ later) → s.tb.pendingTime ≠ none → KeysSampled s →
        t.tb.clock = s.tb.clock ∧ .clockSet ∈ t.due) ∧
      (∀ n, s.due = [] → first = [] → (∀ k, k ∈ later) → s.tb.pendingTime = some n → ¬ KeysSampled s →
        t.tb.clock = n ∧ t.tb.clockSet = true ∧ t.tb.pendingTime = none ∧ .clockSet ∉ t.due) ∧
      (s.due = [] → first = [] → (∀ k, k ∈ later) →
        t.tb.source = (if s.tb.toInternal then .internal else s.tb.source) ∧ t.tb.toInternal = false ∧
        (t.tb.houseOk = true ↔ 240 ≤ inp.houseEdges ∧ -500 ≤ inp.housePpm ∧ inp.housePpm ≤ 500) ∧
        t.tb.houseCount = s.tb.houseCount ∧ .house ∈ t.due ∧
        (∀ p, { t.port p with flags := (s.port p).flags } = { s.port p with
          idleCount := if (s.port p).phase = .codeTaken ∨ (s.port p).phase = .parameters then min 10 ((s.port p).idleCount + 1)
            else (s.port p).idleCount }) ∧
        (∀ k, let r := s.tb.keys.get k
          (r.sampled = false → t.tb.keys.get k = { r with settled := inp.keys.get k, sampled := true, differed := false } ∧
            .keyEdge k ∉ t.due) ∧
          (r.sampled = true → t.tb.keys.get k = { r with differed := decide (inp.keys.get k ≠ r.settled) } ∧
            (.keyEdge k ∈ t.due ↔ r.differed = true ∧ inp.keys.get k ≠ r.settled))) ∧
        (KeysSampled s → t.tb.keyHeld = s.tb.keyHeld ∧ t.log = s.log ∧ ∀ p, (t.port p).flags = (s.port p).flags) ∧
        (¬ KeysSampled s →
          (t.tb.keyHeld = true ↔ ∃ k, (t.tb.keys.get k).action = .safe ∧ (t.tb.keys.get k).settled = (t.tb.keys.get k).active) ∧
          (s.out.reasons.key = s.tb.keyHeld → t.out.reasons = { s.out.reasons with key := t.tb.keyHeld } ∧
            let time : Option Nat := match s.tb.pendingTime with
              | some n => some n
              | none => if s.tb.clockSet then some clock else none
            (t.tb.keyHeld = s.tb.keyHeld → t.log = s.log ∧
              (s.tb.pendingTime = none → ∀ p, (t.port p).flags = (s.port p).flags)) ∧
            (t.tb.keyHeld ≠ s.tb.keyHeld → ∀ p, (s.port p).init = .high → (t.port p).flags.getLsbD 10 = true) ∧
            (t.tb.keyHeld = true → s.out.reasons = {} → t.log = s.log.append time .safeOn .none (.reason .key)) ∧
            (t.tb.keyHeld = false → s.out.reasons = { key := true } →
              t.log = s.log.append time .safeOff .none (.reason .key))))) ∧
      (s.due = [] → first = [.programme] → (∀ k, k ≠ .programme → k ∈ later) → s.tb.pendingTime = none →
        ProgrammeFormed s.audio.cur.inputs (s.boundaryNo + 1) s t.audio.cur.programme)) ∧
  (∀ (o n : Half) (c : Instr) (s t : State),
    c ∈ [.alertEnd .c o n, .cancelAlert .b o n, .portReset .c, .portInit .c .low, .alertLengthReached, .chipReset] →
    .clockSet ∉ s.due → s.air.chain ≠ .none → exec c s = .next t → t.air.chain = .none →
    t.audio = s.audio ∧ (.delay ∈ s.due → .delay ∈ t.due) ∧ (.output ∈ s.due → .output ∈ t.due))

/-! ### Ports -/

/-- A reply fills the port's buffer with the code echo, the result, the value length and the values, whatever the result;
each data read then returns the next byte, the last one clears REPLY READY, and a read with no reply ready returns 0 and
changes nothing (R196). A port whose init pin is low drives 0 (R199). -/
def Obligations.RepliesAreReadByteByByte : Prop :=
  ∀ (p : PortId) (code : Nat) (r : Reply) (s : State),
    ((replyTo p code r s).port p = { s.port p with
        reply := BitVec.ofNat 8 code :: BitVec.ofNat 8 r.result.code :: BitVec.ofNat 8 r.values.length :: r.values
        bytesRead := 0, busy := false, replyReady := true, phase := .idle } ∧
      ∀ q, q ≠ p → (replyTo p code r s).port q = s.port q) ∧
    ((s.port p).init = .high → (s.port p).replyReady = true →
      exec (.replyByteRead p) s = .next (s.withPort p { s.port p with
        dataOut := (s.port p).reply.getD (s.port p).bytesRead 0
        bytesRead := (s.port p).bytesRead + 1
        replyReady := decide ((s.port p).bytesRead + 1 < (s.port p).reply.length) })) ∧
    ((s.port p).init = .high → (s.port p).replyReady = false →
      exec (.replyByteRead p) s = .next (s.withPort p { s.port p with dataOut := 0 })) ∧
    ((s.port p).init = .low → exec (.replyByteRead p) s = .next (s.withPort p { s.port p with dataOut := 0 }))

/-- A read at the command address drives the status byte and clears TIMEOUT and OVERRUN; bits 0 to 4 are REQUEST BUSY, REPLY
READY, NOTICE, TIMEOUT and OVERRUN (R193, section 10.6). -/
def Obligations.StatusReadsClearTimeoutAndOverrun : Prop :=
  ∀ (p : PortId) (s : State),
    ((s.port p).init = .low → exec (.statusRead p) s = .next (s.withPort p { s.port p with dataOut := 0 })) ∧
    ((s.port p).init = .high → ∃ b : Byte,
      exec (.statusRead p) s = .next (s.withPort p { s.port p with dataOut := b, timeout := false, overrun := false }) ∧
      b.getLsbD 0 = (s.port p).busy ∧ b.getLsbD 1 = (s.port p).replyReady ∧
      b.getLsbD 2 = !decide ((s.port p).flags &&& (s.port p).mask = 0#16) ∧
      b.getLsbD 3 = (s.port p).timeout ∧ b.getLsbD 4 = (s.port p).overrun ∧ b.toNat < 32)

/-- Bytes written to a port assemble a request; a byte that PI cannot take is dropped with OVERRUN (R194, R197, R199). An open
request that has been idle for ten boundaries is discarded with TIMEOUT; any other port is left alone (R197). -/
def Obligations.BytesAssembleARequest : Prop :=
  (∀ (p : PortId) (b : Byte) (now : Bool) (s : State),
    ((s.port p).init = .low →
      exec (.commandAddressWrite p b) s = .next s ∧ exec (.dataAddressWrite p b now) s = .next s) ∧
    ((s.port p).init = .high → (s.port p).busy = true ∨ (s.port p).replyReady = true →
      exec (.commandAddressWrite p b) s = .next (s.withPort p { s.port p with overrun := true }) ∧
      exec (.dataAddressWrite p b now) s = .next (s.withPort p { s.port p with overrun := true })) ∧
    ((s.port p).init = .high → (s.port p).busy = false → (s.port p).replyReady = false →
      ((s.port p).phase = .idle →
        exec (.commandAddressWrite p b) s = .next (s.withPort p
          { s.port p with phase := .codeTaken, code := b, length := 0, params := [], idleCount := 0 }) ∧
        exec (.dataAddressWrite p b now) s = .next (s.withPort p { s.port p with overrun := true })) ∧
      ((s.port p).phase = .codeTaken ∨ (s.port p).phase = .parameters →
        exec (.commandAddressWrite p b) s = .next (s.withPort p { s.port p with
          phase := .codeTaken, code := b, length := 0, params := [], idleCount := 0, overrun := true })) ∧
      ((s.port p).phase = .codeTaken → 1 ≤ b.toNat → b.toNat ≤ 62 →
        exec (.dataAddressWrite p b now) s = .next (s.withPort p
          { s.port p with phase := .parameters, length := b.toNat, params := [], idleCount := 0 })) ∧
      ((s.port p).phase = .parameters → (s.port p).params.length + 1 < (s.port p).length →
        exec (.dataAddressWrite p b now) s = .next (s.withPort p
          { s.port p with params := (s.port p).params ++ [b], idleCount := 0 })))) ∧
  (∀ (p : PortId) (s : State),
    ((s.port p).phase = .codeTaken ∨ (s.port p).phase = .parameters → 10 ≤ (s.port p).idleCount →
      exec (.requestTimeout p) s = .next ((s.withDue (s.due.erase (.requestTimeout p))).withPort p
        { s.port p with phase := .idle, code := 0, length := 0, params := [], idleCount := 0, timeout := true })) ∧
    (((s.port p).phase = .idle ∨ (s.port p).phase = .complete ∨ (s.port p).idleCount < 10) →
      exec (.requestTimeout p) s = .next (s.withDue (s.due.erase (.requestTimeout p)))))

/-- The byte that completes a request makes PI judge it: PI's own refusal is in the buffer at once, in R195's order: an unknown
code or a length above 62, a port it is not permitted on, a length the catalogue does not allow; a request that passes is
handed to its owner, which takes it in the same event or later (R194, R195; the two times are the model's choice, log 29).
PORT RESET by bytes is the port reset (R199). A request may have no parameters. -/
def Obligations.CompletedRequestsAreJudged : Prop :=
  ∀ (p : PortId) (b : Byte) (now : Bool) (s : State),
    (s.port p).init = .high → (s.port p).busy = false → (s.port p).replyReady = false →
    ((s.port p).phase = .codeTaken → 62 < b.toNat → ∃ t, exec (.dataAddressWrite p b now) s = .next t ∧
      (t.port p).reply = [(s.port p).code, 2#8, 0#8] ∧ (t.port p).replyReady = true ∧ (t.port p).phase = .idle ∧
      { t with pi := s.pi } = s) ∧
    (∀ params : List Byte,
      ((s.port p).phase = .codeTaken ∧ b.toNat = 0 ∧ params = []) ∨
        ((s.port p).phase = .parameters ∧ (s.port p).params.length + 1 = (s.port p).length ∧ (s.port p).length ≤ 62 ∧
          params = (s.port p).params ++ [b]) →
      let code := (s.port p).code.toNat
      let refused (r : Result) : Prop := ∃ t, exec (.dataAddressWrite p b now) s = .next t ∧
        (t.port p).reply = [(s.port p).code, BitVec.ofNat 8 r.code, 0#8] ∧ (t.port p).replyReady = true ∧
        (t.port p).busy = false ∧ (t.port p).phase = .idle ∧ { t with pi := s.pi } = s
      (portsOf code = none → refused .badFormat) ∧
      (∀ ps, portsOf code = some ps → p ∉ ps → refused .notPermitted) ∧
      (∀ ps, portsOf code = some ps → p ∈ ps → ¬ AllowsLength code params → refused .badFormat) ∧
      (∀ ps, portsOf code = some ps → p ∈ ps → AllowsLength code params →
        ∃ i, decodeRequest p code params = some i ∧
          (i ≠ .portReset p →
            (∃ t, exec (.dataAddressWrite p b false) s = .next t ∧ t.pi.handed = s.pi.handed ++ [⟨i, false⟩] ∧
              (t.port p).busy = true ∧ (t.port p).phase = .complete ∧ { t with pi := s.pi } = s) ∧
            (.clockSet ∉ s.due →
              let u := s.withPort p { s.port p with
                phase := .complete, length := params.length, params := params, idleCount := 0, busy := true }
              exec (.dataAddressWrite p b true) s =
                .next (replyTo p code (ownerAct i u).2 (ownerAct i u).1))) ∧
          (i = .portReset p → exec (.dataAddressWrite p b now) s =
            exec (.portReset p) (s.withPort p { init := .high, dataOut := (s.port p).dataOut }))))

/-- A request row is its owner taking the request: as bytes on the port, as a request PI handed over, or, after a reset of
the port, with its reply discarded; PI's own refusals come before the owner, and a port whose init pin is low takes none
(R195, R199; log 4). While a request is at its owner or a reply waits, the bytes are dropped with OVERRUN and nothing else
changes; an open request is discarded with OVERRUN and the new one taken (R194, R197). -/
def Obligations.OwnersTakeRequests : Prop :=
  ∀ (i : Instr) (r : Request) (s : State), i.request = some r → (∀ p, i ≠ .portReset p) →
    (Arrives i r.port s → piRefusal r = none →
      exec i s = .next (replyTo r.port r.code (ownerAct i s).2 (ownerAct i s).1)) ∧
    (Arrives i r.port s → ∀ x, piRefusal r = some x → exec i s = .next (replyTo r.port r.code ⟨x, []⟩ s)) ∧
    (.clockSet ∉ s.due →
      (takeHanded s.pi.handed i = none → (s.port r.port).init = .low → exec i s = .next s) ∧
      (takeHanded s.pi.handed i = none → (s.port r.port).init = .high →
        (s.port r.port).busy = true ∨ (s.port r.port).replyReady = true ∨ (s.port r.port).phase = .complete →
        exec i s = .next (s.withPort r.port { s.port r.port with overrun := true })) ∧
      (takeHanded s.pi.handed i = none → (s.port r.port).init = .high → (s.port r.port).busy = false →
        (s.port r.port).replyReady = false → (s.port r.port).phase = .codeTaken ∨ (s.port r.port).phase = .parameters →
        let u := s.withPort r.port { s.port r.port with
          phase := .idle, code := 0, length := 0, params := [], idleCount := 0, overrun := true }
        (piRefusal r = none → exec i s = .next (replyTo r.port r.code (ownerAct i u).2 (ownerAct i u).1)) ∧
        (∀ x, piRefusal r = some x → exec i s = .next (replyTo r.port r.code ⟨x, []⟩ u))) ∧
      (∀ rest, takeHanded s.pi.handed i = some (false, rest) →
        exec i s = .next (replyTo r.port r.code (ownerAct i { s with pi := { s.pi with handed := rest } }).2
          (ownerAct i { s with pi := { s.pi with handed := rest } }).1)) ∧
      (∀ rest, takeHanded s.pi.handed i = some (true, rest) →
        exec i s = .next (ownerAct i { s with pi := { s.pi with handed := rest } }).1))

/-- A notice sets its flag on all three ports; the notice line is active while a flag is set whose enable is on, and the NOTICE
bit follows it; the mask and the flags of one port are written and cleared by that port alone (R198); a port whose init pin is
low takes no flag (R199). No owner's act but PI's own, and no event inside the part, changes a port by anything but notices:
an inference from sections 10.1 to 10.4. -/
def Obligations.NoticesReachAllPorts : Prop :=
  (∀ (k : Notice) (p : PortId) (mask : Half) (s : State),
    ((raise k s).port p = { s.port p with
      flags := if (s.port p).init = .high then (s.port p).flags ||| (1#16 <<< k.bit) else (s.port p).flags }) ∧
    { raise k s with pi := s.pi } = s ∧
    ((s.port p).noticeLine = true ↔ ∃ n < 16, (s.port p).flags.getLsbD n = true ∧ (s.port p).mask.getLsbD n = true) ∧
    (s.port p).status.getLsbD 2 = (s.port p).noticeLine ∧
    (Arrives (.setNoticeMask p mask) p s → exec (.setNoticeMask p mask) s =
      .next (replyTo p 2 ⟨.ok, []⟩ (s.withPort p { s.port p with mask := mask }))) ∧
    (Arrives (.readNotices p) p s → exec (.readNotices p) s =
      .next (replyTo p 1 ⟨.ok, [(s.port p).flags.extractLsb' 8 8, (s.port p).flags.extractLsb' 0 8]⟩
        (s.withPort p { s.port p with flags := 0 })))) ∧
  (∀ (i : Instr) (s : State), (∀ p, i ≠ .readNotices p) → (∀ p m, i ≠ .setNoticeMask p m) →
    NoticesOnly s (ownerAct i s).1) ∧
  (∀ (c : Instr) (s t : State), exec c s = .next t → c.request = none → c ≠ .powerOn → c ≠ .chipReset →
    (∀ p l, c ≠ .portInit p l) → (∀ inp first later, c ≠ .blockBoundary inp first later) →
    (∀ p, c ≠ .requestTimeout p ∧ c ≠ .statusRead p ∧ c ≠ .replyByteRead p) →
    (∀ p b, c ≠ .commandAddressWrite p b) → (∀ p b now, c ≠ .dataAddressWrite p b now) → NoticesOnly s t)

/-- An entry appended to the log takes the next serial, after 4,294,967,295 the serial 1, and the time of the air clock while
it is set, and the log keeps at most 512; a repeat of one of three kinds is merged into the newest entry, up to 255 (R188,
R189, R190). -/
def Obligations.TheLogAppendsOrMerges : Prop :=
  ∀ (k : LogKind) (x : Subject) (d : Detail) (s : State),
    (∀ p, (logEntry k x d s).port p = (s.port p).raise .logNew) ∧
    { logEntry k x d s with pi := s.pi, log := s.log } = s ∧
    let time : Option Nat := if s.tb.clockSet then some s.tb.clock else none
    let fresh : LOG := ⟨⟨s.log.next, time, k, x, d, 1, none⟩ :: s.log.entries.take 511,
      if s.log.next = 4294967295 then 1 else s.log.next + 1⟩
    (k ≠ .alertDuplicate → k ≠ .siteCommandFailed → ¬ (k = .dump ∧ d = .number 0) → (logEntry k x d s).log = fresh) ∧
    (s.log.entries = [] → (logEntry k x d s).log = fresh) ∧
    (∀ e rest, s.log.entries = e :: rest → (e.kind ≠ k ∨ e.subject ≠ x ∨ e.detail ≠ d ∨ 255 ≤ e.repeats) →
      (logEntry k x d s).log = fresh) ∧
    (∀ e rest, s.log.entries = e :: rest → (k = .alertDuplicate ∨ k = .siteCommandFailed ∨ (k = .dump ∧ d = .number 0)) →
      e.kind = k → e.subject = x → e.detail = d → e.repeats < 255 →
      (logEntry k x d s).log = { s.log with
        entries := { e with repeats := e.repeats + 1, lastTime := some time } :: rest })

/-! ### Timebase -/

/-- SELECT CLOCK: a value outside the three sources, a source that is not good, the current source, and another good source
(R9); INTERNAL is always good, HOUSE with a count of 200, LINK in UP (R8). While a chip reset's switch to INTERNAL is pending
(R20), naming the source still in use is a selection as of another source (log 27). A selection replaces one that a boundary left due,
and waits for the next boundary (R9, R10). SET CLOCK keeps a time of day as the
pending time, replacing an earlier one (R13). -/
def Obligations.ClockRequestsAreJudged : Prop :=
  (∀ (b : Byte) (s : State), RefusedOff [.b] (fun p => .selectClock p b) 9 s ∧
    (Arrives (.selectClock .b b) .b s →
      (2 < b.toNat → exec (.selectClock .b b) s = .next (replyTo .b 9 ⟨.badValue, []⟩ s)) ∧
      ∀ src : ClockSource, b.toNat = src.place →
        let good := src = .internal ∨ (src = .house ∧ 200 ≤ s.tb.houseCount) ∨ (src = .link ∧ s.tb.link = .up)
        (¬ good → exec (.selectClock .b b) s = .next (replyTo .b 9 ⟨.wrongState, []⟩ s)) ∧
        (good → src = s.tb.source → s.tb.toInternal = false → exec (.selectClock .b b) s =
          .next (replyTo .b 9 ⟨.ok, []⟩ { s with tb := { s.tb with pendingSource := none } })) ∧
        (good → src ≠ s.tb.source ∨ s.tb.toInternal = true → exec (.selectClock .b b) s =
          .next (replyTo .b 9 ⟨.pending, []⟩ { s with
            due := s.due.erase .clockSelect, tb := { s.tb with pendingSource := some src } })))) ∧
  (∀ (time : Long) (s : State), RefusedOff [.a, .b] (fun p => .setClock p time) 10 s ∧
    ∀ p, p = .a ∨ p = .b → Arrives (.setClock p time) p s →
      (17280000 ≤ time.toNat → exec (.setClock p time) s = .next (replyTo p 10 ⟨.badValue, []⟩ s)) ∧
      (time.toNat < 17280000 → exec (.setClock p time) s =
        .next (replyTo p 10 ⟨.pending, []⟩ { s with tb := { s.tb with pendingTime := some time.toNat } })))

/-- At the boundary after it, a pending SET CLOCK gives the air clock its value, sets the flag, leaves the report for CUE and
SITE and raises CLOCK, with no log entry (R13); the change is FORWARD for a step of 1 to 8,640,000 and passes over the times
after the old value up to the new one (R14); whatever an owner takes after that boundary stands after it (R12; log 2). A
pending selection is carried out when its source is still good, and either way CLOCK is raised (R10). A period qualifies for HOUSE
with a word clock edge in each of its 240 sample periods and a rate within 500 parts per million; one that does raises the count by one,
up to 200, at which HOUSE is good, and one that does not clears it, whatever it was; when HOUSE was the current source TB then falls
back to INTERNAL with a CLOCK FALLBACK entry and CLOCK raised (R8, R11), unless a chip reset's switch awaits the boundary
(R20; log 27). The rows HOUSE LOCK and HOUSE SYNC LOSS take the judgement that brings the count to 200, or that HOUSE from good to not
good, and change nothing where another is due (log 3). -/
def Obligations.ClockEventsOfABoundary : Prop :=
  (∀ s : State,
    (∀ n, .clockSet ∈ s.due → s.tb.pendingTime = some n → exec .clockSetTakesEffect s = .next (raise .clock { s with
      due := s.due.erase .clockSet
      tb := { s.tb with clock := n, clockSet := true, pendingTime := none
                        report := some ⟨s.tb.clock, n, s.tb.clockSet⟩ } })) ∧
    (∀ src, DueNow .clockSelect s → s.tb.pendingSource = some src → exec .clockSelectionTaken s = .next (raise .clock { s with
      due := s.due.erase .clockSelect
      tb := { s.tb with source := if s.tb.good src then src else s.tb.source, pendingSource := none } }))) ∧
  (∀ (r : ClockReport) (x : Nat), r.old < 17280000 → r.new < 17280000 → x < 17280000 →
    let after (y : Nat) : Int := if (y : Int) - r.old < 0 then (y : Int) - r.old + 17280000 else (y : Int) - r.old
    (r.step : Int) = after r.new ∧ (r.forward = true ↔ 1 ≤ after r.new ∧ after r.new ≤ 8640000) ∧
    (r.passes x = true ↔ 1 ≤ after x ∧ after x ≤ after r.new)) ∧
  (∀ (c : Instr) (s u : State), .clockSet ∈ s.due → s.tb.pendingTime ≠ none → exec .clockSetTakesEffect s = .next u →
    .clockSet ∉ u.due →
    (c.request ≠ none ∧ ∀ p, c ≠ .portReset p) ∨ (∃ p, c = .portReset p ∧ (s.port p).Free) ∨ c = .chipReset ∨
      (∃ k l, c = .keyLineEdge k l) ∨ c = .dropLines ∨ c = .dumpReport ∨ c = .joinEndRelease ∨
      c = .withdrawalWithoutRecord ∨
      (∃ l, c = .ringEdge l ∨ c = .ringTimeout l ∨ c = .loopSenseDrop l ∨ c = .clearingEnd l) →
    exec c s = exec c u) ∧
  (∀ (inp : PeriodInput) (later : List DueKind) (s : State), s.due = [] → (∀ k, k ≠ .house → k ∈ later) →
    ∃ t, exec (.blockBoundary inp [.house] later) s = .next t ∧
      let qualifies := 240 ≤ inp.houseEdges ∧ -500 ≤ inp.housePpm ∧ inp.housePpm ≤ 500
      let falls := ¬ qualifies ∧ s.tb.source = .house ∧ s.tb.toInternal = false
      (qualifies → s.tb.houseCount < 200 → t.tb.houseCount = s.tb.houseCount + 1) ∧
      (qualifies → 200 ≤ s.tb.houseCount → t.tb.houseCount = 200) ∧ (¬ qualifies → t.tb.houseCount = 0) ∧
      (t.tb.good .house = true ↔ qualifies ∧ 199 ≤ s.tb.houseCount) ∧
      (falls → t.tb.source = .internal ∧ t.tb.pendingSource = none ∧
        (∀ p, (s.port p).init = .high → (t.port p).flags.getLsbD 13 = true) ∧
        (KeysSampled s → t.log = s.log.append (stamp t) .clockFallback .none (.source .house))) ∧
      (¬ falls → s.tb.source ≠ .link ∨ s.tb.link = .up ∨ s.tb.toInternal = true →
        t.tb.source = (if s.tb.toInternal then .internal else s.tb.source) ∧ t.tb.pendingSource = s.tb.pendingSource ∧
        (KeysSampled s → t.log = s.log))) ∧
  (∀ s : State, DueNow .house s →
    (s.tb.houseOk = false ∨ s.tb.houseCount ≠ 199 → exec .houseLock s = .next s) ∧
    (s.tb.houseOk = true ∨ s.tb.houseCount < 200 → exec .houseSyncLoss s = .next s) ∧
    (s.tb.houseOk = true → s.tb.houseCount = 199 → exec .houseLock s = .next { s with
      due := s.due.erase .house, tb := { s.tb with houseCount := 200 } }) ∧
    (s.tb.houseOk = false → 200 ≤ s.tb.houseCount → s.tb.source = .internal ∨ s.tb.toInternal = true →
      exec .houseSyncLoss s = .next { s with due := s.due.erase .house, tb := { s.tb with houseCount := 0 } }) ∧
    (s.tb.houseOk = false → 200 ≤ s.tb.houseCount → s.tb.source = .house → s.tb.toInternal = false → exec .houseSyncLoss s =
      .next (raise .clock (logEntry .clockFallback .none (.source .house) { s with
        due := s.due.erase .house
        tb := { s.tb with houseCount := 0, source := .internal, pendingSource := none } }))))

/-- SET KEY LINE writes the record of a line: an edge with TAKE, DUMP, FORWARD and DROP LINES, an active level with SAFE, and
KEY is judged in the same event (R15, R18). That HIGH is sent as 0 and LOW as 1 is log 5, by section 10.6's order. -/
def Obligations.SetKeyLineWritesTheRecord : Prop :=
  ∀ (line action edge level : Byte) (s : State), RefusedOff [.b] (fun p => .setKeyLine p line action edge level) 11 s ∧
    (Arrives (.setKeyLine .b line action edge level) .b s →
      (line.toNat = 0 ∨ 4 < line.toNat ∨ 5 < action.toNat ∨ 3 < edge.toNat ∨ 1 < level.toNat →
        exec (.setKeyLine .b line action edge level) s = .next (replyTo .b 11 ⟨.badValue, []⟩ s)) ∧
      ∀ (k : Nth) (a : KeyAction) (e : KeyEdge) (l : Level),
        line.toNat = k.number → action.toNat = a.place → edge.toNat = e.place → level.toNat = Level.place l →
        ∃ t, exec (.setKeyLine .b line action edge level) s = .next (replyTo .b 11 ⟨.ok, []⟩ t) ∧
          t.tb.keys = s.tb.keys.set k { s.tb.keys.get k with
            action := a
            edge := if a = .none ∨ a = .safe then .none else e
            active := if a = .safe then l else .high } ∧
          (t.tb.keyHeld = true ↔ ∃ n, (t.tb.keys.get n).action = .safe ∧
            (t.tb.keys.get n).settled = (t.tb.keys.get n).active) ∧
          (s.out.reasons.key = s.tb.keyHeld → t.out.reasons.key = t.tb.keyHeld) ∧
          { t with tb := s.tb, out := s.out, log := s.log, pi := s.pi } = s)

/-- A change of a key line's settled level judges KEY, logging SAFE ON or SAFE OFF where the reasons begin or end, and, where the
edge matches, hands the action to its owner: TAKE, FORWARD and DUMP do what the request does but for its reply, a DUMP key in
BYPASS logs a DUMP of 0, DROP LINES is handed to LSW; SAFE, NONE and an edge that does not match hand nothing (R16, R17, R18,
R119, R139). The first settling is no edge, and a level the line has is no change. -/
def Obligations.KeyLineEdgesActOnce : Prop :=
  ∀ (k : Nth) (l : Level) (s : State), .clockSet ∉ s.due →
    let r := s.tb.keys.get k
    let held := s.tb.keys.toList.any KeyLine.holds
    let settled : State := { s with
      due := s.due.erase (.keyEdge k)
      tb := { s.tb with keys := s.tb.keys.set k { r with settled := l, sampled := true, differed := false } } }
    (r.sampled = true → r.settled = l →
      exec (.keyLineEdge k l) s = .next (clearMarks (s.withDue (s.due.erase (.keyEdge k))))) ∧
    (r.sampled = true → r.settled = otherLevel l → r.edge.acts l = true → r.action ≠ .safe → held = s.tb.keyHeld →
      (r.action = .none → exec (.keyLineEdge k l) s = .next (clearMarks settled)) ∧
      (r.action = .dropLines →
        exec (.keyLineEdge k l) s = .next (clearMarks { settled with due := settled.due ++ [.dropLines] })) ∧
      (r.action = .dump → s.dly.state = .run .bypass →
        exec (.keyLineEdge k l) s = .next (clearMarks (logEntry .dump .none (.number 0) settled))) ∧
      (r.action = .dump → s.dly.state ≠ .run .bypass → Arrives (.dump .b) .b settled → ∃ x t,
        exec (.dump .b) settled = .next (replyTo .b 59 x t) ∧ exec (.keyLineEdge k l) s = .next (clearMarks t)) ∧
      (r.action = .take → Arrives (.take .a none) .a settled → ∃ x t,
        exec (.take .a none) settled = .next (replyTo .a 29 x t) ∧ exec (.keyLineEdge k l) s = .next t) ∧
      (r.action = .forward → s.alc.pendingHead = none → exec (.keyLineEdge k l) s = .next (clearMarks settled)) ∧
      (∀ e a, r.action = .forward → s.alc.pendingHead = some e → s.air.mode ≠ .test → s.alc.onAir = some a →
        a.header.pair ≠ e.header.pair → e.header.priority ≤ a.header.priority →
        exec (.keyLineEdge k l) s = .next (clearMarks (raise .alertState
          (logEntry .alertForwarded (.alert e.header.pair) (.forwarded .key) { settled with alc := { s.alc with
            queue := s.alc.queue.map fun x => if x.header.pair = e.header.pair then { x with
                state := .ready, hold := 0
                advisory := if x.header.priority = 1 then s.alc.advisoryWait else 0 } else x } }))))) ∧
    (r.sampled = false ∨ (r.settled = otherLevel l ∧ (r.edge.acts l = false ∨ r.action = .safe)) →
      ∃ t, exec (.keyLineEdge k l) s = .next t ∧
        (t.tb.keyHeld = true ↔ ∃ n, (t.tb.keys.get n).action = .safe ∧ (t.tb.keys.get n).settled = (t.tb.keys.get n).active) ∧
        (t.tb.keyHeld = s.tb.keyHeld → t = clearMarks settled) ∧
        (s.out.reasons.key = s.tb.keyHeld → t.out.reasons = { s.out.reasons with key := t.tb.keyHeld } ∧
          (t.tb.keyHeld = true → s.out.reasons = {} → t.log = s.log.append (stamp s) .safeOn .none (.reason .key)) ∧
          (t.tb.keyHeld = false → s.out.reasons = { key := true } →
            t.log = s.log.append (stamp s) .safeOff .none (.reason .key)) ∧
          (t.tb.keyHeld ≠ s.tb.keyHeld → ∀ p, (s.port p).init = .high → (t.port p).flags.getLsbD 10 = true)) ∧
        { t with tb := { s.tb with keys := settled.tb.keys }, out := s.out, log := s.log, pi := s.pi } = clearMarks settled)

/-! ### The air context -/

/-- SET MODE: the checks in their order, and a change of mode with its MODE CHANGE entry, TEST's safe reason and OUT's judgement
of SILENCE (R22, R23, R157). -/
def Obligations.SetModeChangesTheAirMode : Prop :=
  ∀ (b : Byte) (s : State), RefusedOff [.b] (fun p => .setMode p b) 17 s ∧
    (Arrives (.setMode .b b) .b s →
      (3 < b.toNat → exec (.setMode .b b) s = .next (replyTo .b 17 ⟨.badValue, []⟩ (clearMarks s))) ∧
      ∀ m : Mode, b.toNat = m.place →
        (m = s.air.mode → exec (.setMode .b b) s = .next (replyTo .b 17 ⟨.ok, []⟩ (clearMarks s))) ∧
        (m ≠ s.air.mode → m ≠ .live → s.air.mode ≠ .live →
          exec (.setMode .b b) s = .next (replyTo .b 17 ⟨.wrongMode, []⟩ (clearMarks s))) ∧
        (m ≠ s.air.mode → m = .live ∨ s.air.mode = .live → s.air.stack ≠ [] ∨ s.air.chain ≠ .none →
          exec (.setMode .b b) s = .next (replyTo .b 17 ⟨.inUse, []⟩ (clearMarks s))) ∧
        (m ≠ .live → s.air.mode = .live → s.air.stack = [] → s.air.chain = .none → s.lsw.anyIn .air = true →
          exec (.setMode .b b) s = .next (replyTo .b 17 ⟨.inUse, []⟩ (clearMarks s))) ∧
        (m ≠ s.air.mode → m = .live ∨ (s.air.mode = .live ∧ s.lsw.anyIn .air = false) → s.air.stack = [] →
          s.air.chain = .none → s.alc.readyHead = none →
          ∃ t, exec (.setMode .b b) s = .next (replyTo .b 17 ⟨.ok, []⟩ t) ∧ t.air = { s.air with mode := m } ∧
            (t.log.entries.find? fun e => decide (e.kind = .modeChange)).map (·.detail) = some (.mode m false) ∧
            (m = .test → t.out.reasons.test = true) ∧ (s.air.mode = .test → t.out.reasons.test = false) ∧
            t.out.reasons.silence = (s.out.deadAir && (s.out.failover || decide (m = .unattended))) ∧
            { t with air := s.air, out := s.out, log := s.log, pi := s.pi } = clearMarks s))

/-- The maximum depth is 1 to 4, never below the depth at the request; it is 3 after power-on and chip reset (R30). -/
def Obligations.SetMaxDepthKeepsTheDepth : Prop :=
  State.reset.air.maxDepth = 3 ∧ (∀ s, ∃ t, exec .chipReset s = .next t ∧ t.air.maxDepth = 3) ∧
  ∀ (b : Byte) (s : State), RefusedOff [.b] (fun p => .setMaxDepth p b) 18 s ∧
    (Arrives (.setMaxDepth .b b) .b s →
      (b.toNat = 0 ∨ 4 < b.toNat → exec (.setMaxDepth .b b) s = .next (replyTo .b 18 ⟨.badValue, []⟩ s)) ∧
      (1 ≤ b.toNat → b.toNat ≤ 4 → b.toNat < s.air.stack.length →
        exec (.setMaxDepth .b b) s = .next (replyTo .b 18 ⟨.inUse, []⟩ s)) ∧
      (1 ≤ b.toNat → b.toNat ≤ 4 → s.air.stack.length ≤ b.toNat → exec (.setMaxDepth .b b) s =
        .next (replyTo .b 18 ⟨.ok, []⟩ { s with air := { s.air with maxDepth := b.toNat } })))

/-- LIVE INSERT: the checks in their order; then, with no crossfade in progress, a record that keeps the source, the PLAYING entry and the lines in AIR, with
the sequence held, the lines parked and a LIVE INSERT START entry (R31, R34, R70, R101). With no record free, which no run reaches,
the number 1 is the model's, log 43. -/
def Obligations.LiveInsertPushesARecord : Prop :=
  ∀ s : State, RefusedOff [.b] .liveInsert 19 s ∧
    (Arrives (.liveInsert .b) .b s →
      (s.air.mode = .live ∨ s.air.mode = .test →
        exec (.liveInsert .b) s = .next (replyTo .b 19 ⟨.wrongMode, []⟩ (clearMarks s))) ∧
      (s.air.mode = .auto ∨ s.air.mode = .unattended → s.air.chain ≠ .none ∨ s.air.insertRecord.isSome = true →
        exec (.liveInsert .b) s = .next (replyTo .b 19 ⟨.wrongState, []⟩ (clearMarks s))) ∧
      (s.air.mode = .auto ∨ s.air.mode = .unattended → s.air.chain = .none → s.air.insertRecord = none →
        s.air.maxDepth ≤ s.air.stack.length →
        exec (.liveInsert .b) s = .next (replyTo .b 19 ⟨.stackFull, []⟩ (clearMarks s))) ∧
      (s.air.mode = .auto ∨ s.air.mode = .unattended → s.air.chain = .none → s.air.insertRecord = none →
        s.air.stack.length < s.air.maxDepth → s.cue.fading = none →
        ∃ t, exec (.liveInsert .b) s = .next (replyTo .b 19 ⟨.ok, []⟩ t) ∧
          (∃ r, t.air.stack = r :: s.air.stack ∧ r.kind = .liveInsert ∧ r.number = s.air.free.headD 1 ∧
            r.before = selectedSource s ∧ r.suspended = (s.cue.playing.map fun e => (e.serial, e.elapsed)) ∧
            r.parked = s.lsw.airPairs ∧ r.delayBefore = none ∧ r.late = none) ∧
          t.air.free = s.air.free.drop 1 ∧ t.air.mode = s.air.mode ∧ t.air.chain = .none ∧ t.cue.held = true ∧
          (∀ e, s.cue.playing = some e → { e with state := .suspended } ∈ t.cue.list) ∧ (∀ l, s.line l = .air → t.line l = .parked) ∧
          (∀ l, s.line l ≠ .air → t.lsw.lines.get l = s.lsw.lines.get l) ∧
          t.log.entries.head?.map (·.kind) = some .liveInsertStart ∧
          t.dly = s.dly ∧ t.alc = s.alc ∧ t.out = s.out ∧ t.lnk = s.lnk ∧ t.site = s.site ∧ t.tb = s.tb))

/-- LIVE INSERT END with no such record is refused; with one at the top and no chain on air, the record goes to the free list,
LIVE INSERT END is logged, and what it saved comes back: a suspended ITEM by its policy (RESUME, RESTART, SKIP), a JOIN where
the network then is or, past its join end, as DONE, the ITEM's run line up unless R61 holds it low (log 41), each parked line to its slot or,
in BYPASS without live calls, to HOLD; the sequence is released when the stack is empty (R37, R39, R41, R61, R71, R72, R73, R102). A record below the top is withdrawn and the
record above takes what it saved (R40; log 55). The end of a JOIN at its restore, or a withdrawal while a chain without a record holds
the air, ends the BREAK-IN record that the report names (R36, R39, R44): the first gives back what that record saved, the second, as
LIVE INSERT END with the insert at the top in such a chain, does not: the entry leaves as ITEM SKIPPED, NO CONTEXT, a JOIN with a
further withdrawal due, and the lines go to HOLD (R41, R44). That an ITEM SKIPPED stands before the LIVE INSERT END or JOIN END
of its event is log 54. Entries given back are stated for a list of that one entry, with no alert ready. -/
def Obligations.RecordsAreReleased : Prop :=
  (∀ s : State, RefusedOff [.b] .liveInsertEnd 20 s ∧
    (Arrives (.liveInsertEnd .b) .b s →
      (s.air.insertRecord = none →
        exec (.liveInsertEnd .b) s = .next (replyTo .b 20 ⟨.wrongState, []⟩ (clearMarks s))) ∧
      (∀ r rest, s.air.stack = r :: rest → r.kind = .liveInsert → r.suspended = none → r.parked = [] → s.air.chain = .none →
        (∀ x ∈ rest, x.number ≠ r.number) → s.cue.list = [] →
        exec (.liveInsertEnd .b) s = .next (replyTo .b 20 ⟨.ok, []⟩ (clearMarks (logEntry .liveInsertEnd .none (.number 0)
          { s with air := { s.air with stack := rest, free := r.number :: s.air.free }
                   cue := { s.cue with held := if rest = [] then false else s.cue.held } })))) ∧
      (∀ above r rest, s.air.stack = above :: r :: rest → r.kind = .liveInsert → above.kind ≠ .liveInsert →
        above.number ≠ r.number → exec (.liveInsertEnd .b) s = .next (replyTo .b 20 ⟨.ok, []⟩ (clearMarks
          (logEntry .liveInsertEnd .none (.number 0) { s with air := { s.air with
            stack := { above with before := r.before, suspended := r.suspended, parked := above.parked ++ r.parked } :: rest
            free := r.number :: s.air.free } })))) ∧
      (∀ r rest e el, s.air.stack = r :: rest → r.kind = .liveInsert → r.suspended = some (e.serial, el) → r.parked = [] →
        s.air.chain = .none → (∀ x ∈ rest, x.number ≠ r.number) → s.cue.list = [e] → e.state = .suspended →
        s.alc.readyHead = none →
        let ended (list : List CueEntry) (bit : Nat) (log : LOG) (due : List Due) : Prop :=
          ∃ t, exec (.liveInsertEnd .b) s = .next (replyTo .b 20 ⟨.ok, []⟩ t) ∧ t.cue.list = list ∧
            (∀ p, (s.port p).init = .high → (t.port p).flags.getLsbD bit = true) ∧
            t.log = log.append (stamp s) .liveInsertEnd .none (.number 0) ∧ t.due = due ∧
            t.air = { s.air with stack := rest, free := r.number :: s.air.free } ∧
            t.cue.held = (if rest = [] then false else s.cue.held) ∧
            (∀ ch, e.player = some ch → list ≠ [] → (t.cue.run.get ch).high = (s.cue.run.get ch).riseAfter.isNone) ∧
            { t with air := s.air, cue := s.cue, due := s.due, log := s.log, pi := s.pi } = s
        let again (elapsed : Nat) : CueEntry := { e with state := .playing, elapsed := elapsed, begun := s.boundaryNo }
        (∀ ch len g, e.kind = .item ch len g .resume → ended [again el] 0 s.log s.due) ∧
        (∀ ch len g, e.kind = .item ch len g .restart → ended [again 0] 0 s.log s.due) ∧
        (∀ ch len g, e.kind = .item ch len g .skip →
          ended [] 1 (s.log.append (stamp s) .itemSkipped (.cue e.serial) (.skipped .policy)) s.due) ∧
        (∀ f len stop, e.kind = .join f len → e.joinEnd = some stop →
          let left := (stop + 17280000 - s.tb.clock) % 17280000
          (1 ≤ left → left ≤ len → ended [again (len - left)] 0 s.log s.due) ∧
          (left = 0 ∨ len < left → (rest = [] → ended [] 1 s.log s.due) ∧
            ∀ below deeper, rest = below :: deeper → below.kind = .breakIn →
              ended [] 1 s.log (s.due ++ [.joinEnd below.number e.serial])))) ∧
      (∀ r rest l slot, s.air.stack = r :: rest → r.kind = .liveInsert → r.suspended = none → r.parked = [(l, slot)] →
        s.air.chain = .none → (∀ x ∈ rest, x.number ≠ r.number) → s.cue.list = [] → s.line l = .parked →
        s.lsw.anyIn .air = false →
        ∃ t, exec (.liveInsertEnd .b) s = .next (replyTo .b 20 ⟨.ok, []⟩ t) ∧
          t.air = { s.air with stack := rest, free := r.number :: s.air.free } ∧
          t.log = s.log.append (stamp s) .liveInsertEnd .none (.number 0) ∧
          (∀ m, m ≠ l → t.lsw.lines.get m = s.lsw.lines.get m) ∧
          (∀ p, (s.port p).init = .high → (t.port p).flags.getLsbD 5 = true) ∧
          (s.dly.state ≠ .run .bypass ∨ s.lsw.liveCalls = true →
            t.lsw.lines.get l = { s.lsw.lines.get l with
              state := .air, waiting := none, onAir := some ((s.lsw.lines.get l).onAir.getD (0, 0)) } ∧
            (slot = .a → t.lsw.slotA = some l) ∧ (slot = .b → t.lsw.slotB = some l) ∧
            t.due = s.due ++ [.gateReport true s.lsw.liveCalls]) ∧
          (s.dly.state = .run .bypass → s.lsw.liveCalls = false → t.due = s.due ∧
            t.lsw = { s.lsw with
              queue := s.lsw.queue.filter fun m => !decide (m = l)
              slotA := if s.lsw.slotA = some l then none else s.lsw.slotA
              slotB := if s.lsw.slotB = some l then none else s.lsw.slotB
              lines := s.lsw.lines.set l { s.lsw.lines.get l with state := .hold, waiting := some 0 } }) ∧
          { t with air := s.air, cue := s.cue, lsw := s.lsw, due := s.due, log := s.log, pi := s.pi } = s) ∧
      (∀ r rest, s.air.stack = r :: rest → r.kind = .liveInsert → s.air.chain = .withoutContext →
        (∀ x ∈ rest, x.number ≠ r.number) →
        Withdraws r rest (fun log => log.append (stamp s) .liveInsertEnd .none (.number 0)) s.due s
          fun t => exec (.liveInsertEnd .b) s = .next (replyTo .b 20 ⟨.ok, []⟩ t)))) ∧
  (∀ (r : ContextRecord) (rest : List ContextRecord) (n : Nat) (s : State),
    s.air.stack = r :: rest → r.kind = .breakIn → (∀ x ∈ rest, x.number ≠ r.number) →
    let joinEnd (log : LOG) : LOG := log.append (stamp s) .joinEnd (.cue n) (.number 0)
    (s.due = [.joinEnd r.number n] → s.air.chain = .none → s.alc.readyHead = none →
      GivesBack r rest s.cue.list (s.dly.state = .run .bypass) id joinEnd [] s
        fun t => exec .joinEndRelease s = .next t ∧ t.air = { s.air with stack := rest, free := r.number :: s.air.free } ∧
          { t with air := s.air, cue := s.cue, lsw := s.lsw, due := s.due, log := s.log, pi := s.pi } = s) ∧
    (s.due = [.withdrawal r.number n] → s.air.chain = .withoutContext →
      Withdraws r rest joinEnd [] s fun t => exec .withdrawalWithoutRecord s = .next t)) ∧
  (∀ (r : ContextRecord) (rest : List ContextRecord) (n : Nat) (s : State),
    s.air.stack = r :: rest → r.kind = .breakIn → r.suspended = none → r.parked = [] →
    (∀ x ∈ rest, x.number ≠ r.number) → s.cue.list = [] →
    (s.due = [.joinEnd r.number n] → s.air.chain = .none → exec .joinEndRelease s =
      .next (clearMarks (logEntry .joinEnd (.cue n) (.number 0) { s with
        due := [], air := { s.air with stack := rest, free := r.number :: s.air.free }
        cue := { s.cue with held := if rest = [] then false else s.cue.held } }))) ∧
    (s.due = [.withdrawal r.number n] → s.air.chain = .withoutContext → exec .withdrawalWithoutRecord s =
      .next (clearMarks (logEntry .joinEnd (.cue n) (.number 0) { s with
        due := [], air := { s.air with stack := rest, free := r.number :: s.air.free } }))))

/-! ### The cue list -/

/-- APPEND and INSERT: a field out of range, a full list, and an anchor not in the list are refused; in LIVE the entry takes
the next serial that is free, stands at the tail, at the head, or just after its anchor, and no other entry moves (R53, R57,
R58). That serial is the first from the counter's value on, 65535 followed by 1, that no entry has (R53). In an automatic mode an
APPEND to an empty list starts the entry at once, but for a STOP, a HARD entry, a break-in and a held sequence, its run line up
unless R61 holds it low (log 41); in UNATTENDED a STOP is passed over in the event (R57, R61, R66, R67, R72). Which fields make which
entry, with their ranges, is written out first (R57; the bytes of names and channels by section 10.6, log 5); that the time sent with
timing NONE and the fade length sent with CUT are not checked is the model's choice, log 59. -/
def Obligations.AppendAndInsertAddAnEntry : Prop :=
  ∀ (p : PortId) (anchor : Half) (f : EntryFields) (s : State),
    RefusedOff [.a, .b] (fun p => .append p f) 25 s ∧ RefusedOff [.a, .b] (fun p => .insert p anchor f) 26 s ∧
    (∀ k, cueKindOf f = some k ↔
      (f.kind.toNat = 0 ∧ ∃ ch len g pol, k = .item ch len g pol ∧ [Nth.n1, .n2, .n3, .n4][f.channel.toNat]? = some ch ∧
        ((f.length.toNat = 0 ∧ len = none) ∨
          (1 ≤ f.length.toNat ∧ f.length.toNat ≤ 1440000 ∧ len = some f.length.toNat)) ∧
        ((f.segue.toNat = 0 ∧ g = .cut) ∨
          (f.segue.toNat = 1 ∧ 1 ≤ f.fade.toNat ∧ f.fade.toNat ≤ 400 ∧ g = .fade f.fade.toNat ∧
            ∀ l, len = some l → f.fade.toNat < l)) ∧
        [Policy.resume, .restart, .skip][f.policy.toNat]? = some pol) ∨
      (f.kind.toNat = 1 ∧ 1 ≤ f.length.toNat ∧ f.length.toNat ≤ 1440000 ∧
        ((f.channel.toNat = 4 ∧ k = .join .netA f.length.toNat) ∨ (f.channel.toNat = 5 ∧ k = .join .netB f.length.toNat))) ∨
      (f.kind.toNat = 2 ∧ k = .stop)) ∧
    (∀ k t, timingOf k f = some t ↔
      (f.timing.toNat = 0 ∧ t = .none) ∨
      (f.timing.toNat = 1 ∧ k ≠ .stop ∧ f.time.toNat < 17280000 ∧ t = .hard f.time.toNat) ∨
      (f.timing.toNat = 2 ∧ (∃ feed len, k = .join feed len) ∧ f.time.toNat < 17280000 ∧ t = .breakIn f.time.toNat)) ∧
    (1 ≤ s.cue.counter → s.cue.counter ≤ 65535 → s.cue.list.length ≤ 64 →
      let from_ (j : Nat) : Nat := (s.cue.counter - 1 + j) % 65535 + 1
      ∃ k, s.cue.nextSerial = from_ k ∧ (∀ e ∈ s.cue.list, e.serial ≠ from_ k) ∧
        ∀ j < k, ∃ e ∈ s.cue.list, e.serial = from_ j) ∧
    (p = .a ∨ p = .b → Arrives (.append p f) p s → Arrives (.insert p anchor f) p s →
      (2 < f.kind.toNat ∨ cueKindOf f = none ∨ (∃ k, cueKindOf f = some k ∧ timingOf k f = none) →
        exec (.append p f) s = .next (replyTo p 25 ⟨.badValue, []⟩ (clearMarks s)) ∧
        exec (.insert p anchor f) s = .next (replyTo p 26 ⟨.badValue, []⟩ (clearMarks s))) ∧
      ∀ k t, cueKindOf f = some k → timingOf k f = some t →
        (64 ≤ s.cue.list.length →
          exec (.append p f) s = .next (replyTo p 25 ⟨.full, []⟩ (clearMarks s)) ∧
          exec (.insert p anchor f) s = .next (replyTo p 26 ⟨.full, []⟩ (clearMarks s))) ∧
        (s.cue.list.length < 64 → s.air.mode = .live →
          ∃ u, exec (.append p f) s = .next (replyTo p 25 ⟨.ok, beBytes 2 s.cue.nextSerial⟩ u) ∧
            u.cue.list.map CueEntry.identity = s.cue.list.map CueEntry.identity ++ [(s.cue.nextSerial, k, t, f.logRef)] ∧
            u.cue.counter = (if s.cue.nextSerial = 65535 then 1 else s.cue.nextSerial + 1) ∧
            { u with cue := s.cue, pi := s.pi } = s) ∧
        (s.cue.list = [] →
          let added : CueEntry := { serial := s.cue.nextSerial, kind := k, timing := t, logRef := f.logRef, added := s.boundaryNo }
          let appended (u : State) : Prop := exec (.append p f) s = .next (replyTo p 25 ⟨.ok, beBytes 2 s.cue.nextSerial⟩ u) ∧
            u.cue.counter = (if s.cue.nextSerial = 65535 then 1 else s.cue.nextSerial + 1)
          let starts (joinEnd : Option Nat) (u : State) : Prop := appended u ∧
            u.cue.list = [{ added with state := .playing, elapsed := 0, joinEnd := joinEnd, begun := s.boundaryNo }] ∧
            (∀ q, (s.port q).init = .high → (u.port q).flags.getLsbD 0 = true) ∧ { u with cue := s.cue, pi := s.pi } = s
          (s.air.mode ≠ .live → s.cue.held = false → t = .none → s.alc.readyHead = none →
            (∀ ch len g pol, k = .item ch len g pol → ∃ u, starts none u ∧ (u.cue.run.get ch).high = (s.cue.run.get ch).riseAfter.isNone ∧
              ∀ c, c ≠ ch → (u.cue.run.get c).high = (s.cue.run.get c).high) ∧
            (∀ feed len, k = .join feed len → ∃ u, starts (some ((s.tb.clock + len) % 17280000)) u ∧
              ∀ c, (u.cue.run.get c).high = (s.cue.run.get c).high)) ∧
          (s.air.mode ≠ .live → (k = .stop ∧ s.air.mode ≠ .unattended) ∨ (∃ x, t = .hard x) ∨ (∃ x, t = .breakIn x) ∨
              (k ≠ .stop ∧ s.cue.held = true) →
            ∃ u, appended u ∧ (∀ c, (u.cue.run.get c).high = (s.cue.run.get c).high) ∧
              u.cue.list = [{ added with state := match t with | .breakIn _ => .waiting | _ => .cued }] ∧
              { u with cue := s.cue, pi := s.pi } = s) ∧
          (s.air.mode = .unattended → k = .stop → ∃ u, appended u ∧ u.cue.list = [] ∧
            u.log = s.log.append (stamp s) .itemSkipped (.cue s.cue.nextSerial) (.skipped .stopPassed) ∧
            { u with cue := s.cue, log := s.log, pi := s.pi } = s)) ∧
        (s.cue.list.length < 64 → anchor.toNat ≠ 0 → (∀ e ∈ s.cue.list, e.serial ≠ anchor.toNat) →
          exec (.insert p anchor f) s = .next (replyTo p 26 ⟨.notFound, []⟩ (clearMarks s))) ∧
        (s.cue.list.length < 64 → anchor.toNat = 0 → s.air.mode = .live →
          ∃ u, exec (.insert p anchor f) s = .next (replyTo p 26 ⟨.ok, beBytes 2 s.cue.nextSerial⟩ u) ∧
            u.cue.list.map CueEntry.identity = (s.cue.nextSerial, k, t, f.logRef) :: s.cue.list.map CueEntry.identity ∧
            u.cue.counter = (if s.cue.nextSerial = 65535 then 1 else s.cue.nextSerial + 1) ∧
            { u with cue := s.cue, pi := s.pi } = s) ∧
        (∀ before e after, s.cue.list.length < 64 → s.air.mode = .live → s.cue.list = before ++ e :: after →
          e.serial = anchor.toNat → anchor.toNat ≠ 0 → (∀ x ∈ before, x.serial ≠ anchor.toNat) →
          ∃ u, exec (.insert p anchor f) s = .next (replyTo p 26 ⟨.ok, beBytes 2 s.cue.nextSerial⟩ u) ∧
            u.cue.list.map CueEntry.identity = (before ++ [e]).map CueEntry.identity ++
              (s.cue.nextSerial, k, t, f.logRef) :: after.map CueEntry.identity ∧
            u.cue.counter = (if s.cue.nextSerial = 65535 then 1 else s.cue.nextSerial + 1) ∧
            { u with cue := s.cue, pi := s.pi } = s))

/-- DELETE and SKIP: a serial that is not in the list and an entry that has started (for SKIP, a suspended one) are refused; in
LIVE the entry leaves and the others stand in their order, SKIP with an ITEM SKIPPED entry, and AIR forgets a CUED-LATE one
(R47, R55, R59, R60). SKIP of a FADING or a PLAYING entry also drops its run line and raises ENTRY ENDED; in AUTO the CUED item
then starts, its run line up unless R61 holds it low (log 41), and the JOIN of a BREAK-IN gives its record back, JOIN END logged after ITEM SKIPPED (R36, R37, R60, R66; the order
log 54). -/
def Obligations.DeleteAndSkipRemoveAnEntry : Prop :=
  ∀ (p : PortId) (n : Half) (s : State),
    RefusedOff [.a, .b] (fun p => .delete p n) 27 s ∧ RefusedOff [.a, .b] (fun p => .skip p n) 28 s ∧
    (p = .a ∨ p = .b → Arrives (.delete p n) p s → Arrives (.skip p n) p s →
      (s.cue.find n.toNat = none → exec (.delete p n) s = .next (replyTo p 27 ⟨.notFound, []⟩ (clearMarks s)) ∧
        exec (.skip p n) s = .next (replyTo p 28 ⟨.notFound, []⟩ (clearMarks s))) ∧
      (∀ e, s.cue.find n.toNat = some e → e.state = .playing ∨ e.state = .fading ∨ e.state = .suspended →
        exec (.delete p n) s = .next (replyTo p 27 ⟨.inUse, []⟩ (clearMarks s))) ∧
      (∀ e, s.cue.find n.toNat = some e → e.state = .suspended →
        exec (.skip p n) s = .next (replyTo p 28 ⟨.inUse, []⟩ (clearMarks s))) ∧
      (∀ e, s.cue.find n.toNat = some e → e.state = .waiting ∨ e.state = .cued → s.air.mode = .live →
        (∃ u, exec (.delete p n) s = .next (replyTo p 27 ⟨.ok, []⟩ u) ∧
          u.cue.list.map CueEntry.identity =
            (s.cue.list.filter fun x => !decide (x.serial = e.serial)).map CueEntry.identity ∧
          u.cue.run = (clearMarks s).cue.run ∧ { u with cue := s.cue, pi := s.pi } = s) ∧
        (∃ u, exec (.skip p n) s = .next (replyTo p 28 ⟨.ok, []⟩ u) ∧
          u.cue.list.map CueEntry.identity =
            (s.cue.list.filter fun x => !decide (x.serial = e.serial)).map CueEntry.identity ∧
          u.log = s.log.append (stamp s) .itemSkipped (.cue e.serial) (.skipped .request) ∧
          u.cue.run = (clearMarks s).cue.run ∧ { u with cue := s.cue, log := s.log, pi := s.pi } = s)) ∧
      (∀ e, s.cue.find n.toNat = some e → e.state = .cuedLate → s.air.mode = .live →
        let forget (r : ContextRecord) : ContextRecord :=
          if r.late.map (·.1) = some e.serial then { r with late := none } else r
        let gone (u : State) : Prop := u.air = { s.air with stack := s.air.stack.map forget } ∧ u.cue.list.map CueEntry.identity =
          (s.cue.list.filter fun x => !decide (x.serial = e.serial)).map CueEntry.identity
        (∃ u, exec (.delete p n) s = .next (replyTo p 27 ⟨.ok, []⟩ u) ∧ gone u ∧
          { u with air := s.air, cue := s.cue, pi := s.pi } = s) ∧
        (∃ u, exec (.skip p n) s = .next (replyTo p 28 ⟨.ok, []⟩ u) ∧ gone u ∧
          u.log = s.log.append (stamp s) .itemSkipped (.cue e.serial) (.skipped .request) ∧
          { u with air := s.air, cue := s.cue, log := s.log, pi := s.pi } = s)) ∧
      (let skipped (u : State) : Prop := exec (.skip p n) s = .next (replyTo p 28 ⟨.ok, []⟩ u) ∧
         (∀ q, (s.port q).init = .high → (u.port q).flags.getLsbD 1 = true);
       (∀ e, s.cue.find n.toNat = some e →
        (e.state = .fading ∧ (s.air.mode = .live ∨
          (s.air.mode = .auto ∧ ∃ q, s.cue.playing = some q ∧ q.serial ≠ e.serial))) ∨
        (e.state = .playing ∧ s.air.mode = .live ∧ s.cue.held = false ∧ s.cue.fading = none) →
        ∃ u, skipped u ∧ u.cue.list.map CueEntry.identity =
            (s.cue.list.filter fun x => !decide (x.serial = e.serial)).map CueEntry.identity ∧
          (∀ c, (u.cue.run.get c).high = (if e.player = some c then false else (s.cue.run.get c).high)) ∧
          u.log = s.log.append (stamp s) .itemSkipped (.cue e.serial) (.skipped .request) ∧
          { u with cue := s.cue, log := s.log, pi := s.pi } = s) ∧
       (∀ e x c d len m g h pol qol, s.cue.list = [e, x] → e.serial = n.toNat → x.serial ≠ e.serial → e.state = .playing →
        e.kind = .item c len g pol → x.state = .cued → x.kind = .item d m h qol → x.timing = .none → c ≠ d →
        s.air.mode = .auto → s.cue.held = false → s.alc.readyHead = none →
        ∃ u, skipped u ∧
          u.cue.list = [{ x with state := .playing, elapsed := 0, joinEnd := none, begun := s.boundaryNo }] ∧
          (u.cue.run.get c).high = false ∧ (u.cue.run.get d).high = (s.cue.run.get d).riseAfter.isNone ∧
          (∀ q, (s.port q).init = .high → (u.port q).flags.getLsbD 0 = true) ∧
          u.log = s.log.append (stamp s) .itemSkipped (.cue e.serial) (.skipped .request) ∧
          { u with cue := s.cue, log := s.log, pi := s.pi } = s) ∧
       (∀ e feed len r rest, s.cue.list = [e] → e.serial = n.toNat → e.state = .playing → e.kind = .join feed len →
        s.cue.held = true → s.air.stack = r :: rest → r.kind = .breakIn → r.suspended = none → r.parked = [] →
        s.air.chain = .none → (∀ x ∈ rest, x.number ≠ r.number) →
        ∃ u, skipped u ∧ u.cue.list = [] ∧ u.cue.held = (if rest = [] then false else true) ∧
          u.air = { s.air with stack := rest, free := r.number :: s.air.free } ∧
          u.log = (s.log.append (stamp s) .itemSkipped (.cue e.serial) (.skipped .request)).append (stamp s) .joinEnd
            (.cue e.serial) (.number 0) ∧
          { u with air := s.air, cue := s.cue, log := s.log, pi := s.pi } = s)))

/-- TAKE: refused while the sequence is held, with a stale expected serial, or with nothing CUED; else the CUED ITEM or JOIN
starts with a count of 0, an ITEM's run line rises, and ENTRY STARTED is raised; a PLAYING entry ends, a run line that falls and
rises in the one event being held low until the next boundary, also for the starts of later events until then, which is the model's
reading of R61, log 41; a STOP leaves as DONE (R61, R62, R68, R72). ITEM END: a serial
that is not in the list, an entry that is not PLAYING and a JOIN are refused; else the item ends as DONE, its run line falls and
ENTRY ENDED is raised; in AUTO the CUED item starts, after a crossfade for an open-length item with FADE (R54, R62, R64, R66,
R69). In UNATTENDED a CUED STOP is passed over in that event, with ITEM SKIPPED, and the item after it starts (R67). Stated for a
list of that one entry, or those two, with no alert ready where an entry starts. -/
def Obligations.TakeStartsAndItemEndEnds : Prop :=
  (∀ (p : PortId) (expected : Option Half) (s : State), RefusedOff [.a, .b] (fun p => .take p expected) 29 s ∧
    (p = .a ∨ p = .b → Arrives (.take p expected) p s →
      (s.cue.held = true → exec (.take p expected) s = .next (replyTo p 29 ⟨.inUse, []⟩ (clearMarks s))) ∧
      (s.cue.held = false → s.cue.cued = none → expected = none →
        exec (.take p expected) s = .next (replyTo p 29 ⟨.wrongState, []⟩ (clearMarks s))) ∧
      (∀ n, s.cue.held = false → expected = some n → (∀ e, s.cue.cued = some e → e.serial ≠ n.toNat) →
        exec (.take p expected) s = .next (replyTo p 29 ⟨.stale, []⟩ (clearMarks s))) ∧
      (∀ e ch len g pol, s.cue.held = false → s.cue.list = [e] → e.state = .cued → e.kind = .item ch len g pol →
        (∀ n, expected = some n → n.toNat = e.serial) → s.alc.readyHead = none →
        ∃ u, exec (.take p expected) s = .next (replyTo p 29 ⟨.ok, []⟩ u) ∧
          u.cue.list = [{ e with state := .playing, elapsed := 0, joinEnd := none, begun := s.boundaryNo }] ∧
          (u.cue.run.get ch).high = (s.cue.run.get ch).riseAfter.isNone ∧
          (∀ c, c ≠ ch → (u.cue.run.get c).high = (s.cue.run.get c).high) ∧
          (∀ q, (s.port q).init = .high → (u.port q).flags.getLsbD 0 = true) ∧
          { u with cue := s.cue, pi := s.pi } = s) ∧
      (∀ e, s.cue.held = false → s.cue.list = [e] → e.state = .cued → (∀ n, expected = some n → n.toNat = e.serial) →
        (e.kind = .stop → ∃ u, exec (.take p expected) s = .next (replyTo p 29 ⟨.ok, []⟩ u) ∧ u.cue.list = [] ∧
          { u with cue := s.cue, pi := s.pi } = s) ∧
        (∀ f len, e.kind = .join f len → s.alc.readyHead = none →
          ∃ u, exec (.take p expected) s = .next (replyTo p 29 ⟨.ok, []⟩ u) ∧
            u.cue.list = [{ e with state := .playing, elapsed := 0, joinEnd := some ((s.tb.clock + len) % 17280000)
                                   begun := s.boundaryNo }] ∧
            (∀ c, (u.cue.run.get c).high = (s.cue.run.get c).high) ∧
            (∀ q, (s.port q).init = .high → (u.port q).flags.getLsbD 0 = true) ∧
            { u with cue := s.cue, pi := s.pi } = s)) ∧
      (∀ q e c d len m g h pol qol, s.cue.held = false → s.cue.list = [q, e] → q.serial ≠ e.serial → q.state = .playing →
        q.kind = .item c len g pol → e.state = .cued → e.kind = .item d m h qol →
        (∀ n, expected = some n → n.toNat = e.serial) → s.alc.readyHead = none →
        ∃ u, exec (.take p expected) s = .next (replyTo p 29 ⟨.ok, []⟩ u) ∧
          u.cue.list = [{ e with state := .playing, elapsed := 0, joinEnd := none, begun := s.boundaryNo }] ∧
          (c ≠ d → (u.cue.run.get c).high = false ∧ (u.cue.run.get d).high = (s.cue.run.get d).riseAfter.isNone) ∧
          (c = d → (s.cue.run.get c).high = true →
            (u.cue.run.get c).high = false ∧ (u.cue.run.get c).riseAfter = some s.boundaryNo) ∧
          (c = d → (s.cue.run.get c).high = false →
            (u.cue.run.get c).high = (s.cue.run.get c).riseAfter.isNone ∧
            (u.cue.run.get c).riseAfter = (s.cue.run.get c).riseAfter) ∧
          (∀ x, (s.port x).init = .high → (u.port x).flags.getLsbD 0 = true ∧ (u.port x).flags.getLsbD 1 = true) ∧
          { u with cue := s.cue, pi := s.pi } = s))) ∧
  (∀ (n : Half) (s : State), RefusedOff [.a] (fun p => .itemEnd p n) 30 s ∧
    (Arrives (.itemEnd .a n) .a s →
      (s.cue.find n.toNat = none → exec (.itemEnd .a n) s = .next (replyTo .a 30 ⟨.notFound, []⟩ (clearMarks s))) ∧
      (∀ e, s.cue.find n.toNat = some e → e.state ≠ .playing ∨ e.feed.isSome = true →
        exec (.itemEnd .a n) s = .next (replyTo .a 30 ⟨.wrongState, []⟩ (clearMarks s))) ∧
      (∀ e ch len g pol, s.cue.list = [e] → e.serial = n.toNat → e.state = .playing → e.kind = .item ch len g pol →
        s.air.mode = .live → s.cue.held = false →
        ∃ u, exec (.itemEnd .a n) s = .next (replyTo .a 30 ⟨.ok, []⟩ u) ∧ u.cue.list = [] ∧
          (u.cue.run.get ch).high = false ∧ (∀ c, c ≠ ch → (u.cue.run.get c).high = (s.cue.run.get c).high) ∧
          (∀ q, (s.port q).init = .high → (u.port q).flags.getLsbD 1 = true) ∧
          { u with cue := s.cue, pi := s.pi } = s) ∧
      (∀ q e c d len m g h pol qol, s.cue.list = [q, e] → q.serial = n.toNat → e.serial ≠ q.serial → q.state = .playing →
        q.kind = .item c len g pol → e.state = .cued → e.kind = .item d m h qol → e.timing = .none → c ≠ d →
        s.air.mode = .auto → s.cue.held = false → s.alc.readyHead = none →
        ∃ u, exec (.itemEnd .a n) s = .next (replyTo .a 30 ⟨.ok, []⟩ u) ∧
          (u.cue.run.get d).high = (s.cue.run.get d).riseAfter.isNone ∧
          (∀ x, (s.port x).init = .high → (u.port x).flags.getLsbD 0 = true) ∧
          { u with cue := s.cue, pi := s.pi } = s ∧
          let starts : CueEntry := { e with state := .playing, elapsed := 0, joinEnd := none, begun := s.boundaryNo }
          (len ≠ none ∨ g = .cut → u.cue.list = [starts] ∧ (u.cue.run.get c).high = false ∧
            ∀ x, (s.port x).init = .high → (u.port x).flags.getLsbD 1 = true) ∧
          (∀ f, len = none → g = .fade f → u.cue.list = [{ q with state := .fading }, starts] ∧
            (u.cue.run.get c).high = (s.cue.run.get c).high)) ∧
      (∀ q z e c d len m g h pol qol, s.cue.list = [q, z, e] → q.serial = n.toNat → (s.cue.list.map (·.serial)).Nodup →
        q.state = .playing → q.kind = .item c len g pol → z.state = .cued → z.kind = .stop → z.timing = .none →
        e.state = .waiting → e.kind = .item d m h qol → e.timing = .none → c ≠ d → len ≠ none ∨ g = .cut →
        s.air.mode = .unattended → s.cue.held = false → s.alc.readyHead = none →
        ∃ u, exec (.itemEnd .a n) s = .next (replyTo .a 30 ⟨.ok, []⟩ u) ∧
          u.cue.list = [{ e with state := .playing, elapsed := 0, joinEnd := none, begun := s.boundaryNo }] ∧
          (u.cue.run.get c).high = false ∧ (u.cue.run.get d).high = (s.cue.run.get d).riseAfter.isNone ∧
          u.log = s.log.append (stamp s) .itemSkipped (.cue z.serial) (.skipped .stopPassed) ∧
          { u with cue := s.cue, log := s.log, pi := s.pi } = s)))

/-- SET LOW WATER and ARM LOW WATER: a threshold above 63 is refused; the armed flag follows the waiting count, and arming at
or below a threshold of 1 or more raises LOW WATER at once (R78). -/
def Obligations.LowWaterIsArmed : Prop :=
  ∀ (p : PortId) (b : Byte) (s : State),
    RefusedOff [.a, .b] (fun p => .setLowWater p b) 31 s ∧ RefusedOff [.a, .b] .armLowWater 32 s ∧
    (p = .a ∨ p = .b → Arrives (.setLowWater p b) p s → Arrives (.armLowWater p) p s →
      (63 < b.toNat → exec (.setLowWater p b) s = .next (replyTo p 31 ⟨.badValue, []⟩ s)) ∧
      (b.toNat ≤ 63 → exec (.setLowWater p b) s = .next (replyTo p 31 ⟨.ok, []⟩ { s with
        cue := { s.cue with threshold := b.toNat, armed := decide (b.toNat < s.cue.waiting) } })) ∧
      (s.cue.threshold = 0 ∨ s.cue.threshold < s.cue.waiting → exec (.armLowWater p) s =
        .next (replyTo p 32 ⟨.ok, []⟩ { s with cue := { s.cue with armed := true } })) ∧
      (1 ≤ s.cue.threshold → s.cue.waiting ≤ s.cue.threshold → exec (.armLowWater p) s =
        .next (replyTo p 32 ⟨.ok, []⟩ (raise .lowWater { s with cue := { s.cue with armed := false } }))))

/-- A PLAYING entry that reaches its length, or an open-length item that reaches 1,440,000, leaves as DONE with its run line
low (R62); stated for a list of that one entry in LIVE. The JOIN of a BREAK-IN that reaches its length gives its record back,
with a JOIN END entry (R36, R37, R72): the entry it suspended by its policy, the callers it parked by the state DLY holds (R71,
R102). At its segue point a PLAYING item with CUT gives way to the CUED item in an automatic
mode: it leaves as DONE, and the other starts with a count of 0 and its run line up; one with FADE goes on as FADING, or, into its
own channel, leaves (R61 to R64); stated for a list of those two, with no alert ready. In UNATTENDED a STOP that is CUED at the
segue point is passed over before the segue, and one that the segue makes CUED after it, each with ITEM SKIPPED (R67). That an ITEM
SKIPPED by policy (CUE) stands before the JOIN END (AIR) of its event is the model's choice, log 54. -/
def Obligations.EntriesEndAndSegue : Prop :=
  (∀ (e : CueEntry) (ch : Nth) (len : Option Nat) (g : Segue) (pol : Policy) (s : State),
    s.due = [.cueCounts] → s.cue.list = [e] → e.state = .playing → e.kind = .item ch len g pol → e.begun < s.boundaryNo →
    s.air.mode = .live → s.cue.held = false → (∀ c, (s.cue.run.get c).riseAfter = none) →
    (∀ l, len = some l → e.elapsed + 1 = l → ∃ u, exec .entryLengthEnd s = .next u ∧ u.cue.list = [] ∧
      (u.cue.run.get ch).high = false ∧ { u with cue := s.cue, pi := s.pi, due := s.due } = s) ∧
    (len = none → e.elapsed + 1 = 1440000 → ∃ u, exec .openLengthLimit s = .next u ∧ u.cue.list = [] ∧
      (u.cue.run.get ch).high = false ∧ { u with cue := s.cue, pi := s.pi, due := s.due } = s)) ∧
  (∀ (e : CueEntry) (f : Feed) (len : Nat) (r : ContextRecord) (rest : List ContextRecord) (s : State),
    s.due = [.cueCounts] → s.cue.list = [e] → e.state = .playing → e.kind = .join f len → e.begun < s.boundaryNo →
    e.elapsed + 1 = len → s.cue.held = true → s.air.stack = r :: rest → r.kind = .breakIn → r.suspended = none →
    r.parked = [] → s.air.chain = .none → (∀ x ∈ rest, x.number ≠ r.number) → (∀ c, (s.cue.run.get c).riseAfter = none) →
    ∃ u, exec .entryLengthEnd s = .next u ∧ u.cue.list = [] ∧ u.cue.held = (if rest = [] then false else true) ∧
      u.air = { s.air with stack := rest, free := r.number :: s.air.free } ∧
      u.log = s.log.append (stamp s) .joinEnd (.cue e.serial) (.number 0) ∧
      (∀ q, (s.port q).init = .high → (u.port q).flags.getLsbD 1 = true) ∧
      (∀ c, (u.cue.run.get c).high = (s.cue.run.get c).high) ∧
      { u with air := s.air, cue := s.cue, log := s.log, pi := s.pi, due := s.due } = s) ∧
  (∀ (j : CueEntry) (others : List CueEntry) (f : Feed) (len : Nat) (r : ContextRecord) (rest : List ContextRecord) (s : State),
    s.due = [.cueCounts] → s.cue.list = j :: others ∨ s.cue.list = others ++ [j] → (∀ e ∈ others, e.serial ≠ j.serial) →
    j.state = .playing → j.kind = .join f len → j.begun < s.boundaryNo → j.elapsed + 1 = len → s.cue.held = true →
    s.air.stack = r :: rest → r.kind = .breakIn → s.air.chain = .none → (∀ x ∈ rest, x.number ≠ r.number) →
    (∀ c, (s.cue.run.get c).riseAfter = none) → s.alc.readyHead = none →
    GivesBack r rest others (s.dly.state = .run .bypass) id
      (fun log => log.append (stamp s) .joinEnd (.cue j.serial) (.number 0)) [] s
      fun t => exec .entryLengthEnd s = .next t ∧ t.air = { s.air with stack := rest, free := r.number :: s.air.free } ∧
        { t with air := s.air, cue := s.cue, lsw := s.lsw, due := s.due, log := s.log, pi := s.pi } = s) ∧
  (∀ (e n : CueEntry) (c d : Nth) (l f : Nat) (m : Option Nat) (g : Segue) (pol qol : Policy) (s : State),
    s.due = [.cueCounts] → s.cue.list = [e, n] → e.serial ≠ n.serial →
    e.state = .playing → e.kind = .item c (some l) (.fade f) pol → e.begun < s.boundaryNo → 1 ≤ f → f < l →
    e.elapsed + 1 = l - f → n.state = .cued → n.kind = .item d m g qol → n.timing = .none → (∀ x, m = some x → 1 ≤ x) →
    s.air.mode = .auto → s.cue.held = false → s.alc.readyHead = none → (∀ k, (s.cue.run.get k).riseAfter = none) →
    ∃ u, exec .seguePoint s = .next u ∧ { u with cue := s.cue, pi := s.pi, due := s.due } = s ∧
      let starts : CueEntry := { n with state := .playing, elapsed := 0, joinEnd := none, begun := s.boundaryNo }
      (c ≠ d → u.cue.list = [{ e with state := .fading, elapsed := l - f }, starts] ∧
        (u.cue.run.get c).high = (s.cue.run.get c).high ∧ (u.cue.run.get d).high = true) ∧
      (c = d → u.cue.list = [starts] ∧ ((s.cue.run.get c).high = true →
        (u.cue.run.get c).high = false ∧ (u.cue.run.get c).riseAfter = some s.boundaryNo))) ∧
  (∀ (e n : CueEntry) (c d : Nth) (l : Nat) (m : Option Nat) (g : Segue) (pol qol : Policy) (s : State),
    s.due = [.cueCounts] → s.cue.list = [e, n] → e.serial ≠ n.serial → c ≠ d →
    e.state = .playing → e.kind = .item c (some l) .cut pol → e.begun < s.boundaryNo → e.elapsed + 1 = l →
    n.state = .cued → n.kind = .item d m g qol → n.timing = .none → (∀ x, m = some x → 1 ≤ x) →
    s.air.mode = .auto → s.cue.held = false → s.alc.readyHead = none → (∀ k, (s.cue.run.get k).riseAfter = none) →
    ∃ u, exec .seguePoint s = .next u ∧
      u.cue.list = [{ n with state := .playing, elapsed := 0, joinEnd := none, begun := s.boundaryNo }] ∧
      (u.cue.run.get c).high = false ∧ (u.cue.run.get d).high = true ∧
      { u with cue := s.cue, pi := s.pi, due := s.due } = s) ∧
  (∀ (e z n : CueEntry) (c d : Nth) (l : Nat) (m : Option Nat) (g : Segue) (pol qol : Policy) (s : State),
    s.due = [.cueCounts] → (s.cue.list = [e, z, n] ∧ z.state = .cued ∧ n.state = .waiting) ∨
      (s.cue.list = [e, n, z] ∧ n.state = .cued ∧ z.state = .waiting) → [e.serial, z.serial, n.serial].Nodup → c ≠ d →
    e.state = .playing → e.kind = .item c (some l) .cut pol → e.begun < s.boundaryNo → e.elapsed + 1 = l →
    z.kind = .stop → z.timing = .none → n.kind = .item d m g qol → n.timing = .none → (∀ x, m = some x → 1 ≤ x) →
    s.air.mode = .unattended → s.cue.held = false → s.alc.readyHead = none → (∀ k, (s.cue.run.get k).riseAfter = none) →
    ∃ u, exec .seguePoint s = .next u ∧
      u.cue.list = [{ n with state := .playing, elapsed := 0, joinEnd := none, begun := s.boundaryNo }] ∧
      (u.cue.run.get c).high = false ∧ (u.cue.run.get d).high = true ∧
      u.log = s.log.append (stamp s) .itemSkipped (.cue z.serial) (.skipped .stopPassed) ∧
      { u with cue := s.cue, log := s.log, pi := s.pi, due := s.due } = s)

/-- At the boundary after a fade's last the FADING entry ends as DONE and its run line falls (R65); a run line that fell and was
to rise again in one event rises at the next boundary while an item sounds on its channel (R61). -/
def Obligations.CrossfadesEndAndRunLinesRise : Prop :=
  ∀ (s : State), s.due = [.cueCounts] → s.air.mode = .auto → s.cue.held = false →
    (∀ o p c d l m g f pol qol, s.cue.list = [o, p] → o.serial ≠ p.serial → c ≠ d → (∀ k, (s.cue.run.get k).riseAfter = none) →
      o.state = .fading → o.kind = .item c l (.fade f) pol → p.state = .playing → p.kind = .item d m g qol →
      p.begun < s.boundaryNo → p.elapsed = f → m = none → p.elapsed + 1 < 1440000 →
      ∃ u, exec .crossfadeEnd s = .next u ∧ u.cue.list = [{ p with elapsed := f + 1 }] ∧
        (u.cue.run.get c).high = false ∧ (u.cue.run.get d).high = (s.cue.run.get d).high ∧
        { u with cue := s.cue, pi := s.pi, due := s.due } = s) ∧
    (∀ p c m g pol b, s.cue.list = [p] → p.state = .playing → p.kind = .item c m g pol → m = none → p.begun < s.boundaryNo →
      p.elapsed + 1 < 1440000 → (s.cue.run.get c).riseAfter = some b → b < s.boundaryNo →
      ∃ u, exec .runLineDelayedRise s = .next u ∧ u.cue.list = [{ p with elapsed := p.elapsed + 1 }] ∧
        (u.cue.run.get c).high = true ∧ (u.cue.run.get c).riseAfter = none ∧
        { u with cue := s.cue, pi := s.pi, due := s.due } = s)

/-- A HARD entry whose time is the air clock: in LIVE its time is marked reached and HARD TIME raised; in an automatic mode
with nothing PLAYING it starts; with the sequence held it is MISSED (R74, R75). Of two that fall due together the second is
MISSED. At a SET CLOCK the times passed over fall due, are MISSED by CLOCK JUMP for a step above 200, and none falls due going
backward (R14, R77). A BREAK-IN whose time is the air clock: with room on the stack it is given a record and starts at once,
with a JOIN START entry; with none it is missed, with STACK FULL, ITEM MISSED and HARD TIME (R31, R33, R72, R76); while a
chain with its record holds the air it is held in the record, and a second one, or one in a chain without a record, is missed
(R44, R47). The order of two blocks' entries in one event is the model's choice, log 54; the record's number with none free, which
no run reaches, log 43. Stated for a list of that one entry, or those two. An entry added since the boundary is not compared at it
(R74). The entries before a HARD entry that takes its place leave as SKIPPED, HARD TIME: it starts, or a PLAYING item segues into
it, or in LIVE it is CUED (R75); that they are logged in list order is the model's choice, log 40. The run line of an item that
starts is up unless R61 holds it low (log 41). -/
def Obligations.TimesFallDue : Prop :=
  (∀ (e : CueEntry) (ch : Nth) (m : Option Nat) (g : Segue) (pol : Policy) (s : State),
    s.due = [.cueTimes] → s.cue.list = [e] → e.state = .cued → e.kind = .item ch m g pol → e.timing = .hard s.tb.clock →
    e.timeReached = false → e.added < s.boundaryNo → s.tb.clockSet = true → s.tb.report = none → s.alc.readyHead = none →
    (s.air.mode = .live → ∃ u, exec .hardTimeDue s = .next u ∧ u.cue.list = [{ e with timeReached := true }] ∧
      (∀ q, (s.port q).init = .high → (u.port q).flags.getLsbD 3 = true) ∧
      { u with cue := s.cue, pi := s.pi, due := s.due } = s) ∧
    (s.air.mode = .auto → s.cue.held = false → ∃ u, exec .hardTimeDue s = .next u ∧
      u.cue.list = [{ e with state := .playing, elapsed := 0, joinEnd := none, begun := s.boundaryNo }] ∧
      (u.cue.run.get ch).high = (s.cue.run.get ch).riseAfter.isNone ∧
      { u with cue := s.cue, pi := s.pi, due := s.due } = s) ∧
    (s.air.mode = .auto → s.cue.held = true → ∃ u, exec .hardTimeDue s = .next u ∧ u.cue.list = [] ∧
      (∀ q, (s.port q).init = .high → (u.port q).flags.getLsbD 3 = true) ∧
      u.log = s.log.append (some s.tb.clock) .itemMissed (.cue e.serial) (.missed .held) ∧
      { u with cue := s.cue, log := s.log, pi := s.pi, due := s.due } = s)) ∧
  (∀ (e f : CueEntry) (c d : Nth) (m o : Option Nat) (g h : Segue) (pol qol : Policy) (s : State),
    s.due = [.cueTimes] → s.cue.list = [e, f] → e.serial ≠ f.serial → e.state = .cued → f.state = .waiting →
    e.kind = .item c m g pol → f.kind = .item d o h qol → e.timing = .hard s.tb.clock → f.timing = .hard s.tb.clock →
    e.timeReached = false → f.timeReached = false → e.added < s.boundaryNo → f.added < s.boundaryNo → s.tb.clockSet = true → s.tb.report = none → s.air.mode = .live →
    ∃ u, exec .hardTimeDue s = .next u ∧ u.cue.list = [{ e with timeReached := true }] ∧
      (∀ q, (s.port q).init = .high → (u.port q).flags.getLsbD 3 = true) ∧
      u.log = s.log.append (some s.tb.clock) .itemMissed (.cue f.serial) (.missed .sameTime) ∧
      { u with cue := s.cue, log := s.log, pi := s.pi, due := s.due } = s) ∧
  (∀ (e : CueEntry) (ch : Nth) (m : Option Nat) (g : Segue) (pol : Policy) (x : Nat) (r : ClockReport) (s : State),
    s.due = [.cueTimes] → s.cue.list = [e] → e.state = .cued → e.kind = .item ch m g pol → e.timing = .hard x →
    e.timeReached = false → e.added < s.boundaryNo → s.tb.clockSet = true → s.tb.report = some r → s.air.mode = .live →
    let step := (r.new + 17280000 - r.old) % 17280000
    let after := (x + 17280000 - r.old) % 17280000
    let reached : Prop := ∃ u, exec .hardTimeDue s = .next u ∧ u.cue.list = [{ e with timeReached := true }] ∧
      (∀ q, (s.port q).init = .high → (u.port q).flags.getLsbD 3 = true) ∧ { u with cue := s.cue, pi := s.pi, due := s.due } = s
    (r.wasSet = false → (x = r.new → reached) ∧ (x ≠ r.new → exec .hardTimeDue s = .next s)) ∧
    (r.wasSet = true → 1 ≤ after → after ≤ step → (step ≤ 200 → reached) ∧
      (201 ≤ step → step ≤ 8640000 → ∃ u, exec .hardTimeDue s = .next u ∧ u.cue.list = [] ∧
        (∀ q, (s.port q).init = .high → (u.port q).flags.getLsbD 3 = true) ∧
        u.log = s.log.append (some s.tb.clock) .itemMissed (.cue e.serial) (.missed .clockJump) ∧
        { u with cue := s.cue, log := s.log, pi := s.pi, due := s.due } = s)) ∧
    (r.wasSet = true → step = 0 ∨ 8640000 < step ∨ after = 0 ∨ step < after → exec .hardTimeDue s = .next s)) ∧
  (∀ (e : CueEntry) (f : Feed) (len : Nat) (s : State),
    s.due = [.cueTimes] → s.cue.list = [e] → e.state = .waiting → e.kind = .join f len → e.timing = .breakIn s.tb.clock →
    s.tb.clock < 17280000 → 1 ≤ len → e.added < s.boundaryNo → s.tb.clockSet = true → s.tb.report = none → s.alc.readyHead = none →
    let missed : Prop := ∃ u, exec .breakInDue s = .next u ∧ u.cue.list = [] ∧
      u.log = (s.log.append (some s.tb.clock) .stackFull (.cue e.serial) (.number s.air.stack.length)).append
        (some s.tb.clock) .itemMissed (.cue e.serial) (.missed .stackFull) ∧
      (∀ q, (s.port q).init = .high → (u.port q).flags.getLsbD 3 = true) ∧
      u.air = s.air ∧ u.tb = s.tb ∧ u.dly = s.dly ∧ u.lsw = s.lsw ∧ u.alc = s.alc ∧ u.out = s.out ∧ u.site = s.site
    (s.air.chain = .none → s.air.stack.length < s.air.maxDepth → ∃ u, exec .breakInDue s = .next u ∧
      u.cue.list = [{ e with state := .playing, elapsed := 0, joinEnd := some ((s.tb.clock + len) % 17280000)
                             begun := s.boundaryNo }] ∧
      u.cue.held = true ∧ u.log = s.log.append (some s.tb.clock) .joinStart (.cue e.serial) (.number len) ∧
      (∃ r, u.air.stack = r :: s.air.stack ∧ r.kind = .breakIn ∧ r.number = s.air.free.headD 1 ∧ r.suspended = none ∧
        r.parked = s.lsw.airPairs ∧ r.late = none) ∧
      (∀ l, s.line l = .air → u.line l = .parked) ∧
      u.tb = s.tb ∧ u.dly = s.dly ∧ u.alc = s.alc ∧ u.out = s.out ∧ u.lnk = s.lnk ∧ u.site = s.site) ∧
    (s.air.chain = .none → s.air.maxDepth ≤ s.air.stack.length → missed) ∧
    (s.air.chain = .withoutContext → missed) ∧
    (∀ r rest, s.air.chain = .withContext → s.air.stack = r :: rest → (r.late ≠ none → missed) ∧
      (r.late = none → ∃ u, exec .breakInDue s = .next u ∧ u.cue.list = [{ e with state := .cuedLate }] ∧
        u.air = { s.air with stack := { r with late := some (e.serial, s.tb.clock) } :: rest } ∧
        { u with air := s.air, cue := s.cue, pi := s.pi, due := s.due } = s))) ∧
  (∀ s : State, s.due = [.cueTimes] → (∀ e ∈ s.cue.list, s.boundaryNo ≤ e.added) →
    exec .hardTimeDue s = .next s ∧ exec .breakInDue s = .next s) ∧
  (∀ (before : List CueEntry) (e : CueEntry) (ch : Nth) (m : Option Nat) (g : Segue) (pol : Policy) (s : State),
    s.due = [.cueTimes] → (s.cue.list.map (·.serial)).Nodup →
    (∀ x ∈ before, (x.state = .cued ∨ x.state = .waiting) ∧ x.timing = .none) → e.state = .waiting →
    e.kind = .item ch m g pol → e.timing = .hard s.tb.clock → e.timeReached = false → e.added < s.boundaryNo →
    s.tb.clockSet = true → s.tb.report = none → s.alc.readyHead = none →
    let starts : CueEntry := { e with state := .playing, elapsed := 0, joinEnd := none, begun := s.boundaryNo }
    let skips (u : State) : Prop := exec .hardTimeDue s = .next u ∧
      u.log = before.foldl (fun log x => log.append (some s.tb.clock) .itemSkipped (.cue x.serial) (.skipped .hardTime)) s.log ∧
      { u with cue := s.cue, log := s.log, pi := s.pi, due := s.due } = s
    (s.cue.list = before ++ [e] →
      (s.air.mode ≠ .live → s.cue.held = false → ∃ u, skips u ∧ u.cue.list = [starts] ∧
        (u.cue.run.get ch).high = (s.cue.run.get ch).riseAfter.isNone) ∧
      (s.air.mode = .live → ∃ u, skips u ∧ u.cue.list = [{ e with state := .cued, timeReached := true }] ∧
        ∀ q, (s.port q).init = .high → (u.port q).flags.getLsbD 3 = true)) ∧
    (∀ q c l h qol, s.cue.list = q :: (before ++ [e]) → q.state = .playing → q.kind = .item c l h qol → c ≠ ch →
      s.air.mode ≠ .live → s.cue.held = false →
      ∃ u, skips u ∧ (u.cue.run.get ch).high = (s.cue.run.get ch).riseAfter.isNone ∧
        (h = .cut → u.cue.list = [starts] ∧ (u.cue.run.get c).high = false) ∧
        (∀ f, h = .fade f → u.cue.list = [{ q with state := .fading }, starts] ∧
          (u.cue.run.get c).high = (s.cue.run.get c).high)))

/-! ### Lines -/

/-- ANSWER: a ringing line goes to SCREENING, with its counts from 0. SCREEN: a line in HOLD or READY goes to SCREENING and
leaves the ready queue. With either, the line already in SCREENING goes to HOLD and LINE CHANGE is raised (R88, R90). -/
def Obligations.LinesAreScreened : Prop :=
  (∀ (b : Byte) (s : State), RefusedOff [.b] (fun p => .answer p b) 41 s ∧
    (Arrives (.answer .b b) .b s →
      (b.toNat = 0 ∨ 4 < b.toNat → exec (.answer .b b) s = .next (replyTo .b 41 ⟨.badValue, []⟩ s)) ∧
      ∀ l : Nth, b.toNat = l.number →
        (s.line l ≠ .ringing → exec (.answer .b b) s = .next (replyTo .b 41 ⟨.wrongState, []⟩ s)) ∧
        (s.line l = .ringing → ∃ t, exec (.answer .b b) s = .next (replyTo .b 41 ⟨.ok, []⟩ (raise .lineChange t)) ∧
          t.lsw.lines.get l = { s.lsw.lines.get l with state := .screening, waiting := none, ringQuiet := 0, loopLoss := 0 } ∧
          (∀ m, m ≠ l → s.line m = .screening →
            t.lsw.lines.get m = { s.lsw.lines.get m with state := .hold, waiting := some 0 }) ∧
          (∀ m, m ≠ l → s.line m ≠ .screening → t.lsw.lines.get m = s.lsw.lines.get m) ∧
          { t with lsw := { t.lsw with lines := s.lsw.lines } } = s))) ∧
  (∀ (b : Byte) (s : State), RefusedOff [.b] (fun p => .screen p b) 43 s ∧
    (Arrives (.screen .b b) .b s →
      (b.toNat = 0 ∨ 4 < b.toNat → exec (.screen .b b) s = .next (replyTo .b 43 ⟨.badValue, []⟩ s)) ∧
      ∀ l : Nth, b.toNat = l.number →
        (s.line l ≠ .hold → s.line l ≠ .ready → exec (.screen .b b) s = .next (replyTo .b 43 ⟨.wrongState, []⟩ s)) ∧
        (s.line l = .hold ∨ s.line l = .ready → s.lsw.slotA ≠ some l → s.lsw.slotB ≠ some l →
          ∃ t, exec (.screen .b b) s = .next (replyTo .b 43 ⟨.ok, []⟩ (raise .lineChange t)) ∧
          t.lsw.lines.get l = { s.lsw.lines.get l with state := .screening, waiting := none } ∧
          (∀ m, m ≠ l → s.line m = .screening →
            t.lsw.lines.get m = { s.lsw.lines.get m with state := .hold, waiting := some 0 }) ∧
          (∀ m, m ≠ l → s.line m ≠ .screening → t.lsw.lines.get m = s.lsw.lines.get m) ∧
          t.lsw.queue = (s.lsw.queue.filter fun m => !decide (m = l)) ∧
          { t with lsw := { t.lsw with lines := s.lsw.lines, queue := s.lsw.queue } } = s)))

/-- HOLD: a line in SCREENING goes to HOLD with waiting 0, LINE CHANGE is raised, it does not join the ready queue, it hears
the air block, and no TAKE LINE takes it (R89). -/
def Obligations.HoldPutsAScreenedLineOnHold : Prop :=
  ∀ (b : Byte) (s : State), RefusedOff [.b] (fun p => .hold p b) 42 s ∧
    (Arrives (.hold .b b) .b s →
      (b.toNat = 0 ∨ 4 < b.toNat → exec (.hold .b b) s = .next (replyTo .b 42 ⟨.badValue, []⟩ s)) ∧
      ∀ l : Nth, b.toNat = l.number →
        (s.line l ≠ .screening → exec (.hold .b b) s = .next (replyTo .b 42 ⟨.wrongState, []⟩ s)) ∧
        (s.line l = .screening →
          let t : State := raise .lineChange { s with lsw := { s.lsw with
            lines := s.lsw.lines.set l { s.lsw.lines.get l with state := .hold, waiting := some 0 } } }
          exec (.hold .b b) s = .next (replyTo .b 42 ⟨.ok, []⟩ t) ∧ t.lsw.queue = s.lsw.queue ∧
          sendAudio t (t.lsw.lines.get l) = s.audio.prev.air.audio ∧ (takeLineNamed (some l) t).2.result ≠ .ok))

/-- READY: a line in SCREENING or HOLD goes to READY at the tail of the queue, its waiting kept from HOLD and 0 otherwise, with
a note written when one is given; a note that is too long or not printable is refused (R91). -/
def Obligations.ReadyQueuesALine : Prop :=
  ∀ (b : Byte) (note : Option (List Byte)) (s : State), (Instr.ready .b b note).wellFormed = true →
    RefusedOff [.b] (fun p => .ready p b note) 44 s ∧
    (Arrives (.ready .b b note) .b s →
      (b.toNat = 0 ∨ 4 < b.toNat → exec (.ready .b b note) s = .next (replyTo .b 44 ⟨.badValue, []⟩ s)) ∧
      (∀ cs, note = some cs → 24 < cs.length ∨ (∃ c ∈ cs, c.toNat < 32 ∨ 126 < c.toNat) →
        exec (.ready .b b note) s = .next (replyTo .b 44 ⟨.badValue, []⟩ s)) ∧
      ∀ l : Nth, b.toNat = l.number →
        (∀ cs, note = some cs → cs.length ≤ 24 ∧ ∀ c ∈ cs, 32 ≤ c.toNat ∧ c.toNat ≤ 126) →
        (s.line l ≠ .screening → s.line l ≠ .hold →
          exec (.ready .b b note) s = .next (replyTo .b 44 ⟨.wrongState, []⟩ s)) ∧
        (s.line l = .screening ∨ s.line l = .hold → exec (.ready .b b note) s =
          .next (replyTo .b 44 ⟨.ok, []⟩ (raise .lineChange { s with lsw := { s.lsw with
            queue := s.lsw.queue ++ [l]
            lines := s.lsw.lines.set l { s.lsw.lines.get l with
              state := .ready
              waiting := if s.line l = .hold then (s.lsw.lines.get l).waiting else some 0
              note := match note with
                | none => (s.lsw.lines.get l).note
                | some [] => none
                | some cs => some cs } } }))))

/-- UNREADY: a line in READY leaves the queue and goes to HOLD with its waiting and its note kept; LINE CHANGE is raised
(R92). A line in READY holds no slot. -/
def Obligations.UnreadyPutsALineOnHold : Prop :=
  ∀ (b : Byte) (s : State), RefusedOff [.b] (fun p => .unready p b) 45 s ∧
    (Arrives (.unready .b b) .b s →
      (b.toNat = 0 ∨ 4 < b.toNat → exec (.unready .b b) s = .next (replyTo .b 45 ⟨.badValue, []⟩ s)) ∧
      ∀ l : Nth, b.toNat = l.number →
        (s.line l ≠ .ready → exec (.unready .b b) s = .next (replyTo .b 45 ⟨.wrongState, []⟩ s)) ∧
        (s.line l = .ready → exec (.unready .b b) s =
          .next (replyTo .b 45 ⟨.ok, []⟩ (raise .lineChange { s with lsw := { s.lsw with
            queue := s.lsw.queue.filter fun m => !decide (m = l)
            slotA := if s.lsw.slotA = some l then none else s.lsw.slotA
            slotB := if s.lsw.slotB = some l then none else s.lsw.slotB
            lines := s.lsw.lines.set l { s.lsw.lines.get l with state := .hold } } }))))

/-- LINE NOTE: the note of a connected line is written, one of no characters making it absent, and LINE CHANGE is raised; its
state, its place in the queue and its counts stand; a note is gone when the line returns to IDLE (R93). -/
def Obligations.LineNoteWritesTheNote : Prop :=
  ∀ (b : Byte) (note : List Byte) (s : State), note.length ≤ 60 →
    RefusedOff [.b] (fun p => .lineNote p b note) 46 s ∧
    (Arrives (.lineNote .b b note) .b s →
      (b.toNat = 0 ∨ 4 < b.toNat ∨ 24 < note.length ∨ (∃ c ∈ note, c.toNat < 32 ∨ 126 < c.toNat) →
        exec (.lineNote .b b note) s = .next (replyTo .b 46 ⟨.badValue, []⟩ s)) ∧
      ∀ l : Nth, b.toNat = l.number → note.length ≤ 24 → (∀ c ∈ note, 32 ≤ c.toNat ∧ c.toNat ≤ 126) →
        (s.line l = .idle ∨ s.line l = .ringing ∨ s.line l = .clearing →
          exec (.lineNote .b b note) s = .next (replyTo .b 46 ⟨.wrongState, []⟩ s)) ∧
        (s.line l ≠ .idle → s.line l ≠ .ringing → s.line l ≠ .clearing → exec (.lineNote .b b note) s =
          .next (replyTo .b 46 ⟨.ok, []⟩ (raise .lineChange { s with lsw := { s.lsw with
            lines := s.lsw.lines.set l { s.lsw.lines.get l with note := if note = [] then none else some note } } })))) ∧
    ∀ r : Line, r.toIdle.note = none

/-- TAKE LINE: the checks in their order; then the named line, or the head of the queue, goes to AIR in the first free slot,
and the reply gives the line and the slot (R95). The gate report follows when no line was in AIR (R103). -/
def Obligations.TakeLinePutsACallerOnAir : Prop :=
  ∀ (o : Option Byte) (s : State), RefusedOff [.b] (fun p => .takeLine p o) 47 s ∧
    (Arrives (.takeLine .b o) .b s →
      (∀ b, o = some b → b.toNat = 0 ∨ 4 < b.toNat →
        exec (.takeLine .b o) s = .next (replyTo .b 47 ⟨.badValue, []⟩ (clearMarks s))) ∧
      ((∀ b, o = some b → 1 ≤ b.toNat ∧ b.toNat ≤ 4) →
        (s.air.mode ≠ .live → exec (.takeLine .b o) s = .next (replyTo .b 47 ⟨.wrongMode, []⟩ (clearMarks s))) ∧
        (s.air.mode = .live → s.air.chain ≠ .none ∨ s.lsw.anyIn .parked = true →
          exec (.takeLine .b o) s = .next (replyTo .b 47 ⟨.inUse, []⟩ (clearMarks s))) ∧
        (s.air.mode = .live → s.air.chain = .none → s.lsw.anyIn .parked = false →
          (s.dly.state = .run .bypass → s.lsw.liveCalls = false →
            exec (.takeLine .b o) s = .next (replyTo .b 47 ⟨.wrongState, []⟩ (clearMarks s))) ∧
          (s.dly.state ≠ .run .bypass ∨ s.lsw.liveCalls = true →
            (s.lsw.slotA ≠ none → s.lsw.slotB ≠ none →
              exec (.takeLine .b o) s = .next (replyTo .b 47 ⟨.full, []⟩ (clearMarks s))) ∧
            (s.lsw.slotA = none ∨ s.lsw.slotB = none → o = none → s.lsw.queue = [] →
              exec (.takeLine .b o) s = .next (replyTo .b 47 ⟨.notFound, []⟩ (clearMarks s))) ∧
            (∀ (b : Byte) (l : Nth), s.lsw.slotA = none ∨ s.lsw.slotB = none → o = some b → b.toNat = l.number →
              s.line l ≠ .ready → exec (.takeLine .b o) s = .next (replyTo .b 47 ⟨.wrongState, []⟩ (clearMarks s))) ∧
            (∀ l : Nth, s.lsw.slotA = none ∨ s.lsw.slotB = none →
              (∀ b, o = some b → b.toNat = l.number ∧ s.line l = .ready) → (o = none → s.lsw.queue.head? = some l) →
              ∃ t, exec (.takeLine .b o) s = .next (replyTo .b 47
                  ⟨.ok, [BitVec.ofNat 8 l.number, if s.lsw.slotA = none then 0 else 1]⟩ t) ∧
                t.lsw.lines.get l = { s.lsw.lines.get l with
                  state := .air, waiting := none, onAir := some ((s.lsw.lines.get l).onAir.getD (0, 0)) } ∧
                (∀ m, m ≠ l → t.lsw.lines.get m = s.lsw.lines.get m) ∧
                (if s.lsw.slotA = none then t.lsw.slotA = some l else t.lsw.slotB = some l) ∧
                t.lsw.queue = (s.lsw.queue.filter fun m => !decide (m = l)) ∧
                (∀ q, (s.port q).init = .high → (t.port q).flags.getLsbD 5 = true) ∧
                (s.line l ≠ .air → s.lsw.anyIn .air = false → t.due = s.due ++ [.gateReport true s.lsw.liveCalls]) ∧
                { t with lsw := s.lsw, due := s.due, pi := s.pi } = clearMarks s)))))

/-- DROP: a line that is not IDLE or CLEARING goes to CLEARING for 200 blocks, out of its slot and the queue, with LINE CHANGE
raised; AIR takes a PARKED line out of its record, and the gate is reported when the last line leaves AIR (R29, R96, R103). -/
def Obligations.DropClearsALine : Prop :=
  ∀ (b : Byte) (s : State), RefusedOff [.b] (fun p => .drop p b) 48 s ∧
    (Arrives (.drop .b b) .b s →
      (b.toNat = 0 ∨ 4 < b.toNat → exec (.drop .b b) s = .next (replyTo .b 48 ⟨.badValue, []⟩ (clearMarks s))) ∧
      ∀ l : Nth, b.toNat = l.number →
        (s.line l = .idle ∨ s.line l = .clearing →
          exec (.drop .b b) s = .next (replyTo .b 48 ⟨.wrongState, []⟩ (clearMarks s))) ∧
        (s.line l = .ringing ∨ s.line l = .screening ∨ s.line l = .hold ∨ s.line l = .ready →
          exec (.drop .b b) s = .next (replyTo .b 48 ⟨.ok, []⟩ (clearMarks (raise .lineChange { s with lsw := { s.lsw with
            queue := s.lsw.queue.filter fun m => !decide (m = l)
            slotA := if s.lsw.slotA = some l then none else s.lsw.slotA
            slotB := if s.lsw.slotB = some l then none else s.lsw.slotB
            lines := s.lsw.lines.set l { s.lsw.lines.get l with
              state := .clearing, waiting := none, clearing := 200, ringQuiet := 0, loopLoss := 0 } } })))) ∧
        (s.line l = .parked ∨ s.line l = .air → ∃ t, exec (.drop .b b) s = .next (replyTo .b 48 ⟨.ok, []⟩ t) ∧
          t.lsw.lines.get l = { s.lsw.lines.get l with
            state := .clearing, waiting := none, clearing := 200, ringQuiet := 0, loopLoss := 0 } ∧
          (∀ m, m ≠ l → t.lsw.lines.get m = s.lsw.lines.get m) ∧ t.lsw.slotA ≠ some l ∧ t.lsw.slotB ≠ some l ∧
          (∀ q, (s.port q).init = .high → (t.port q).flags.getLsbD 5 = true) ∧
          (s.line l = .parked → ∀ r ∈ t.air.stack, ∀ x ∈ r.parked, x.1 ≠ l) ∧ (s.line l = .air → t.air = s.air) ∧
          (s.line l = .air → (∀ m, m ≠ l → s.line m ≠ .air) → t.due = s.due ++ [.gateReport false s.lsw.liveCalls]) ∧
          t.cue = (clearMarks s).cue ∧ t.dly = s.dly ∧ t.alc = s.alc ∧ t.out = s.out ∧ t.log = s.log))

/-- SET LINE OPTIONS writes the three options; clearing live calls permitted under a caller on air in BYPASS is refused (R94,
R103). A change of live calls permitted is reported to DLY. That yes is sent as 0 is log 5, by section 10.6's order. -/
def Obligations.SetLineOptionsWritesTheOptions : Prop :=
  ∀ (d v e1 e2 e3 e4 : Byte) (s : State), RefusedOff [.b] (fun p => .setLineOptions p d v e1 e2 e3 e4) 49 s ∧
    (Arrives (.setLineOptions .b d v e1 e2 e3 e4) .b s →
      (1 < d.toNat ∨ 1 < v.toNat ∨ 1 < e1.toNat ∨ 1 < e2.toNat ∨ 1 < e3.toNat ∨ 1 < e4.toNat →
        exec (.setLineOptions .b d v e1 e2 e3 e4) s = .next (replyTo .b 49 ⟨.badValue, []⟩ (clearMarks s))) ∧
      (d.toNat ≤ 1 → v.toNat ≤ 1 → e1.toNat ≤ 1 → e2.toNat ≤ 1 → e3.toNat ≤ 1 → e4.toNat ≤ 1 →
        (s.lsw.liveCalls = true → v.toNat = 1 → s.dly.state = .run .bypass → s.lsw.anyIn .air = true →
          exec (.setLineOptions .b d v e1 e2 e3 e4) s = .next (replyTo .b 49 ⟨.inUse, []⟩ (clearMarks s))) ∧
        (s.lsw.liveCalls = false ∨ v.toNat = 0 ∨ s.dly.state ≠ .run .bypass ∨ s.lsw.anyIn .air = false →
          exec (.setLineOptions .b d v e1 e2 e3 e4) s = .next (replyTo .b 49 ⟨.ok, []⟩ (clearMarks { s with
            lsw := { s.lsw with
              dropOnDump := decide (d.toNat = 0), liveCalls := decide (v.toNat = 0)
              ringEdges := ⟨if e1.toNat = 0 then .rising else .falling, if e2.toNat = 0 then .rising else .falling,
                            if e3.toNat = 0 then .rising else .falling, if e4.toNat = 0 then .rising else .falling⟩ }
            due := if s.lsw.liveCalls = decide (v.toNat = 0) then s.due
              else s.due ++ [.gateReport (s.lsw.anyIn .air) (decide (v.toNat = 0))] })))))

/-- The events of a line: a ring edge on an idle or a ringing line, the ring timeout, the loop-sense drop of a connected line,
off the air or on it, and the end of the clearing guard (R86, R87, R97, R98). A line dropped so is dropped as by DROP: a PARKED one
leaves its context record, a record's other pair keeping its place, and the last line to leave AIR is reported to the gate (R29, R96,
R103). A line in another state, or with its count not at its limit, is left alone. At a boundary each line counts what its state counts
and its events come due (R81, R86, R87, R97, R98), and with the line audio formed each caller hears what its state gives, in one
channel by the free value of log 12, and the slots and the screener hear their line (R83). That AIR A, AIR B and SCREENER OUT carry
one channel, the caller's input block as it came, is the model's choice, log 57. -/
def Obligations.LinesRingDropAndClear : Prop :=
  (∀ (l : Nth) (s : State), .clockSet ∉ s.due →
    let r := s.lsw.lines.get l
    let put (d : Due) (v : Line) : State :=
      { s with due := s.due.erase d, lsw := { s.lsw with lines := s.lsw.lines.set l v } }
    (r.state = .idle → exec (.ringEdge l) s =
      .next (clearMarks (raise .lineRing (put (.ringEdge l) { r with state := .ringing, ringQuiet := 0 })))) ∧
    (r.state = .ringing → exec (.ringEdge l) s = .next (clearMarks (put (.ringEdge l) { r with ringQuiet := 0 }))) ∧
    (r.state ≠ .idle → r.state ≠ .ringing →
      exec (.ringEdge l) s = .next (clearMarks (s.withDue (s.due.erase (.ringEdge l))))) ∧
    (r.state = .ringing → 1600 ≤ r.ringQuiet → exec (.ringTimeout l) s =
      .next (clearMarks (raise .lineChange (put (.ringTimeout l) { ring := r.ring, loop := r.loop })))) ∧
    (r.state ≠ .ringing ∨ r.ringQuiet < 1600 →
      exec (.ringTimeout l) s = .next (clearMarks (s.withDue (s.due.erase (.ringTimeout l))))) ∧
    (r.state = .clearing → r.clearing = 0 → exec (.clearingEnd l) s =
      .next (clearMarks (raise .lineChange (put (.clearingEnd l) { ring := r.ring, loop := r.loop })))) ∧
    (r.state ≠ .clearing ∨ r.clearing ≠ 0 →
      exec (.clearingEnd l) s = .next (clearMarks (s.withDue (s.due.erase (.clearingEnd l))))) ∧
    (r.state = .screening ∨ r.state = .hold ∨ r.state = .ready → 20 ≤ r.loopLoss →
      s.lsw.slotA ≠ some l → s.lsw.slotB ≠ some l → exec (.loopSenseDrop l) s =
        .next (clearMarks (raise .lineChange { s with due := s.due.erase (.loopDrop l), lsw := { s.lsw with
          queue := s.lsw.queue.filter fun m => !decide (m = l)
          lines := s.lsw.lines.set l
            { r with state := .clearing, waiting := none, clearing := 200, ringQuiet := 0, loopLoss := 0 } } }))) ∧
    (r.state.offHook = true → 20 ≤ r.loopLoss → ∃ t, exec (.loopSenseDrop l) s = .next t ∧
      (∀ q, (s.port q).init = .high → (t.port q).flags.getLsbD 5 = true) ∧
      t.lsw = { s.lsw with
        queue := s.lsw.queue.filter fun m => !decide (m = l)
        slotA := if s.lsw.slotA = some l then none else s.lsw.slotA
        slotB := if s.lsw.slotB = some l then none else s.lsw.slotB
        lines := s.lsw.lines.set l
          { r with state := .clearing, waiting := none, clearing := 200, ringQuiet := 0, loopLoss := 0 } } ∧
      (r.state = .parked → t.air = { s.air with stack := s.air.stack.map fun c =>
        { c with parked := c.parked.filter fun p => !decide (p.1 = l) } }) ∧
      (r.state ≠ .parked → t.air = s.air) ∧
      (r.state = .air → (∀ m, m ≠ l → s.line m ≠ .air) →
        t.due = s.due.erase (.loopDrop l) ++ [.gateReport false s.lsw.liveCalls]) ∧
      (r.state ≠ .air ∨ (∃ m, m ≠ l ∧ s.line m = .air) → t.due = s.due.erase (.loopDrop l)) ∧
      { t with lsw := s.lsw, air := s.air, due := s.due, pi := s.pi } = clearMarks s) ∧
    (r.state = .idle ∨ r.state = .ringing ∨ r.state = .clearing ∨ r.loopLoss < 20 →
      exec (.loopSenseDrop l) s = .next (clearMarks (s.withDue (s.due.erase (.loopDrop l)))))) ∧
  (∀ (inp : PeriodInput) (first later : List DueKind) (s : State), s.due = [] →
    (first = [] → (∀ k, k ∈ later) → ∃ t, exec (.blockBoundary inp first later) s = .next t ∧
      t.lsw = { s.lsw with lines := t.lsw.lines } ∧
      ∀ l, let r := s.lsw.lines.get l
        t.lsw.lines.get l = { r with
          waiting := if r.state = .hold ∨ r.state = .ready then r.waiting.map fun n => min 17280000 (n + 1) else r.waiting
          onAir := if r.state = .air then r.onAir.map fun p => (min 17280000 (p.1 + 1), p.2) else r.onAir
          ringQuiet := if r.state = .ringing then min 1600 (r.ringQuiet + 1) else r.ringQuiet
          clearing := if r.state = .clearing then r.clearing - 1 else r.clearing
          loopLoss := if r.state.offHook = true ∧ inp.loop.get l = .low then min 20 (r.loopLoss + 1) else 0
          ring := some (inp.ring.get l), loop := some (inp.loop.get l) } ∧
        (.ringEdge l ∈ t.due ↔
          (s.lsw.ringEdges.get l = .rising ∧ r.ring = some .low ∧ inp.ring.get l = .high) ∨
          (s.lsw.ringEdges.get l = .falling ∧ r.ring = some .high ∧ inp.ring.get l = .low)) ∧
        (.ringTimeout l ∈ t.due ↔ r.state = .ringing ∧ 1600 ≤ r.ringQuiet + 1) ∧
        (.loopDrop l ∈ t.due ↔ r.state.offHook = true ∧ inp.loop.get l = .low ∧ 20 ≤ r.loopLoss + 1) ∧
        (.clearingEnd l ∈ t.due ↔ r.state = .clearing ∧ r.clearing ≤ 1)) ∧
    (first = [.lineAudio] → (∀ k, k ≠ .lineAudio → k ∈ later) → s.tb.pendingTime = none →
      ∃ t, exec (.blockBoundary inp first later) s = .next t ∧
        let i := s.audio.cur.inputs
        let heard (a : Audio) : Mono := (List.range 240).map (Config.oneChannel a)
        let line : Option Nth → Mono := fun x => (x.map i.lineReceive.get).getD (List.replicate 240 0)
        (∀ l, (s.line l = .idle ∨ s.line l = .ringing ∨ s.line l = .clearing →
            t.audio.lineSend.get l = List.replicate 240 0) ∧
          (s.line l = .screening → t.audio.lineSend.get l = heard i.screenerIn ∧
            ((∀ m, s.line m = .screening → m = l) → t.audio.screenerOut = i.lineReceive.get l)) ∧
          (s.line l = .hold ∨ s.line l = .ready ∨ s.line l = .parked →
            t.audio.lineSend.get l = heard s.audio.cur.air.audio) ∧
          (s.line l = .air → t.audio.lineSend.get l = heard i.consoleReturn)) ∧
        t.audio.airA = line s.lsw.slotA ∧ t.audio.airB = line s.lsw.slotB ∧
        ((∀ l, s.line l ≠ .screening) → t.audio.screenerOut = List.replicate 240 0)))

/-- DROP LINES drops every line in AIR and no other: each goes to CLEARING for 200 blocks, its slot freed, LINE CHANGE raised, and
the gate is reported when there was one; a dump report with drop on dump does the same, and without it raises the dumps of every
line in AIR by one, up to 255 (R96, R99, R100, R103). The report of a dump performed in FROZEN drops and counts no one, whenever it is
taken (R100). That the row is the report of a dump of its own when none is outstanding is log 3. -/
def Obligations.KeysAndDumpsDropTheCallersOnAir : Prop :=
  ∀ s : State, .clockSet ∉ s.due →
    (s.lsw.anyIn .air = false → exec .dropLines s = .next (clearMarks (s.withDue (s.due.erase .dropLines)))) ∧
    (let dropped (due : List Due) (t : State) : Prop :=
       (s.lsw.anyIn .air = true → (∀ q, (s.port q).init = .high → (t.port q).flags.getLsbD 5 = true) ∧
         t.due = due ++ [.gateReport false s.lsw.liveCalls]) ∧
       (s.lsw.anyIn .air = false → t.due = due) ∧
       (∀ l, s.line l = .air → t.line l = .clearing ∧ t.lsw.slotA ≠ some l ∧ t.lsw.slotB ≠ some l ∧
         t.lsw.lines.get l = { s.lsw.lines.get l with
           state := .clearing, waiting := none, clearing := 200, ringQuiet := 0, loopLoss := 0 }) ∧
       (∀ l, s.line l ≠ .air → t.lsw.lines.get l = s.lsw.lines.get l) ∧
       { t with lsw := s.lsw, pi := s.pi, due := s.due } = clearMarks s
     let oldest := s.due.find? fun d => decide (d.kind = .dumpReport)
     (∃ t, exec .dropLines s = .next t ∧ dropped (s.due.erase .dropLines) t) ∧
     (oldest = some (.dumpReport true) →
       exec .dumpReport s = .next (clearMarks (s.withDue (s.due.erase (.dumpReport true))))) ∧
     (oldest = none → s.dly.state = .frozen → exec .dumpReport s = .next (clearMarks s)) ∧
     (∀ due, (oldest = some (.dumpReport false) ∧ due = s.due.erase (.dumpReport false)) ∨
         (oldest = none ∧ s.dly.state ≠ .frozen ∧ due = s.due) →
       (s.lsw.dropOnDump = true → ∃ t, exec .dumpReport s = .next t ∧ dropped due t) ∧
       (s.lsw.dropOnDump = false → exec .dumpReport s = .next (clearMarks { s with
         due := due
         lsw := { s.lsw with lines := s.lsw.lines.map fun r =>
           if r.state = .air then { r with onAir := r.onAir.map fun p => (p.1, min 255 (p.2 + 1)) } else r } }))))

/-! ### The delay store -/

/-- SET DELAY OPTIONS writes the dump amount and the build ratio in any state, or neither when one is out of range; no notice
is raised; the ratio is used at the next boundary that counts steps (R117). -/
def Obligations.SetDelayOptionsWritesBoth : Prop :=
  ∀ (a : Half) (r : Byte) (s : State), RefusedOff [.b] (fun p => .setDelayOptions p a r) 60 s ∧
    (Arrives (.setDelayOptions .b a r) .b s →
      (a.toNat = 0 ∨ 6000 < a.toNat ∨ r.toNat < 8 ∨ 64 < r.toNat →
        exec (.setDelayOptions .b a r) s = .next (replyTo .b 60 ⟨.badValue, []⟩ s)) ∧
      (1 ≤ a.toNat → a.toNat ≤ 6000 → 8 ≤ r.toNat → r.toNat ≤ 64 → exec (.setDelayOptions .b a r) s =
        .next (replyTo .b 60 ⟨.ok, []⟩ { s with dly := { s.dly with dumpAmount := a.toNat, ratio := r.toNat } }))) ∧
    s.dly.dumped = min s.dly.dumpAmount s.dly.delay ∧
    (s.dly.stepDue = true ↔ s.dly.ratio ≤ s.dly.stepCount + 1)

/-- ENGAGE and DISENGAGE set the target and settle the state by R109's table, with DELAY STATE raised for a change; the reply is
PENDING until the target is reached; in FROZEN the state is left to the unfreeze (R109, R115, R116, R122, R124). Refused are
a target above 6000, and, with a caller on air and live calls not permitted, a target of 0; that FROZEN refuses neither on that
ground, and that ENGAGE with 0 in BYPASS stays there whatever the gate, is log 38. -/
def Obligations.EngageAndDisengageSettleTheState : Prop :=
  ∀ (n : Half) (s : State), RefusedOff [.b] (fun p => .engage p n) 57 s ∧ RefusedOff [.b] .disengage 58 s ∧
    (Arrives (.engage .b n) .b s → Arrives (.disengage .b) .b s →
      let closed := s.dly.gateAir = true ∧ s.dly.gateLive = false
      let settles (target : Nat) : RunState :=
        if s.dly.delay < target then .building else if target < s.dly.delay then .shrinking
        else if 1 ≤ target then .engaged else if closed then .engaged else .bypass
      let result (r : RunState) : Result := if r = .building ∨ r = .shrinking then .pending else .ok
      let settled (target : Nat) : State := when (!decide (DelayState.run (settles target) = s.dly.state)) (raise .delayState)
        { s with dly := { s.dly with
            target := target, state := .run (settles target)
            stepCount := if s.dly.state = .run (settles target) then s.dly.stepCount else 0 } }
      (6000 < n.toNat → exec (.engage .b n) s = .next (replyTo .b 57 ⟨.badValue, []⟩ s)) ∧
      (s.dly.state ≠ .frozen → closed → n.toNat = 0 → s.dly.state ≠ .run .bypass →
        exec (.engage .b n) s = .next (replyTo .b 57 ⟨.inUse, []⟩ s)) ∧
      (s.dly.state ≠ .frozen → closed → exec (.disengage .b) s = .next (replyTo .b 58 ⟨.inUse, []⟩ s)) ∧
      (n.toNat = 0 → s.dly.state = .run .bypass → exec (.engage .b n) s =
        .next (replyTo .b 57 ⟨.ok, []⟩ { s with dly := { s.dly with target := 0 } })) ∧
      (n.toNat ≤ 6000 → s.dly.state ≠ .frozen → (1 ≤ n.toNat ∨ (¬ closed ∧ s.dly.state ≠ .run .bypass)) →
        exec (.engage .b n) s = .next (replyTo .b 57 ⟨result (settles n.toNat), []⟩ (settled n.toNat))) ∧
      (s.dly.state ≠ .frozen → s.dly.state ≠ .run .bypass → ¬ closed →
        exec (.disengage .b) s = .next (replyTo .b 58 ⟨result (settles 0), []⟩ (settled 0))) ∧
      (s.dly.state = .run .bypass → ¬ closed → exec (.disengage .b) s =
        .next (replyTo .b 58 ⟨.ok, []⟩ { s with dly := { s.dly with target := 0 } })) ∧
      (s.dly.state = .frozen → n.toNat ≤ 6000 → exec (.engage .b n) s = .next (replyTo .b 57 ⟨.pending, []⟩
        { s with dly := { s.dly with target := n.toNat, recompute := true } })) ∧
      (s.dly.state = .frozen → exec (.disengage .b) s = .next (replyTo .b 58 ⟨.pending, []⟩
        { s with dly := { s.dly with target := 0, recompute := true } })))

/-- DUMP: refused in BYPASS; elsewhere the read position moves on by the dump amount, or by all the delay there is, the state is
settled anew or left to the unfreeze, a DUMP entry gives the amount, DUMP is raised and LSW is told, with whether it was in FROZEN
(R100, R118, R119, R120, R122). A dump that changes the state raises DELAY STATE and sets the step count to 0; one that leaves it keeps
the count and raises none (R109, R120, R124). -/
def Obligations.DumpDiscardsUnairedProgramme : Prop :=
  ∀ s : State, RefusedOff [.b] .dump 59 s ∧
    (Arrives (.dump .b) .b s →
      let amount := min s.dly.dumpAmount s.dly.delay
      (s.dly.state = .run .bypass → exec (.dump .b) s = .next (replyTo .b 59 ⟨.wrongState, []⟩ s)) ∧
      (s.dly.state = .frozen → exec (.dump .b) s = .next (replyTo .b 59 ⟨.ok, beBytes 2 amount⟩
        (raise .dump (logEntry .dump .none (.number amount) { s with
          dly := { s.dly with readPos := (s.dly.readPos + amount) % 8192, recompute := true }
          due := s.due ++ [.dumpReport true] })))) ∧
      (s.dly.state ≠ .run .bypass → s.dly.state ≠ .frozen → s.dly.readPos < 8192 → s.dly.writePos < 8192 →
        ∃ t, exec (.dump .b) s = .next (replyTo .b 59 ⟨.ok, beBytes 2 amount⟩ t) ∧
          t.dly.readPos = (s.dly.readPos + amount) % 8192 ∧ t.dly.delay = s.dly.delay - amount ∧
          (t.dly.delay < t.dly.target → t.dly.state = .run .building) ∧
          (t.dly.target < t.dly.delay → t.dly.state = .run .shrinking) ∧
          (t.dly.delay = t.dly.target → t.dly.state = .run (if 1 ≤ t.dly.target then .engaged
            else if s.dly.gateAir = true ∧ s.dly.gateLive = false then .engaged else .bypass)) ∧
          t.dly.stepCount = (if t.dly.state = s.dly.state then s.dly.stepCount else 0) ∧
          (∀ q, (s.port q).init = .high → (t.port q).flags.getLsbD 7 = true ∧
            ((t.port q).flags.getLsbD 6 = true ↔ t.dly.state ≠ s.dly.state ∨ (s.port q).flags.getLsbD 6 = true)) ∧
          t.log = s.log.append (stamp s) .dump .none (.number amount) ∧ t.due = s.due ++ [.dumpReport false] ∧
          { t.dly with readPos := s.dly.readPos, state := s.dly.state, stepCount := s.dly.stepCount } = s.dly ∧
          { t with dly := s.dly, log := s.log, due := s.due, pi := s.pi } = s))

/-- A step of growth writes the incoming block, reads none, emits a stretch copy of the last emitted block and raises the delay
by one; a step of shrinkage writes it, discards one cell and emits the next; when the delay then equals the target the state
settles and DELAY STATE is raised for the change, and a step short of the target raises no notice (R109, R111, R112, R113, R124).
At any other boundary the ordinary action is taken: BYPASS passes the block by, FROZEN stands still, the other states write it
and emit the cell at the read position, BUILDING and SHRINKING counting it (R108). In FROZEN OUT's block of the boundary stands
before DLY's even where every other event is left for later: R152 asks for one fill block at most after an unfreeze, and that
fixed order, which keeps to it, is the model's choice (log 2). The incoming block is AIR's of the boundary before (R1), also
where that is a chain's last (log 56). -/
def Obligations.StepsChangeTheDelayByOneBlock : Prop :=
  let notified (s t : State) : Prop :=
    (t.dly.state = s.dly.state → t.pi = s.pi) ∧
    (t.dly.state ≠ s.dly.state → t.pi.handed = s.pi.handed ∧
      ∀ q, t.port q = if (s.port q).init = .high then { s.port q with flags := (s.port q).flags ||| 64 } else s.port q)
  (∀ s : State, DueNow .delay s → s.dly.ratio ≤ s.dly.stepCount + 1 → s.dly.readPos < 8192 → s.dly.writePos < 8192 →
    (s.dly.state = .run .building → 1 ≤ s.dly.target → s.dly.delay < 8191 → ∃ t, exec .buildStep s = .next t ∧
      t.dly.ring = Memory.write s.dly.ring s.dly.writePos s.audio.prev.programme ∧
      t.dly.writePos = (s.dly.writePos + 1) % 8192 ∧ t.dly.readPos = s.dly.readPos ∧ t.dly.delay = s.dly.delay + 1 ∧
      t.dly.stepCount = 0 ∧
      (∀ b, s.dly.last = some b → t.audio.cur.delayed = some { b with tag := { b.tag with stretch := true } }) ∧
      t.dly.state = (if s.dly.delay + 1 = s.dly.target then .run .engaged else .run .building) ∧ notified s t ∧
      t.out = s.out ∧ t.log = s.log ∧ t.lsw = s.lsw ∧ t.air = s.air ∧ t.cue = s.cue ∧ t.alc = s.alc ∧ t.lnk = s.lnk) ∧
    (s.dly.state = .run .shrinking → 1 ≤ s.dly.delay → ∃ t, exec .shrinkStep s = .next t ∧
      t.dly.ring = Memory.write s.dly.ring s.dly.writePos s.audio.prev.programme ∧
      t.dly.writePos = (s.dly.writePos + 1) % 8192 ∧ t.dly.readPos = (s.dly.readPos + 2) % 8192 ∧
      t.dly.delay = s.dly.delay - 1 ∧ t.dly.stepCount = 0 ∧
      t.audio.cur.delayed = some (Memory.read t.dly.ring ((s.dly.readPos + 1) % 8192)) ∧
      t.dly.state = (if s.dly.delay - 1 ≠ s.dly.target then .run .shrinking
        else if 1 ≤ s.dly.target ∨ (s.dly.gateAir = true ∧ s.dly.gateLive = false) then .run .engaged else .run .bypass) ∧
      notified s t ∧ t.out = s.out ∧ t.log = s.log ∧ t.lsw = s.lsw ∧ t.air = s.air ∧ t.cue = s.cue ∧ t.alc = s.alc ∧ t.lnk = s.lnk)) ∧
  (∀ (inp : PeriodInput) (later : List DueKind) (s : State), s.due = [] → (∀ k, k ≠ .delay → k ∈ later) →
    s.tb.pendingTime = none → ∃ t, exec (.blockBoundary inp [.delay] later) s = .next t ∧
      let b := s.audio.cur.programme
      let d := s.dly
      let ring := Memory.write d.ring d.writePos b
      let out := Memory.read ring d.readPos
      (d.state = .frozen → t.dly = d ∧ t.audio.cur.delayed = none ∧
        (s.out.alertFlag = true → t.audio.cur.air.audio = s.audio.cur.inputs.alert ∧ t.audio.cur.air.tag.origin = .alert)) ∧
      (d.state = .run .bypass → t.dly = { d with last := some b } ∧ t.audio.cur.delayed = some b) ∧
      (d.state = .run .engaged → t.dly = { d with
        ring := ring, writePos := (d.writePos + 1) % 8192, readPos := (d.readPos + 1) % 8192, last := some out } ∧
        t.audio.cur.delayed = some out) ∧
      (d.state = .run .building ∨ d.state = .run .shrinking → d.stepCount + 1 < d.ratio → t.dly = { d with
        ring := ring, writePos := (d.writePos + 1) % 8192, readPos := (d.readPos + 1) % 8192, last := some out
        stepCount := d.stepCount + 1 } ∧ t.audio.cur.delayed = some out) ∧
      (d.state ≠ .frozen → t.audio.cur.air = s.audio.cur.air ∧ (KeysSampled s → t.out = s.out ∧ t.log = s.log)))

/-- DLY records the gate a report brings; ENGAGED at a target and a delay of 0, an open gate takes it to BYPASS with DELAY STATE;
in BUILDING, SHRINKING and FROZEN nothing else changes. In BYPASS a closed gate takes it to ENGAGED with a target of 0 (R114,
in its second paragraph; log 38). That a report which finds the recorded gate open already opens it too is log 47. -/
def Obligations.GateReportsAreRecorded : Prop :=
  ∀ (air live : Bool) (s : State), s.due = [.gateReport air live] →
    let recorded : DLY := { s.dly with gateAir := air, gateLive := live }
    (s.dly.state = .run .engaged → s.dly.target = 0 → s.dly.delay = 0 → air = false ∨ live = true →
      exec .gateReport s = .next (raise .delayState { s with
        due := [], dly := { recorded with state := .run .bypass, stepCount := 0 } })) ∧
    (s.dly.state = .frozen ∨ s.dly.state = .run .building ∨ s.dly.state = .run .shrinking →
      exec .gateReport s = .next { s with due := [], dly := recorded }) ∧
    (s.dly.state = .run .engaged → s.dly.target ≠ 0 ∨ s.dly.delay ≠ 0 ∨ (air = true ∧ live = false) →
      exec .gateReport s = .next { s with due := [], dly := recorded }) ∧
    (s.dly.state = .run .bypass → air = false ∨ live = true → exec .gateReport s = .next { s with due := [], dly := recorded }) ∧
    (s.dly.state = .run .bypass → air = true → live = false → exec .gateReport s = .next (raise .delayState { s with
      due := [], dly := { recorded with state := .run .engaged, stepCount := 0, target := 0 } }))


/-! ### Alerts -/

/-- ALERT HEADER, step by step: a field out of range, a known pair, an alert for other areas, an ignored event, a full queue,
and an alert that is placed in the queue to be held or, with the air free and a record to give, to air at once (R127, R128,
R132 to R136, R142 to R144); with a lower alert on air an alert that enters READY interrupts it (R145); into a full queue it
displaces a lower one (R133); with no record to give it is granted the air without one, the PLAYING entry ended, the lines on
HOLD, STACK FULL logged (R43, R44). A chain that gets a record keeps in it the air as the grant found it, the entry that was PLAYING,
the lines on air and DLY's state among it, and each owner does its part in the event (R31, R35, R70, R101, R121); from TEST the mode
goes to LIVE first (R23, R24). The outcome byte of the reply is the model's layout, log 6; the order of two blocks' entries
in one event is its choice, log 54; what a grant keeps of a DLY that is FROZEN already, which no run reaches, is log 43. Airings
stated with the wake option off, grants without a record for an empty list or that of one PLAYING JOIN. -/
def Obligations.AlertHeadersAreJudged : Prop :=
  ∀ (h : HeaderFields) (s : State), h.areas.length ≤ 16 →
    RefusedOff [.c] (fun p => .alertHeader p h) 66 s ∧
    (Arrives (.alertHeader .c h) .c s →
      ((∃ c ∈ [h.event1, h.event2, h.event3], c.toNat < 65 ∨ 90 < c.toNat) ∨ h.priority.toNat = 0 ∨ 3 < h.priority.toNat ∨
          h.areas = [] ∨ (∃ a ∈ h.areas, 999999 < a.toNat) ∨ h.validity.toNat = 0 ∨ 1440 < h.validity.toNat ∨
          h.audioLength.toNat < 200 ∨ 24000 < h.audioLength.toNat →
        exec (.alertHeader .c h) s = .next (replyTo .c 66 ⟨.badValue, []⟩ (clearMarks s))) ∧
      ∀ k, headerOf h = some k →
        let known := (if s.alc.known.length < 32 then s.alc.known else s.alc.known.drop 1) ++ [k.pair]
        let matched := ∃ a ∈ k.areas, a ∈ s.alc.areas
        let hold := if s.air.mode = .live then s.alc.liveHold else if s.air.mode = .unattended then 0 else s.alc.autoHold
        let e : AlertEntry := { header := k, state := .pending, arrival := s.alc.nextArrival, validity := k.validity * 12000 }
        (k.pair ∈ s.alc.known ∨ (∃ x ∈ s.alc.queue, x.header.pair = k.pair) → exec (.alertHeader .c h) s =
          .next (replyTo .c 66 ⟨.duplicate, []⟩ (clearMarks (logEntry .alertDuplicate (.alert k.pair) (.number 0) s)))) ∧
        (k.pair ∉ s.alc.known → (∀ x ∈ s.alc.queue, x.header.pair ≠ k.pair) →
          (k.priority ≠ 3 → ¬ matched → exec (.alertHeader .c h) s = .next (replyTo .c 66 ⟨.ok, [0]⟩ (clearMarks
            (logEntry .alertFiltered (.alert k.pair) (.event k.event) { s with alc := { s.alc with known := known } })))) ∧
          (k.priority ≠ 3 → matched → s.alc.actionFor k.event = .ignore →
            exec (.alertHeader .c h) s = .next (replyTo .c 66 ⟨.ok, [1]⟩ (clearMarks
              (logEntry .alertIgnored (.alert k.pair) (.event k.event) { s with alc := { s.alc with known := known } })))) ∧
          (k.priority = 3 ∨ (matched ∧ s.alc.actionFor k.event ≠ .ignore) → s.alc.queue.length = 8 →
            (∀ x ∈ s.alc.queue, x.state ≠ .onAir → k.priority ≤ x.header.priority) →
            exec (.alertHeader .c h) s = .next (replyTo .c 66 ⟨.full, []⟩ (clearMarks
              (logEntry .alertRefusedFull (.alert k.pair) (.number k.priority) s)))) ∧
          (k.priority ≠ 3 → matched → s.alc.actionFor k.event = .hold → 1 ≤ hold → s.alc.queue.length < 8 →
            exec (.alertHeader .c h) s = .next (replyTo .c 66 ⟨.ok, [2, 1]⟩ (clearMarks (raise .alertArrived
              (logEntry .alertReceived (.alert k.pair) (.received k.priority .pending) { s with alc := { s.alc with
                known := known, nextArrival := s.alc.nextArrival + 1
                queue := place { e with hold := hold } s.alc.queue } }))))) ∧
          (k.priority = 3 ∨ (k.priority = 2 ∧ matched ∧ s.alc.actionFor k.event = .forward) → s.alc.queue = [] →
            s.alc.chainOpen = false → s.air.chain = .none → s.air.stack.length < s.air.maxDepth → s.alc.wake = false →
            let received := s.log.append (stamp s) .alertReceived (.alert k.pair) (.received k.priority .ready)
            ∃ t, exec (.alertHeader .c h) s = .next (replyTo .c 66 ⟨.ok, [3, 1]⟩ t) ∧ t.alc.known = known ∧
              (∀ p, (s.port p).init = .high → (t.port p).flags.getLsbD 8 = true) ∧
              (s.air.mode ≠ .test → ChainBegun { e with state := .ready } received s.due s t) ∧
              (s.air.mode = .test → t.air.mode = .live ∧ t.out.reasons.test = false ∧ t.out.alertFlag = true ∧
                t.out.alertId = some k.pair ∧ t.alc.chainOpen = true ∧ t.alc.go = true ∧
                (s.out.reasons.silence = (s.out.deadAir && s.out.failover) →
                  let left : SafeSet := { s.out.reasons with test := false }
                  let safe := if s.out.reasons.test = true ∧ left = {} then
                    received.append (stamp s) .safeOff .none (.reason .test) else received
                  ChainBegun { e with state := .ready } (safe.append (stamp s) .modeChange .none (.mode .live true)) s.due
                    { s with air := { s.air with mode := .live }, out := { s.out with reasons := left } } t))) ∧
          (∀ o, k.priority = 3 ∨ (k.priority = 2 ∧ matched ∧ s.alc.actionFor k.event = .forward) → s.alc.queue = [o] →
            o.state = .onAir → o.header.priority < k.priority → 1 ≤ o.validity → s.air.mode ≠ .test → s.alc.wake = false →
            ∃ t, exec (.alertHeader .c h) s = .next (replyTo .c 66 ⟨.ok, [3, 1]⟩ t) ∧
              t.alc = { s.alc with
                known := known, nextArrival := s.alc.nextArrival + 1, go := false, goRiseAfter := some s.boundaryNo
                queue := [{ e with state := .onAir, begun := s.boundaryNo },
                  { o with state := .ready, played := 0, advisory := 0, interruptions := min 255 (o.interruptions + 1) }] } ∧
              t.out = { s.out with alertId := some k.pair } ∧
              t.log = ((s.log.append (stamp s) .alertReceived (.alert k.pair) (.received k.priority .ready)).append (stamp s)
                .alertInterrupted (.alert o.header.pair) (.pair k.pair)).append (stamp s) .alertOnAir (.alert k.pair)
                (.onAir k.priority 0) ∧
              (∀ p, (s.port p).init = .high → (t.port p).flags.getLsbD 9 = true) ∧
              { t with alc := s.alc, out := s.out, log := s.log, pi := s.pi } = clearMarks s) ∧
          (∀ x, k.priority = 2 → matched → s.alc.actionFor k.event = .hold → 1 ≤ hold → s.alc.queue.length = 8 →
            (s.alc.queue.filter fun y => !decide (y.state = .onAir)).getLast? = some x → x.header.priority < k.priority →
            exec (.alertHeader .c h) s = .next (replyTo .c 66 ⟨.ok, [2, 0] ++ x.header.pair.bytes⟩ (clearMarks
              (raise .alertArrived (logEntry .alertReceived (.alert k.pair) (.received k.priority .pending)
                (raise .alertState (logEntry .alertDisplaced (.alert x.header.pair) (.pair k.pair) { s with alc := { s.alc with
                  known := known, nextArrival := s.alc.nextArrival + 1
                  queue := place { e with hold := hold }
                    (s.alc.queue.filter fun y => !decide (y.header.pair = x.header.pair)) } }))))))) ∧
          (k.priority = 3 → s.alc.queue = [] → s.alc.chainOpen = false → s.air.chain = .none →
            s.air.maxDepth ≤ s.air.stack.length → s.alc.wake = false → s.air.mode ≠ .test →
            let granted (list : List CueEntry) (log : LOG) (due : List Due) : Prop :=
              ∃ t, exec (.alertHeader .c h) s = .next (replyTo .c 66 ⟨.ok, [3, 1]⟩ t) ∧
                t.air = { s.air with chain := .withoutContext, chainSource := some (selectedSource s) } ∧
                t.cue.list = list ∧ t.cue.held = true ∧ t.dly.state = .frozen ∧ t.dly.kept = some s.dly.runState ∧
                t.out = { s.out with alertFlag := true, alertId := some k.pair } ∧ t.alc.chainOpen = true ∧
                t.alc.go = true ∧ t.alc.queue = [{ e with state := .onAir, begun := s.boundaryNo }] ∧
                (∀ l, s.line l = .air →
                  t.lsw.lines.get l = { s.lsw.lines.get l with state := .hold, waiting := some 0 }) ∧
                t.log = (log.append (stamp s) .stackFull (.alert k.pair) (.number s.air.stack.length)).append (stamp s)
                  .alertOnAir (.alert k.pair) (.onAir 3 0) ∧
                (∀ p, (s.port p).init = .high → (t.port p).flags.getLsbD 8 = true ∧ (t.port p).flags.getLsbD 9 = true) ∧
                (s.lsw.anyIn .air = false → t.due = due) ∧ t.tb = s.tb ∧ t.lnk = s.lnk ∧ t.site = s.site
            let received := s.log.append (stamp s) .alertReceived (.alert k.pair) (.received 3 .ready)
            (s.cue.list = [] → granted [] received s.due) ∧
            (∀ r rest j f len, s.air.stack = r :: rest → r.kind = .breakIn → s.cue.list = [j] → j.state = .playing →
              j.kind = .join f len →
              granted [] (received.append (stamp s) .itemSkipped (.cue j.serial) (.skipped .noContext))
                (s.due ++ [.withdrawal r.number j.serial])))))

/-- ALERT END and CANCEL ALERT: nothing on air, another alert's pair, a pair that is not in the queue and an immediate alert on
air are refused; else the airing ends, and the chain goes on with the READY head, its go line held low, or ends. An entry
that waits is cancelled in its place, and with the chain closed the READY head airs where it may, its record keeping the
air as the grant found it (R31, R35, R140, R142, R146, R147). The end of a chain without a record adds RESUME LOST (R45); that of a
chain whose record holds a late break-in starts the JOIN where the network is, or misses it when it is over (R48); a chain's
record gives back the entry it suspended by its policy, and its callers by the state DLY returns to (R37, R71, R72, R102). In each
every block stands as it was formed (R1); that DLY takes the chain's last programme block is log 56. A resumed ITEM's run line rises
as R71 says, but that an earlier event of the block period may hold it low, so that it is high only where no rise is awaited, is the
model's reading, log 41. With the wake option on each airing wakes the site (R185). FORWARD ALERT sends a PENDING entry on, named or
the head (R139). The order of two blocks' entries in one event is the model's choice, log 54; the BYPASS of a chain that kept no delay
state, and record 1 with none free, log 43. -/
def Obligations.AlertsAreEndedCancelledAndForwarded : Prop :=
  ∀ (o n : Half) (named : Option (Half × Half)) (s : State),
    RefusedOff [.c] (fun p => .alertEnd p o n) 67 s ∧ RefusedOff [.b] (fun p => .cancelAlert p o n) 72 s ∧
    RefusedOff [.b] (fun p => .forwardAlert p named) 71 s ∧
    (Arrives (.alertEnd .c o n) .c s →
      (s.alc.onAir = none → exec (.alertEnd .c o n) s = .next (replyTo .c 67 ⟨.wrongState, []⟩ (clearMarks s))) ∧
      (∀ e, s.alc.onAir = some e → e.header.pair ≠ ⟨o, n⟩ →
        exec (.alertEnd .c o n) s = .next (replyTo .c 67 ⟨.stale, []⟩ (clearMarks s))) ∧
      (∀ e r, s.alc.queue = [e] → e.state = .onAir → e.header.pair = ⟨o, n⟩ → ChainAlone r s →
        ∃ t, exec (.alertEnd .c o n) s = .next (replyTo .c 67 ⟨.ok, []⟩ t) ∧ ChainGivenBack r s t ∧
          t.log = s.log.append (stamp s) .alertEnded (.alert ⟨o, n⟩) (.alertEnd .ended)) ∧
      (∀ e r rest, s.alc.queue = [e] → e.state = .onAir → e.header.pair = ⟨o, n⟩ → ChainOnTop r rest s →
        GivesBack r rest s.cue.list (s.dly.returnsTo (r.delayBefore.getD .bypass) = .bypass)
          (fun log => log.append (stamp s) .alertEnded (.alert ⟨o, n⟩) (.alertEnd .ended)) id s.due s
          fun t => exec (.alertEnd .c o n) s = .next (replyTo .c 67 ⟨.ok, []⟩ t) ∧ ChainOver r rest s t) ∧
      (∀ e f, s.alc.queue = [e, f] → e.state = .onAir → f.state = .ready → e.header.pair = ⟨o, n⟩ → f.header.pair ≠ ⟨o, n⟩ →
        s.alc.go = true → s.alc.wake = false →
        ∃ t, exec (.alertEnd .c o n) s = .next (replyTo .c 67 ⟨.ok, []⟩ t) ∧
          t.alc = { s.alc with
            queue := [{ f with state := .onAir, played := 0, advisory := 0, begun := s.boundaryNo }]
            go := false, goRiseAfter := some s.boundaryNo } ∧
          t.out = { s.out with alertId := some f.header.pair } ∧
          t.log = (s.log.append (stamp s) .alertEnded (.alert ⟨o, n⟩) (.alertEnd .ended)).append (stamp s) .alertOnAir
            (.alert f.header.pair) (.onAir f.header.priority f.interruptions) ∧
          { t with alc := s.alc, out := s.out, log := s.log, pi := s.pi } = clearMarks s) ∧
      (∀ e f, s.alc.queue = [e, f] → e.state = .onAir → f.state = .ready → e.header.pair = ⟨o, n⟩ → f.header.pair ≠ ⟨o, n⟩ →
        s.alc.wake = true →
        let ended := s.log.append (stamp s) .alertEnded (.alert ⟨o, n⟩) (.alertEnd .ended)
        let airs (log : LOG) (t : State) : Prop := exec (.alertEnd .c o n) s = .next (replyTo .c 67 ⟨.ok, []⟩ t) ∧
          t.out = { s.out with alertId := some f.header.pair } ∧
          t.log = log.append (stamp s) .alertOnAir (.alert f.header.pair) (.onAir f.header.priority f.interruptions)
        (s.site.state = .full ∨ s.site.state = .starting ∨ s.site.state = .raising →
          ∃ t, airs ended t ∧ t.site = s.site ∧ t.lnk = s.lnk) ∧
        (s.site.state = .lowering → ∃ t, airs ended t ∧ t.site = { s.site with pendingWake := true } ∧ t.lnk = s.lnk) ∧
        (s.site.state = .unknown ∨ s.site.state = .off ∨ s.site.state = .stopping ∨ s.site.state = .fault →
          ∃ t, airs (ended.append (stamp s) .scheduleNotTaken .none (.schedule .wake s.site.state)) t ∧ t.site = s.site) ∧
        (s.site.state = .low → s.site.stage = none → s.lnk.queue = [] → s.lnk.outstanding = none →
          let commands := (s.site.those fun r => decide (r.slot = some 0) && !decide (r.reported = .on)).map SiteCommand.on
          commands ≠ [] →
          ∃ t, airs (ended.append (stamp s) .siteState .none (.site .low .raising .wake)) t ∧ t.site.state = .raising ∧
            (∃ st, t.site.stage = some st ∧ st.kind = .upSlot ∧ st.slot = some 0 ∧ st.awaiting = commands) ∧
            t.lnk.queue.map (·.command) = commands ∧
            ∀ p, (s.port p).init = .high → (t.port p).flags.getLsbD 12 = true)) ∧
      (∀ e, s.alc.queue = [e] → e.state = .onAir → e.header.pair = ⟨o, n⟩ → s.air.chain = .withoutContext →
        s.dly.state = .frozen → s.cue.list = [] →
        ∃ t, exec (.alertEnd .c o n) s = .next (replyTo .c 67 ⟨.ok, []⟩ t) ∧ t.alc.queue = [] ∧ t.alc.chainOpen = false ∧
          t.alc.go = false ∧ t.air = { s.air with chain := .none, chainSource := none } ∧
          t.cue.held = (if s.air.stack = [] then false else s.cue.held) ∧
          t.dly = s.dly.returned (s.dly.kept.getD .bypass) ∧
          t.audio = s.audio ∧
          t.out = { s.out with alertFlag := false, reasons := { s.out.reasons with resumeLost := true } } ∧
          (∀ p, (s.port p).init = .high → (t.port p).flags.getLsbD 14 = true) ∧
          (let ended := s.log.append (stamp s) .alertEnded (.alert ⟨o, n⟩) (.alertEnd .ended)
           let lost (log : LOG) : LOG := log.append (stamp s) .resumeLost .none (.number s.air.stack.length)
           (s.out.reasons = {} → t.log = lost (ended.append (stamp s) .safeOn .none (.reason .resumeLost))) ∧
           (s.out.reasons ≠ {} → t.log = lost ended)) ∧
          t.lsw = s.lsw ∧ t.lnk = s.lnk ∧ t.site = s.site ∧ t.tb = s.tb) ∧
      (∀ e r rest j f len at_, s.alc.queue = [e] → e.state = .onAir → e.header.pair = ⟨o, n⟩ → s.air.chain = .withContext →
        s.air.stack = r :: rest → r.kind = .alert → (∀ x ∈ rest, x.number ≠ r.number) → r.late = some (j.serial, at_) →
        r.suspended = none → r.parked = [] → s.cue.list = [j] → j.state = .cuedLate → j.kind = .join f len →
        s.dly.state = .frozen →
        let gone := (s.tb.clock + 17280000 - at_) % 17280000
        let ended := s.log.append (stamp s) .alertEnded (.alert ⟨o, n⟩) (.alertEnd .ended)
        let back (t : State) : Prop := exec (.alertEnd .c o n) s = .next (replyTo .c 67 ⟨.ok, []⟩ t) ∧
          t.air.chain = .none ∧ t.out = { s.out with alertFlag := false } ∧ t.alc.queue = [] ∧ t.alc.chainOpen = false ∧
          t.dly = s.dly.returned (r.delayBefore.getD .bypass) ∧
          t.audio = s.audio ∧ t.lsw = s.lsw ∧ t.site = s.site ∧ t.tb = s.tb
        (gone < len → ∃ t, back t ∧
          t.air.stack = { r with kind := .breakIn, delayBefore := none, late := none } :: rest ∧ t.air.free = s.air.free ∧
          t.cue.list = [{ j with state := .playing, elapsed := gone, joinEnd := some ((at_ + len) % 17280000)
                                 begun := s.boundaryNo }] ∧
          t.cue.held = s.cue.held ∧ t.log = ended.append (stamp s) .joinStart (.cue j.serial) (.number (len - gone))) ∧
        (len ≤ gone → ∃ t, back t ∧ t.air.free = r.number :: s.air.free ∧ t.air.stack.length = rest.length ∧
          t.cue.list = [] ∧ (∀ p, (s.port p).init = .high → (t.port p).flags.getLsbD 3 = true) ∧
          t.log = ended.append (stamp s) .itemMissed (.cue j.serial) (.missed .tooLate)))) ∧
    (Arrives (.cancelAlert .b o n) .b s →
      ((∀ x ∈ s.alc.queue, x.header.pair ≠ ⟨o, n⟩) →
        exec (.cancelAlert .b o n) s = .next (replyTo .b 72 ⟨.notFound, []⟩ (clearMarks s))) ∧
      ∀ e, s.alc.find ⟨o, n⟩ = some e →
        (e.state = .onAir → e.header.priority = 3 →
          exec (.cancelAlert .b o n) s = .next (replyTo .b 72 ⟨.inUse, []⟩ (clearMarks s))) ∧
        (e.state ≠ .onAir → s.alc.chainOpen = true ∨ (∀ x ∈ s.alc.queue, x.header.pair ≠ ⟨o, n⟩ → x.state = .ready →
            s.air.mode ≠ .live ∧ x.header.priority = 1 ∧ x.advisory ≠ 0) → exec (.cancelAlert .b o n) s =
          .next (replyTo .b 72 ⟨.ok, []⟩ (clearMarks (raise .alertState
            (logEntry .alertCancelled (.alert ⟨o, n⟩) (.alertState e.state) { s with alc := { s.alc with
              queue := s.alc.queue.filter fun x => !decide (x.header.pair = ⟨o, n⟩) } }))))) ∧
        (∀ f, s.alc.queue = [e, f] → e.state ≠ .onAir → f.state = .ready → f.header.pair ≠ ⟨o, n⟩ →
          s.air.mode = .live ∨ 2 ≤ f.header.priority ∨ f.advisory = 0 → s.alc.chainOpen = false → s.air.chain = .none →
          s.air.stack.length < s.air.maxDepth → s.alc.wake = false →
          ∃ t, exec (.cancelAlert .b o n) s = .next (replyTo .b 72 ⟨.ok, []⟩ t) ∧
            ChainBegun f (s.log.append (stamp s) .alertCancelled (.alert ⟨o, n⟩) (.alertState e.state)) s.due s t) ∧
        (∀ r, e.state = .onAir → e.header.priority ≠ 3 → s.alc.queue = [e] → ChainAlone r s →
          ∃ t, exec (.cancelAlert .b o n) s = .next (replyTo .b 72 ⟨.ok, []⟩ t) ∧ ChainGivenBack r s t ∧
            t.log = s.log.append (stamp s) .alertCancelled (.alert ⟨o, n⟩) (.alertState .onAir))) ∧
    (Arrives (.forwardAlert .b named) .b s →
      (∀ p q, named = some (p, q) → (∀ x ∈ s.alc.queue, x.header.pair ≠ ⟨p, q⟩) →
        exec (.forwardAlert .b named) s = .next (replyTo .b 71 ⟨.notFound, []⟩ (clearMarks s))) ∧
      (∀ p q e, named = some (p, q) → s.alc.find ⟨p, q⟩ = some e → e.state ≠ .pending →
        exec (.forwardAlert .b named) s = .next (replyTo .b 71 ⟨.wrongState, []⟩ (clearMarks s))) ∧
      (named = none → s.alc.pendingHead = none →
        exec (.forwardAlert .b named) s = .next (replyTo .b 71 ⟨.notFound, []⟩ (clearMarks s))) ∧
      (∀ e a, (∀ p q, named = some (p, q) → s.alc.find ⟨p, q⟩ = some e ∧ e.state = .pending) →
        (named = none → s.alc.pendingHead = some e) → s.air.mode ≠ .test → s.alc.onAir = some a →
        a.header.pair ≠ e.header.pair → e.header.priority ≤ a.header.priority →
        exec (.forwardAlert .b named) s = .next (replyTo .b 71 ⟨.ok, e.header.pair.bytes⟩ (clearMarks (raise .alertState
          (logEntry .alertForwarded (.alert e.header.pair) (.forwarded .request) { s with alc := { s.alc with
            queue := s.alc.queue.map fun x => if x.header.pair = e.header.pair then { x with
                state := .ready, hold := 0
                advisory := if x.header.priority = 1 then s.alc.advisoryWait else 0 } else x } }))))))

/-- SET AREAS, SET EVENT ACTION and SET ALERT TIMES: the values refused, and the table written, with nothing else changed (R129,
R130, R131). That the wake option's on is sent as 0 is log 5, by section 10.6's order. -/
def Obligations.AlertTablesAreWritten : Prop :=
  ∀ (codes : List Tri) (e1 e2 e3 a k : Byte) (l u w : Tri) (s : State), codes.length ≤ 20 →
    RefusedOff [.a, .b] (fun p => .setAreas p codes) 68 s ∧
    RefusedOff [.a, .b] (fun p => .setEventAction p e1 e2 e3 a) 69 s ∧
    RefusedOff [.a, .b] (fun p => .setAlertTimes p l u w k) 70 s ∧
    ∀ p, p = .a ∨ p = .b → Arrives (.setAreas p codes) p s → Arrives (.setEventAction p e1 e2 e3 a) p s →
      Arrives (.setAlertTimes p l u w k) p s →
      (16 < codes.length ∨ (∃ c ∈ codes, 999999 < c.toNat) ∨ ¬ codes.Nodup →
        exec (.setAreas p codes) s = .next (replyTo p 68 ⟨.badValue, []⟩ s)) ∧
      (codes.length ≤ 16 → (∀ c ∈ codes, c.toNat ≤ 999999) → codes.Nodup → exec (.setAreas p codes) s =
        .next (replyTo p 68 ⟨.ok, []⟩ { s with alc := { s.alc with areas := codes.map (·.toNat) } })) ∧
      ((∃ c ∈ [e1, e2, e3], c.toNat < 65 ∨ 90 < c.toNat) ∨ 3 < a.toNat →
        exec (.setEventAction p e1 e2 e3 a) s = .next (replyTo p 69 ⟨.badValue, []⟩ s)) ∧
      ((∀ c ∈ [e1, e2, e3], 65 ≤ c.toNat ∧ c.toNat ≤ 90) →
        let code : EventCode := ⟨e1, e2, e3⟩
        let present := ∃ r ∈ s.alc.events, r.1 = code
        let write (t : List (EventCode × EventAction)) : Prop := exec (.setEventAction p e1 e2 e3 a) s =
          .next (replyTo p 69 ⟨.ok, []⟩ { s with alc := { s.alc with events := t } })
        (a.toNat = 3 → ¬ present → exec (.setEventAction p e1 e2 e3 a) s = .next (replyTo p 69 ⟨.notFound, []⟩ s)) ∧
        (a.toNat = 3 → present → write (s.alc.events.filter fun r => !decide (r.1 = code))) ∧
        ∀ x : EventAction, a.toNat = x.place →
          (present → write (s.alc.events.map fun r => if r.1 = code then (code, x) else r)) ∧
          (¬ present → s.alc.events.length < 32 → write (s.alc.events ++ [(code, x)])) ∧
          (¬ present → 32 ≤ s.alc.events.length →
            exec (.setEventAction p e1 e2 e3 a) s = .next (replyTo p 69 ⟨.full, []⟩ s))) ∧
      (180000 < l.toNat ∨ 180000 < u.toNat ∨ 180000 < w.toNat ∨ 1 < k.toNat →
        exec (.setAlertTimes p l u w k) s = .next (replyTo p 70 ⟨.badValue, []⟩ s)) ∧
      (l.toNat ≤ 180000 → u.toNat ≤ 180000 → w.toNat ≤ 180000 → k.toNat ≤ 1 → exec (.setAlertTimes p l u w k) s =
        .next (replyTo p 70 ⟨.ok, []⟩ { s with alc := { s.alc with
          liveHold := l.toNat, autoHold := u.toNat, advisoryWait := w.toNat, wake := decide (k.toNat = 0) } }))

/-- ALC's counts at a boundary: a hold ends behind an alert on air; an advisory wait ends and the advisory airs, its record
keeping the air as the grant found it (R31, R35); a validity ends and the entry expires; the go line rises late; the audio length is reached and the chain ends, its record giving back what it saved
(R37, R71, R72, R102, R136, R137, R138, R142, R144, R146, R147) and every block standing as it was formed (R1; that DLY takes the
chain's last is log 56). A resumed ITEM's run line rises as R71 says, but that an earlier event of the block period may hold it low,
so that it is high only where no rise is awaited, is the model's reading, log 41. That an advisory wait set in this event falls by one
in it is the model's reading of R138's order, log 22; that ALERT ENDED (ALC) stands before the ITEM SKIPPED (CUE) of its event is the
model's choice, log 54; record 1 with none free, and the BYPASS of a record that kept no delay state, which no run reaches, are log
43. -/
def Obligations.AlertCountsComeDue : Prop :=
  ∀ (e o : AlertEntry) (s : State), s.due = [.alerts] →
    (s.alc.queue = [o, e] → o.state = .onAir → o.begun < s.boundaryNo → o.played + 1 < o.header.audioLength →
      o.header.pair ≠ e.header.pair → e.state = .pending → e.hold ≤ 1 → 1 < e.validity →
      e.header.priority ≤ o.header.priority → s.alc.goRiseAfter = none → s.air.mode ≠ .test →
      exec .holdExpiry s = .next (clearMarks (raise .alertState
        (logEntry .alertForwarded (.alert e.header.pair) (.forwarded .auto) { s with
          due := []
          alc := { s.alc with queue := [{ o with played := o.played + 1, validity := o.validity - 1 },
            { e with state := .ready, hold := 0, validity := e.validity - 1
                     advisory := if e.header.priority = 1 then s.alc.advisoryWait - 1 else 0 }] } })))) ∧
    (s.alc.queue = [e] → e.state = .ready → e.header.priority = 1 → e.advisory = 1 → 1 < e.validity → s.air.mode = .auto →
      s.alc.chainOpen = false → s.air.chain = .none → s.air.stack.length < s.air.maxDepth → s.alc.wake = false →
      s.alc.goRiseAfter = none →
      ∃ t, exec .advisoryWaitExpiry s = .next t ∧ ChainBegun { e with validity := e.validity - 1 } s.log [] s t) ∧
    (s.alc.queue = [e] → e.state ≠ .onAir → e.validity ≤ 1 → s.alc.goRiseAfter = none →
      exec .validityExpiry s = .next (clearMarks (raise .alertState
        (logEntry .alertExpired (.alert e.header.pair) (.alertState e.state) { s with
          due := [], alc := { s.alc with queue := [] } })))) ∧
    (s.alc.queue = [o] → o.state = .onAir → o.played < o.header.audioLength →
      (∃ b, s.alc.goRiseAfter = some b ∧ b < s.boundaryNo) →
      exec .goLineDelayedRise s = .next (clearMarks { s with
        due := []
        alc := { s.alc with queue := [{ o with validity := o.validity - 1 }], go := true, goRiseAfter := none } })) ∧
    (∀ r, s.alc.queue = [o] → o.state = .onAir → o.begun < s.boundaryNo → o.header.audioLength ≤ o.played + 1 →
      s.alc.goRiseAfter = none → ChainAlone r s →
      ∃ t, exec .alertLengthReached s = .next t ∧ ChainGivenBack r s t ∧
        t.log = s.log.append (stamp s) .alertEnded (.alert o.header.pair) (.alertEnd .length)) ∧
    (∀ r rest, s.alc.queue = [o] → o.state = .onAir → o.begun < s.boundaryNo → o.header.audioLength ≤ o.played + 1 →
      s.alc.goRiseAfter = none → ChainOnTop r rest s →
      GivesBack r rest s.cue.list (s.dly.returnsTo (r.delayBefore.getD .bypass) = .bypass)
        (fun log => log.append (stamp s) .alertEnded (.alert o.header.pair) (.alertEnd .length)) id [] s
        fun t => exec .alertLengthReached s = .next t ∧ ChainOver r rest s t)

/-! ### Output -/

/-- SAFE ON, SAFE OFF and CLEAR RESUME LOST: a reason already as asked changes nothing or is refused; a change raises SAFE
CHANGE, and logs SAFE ON or SAFE OFF when the set becomes non-empty or empty (R46, R154, R155). -/
def Obligations.SafeReasonsAreHeld : Prop :=
  ∀ (p : PortId) (s : State), RefusedOff [.a, .b] .safeOn 81 s ∧ RefusedOff [.a, .b] .safeOff 82 s ∧
    RefusedOff [.a, .b] .clearResumeLost 21 s ∧
    (p = .a ∨ p = .b → Arrives (.safeOn p) p s → Arrives (.safeOff p) p s → Arrives (.clearResumeLost p) p s →
      let x := s.out.reasons
      let changed (y : SafeSet) : State := raise .safeChange { s with out := { s.out with reasons := y } }
      (x.port = true → exec (.safeOn p) s = .next (replyTo p 81 ⟨.ok, []⟩ s)) ∧
      (x = {} → exec (.safeOn p) s =
        .next (replyTo p 81 ⟨.ok, []⟩ (logEntry .safeOn .none (.reason .port) (changed { x with port := true })))) ∧
      (x.port = false → x ≠ {} → exec (.safeOn p) s = .next (replyTo p 81 ⟨.ok, []⟩ (changed { x with port := true }))) ∧
      (x.key = true → exec (.safeOff p) s = .next (replyTo p 82 ⟨.heldByLine, []⟩ s)) ∧
      (x.key = false → x.port = false → exec (.safeOff p) s = .next (replyTo p 82 ⟨.wrongState, []⟩ s)) ∧
      (x = { port := true } → exec (.safeOff p) s =
        .next (replyTo p 82 ⟨.ok, []⟩ (logEntry .safeOff .none (.reason .port) (changed {})))) ∧
      (x.key = false → x.port = true → x ≠ { port := true } → exec (.safeOff p) s =
        .next (replyTo p 82 ⟨.ok, []⟩ (changed { x with port := false }))) ∧
      (x.resumeLost = false → exec (.clearResumeLost p) s = .next (replyTo p 21 ⟨.wrongState, []⟩ s)) ∧
      (x = { resumeLost := true } → exec (.clearResumeLost p) s =
        .next (replyTo p 21 ⟨.ok, []⟩ (logEntry .safeOff .none (.reason .resumeLost) (changed {})))) ∧
      (x.resumeLost = true → x ≠ { resumeLost := true } → exec (.clearResumeLost p) s =
        .next (replyTo p 21 ⟨.ok, []⟩ (changed { x with resumeLost := false }))))

/-- SET SILENCE writes all four values or none, keeps the runs and dead air, and OUT judges SILENCE again; a run at or above its
new time is reached at the next block that counts toward it (R158). That enabled is sent as 0 is log 5, by section 10.6's
order. -/
def Obligations.SetSilenceWritesAllFour : Prop :=
  ∀ (th f : Byte) (q r : Half) (s : State), RefusedOff [.a, .b] (fun p => .setSilence p th q r f) 83 s ∧
    ∀ p, p = .a ∨ p = .b → Arrives (.setSilence p th q r f) p s →
      (th.toInt < -60 ∨ -20 < th.toInt ∨ q.toNat < 400 ∨ 24000 < q.toNat ∨ r.toNat < 200 ∨ 12000 < r.toNat ∨ 1 < f.toNat →
        exec (.setSilence p th q r f) s = .next (replyTo p 83 ⟨.badValue, []⟩ s)) ∧
      (-60 ≤ th.toInt → th.toInt ≤ -20 → 400 ≤ q.toNat → q.toNat ≤ 24000 → 200 ≤ r.toNat → r.toNat ≤ 12000 → f.toNat ≤ 1 →
        ∃ t, exec (.setSilence p th q r f) s = .next (replyTo p 83 ⟨.ok, []⟩ t) ∧
          (t.out.threshold : Int) = -th.toInt ∧
          t.out = { s.out with
            threshold := t.out.threshold, silenceTime := q.toNat, restoreTime := r.toNat, failover := decide (f.toNat = 0)
            reasons := { s.out.reasons with
              silence := s.out.deadAir && (decide (f.toNat = 0) || decide (s.air.mode = .unattended)) } } ∧
          { t with out := s.out, log := s.log, pi := s.pi } = s ∧
          ∀ b, s.audio.prev.delayed = some b →
            (s.out.deadAir = false → q.toNat ≤ s.out.quietRun → (silenceStarts t = true ↔ t.out.quiet b = true)) ∧
            (s.out.deadAir = true → r.toNat ≤ s.out.soundRun → (silenceEnds t = true ↔ t.out.quiet b = false)))

/-- The silence monitor at a boundary: the quiet block that brings the run to the silence time sets dead air, the sounding block
that brings the other run to the restore time ends it; each logs SILENCE and judges the reason, and with no alert and no
reason held the delayed block is the air block, whose entry is logged as aired (R152, R156, R157, R159). At any other boundary
the block counts into its run (R156); a new entry serial logs ITEM ENDED of the old one and ITEM AIRED of the new one and the
runs begin again, and the memory is the block's own serial and log reference (R159); a line that enters or leaves the lines on
air is logged, and each line's count follows (R160). That a run above its time is written as the time is log 39; that in the
event in which dead air starts and SILENCE is added the delayed block is still the air block, where R154 allows either, is the
model's choice, log 17. -/
def Obligations.SilenceStartsAndEnds : Prop :=
  (∀ (b : Block) (s : State), s.due = [.output] → s.audio.prev.delayed = some b →
    let silence (dead : Bool) : SafeSet :=
      { s.out.reasons with silence := dead && (s.out.failover || decide (s.air.mode = .unattended)) }
    (s.out.deadAir = false → s.out.threshold < b.tag.peak → s.out.silenceTime ≤ s.out.quietRun + 1 →
      ∃ t, exec .silenceStart s = .next t ∧ t.out.deadAir = true ∧ t.out.soundRun = 0 ∧ t.out.quietRun = s.out.silenceTime ∧
        t.out.reasons = silence true ∧ (∃ x ∈ t.log.entries, x.kind = .silence ∧ x.subject = .none ∧ x.detail = .silence true) ∧
        (s.out.alertFlag = false → s.out.reasons = {} → t.audio.cur.air = b ∧
          ∀ n ref, s.out.entry = none → b.tag.entry = some (n, ref) → t.out.entry = some (n, ref) ∧ t.out.entryRun = 1 ∧
            ∃ x ∈ t.log.entries, x.kind = .itemAired ∧ x.subject = .cue n ∧ x.detail = .aired ref s.out.carrying) ∧
        (s.out.alertFlag = true → t.audio.cur.air.audio = s.audio.prev.inputs.alert ∧ t.audio.cur.air.tag.origin = .alert) ∧
        (s.out.alertFlag = false → s.out.reasons ≠ {} → t.audio.cur.air.audio = s.audio.prev.inputs.fill) ∧
        { t with out := s.out, log := s.log, pi := s.pi, audio := s.audio, due := s.due } = s) ∧
    (s.out.deadAir = true → b.tag.peak ≤ s.out.threshold → s.out.restoreTime ≤ s.out.soundRun + 1 →
      ∃ t, exec .silenceEnd s = .next t ∧ t.out.deadAir = false ∧ t.out.quietRun = 0 ∧ t.out.soundRun = s.out.restoreTime ∧
        t.out.reasons = silence false ∧ (∃ x ∈ t.log.entries, x.kind = .silence ∧ x.detail = .silence false) ∧
        { t with out := s.out, log := s.log, pi := s.pi, audio := s.audio, due := s.due } = s)) ∧
  (∀ (inp : PeriodInput) (later : List DueKind) (b : Block) (s : State), s.due = [] → (∀ k, k ≠ .output → k ∈ later) →
    KeysSampled s → s.tb.pendingTime = none → s.audio.cur.delayed = some b → s.out.alertFlag = false → s.out.reasons = {} →
    let x := s.out
    (x.deadAir = false → x.threshold < b.tag.peak → x.quietRun + 1 < x.silenceTime) →
    (x.deadAir = true → b.tag.peak ≤ x.threshold → x.soundRun + 1 < x.restoreTime) →
    let time : Option Nat := if s.tb.clockSet then some (if s.tb.clock = 17279999 then 0 else s.tb.clock + 1) else none
    let new := b.tag.entry.map (·.1)
    let old := x.entry.map (·.1)
    ∃ t, exec (.blockBoundary inp [.output] later) s = .next t ∧ t.audio.cur.air = b ∧
      t.out.origin = some b.tag.origin ∧ t.out.deadAir = x.deadAir ∧ t.out.reasons = x.reasons ∧
      t.out.quietRun = (if x.deadAir = true then x.quietRun else if x.threshold < b.tag.peak then x.quietRun + 1 else 0) ∧
      t.out.soundRun = (if x.deadAir = false then x.soundRun else if x.threshold < b.tag.peak then 0 else x.soundRun + 1) ∧
      t.out.entry = b.tag.entry ∧
      (new = old → t.out.entryRun = (if new = none then x.entryRun else min 17280000 (x.entryRun + 1)) ∧
        t.out.carriedRun = (if new ≠ none ∧ x.carrying = true then min 17280000 (x.carriedRun + 1) else x.carriedRun)) ∧
      (new ≠ old → t.out.entryRun = (if new = none then 0 else 1) ∧
        t.out.carriedRun = (if new ≠ none ∧ x.carrying = true then 1 else 0)) ∧
      t.out.lines = b.tag.lines ∧
      (∀ l, t.out.lineCounts.get l = if b.tag.lines.get l = true then min 17280000 (x.lineCounts.get l + 1) else 0) ∧
      (b.tag.lines = x.lines →
        let ended (n : Nat) : LOG := s.log.append time .itemEnded (.cue n) (.ended x.entryRun x.carriedRun)
        (new = old → t.log = s.log) ∧
        (∀ n ref, x.entry = some (n, ref) → b.tag.entry = none → t.log = ended n) ∧
        (∀ m ref, x.entry = none → b.tag.entry = some (m, ref) →
          t.log = s.log.append time .itemAired (.cue m) (.aired ref x.carrying)) ∧
        (∀ n r m ref, x.entry = some (n, r) → b.tag.entry = some (m, ref) → n ≠ m →
          t.log = (ended n).append time .itemAired (.cue m) (.aired ref x.carrying))) ∧
      (new = old → ∀ l,
        (x.lines.get l = false → b.tag.lines = x.lines.set l true →
          t.log = s.log.append time .lineOnAir (.line l) (.carrying x.carrying)) ∧
        (x.lines.get l = true → b.tag.lines = x.lines.set l false →
          t.log = s.log.append time .lineOffAir (.line l) (.number (x.lineCounts.get l)))))

/-! ### Link -/

/-- A return frame of nine bytes is good when its check, the remainder of section 10.6, is right and its fields are in range, and
it is then read field by field; another is not (R163, section 10.6). The first good one is the period's frame; a report to OUT sets the
carrying flag; LINK RESTART resets the counts and puts the link DOWN, an outstanding command failing with reason LINK and, for
the stage it belongs to, being put again at the tail; with LINK the clock source TB falls back to INTERNAL (R11, R161, R163, R164,
R165, R169, R178). That LINK STATE stands before SITE COMMAND FAILED is log 19, before CLOCK FALLBACK log 52; that a
CARRYING_REPORT with none outstanding brings LNK's present state is log 3. -/
def Obligations.FramesReportsAndRestarts : Prop :=
  ∀ (bytes : List Byte) (f : ReturnFrame) (l : LinkState) (fill : Bool) (s : State),
    RefusedOff [.b] .linkRestart 89 s ∧
    (∀ echo mode r1 r2 power ack site c1 c2, bytes = [echo, mode, r1, r2, power, ack, site, c1, c2] →
      ReturnFrame.ofBytes bytes = some f → half c1 c2 = crc [echo, mode, r1, r2, power, ack, site] ∧ f.echo = echo.toNat ∧
        f.mode.place = mode.toNat ∧ f.power = power.toNat ∧ f.power ≤ 15 ∧ (f.fill = true ↔ site.toNat = 1) ∧
        (f.ack = none ↔ ack.toNat < 128) ∧ f.resources.length = 8) ∧
    (crc [] = 0xFFFF#16 ∧ ∀ (bs : List Byte) (x : Byte), crc (bs ++ [x]) =
      [7, 6, 5, 4, 3, 2, 1, 0].foldl (fun (r : Half) i => if r.getLsbD 15 = x.getLsbD i then r <<< 1 else (r <<< 1) ^^^ 0x1021#16) (crc bs)) ∧
    (∀ echo mode r1 r2 power ack site c1 c2, bytes = [echo, mode, r1, r2, power, ack, site, c1, c2] →
      let code (r : Nat) : Nat := (if r < 4 then r2.toNat / 4 ^ r else r1.toNat / 4 ^ (r - 4)) % 4
      let good : Prop := half c1 c2 = crc [echo, mode, r1, r2, power, ack, site] ∧ mode.toNat ≤ 3 ∧ (∀ r < 8, code r ≤ 2) ∧
        power.toNat ≤ 15 ∧ ack.getLsbD 4 = false ∧ ack.getLsbD 5 = false ∧ site.toNat ≤ 1
      (good → ReturnFrame.ofBytes bytes = some {
        echo := echo.toNat, mode := [SiteMode.off, .full, .low, .fault].getD mode.toNat .off
        resources := (List.range 8).map fun r => [Reported.off, .on, .fault].getD (code r) .off
        power := power.toNat
        ack := if ack.getLsbD 7 = true then some (ack.toNat % 16, !ack.getLsbD 6) else none
        fill := decide (site.toNat = 1) }) ∧
      (¬ good → ReturnFrame.ofBytes bytes = none)) ∧
    (bytes.length ≠ 9 → ReturnFrame.ofBytes bytes = none) ∧
    (ReturnFrame.ofBytes bytes = some f → s.lnk.period = none →
      exec (.returnFrame bytes) s = .next { s with lnk := { s.lnk with period := some f } }) ∧
    (ReturnFrame.ofBytes bytes = none ∨ s.lnk.period ≠ none → exec (.returnFrame bytes) s = .next s) ∧
    (s.due = [.carrying l fill] → exec .carryingReport s = .next { s with
      due := [], out := { s.out with carrying := decide (l = .up ∨ l = .degraded) && !fill } }) ∧
    (s.due = [] → exec .carryingReport s = .next { s with
      out := { s.out with carrying := decide (s.lnk.state = .up ∨ s.lnk.state = .degraded) && !s.lnk.siteFill } }) ∧
    (Arrives (.linkRestart .b) .b s → s.tb.source ≠ .link → s.tb.good s.tb.source = true →
      (s.lnk.state = .down → exec (.linkRestart .b) s =
        .next (replyTo .b 89 ⟨.ok, []⟩ { s with lnk := { s.lnk with good := 0, missing := 0 } })) ∧
      (s.lnk.state ≠ .down → s.lnk.outstanding = none → exec (.linkRestart .b) s =
        .next (replyTo .b 89 ⟨.ok, []⟩ (raise .linkState (logEntry .linkState .none (.link s.lnk.state .down) { s with
          lnk := { s.lnk with state := .down, good := 0, missing := 0 }, tb := { s.tb with link := .down }
          due := s.due ++ [.carrying .down s.lnk.siteFill] })))) ∧
      (∀ o q rest, s.lnk.state ≠ .down → s.lnk.outstanding = some o → s.lnk.queue = q :: rest → s.site.stage = none →
        ∃ t, exec (.linkRestart .b) s = .next (replyTo .b 89 ⟨.ok, []⟩ t) ∧
          t.lnk = { s.lnk with state := .down, good := 0, missing := 0, queue := rest, outstanding := none } ∧
          t.log = (s.log.append (stamp s) .linkState .none (.link s.lnk.state .down)).append (stamp s) .siteCommandFailed
            q.command.subject (.command q.command .link) ∧
          t.due = s.due ++ [.carrying .down s.lnk.siteFill] ∧
          { t with lnk := s.lnk, log := s.log, due := s.due, pi := s.pi, tb := s.tb } = s) ∧
      (∀ o q rest st, s.lnk.state ≠ .down → s.lnk.outstanding = some o → s.lnk.queue = q :: rest → s.site.stage = some st →
        st.id = q.stage → st.toPut = [] → rest.length < 8 →
        ∃ t, exec (.linkRestart .b) s = .next (replyTo .b 89 ⟨.ok, []⟩ t) ∧
          t.lnk = { s.lnk with state := .down, good := 0, missing := 0, queue := rest ++ [q], outstanding := none } ∧
          t.site = { s.site with stage := some { st with awaiting := st.awaiting.erase q.command ++ [q.command] } } ∧
          t.log = (s.log.append (stamp s) .linkState .none (.link s.lnk.state .down)).append (stamp s) .siteCommandFailed
            q.command.subject (.command q.command .link) ∧
          (∀ p, (s.port p).init = .high → (t.port p).flags.getLsbD 11 = true ∧ (t.port p).flags.getLsbD 12 = true) ∧
          t.tb = { s.tb with link := .down } ∧ t.due = s.due ++ [.carrying .down s.lnk.siteFill] ∧
          { t with lnk := s.lnk, site := s.site, log := s.log, due := s.due, pi := s.pi, tb := s.tb } = s)) ∧
    (Arrives (.linkRestart .b) .b s → s.tb.source = .link → s.tb.toInternal = false → s.lnk.state ≠ .down →
      s.lnk.outstanding = none →
      ∃ t, exec (.linkRestart .b) s = .next (replyTo .b 89 ⟨.ok, []⟩ t) ∧
        t.lnk = { s.lnk with state := .down, good := 0, missing := 0 } ∧
        t.tb = { s.tb with link := .down, source := .internal, pendingSource := none } ∧
        t.log = (s.log.append (stamp s) .linkState .none (.link s.lnk.state .down)).append (stamp s) .clockFallback .none
          (.source .link) ∧
        (∀ p, (s.port p).init = .high → (t.port p).flags.getLsbD 11 = true ∧ (t.port p).flags.getLsbD 13 = true) ∧
        t.due = s.due ++ [.carrying .down s.lnk.siteFill] ∧
        { t with lnk := s.lnk, log := s.log, due := s.due, pi := s.pi, tb := s.tb } = s)

/-- The link's states at a boundary, the site's state known, no command out and no stage held: a good period in DOWN makes it
SYNCING, the eighth in SYNCING or DEGRADED makes it UP and is delivered, the tenth missing one in UP makes it DEGRADED, a missing
one in SYNCING and the 400th make it DOWN; a command that has been out for 100 boundaries fails. At every boundary a forward
frame is formed: the next sequence, the content kind, the command unit of a command that became outstanding before the boundary,
the air block and the check over its bytes, laid out as section 10.6 says (R5, R162 to R169, R174, R175). With the site unknown the
first delivery is adopted (R174), a mode of FAULT with no further entry (log 20); a resource or the site that newly reports FAULT makes the site FAULT but in OFF (R175). An accepted
acknowledgement takes the outstanding command off, for DONE out of its stage; a refusal or a timeout with the stage held makes
the site FAULT; another number is discarded (R168, R169, R178, R183). When the link that is the clock source leaves UP, TB falls
back to INTERNAL (R11). R189 leaves the order of different blocks' entries in one event open; the orders here are the model's choices:
LINK STATE before CLOCK FALLBACK is log 52, LINK STATE before SITE STATE logs 18 and 54, and SITE COMMAND FAILED (LNK) before the SITE
STATE (SITE) of a refusal or a timeout log 54. -/
def Obligations.TheLinkChangesState : Prop :=
  (∀ s : State, s.due = [.link] → s.site.stage = none → s.site.state ≠ .unknown → s.tb.source = .internal →
    let sent (x : LNK) : Prop := x.lastSent = some s.lnk.nextSeq ∧ x.nextSeq = (s.lnk.nextSeq + 1) % 256 ∧
      x.frame.map (·.seq) = some s.lnk.nextSeq ∧ x.frame.map (·.audio) = some s.audio.prev.air.audio ∧
      x.frame.map (·.content) = some s.audio.prev.air.tag.origin.content
    let goes (new : LinkState) (t : State) : Prop := t.lnk.state = new ∧ t.tb.link = new ∧
      t.due = [.carrying new s.lnk.siteFill] ∧ t.log = s.log.append (stamp s) .linkState .none (.link s.lnk.state new) ∧
      (∀ p, (s.port p).init = .high → (t.port p).flags.getLsbD 11 = true) ∧
      t.out = s.out ∧ t.air = s.air ∧ t.cue = s.cue ∧ t.alc = s.alc ∧ t.site.state = s.site.state
    (∀ f, s.lnk.outstanding = none → s.lnk.queue = [] → s.lnk.judged = some f →
      s.lnk.state = .syncing ∨ s.lnk.state = .degraded → s.lnk.good = 7 → f.fill = s.lnk.siteFill →
      (∀ r, f.resources.getD r .off ≠ .fault) → f.mode ≠ .fault →
      ∃ t, exec .linkUp s = .next t ∧ goes .up t ∧ sent t.lnk ∧ t.lnk.good = 8 ∧ t.lnk.missing = 0 ∧
        t.lnk.lastEcho = some f.echo ∧ t.lnk.delivered = some f ∧ t.site.lastMode = some f.mode ∧
        t.site.reportedStep = some f.power ∧
        (∀ r < 8, s.site.resources.length = 8 → f.resources.length = 8 →
          (t.site.resource r).reported = f.resources.getD r .off ∧
          (t.site.resource r).commanded = (s.site.resource r).commanded)) ∧
    (s.lnk.outstanding = none → s.lnk.queue = [] → s.lnk.judged = none → s.lnk.state = .up → s.lnk.missing = 9 →
      ∃ t, exec .linkDegraded s = .next t ∧ goes .degraded t ∧ sent t.lnk ∧ t.lnk.good = 0 ∧ t.lnk.missing = 10 ∧
        t.site = s.site) ∧
    (s.lnk.outstanding = none → s.lnk.judged = none →
      s.lnk.state = .syncing ∨ (s.lnk.state = .degraded ∧ s.lnk.missing = 399) →
      ∃ t, exec .linkDown s = .next t ∧ goes .down t ∧ sent t.lnk ∧ t.lnk.good = 0 ∧ t.lnk.queue = s.lnk.queue ∧
        t.site = s.site) ∧
    (∀ o q, s.lnk.outstanding = some o → s.lnk.queue = [q] → s.lnk.judged = none → s.lnk.state = .up → s.lnk.missing < 9 →
      o.since + 100 ≤ s.boundaryNo → ∃ t, exec .commandTimeout s = .next t ∧ sent t.lnk ∧ t.lnk.state = .up ∧
        t.lnk.queue = [] ∧ t.lnk.outstanding = none ∧ t.lnk.missing = s.lnk.missing + 1 ∧
        t.log = s.log.append (stamp s) .siteCommandFailed q.command.subject (.command q.command .timeout) ∧
        (∀ p, (s.port p).init = .high → (t.port p).flags.getLsbD 12 = true) ∧
        t.tb = s.tb ∧ t.out = s.out ∧ t.site = s.site)) ∧
  (∀ (f : ReturnFrame) (s : State), s.due = [.link] → s.site.stage = none → s.tb.source = .internal → s.lnk.judged = some f →
    s.lnk.state = .syncing → s.lnk.good = 7 → s.lnk.outstanding = none → s.lnk.queue = [] → f.fill = s.lnk.siteFill →
    s.site.resources.length = 8 → f.resources.length = 8 →
    let up := s.log.append (stamp s) .linkState .none (.link .syncing .up)
    let recorded (t : State) : Prop := exec .linkUp s = .next t ∧ t.site.lastMode = some f.mode ∧
      t.site.reportedStep = some f.power ∧ (∀ r < 8, (t.site.resource r).reported = f.resources.getD r .off) ∧
      t.lnk.state = .up ∧ t.lnk.queue = []
    let faulted (cause : SiteCause) (t : State) : Prop := recorded t ∧ t.site.state = .fault ∧
      t.log = up.append (stamp s) .siteState .none (.site s.site.state .fault cause) ∧
      ∀ p, (s.port p).init = .high → (t.port p).flags.getLsbD 12 = true
    (s.site.state = .unknown → s.site.lastMode = none → (∀ r, f.resources.getD r .off ≠ .fault) →
      let new : SiteState := match f.mode with | .off => .off | .full => .full | .low => .low | .fault => .fault
      ∃ t, recorded t ∧ t.site.state = new ∧ t.site.power = some f.power ∧
        t.site.stepBeforeLow = (if f.mode = .low then s.site.fullStep else s.site.stepBeforeLow) ∧
        (∀ r < 8, (t.site.resource r).commanded = decide (f.resources.getD r .off = .on)) ∧
        t.log = up.append (stamp s) .siteState .none (.site .unknown new .adopted) ∧
        ∀ p, (s.port p).init = .high → (t.port p).flags.getLsbD 12 = true) ∧
    (∀ r, r < 8 → f.resources.getD r .off = .fault → (∀ q, q ≠ r → f.resources.getD q .off ≠ .fault) →
      (s.site.resource r).reported ≠ .fault → f.mode ≠ .fault → s.site.pendingWake = false →
      (s.site.state = .off → ∃ t, recorded t ∧ t.site.state = .off ∧ t.log = up) ∧
      (s.site.state ≠ .off → s.site.state ≠ .unknown → ∃ t, faulted (.resourceFault r) t)) ∧
    (∀ m, (∀ r, f.resources.getD r .off ≠ .fault) → f.mode = .fault → s.site.lastMode = some m → m ≠ .fault →
      s.site.pendingWake = false → s.site.state ≠ .off → s.site.state ≠ .unknown → ∃ t, faulted .siteFault t)) ∧
  (∀ (inp : PeriodInput) (later : List DueKind) (f : ReturnFrame) (o : Outstanding) (q : QueuedCommand) (st : Stage) (x : Nat)
    (s : State), s.due = [] → (∀ k, k ≠ .link → k ∈ later) → KeysSampled s → s.tb.pendingTime = none → s.lnk.state = .up →
    s.lnk.period = some f → f.fill = s.lnk.siteFill → s.lnk.queue = [q] → s.lnk.outstanding = some o → o.firstSeq = some x →
    (f.echo + 256 - x) % 256 ≤ 127 → s.site.state = .starting → s.site.stage = some st → st.id = q.stage → st.toPut = [] →
    st.awaiting = [q.command] → st.kind = .power → f.power ≠ st.step → s.site.pendingWake = false →
    (∀ r, f.resources.getD r .off ≠ .fault) → f.mode ≠ .fault →
    let time : Option Nat := if s.tb.clockSet then some (if s.tb.clock = 17279999 then 0 else s.tb.clock + 1) else none
    (f.ack = some (o.number, true) → ∃ t, exec (.blockBoundary inp [.link] later) s = .next t ∧ t.lnk.queue = [] ∧
      t.lnk.outstanding = none ∧ t.site.state = .starting ∧ t.site.stage = some { st with awaiting := [] } ∧ t.log = s.log) ∧
    (f.ack = some (o.number, false) → ∃ t, exec (.blockBoundary inp [.link] later) s = .next t ∧ t.lnk.queue = [] ∧
      t.lnk.outstanding = none ∧ t.site.state = .fault ∧ t.site.stage = none ∧
      t.log = (s.log.append time .siteCommandFailed q.command.subject (.command q.command .refused)).append time .siteState
        .none (.site .starting .fault .commandRefused)) ∧
    (∀ n done, f.ack = some (n, done) → n ≠ o.number → s.boundaryNo + 1 < o.since + 100 →
      ∃ t, exec (.blockBoundary inp [.link] later) s = .next t ∧ t.lnk.queue = [q] ∧ t.lnk.outstanding = some o ∧
        t.site.stage = some st ∧ t.log = s.log)) ∧
  (∀ (inp : PeriodInput) (later : List DueKind) (f : ReturnFrame) (s : State), s.due = [] → (∀ k, k ≠ .link → k ∈ later) →
    KeysSampled s → s.tb.pendingTime = none → s.tb.source = .internal → s.lnk.state = .down → s.lnk.period = some f →
    s.lnk.outstanding = none →
    let time : Option Nat := if s.tb.clockSet then some (if s.tb.clock = 17279999 then 0 else s.tb.clock + 1) else none
    ∃ t, exec (.blockBoundary inp [.link] later) s = .next t ∧ t.lnk.state = .syncing ∧ t.lnk.good = min 8 (s.lnk.good + 1) ∧
      t.lnk.missing = 0 ∧ t.lnk.lastEcho = some f.echo ∧ t.lnk.delivered = s.lnk.delivered ∧ t.lnk.queue = s.lnk.queue ∧
      t.lnk.outstanding = none ∧ t.tb.link = .syncing ∧ .carrying .syncing s.lnk.siteFill ∈ t.due ∧
      t.log = s.log.append time .linkState .none (.link .down .syncing) ∧
      (∀ p, (s.port p).init = .high → (t.port p).flags.getLsbD 11 = true) ∧ t.site = s.site ∧ t.out = s.out) ∧
  (∀ (o : Outstanding) (q : QueuedCommand) (st : Stage) (s : State), s.due = [.link] → s.lnk.judged = none →
    s.lnk.state = .up → s.lnk.missing < 9 → s.lnk.outstanding = some o → s.lnk.queue = [q] → o.since + 100 ≤ s.boundaryNo →
    s.site.state = .starting → s.site.stage = some st → st.id = q.stage → st.toPut = [] → s.site.pendingWake = false →
    ∃ t, exec .commandTimeout s = .next t ∧ t.lnk.queue = [] ∧ t.lnk.outstanding = none ∧ t.site.state = .fault ∧
      t.site.stage = none ∧
      t.log = (s.log.append (stamp s) .siteCommandFailed q.command.subject (.command q.command .timeout)).append (stamp s)
        .siteState .none (.site .starting .fault .commandTimeout)) ∧
  (∀ s : State, s.due = [.link] → s.lnk.judged = none → s.lnk.state = .up → s.lnk.missing = 9 → s.lnk.outstanding = none →
    s.tb.source = .link → s.tb.toInternal = false → ∃ t, exec .linkDegraded s = .next t ∧ t.lnk.state = .degraded ∧
      t.tb = { s.tb with link := .degraded, source := .internal, pendingSource := none } ∧
      t.log = (s.log.append (stamp s) .linkState .none (.link .up .degraded)).append (stamp s) .clockFallback .none
        (.source .link) ∧
      (∀ p, (s.port p).init = .high → (t.port p).flags.getLsbD 11 = true ∧ (t.port p).flags.getLsbD 13 = true) ∧
      t.out = s.out ∧ t.site = s.site) ∧
  (∀ (inp : PeriodInput) (later : List DueKind) (s : State), s.due = [] → (∀ k, k ≠ .link → k ∈ later) →
    let air := s.audio.cur.air
    let riding (n : Nat) (c : SiteCommand) : Prop := ∃ o q rest, s.lnk.outstanding = some o ∧ s.lnk.queue = q :: rest ∧
      o.since < s.boundaryNo + 1 ∧ o.number = n ∧ q.command = c
    let unit (n code value : Nat) : List Byte := [BitVec.ofNat 8 (128 + n), BitVec.ofNat 8 code, BitVec.ofNat 8 value]
    let body (kind : Byte) (unit : List Byte) : List Byte :=
      [BitVec.ofNat 8 s.lnk.nextSeq, kind] ++ unit ++ air.audio.flatMap fun x => beBytes 3 x.left.toNat ++ beBytes 3 x.right.toNat
    ∃ t f, exec (.blockBoundary inp [.link] later) s = .next t ∧ t.lnk.frame = some f ∧ f.seq = s.lnk.nextSeq ∧
      t.lnk.lastSent = some s.lnk.nextSeq ∧ t.lnk.nextSeq = (s.lnk.nextSeq + 1) % 256 ∧ f.audio = air.audio ∧
      (∀ n c, f.command = some (n, c) ↔ riding n c) ∧
      ∀ kind : Byte, (air.tag.origin = .alert → kind = 1) → (air.tag.origin = .programme .fill → kind = 2) →
        (∀ source, source ≠ .fill → air.tag.origin = .programme source → kind = 0) →
        let sent (unit : List Byte) : Prop := f.check = crc (body kind unit) ∧
          f.bytes = body kind unit ++ beBytes 2 (crc (body kind unit)).toNat
        (f.command = none → sent [0, 0, 0]) ∧ (∀ n r, riding n (.on r) → sent (unit n 1 r)) ∧
        (∀ n r, riding n (.off r) → sent (unit n 2 r)) ∧ (∀ n step, riding n (.power step) → sent (unit n 3 step)))

/-! ### Site -/

/-- The three requests for the site settings: the values refused, WRONG_STATE in a sequence state for the first two, and the
settings written with nothing else changed (R176). That yes (keep in low, sequential off, enabled) and PREVIOUS are sent as 0 is
log 5, by section 10.6's order. -/
def Obligations.SiteSettingsAreWritten : Prop :=
  ∀ (r t k l f w c q e : Byte) (label : List Byte) (low full : Long) (s : State), label.length ≤ 58 →
    RefusedOff [.a, .b] (fun p => .setSiteResource p r t k label) 101 s ∧
    RefusedOff [.a, .b] (fun p => .setSiteOptions p l f w c q) 102 s ∧
    RefusedOff [.a, .b] (fun p => .setLowWindow p low full e) 103 s ∧
    ∀ p, p = .a ∨ p = .b → Arrives (.setSiteResource p r t k label) p s → Arrives (.setSiteOptions p l f w c q) p s →
      Arrives (.setLowWindow p low full e) p s →
      let moving := s.site.state = .starting ∨ s.site.state = .lowering ∨ s.site.state = .raising ∨ s.site.state = .stopping
      let resource := r.toNat ≤ 7 ∧ (t.toNat ≤ 7 ∨ t.toNat = 255) ∧ k.toNat ≤ 1 ∧ label.length ≤ 8 ∧
        ∀ x ∈ label, 32 ≤ x.toNat ∧ x.toNat ≤ 126
      let options := l.toNat ≤ 3 ∧ f.toNat ≤ 15 ∧ w.toNat < f.toNat ∧ c.toNat ≤ 1 ∧ q.toNat ≤ 1
      let window := low.toNat ≤ 17279999 ∧ full.toNat ≤ 17279999 ∧ low ≠ full ∧ e.toNat ≤ 1
      (¬ resource → exec (.setSiteResource p r t k label) s = .next (replyTo p 101 ⟨.badValue, []⟩ s)) ∧
      (resource → moving → exec (.setSiteResource p r t k label) s = .next (replyTo p 101 ⟨.wrongState, []⟩ s)) ∧
      (resource → ¬ moving → exec (.setSiteResource p r t k label) s = .next (replyTo p 101 ⟨.ok, []⟩ { s with
        site := { s.site with resources := s.site.resources.modify r.toNat fun x => { x with
          slot := if t.toNat ≤ 7 then some t.toNat else none
          keepInLow := decide (k.toNat = 0), label := if label = [] then none else some label } } })) ∧
      (¬ options → exec (.setSiteOptions p l f w c q) s = .next (replyTo p 102 ⟨.badValue, []⟩ s)) ∧
      (options → moving → exec (.setSiteOptions p l f w c q) s = .next (replyTo p 102 ⟨.wrongState, []⟩ s)) ∧
      (options → ¬ moving → exec (.setSiteOptions p l f w c q) s = .next (replyTo p 102 ⟨.ok, []⟩ { s with
        site := { s.site with
          slotLength := [0, 200, 400, 1000].getD l.toNat 0, fullStep := f.toNat, lowStep := w.toNat
          restorePrevious := decide (c.toNat = 0), sequentialOff := decide (q.toNat = 0) } })) ∧
      (¬ window → exec (.setLowWindow p low full e) s = .next (replyTo p 103 ⟨.badValue, []⟩ s)) ∧
      (window → exec (.setLowWindow p low full e) s = .next (replyTo p 103 ⟨.ok, []⟩ { s with
        site := { s.site with lowTime := low.toNat, fullTime := full.toNat, windowEnabled := decide (e.toNat = 0) } }))

/-- SITE UP, DOWN, LOW and FULL: WRONG_STATE in the states R179 to R182 name; else PENDING, the change of state with its cause,
and the first stage, its commands in LNK's queue and its resources' commanded values set (R174, R177, R179 to R182). Stated
for a first stage with a command to put, and with an empty command queue and no stage held but for SITE DOWN, which abandons the
stage of STARTING or RAISING: the queued commands behind the outstanding one are withdrawn, the commanded values of what was
withdrawn or never put go back, and the stop begins behind the outstanding command (R180). That the one stage of a stop that is
not sequential has no slot is log 21; the step before low with no power in force, which no run reaches, log 43. -/
def Obligations.SiteRequestsStartSequences : Prop :=
  ∀ (p : PortId) (s : State),
    RefusedOff [.a, .b] .siteUp 97 s ∧ RefusedOff [.a, .b] .siteDown 98 s ∧ RefusedOff [.a, .b] .siteLow 99 s ∧
    RefusedOff [.a, .b] .siteFull 100 s ∧
    (p = .a ∨ p = .b → Arrives (.siteUp p) p s → Arrives (.siteDown p) p s → Arrives (.siteLow p) p s →
      Arrives (.siteFull p) p s →
      (s.site.state ≠ .off → exec (.siteUp p) s = .next (replyTo p 97 ⟨.wrongState, []⟩ s)) ∧
      (s.site.state = .unknown ∨ s.site.state = .off ∨ s.site.state = .lowering ∨ s.site.state = .stopping →
        exec (.siteDown p) s = .next (replyTo p 98 ⟨.wrongState, []⟩ s)) ∧
      (s.site.state ≠ .full → exec (.siteLow p) s = .next (replyTo p 99 ⟨.wrongState, []⟩ s)) ∧
      (s.site.state ≠ .low → exec (.siteFull p) s = .next (replyTo p 100 ⟨.wrongState, []⟩ s)) ∧
      (s.site.stage = none → s.lnk.queue = [] → s.lnk.outstanding = none → s.site.resources.length = 8 →
        (s.site.state = .off → s.site.those (fun r => decide (r.slot = some 0)) ≠ [] →
          ∃ t, exec (.siteUp p) s = .next (replyTo p 97 ⟨.pending, []⟩ t) ∧ t.site.pendingWake = false ∧
            StageBegun .starting .request .upSlot (some 0)
              ((s.site.those fun r => decide (r.slot = some 0)).map .on) s t) ∧
        (s.site.state = .full ∨ s.site.state = .low ∨ s.site.state = .fault → s.site.sequentialOff = false →
          s.site.those (fun r => r.sequenced && (r.commanded || decide (r.reported = .on))) ≠ [] →
          ∃ t, exec (.siteDown p) s = .next (replyTo p 98 ⟨.pending, []⟩ t) ∧ t.site.pendingWake = false ∧
            StageBegun .stopping .request .downSlot none
              ((s.site.those fun r => r.sequenced && (r.commanded || decide (r.reported = .on))).map .off) s t) ∧
        (s.site.state = .full ∨ s.site.state = .low ∨ s.site.state = .fault → s.site.sequentialOff = true →
          s.site.those (fun r => decide (r.slot = some 7) && (r.commanded || decide (r.reported = .on))) ≠ [] →
          ∃ t, exec (.siteDown p) s = .next (replyTo p 98 ⟨.pending, []⟩ t) ∧ t.site.pendingWake = false ∧
            StageBegun .stopping .request .downSlot (some 7)
              ((s.site.those fun r => decide (r.slot = some 7) && (r.commanded || decide (r.reported = .on))).map .off) s t) ∧
        (s.site.state = .full → ∃ t, exec (.siteLow p) s = .next (replyTo p 99 ⟨.pending, []⟩ t) ∧
          t.site.stepBeforeLow = s.site.power.getD s.site.stepBeforeLow ∧
          StageBegun .lowering .request .power none [.power s.site.lowStep] s t) ∧
        (s.site.state = .low → s.site.those (fun r => decide (r.slot = some 0) && !decide (r.reported = .on)) ≠ [] →
          ∃ t, exec (.siteFull p) s = .next (replyTo p 100 ⟨.pending, []⟩ t) ∧
            StageBegun .raising .request .upSlot (some 0)
              ((s.site.those fun r => decide (r.slot = some 0) && !decide (r.reported = .on)).map .on) s t)) ∧
      (∀ st, s.site.state = .starting ∨ s.site.state = .raising → s.site.stage = some st → st.toPut = [] →
        s.lnk.queue = [] → s.lnk.outstanding = none → s.site.resources.length = 8 →
        (s.site.sequentialOff = false →
          s.site.those (fun r => r.sequenced && (r.commanded || decide (r.reported = .on))) ≠ [] →
          ∃ t, exec (.siteDown p) s = .next (replyTo p 98 ⟨.pending, []⟩ t) ∧ t.site.pendingWake = false ∧
            StageBegun .stopping .request .downSlot none
              ((s.site.those fun r => r.sequenced && (r.commanded || decide (r.reported = .on))).map .off) s t) ∧
        (s.site.sequentialOff = true →
          s.site.those (fun r => decide (r.slot = some 7) && (r.commanded || decide (r.reported = .on))) ≠ [] →
          ∃ t, exec (.siteDown p) s = .next (replyTo p 98 ⟨.pending, []⟩ t) ∧ t.site.pendingWake = false ∧
            StageBegun .stopping .request .downSlot (some 7)
              ((s.site.those fun r => decide (r.slot = some 7) && (r.commanded || decide (r.reported = .on))).map .off) s t)) ∧
      (∀ st o q behind, s.site.state = .starting ∨ s.site.state = .raising → s.site.stage = some st →
        s.lnk.outstanding = some o → s.lnk.queue = q :: behind → (st.prior.map (·.1)).Nodup → s.site.resources.length = 8 →
        let undone := (behind.map (·.command) ++ st.toPut).filterMap SiteCommand.resource
        let was (r : Nat) : Bool := match st.prior.find? fun x => decide (x.1 = r ∧ r ∈ undone) with
          | some x => x.2
          | none => (s.site.resource r).commanded
        let toStop := (List.range 8).filter fun r =>
          (s.site.resource r).slot.isSome && (was r || decide ((s.site.resource r).reported = .on))
        let stops (slot : Option Nat) (offs : List Nat) : Prop :=
          ∃ t, exec (.siteDown p) s = .next (replyTo p 98 ⟨.pending, []⟩ t) ∧ t.site.state = .stopping ∧
            t.site.pendingWake = false ∧
            t.log = s.log.append (stamp s) .siteState .none (.site s.site.state .stopping .request) ∧
            (∀ p, (s.port p).init = .high → (t.port p).flags.getLsbD 12 = true) ∧
            (∃ x, t.site.stage = some x ∧ x.kind = .downSlot ∧ x.slot = slot ∧ x.awaiting = (offs.take 7).map .off ∧
              x.toPut = (offs.drop 7).map .off ∧ x.age = 0 ∧ x.begun = s.boundaryNo ∧
              t.lnk = { s.lnk with queue := q :: ((offs.take 7).map fun r => ⟨.off r, x.id⟩) }) ∧
            (∀ r < 8, (t.site.resource r).commanded = if r ∈ offs then false else was r) ∧
            t.tb = s.tb ∧ t.air = s.air ∧ t.cue = s.cue ∧ t.lsw = s.lsw ∧ t.dly = s.dly ∧ t.alc = s.alc ∧ t.out = s.out
        (s.site.sequentialOff = false → toStop ≠ [] → stops none toStop) ∧
        (s.site.sequentialOff = true →
          let last := toStop.filter fun r => decide ((s.site.resource r).slot = some 7)
          last ≠ [] → stops (some 7) last)))

/-- A stage at a boundary: an upward slot stage that is confirmed but for its length gives way to the next slot's when the length
has elapsed, that of slot 7 to the POWER stage, and the POWER stage of LOWERING to the slot stages. When the last stage is
confirmed by a delivery the sequence completes: STARTING and RAISING in FULL, LOWERING in LOW, going on to RAISING at once with a
pending wake, STOPPING in OFF (R177, R179 to R182, R185). A stage still unconfirmed at the confirm limit, a command of it out or its reports not come, makes the site FAULT;
a window time starts a sequence from its own state and is logged as not taken in any other (R177, R179, R183, R184). At a SET
CLOCK going forward the window times passed over are due, the later of two taken and the other logged as not taken, before it by
log 40; backward, or the first setting, only a time that is the new value; none with the window disabled or the clock not set
(R14, R184). The window's settings are those its boundary found, so that new ones are matched from the next (R176). The step
before low with no power in force, which no run reaches, is log 43. -/
def Obligations.SiteStagesAndTimesComeDue : Prop :=
  (∀ (st : Stage) (w : LowWindow) (s : State),
    (∀ n, s.due = [.site] → s.site.stage = some st → s.site.state = .starting → st.kind = .upSlot → st.slot = some n → n < 7 →
      st.toPut = [] → st.awaiting = [] → st.begun < s.boundaryNo → st.age + 1 = s.site.slotLength → st.age < 1999 →
      (∀ r < 8, ∀ m, (s.site.resource r).slot = some m → m ≤ n → (s.site.resource r).reported = .on) →
      s.site.those (fun r => decide (r.slot = some (n + 1))) ≠ [] →
      s.lnk.queue = [] → s.lnk.outstanding = none → s.site.resources.length = 8 →
      ∃ t, exec .slotLengthElapsed s = .next t ∧ t.site.state = .starting ∧ t.log = s.log ∧
        StageHeld .upSlot (some (n + 1)) ((s.site.those fun r => decide (r.slot = some (n + 1))).map .on) s t) ∧
    (s.due = [.site] → s.site.stage = some st → s.site.state ≠ .off → s.site.state ≠ .fault → st.begun < s.boundaryNo →
      st.age + 1 = 2000 → st.toPut = [] → s.site.pendingWake = false →
      (∃ q o, s.lnk.queue = [q] ∧ s.lnk.outstanding = some o ∧ q.stage = st.id ∧ st.awaiting = [q.command]) ∨
        (s.lnk.queue = [] ∧ s.lnk.outstanding = none ∧ st.awaiting = [] ∧
          ((st.kind = .power ∧ s.site.reportedStep ≠ some st.step) ∨
           (∃ n m r, st.kind = .upSlot ∧ st.slot = some n ∧ r < 8 ∧ (s.site.resource r).slot = some m ∧ m ≤ n ∧
             (s.site.resource r).reported ≠ .on))) →
      exec .confirmLimit s = .next (raise .siteState (logEntry .siteState .none
        (.site s.site.state .fault (.confirmLimit st.kind st.slot st.step)) { s with
          due := [], site := { s.site with state := .fault, stage := none } }))) ∧
    (s.due = [.window w] → w.enabled = true → s.tb.clockSet = true → s.tb.report = none →
      w.low ≠ w.full → s.site.stage = none → s.lnk.queue = [] → s.lnk.outstanding = none →
      s.site.resources.length = 8 →
      (w.low = s.tb.clock → s.site.state = .full → ∃ t, exec .windowTimeDue s = .next t ∧
        t.site.stepBeforeLow = s.site.power.getD s.site.stepBeforeLow ∧
        StageBegun .lowering .window .power none [.power s.site.lowStep] s t) ∧
      (w.full = s.tb.clock → s.site.state = .low →
        s.site.those (fun r => decide (r.slot = some 0) && !decide (r.reported = .on)) ≠ [] →
        ∃ t, exec .windowTimeDue s = .next t ∧ StageBegun .raising .window .upSlot (some 0)
          ((s.site.those fun r => decide (r.slot = some 0) && !decide (r.reported = .on)).map .on) s t) ∧
      (w.low = s.tb.clock → s.site.state ≠ .full → exec .windowTimeDue s =
        .next (logEntry .scheduleNotTaken .none (.schedule .lowTime s.site.state) { s with due := [] })) ∧
      (w.full = s.tb.clock → s.site.state ≠ .low → exec .windowTimeDue s =
        .next (logEntry .scheduleNotTaken .none (.schedule .fullTime s.site.state) { s with due := [] }))) ∧
    (s.due = [.window w] → w.enabled = false ∨ s.tb.clockSet = false → exec .windowTimeDue s = .next s) ∧
    (∀ r, s.due = [.window w] → w.enabled = true → s.tb.clockSet = true → s.tb.report = some r →
      w.low ≠ w.full → s.site.stage = none → s.lnk.queue = [] → s.lnk.outstanding = none →
      s.site.resources.length = 8 →
      let after (x : Nat) : Nat := (x + 17280000 - r.old) % 17280000
      let passed (x : Nat) : Prop := 1 ≤ after x ∧ after x ≤ after r.new
      let notTaken (w : ScheduleWord) (u : State) : State :=
        logEntry .scheduleNotTaken .none (.schedule w s.site.state) u
      let taken : State := { s with due := [] }
      let ups := (s.site.those fun r => decide (r.slot = some 0) && !decide (r.reported = .on)).map SiteCommand.on
      let low (u : State) : Prop :=
        (s.site.state = .full → ∃ t, exec .windowTimeDue s = .next t ∧ t.site.state = .lowering ∧
          t.site.stepBeforeLow = s.site.power.getD s.site.stepBeforeLow ∧
          t.log = u.log.append (stamp s) .siteState .none (.site .full .lowering .window) ∧
          StageHeld .power none [.power s.site.lowStep] s t) ∧
        (s.site.state ≠ .full → exec .windowTimeDue s = .next (notTaken .lowTime u))
      let full (u : State) : Prop :=
        (s.site.state = .low → ups ≠ [] → ∃ t, exec .windowTimeDue s = .next t ∧ t.site.state = .raising ∧
          t.log = u.log.append (stamp s) .siteState .none (.site .low .raising .window) ∧
          StageHeld .upSlot (some 0) ups s t) ∧
        (s.site.state ≠ .low → exec .windowTimeDue s = .next (notTaken .fullTime u))
      (r.wasSet = true → 1 ≤ after r.new → after r.new ≤ 8640000 →
        (passed w.low → ¬ passed w.full → low taken) ∧
        (¬ passed w.low → passed w.full → full taken) ∧
        (passed w.low → passed w.full →
          (after w.full < after w.low → low (notTaken .fullTime taken)) ∧
          (after w.low < after w.full → full (notTaken .lowTime taken))) ∧
        (¬ passed w.low → ¬ passed w.full → exec .windowTimeDue s = .next s)) ∧
      (r.wasSet = false ∨ after r.new = 0 ∨ 8640000 < after r.new →
        (w.low = r.new → low taken) ∧ (w.full = r.new → full taken) ∧
        (w.low ≠ r.new → w.full ≠ r.new → exec .windowTimeDue s = .next s)))) ∧
  (∀ (inp : PeriodInput) (later : List DueKind) (s : State), s.due = [] → (∀ k, k ∈ later) →
    ∃ t, exec (.blockBoundary inp [] later) s = .next t ∧
      ∀ w, .window w ∈ t.due ↔ w = ⟨s.site.lowTime, s.site.fullTime, s.site.windowEnabled⟩) ∧
  (∀ (inp : PeriodInput) (later : List DueKind) (f : ReturnFrame) (st : Stage) (s : State), s.due = [] →
    (∀ k, k ≠ .link → k ∈ later) → KeysSampled s → s.tb.pendingTime = none → s.lnk.state = .up → s.lnk.period = some f →
    f.fill = s.lnk.siteFill → s.lnk.queue = [] → s.lnk.outstanding = none → s.site.resources.length = 8 →
    f.resources.length = 8 → (∀ r, f.resources.getD r .off ≠ .fault) → f.mode ≠ .fault →
    s.site.stage = some st → st.toPut = [] → st.awaiting = [] →
    let time : Option Nat := if s.tb.clockSet then some (if s.tb.clock = 17279999 then 0 else s.tb.clock + 1) else none
    let delivered (t : State) : Prop := exec (.blockBoundary inp [.link] later) s = .next t ∧
      t.site.reportedStep = some f.power ∧ ∀ r < 8, (t.site.resource r).reported = f.resources.getD r .off
    let completed (new : SiteState) : LOG := s.log.append time .siteState .none (.site s.site.state new .complete)
    let noticed (t : State) : Prop := ∀ p, (s.port p).init = .high → (t.port p).flags.getLsbD 12 = true
    let completes (new : SiteState) (t : State) : Prop := delivered t ∧ t.site.state = new ∧ t.site.stage = none ∧
      t.log = completed new ∧ noticed t ∧ t.lnk.queue = [] ∧ t.lnk.outstanding = none
    let ups (slot : Nat) : List SiteCommand := ((List.range 8).filter fun r =>
      decide ((s.site.resource r).slot = some slot) && !decide (f.resources.getD r .off = .on)).map .on
    let offs (slot : Nat) : List SiteCommand := ((List.range 8).filter fun r => decide ((s.site.resource r).slot = some slot) &&
      !(s.site.resource r).keepInLow && (s.site.resource r).commanded).map .off
    let kept (t : State) : Prop := ∀ r < 8, (t.site.resource r).commanded = (s.site.resource r).commanded
    let allOff : Prop := ∀ r ∈ st.offs, f.resources.getD r .off = .off
    (s.site.state = .starting ∨ s.site.state = .raising → st.kind = .power → f.power = st.step →
      ∃ t, completes .full t ∧ t.site.power = some st.step ∧ kept t) ∧
    (s.site.state = .lowering → st.kind = .downSlot → st.slot = some 0 → allOff →
      (s.site.pendingWake = false → ∃ t, completes .low t ∧ t.site.power = s.site.power ∧ kept t) ∧
      (s.site.pendingWake = true → ups 0 ≠ [] → ∃ t, delivered t ∧ t.site.state = .raising ∧ t.site.pendingWake = false ∧
        t.log = (completed .low).append time .siteState .none (.site .low .raising .wake) ∧ noticed t ∧
        StageFollows .upSlot (some 0) 0 (ups 0) s t)) ∧
    (s.site.state = .stopping → st.kind = .downSlot → st.slot = some 0 ∨ st.slot = none → allOff →
      ∃ t, completes .off t ∧ t.site.power = s.site.power ∧
        ∀ r < 8, (t.site.resource r).commanded = ((s.site.resource r).commanded && (s.site.resource r).slot.isNone)) ∧
    (s.site.state = .lowering → st.kind = .power → f.power = st.step → offs 7 ≠ [] →
      ∃ t, delivered t ∧ t.site.state = .lowering ∧ t.site.power = some st.step ∧ t.log = s.log ∧
        StageFollows .downSlot (some 7) 0 (offs 7) s t) ∧
    (s.site.state = .starting ∨ s.site.state = .raising → st.kind = .upSlot → st.slot = some 7 →
      (st.commands = true → s.site.slotLength ≤ st.age) →
      (∀ r < 8, ∀ m, (s.site.resource r).slot = some m → m ≤ 7 → f.resources.getD r .off = .on) →
      let step := if s.site.state = .raising ∧ s.site.restorePrevious = true then s.site.stepBeforeLow else s.site.fullStep
      ∃ t, delivered t ∧ t.site.state = s.site.state ∧ t.log = s.log ∧ StageFollows .power none step [.power step] s t))

/-! ### Readings -/

/-- Every reading replies from the state as it stands and changes nothing but the reply: the values of its rule in the rule's order
(R19, R49, R79, R104, R125, R149, R150, R170, R171, R186, R191), bare when a reply holds them, else the part asked for with its
number and the number of parts, and BAD_VALUE for a part there is not (R196). READ CUE gives the two entries from the head or
after the named one on, READ ALERT TABLES a page of a table, the EVENTS in the order of their codes, READ LOG the entries from
the serial on, at most two, all that are held when it has been overwritten, with the gap flag, none when it lies ahead (R191).
READ CUE from a serial that is not in the list, READ ALERTS of a place that is empty and READ LOG of a count that is not 1 to 8
are refused. The layout of the values is the model's: logs 5 to 8, 21 and 46; that of a log entry and of READ LOG's first byte logs 26 and 61; 0 boundaries left
where the formula is negative log 48. -/
def Obligations.ReadingsReplyTheState : Prop :=
  ∀ (p : PortId) (part : Option Byte) (x y n : Byte) (start : Half) (from_ : Long) (s : State), (s.port p).Free →
    s.pi.handed = [] → .clockSet ∉ s.due →
    (∀ v : List Byte, let total := (v.length + 58) / 59; let k := (part.map (·.toNat)).getD 0
      paged part v = if v.length ≤ 61 then (if k = 0 then ⟨.ok, v⟩ else ⟨.badValue, []⟩)
        else if total ≤ k then ⟨.badValue, []⟩
        else ⟨.ok, BitVec.ofNat 8 k :: BitVec.ofNat 8 total :: (v.drop (59 * k)).take 59⟩) ∧
    (let t := s.tb
     let house := decide (200 ≤ t.houseCount)
     exec (.readTimebase p part) s = .next (replyTo p 8 (paged part (
      [byte t.source.place] ++ optional (fun c => [byte (ClockSource.place c)]) t.pendingSource ++
      [0, yesNo house, yesNo (decide (t.link = .up))] ++ beBytes 4 t.clock ++ [yesNo t.clockSet, yesNo t.pendingTime.isSome] ++
      ([t.keys.get .n1, t.keys.get .n2, t.keys.get .n3, t.keys.get .n4].flatMap fun k =>
        [byte k.action.place, byte k.edge.place, byte (Level.place k.active), byte (Level.place k.settled)]) ++
      [yesNo t.keyHeld])) s)) ∧
    (let a := s.air
     exec (.readAir p part) s = .next (replyTo p 16 (paged part (
      [byte a.mode.place] ++ (selectedSource s).bytes ++ optional Source.bytes a.chainSource ++
      [byte a.chain.place, byte a.maxDepth, byte a.stack.length] ++
      (a.stack.flatMap fun r => [byte r.number, byte r.kind.place] ++ r.before.bytes ++
        optional (fun e : Nat × Nat => beBytes 2 e.1 ++ beBytes 3 e.2) r.suspended ++
        byte r.parked.length :: (r.parked.flatMap fun l => [byte l.1.number, byte l.2.place]) ++
        optional (fun d => [byte (RunState.place d)]) r.delayBefore ++
        optional (fun e : Nat × Nat => beBytes 2 e.1 ++ beBytes 4 e.2) r.late) ++
      a.free.map byte)) s)) ∧
    (let w := s.lsw
     let slot (l : Nth) : Option Slot := if w.slotA = some l then some .a else if w.slotB = some l then some .b else none
     let holds (l : Option Nth) : Byte := match l with | none => 0 | some l => byte l.number
     exec (.readLines p part) s = .next (replyTo p 40 (paged part (
      ([Nth.n1, .n2, .n3, .n4].flatMap fun l => let r := w.lines.get l
        [byte r.state.place] ++ optional (fun s => [byte (Slot.place s)]) (slot l) ++
        optional (fun cs : List Byte => byte cs.length :: cs) r.note ++ optional (beBytes 4) r.waiting ++
        optional (fun c : Nat × Nat => beBytes 4 c.1 ++ [byte c.2]) r.onAir ++ [yesNo r.state.offHook] ++
        optional (fun l => [byte (Level.place l)]) r.ring ++ optional (fun l => [byte (Level.place l)]) r.loop) ++
      byte w.queue.length :: w.queue.map (fun l => byte l.number) ++
      [holds w.slotA, holds w.slotB, yesNo w.dropOnDump, yesNo w.liveCalls] ++
      [Nth.n1, .n2, .n3, .n4].map fun l => byte (w.ringEdges.get l).place)) s)) ∧
    (let o := s.out
     exec (.readOutput p part) s = .next (replyTo p 80 (paged part (
      [yesNo o.reasons.key, yesNo o.reasons.port, yesNo o.reasons.silence, yesNo o.reasons.test, yesNo o.reasons.resumeLost,
       yesNo s.tb.keyHeld, yesNo o.alertFlag] ++ optional Pair.bytes o.alertId ++
      [BitVec.ofInt 8 (-(o.threshold : Int))] ++ beBytes 2 o.silenceTime ++ beBytes 2 o.restoreTime ++ [yesNo o.failover] ++
      beBytes 2 o.quietRun ++ beBytes 2 o.soundRun ++ [yesNo o.deadAir] ++ optional Origin.bytes o.origin ++
      optional (fun e : Nat × Long => beBytes 2 e.1 ++ longBytes e.2) o.entry ++
      [Nth.n1, .n2, .n3, .n4].map (fun l => yesNo (o.lines.get l)) ++
      beBytes 4 o.entryRun ++ beBytes 4 o.carriedRun ++ [yesNo o.carrying])) s)) ∧
    (let k := s.lnk
     let rest (out : List Byte) (behind : List QueuedCommand) : List Byte := [byte (linkPlace k.state), byte k.good] ++
      beBytes 2 k.missing ++ optional (fun n => [byte n]) k.lastSent ++ optional (fun n => [byte n]) k.lastEcho ++ out ++
      byte behind.length :: (behind.flatMap fun q => [byte q.command.place, byte q.command.value]) ++ [byte k.nextNumber] ++
      optional (fun f : ReturnFrame => [byte f.mode.place] ++ f.resources.map (fun r => byte (Reported.place r)) ++
        [byte f.power, yesNo f.fill]) k.delivered ++ [yesNo k.siteFill]
     (k.outstanding = none →
       exec (.readLink p part) s = .next (replyTo p 88 (paged part (rest [1] k.queue)) s)) ∧
     (∀ o q behind, k.outstanding = some o → k.queue = q :: behind →
       exec (.readLink p part) s = .next (replyTo p 88 (paged part (rest ([0, byte q.command.place, byte q.command.value,
         byte o.number] ++ optional (fun n => [byte n]) o.firstSeq ++ [byte (o.since + 100 - s.boundaryNo)]) behind)) s))) ∧
    (let z := s.site
     exec (.readSite p part) s = .next (replyTo p 96 (paged part (
      [byte z.state.place] ++ optional (fun n => [byte n]) z.power ++ [byte z.stepBeforeLow] ++
      (z.resources.flatMap fun r => [byte (r.slot.getD 255), yesNo r.keepInLow] ++
        optional (fun cs : List Byte => byte cs.length :: cs) r.label ++ [yesNo r.commanded, byte r.reported.place]) ++
      [byte (if z.slotLength = 0 then 0 else if z.slotLength = 200 then 1 else if z.slotLength = 400 then 2 else 3),
       byte z.fullStep, byte z.lowStep, yesNo z.restorePrevious, yesNo z.sequentialOff] ++
      beBytes 4 z.lowTime ++ beBytes 4 z.fullTime ++ [yesNo z.windowEnabled] ++
      optional (fun m => [byte (SiteMode.place m)]) z.lastMode ++ optional (fun n => [byte n]) z.reportedStep ++
      optional (fun st : Stage => [byte st.kind.place, byte (if st.kind = .power then st.step else st.slot.getD 255),
        byte st.toPut.length, byte st.awaiting.length] ++ beBytes 2 st.age) z.stage ++ [yesNo z.pendingWake])) s)) ∧
    (let d := s.dly
     let distance := if d.delay < d.target then d.target - d.delay else d.delay - d.target
     let delay (state : Nat) (more : List Byte) : Prop := exec (.readDelay p) s = .next (replyTo p 56 ⟨.ok,
      [byte state] ++ beBytes 2 d.delay ++ beBytes 2 d.target ++ beBytes 2 d.dumpAmount ++ [byte d.ratio] ++ more ++
      [yesNo d.gateAir, yesNo d.gateLive]⟩ s)
     let steps := byte d.stepCount :: beBytes 3 (if d.stepCount ≤ distance * d.ratio then distance * d.ratio - d.stepCount else 0)
     (d.state = .run .bypass → delay 0 []) ∧ (d.state = .run .building → delay 1 steps) ∧
     (d.state = .run .engaged → delay 2 []) ∧ (d.state = .run .shrinking → delay 3 steps) ∧
     (d.state = .frozen → delay 4 (yesNo d.recompute :: optional (fun r => [byte (RunState.place r)]) d.kept))) ∧
    (start.toNat ≠ 0 → (∀ e ∈ s.cue.list, e.serial ≠ start.toNat) →
      exec (.readCue p start) s = .next (replyTo p 24 ⟨.notFound, []⟩ s)) ∧
    (let serial (e : Option CueEntry) : List Byte := match e with | none => [0, 0] | some e => beBytes 2 e.serial
     let cue (rest : List CueEntry) : Prop := exec (.readCue p start) s = .next (replyTo p 24 ⟨.ok,
      [byte s.cue.list.length] ++ serial s.cue.playing ++ serial s.cue.fading ++ serial s.cue.cued ++
      serial (s.cue.inState .cuedLate) ++
      [byte ((if s.cue.held then 1 else 0) + (if s.cue.armed then 2 else 0) + (if 2 < rest.length then 4 else 0)),
       byte s.cue.waiting, byte s.cue.threshold] ++ beBytes 2 s.cue.counter ++
      (rest.take 2).flatMap CueEntry.bytes⟩ s)
     (start.toNat = 0 → cue s.cue.list) ∧
     (∀ before e rest, s.cue.list = before ++ e :: rest → start.toNat ≠ 0 → e.serial = start.toNat →
       (∀ q ∈ before, q.serial ≠ start.toNat) → cue rest)) ∧
    (∀ e : CueEntry,
      let tail (policy : Nat) : List Byte := (match e.timing with | .none => [] | .hard t => beBytes 4 t | .breakIn t => beBytes 4 t) ++
        [byte (16 * policy + e.state.place)] ++ longBytes e.logRef ++
        (if e.state = .playing ∨ e.state = .fading ∨ e.state = .suspended then beBytes 3 e.elapsed else [])
      let timing := match e.timing with | .none => 0 | .hard _ => if e.timeReached then 129 else 1 | .breakIn _ => 2
      (e.timeReached = true → ∃ t, e.timing = .hard t) →
      (∀ ch len g pol, e.kind = .item ch len g pol → e.bytes = beBytes 2 e.serial ++ [byte ch.place] ++ beBytes 3 (len.getD 0) ++
        beBytes 2 (match g with | .cut => 0 | .fade f => f) ++ [byte timing] ++ tail pol.place) ∧
      (∀ f len, e.kind = .join f len → e.bytes = beBytes 2 e.serial ++ [byte f.code] ++ beBytes 3 len ++
        [byte (timing + if e.joinEnd.isSome then 64 else 0)] ++ tail 3 ++
        (match e.joinEnd with | none => [] | some t => beBytes 4 t)) ∧
      (e.kind = .stop → e.bytes = beBytes 2 e.serial ++ [255] ++ [byte timing] ++ tail 4)) ∧
    (8 < x.toNat → exec (.readAlerts p x part) s = .next (replyTo p 64 ⟨.badValue, []⟩ s)) ∧
    (s.alc.queue.length < x.toNat → x.toNat ≤ 8 → exec (.readAlerts p x part) s = .next (replyTo p 64 ⟨.notFound, []⟩ s)) ∧
    (let q := s.alc.queue
     let count (st : AlertState) : Byte := byte (q.filter fun e => decide (e.state = st)).length
     let head (st : AlertState) : Option AlertEntry := q.find? fun e => decide (e.state = st)
     let summary := [byte q.length, count .pending, count .ready, yesNo s.alc.chainOpen, if s.alc.go then 0 else 1] ++
      optional (fun e : AlertEntry => e.header.pair.bytes ++ beBytes 2 e.played) (head .onAir) ++
      optional (fun e : AlertEntry => e.header.pair.bytes) (head .ready) ++
      optional (fun e : AlertEntry => e.header.pair.bytes) (head .pending)
     (x.toNat = 0 → exec (.readAlerts p x part) s = .next (replyTo p 64 (paged part summary) s)) ∧
     (∀ e, 1 ≤ x.toNat → x.toNat ≤ 8 → q[x.toNat - 1]? = some e → exec (.readAlerts p x part) s =
      .next (replyTo p 64 (paged part (summary ++ e.header.pair.bytes ++ e.header.event.bytes ++ [byte e.header.priority] ++
        beBytes 2 e.header.validity ++ beBytes 2 e.header.audioLength ++
        byte e.header.areas.length :: e.header.areas.flatMap (beBytes 3) ++ [byte e.state.place] ++ beBytes 4 e.arrival ++
        (if e.state = .pending then beBytes 3 e.hold else []) ++
        (if e.state = .ready ∧ e.header.priority = 1 then beBytes 3 e.advisory else []) ++
        beBytes 4 e.validity ++ [byte e.interruptions] ++ (if e.state = .onAir then beBytes 2 e.played else []))) s))) ∧
    (x.toNat = 0 → exec (.readAlertTables p x y) s =
      .next (replyTo p 65 ⟨.ok, BitVec.ofNat 8 s.alc.areas.length :: s.alc.areas.flatMap (beBytes 3)⟩ s)) ∧
    (let rank (r : EventCode × EventAction) : Nat := (r.1.c1.toNat * 256 + r.1.c2.toNat) * 256 + r.1.c3.toNat
     x.toNat = 1 → (y.toNat ≤ 31 → ∃ table : List (EventCode × EventAction), table.Perm s.alc.events ∧
       table.Pairwise (fun a b => rank a ≤ rank b) ∧ exec (.readAlertTables p x y) s = .next (replyTo p 65
         ⟨.ok, y :: ((table.drop y.toNat).take 14).flatMap fun r => [r.1.c1, r.1.c2, r.1.c3, byte r.2.place]⟩ s))) ∧
    (x.toNat = 1 ∨ x.toNat = 2 → 31 < y.toNat →
      exec (.readAlertTables p x y) s = .next (replyTo p 65 ⟨.badValue, []⟩ s)) ∧
    (x.toNat = 3 → exec (.readAlertTables p x y) s = .next (replyTo p 65 ⟨.ok, beBytes 3 s.alc.liveHold ++
      beBytes 3 s.alc.autoHold ++ beBytes 3 s.alc.advisoryWait ++ [if s.alc.wake then 0 else 1]⟩ s)) ∧
    (x.toNat = 2 → y.toNat ≤ 31 → exec (.readAlertTables p x y) s = .next (replyTo p 65
      ⟨.ok, y :: ((s.alc.known.drop y.toNat).take 14).flatMap Pair.bytes⟩ s)) ∧
    (3 < x.toNat → exec (.readAlertTables p x y) s = .next (replyTo p 65 ⟨.badValue, []⟩ s)) ∧
    (n.toNat = 0 ∨ 8 < n.toNat → exec (.readLog p from_ n) s = .next (replyTo p 112 ⟨.badValue, []⟩ s)) ∧
    (1 ≤ n.toNat → n.toNat ≤ 8 →
      (s.log.entries = [] → exec (.readLog p from_ n) s = .next (replyTo p 112 ⟨.ok, [0, 0, 0, 0, 0, 0, 0]⟩ s)) ∧
      ∀ newest older, s.log.entries = newest :: older →
        let held := older.length + 1
        let back := if from_.toNat ≤ newest.serial then newest.serial - from_.toNat
          else newest.serial + 4294967295 - from_.toNat
        let gives (gap : Nat) (page : List LogEntry) : Prop := exec (.readLog p from_ n) s = .next (replyTo p 112
          ⟨.ok, byte (page.length + gap) :: (beBytes 4 newest.serial ++ beBytes 2 held ++ page.flatMap LogEntry.bytes)⟩ s)
        (from_.toNat = 0 → gives 0 (s.log.entries.reverse.take (min n.toNat 2))) ∧
        (from_.toNat ≠ 0 → back < held →
          gives 0 ((s.log.entries.reverse.drop (held - 1 - back)).take (min n.toNat 2))) ∧
        (from_.toNat ≠ 0 → held ≤ back → back < 2147483648 → gives 128 (s.log.entries.reverse.take (min n.toNat 2))) ∧
        (from_.toNat ≠ 0 → held ≤ back → 2147483648 ≤ back → gives 0 []))
end

