-- ==== Sys2Proof/Laws/Audio.lean ====
section
/-! SUPPORT. What AIR forms: the peak level and the mix as R3 and R26 say, and the programme block by R25's source (R4, R27). -/

namespace Sys2Proof.Machine

open Sys2Proof

/-! ### Levels and mixing -/

/-- What the loudest sample of a block is: none is louder, and unless it is 0 some sample reaches it (R3). -/
theorem loudest_spec (a : Audio) :
    (∀ x ∈ a, x.left.toInt.natAbs ≤ loudest a ∧ x.right.toInt.natAbs ≤ loudest a) ∧
    (loudest a = 0 ∨ ∃ x ∈ a, x.left.toInt.natAbs = loudest a ∨ x.right.toInt.natAbs = loudest a) := by
  have from_ (a : Audio) (m : Nat) :
      let n := a.foldl (fun m x => max m (max (magnitude x.left) (magnitude x.right))) m
      m ≤ n ∧ (∀ x ∈ a, x.left.toInt.natAbs ≤ n ∧ x.right.toInt.natAbs ≤ n) ∧
      (n = m ∨ ∃ x ∈ a, x.left.toInt.natAbs = n ∨ x.right.toInt.natAbs = n) := by
    induction a generalizing m with
    | nil => exact ⟨le_refl _, by simp, .inl rfl⟩
    | cons y ys ih =>
      obtain ⟨up, all, some_⟩ := ih (max m (max (magnitude y.left) (magnitude y.right)))
      refine ⟨le_trans (le_max_left _ _) up, ?_, ?_⟩
      · intro x hx
        rcases List.mem_cons.1 hx with rfl | hx
        · exact ⟨le_trans (le_trans (le_max_left _ _) (le_max_right _ _)) up,
            le_trans (le_trans (le_max_right _ _) (le_max_right _ _)) up⟩
        · exact all x hx
      · rcases some_ with h | ⟨x, hx, h⟩
        · rcases max_choice m (max (magnitude y.left) (magnitude y.right)) with e | e
          · exact .inl (h.trans e)
          · rcases max_choice (magnitude y.left) (magnitude y.right) with e' | e'
            · exact .inr ⟨y, List.mem_cons_self, .inl ((h.trans (e.trans e')).symm)⟩
            · exact .inr ⟨y, List.mem_cons_self, .inr ((h.trans (e.trans e')).symm)⟩
        · exact .inr ⟨x, List.mem_cons_of_mem _ hx, h⟩
  exact ⟨(from_ a 0).2.1, (from_ a 0).2.2⟩

/-- The peak level of a block is its peak level (R3; log 9). -/
theorem isPeak_peakOf (a : Audio) : IsPeak a (peakOf a) := by
  refine ⟨loudest a, (loudest_spec a).1, (loudest_spec a).2, ?_⟩
  unfold peakOf decibelsBelow
  cases h : (List.range 97).find? fun k => decide (Config.fullScale ^ 20 ≤ loudest a ^ 20 * 10 ^ k) with
  | none =>
    rw [List.find?_range_eq_none] at h
    refine ⟨le_refl _, fun lt => absurd lt (lt_irrefl _), fun j hj => ?_⟩
    have no := h j (Nat.lt_succ_of_lt hj)
    rw [Bool.not_eq_true', decide_eq_false_iff_not, not_le] at no
    exact no
  | some k =>
    rw [List.find?_range_eq_some] at h
    obtain ⟨yes, mem, before⟩ := h
    refine ⟨Nat.lt_succ_iff.1 (List.mem_range.1 mem), fun _ => of_decide_eq_true yes, fun j hj => ?_⟩
    have no := before j hj
    rw [Bool.not_eq_true', decide_eq_false_iff_not, not_le] at no
    exact no

/-- A mixed sample is the weighted sum, rounded down or up (R26; log 10). -/
theorem mixSample_near {f k : Nat} (hf : 1 ≤ f) (hk : k ≤ f) (o i : Sample) :
    ((mixSample f k o i).toInt * f - (o.toInt * ((f - k : Nat) : Int) + i.toInt * (k : Int))).natAbs < f := by
  have range (x : Sample) : -8388608 ≤ x.toInt ∧ x.toInt ≤ 8388607 := by
    have a := BitVec.le_toInt x
    have b := BitVec.toInt_le (x := x)
    norm_num at a b
    omega
  obtain ⟨o1, o2⟩ := range o
  obtain ⟨i1, i2⟩ := range i
  have fpos : (0 : Int) < f := by exact_mod_cast hf
  have sum : (((f - k : Nat) : Int)) + k = f := by omega
  have k0 : (0 : Int) ≤ k := by positivity
  have r0 : (0 : Int) ≤ ((f - k : Nat) : Int) := by positivity
  unfold mixSample
  dsimp only
  generalize hn : o.toInt * ((f - k : Nat) : Int) + i.toInt * (k : Int) = n
  have low : -8388608 * (f : Int) ≤ n := by nlinarith
  have high : n ≤ 8388607 * (f : Int) := by nlinarith
  have div := Int.mul_ediv_add_emod n f
  have mod0 := Int.emod_nonneg n fpos.ne'
  have modf := Int.emod_lt_of_pos n fpos
  have dl : -8388608 ≤ n / (f : Int) := Int.le_ediv_of_mul_le fpos low
  have dh : n / (f : Int) ≤ 8388607 := Int.ediv_le_of_le_mul fpos high
  have inside (z : Int) (a : -8388608 ≤ z) (b : z ≤ 8388607) : (clip z).toInt = z := by
    unfold clip
    rw [min_eq_right b, max_eq_right a, BitVec.toInt_ofInt]
    exact Int.bmod_eq_of_le (by norm_num; omega) (by norm_num; omega)
  split
  · rename_i e
    rw [inside _ dl dh]
    have : n / (f : Int) * f - n = 0 := by linarith [mul_comm (n / (f : Int)) (f : Int)]
    rw [this]
    exact Nat.lt_of_succ_le hf
  · rename_i e
    split
    · have dh' : n / (f : Int) + 1 ≤ 8388607 := by
        have : n / (f : Int) < 8388607 := by
          by_contra g
          have g : n / (f : Int) = 8388607 := le_antisymm dh (not_lt.1 g)
          rw [g] at div
          have : 0 < n % (f : Int) := lt_of_le_of_ne mod0 (Ne.symm e)
          linarith
        omega
      rw [inside _ (by omega) dh']
      have : (n / (f : Int) + 1) * f - n = f - n % (f : Int) := by linarith [mul_comm (n / (f : Int)) (f : Int)]
      rw [this]
      have : 0 < n % (f : Int) := lt_of_le_of_ne mod0 (Ne.symm e)
      omega
    · rw [inside _ dl dh]
      have : n / (f : Int) * f - n = - (n % (f : Int)) := by linarith [mul_comm (n / (f : Int)) (f : Int)]
      rw [this]
      omega

/-- A mixed block is as R26 says (log 10). -/
theorem isMix_mix {f k : Nat} (hf : 1 ≤ f) (hk : k ≤ f) (outgoing incoming : Audio) :
    IsMix f k outgoing incoming (mix f k outgoing incoming) := by
  refine ⟨List.length_zipWith, fun j o i z ho hi hz => ?_⟩
  unfold mix at hz
  rw [List.getElem?_zipWith, ho, hi] at hz
  cases hz
  exact ⟨mixSample_near hf hk _ _, mixSample_near hf hk _ _⟩

/-! ### The programme block -/

/-- The programme block is formed as R3, R4 and R25 to R27 say. -/
theorem programmeBlock_formed (s : State) : ProgrammeFormed s.audio.prev.inputs s.boundaryNo s (programmeBlock s) := by
  have fadeNone (h : ¬ (s.air.chain = .none ∧ s.air.stack = [] ∧ s.air.mode.automatic)) : fadeInProgress s = none := if_neg h
  have single (h : fadeInProgress s = none) : programmeBlock s =
      ⟨s.audio.prev.inputs.of (selectedSource s),
       programmeTag s (selectedSource s) (sourceEntry s) (s.audio.prev.inputs.of (selectedSource s))⟩ := by
    unfold programmeBlock
    rw [h]
  refine ⟨?_, ?_, ?_, ?_, ?_, ?_⟩
  · unfold programmeBlock
    dsimp only
    (repeat' split) <;> exact isPeak_peakOf _
  · intro l
    unfold programmeBlock programmeTag
    dsimp only
    (repeat' split) <;> cases l <;> rfl
  · unfold programmeBlock
    dsimp only
    (repeat' split) <;> rfl
  · unfold programmeBlock
    dsimp only
    (repeat' split) <;> rfl
  · intro x h e
    rw [single (fadeNone fun g => h g.1)]
    simp [selectedSource, sourceEntry, h, e, programmeTag]
  · intro c
    refine ⟨fun r rest st => ?_, fun st => ⟨fun m => ?_, fun m => ⟨fun p => ?_, ?_, ?_, ?_⟩⟩⟩
    · rw [single (fadeNone fun g => by simp [st] at g)]
      refine ⟨fun k => ?_, fun k => ⟨fun e f p q => ?_, fun q => ?_⟩⟩
      · simp [selectedSource, sourceEntry, c, st, k, programmeTag]
      · simp only [selectedSource, sourceEntry, c, st, CUE.playingFeed, p, programmeTag]
        cases hk : r.kind <;> simp_all
      · have : s.cue.playingFeed = none := by
          unfold CUE.playingFeed
          cases hp : s.cue.playing with
          | none => rfl
          | some e => exact q e hp
        cases hk : r.kind <;> simp_all [selectedSource, sourceEntry, programmeTag]
    · rw [single (fadeNone fun g => by simp [m, Mode.automatic] at g)]
      simp [selectedSource, sourceEntry, c, st, m, programmeTag]
    · have f : fadeInProgress s = none := by
        unfold fadeInProgress
        rw [p]
        split <;> rfl
      rw [single f]
      simp [selectedSource, sourceEntry, c, st, m, p, CUE.source, programmeTag]
    · intro e ch p k q
      have f : fadeInProgress s = none := by
        unfold fadeInProgress
        rw [p, q]
        split <;> rfl
      unfold CueEntry.player at k
      rw [single f]
      cases hk : e.kind <;> rw [hk] at k <;> simp_all [selectedSource, sourceEntry, CUE.source, programmeTag]
    · intro e ch p k q
      have f : fadeInProgress s = none := by
        unfold fadeInProgress
        rw [p, q]
        split <;> rfl
      unfold CueEntry.feed at k
      rw [single f]
      cases hk : e.kind <;> rw [hk] at k <;> simp_all [selectedSource, sourceEntry, CUE.source, programmeTag]
    · intro p o ch f hp ho k hf
      have auto : s.air.mode.automatic = true := by cases h : s.air.mode <;> first | exact absurd h m | rfl
      have fade : fadeInProgress s = some (o, p, f, s.boundaryNo - p.begun) := by
        unfold fadeInProgress
        rw [if_pos ⟨c, st, auto⟩, hp, ho]
        dsimp only
        rw [hf]
        rfl
      have src : o.source = .play ch := by
        unfold CueEntry.player at k
        unfold CueEntry.source
        cases hk : o.kind <;> rw [hk] at k <;> simp_all
      unfold programmeBlock
      rw [fade]
      dsimp only
      refine ⟨fun z => ?_, fun a b => ?_, fun a => ?_⟩
      · rw [if_pos z, src]
        exact ⟨rfl, rfl, rfl⟩
      · rw [if_neg (by omega), if_pos b, src]
        exact ⟨isMix_mix (by omega) b _ _, rfl, rfl⟩
      · rw [if_neg (by omega), if_neg (by omega)]
        exact ⟨rfl, rfl, rfl⟩

end Sys2Proof.Machine
end

