-- ==== Sys2Proof/Laws/State.lean ====
section
/-! SUPPORT. One lemma per field per update: what each of the named writers of Ops.lean leaves in each field. -/

set_option Elab.async false

namespace Sys2Proof.Machine

open Sys2Proof

@[simp] theorem withPi_pending (s : State) (x : PI) : (s.withPi x).pending = s.pending := rfl
@[simp] theorem withPi_pi (s : State) (x : PI) : (s.withPi x).pi = x := rfl
@[simp] theorem withPi_tb (s : State) (x : PI) : (s.withPi x).tb = s.tb := rfl
@[simp] theorem withPi_air (s : State) (x : PI) : (s.withPi x).air = s.air := rfl
@[simp] theorem withPi_cue (s : State) (x : PI) : (s.withPi x).cue = s.cue := rfl
@[simp] theorem withPi_lsw (s : State) (x : PI) : (s.withPi x).lsw = s.lsw := rfl
@[simp] theorem withPi_dly (s : State) (x : PI) : (s.withPi x).dly = s.dly := rfl
@[simp] theorem withPi_alc (s : State) (x : PI) : (s.withPi x).alc = s.alc := rfl
@[simp] theorem withPi_out (s : State) (x : PI) : (s.withPi x).out = s.out := rfl
@[simp] theorem withPi_lnk (s : State) (x : PI) : (s.withPi x).lnk = s.lnk := rfl
@[simp] theorem withPi_site (s : State) (x : PI) : (s.withPi x).site = s.site := rfl
@[simp] theorem withPi_log (s : State) (x : PI) : (s.withPi x).log = s.log := rfl
@[simp] theorem withPi_audio (s : State) (x : PI) : (s.withPi x).audio = s.audio := rfl
@[simp] theorem withPi_due (s : State) (x : PI) : (s.withPi x).due = s.due := rfl
@[simp] theorem withPi_boundaryNo (s : State) (x : PI) : (s.withPi x).boundaryNo = s.boundaryNo := rfl

@[simp] theorem withTb_pending (s : State) (x : TB) : (s.withTb x).pending = s.pending := rfl
@[simp] theorem withTb_pi (s : State) (x : TB) : (s.withTb x).pi = s.pi := rfl
@[simp] theorem withTb_tb (s : State) (x : TB) : (s.withTb x).tb = x := rfl
@[simp] theorem withTb_air (s : State) (x : TB) : (s.withTb x).air = s.air := rfl
@[simp] theorem withTb_cue (s : State) (x : TB) : (s.withTb x).cue = s.cue := rfl
@[simp] theorem withTb_lsw (s : State) (x : TB) : (s.withTb x).lsw = s.lsw := rfl
@[simp] theorem withTb_dly (s : State) (x : TB) : (s.withTb x).dly = s.dly := rfl
@[simp] theorem withTb_alc (s : State) (x : TB) : (s.withTb x).alc = s.alc := rfl
@[simp] theorem withTb_out (s : State) (x : TB) : (s.withTb x).out = s.out := rfl
@[simp] theorem withTb_lnk (s : State) (x : TB) : (s.withTb x).lnk = s.lnk := rfl
@[simp] theorem withTb_site (s : State) (x : TB) : (s.withTb x).site = s.site := rfl
@[simp] theorem withTb_log (s : State) (x : TB) : (s.withTb x).log = s.log := rfl
@[simp] theorem withTb_audio (s : State) (x : TB) : (s.withTb x).audio = s.audio := rfl
@[simp] theorem withTb_due (s : State) (x : TB) : (s.withTb x).due = s.due := rfl
@[simp] theorem withTb_boundaryNo (s : State) (x : TB) : (s.withTb x).boundaryNo = s.boundaryNo := rfl

@[simp] theorem withAir_pending (s : State) (x : AIR) : (s.withAir x).pending = s.pending := rfl
@[simp] theorem withAir_pi (s : State) (x : AIR) : (s.withAir x).pi = s.pi := rfl
@[simp] theorem withAir_tb (s : State) (x : AIR) : (s.withAir x).tb = s.tb := rfl
@[simp] theorem withAir_air (s : State) (x : AIR) : (s.withAir x).air = x := rfl
@[simp] theorem withAir_cue (s : State) (x : AIR) : (s.withAir x).cue = s.cue := rfl
@[simp] theorem withAir_lsw (s : State) (x : AIR) : (s.withAir x).lsw = s.lsw := rfl
@[simp] theorem withAir_dly (s : State) (x : AIR) : (s.withAir x).dly = s.dly := rfl
@[simp] theorem withAir_alc (s : State) (x : AIR) : (s.withAir x).alc = s.alc := rfl
@[simp] theorem withAir_out (s : State) (x : AIR) : (s.withAir x).out = s.out := rfl
@[simp] theorem withAir_lnk (s : State) (x : AIR) : (s.withAir x).lnk = s.lnk := rfl
@[simp] theorem withAir_site (s : State) (x : AIR) : (s.withAir x).site = s.site := rfl
@[simp] theorem withAir_log (s : State) (x : AIR) : (s.withAir x).log = s.log := rfl
@[simp] theorem withAir_audio (s : State) (x : AIR) : (s.withAir x).audio = s.audio := rfl
@[simp] theorem withAir_due (s : State) (x : AIR) : (s.withAir x).due = s.due := rfl
@[simp] theorem withAir_boundaryNo (s : State) (x : AIR) : (s.withAir x).boundaryNo = s.boundaryNo := rfl

@[simp] theorem withCue_pending (s : State) (x : CUE) : (s.withCue x).pending = s.pending := rfl
@[simp] theorem withCue_pi (s : State) (x : CUE) : (s.withCue x).pi = s.pi := rfl
@[simp] theorem withCue_tb (s : State) (x : CUE) : (s.withCue x).tb = s.tb := rfl
@[simp] theorem withCue_air (s : State) (x : CUE) : (s.withCue x).air = s.air := rfl
@[simp] theorem withCue_cue (s : State) (x : CUE) : (s.withCue x).cue = x := rfl
@[simp] theorem withCue_lsw (s : State) (x : CUE) : (s.withCue x).lsw = s.lsw := rfl
@[simp] theorem withCue_dly (s : State) (x : CUE) : (s.withCue x).dly = s.dly := rfl
@[simp] theorem withCue_alc (s : State) (x : CUE) : (s.withCue x).alc = s.alc := rfl
@[simp] theorem withCue_out (s : State) (x : CUE) : (s.withCue x).out = s.out := rfl
@[simp] theorem withCue_lnk (s : State) (x : CUE) : (s.withCue x).lnk = s.lnk := rfl
@[simp] theorem withCue_site (s : State) (x : CUE) : (s.withCue x).site = s.site := rfl
@[simp] theorem withCue_log (s : State) (x : CUE) : (s.withCue x).log = s.log := rfl
@[simp] theorem withCue_audio (s : State) (x : CUE) : (s.withCue x).audio = s.audio := rfl
@[simp] theorem withCue_due (s : State) (x : CUE) : (s.withCue x).due = s.due := rfl
@[simp] theorem withCue_boundaryNo (s : State) (x : CUE) : (s.withCue x).boundaryNo = s.boundaryNo := rfl

@[simp] theorem withLsw_pending (s : State) (x : LSW) : (s.withLsw x).pending = s.pending := rfl
@[simp] theorem withLsw_pi (s : State) (x : LSW) : (s.withLsw x).pi = s.pi := rfl
@[simp] theorem withLsw_tb (s : State) (x : LSW) : (s.withLsw x).tb = s.tb := rfl
@[simp] theorem withLsw_air (s : State) (x : LSW) : (s.withLsw x).air = s.air := rfl
@[simp] theorem withLsw_cue (s : State) (x : LSW) : (s.withLsw x).cue = s.cue := rfl
@[simp] theorem withLsw_lsw (s : State) (x : LSW) : (s.withLsw x).lsw = x := rfl
@[simp] theorem withLsw_dly (s : State) (x : LSW) : (s.withLsw x).dly = s.dly := rfl
@[simp] theorem withLsw_alc (s : State) (x : LSW) : (s.withLsw x).alc = s.alc := rfl
@[simp] theorem withLsw_out (s : State) (x : LSW) : (s.withLsw x).out = s.out := rfl
@[simp] theorem withLsw_lnk (s : State) (x : LSW) : (s.withLsw x).lnk = s.lnk := rfl
@[simp] theorem withLsw_site (s : State) (x : LSW) : (s.withLsw x).site = s.site := rfl
@[simp] theorem withLsw_log (s : State) (x : LSW) : (s.withLsw x).log = s.log := rfl
@[simp] theorem withLsw_audio (s : State) (x : LSW) : (s.withLsw x).audio = s.audio := rfl
@[simp] theorem withLsw_due (s : State) (x : LSW) : (s.withLsw x).due = s.due := rfl
@[simp] theorem withLsw_boundaryNo (s : State) (x : LSW) : (s.withLsw x).boundaryNo = s.boundaryNo := rfl

@[simp] theorem withDly_pending (s : State) (x : DLY) : (s.withDly x).pending = s.pending := rfl
@[simp] theorem withDly_pi (s : State) (x : DLY) : (s.withDly x).pi = s.pi := rfl
@[simp] theorem withDly_tb (s : State) (x : DLY) : (s.withDly x).tb = s.tb := rfl
@[simp] theorem withDly_air (s : State) (x : DLY) : (s.withDly x).air = s.air := rfl
@[simp] theorem withDly_cue (s : State) (x : DLY) : (s.withDly x).cue = s.cue := rfl
@[simp] theorem withDly_lsw (s : State) (x : DLY) : (s.withDly x).lsw = s.lsw := rfl
@[simp] theorem withDly_dly (s : State) (x : DLY) : (s.withDly x).dly = x := rfl
@[simp] theorem withDly_alc (s : State) (x : DLY) : (s.withDly x).alc = s.alc := rfl
@[simp] theorem withDly_out (s : State) (x : DLY) : (s.withDly x).out = s.out := rfl
@[simp] theorem withDly_lnk (s : State) (x : DLY) : (s.withDly x).lnk = s.lnk := rfl
@[simp] theorem withDly_site (s : State) (x : DLY) : (s.withDly x).site = s.site := rfl
@[simp] theorem withDly_log (s : State) (x : DLY) : (s.withDly x).log = s.log := rfl
@[simp] theorem withDly_audio (s : State) (x : DLY) : (s.withDly x).audio = s.audio := rfl
@[simp] theorem withDly_due (s : State) (x : DLY) : (s.withDly x).due = s.due := rfl
@[simp] theorem withDly_boundaryNo (s : State) (x : DLY) : (s.withDly x).boundaryNo = s.boundaryNo := rfl

@[simp] theorem withAlc_pending (s : State) (x : ALC) : (s.withAlc x).pending = s.pending := rfl
@[simp] theorem withAlc_pi (s : State) (x : ALC) : (s.withAlc x).pi = s.pi := rfl
@[simp] theorem withAlc_tb (s : State) (x : ALC) : (s.withAlc x).tb = s.tb := rfl
@[simp] theorem withAlc_air (s : State) (x : ALC) : (s.withAlc x).air = s.air := rfl
@[simp] theorem withAlc_cue (s : State) (x : ALC) : (s.withAlc x).cue = s.cue := rfl
@[simp] theorem withAlc_lsw (s : State) (x : ALC) : (s.withAlc x).lsw = s.lsw := rfl
@[simp] theorem withAlc_dly (s : State) (x : ALC) : (s.withAlc x).dly = s.dly := rfl
@[simp] theorem withAlc_alc (s : State) (x : ALC) : (s.withAlc x).alc = x := rfl
@[simp] theorem withAlc_out (s : State) (x : ALC) : (s.withAlc x).out = s.out := rfl
@[simp] theorem withAlc_lnk (s : State) (x : ALC) : (s.withAlc x).lnk = s.lnk := rfl
@[simp] theorem withAlc_site (s : State) (x : ALC) : (s.withAlc x).site = s.site := rfl
@[simp] theorem withAlc_log (s : State) (x : ALC) : (s.withAlc x).log = s.log := rfl
@[simp] theorem withAlc_audio (s : State) (x : ALC) : (s.withAlc x).audio = s.audio := rfl
@[simp] theorem withAlc_due (s : State) (x : ALC) : (s.withAlc x).due = s.due := rfl
@[simp] theorem withAlc_boundaryNo (s : State) (x : ALC) : (s.withAlc x).boundaryNo = s.boundaryNo := rfl

@[simp] theorem withOut_pending (s : State) (x : OUT) : (s.withOut x).pending = s.pending := rfl
@[simp] theorem withOut_pi (s : State) (x : OUT) : (s.withOut x).pi = s.pi := rfl
@[simp] theorem withOut_tb (s : State) (x : OUT) : (s.withOut x).tb = s.tb := rfl
@[simp] theorem withOut_air (s : State) (x : OUT) : (s.withOut x).air = s.air := rfl
@[simp] theorem withOut_cue (s : State) (x : OUT) : (s.withOut x).cue = s.cue := rfl
@[simp] theorem withOut_lsw (s : State) (x : OUT) : (s.withOut x).lsw = s.lsw := rfl
@[simp] theorem withOut_dly (s : State) (x : OUT) : (s.withOut x).dly = s.dly := rfl
@[simp] theorem withOut_alc (s : State) (x : OUT) : (s.withOut x).alc = s.alc := rfl
@[simp] theorem withOut_out (s : State) (x : OUT) : (s.withOut x).out = x := rfl
@[simp] theorem withOut_lnk (s : State) (x : OUT) : (s.withOut x).lnk = s.lnk := rfl
@[simp] theorem withOut_site (s : State) (x : OUT) : (s.withOut x).site = s.site := rfl
@[simp] theorem withOut_log (s : State) (x : OUT) : (s.withOut x).log = s.log := rfl
@[simp] theorem withOut_audio (s : State) (x : OUT) : (s.withOut x).audio = s.audio := rfl
@[simp] theorem withOut_due (s : State) (x : OUT) : (s.withOut x).due = s.due := rfl
@[simp] theorem withOut_boundaryNo (s : State) (x : OUT) : (s.withOut x).boundaryNo = s.boundaryNo := rfl

@[simp] theorem withLnk_pending (s : State) (x : LNK) : (s.withLnk x).pending = s.pending := rfl
@[simp] theorem withLnk_pi (s : State) (x : LNK) : (s.withLnk x).pi = s.pi := rfl
@[simp] theorem withLnk_tb (s : State) (x : LNK) : (s.withLnk x).tb = s.tb := rfl
@[simp] theorem withLnk_air (s : State) (x : LNK) : (s.withLnk x).air = s.air := rfl
@[simp] theorem withLnk_cue (s : State) (x : LNK) : (s.withLnk x).cue = s.cue := rfl
@[simp] theorem withLnk_lsw (s : State) (x : LNK) : (s.withLnk x).lsw = s.lsw := rfl
@[simp] theorem withLnk_dly (s : State) (x : LNK) : (s.withLnk x).dly = s.dly := rfl
@[simp] theorem withLnk_alc (s : State) (x : LNK) : (s.withLnk x).alc = s.alc := rfl
@[simp] theorem withLnk_out (s : State) (x : LNK) : (s.withLnk x).out = s.out := rfl
@[simp] theorem withLnk_lnk (s : State) (x : LNK) : (s.withLnk x).lnk = x := rfl
@[simp] theorem withLnk_site (s : State) (x : LNK) : (s.withLnk x).site = s.site := rfl
@[simp] theorem withLnk_log (s : State) (x : LNK) : (s.withLnk x).log = s.log := rfl
@[simp] theorem withLnk_audio (s : State) (x : LNK) : (s.withLnk x).audio = s.audio := rfl
@[simp] theorem withLnk_due (s : State) (x : LNK) : (s.withLnk x).due = s.due := rfl
@[simp] theorem withLnk_boundaryNo (s : State) (x : LNK) : (s.withLnk x).boundaryNo = s.boundaryNo := rfl

@[simp] theorem withSite_pending (s : State) (x : SITE) : (s.withSite x).pending = s.pending := rfl
@[simp] theorem withSite_pi (s : State) (x : SITE) : (s.withSite x).pi = s.pi := rfl
@[simp] theorem withSite_tb (s : State) (x : SITE) : (s.withSite x).tb = s.tb := rfl
@[simp] theorem withSite_air (s : State) (x : SITE) : (s.withSite x).air = s.air := rfl
@[simp] theorem withSite_cue (s : State) (x : SITE) : (s.withSite x).cue = s.cue := rfl
@[simp] theorem withSite_lsw (s : State) (x : SITE) : (s.withSite x).lsw = s.lsw := rfl
@[simp] theorem withSite_dly (s : State) (x : SITE) : (s.withSite x).dly = s.dly := rfl
@[simp] theorem withSite_alc (s : State) (x : SITE) : (s.withSite x).alc = s.alc := rfl
@[simp] theorem withSite_out (s : State) (x : SITE) : (s.withSite x).out = s.out := rfl
@[simp] theorem withSite_lnk (s : State) (x : SITE) : (s.withSite x).lnk = s.lnk := rfl
@[simp] theorem withSite_site (s : State) (x : SITE) : (s.withSite x).site = x := rfl
@[simp] theorem withSite_log (s : State) (x : SITE) : (s.withSite x).log = s.log := rfl
@[simp] theorem withSite_audio (s : State) (x : SITE) : (s.withSite x).audio = s.audio := rfl
@[simp] theorem withSite_due (s : State) (x : SITE) : (s.withSite x).due = s.due := rfl
@[simp] theorem withSite_boundaryNo (s : State) (x : SITE) : (s.withSite x).boundaryNo = s.boundaryNo := rfl

@[simp] theorem withLog_pending (s : State) (x : LOG) : (s.withLog x).pending = s.pending := rfl
@[simp] theorem withLog_pi (s : State) (x : LOG) : (s.withLog x).pi = s.pi := rfl
@[simp] theorem withLog_tb (s : State) (x : LOG) : (s.withLog x).tb = s.tb := rfl
@[simp] theorem withLog_air (s : State) (x : LOG) : (s.withLog x).air = s.air := rfl
@[simp] theorem withLog_cue (s : State) (x : LOG) : (s.withLog x).cue = s.cue := rfl
@[simp] theorem withLog_lsw (s : State) (x : LOG) : (s.withLog x).lsw = s.lsw := rfl
@[simp] theorem withLog_dly (s : State) (x : LOG) : (s.withLog x).dly = s.dly := rfl
@[simp] theorem withLog_alc (s : State) (x : LOG) : (s.withLog x).alc = s.alc := rfl
@[simp] theorem withLog_out (s : State) (x : LOG) : (s.withLog x).out = s.out := rfl
@[simp] theorem withLog_lnk (s : State) (x : LOG) : (s.withLog x).lnk = s.lnk := rfl
@[simp] theorem withLog_site (s : State) (x : LOG) : (s.withLog x).site = s.site := rfl
@[simp] theorem withLog_log (s : State) (x : LOG) : (s.withLog x).log = x := rfl
@[simp] theorem withLog_audio (s : State) (x : LOG) : (s.withLog x).audio = s.audio := rfl
@[simp] theorem withLog_due (s : State) (x : LOG) : (s.withLog x).due = s.due := rfl
@[simp] theorem withLog_boundaryNo (s : State) (x : LOG) : (s.withLog x).boundaryNo = s.boundaryNo := rfl

@[simp] theorem withAudio_pending (s : State) (x : Audios) : (s.withAudio x).pending = s.pending := rfl
@[simp] theorem withAudio_pi (s : State) (x : Audios) : (s.withAudio x).pi = s.pi := rfl
@[simp] theorem withAudio_tb (s : State) (x : Audios) : (s.withAudio x).tb = s.tb := rfl
@[simp] theorem withAudio_air (s : State) (x : Audios) : (s.withAudio x).air = s.air := rfl
@[simp] theorem withAudio_cue (s : State) (x : Audios) : (s.withAudio x).cue = s.cue := rfl
@[simp] theorem withAudio_lsw (s : State) (x : Audios) : (s.withAudio x).lsw = s.lsw := rfl
@[simp] theorem withAudio_dly (s : State) (x : Audios) : (s.withAudio x).dly = s.dly := rfl
@[simp] theorem withAudio_alc (s : State) (x : Audios) : (s.withAudio x).alc = s.alc := rfl
@[simp] theorem withAudio_out (s : State) (x : Audios) : (s.withAudio x).out = s.out := rfl
@[simp] theorem withAudio_lnk (s : State) (x : Audios) : (s.withAudio x).lnk = s.lnk := rfl
@[simp] theorem withAudio_site (s : State) (x : Audios) : (s.withAudio x).site = s.site := rfl
@[simp] theorem withAudio_log (s : State) (x : Audios) : (s.withAudio x).log = s.log := rfl
@[simp] theorem withAudio_audio (s : State) (x : Audios) : (s.withAudio x).audio = x := rfl
@[simp] theorem withAudio_due (s : State) (x : Audios) : (s.withAudio x).due = s.due := rfl
@[simp] theorem withAudio_boundaryNo (s : State) (x : Audios) : (s.withAudio x).boundaryNo = s.boundaryNo := rfl

@[simp] theorem withDue_pending (s : State) (x : List Due) : (s.withDue x).pending = s.pending := rfl
@[simp] theorem withDue_pi (s : State) (x : List Due) : (s.withDue x).pi = s.pi := rfl
@[simp] theorem withDue_tb (s : State) (x : List Due) : (s.withDue x).tb = s.tb := rfl
@[simp] theorem withDue_air (s : State) (x : List Due) : (s.withDue x).air = s.air := rfl
@[simp] theorem withDue_cue (s : State) (x : List Due) : (s.withDue x).cue = s.cue := rfl
@[simp] theorem withDue_lsw (s : State) (x : List Due) : (s.withDue x).lsw = s.lsw := rfl
@[simp] theorem withDue_dly (s : State) (x : List Due) : (s.withDue x).dly = s.dly := rfl
@[simp] theorem withDue_alc (s : State) (x : List Due) : (s.withDue x).alc = s.alc := rfl
@[simp] theorem withDue_out (s : State) (x : List Due) : (s.withDue x).out = s.out := rfl
@[simp] theorem withDue_lnk (s : State) (x : List Due) : (s.withDue x).lnk = s.lnk := rfl
@[simp] theorem withDue_site (s : State) (x : List Due) : (s.withDue x).site = s.site := rfl
@[simp] theorem withDue_log (s : State) (x : List Due) : (s.withDue x).log = s.log := rfl
@[simp] theorem withDue_audio (s : State) (x : List Due) : (s.withDue x).audio = s.audio := rfl
@[simp] theorem withDue_due (s : State) (x : List Due) : (s.withDue x).due = x := rfl
@[simp] theorem withDue_boundaryNo (s : State) (x : List Due) : (s.withDue x).boundaryNo = s.boundaryNo := rfl

/-- A notice changes PI alone. -/
theorem raise_eq (k : Notice) (s : State) :
    raise k s = s.withPi { s.pi with a := s.pi.a.raise k, b := s.pi.b.raise k, c := s.pi.c.raise k } := rfl

/-- An entry of the log changes LOG and PI alone. -/
theorem logEntry_eq (k : LogKind) (x : Subject) (d : Detail) (s : State) :
    logEntry k x d s = raise .logNew (s.withLog (s.log.append (stamp s) k x d)) := rfl

@[simp] theorem raise_pending (k : Notice) (s : State) : (raise k s).pending = s.pending := rfl
@[simp] theorem raise_tb (k : Notice) (s : State) : (raise k s).tb = s.tb := rfl
@[simp] theorem raise_air (k : Notice) (s : State) : (raise k s).air = s.air := rfl
@[simp] theorem raise_cue (k : Notice) (s : State) : (raise k s).cue = s.cue := rfl
@[simp] theorem raise_lsw (k : Notice) (s : State) : (raise k s).lsw = s.lsw := rfl
@[simp] theorem raise_dly (k : Notice) (s : State) : (raise k s).dly = s.dly := rfl
@[simp] theorem raise_alc (k : Notice) (s : State) : (raise k s).alc = s.alc := rfl
@[simp] theorem raise_out (k : Notice) (s : State) : (raise k s).out = s.out := rfl
@[simp] theorem raise_lnk (k : Notice) (s : State) : (raise k s).lnk = s.lnk := rfl
@[simp] theorem raise_site (k : Notice) (s : State) : (raise k s).site = s.site := rfl
@[simp] theorem raise_log (k : Notice) (s : State) : (raise k s).log = s.log := rfl
@[simp] theorem raise_audio (k : Notice) (s : State) : (raise k s).audio = s.audio := rfl
@[simp] theorem raise_due (k : Notice) (s : State) : (raise k s).due = s.due := rfl
@[simp] theorem raise_boundaryNo (k : Notice) (s : State) : (raise k s).boundaryNo = s.boundaryNo := rfl

@[simp] theorem logEntry_pending (k : LogKind) (x : Subject) (d : Detail) (s : State) : (logEntry k x d s).pending = s.pending := rfl
@[simp] theorem logEntry_tb (k : LogKind) (x : Subject) (d : Detail) (s : State) : (logEntry k x d s).tb = s.tb := rfl
@[simp] theorem logEntry_air (k : LogKind) (x : Subject) (d : Detail) (s : State) : (logEntry k x d s).air = s.air := rfl
@[simp] theorem logEntry_cue (k : LogKind) (x : Subject) (d : Detail) (s : State) : (logEntry k x d s).cue = s.cue := rfl
@[simp] theorem logEntry_lsw (k : LogKind) (x : Subject) (d : Detail) (s : State) : (logEntry k x d s).lsw = s.lsw := rfl
@[simp] theorem logEntry_dly (k : LogKind) (x : Subject) (d : Detail) (s : State) : (logEntry k x d s).dly = s.dly := rfl
@[simp] theorem logEntry_alc (k : LogKind) (x : Subject) (d : Detail) (s : State) : (logEntry k x d s).alc = s.alc := rfl
@[simp] theorem logEntry_out (k : LogKind) (x : Subject) (d : Detail) (s : State) : (logEntry k x d s).out = s.out := rfl
@[simp] theorem logEntry_lnk (k : LogKind) (x : Subject) (d : Detail) (s : State) : (logEntry k x d s).lnk = s.lnk := rfl
@[simp] theorem logEntry_site (k : LogKind) (x : Subject) (d : Detail) (s : State) : (logEntry k x d s).site = s.site := rfl
@[simp] theorem logEntry_audio (k : LogKind) (x : Subject) (d : Detail) (s : State) : (logEntry k x d s).audio = s.audio := rfl
@[simp] theorem logEntry_due (k : LogKind) (x : Subject) (d : Detail) (s : State) : (logEntry k x d s).due = s.due := rfl
@[simp] theorem logEntry_boundaryNo (k : LogKind) (x : Subject) (d : Detail) (s : State) : (logEntry k x d s).boundaryNo = s.boundaryNo := rfl
@[simp] theorem logEntry_log (k : LogKind) (x : Subject) (d : Detail) (s : State) :
    (logEntry k x d s).log = s.log.append (stamp s) k x d := rfl

@[simp] theorem handOver_pending (d : Due) (s : State) : (handOver d s).pending = s.pending := rfl
@[simp] theorem handOver_pi (d : Due) (s : State) : (handOver d s).pi = s.pi := rfl
@[simp] theorem handOver_tb (d : Due) (s : State) : (handOver d s).tb = s.tb := rfl
@[simp] theorem handOver_air (d : Due) (s : State) : (handOver d s).air = s.air := rfl
@[simp] theorem handOver_cue (d : Due) (s : State) : (handOver d s).cue = s.cue := rfl
@[simp] theorem handOver_lsw (d : Due) (s : State) : (handOver d s).lsw = s.lsw := rfl
@[simp] theorem handOver_dly (d : Due) (s : State) : (handOver d s).dly = s.dly := rfl
@[simp] theorem handOver_alc (d : Due) (s : State) : (handOver d s).alc = s.alc := rfl
@[simp] theorem handOver_out (d : Due) (s : State) : (handOver d s).out = s.out := rfl
@[simp] theorem handOver_lnk (d : Due) (s : State) : (handOver d s).lnk = s.lnk := rfl
@[simp] theorem handOver_site (d : Due) (s : State) : (handOver d s).site = s.site := rfl
@[simp] theorem handOver_log (d : Due) (s : State) : (handOver d s).log = s.log := rfl
@[simp] theorem handOver_audio (d : Due) (s : State) : (handOver d s).audio = s.audio := rfl
@[simp] theorem handOver_boundaryNo (d : Due) (s : State) : (handOver d s).boundaryNo = s.boundaryNo := rfl

@[simp] theorem replyTo_pending (p : PortId) (c : Nat) (r : Reply) (s : State) : (replyTo p c r s).pending = s.pending := rfl
@[simp] theorem replyTo_tb (p : PortId) (c : Nat) (r : Reply) (s : State) : (replyTo p c r s).tb = s.tb := rfl
@[simp] theorem replyTo_air (p : PortId) (c : Nat) (r : Reply) (s : State) : (replyTo p c r s).air = s.air := rfl
@[simp] theorem replyTo_cue (p : PortId) (c : Nat) (r : Reply) (s : State) : (replyTo p c r s).cue = s.cue := rfl
@[simp] theorem replyTo_lsw (p : PortId) (c : Nat) (r : Reply) (s : State) : (replyTo p c r s).lsw = s.lsw := rfl
@[simp] theorem replyTo_dly (p : PortId) (c : Nat) (r : Reply) (s : State) : (replyTo p c r s).dly = s.dly := rfl
@[simp] theorem replyTo_alc (p : PortId) (c : Nat) (r : Reply) (s : State) : (replyTo p c r s).alc = s.alc := rfl
@[simp] theorem replyTo_out (p : PortId) (c : Nat) (r : Reply) (s : State) : (replyTo p c r s).out = s.out := rfl
@[simp] theorem replyTo_lnk (p : PortId) (c : Nat) (r : Reply) (s : State) : (replyTo p c r s).lnk = s.lnk := rfl
@[simp] theorem replyTo_site (p : PortId) (c : Nat) (r : Reply) (s : State) : (replyTo p c r s).site = s.site := rfl
@[simp] theorem replyTo_log (p : PortId) (c : Nat) (r : Reply) (s : State) : (replyTo p c r s).log = s.log := rfl
@[simp] theorem replyTo_audio (p : PortId) (c : Nat) (r : Reply) (s : State) : (replyTo p c r s).audio = s.audio := rfl
@[simp] theorem replyTo_due (p : PortId) (c : Nat) (r : Reply) (s : State) : (replyTo p c r s).due = s.due := rfl
@[simp] theorem replyTo_boundaryNo (p : PortId) (c : Nat) (r : Reply) (s : State) : (replyTo p c r s).boundaryNo = s.boundaryNo := rfl

/-! ### Ports -/

@[simp] theorem pi_get_set (x : PI) (p : PortId) (v : Port) : (x.set p v).get p = v := by cases p <;> rfl

@[simp] theorem pi_get_set_other (x : PI) (p q : PortId) (v : Port) (h : q ≠ p) : (x.set p v).get q = x.get q := by
  cases p <;> cases q <;> first | rfl | exact absurd rfl h

@[simp] theorem withPort_port (s : State) (p : PortId) (v : Port) : (s.withPort p v).port p = v := pi_get_set s.pi p v

@[simp] theorem withPort_port_other (s : State) (p q : PortId) (v : Port) (h : q ≠ p) :
    (s.withPort p v).port q = s.port q := pi_get_set_other s.pi p q v h

@[simp] theorem replyTo_port (p : PortId) (c : Nat) (r : Reply) (s : State) :
    (replyTo p c r s).port p = (s.port p).fill c r := withPort_port s p _

theorem replyTo_port_other (p q : PortId) (c : Nat) (r : Reply) (s : State) (h : q ≠ p) :
    (replyTo p c r s).port q = s.port q := withPort_port_other s p q _ h

@[simp] theorem raise_port (k : Notice) (s : State) (p : PortId) : (raise k s).port p = (s.port p).raise k := by
  cases p <;> rfl

/-! ### One of four -/

@[simp] theorem four_get_set {α : Type} (f : Four α) (i : Nth) (x : α) : (f.set i x).get i = x := by cases i <;> rfl

@[simp] theorem four_get_set_other {α : Type} (f : Four α) (i j : Nth) (x : α) (h : j ≠ i) :
    (f.set i x).get j = f.get j := by
  cases i <;> cases j <;> first | rfl | exact absurd rfl h

@[simp] theorem four_get_modify {α : Type} (f : Four α) (i : Nth) (g : α → α) : (f.modify i g).get i = g (f.get i) :=
  four_get_set f i _

@[simp] theorem four_get_map {α β : Type} (f : Four α) (g : α → β) (i : Nth) : (f.map g).get i = g (f.get i) := by
  cases i <;> rfl

/-! ### Doing something on a condition -/

@[simp] theorem when_true (f : State → State) (s : State) : when true f s = f s := rfl
@[simp] theorem when_false (f : State → State) (s : State) : when false f s = s := rfl

end Sys2Proof.Machine
end

