-- ==== Sys2Proof/Laws/Chain.lean ====
section
/-! SUPPORT. What the first alert of a chain does to the air when a record can be given: each owner's part of the grant as one
equation, and `chainBegun`, which says the whole event once. -/

set_option Elab.async false

namespace Sys2Proof.Machine

open Sys2Proof

/-! ### Notices are only gained -/

/-- On a port whose init pin is high the pin stays and no notice flag is lost. -/
def GainsNotices (s t : State) : Prop :=
  ∀ p, (s.port p).init = .high →
    (t.port p).init = .high ∧ ∀ n, (s.port p).flags.getLsbD n = true → (t.port p).flags.getLsbD n = true

theorem GainsNotices.trans {s t u : State} (h : GainsNotices s t) (k : GainsNotices t u) : GainsNotices s u :=
  fun p i => ⟨(k p (h p i).1).1, fun n b => (k p (h p i).1).2 n ((h p i).2 n b)⟩

theorem gains_of_pi {s t : State} (h : t.pi = s.pi) : GainsNotices s t := fun p i => by
  have same : t.port p = s.port p := by unfold State.port; rw [h]
  rw [same]
  exact ⟨i, fun _ b => b⟩

theorem gains_raise (k : Notice) (s : State) : GainsNotices s (raise k s) := fun p i => by
  rw [raise_port]
  unfold Port.raise
  rw [i]
  exact ⟨rfl, fun n b => by simp [b]⟩

theorem gains_when {c : Bool} {f : State → State} {s : State} (h : GainsNotices s (f s)) : GainsNotices s (when c f s) := by
  cases c
  · exact gains_of_pi rfl
  · exact h

/-- A notice raised on a port whose init pin is high sets its bit (R194). -/
theorem raised_bit (k : Notice) {s : State} {p : PortId} (i : (s.port p).init = .high) :
    ((raise k s).port p).flags.getLsbD k.bit = true := by
  rw [raise_port]
  unfold Port.raise
  rw [i]
  cases k <;> simp [Notice.bit]

/-! ### CUE's part -/

/-- A fall of a run line touches the run lines alone. -/
theorem dropLine_eq (x : CUE) (e : CueEntry) : x.dropLine e = { x with run := (x.dropLine e).run } := by
  unfold CUE.dropLine
  cases e.player <;> rfl

/-- The run line of an entry's player is low after the fall, and no other moves (R61). -/
theorem dropLine_high (x : CUE) (e : CueEntry) (c : Nth) :
    ((x.dropLine e).run.get c).high = if e.player = some c then false else (x.run.get c).high := by
  unfold CUE.dropLine
  cases h : e.player with
  | none => simp
  | some d => cases d <;> cases c <;> simp [Four.modify, Four.get, Four.set, RunLine.drop]

/-- The end of a FADING entry: it leaves the list, its run line falls and ENTRY ENDED is raised (R61, R65). -/
theorem endFading_some {s : State} {e : CueEntry} (h : s.cue.fading = some e) :
    endFading s = raise .entryEnded (s.withCue
      (({ s.cue with list := s.cue.list.filter fun x => !decide (x.serial = e.serial) } : CUE).dropLine e)) := by
  have fading : e.state = .fading := by simpa using List.find?_some h
  unfold endFading
  rw [h]
  show leave e s = _
  simp [leave, fading, CueEntry.onAir, when]

/-- The end of a FADING entry touches the list, the run lines and PI alone. -/
theorem endFading_eq (s : State) : ∃ l r q, endFading s = (s.withCue { s.cue with list := l, run := r }).withPi q := by
  cases h : s.cue.fading with
  | none => exact ⟨s.cue.list, s.cue.run, s.pi, by unfold endFading; rw [h]; rfl⟩
  | some e =>
    rw [endFading_some h, dropLine_eq]
    exact ⟨_, _, _, rfl⟩

/-- A suspension touches the list, the run lines, the hold and PI alone (R70). -/
theorem suspend_eq (s : State) :
    ∃ l r q, suspend s = (s.withCue { s.cue with list := l, run := r, held := true }).withPi q := by
  obtain ⟨l, r, q, h⟩ := endFading_eq s
  unfold suspend
  rw [h]
  dsimp only
  split
  · rw [dropLine_eq]
    exact ⟨_, _, q, rfl⟩
  · exact ⟨_, _, q, rfl⟩

/-- What a suspension leaves in CUE comes from CUE alone. -/
theorem suspend_cue {s u : State} (h : u.cue = s.cue) : (suspend u).cue = (suspend s).cue := by
  have faded : (endFading u).cue = (endFading s).cue := by
    cases f : s.cue.fading with
    | none => unfold endFading; rw [h, f]; exact h
    | some e =>
      rw [endFading_some f, endFading_some (s := u) (by rw [h]; exact f), h]
      rfl
  unfold suspend
  simp only [withCue_cue, faded]

/-- What a suspension does to the list and the run lines, the serials differing as R53 has them: the FADING entry leaves, the
PLAYING one is SUSPENDED, and the lines of the two fall (R61, R70). -/
theorem suspend_spec (s : State) (nd : (s.cue.list.map (·.serial)).Nodup) :
    (suspend s).cue.list = (s.cue.list.filter fun x => !decide (s.cue.fading = some x)).map (fun x =>
      if s.cue.playing = some x then { x with state := .suspended } else x) ∧
    ∀ c, ((suspend s).cue.run.get c).high = if s.cue.playing.bind CueEntry.player = some c ∨
      s.cue.fading.bind CueEntry.player = some c then false else (s.cue.run.get c).high := by
  have uniq : ∀ x ∈ s.cue.list, ∀ y ∈ s.cue.list, (x.serial = y.serial ↔ some y = some x) := fun x hx y hy =>
    ⟨fun e => by rw [List.inj_on_of_nodup_map nd hx hy e], fun e => by rw [Option.some.inj e]⟩
  have faded : (endFading s).cue.list = (s.cue.list.filter fun x => !decide (s.cue.fading = some x)) ∧
      ∀ c, ((endFading s).cue.run.get c).high = if s.cue.fading.bind CueEntry.player = some c then false
        else (s.cue.run.get c).high := by
    cases h : s.cue.fading with
    | none => unfold endFading; rw [h]; simp
    | some e =>
      have mem : e ∈ s.cue.list := List.mem_of_find?_eq_some h
      rw [endFading_some h]
      refine ⟨?_, fun c => dropLine_high _ _ _⟩
      rw [dropLine_eq]
      exact List.filter_congr fun x hx => by simp only [uniq x hx e mem]
  have still : (endFading s).cue.playing = s.cue.playing := by
    unfold CUE.playing CUE.inState
    rw [faded.1, List.find?_filter]
    congr 1
    funext x
    by_cases h : s.cue.fading = some x
    · have fading : x.state = .fading := by simpa using List.find?_some h
      simp [fading]
    · simp [h]
  simp only [suspend, still]
  cases h : s.cue.playing with
  | none =>
    simp only [withCue_cue, faded.1]
    exact ⟨by simp, fun c => by simpa using faded.2 c⟩
  | some e =>
    have mem : e ∈ s.cue.list := List.mem_of_find?_eq_some h
    simp only [withCue_cue]
    refine ⟨?_, fun c => ?_⟩
    · rw [dropLine_eq]
      show ((endFading s).cue.modify e.serial _).list = _
      simp only [CUE.modify, faded.1]
      exact List.map_congr_left fun x hx => by simp only [uniq x (List.mem_filter.1 hx).1 e mem]
    · rw [dropLine_high]
      show (if e.player = some c then false else ((endFading s).cue.run.get c).high) = _
      rw [faded.2]
      simp only [Option.bind_some]
      split <;> split <;> simp_all

/-- A suspension leaves the number of waiting entries as it is (R70, R78). -/
theorem suspend_waiting (s : State) (nd : (s.cue.list.map (·.serial)).Nodup) :
    (suspend s).cue.waiting = s.cue.waiting := by
  unfold CUE.waiting
  rw [(suspend_spec s nd).1, List.filter_map, List.length_map, List.filter_filter]
  congr 1
  refine List.filter_congr fun x hx => ?_
  have playing : s.cue.playing = some x → x.state = .playing := fun h => by simpa using List.find?_some h
  have fading : s.cue.fading = some x → x.state = .fading := fun h => by simpa using List.find?_some h
  by_cases hp : s.cue.playing = some x
  · simp [hp, CueEntry.waits, playing hp]
  · by_cases hf : s.cue.fading = some x
    · simp [hf, CueEntry.waits, fading hf]
    · simp [hp, hf]

theorem gains_endFading (s : State) : GainsNotices s (endFading s) := by
  cases h : s.cue.fading with
  | none => unfold endFading; rw [h]; exact gains_of_pi rfl
  | some e => rw [endFading_some h]; exact gains_raise _ (s.withCue _)

theorem gains_suspend (s : State) : GainsNotices s (suspend s) := (gains_endFading s).trans (gains_of_pi rfl)

/-- The low-water check touches the arming and PI alone (R78). -/
theorem lowWaterCheck_eq (b a : State) : ∃ m q, lowWaterCheck b a = (a.withCue { a.cue with armed := m }).withPi q := by
  unfold lowWaterCheck
  dsimp only
  split
  · exact ⟨false, _, rfl⟩
  · split
    · exact ⟨true, a.pi, rfl⟩
    · exact ⟨a.cue.armed, a.pi, rfl⟩

theorem gains_lowWaterCheck (b a : State) : GainsNotices a (lowWaterCheck b a) := by
  unfold lowWaterCheck
  dsimp only
  split
  · exact gains_raise _ _
  · split <;> exact gains_of_pi rfl

/-! ### LSW's part and DLY's -/

/-- LSW after a grant with a record: every line in AIR PARKED, the slots free (R101). -/
def LSW.parkedAir (x : LSW) : LSW :=
  if x.anyIn .air then
    { x with slotA := none, slotB := none, lines := x.lines.map fun r => if r.state = .air then r.goes .parked else r }
  else x

/-- No line is in AIR after a grant. -/
theorem parkedAir_anyIn (x : LSW) : x.parkedAir.anyIn .air = false := by
  unfold LSW.parkedAir
  split
  · simp only [LSW.anyIn, List.any_eq_false, decide_eq_true_eq]
    intro r hr
    obtain ⟨l, rfl⟩ : ∃ l, r = (x.lines.map fun r => if r.state = .air then r.goes .parked else r).get l := by
      simp only [Four.toList, List.mem_cons, List.not_mem_nil, or_false] at hr
      rcases hr with h | h | h | h
      exacts [⟨.n1, h⟩, ⟨.n2, h⟩, ⟨.n3, h⟩, ⟨.n4, h⟩]
    rw [four_get_map]
    split <;> simp_all [Line.goes]
  · exact Bool.eq_false_iff.2 ‹_›

/-- A line in AIR is PARKED by a grant, and no other line moves. -/
theorem parkedAir_line (x : LSW) (l : Nth) :
    x.parkedAir.lines.get l = if (x.lines.get l).state = .air then (x.lines.get l).goes .parked else x.lines.get l := by
  unfold LSW.parkedAir
  split
  · exact four_get_map ..
  · rename_i none_
    rw [if_neg]
    intro h
    apply none_
    simp only [LSW.anyIn, List.any_eq_true, decide_eq_true_eq]
    exact ⟨x.lines.get l, by cases l <;> simp [Four.toList, Four.get], h⟩

/-- Parking touches LSW and PI alone. -/
theorem parkLines_eq (s : State) : ∃ q, parkLines s = (s.withLsw s.lsw.parkedAir).withPi q := by
  unfold parkLines emptyAir LSW.parkedAir
  split
  · exact ⟨_, rfl⟩
  · exact ⟨s.pi, rfl⟩

theorem gains_parkLines (s : State) : GainsNotices s (parkLines s) := by
  unfold parkLines emptyAir
  split
  · exact gains_raise _ (s.withLsw _)
  · exact gains_of_pi rfl

/-- A freeze with a record touches DLY and PI alone (R121). -/
theorem freeze_eq (s : State) :
    ∃ q, freeze false s = (s.withDly { s.dly with state := .frozen, recompute := false, kept := none }).withPi q := by
  have may (c : Bool) (k : Notice) (u : State) : ∃ q, when c (raise k) u = u.withPi q := by
    cases c
    · exact ⟨u.pi, rfl⟩
    · exact ⟨_, rfl⟩
  exact may _ _ _

theorem gains_freeze (s : State) : GainsNotices s (freeze false s) :=
  (gains_of_pi (t := s.withDly { s.dly with state := .frozen, recompute := false, kept := none }) rfl).trans
    (gains_when (gains_raise _ _))

/-! ### The alert's part -/

/-- The alert on air, as R144 has it begin. -/
def AlertEntry.airs (e : AlertEntry) (b : Nat) : AlertEntry := { e with state := .onAir, played := 0, advisory := 0, begun := b }

/-- The one queued alert begins to air, no wake being asked for (R144, R153). -/
theorem airing_eq {e x : AlertEntry} {s : State} (q : s.alc.queue = [x]) (same : x.header.pair = e.header.pair)
    (w : s.alc.wake = false) :
    airing false e s = { s with
      alc := { s.alc with go := true, goRiseAfter := none, queue := [x.airs s.boundaryNo] }
      out := { s.out with alertId := some e.header.pair }
      log := s.log.append (stamp s) .alertOnAir (.alert e.header.pair) (.onAir e.header.priority e.interruptions)
      pi := (airing false e s).pi } ∧
    GainsNotices s (airing false e s) ∧
    ∀ p, (s.port p).init = .high →
      ((airing false e s).port p).flags.getLsbD 9 = true ∧ ((airing false e s).port p).flags.getLsbD 15 = true := by
  have shape : ∃ u, u.pi = s.pi ∧ airing false e s = raise .alertState (raise .logNew u) := by
    unfold airing
    simp only [w, when_false, logAlert, logEntry]
    refine ⟨_, ?_, rfl⟩
    rfl
  refine ⟨?_, ?_⟩
  · unfold airing
    simp only [w, when_false, ALC.modify, q, List.map_cons, List.map_nil, if_pos same]
    rfl
  · obtain ⟨u, pi, h⟩ := shape
    rw [h]
    have log := (gains_of_pi pi).trans (gains_raise .logNew u)
    refine ⟨log.trans (gains_raise .alertState _), fun p i => ⟨raised_bit .alertState (log p i).1, ?_⟩⟩
    exact (gains_raise .alertState _ p (log p i).1).2 _ (raised_bit .logNew (gains_of_pi pi p i).1)

/-- The record a chain is given: the air as it stood at the grant (R28, R31). -/
def recordOf (s : State) : ContextRecord :=
  { number := s.air.free.headD 1, kind := .alert, before := selectedSource s
    suspended := s.cue.playing.map fun p => (p.serial, p.elapsed), parked := s.lsw.airPairs
    delayBefore := some s.dly.runState, late := none }

/-- The first alert of a chain, the record given, is each owner's part in turn: CUE suspends, LSW parks, DLY freezes, OUT is told,
and the alert airs (R35, R70, R101, R121, R143). -/
theorem beginChain_parts {e : AlertEntry} {s : State} (room : s.air.stack.length < s.air.maxDepth) :
    ∃ u z, u = { s with air := { s.air with chain := .withContext, chainSource := some (selectedSource s)
                                            stack := recordOf s :: s.air.stack, free := s.air.free.drop 1 } } ∧
      z = { freeze false (parkLines (suspend u)) with
        out := { s.out with alertFlag := true }, alc := { s.alc with chainOpen := true } } ∧
      beginChain e s = airing false e z := by
  have has : s.air.hasRoom = true := by simp [AIR.hasRoom, room]
  refine ⟨_, _, rfl, rfl, ?_⟩
  generalize hu : ({ s with air := { s.air with chain := .withContext, chainSource := some (selectedSource s)
                                                stack := recordOf s :: s.air.stack, free := s.air.free.drop 1 } } : State) = u
  have granted : grantAlert e.header.pair s = alertHolds true (freeze false (parkLines (suspend u))) := by
    unfold grantAlert push
    rw [if_pos has, ← hu]
    rfl
  obtain ⟨l, r, q, suspended⟩ := suspend_eq u
  obtain ⟨q', parked⟩ := parkLines_eq (suspend u)
  obtain ⟨q'', frozen⟩ := freeze_eq (parkLines (suspend u))
  unfold beginChain
  rw [granted, frozen, parked, suspended, ← hu]
  rfl

/-- The first alert of a chain, the record given, as one equation, but for PI (R31, R35, R70, R101, R121, R143, R144). -/
theorem beginChain_eq {e x : AlertEntry} {s : State} (q : s.alc.queue = [x]) (same : x.header.pair = e.header.pair)
    (room : s.air.stack.length < s.air.maxDepth) (w : s.alc.wake = false) :
    beginChain e s = { s with
      air := { s.air with chain := .withContext, chainSource := some (selectedSource s)
                          stack := recordOf s :: s.air.stack, free := s.air.free.drop 1 }
      cue := (suspend s).cue
      lsw := s.lsw.parkedAir
      dly := { s.dly with state := .frozen, recompute := false, kept := none }
      alc := { s.alc with chainOpen := true, go := true, goRiseAfter := none, queue := [x.airs s.boundaryNo] }
      out := { s.out with alertFlag := true, alertId := some e.header.pair }
      log := s.log.append (stamp s) .alertOnAir (.alert e.header.pair) (.onAir e.header.priority e.interruptions)
      pi := (beginChain e s).pi } := by
  obtain ⟨u, z, hu, hz, h⟩ := beginChain_parts (e := e) room
  obtain ⟨l, r, q1, suspended⟩ := suspend_eq u
  obtain ⟨q2, parked⟩ := parkLines_eq (suspend u)
  obtain ⟨q3, frozen⟩ := freeze_eq (parkLines (suspend u))
  rw [h, (airing_eq (by rw [hz]; exact q) same (by rw [hz]; exact w)).1, hz, frozen, parked,
    ← suspend_cue (u := u) (s := s) (by rw [hu]), suspended, hu]
  rfl

/-- The notices of that event: LOG NEW and ALERT STATE, with DELAY STATE, LINE CHANGE and ENTRY ENDED where their owner raises them
(R61, R101, R124, R144, R191). -/
theorem beginChain_notices {e x : AlertEntry} {s : State} (q : s.alc.queue = [x]) (same : x.header.pair = e.header.pair)
    (room : s.air.stack.length < s.air.maxDepth) (w : s.alc.wake = false) :
    GainsNotices s (beginChain e s) ∧ ∀ p, (s.port p).init = .high →
      let raised (bit : Nat) : Prop := ((beginChain e s).port p).flags.getLsbD bit = true
      raised 9 ∧ raised 15 ∧ (s.dly.state ≠ .frozen → raised 6) ∧ (s.lsw.anyIn .air = true → raised 5) ∧
      (s.cue.fading ≠ none → raised 1) := by
  obtain ⟨u, z, hu, hz, h⟩ := beginChain_parts (e := e) room
  obtain ⟨l, r, q1, suspended⟩ := suspend_eq u
  obtain ⟨q2, parked⟩ := parkLines_eq (suspend u)
  obtain ⟨-, airs, bits⟩ := airing_eq (s := z) (by rw [hz]; exact q) same (by rw [hz]; exact w)
  have toU : GainsNotices s u := gains_of_pi (by rw [hu])
  have toSuspended := toU.trans (gains_suspend u)
  have toParked := toSuspended.trans (gains_parkLines _)
  have toFrozen := toParked.trans (gains_freeze _)
  have fromFrozen : GainsNotices (freeze false (parkLines (suspend u))) (airing false e z) :=
    (gains_of_pi (by rw [hz])).trans airs
  have fromParked := (gains_freeze (parkLines (suspend u))).trans fromFrozen
  have fromSuspended := (gains_parkLines (suspend u)).trans fromParked
  rw [h]
  refine ⟨toFrozen.trans fromFrozen, fun p i => ⟨?_, ?_, fun moved => ?_, fun some_ => ?_, fun fades => ?_⟩⟩
  · exact (bits p ((toFrozen.trans (gains_of_pi (by rw [hz]))) p i).1).1
  · exact (bits p ((toFrozen.trans (gains_of_pi (by rw [hz]))) p i).1).2
  · refine (fromFrozen p (toFrozen p i).1).2 _ ?_
    have dly : (parkLines (suspend u)).dly = s.dly := by rw [parked, suspended, hu]; rfl
    unfold freeze dlyBecomes
    rw [dly, decide_eq_false (Ne.symm moved)]
    exact raised_bit .delayState (toParked p i).1
  · refine (fromParked p (toParked p i).1).2 _ ?_
    have lsw : (suspend u).lsw = s.lsw := by rw [suspended, hu]; rfl
    unfold parkLines emptyAir
    rw [lsw, if_pos some_]
    exact raised_bit .lineChange (toSuspended p i).1
  · refine (fromSuspended p (toSuspended p i).1).2 _ ?_
    obtain ⟨f, hf⟩ := Option.ne_none_iff_exists'.1 fades
    show ((endFading u).port p).flags.getLsbD 1 = true
    rw [endFading_some (s := u) (by rw [hu]; exact hf)]
    exact raised_bit .entryEnded (toU p i).1

/-- The event in which the one queued alert begins a chain with a record, closed as every event is, is `ChainBegun`; `b` is the state
before the event, in whose course nothing has started and LSW and the waiting count have stood still so far. -/
theorem chainBegun {b s : State} {e x : AlertEntry} (q : s.alc.queue = [x]) (same : x.header.pair = e.header.pair)
    (airs : x.airs s.boundaryNo = e.airs s.boundaryNo) (room : s.air.stack.length < s.air.maxDepth) (w : s.alc.wake = false)
    (st : s.cue.started = false) (lsw : b.lsw = s.lsw) (waiting : b.cue.waiting = s.cue.waiting) :
    ChainBegun e s.log s.due s (finish b (beginChain e s)) := by
  have eq := beginChain_eq q same room w
  obtain ⟨gains, bits⟩ := beginChain_notices q same room w
  generalize beginChain e s = a at eq gains bits
  obtain ⟨l, r, q1, suspended⟩ := suspend_eq s
  obtain ⟨m, q2, low⟩ := lowWaterCheck_eq b a
  have live : s.lsw.parkedAir.liveCalls = s.lsw.liveCalls := by unfold LSW.parkedAir; split <;> rfl
  have started : a.cue.started = false := by rw [eq, suspended]; exact st
  have fin : finish b a = clearMarks ((lowWaterCheck b a).withDue
      (if s.lsw.anyIn .air then s.due ++ [.gateReport false s.lsw.liveCalls] else s.due)) := by
    have due : (lowWaterCheck b a).due = s.due := by rw [low, eq]; rfl
    have now : (lowWaterCheck b a).lsw = s.lsw.parkedAir := by rw [low, eq]; rfl
    unfold finish gateCheck
    rw [started, when_false, now, parkedAir_anyIn, live, lsw]
    by_cases some_ : s.lsw.anyIn .air = true
    · rw [if_neg (by simp [some_]), if_pos some_]
      unfold handOver
      rw [due]
    · rw [if_pos ⟨(Bool.eq_false_iff.2 some_).symm, rfl⟩, if_neg some_, ← due]
      rfl
  have closed : GainsNotices a (finish b a) := by rw [fin]; exact (gains_lowWaterCheck b a).trans (gains_of_pi rfl)
  have lines : (finish b a).lsw = s.lsw.parkedAir := by rw [fin, low, eq]; rfl
  have due : (finish b a).due = if s.lsw.anyIn .air then s.due ++ [.gateReport false s.lsw.liveCalls] else s.due := by
    rw [fin]; rfl
  refine ⟨?_, ?_, ?_, ⟨recordOf s, ?_, rfl, rfl, rfl, rfl, rfl, fun d hd => ?_, rfl⟩, ?_,
    fun nd => ⟨?_, ?_, fun c => ?_⟩, ?_, fun no => ?_, fun yes => ?_, fun l => ⟨fun h => ?_, fun h => ?_⟩, ?_, ?_, ?_, fun p i => ?_, ?_, ?_, ?_, ?_⟩
  · rw [fin, low, eq]; rfl
  · rw [fin, low, eq]; rfl
  · rw [fin, low, eq]
    show some (x.airs s.boundaryNo) = some (e.airs s.boundaryNo)
    rw [airs]
  · rw [fin, low, eq]; rfl
  · simp [recordOf, DLY.runState, hd]
  · rw [fin, low, eq, suspended]; rfl
  · have same : lowWaterCheck b a = a := by
      have count : a.cue.waiting = b.cue.waiting := by rw [waiting, ← suspend_waiting s nd, eq]
      unfold lowWaterCheck
      dsimp only
      rw [if_neg (by omega), if_neg (by omega)]
    rw [fin, same, eq, suspended]
    rfl
  · rw [← (suspend_spec s nd).1, fin, low, eq]; rfl
  · rw [← (suspend_spec s nd).2, fin, low, eq]
    show ((((suspend s).cue.run.map fun r => { r with fell := false })).get c).high = _
    rw [four_get_map]
  · rw [lines]; unfold LSW.parkedAir; split <;> rfl
  · rw [lines, due, if_neg (by simp [no])]
    exact ⟨if_neg (by simp [no]), rfl⟩
  · rw [lines, due, if_pos yes]
    unfold LSW.parkedAir
    rw [if_pos yes]
    exact ⟨rfl, rfl, rfl⟩
  · rw [lines, parkedAir_line]; exact (if_pos h).trans rfl
  · rw [lines, parkedAir_line]; exact if_neg h
  · rw [fin, low, eq]; rfl
  · rw [fin, low, eq]; rfl
  · rw [fin, low, eq]; rfl
  · have up := closed p (gains p i).1
    obtain ⟨h9, h15, h6, h5, h1⟩ := bits p i
    exact ⟨up.2 _ h9, up.2 _ h15, fun h => up.2 _ (h6 h), fun h => up.2 _ (h5 h), fun h => up.2 _ (h1 h)⟩
  · rw [fin, low, eq]; rfl
  · rw [fin, low, eq]; rfl
  · rw [fin, low, eq]; rfl
  · rw [fin, low, eq]; rfl

end Sys2Proof.Machine
end

