-- ==== Sys2Proof/Laws/Codec.lean ====
section
/-! SUPPORT. The bytes of the port's numbers and lists read back as what they were written from (section 10.6). -/

namespace Sys2Proof

theorem half_of_halfBytes (h : Half) : half (h.extractLsb' 8 8) (h.extractLsb' 0 8) = h := by
  apply BitVec.eq_of_getLsbD_eq
  intro i hi
  simp only [half, BitVec.getLsbD_append, BitVec.getLsbD_extractLsb']
  interval_cases i <;> simp

theorem tri_of_triBytes (t : Tri) : tri (t.extractLsb' 16 8) (t.extractLsb' 8 8) (t.extractLsb' 0 8) = t := by
  apply BitVec.eq_of_getLsbD_eq
  intro i hi
  simp only [tri, BitVec.getLsbD_append, BitVec.getLsbD_extractLsb']
  interval_cases i <;> simp

theorem long_of_longBytes (w : Long) :
    long (w.extractLsb' 24 8) (w.extractLsb' 16 8) (w.extractLsb' 8 8) (w.extractLsb' 0 8) = w := by
  apply BitVec.eq_of_getLsbD_eq
  intro i hi
  simp only [long, BitVec.getLsbD_append, BitVec.getLsbD_extractLsb']
  interval_cases i <;> simp

theorem triList_of_triListBytes (ts : List Tri) : triList (triListBytes ts) = ts := by
  induction ts with
  | nil => rfl
  | cons t ts ih =>
    show tri _ _ _ :: triList (triListBytes ts) = t :: ts
    rw [ih, tri_of_triBytes]

theorem triListBytes_length (ts : List Tri) : (triListBytes ts).length = 3 * ts.length := by
  induction ts with
  | nil => rfl
  | cons t ts ih =>
    show (triListBytes ts).length + 3 = 3 * (ts.length + 1)
    rw [ih]; omega

theorem count_byte {n : Nat} (h : n < 256) : (BitVec.ofNat 8 n).toNat = n := by
  simp; omega

theorem EntryFields.ofBytes_bytes (f : EntryFields) : EntryFields.ofBytes f.bytes = some f := by
  simp [EntryFields.bytes, EntryFields.ofBytes, longBytes, halfBytes, half_of_halfBytes, long_of_longBytes]

theorem HeaderFields.ofBytes_bytes (h : HeaderFields) (fits : h.areas.length ≤ 16) :
    HeaderFields.ofBytes h.bytes = some h := by
  have n := count_byte (n := h.areas.length) (by omega)
  simp only [HeaderFields.bytes, HeaderFields.ofBytes, halfBytes, List.cons_append, List.nil_append]
  rw [if_pos (by rw [triListBytes_length, n])]
  simp [half_of_halfBytes, triList_of_triListBytes]

end Sys2Proof
end

