-- ==== Sys2Proof/Laws/Frames.lean ====
section
/-! SUPPORT. What LNK sends: only `formFrame` forms a frame; the judgement of a period and all it brings about at SITE leave the
frame, its sequence and the next sequence as they are (R162). -/

namespace Sys2Proof.Machine

open Sys2Proof

/-! ### The frame's bytes -/

/-- A check is sent most significant byte first. -/
theorem halfBytes_eq (h : Half) : halfBytes h = beBytes 2 h.toNat := by
  simp only [halfBytes, beBytes]
  refine List.cons_eq_cons.2 ⟨?_, List.cons_eq_cons.2 ⟨?_, rfl⟩⟩ <;>
    (apply BitVec.eq_of_toNat_eq; simp [BitVec.extractLsb'_toNat, Nat.shiftRight_eq_div_pow])

/-- A sample is sent most significant byte first. -/
theorem triBytes_eq (t : Tri) : triBytes t = beBytes 3 t.toNat := by
  simp only [triBytes, beBytes]
  refine List.cons_eq_cons.2 ⟨?_, List.cons_eq_cons.2 ⟨?_, List.cons_eq_cons.2 ⟨?_, rfl⟩⟩⟩ <;>
    (apply BitVec.eq_of_toNat_eq; simp [BitVec.extractLsb'_toNat, Nat.shiftRight_eq_div_pow])

/-! ### What LNK has sent -/

/-- What LNK has sent: the frame, its sequence, and the sequence of the next. -/
def LNK.sent (x : LNK) : Option ForwardFrame × Option Nat × Nat := (x.frame, x.lastSent, x.nextSeq)

theorem sent_eq_iff {x y : LNK} :
    x.sent = y.sent ↔ x.frame = y.frame ∧ x.lastSent = y.lastSent ∧ x.nextSeq = y.nextSeq := by
  simp [LNK.sent]

@[simp] theorem considerOutstanding_sent (s : State) : (considerOutstanding s).lnk.sent = s.lnk.sent := by
  unfold considerOutstanding
  split <;> rfl

@[simp] theorem putCommands_sent (s : State) : (putCommands s).lnk.sent = s.lnk.sent := by
  unfold putCommands
  split
  · rfl
  · exact considerOutstanding_sent _

@[simp] theorem beginStage_sent (k : StageKind) (sl : Option Nat) (n : Nat) (cs : List SiteCommand) (s : State) :
    (beginStage k sl n cs s).lnk.sent = s.lnk.sent := putCommands_sent _

@[simp] theorem siteChange_lnk (n : SiteState) (c : SiteCause) (s : State) : (siteChange n c s).lnk = s.lnk := rfl

@[simp] theorem startRaising_sent (c : SiteCause) (s : State) : (startRaising c s).lnk.sent = s.lnk.sent :=
  beginStage_sent _ _ _ _ _

@[simp] theorem completeSequence_sent (s : State) : (completeSequence s).lnk.sent = s.lnk.sent := by
  unfold completeSequence
  (repeat' first | split | dsimp only) <;> simp

@[simp] theorem advance_sent (st : Stage) (s : State) : (advance st s).lnk.sent = s.lnk.sent := by
  unfold advance
  (repeat' first | split | dsimp only) <;>
    simp [beginUp, beginDown, beginPower]

@[simp] theorem checkStage_sent (s : State) : (checkStage s).lnk.sent = s.lnk.sent := by
  unfold checkStage
  generalize 32 = n
  induction n generalizing s with
  | zero => rfl
  | succ k ih =>
    unfold runStages
    split
    · rfl
    · split
      · rw [ih, advance_sent]
      · rfl

@[simp] theorem abandonStage_sent (s : State) : (abandonStage s).lnk.sent = s.lnk.sent := by
  unfold abandonStage
  split <;> rfl

@[simp] theorem siteFault_sent (c : SiteCause) (s : State) : (siteFault c s).lnk.sent = s.lnk.sent := by
  unfold siteFault when
  dsimp only
  split <;> exact abandonStage_sent s

@[simp] theorem newFault_sent (s : State) (c : SiteCause) : (newFault s c).lnk.sent = s.lnk.sent := by
  unfold newFault
  split <;> first | rfl | exact siteFault_sent c s

@[simp] theorem commandLeft_sent (q : QueuedCommand) (o : Left) (s : State) : (commandLeft q o s).lnk.sent = s.lnk.sent := by
  unfold commandLeft
  (repeat' first | split | dsimp only) <;> simp

@[simp] theorem siteDelivery_sent (f : ReturnFrame) (s : State) : (siteDelivery f s).lnk.sent = s.lnk.sent := by
  have faults (cs : List SiteCause) (u : State) : (cs.foldl newFault u).lnk.sent = u.lnk.sent := by
    induction cs generalizing u with
    | nil => rfl
    | cons c rest ih => rw [List.foldl_cons, ih, newFault_sent]
  unfold siteDelivery
  dsimp only
  rw [checkStage_sent, faults]
  split <;> rfl

@[simp] theorem headLeaves_sent (q : QueuedCommand) (o : Left) (s : State) : (headLeaves q o s).lnk.sent = s.lnk.sent := by
  unfold headLeaves
  rw [considerOutstanding_sent, commandLeft_sent]
  rfl

@[simp] theorem failOutstanding_sent (r : FailReason) (s : State) : (failOutstanding r s).lnk.sent = s.lnk.sent := by
  unfold failOutstanding
  split
  · exact headLeaves_sent _ _ _
  · rfl

@[simp] theorem linkToTb_lnk (l : LinkState) (s : State) : (linkToTb l s).lnk = s.lnk := by
  unfold linkToTb clockFallback
  split <;> rfl

@[simp] theorem linkGoes_sent (l : LinkState) (s : State) : (linkGoes l s).lnk.sent = s.lnk.sent := by
  unfold linkGoes
  split
  · rfl
  · dsimp only
    have one (u : State) (l : LinkState) : (reportCarrying (linkToTb l u)).lnk = u.lnk := linkToTb_lnk l u
    split
    · rw [failOutstanding_sent, one]
      rfl
    · rw [considerOutstanding_sent, one]
      rfl
    · rw [one]
      rfl

@[simp] theorem deliver_sent (f : ReturnFrame) (s : State) : (deliver f s).lnk.sent = s.lnk.sent := by
  have ack (u : State) : (takeAck f u).lnk.sent = u.lnk.sent := by
    unfold takeAck
    split <;> simp
  have fill (u : State) : (takeSiteFill f u).lnk.sent = u.lnk.sent := by
    unfold takeSiteFill
    split <;> rfl
  unfold deliver
  rw [ack, fill, siteDelivery_sent]
  rfl

/-- The judgement of a period sends nothing. -/
@[simp] theorem judgePeriod_sent (s : State) : (judgePeriod s).lnk.sent = s.lnk.sent := by
  have one : (linkGoes s.lnk.judgement (s.withLnk { s.lnk.counted with judged := none })).lnk.sent = s.lnk.sent := by
    rw [linkGoes_sent]
    unfold LNK.counted
    split <;> rfl
  have two (u : State) : (when (commandOverdue u) (failOutstanding .timeout) u).lnk.sent = u.lnk.sent := by
    unfold when
    split <;> simp
  unfold judgePeriod
  dsimp only
  rw [two]
  split
  · split
    · rw [deliver_sent, one]
    · exact one
  · exact one

/-- LNK's event at a boundary sends the frame it forms, and its sequence is the next one (R162). -/
theorem linkStage_sent (s : State) :
    (linkStage s).lnk.frame = some (forwardFrame s) ∧ (linkStage s).lnk.lastSent = some s.lnk.nextSeq ∧
    (linkStage s).lnk.nextSeq = (s.lnk.nextSeq + 1) % 256 := by
  have h := sent_eq_iff.1 (judgePeriod_sent (formFrame s))
  exact ⟨h.1, h.2.1, h.2.2⟩

end Sys2Proof.Machine
end

