-- ==== Sys2Proof/Laws/Invariant.lean ====
section
/-! SUPPORT. The facts behind the invariant: one block's update at a time. -/

set_option Elab.async false

namespace Sys2Proof.Machine

open Sys2Proof

/-! ### The ring -/

theorem wfFrom_write (least : Nat) (m : List (Nat × Block)) (n : Nat) (x : Block) (h : Memory.wfFrom least m = true)
    (hn : least ≤ n) : Memory.wfFrom least (Memory.write m n x) = true := by
  induction m generalizing least with
  | nil => unfold Memory.write; split <;> simp_all [Memory.wfFrom]
  | cons c rest ih =>
    obtain ⟨i, b⟩ := c
    simp only [Memory.wfFrom, Bool.and_eq_true, decide_eq_true_eq, Bool.not_eq_true', decide_eq_false_iff_not] at h
    obtain ⟨⟨hi, hb⟩, hr⟩ := h
    unfold Memory.write
    split
    · split
      · simp [Memory.wfFrom, hi, hb, hr]
      · rename_i hx
        simp [Memory.wfFrom, hn, hx, hb, hr]
        omega
    · split
      · split
        · rename_i h1 h2 _
          subst h2
          clear ih
          cases rest with
          | nil => rfl
          | cons c rest =>
            obtain ⟨j, d⟩ := c
            simp only [Memory.wfFrom, Bool.and_eq_true, decide_eq_true_eq] at hr ⊢
            exact ⟨⟨by omega, hr.1.2⟩, hr.2⟩
        · rename_i h1 h2 hx
          subst h2
          simp [Memory.wfFrom, hn, hx, hr]
      · simp only [Memory.wfFrom, Bool.and_eq_true, decide_eq_true_eq, Bool.not_eq_true', decide_eq_false_iff_not]
        exact ⟨⟨hi, hb⟩, ih (i + 1) hr (by omega)⟩

/-- A write of a cell keeps the canonical form. -/
theorem Memory.wf_write (m : List (Nat × Block)) (n : Nat) (x : Block) (h : Memory.wf m = true) :
    Memory.wf (Memory.write m n x) = true := wfFrom_write 0 m n x h (Nat.zero_le n)

theorem Memory.read_below (least : Nat) (m : List (Nat × Block)) (n : Nat) (h : Memory.wfFrom least m = true)
    (hn : n < least) : Memory.read m n = silentBlock := by
  induction m generalizing least with
  | nil => rfl
  | cons c rest ih =>
    obtain ⟨i, b⟩ := c
    simp only [Memory.wfFrom, Bool.and_eq_true, decide_eq_true_eq] at h
    unfold Memory.read
    rw [if_neg (by omega)]
    exact ih (i + 1) h.2 (by omega)

theorem Memory.read_write_from (least : Nat) (m : List (Nat × Block)) (n k : Nat) (x : Block)
    (h : Memory.wfFrom least m = true) :
    Memory.read (Memory.write m n x) k = if k = n then x else Memory.read m k := by
  induction m generalizing least with
  | nil =>
    by_cases hk : k = n
    · rw [if_pos hk]
      by_cases hx : x = silentBlock
      · rw [Memory.write, if_pos hx, hx]; rfl
      · rw [Memory.write, if_neg hx, Memory.read, if_pos hk.symm]
    · rw [if_neg hk]
      by_cases hx : x = silentBlock
      · rw [Memory.write, if_pos hx]
      · rw [Memory.write, if_neg hx]
        exact if_neg (Ne.symm hk)
  | cons c rest ih =>
    obtain ⟨i, b⟩ := c
    simp only [Memory.wfFrom, Bool.and_eq_true, decide_eq_true_eq] at h
    obtain ⟨⟨hi, hb⟩, hr⟩ := h
    have below : ∀ j, j ≤ i → Memory.read rest j = silentBlock := fun j hj =>
      Memory.read_below (i + 1) rest j hr (by omega)
    unfold Memory.write
    split
    · rename_i hlt
      split
      · rename_i hx
        by_cases hk : k = n
        · subst hk; simp [Memory.read, hx, show i ≠ k by omega, below k (by omega)]
        · simp [hk]
      · by_cases hk : k = n
        · simp [Memory.read, hk]
        · simp [Memory.read, hk, Ne.symm hk]
    · split
      · rename_i h1 h2
        subst h2
        split
        · rename_i hx
          by_cases hk : k = n
          · subst hk; simp [hx, below k le_rfl]
          · simp [Memory.read, hk, Ne.symm hk]
        · by_cases hk : k = n
          · simp [Memory.read, hk]
          · simp [Memory.read, hk, Ne.symm hk]
      · rename_i h1 h2
        simp only [Memory.read]
        by_cases hki : i = k
        · subst hki; simp [Ne.symm h2]
        · simp [hki, ih (i + 1) hr]

/-- A cell reads as what was last written to it, every other cell as before. -/
theorem Memory.read_write (m : List (Nat × Block)) (n k : Nat) (x : Block) (h : Memory.wf m = true) :
    Memory.read (Memory.write m n x) k = if k = n then x else Memory.read m k := Memory.read_write_from 0 m n k x h

/-- The cells of a written ring are those of the ring and the written one. -/
theorem Memory.mem_write (m : List (Nat × Block)) (n : Nat) (x : Block) (c : Nat × Block) (h : c ∈ Memory.write m n x) :
    c ∈ m ∨ c.1 = n := by
  induction m with
  | nil => unfold Memory.write at h; split at h <;> simp_all
  | cons d rest ih =>
    obtain ⟨i, b⟩ := d
    unfold Memory.write at h
    split at h
    · split at h
      · exact .inl h
      · rcases List.mem_cons.1 h with h | h
        · exact .inr (by rw [h])
        · exact .inl h
    · split at h
      · split at h
        · exact .inl (List.mem_cons_of_mem _ h)
        · rcases List.mem_cons.1 h with h | h
          · exact .inr (by rw [h])
          · exact .inl (List.mem_cons_of_mem _ h)
      · rcases List.mem_cons.1 h with h | h
        · exact .inl (by rw [h]; exact List.mem_cons_self)
        · rcases ih h with h | h
          · exact .inl (List.mem_cons_of_mem _ h)
          · exact .inr h

/-- A position moved along the ring is a cell of the ring. -/
theorem cellAfter_lt (p n : Nat) : cellAfter p n < Config.ringCells := Nat.mod_lt _ (by decide)

theorem RingSound.put {d : DLY} (h : RingSound d) (b : Block) : RingSound (d.put b) := by
  refine ⟨Memory.wf_write _ _ _ h.1, fun c hc => ?_, cellAfter_lt _ _, h.2.2.2⟩
  rcases Memory.mem_write _ _ _ _ hc with hc | hc
  · exact h.2.1 c hc
  · rw [hc]; exact h.2.2.1

/-- RingSound reads only the ring, its positions and the settings. -/
theorem RingSound.of_eq {d e : DLY} (h : RingSound d) (ring : e.ring = d.ring) (w : e.writePos = d.writePos)
    (r : e.readPos < Config.ringCells) (t : e.target = d.target := by rfl) (a : e.dumpAmount = d.dumpAmount := by rfl)
    (b : e.ratio = d.ratio := by rfl) : RingSound e := by
  unfold RingSound
  rw [ring, w, t, a, b]
  exact ⟨h.1, h.2.1, h.2.2.1, r, h.2.2.2.2⟩

/-- The ring after a chip reset, its cells kept (R126). -/
theorem RingSound.reset {d : DLY} (h : RingSound d) : RingSound { ring := d.ring } := by
  have settings : RingSound ({} : DLY) := by unfold RingSound; decide
  exact ⟨h.1, h.2.1, settings.2.2⟩

/-! ### The lines -/

/-- Every line IDLE. -/
theorem LinesSound.init : LinesSound ({} : LSW) := by
  refine ⟨fun l h => ?_, fun l h => ?_, List.nodup_nil, fun l => ⟨fun h => absurd h List.not_mem_nil, fun h => ?_⟩⟩
  · rcases h with h | h <;> cases h
  · cases h.1
  · cases l <;> cases h

/-- LinesSound reads only the slots, the queue and the lines' states. -/
theorem LinesSound.of_states {x y : LSW} (h : LinesSound x) (a : y.slotA = x.slotA) (b : y.slotB = x.slotB)
    (q : y.queue = x.queue) (st : ∀ l, (y.lines.get l).state = (x.lines.get l).state) : LinesSound y := by
  unfold LinesSound
  simp only [a, b, q, st]
  exact h

/-- One line's new state, read at every line. -/
theorem modify_state (x : LSW) (l m : Nth) (f : Line → Line) :
    (((x.modify l f).lines.get m).state) = if m = l then (f (x.lines.get l)).state else (x.lines.get m).state := by
  by_cases e : m = l
  · subst e; rw [if_pos rfl]; exact congrArg Line.state (four_get_modify _ _ _)
  · rw [if_neg e]; exact congrArg Line.state (four_get_set_other _ _ _ _ e)

/-- A line that is neither in AIR nor READY goes to a state that is neither. -/
theorem LinesSound.moves {x : LSW} (h : LinesSound x) (l : Nth) (f : Line → Line) (oldAir : (x.lines.get l).state ≠ .air)
    (oldReady : (x.lines.get l).state ≠ .ready) (newReady : (f (x.lines.get l)).state ≠ .ready) : LinesSound (x.modify l f) := by
  refine ⟨fun m hm => ?_, h.2.1, h.2.2.1, fun m => ?_⟩ <;> rw [modify_state]
  · by_cases e : m = l
    · exact absurd (e ▸ h.1 m hm) oldAir
    · rw [if_neg e]; exact h.1 m hm
  · by_cases e : m = l
    · subst e; simp only [if_pos, newReady, iff_false]; exact fun hm => oldReady ((h.2.2.2 m).1 hm)
    · rw [if_neg e]; exact h.2.2.2 m

/-- A line leaves its slot and the queue and goes to a state that is neither AIR nor READY. -/
theorem LinesSound.leaves {x : LSW} (h : LinesSound x) (l : Nth) (f : Line → Line)
    (new : (f (x.lines.get l)).state ≠ .ready) : LinesSound ((x.release l).modify l f) := by
  refine ⟨fun m hm => ?_, fun m hm => ?_, h.2.2.1.filter _, fun m => ?_⟩
  · rw [modify_state]
    have k : m ≠ l ∧ (x.slotA = some m ∨ x.slotB = some m) := by
      rcases hm with hm | hm
      · have hm : (if x.slotA = some l then none else x.slotA) = some m := hm
        split at hm
        · cases hm
        · exact ⟨fun e => by subst e; contradiction, .inl hm⟩
      · have hm : (if x.slotB = some l then none else x.slotB) = some m := hm
        split at hm
        · cases hm
        · exact ⟨fun e => by subst e; contradiction, .inr hm⟩
    rw [if_neg k.1]
    exact h.1 m k.2
  · have ha : (if x.slotA = some l then none else x.slotA) = some m := hm.1
    have hb : (if x.slotB = some l then none else x.slotB) = some m := hm.2
    split at ha
    · cases ha
    · split at hb
      · cases hb
      · exact h.2.1 m ⟨ha, hb⟩
  · rw [modify_state]
    show m ∈ x.queue.filter _ ↔ _
    by_cases e : m = l
    · subst e
      have new : (f ((x.release m).lines.get m)).state ≠ .ready := new
      simpa using new
    · rw [if_neg e, List.mem_filter]; simp only [e, decide_false, Bool.not_false, and_true]; exact h.2.2.2 m

/-- A line goes to AIR in a slot (R84). -/
theorem LinesSound.toAir {x : LSW} (h : LinesSound x) (l : Nth) (slot : Slot) : LinesSound (x.toAir l slot) := by
  have k := h.leaves l (fun r => { r.goes .air with onAir := some (r.onAir.getD (0, 0)) }) (fun e => by cases e)
  have free : (x.release l).slotA ≠ some l ∧ (x.release l).slotB ≠ some l := by
    constructor
    · show (if x.slotA = some l then none else x.slotA) ≠ some l
      split
      · nofun
      · assumption
    · show (if x.slotB = some l then none else x.slotB) ≠ some l
      split
      · nofun
      · assumption
  have here : ((x.toAir l slot).lines.get l).state = .air := by
    unfold LSW.toAir
    rw [modify_state, if_pos rfl]
    rfl
  have lines : (x.toAir l slot).lines =
      ((x.release l).modify l fun r => { r.goes .air with onAir := some (r.onAir.getD (0, 0)) }).lines := by
    cases slot <;> rfl
  have queue : (x.toAir l slot).queue = (x.release l).queue := by cases slot <;> rfl
  refine ⟨fun m hm => ?_, fun m hm => ?_, ?_, fun m => ?_⟩
  · by_cases e : m = l
    · subst e; exact here
    · rw [lines]
      refine k.1 m ?_
      cases slot
      · exact hm.imp (fun hm => absurd (Option.some.inj hm).symm e) id
      · exact hm.imp id (fun hm => absurd (Option.some.inj hm).symm e)
  · cases slot
    · have e := Option.some.inj hm.1
      subst e
      exact free.2 hm.2
    · have e := Option.some.inj hm.2
      subst e
      exact free.1 hm.1
  · rw [queue]; exact k.2.2.1
  · rw [queue, lines]; exact k.2.2.2 m

/-- Every line leaves AIR for one state that is neither AIR nor READY. -/
theorem LinesSound.emptyAir {x : LSW} (h : LinesSound x) (f : Line → Line)
    (new : ∀ r : Line, (f r).state ≠ .ready) :
    LinesSound { x with slotA := none, slotB := none, lines := x.lines.map fun r => if r.state = .air then f r else r } := by
  refine ⟨fun m hm => ?_, fun m hm => ?_, h.2.2.1, fun m => ?_⟩
  · rcases hm with hm | hm <;> cases hm
  · cases hm.1
  · rw [h.2.2.2 m]
    dsimp only
    rw [four_get_map]
    split
    · rename_i e
      rw [e]
      exact ⟨fun e => (nomatch e), fun e => absurd e (new _)⟩
    · exact Iff.rfl

/-- A line that is neither in AIR nor READY joins the queue (R85). -/
theorem LinesSound.joins {x : LSW} (h : LinesSound x) (l : Nth) (f : Line → Line) (oldAir : (x.lines.get l).state ≠ .air)
    (oldReady : (x.lines.get l).state ≠ .ready) (new : (f (x.lines.get l)).state = .ready) :
    LinesSound { x.modify l f with queue := x.queue ++ [l] } := by
  have out : l ∉ x.queue := fun hm => oldReady ((h.2.2.2 l).1 hm)
  refine ⟨fun m hm => ?_, h.2.1, ?_, fun m => ?_⟩
  · rw [modify_state]
    by_cases e : m = l
    · exact absurd (e ▸ h.1 m hm) oldAir
    · rw [if_neg e]; exact h.1 m hm
  · show (x.queue ++ [l]).Nodup
    rw [List.nodup_append]
    exact ⟨h.2.2.1, by simp, fun a ha b hb => by
      rw [List.mem_singleton] at hb
      subst hb
      intro e
      subst e
      exact out ha⟩
  · show m ∈ x.queue ++ [l] ↔ _
    rw [modify_state, List.mem_append, List.mem_singleton]
    by_cases e : m = l
    · subst e; simp [new]
    · rw [if_neg e, h.2.2.2 m]; simp [e]

/-- Each line's state goes from neither AIR nor READY to neither, or stays. -/
theorem LinesSound.each {x : LSW} (h : LinesSound x) (f : Line → Line)
    (st : ∀ r : Line, (f r).state = r.state ∨ (r.state ≠ .air ∧ r.state ≠ .ready ∧ (f r).state ≠ .ready)) :
    LinesSound { x with lines := x.lines.map f } := by
  refine ⟨fun m hm => ?_, h.2.1, h.2.2.1, fun m => ?_⟩
  · dsimp only
    rw [four_get_map]
    rcases st (x.lines.get m) with e | e
    · rw [e]; exact h.1 m hm
    · exact absurd (h.1 m hm) e.1
  · dsimp only
    rw [four_get_map, h.2.2.2 m]
    rcases st (x.lines.get m) with e | e
    · rw [e]
    · exact ⟨fun k => absurd k e.2.1, fun k => absurd k e.2.2⟩

/-! ### The log -/

theorem serialsRun_take (n k : Nat) (l : List LogEntry) (h : serialsRun n l) : serialsRun n (l.take k) := by
  induction l generalizing n k with
  | nil => simp [serialsRun]
  | cons e rest ih =>
    cases k with
    | zero => simp [serialsRun]
    | succ k => exact ⟨h.1, ih e.serial k h.2⟩

/-- An appended or merged entry keeps the log sound (R188 to R190). -/
theorem LogSound.append {l : LOG} (h : LogSound l) (t : Option Nat) (k : LogKind) (x : Subject) (d : Detail) :
    LogSound (l.append t k x d) := by
  have fresh : LogSound
      (⟨⟨l.next, t, k, x, d, 1, none⟩ :: l.entries.take (Config.logPlaces - 1), nextSerial l.next⟩ : LOG) := by
    refine ⟨?_, rfl, serialsRun_take _ _ _ h.2⟩
    simp only [List.length_cons, List.length_take]
    have : Config.logPlaces = 512 := rfl
    omega
  unfold LOG.append
  cases hl : l.entries with
  | nil => rw [hl] at fresh; exact fresh
  | cons e rest =>
    rw [hl] at fresh
    dsimp only
    split
    · unfold LogSound at h
      rw [hl] at h
      exact ⟨h.1, h.2.1, h.2.2⟩
    · exact fresh

/-! ### The cue list -/

/-- A list whose serials are some of another's, in their order, is as sound. -/
theorem CueSound.of_sublist {x y : CUE} (h : CueSound x) (sub : (y.list.map (·.serial)).Sublist (x.list.map (·.serial)))
    (c : y.counter = x.counter) : CueSound y := by
  refine ⟨?_, h.2.1.sublist sub, fun n hn => h.2.2.1 n (sub.subset hn), by rw [c]; exact h.2.2.2.1, by rw [c]; exact h.2.2.2.2⟩
  have := sub.length_le
  rw [List.length_map, List.length_map] at this
  exact this.trans h.1

/-- A change of entries that leaves their serials keeps the list sound. -/
theorem CueSound.of_map {x y : CUE} (h : CueSound x) (f : CueEntry → CueEntry) (l : y.list = x.list.map f)
    (hf : ∀ e, (f e).serial = e.serial) (c : y.counter = x.counter) : CueSound y := by
  refine h.of_sublist ?_ c
  rw [l, List.map_map]
  exact (List.map_congr_left fun e _ => hf e) ▸ List.Sublist.refl _

theorem serialAfter_range (n : Nat) (h : 1 ≤ n ∧ n ≤ 65535) : 1 ≤ serialAfter n ∧ serialAfter n ≤ 65535 := by
  unfold serialAfter
  split <;> omega

/-- The serial found is within the range, and not in the list when the search is long enough: of `k` serials in a row at
least one is not among fewer than `k` (R53). -/
theorem freeSerial_spec (x : CUE) (k n : Nat) (hn : 1 ≤ n ∧ n ≤ 65535) :
    (1 ≤ x.freeSerial k n ∧ x.freeSerial k n ≤ 65535) ∧
    ((x.find (x.freeSerial k n)).isSome = true → ∀ j < k, (x.find (serialAfter^[j] n)).isSome = true) := by
  induction k generalizing n with
  | zero => exact ⟨hn, fun _ j hj => absurd hj (Nat.not_lt_zero j)⟩
  | succ k ih =>
    unfold CUE.freeSerial
    split
    · rename_i found
      obtain ⟨a, b⟩ := ih (serialAfter n) (serialAfter_range n hn)
      refine ⟨a, fun t j hj => ?_⟩
      cases j with
      | zero => exact found
      | succ j => exact b t j (by omega)
    · rename_i no
      exact ⟨hn, fun t => absurd t no⟩

theorem serialAfter_iterate (n j : Nat) (hn : 1 ≤ n ∧ n ≤ 65535) (hj : j ≤ 65535) :
    serialAfter^[j] n = if n + j ≤ 65535 then n + j else n + j - 65535 := by
  induction j with
  | zero => rw [if_pos (by omega)]; rfl
  | succ j ih =>
    rw [Function.iterate_succ_apply', ih (by omega)]
    unfold serialAfter
    (repeat' split) <;> omega

/-- The serial a new entry is given is that of no entry in the list (R53). -/
theorem nextSerial_spec {x : CUE} (h : CueSound x) :
    (1 ≤ x.nextSerial ∧ x.nextSerial ≤ 65535) ∧ x.nextSerial ∉ x.list.map (·.serial) := by
  obtain ⟨a, b⟩ := freeSerial_spec x 65 x.counter h.2.2.2
  refine ⟨a, fun mem => ?_⟩
  have found (n : Nat) : (x.find n).isSome = true ↔ n ∈ x.list.map (·.serial) := by
    unfold CUE.find
    rw [List.find?_isSome, List.mem_map]
    simp
  have all := b ((found _).2 mem)
  have sub : ((List.range 65).map fun j => serialAfter^[j] x.counter) ⊆ x.list.map (·.serial) := by
    intro n hn
    obtain ⟨j, hj, rfl⟩ := List.mem_map.1 hn
    exact (found _).1 (all j (List.mem_range.1 hj))
  have nd : ((List.range 65).map fun j => serialAfter^[j] x.counter).Nodup := by
    refine List.Nodup.map_on (fun i hi j hj e => ?_) List.nodup_range
    rw [List.mem_range] at hi hj
    rw [serialAfter_iterate _ _ h.2.2.2 (by omega), serialAfter_iterate _ _ h.2.2.2 (by omega)] at e
    split at e <;> split at e <;> omega
  have := (nd.subperm sub).length_le
  have k := h.1
  have : Config.cueEntries = 64 := rfl
  rw [List.length_map, List.length_range, List.length_map] at *
  omega

/-! ### The stack -/

theorem StackSound.of_eq {x y : AIR} (h : StackSound x) (n : y.stack.map (·.number) = x.stack.map (·.number))
    (f : y.free = x.free) (m : y.maxDepth = x.maxDepth) : StackSound y := by
  have len : y.stack.length = x.stack.length := by simpa using congrArg List.length n
  unfold StackSound
  rw [n, f, m, len]
  exact h

theorem StackSound.nodup {x : AIR} (h : StackSound x) : (x.stack.map (·.number) ++ x.free).Nodup :=
  h.1.nodup_iff.2 (by decide)

/-- While the stack is below its maximum depth there is a free record. -/
theorem StackSound.free_of_room {x : AIR} (h : StackSound x) (room : x.hasRoom = true) :
    ∃ n rest, x.free = n :: rest := by
  have len := h.1.length_eq
  simp only [List.length_append, List.length_map, List.length_cons, List.length_nil] at len
  have r : x.stack.length < x.maxDepth := by simpa [AIR.hasRoom] using room
  cases hf : x.free with
  | nil => rw [hf] at len; simp only [List.length_nil] at len; have := h.2.2.2; omega
  | cons n rest => exact ⟨n, rest, rfl⟩

theorem filter_ne_map (l : List ContextRecord) (n : Nat) :
    (l.filter fun r => !decide (r.number = n)).map (·.number) = (l.map (·.number)).filter fun k => !decide (k = n) := by
  induction l with
  | nil => rfl
  | cons r rest ih => by_cases h : r.number = n <;> simp [h, ih]

/-- A record of the stack goes to the free list. -/
theorem StackSound.free_ {x : AIR} (h : StackSound x) (n : Nat) (mem : n ∈ x.stack.map (·.number)) :
    StackSound (x.free_ n) := by
  have nd := (List.nodup_append.1 h.nodup).1
  have e : ((x.stack.map (·.number)).filter fun k => !decide (k = n)) = (x.stack.map (·.number)).erase n := by
    rw [nd.erase_eq_filter]
    congr 1
  have len : ((x.stack.filter fun r => !decide (r.number = n))).length + 1 = x.stack.length := by
    have := congrArg List.length ((filter_ne_map x.stack n).trans e)
    rw [List.length_map, List.length_erase_of_mem mem, List.length_map] at this
    have : 0 < x.stack.length := by
      have := List.length_pos_of_mem mem
      rwa [List.length_map] at this
    omega
  refine ⟨?_, ?_, h.2.2⟩
  · show ((x.stack.filter _).map (·.number) ++ n :: x.free).Perm _
    rw [filter_ne_map, e]
    exact ((List.perm_middle).trans ((List.perm_cons_erase mem).symm.append_right _)).trans h.1
  · show (x.stack.filter _).length ≤ x.maxDepth
    have := h.2.1
    omega

/-! ### The delay, the chain and the stack -/

/-- What the blocks that act together agree on about the delay. -/
def DelayAt (s : State) : Prop := DelaySound s.dly s.air.chain s.air.stack s.alc.chainOpen

/-- What LNK and SITE agree on. -/
def CommandsAt (s : State) : Prop := CommandsSound s.lnk s.site

theorem inv_iff (s : State) : Inv s ↔ BlocksSound s ∧ DelayAt s ∧ CommandsAt s :=
  ⟨fun i => ⟨i.toBlocksSound, i.delay, i.site⟩, fun i => { i.1 with delay := i.2.1, site := i.2.2 }⟩

/-- What DelaySound reads of a record. -/
def ContextRecord.view (r : ContextRecord) : RecordKind × Option RunState := (r.kind, r.delayBefore)

/-- An operation that leaves DLY, the chain, what DelaySound reads of the top record, and ALC's chain state. -/
structure SameChain (s t : State) : Prop where
  dly : t.dly = s.dly
  chain : t.air.chain = s.air.chain
  head : t.air.stack.head?.map ContextRecord.view = s.air.stack.head?.map ContextRecord.view
  opened : t.alc.chainOpen = s.alc.chainOpen

@[simp] theorem sameChain_refl (s : State) : SameChain s s := ⟨rfl, rfl, rfl, rfl⟩

theorem SameChain.trans {s t u : State} (h : SameChain s t) (k : SameChain t u) : SameChain s u :=
  ⟨k.dly.trans h.dly, k.chain.trans h.chain, k.head.trans h.head, k.opened.trans h.opened⟩

theorem DelaySound.of_head {d : DLY} {c : ChainState} {x y : List ContextRecord} {o : Bool} (h : DelaySound d c x o)
    (head : y.head?.map ContextRecord.view = x.head?.map ContextRecord.view) : DelaySound d c y o := by
  have one (r : ContextRecord) (hr : x.head? = some r) : ∃ r', y.head? = some r' ∧ r'.view = r.view := by
    rw [hr, Option.map_some] at head
    cases hy : y.head? with
    | none => rw [hy] at head; cases head
    | some r' => rw [hy, Option.map_some] at head; exact ⟨r', rfl, Option.some.inj head⟩
  refine ⟨h.atMost, h.opened, fun e => ?_, h.running, fun e => ⟨(h.frozen e).1, fun n => ?_⟩⟩
  · obtain ⟨r, hr, k⟩ := h.top e
    obtain ⟨r', hr', v⟩ := one r hr
    exact ⟨r', hr', (congrArg Prod.fst v).trans k⟩
  · obtain ⟨b, hb, f⟩ := (h.frozen e).2 n
    refine ⟨b, ?_, f⟩
    have same : y.head?.bind (·.delayBefore) = x.head?.bind (·.delayBefore) := by
      have := congrArg (·.bind Prod.snd) head
      simpa [Option.bind_map, Function.comp_def, ContextRecord.view] using this
    cases c <;> simpa [DLY.before, same] using hb

theorem SameChain.delay {s t : State} (h : SameChain s t) (d : DelayAt s) : DelayAt t := by
  unfold DelayAt at *
  rw [h.dly, h.chain, h.opened]
  exact d.of_head h.head

/-- DelaySound reads of DLY its delay, target, state, recompute and kept state. -/
theorem DelaySound.of_dly {d e : DLY} {c : ChainState} {x : List ContextRecord} {o : Bool} (h : DelaySound d c x o)
    (n : e.delay = d.delay) (t : e.target = d.target) (st : e.state = d.state) (re : e.recompute = d.recompute)
    (k : e.kept = d.kept) : DelaySound e c x o := by
  have fits (r : RunState) (f : d.Fits r) : e.Fits r := by
    cases r <;> simpa only [DLY.Fits, n, t] using f
  refine ⟨n ▸ h.atMost, h.opened, h.top, fun r q => ?_, fun q => ?_⟩
  · rw [st] at q
    exact (h.running r q).imp id (fits r)
  · rw [st] at q
    refine (h.frozen q).imp id fun g m => ?_
    rw [re] at m
    obtain ⟨b, hb, f⟩ := g m
    refine ⟨b, ?_, fits b f⟩
    unfold DLY.before at *
    rwa [k]

/-- But for a chain with a record, the stack is free to change. -/
theorem DelaySound.anyStack {d : DLY} {c : ChainState} {x : List ContextRecord} {o : Bool} (h : DelaySound d c x o)
    (n : c ≠ .withContext) (y : List ContextRecord) : DelaySound d c y o := by
  refine ⟨h.atMost, h.opened, fun e => absurd e n, h.running, fun e => (h.frozen e).imp id fun g m => ?_⟩
  obtain ⟨b, hb, f⟩ := g m
  refine ⟨b, ?_, f⟩
  cases c
  · exact hb
  · exact absurd rfl n
  · exact hb

/-- Out of a chain DLY runs, in a state that its delay fits. -/
theorem DelayAt.runs {s : State} (h : DelayAt s) (c : s.alc.chainOpen = false) :
    s.air.chain = .none ∧ ∃ r, s.dly.state = .run r ∧ s.dly.Fits r := by
  have n : s.air.chain = .none := by
    by_contra e
    rw [h.opened.2 e] at c
    cases c
  refine ⟨n, ?_⟩
  cases e : s.dly.state with
  | run r => exact ⟨r, rfl, (h.running r e).2⟩
  | frozen => exact absurd n (h.frozen e).1

/-- In a chain DLY is FROZEN, and the state before fits unless it is to be settled afresh. -/
theorem DelayAt.kept {s : State} (h : DelayAt s) (c : s.air.chain ≠ .none) (re : s.dly.recompute = false) :
    ∃ b, s.dly.before s.air.chain s.air.stack = some b ∧ s.dly.Fits b := by
  cases e : s.dly.state with
  | run r => exact absurd (h.running r e).1 c
  | frozen => exact (h.frozen e).2 re

/-- No two records on the stack have the same number. -/
theorem StackSound.unique {a : AIR} (h : StackSound a) {x y : ContextRecord} (hx : x ∈ a.stack) (hy : y ∈ a.stack)
    (e : x.number = y.number) : x = y :=
  List.inj_on_of_nodup_map (List.nodup_append.1 h.nodup).1 hx hy e

/-- DLY in a run state that its delay fits, out of a chain. -/
theorem DelaySound.run {d : DLY} {x : List ContextRecord} {r : RunState} (st : d.state = .run r) (le : d.delay ≤ Config.maxDelay)
    (f : d.Fits r) : DelaySound d .none x false :=
  ⟨le, by simp, nofun, fun q e => by rw [st] at e; cases e; exact ⟨rfl, f⟩, fun e => by rw [st] at e; cases e⟩

/-- DLY after a reset (R126). -/
theorem DelaySound.init (ring : List (Nat × Block)) : DelaySound { ring := ring } .none [] false := by
  have zero : ({ ring := ring } : DLY).delay = 0 := by simp [DLY.delay, Config.ringCells]
  exact .run (r := .bypass) rfl (by rw [zero]; exact Nat.zero_le _) ⟨zero, rfl⟩

/-- LNK and SITE after a reset (R172, R187). -/
theorem CommandsSound.init {x : LNK} {y : SITE} (o : x.outstanding = none) (q : x.queue = []) (st : y.stage = none) :
    CommandsSound x y :=
  ⟨fun e => by (rw [o] at e; cases e), fun _ h => by (rw [q] at h; cases h), fun _ e => by (rw [st] at e; cases e)⟩

/-- The state R109's table gives fits. -/
theorem DLY.fits_settled (d : DLY) : d.Fits d.settled := by
  unfold DLY.settled
  split
  · assumption
  · split
    · assumption
    · split
      · show d.delay = d.target; omega
      · split
        · show d.delay = 0 ∧ d.target = 0; omega
        · show d.delay = d.target; omega

/-- The state R109's table gives at an unfreeze fits. -/
theorem DLY.fits_unfrozen (d : DLY) : d.Fits d.unfrozen := DLY.fits_settled { d with gateAir := false }

/-- Moving the write position on by one raises the delay by one. -/
theorem delay_put {d e : DLY} (r : RingSound d) (h : d.delay ≤ Config.maxDelay) (w : e.writePos = cellAfter d.writePos 1)
    (k : e.readPos = d.readPos) : e.delay = d.delay + 1 := by
  have h1 := r.2.2.1
  have h2 := r.2.2.2.1
  simp only [DLY.delay, cellAfter, Config.ringCells, Config.maxDelay, w, k] at *
  omega

/-- Moving the read position on by no more than the delay lowers the delay by as much. -/
theorem delay_read {d e : DLY} (n : Nat) (r : RingSound d) (h : n ≤ d.delay) (w : e.writePos = d.writePos)
    (k : e.readPos = cellAfter d.readPos n) : e.delay = d.delay - n := by
  have h1 := r.2.2.1
  have h2 := r.2.2.2.1
  simp only [DLY.delay, cellAfter, Config.ringCells, w, k] at *
  omega

/-- Writing a block and reading `n` changes the delay by the difference. -/
theorem delay_pass {d e : DLY} (n : Nat) (r : RingSound d) (h : d.delay ≤ Config.maxDelay) (le : n ≤ d.delay + 1)
    (w : e.writePos = cellAfter d.writePos 1) (k : e.readPos = cellAfter d.readPos n) : e.delay = d.delay + 1 - n := by
  have h1 := r.2.2.1
  have h2 := r.2.2.2.1
  simp only [DLY.delay, cellAfter, Config.ringCells, Config.maxDelay, w, k] at *
  omega

/-! ### Operations that leave the chain and the delay alone -/

/-- A change of every record that leaves what DelaySound reads of it. -/
theorem sameChain_mapStack (s : State) (f : ContextRecord → ContextRecord) (hf : ∀ r, (f r).view = r.view) :
    SameChain s (s.withAir { s.air with stack := s.air.stack.map f }) := by
  refine ⟨rfl, rfl, ?_, rfl⟩
  show (s.air.stack.map f).head?.map _ = _
  rw [List.head?_map, Option.map_map]
  exact congrArg (Option.map · _) (funext hf)

theorem sameChain_when {s t : State} (c : Bool) (f : State → State) (h : SameChain s t) (hf : SameChain t (f t)) :
    SameChain s (when c f t) := by
  cases c
  · exact h
  · exact h.trans hf

theorem sameChain_clearLate (n : Nat) (s : State) : SameChain s (clearLate n s) := by
  refine sameChain_mapStack s _ fun r => ?_
  show ContextRecord.view (if _ then _ else r) = _
  split <;> rfl

theorem sameChain_leave (e : CueEntry) (s : State) : SameChain s (leave e s) :=
  sameChain_when _ _ (sameChain_when _ _ ⟨rfl, rfl, rfl, rfl⟩ ⟨rfl, rfl, rfl, rfl⟩) (sameChain_clearLate _ _)

theorem sameChain_leaveSkipped (c : SkipCause) (e : CueEntry) (s : State) : SameChain s (leaveSkipped c e s) :=
  (sameChain_leave e s).trans ⟨rfl, rfl, rfl, rfl⟩

theorem sameChain_leaveMissed (c : MissCause) (e : CueEntry) (s : State) : SameChain s (leaveMissed c e s) :=
  (sameChain_leave e s).trans ⟨rfl, rfl, rfl, rfl⟩

theorem sameChain_recueLoop (n : Nat) (s : State) : SameChain s (recueLoop n s).1 := by
  induction n generalizing s with
  | zero => exact sameChain_refl s
  | succ k ih =>
    have one : SameChain s (s.withCue s.cue.recue) := ⟨rfl, rfl, rfl, rfl⟩
    unfold recueLoop
    dsimp only
    split
    · split
      · exact (one.trans (sameChain_leaveSkipped _ _ _)).trans (ih _)
      · exact one
    · exact one

theorem sameChain_recue (s : State) : SameChain s (recue s) := sameChain_recueLoop 65 s

theorem sameChain_passStops (s : State) : SameChain s (passStops s) := by
  unfold passStops
  split
  · split
    · exact (sameChain_leaveSkipped _ _ _).trans (sameChain_recue _)
    · exact sameChain_refl s
  · exact sameChain_refl s

theorem sameChain_endFading (s : State) : SameChain s (endFading s) := by
  unfold endFading
  split
  · exact sameChain_leave _ s
  · exact sameChain_refl s

theorem sameChain_suspend (s : State) : SameChain s (suspend s) := (sameChain_endFading s).trans ⟨rfl, rfl, rfl, rfl⟩

theorem sameChain_endNoContext (s : State) : SameChain s (endNoContext s) := by
  have hold (t : State) : SameChain t (recue (holdSequence t)) :=
    (SameChain.mk rfl rfl rfl rfl : SameChain t (holdSequence t)).trans (sameChain_recue _)
  unfold endNoContext
  dsimp only
  split
  · exact (sameChain_endFading s).trans ((sameChain_leaveSkipped _ _ _).trans ((hold _).trans (sameChain_passStops _)))
  · exact (sameChain_endFading s).trans (hold _)

theorem sameChain_emptyAir (f : Line → Line) (s : State) : SameChain s (emptyAir f s) := by
  unfold emptyAir
  split
  · exact ⟨rfl, rfl, rfl, rfl⟩
  · exact sameChain_refl s

theorem sameChain_reportJoinLost (s : State) : SameChain s (reportJoinLost s) := by
  unfold reportJoinLost
  split
  · split
    · exact ⟨rfl, rfl, rfl, rfl⟩
    · exact sameChain_refl s
  · exact sameChain_refl s

/-! ### The site commands -/

/-- CommandsSound reads LNK's queue and outstanding command, and SITE's stage and stage number. -/
theorem CommandsSound.of_eq {x x' : LNK} {y y' : SITE} (h : CommandsSound x y) (o : x'.outstanding = x.outstanding)
    (q : x'.queue = x.queue) (n : y'.nextStage = y.nextStage) (st : y'.stage = y.stage) : CommandsSound x' y' := by
  refine ⟨?_, ?_, ?_⟩
  · rw [o, q]; exact h.head
  · rw [q, n]; exact h.numbered
  · rw [q, n, st]; exact h.awaited

/-- With no stage in force, only the queue is to be said of. -/
theorem CommandsSound.noStage {x x' : LNK} {y y' : SITE} (h : CommandsSound x y) (sub : x'.queue ⊆ x.queue)
    (head : x'.outstanding.isSome = true → x'.queue ≠ []) (n : y'.nextStage = y.nextStage) (st : y'.stage = none) :
    CommandsSound x' y' :=
  ⟨head, fun q m => n ▸ h.numbered q (sub m), fun _ e => by rw [st] at e; cases e⟩

/-- The commands of a stage in a queue, in their order. -/
def ofStage (id : Nat) (queue : List QueuedCommand) : List SiteCommand :=
  (queue.filter fun q => decide (q.stage = id)).map (·.command)

theorem ofStage_append (id : Nat) (a b : List QueuedCommand) : ofStage id (a ++ b) = ofStage id a ++ ofStage id b := by
  simp [ofStage]

theorem ofStage_new (id : Nat) (cs : List SiteCommand) : ofStage id (cs.map fun c => ⟨c, id⟩) = cs := by
  induction cs with
  | nil => rfl
  | cons c rest ih => simpa [ofStage] using ih

theorem ofStage_other (id : Nat) (queue : List QueuedCommand) (h : ∀ q ∈ queue, q.stage < id) : ofStage id queue = [] := by
  unfold ofStage
  rw [List.filter_eq_nil_iff.2, List.map_nil]
  intro q m
  have := h q m
  simp only [decide_eq_true_eq]
  omega

theorem ofStage_head (id : Nat) (q : QueuedCommand) (rest : List QueuedCommand) (e : q.stage = id) :
    (ofStage id (q :: rest)).erase q.command = ofStage id rest := by
  simp [ofStage, e]

theorem ofStage_skip (id : Nat) (q : QueuedCommand) (rest : List QueuedCommand) (e : q.stage ≠ id) :
    ofStage id (q :: rest) = ofStage id rest := by
  simp [ofStage, e]

theorem obey_nextStage (cs : List SiteCommand) (x : SITE) : (cs.foldl SITE.obey x).nextStage = x.nextStage := by
  induction cs generalizing x with
  | nil => rfl
  | cons c rest ih => exact (ih _).trans (by cases c <;> rfl)

end Sys2Proof.Machine
end

