-- ==== Sys2Proof/Laws/Keeps.lean ====
section
/-! SUPPORT. What every operation keeps: the queue of commands, the boundary number, the blocks of the period, the init pins, and
the invariant. One lemma per operation; a conclusion about a longer chain of operations follows by simp. -/

set_option Elab.async false

namespace Sys2Proof.Machine

open Sys2Proof

/-- What everything within a boundary keeps of the state `s`, in the state `t` it leaves. -/
structure Stays (s t : State) : Prop where
  pending : t.pending = s.pending
  boundaryNo : t.boundaryNo = s.boundaryNo
  prev : t.audio.prev = s.audio.prev
  inputs : t.audio.cur.inputs = s.audio.cur.inputs
  init : ∀ p, (t.port p).init = (s.port p).init
  blocks : BlocksSound s → BlocksSound t
  delay : BlocksSound s → DelayAt s → DelayAt t
  site : CommandsAt s → CommandsAt t

/-- What keeps each block's own facts and those of the blocks together keeps the invariant. -/
theorem Stays.inv {s t : State} (h : Stays s t) (i : Inv s) : Inv t :=
  (inv_iff t).2 ⟨h.blocks i.toBlocksSound, h.delay i.toBlocksSound i.delay, h.site i.site⟩

/-- What an owner's operation keeps: all of that, and the ports but for notices. -/
structure Keeps (s t : State) : Prop extends Stays s t where
  notices : NoticesOnly s t

@[simp] theorem stays_refl (s : State) : Stays s s := ⟨rfl, rfl, rfl, rfl, fun _ => rfl, id, fun _ d => d, id⟩

theorem Stays.trans {s t u : State} (h : Stays s t) (k : Stays t u) : Stays s u :=
  ⟨k.pending.trans h.pending, k.boundaryNo.trans h.boundaryNo, k.prev.trans h.prev, k.inputs.trans h.inputs,
   fun p => (k.init p).trans (h.init p), fun i => k.blocks (h.blocks i), fun i d => k.delay (h.blocks i) (h.delay i d),
   fun c => k.site (h.site c)⟩

/-- An operation that leaves PI alone raises no notice. -/
theorem notices_of_pi {s t : State} (h : t.pi = s.pi) : NoticesOnly s t := by
  refine ⟨congrArg PI.handed h, 0#16, fun p => ?_⟩
  show t.pi.get p = _
  rw [h]
  simp [State.port]

theorem NoticesOnly.trans {s t u : State} (h : NoticesOnly s t) (k : NoticesOnly t u) : NoticesOnly s u := by
  obtain ⟨h1, x, hx⟩ := h
  obtain ⟨k1, y, ky⟩ := k
  refine ⟨k1.trans h1, x ||| y, fun p => ?_⟩
  rw [ky p, hx p]
  by_cases e : (s.port p).init = .high
  · simp [e, BitVec.or_assoc]
  · simp [e]

@[simp] theorem keeps_refl (s : State) : Keeps s s := ⟨stays_refl s, notices_of_pi rfl⟩

theorem Keeps.trans {s t u : State} (h : Keeps s t) (k : Keeps t u) : Keeps s u :=
  ⟨h.toStays.trans k.toStays, h.notices.trans k.notices⟩

/-- An operation that keeps the state it starts from keeps whatever led there. -/
theorem Keeps.after {s t u : State} (k : Keeps t u) (h : Keeps s t) : Keeps s u := h.trans k

/-- What an operation keeps that is one of several in one event: all but what the blocks agree on about the delay. -/
structure Moves (s t : State) : Prop where
  pending : t.pending = s.pending
  boundaryNo : t.boundaryNo = s.boundaryNo
  prev : t.audio.prev = s.audio.prev
  inputs : t.audio.cur.inputs = s.audio.cur.inputs
  init : ∀ p, (t.port p).init = (s.port p).init
  blocks : BlocksSound s → BlocksSound t
  site : CommandsAt s → CommandsAt t
  notices : NoticesOnly s t

theorem Keeps.moves {s t : State} (k : Keeps s t) : Moves s t :=
  ⟨k.pending, k.boundaryNo, k.prev, k.inputs, k.init, k.blocks, k.site, k.notices⟩

/-- An event whose operations together keep what the blocks agree on. -/
theorem Moves.keeps {s t : State} (m : Moves s t) (d : BlocksSound s → DelayAt s → DelayAt t) : Keeps s t :=
  ⟨⟨m.pending, m.boundaryNo, m.prev, m.inputs, m.init, m.blocks, d, m.site⟩, m.notices⟩

theorem Moves.trans {s t u : State} (h : Moves s t) (k : Moves t u) : Moves s u :=
  ⟨k.pending.trans h.pending, k.boundaryNo.trans h.boundaryNo, k.prev.trans h.prev, k.inputs.trans h.inputs,
   fun p => (k.init p).trans (h.init p), fun i => k.blocks (h.blocks i), fun c => k.site (h.site c), h.notices.trans k.notices⟩

/-- An operation that keeps what it starts from, as one of several. -/
theorem Moves.andKeeps {s t u : State} (h : Moves s t) (k : Keeps t u) : Moves s u := h.trans k.moves

/-! ### The writers -/

theorem moves_withAir (s : State) (x : AIR) (hx : StackSound s.air → StackSound x) : Moves s (s.withAir x) :=
  ⟨rfl, rfl, rfl, rfl, fun _ => rfl, fun i => { i with stack := hx i.stack }, fun c => c, notices_of_pi rfl⟩

theorem moves_withDly (s : State) (x : DLY) (hx : RingSound s.dly → RingSound x) : Moves s (s.withDly x) :=
  ⟨rfl, rfl, rfl, rfl, fun _ => rfl, fun i => { i with ring := hx i.ring }, fun c => c, notices_of_pi rfl⟩

theorem moves_chainOpen (s : State) (b : Bool) : Moves s (s.withAlc { s.alc with chainOpen := b }) :=
  ⟨rfl, rfl, rfl, rfl, fun _ => rfl, fun i => { i with }, fun c => c, notices_of_pi rfl⟩

@[simp] theorem keeps_withTb {s0 s : State} {x : TB} (h : Keeps s0 s) (hx : ClockInRange s.tb → ClockInRange x) :
    Keeps s0 (s.withTb x) :=
  h.trans ⟨⟨rfl, rfl, rfl, rfl, fun _ => rfl, fun i => { i with clock := hx i.clock }, fun _ d => d, fun c => c⟩, notices_of_pi rfl⟩

@[simp] theorem keeps_withAir {s0 s : State} {x : AIR} (h : Keeps s0 s) (hx : StackSound s.air → StackSound x)
    (hd : StackSound s.air → DelayAt s → DelayAt (s.withAir x) := by exact fun _ => SameChain.delay ⟨rfl, rfl, rfl, rfl⟩) : Keeps s0 (s.withAir x) :=
  h.trans ⟨⟨rfl, rfl, rfl, rfl, fun _ => rfl, fun i => { i with stack := hx i.stack }, fun i => hd i.stack, fun c => c⟩, notices_of_pi rfl⟩

@[simp] theorem keeps_withCue {s0 s : State} {x : CUE} (h : Keeps s0 s)
    (hx : CueSound s.cue → CueSound x) : Keeps s0 (s.withCue x) :=
  h.trans ⟨⟨rfl, rfl, rfl, rfl, fun _ => rfl, fun i => { i with cue := hx i.cue }, fun _ d => d, fun c => c⟩, notices_of_pi rfl⟩

@[simp] theorem keeps_withLsw {s0 s : State} {x : LSW} (h : Keeps s0 s) (hx : LinesSound s.lsw → LinesSound x) :
    Keeps s0 (s.withLsw x) :=
  h.trans ⟨⟨rfl, rfl, rfl, rfl, fun _ => rfl, fun i => { i with lines := hx i.lines }, fun _ d => d, fun c => c⟩, notices_of_pi rfl⟩

@[simp] theorem keeps_withDly {s0 s : State} {x : DLY} (h : Keeps s0 s) (hx : RingSound s.dly → RingSound x)
    (hd : RingSound s.dly → DelayAt s → DelayAt (s.withDly x) := by exact fun _ d => DelaySound.of_dly d rfl rfl rfl rfl rfl) : Keeps s0 (s.withDly x) :=
  h.trans ⟨⟨rfl, rfl, rfl, rfl, fun _ => rfl, fun i => { i with ring := hx i.ring }, fun i => hd i.ring, fun c => c⟩, notices_of_pi rfl⟩

@[simp] theorem keeps_withAlc {s0 s : State} {x : ALC} (h : Keeps s0 s)
    (hx : s.alc.queue.length ≤ Config.alertEntries → x.queue.length ≤ Config.alertEntries)
    (hk : s.alc.known.length ≤ Config.knownPairs → x.known.length ≤ Config.knownPairs)
    (hd : x.chainOpen = s.alc.chainOpen := by rfl) : Keeps s0 (s.withAlc x) :=
  h.trans ⟨⟨rfl, rfl, rfl, rfl, fun _ => rfl, fun i => { i with alerts := hx i.alerts, known := hk i.known },
    fun _ => SameChain.delay ⟨rfl, rfl, rfl, hd⟩, fun c => c⟩, notices_of_pi rfl⟩

@[simp] theorem keeps_withOut {s0 s : State} {x : OUT} (h : Keeps s0 s) : Keeps s0 (s.withOut x) :=
  h.trans ⟨⟨rfl, rfl, rfl, rfl, fun _ => rfl, fun i => { i with }, fun _ d => d, fun c => c⟩, notices_of_pi rfl⟩

theorem keeps_withLnk {s0 s : State} {x : LNK} (h : Keeps s0 s)
    (hx : s.lnk.queue.length ≤ Config.siteCommands → x.queue.length ≤ Config.siteCommands)
    (hc : CommandsAt s → CommandsAt (s.withLnk x) := by exact fun c => CommandsSound.of_eq c rfl rfl rfl rfl) : Keeps s0 (s.withLnk x) :=
  h.trans ⟨⟨rfl, rfl, rfl, rfl, fun _ => rfl, fun i => { i with commands := hx i.commands }, fun _ d => d, hc⟩, notices_of_pi rfl⟩

theorem keeps_withSite {s0 s : State} {x : SITE} (h : Keeps s0 s)
    (hc : CommandsAt s → CommandsAt (s.withSite x) := by exact fun c => CommandsSound.of_eq c rfl rfl rfl rfl) : Keeps s0 (s.withSite x) :=
  h.trans ⟨⟨rfl, rfl, rfl, rfl, fun _ => rfl, fun i => { i with }, fun _ d => d, hc⟩, notices_of_pi rfl⟩

/-- SITE and LNK written in one event. -/
theorem keeps_withSiteLnk {s0 s : State} {x : SITE} {y : LNK} (h : Keeps s0 s)
    (hx : s.lnk.queue.length ≤ Config.siteCommands → y.queue.length ≤ Config.siteCommands)
    (hc : CommandsAt s → CommandsSound y x) : Keeps s0 ((s.withSite x).withLnk y) :=
  h.trans ⟨⟨rfl, rfl, rfl, rfl, fun _ => rfl, fun i => { i with commands := hx i.commands }, fun _ d => d, hc⟩, notices_of_pi rfl⟩

/-- What is written of SITE leaves its stage and the number of the next. -/
@[simp] theorem keeps_siteKept {s0 s : State} {x : SITE} (h : Keeps s0 s) (n : x.nextStage = s.site.nextStage)
    (st : x.stage = s.site.stage) : Keeps s0 (s.withSite x) := keeps_withSite h fun c => CommandsSound.of_eq c rfl rfl n st

/-- One resource's record is written. -/
@[simp] theorem keeps_siteModify {s0 s : State} (r : Nat) (f : Resource → Resource) (h : Keeps s0 s) :
    Keeps s0 (s.withSite (s.site.modify r f)) := keeps_siteKept h rfl rfl

/-- SITE is left without a stage. -/
@[simp] theorem keeps_siteNoStage {s0 s : State} {x : SITE} (h : Keeps s0 s) (n : x.nextStage = s.site.nextStage)
    (st : x.stage = none) : Keeps s0 (s.withSite x) :=
  keeps_withSite h fun c => CommandsSound.noStage c (List.Subset.refl _) c.head n st

@[simp] theorem keeps_withDue {s0 s : State} {x : List Due} (h : Keeps s0 s) : Keeps s0 (s.withDue x) :=
  h.trans ⟨⟨rfl, rfl, rfl, rfl, fun _ => rfl, fun i => { i with }, fun _ d => d, fun c => c⟩, notices_of_pi rfl⟩

@[simp] theorem keeps_withAudio {s0 s : State} {x : Audios} (h : Keeps s0 s) (hp : x.prev = s.audio.prev)
    (hi : x.cur.inputs = s.audio.cur.inputs) : Keeps s0 (s.withAudio x) :=
  h.trans ⟨⟨rfl, rfl, hp, hi, fun _ => rfl, fun i => { i with }, fun _ d => d, fun c => c⟩, notices_of_pi rfl⟩

theorem stays_withPi {s0 s : State} {x : PI} (h : Stays s0 s) (hx : ∀ p, (x.get p).init = (s.pi.get p).init) :
    Stays s0 (s.withPi x) :=
  h.trans ⟨rfl, rfl, rfl, rfl, hx, fun i => { i with }, fun _ d => d, fun c => c⟩

theorem stays_withPort {s0 s : State} {p : PortId} {v : Port} (h : Stays s0 s) (hv : v.init = (s.port p).init) :
    Stays s0 (s.withPort p v) := by
  refine stays_withPi h fun q => ?_
  by_cases e : q = p
  · subst e; rw [pi_get_set]; exact hv
  · rw [pi_get_set_other _ _ _ _ e]

theorem init_raise (p : Port) (k : Notice) : (p.raise k).init = p.init := by
  unfold Port.raise; split <;> simp_all

theorem notices_raise (k : Notice) (s : State) : NoticesOnly s (raise k s) := by
  refine ⟨rfl, 1#16 <<< k.bit, fun p => ?_⟩
  have one (q : Port) : q.raise k = { q with flags := if q.init = .high then q.flags ||| (1#16 <<< k.bit) else q.flags } := by
    obtain ⟨⟩ := q
    unfold Port.raise
    dsimp only
    split <;> simp_all
  cases p <;> exact one _

@[simp] theorem keeps_raise {s0 s : State} (k : Notice) (h : Keeps s0 s) : Keeps s0 (raise k s) := by
  refine h.trans ⟨stays_withPi (stays_refl s) fun p => ?_, notices_raise k s⟩
  cases p <;> exact init_raise _ k

@[simp] theorem keeps_logEntry {s0 s : State} (k : LogKind) (x : Subject) (d : Detail) (h : Keeps s0 s) :
    Keeps s0 (logEntry k x d s) :=
  keeps_raise _ (h.trans ⟨⟨rfl, rfl, rfl, rfl, fun _ => rfl, fun i => { i with log := i.log.append _ _ _ _ }, fun _ d => d,
    fun c => c⟩, notices_of_pi rfl⟩)

@[simp] theorem keeps_handOver {s0 s : State} (d : Due) (h : Keeps s0 s) : Keeps s0 (handOver d s) := keeps_withDue h

theorem keeps_when {s0 s : State} (c : Bool) (f : State → State) (h : Keeps s0 s) (hf : Keeps s0 (f s)) :
    Keeps s0 (when c f s) := by
  cases c
  · exact h
  · exact hf

theorem stays_replyTo {s0 s : State} (p : PortId) (c : Nat) (r : Reply) (h : Stays s0 s) :
    Stays s0 (replyTo p c r s) := stays_withPort h rfl

@[simp] theorem refuse_state (r : Result) (s : State) : (refuse r s).1 = s := rfl
@[simp] theorem reply_state (r : Result) (f : State → State) (s : State) : (reply r f s).1 = f s := rfl

/-! ### TB and OUT -/

theorem clockAfter_lt (n : Nat) (h : n < Config.day) : clockAfter n < Config.day := by
  have : Config.day = 17280000 := rfl
  unfold clockAfter
  split <;> omega


theorem timeOf_lt {t : Long} {n : Nat} (h : timeOf t = some n) : n < Config.day := by
  unfold timeOf at h
  split at h
  · simp_all
  · cases h


@[simp] theorem keeps_clockFallback {s0 s : State} (h : Keeps s0 s) : Keeps s0 (clockFallback s) := by
  unfold clockFallback
  split
  · exact h
  · exact keeps_raise _ (keeps_logEntry _ _ _ (keeps_withTb h fun c => c))

@[simp] theorem keeps_linkToTb {s0 s : State} (l : LinkState) (h : Keeps s0 s) : Keeps s0 (linkToTb l s) := keeps_clockFallback (keeps_withTb h fun c => c)

@[simp] theorem keeps_houseStage {s0 s : State} (h : Keeps s0 s) : Keeps s0 (houseStage s) := by
  unfold houseStage
  split
  · exact keeps_withTb h fun c => c
  · exact keeps_clockFallback (keeps_withTb h fun c => c)

@[simp] theorem keeps_selectionStage {s0 s : State} (h : Keeps s0 s) : Keeps s0 (selectionStage s) := by
  unfold selectionStage
  split
  · exact h
  · exact keeps_raise _ (keeps_withTb h fun c => c)

@[simp] theorem keeps_clockSetStage {s0 s : State} (h : Keeps s0 s) : Keeps s0 (clockSetStage s) := by
  unfold clockSetStage
  split
  · exact keeps_withTb h fun c => ⟨clockAfter_lt _ c.1, c.2⟩
  · rename_i t ht
    exact keeps_raise _ (keeps_withTb h fun c => ⟨c.2 t ht, fun n hn => by cases hn⟩)

@[simp] theorem keeps_clockFirst {s0 s : State} (h : Keeps s0 s) : Keeps s0 (clockFirst s) := by
  unfold clockFirst
  split
  · exact keeps_clockSetStage (keeps_withDue h)
  · exact h

theorem stays_clockFirst {s0 s : State} (h : Stays s0 s) : Stays s0 (clockFirst s) :=
  h.trans (keeps_clockFirst (keeps_refl s)).toStays

@[simp] theorem keeps_ownerSelectClock {s0 s : State} (b : Byte) (h : Keeps s0 s) : Keeps s0 (ownerSelectClock b s).1 := by
  unfold ownerSelectClock
  split
  · exact h
  · split
    · exact h
    · split
      · exact keeps_withTb h fun c => c
      · exact keeps_withDue (keeps_withTb h fun c => c)

@[simp] theorem keeps_ownerSetClock {s0 s : State} (t : Long) (h : Keeps s0 s) : Keeps s0 (ownerSetClock t s).1 := by
  unfold ownerSetClock
  split
  · exact h
  · rename_i n hn
    exact keeps_withTb h fun c => ⟨c.1, fun m hm => by cases hm; exact timeOf_lt hn⟩

@[simp] theorem keeps_safeChange {s0 s : State} (r : SafeReason) (b : Bool) (h : Keeps s0 s) : Keeps s0 (safeChange r b s) := by
  unfold safeChange
  (repeat' first | split | dsimp only) <;> simp (maxDischargeDepth := 40) [h]

@[simp] theorem keeps_judgeSilence {s0 s : State} (h : Keeps s0 s) : Keeps s0 (judgeSilence s) := keeps_safeChange _ _ h

@[simp] theorem keeps_judgeKey {s0 s : State} (h : Keeps s0 s) : Keeps s0 (judgeKey s) := by
  unfold judgeKey
  dsimp only
  split
  · exact h
  · exact keeps_safeChange _ _ (keeps_withTb h fun c => c)

@[simp] theorem keeps_alertHolds {s0 s : State} (b : Bool) (h : Keeps s0 s) : Keeps s0 (alertHolds b s) := keeps_withOut h

@[simp] theorem keeps_ownerSetKeyLine {s0 s : State} (l a e v : Byte) (h : Keeps s0 s) : Keeps s0 (ownerSetKeyLine l a e v s).1 := by
  unfold ownerSetKeyLine
  split
  · exact keeps_judgeKey (keeps_withTb h fun c => c)
  · exact h

@[simp] theorem keeps_ownerSafeOn {s0 s : State} (h : Keeps s0 s) : Keeps s0 (ownerSafeOn s).1 := keeps_safeChange _ _ h

@[simp] theorem keeps_ownerSafeOff {s0 s : State} (h : Keeps s0 s) : Keeps s0 (ownerSafeOff s).1 := by
  unfold ownerSafeOff
  (repeat' first | split | dsimp only) <;> simp (maxDischargeDepth := 40) [h]

@[simp] theorem keeps_ownerClearResumeLost {s0 s : State} (h : Keeps s0 s) : Keeps s0 (ownerClearResumeLost s).1 := by
  unfold ownerClearResumeLost
  (repeat' first | split | dsimp only) <;> simp (maxDischargeDepth := 40) [h]

@[simp] theorem keeps_ownerSetSilence {s0 s : State} (t : Byte) (q r : Half) (f : Byte) (h : Keeps s0 s) : Keeps s0 (ownerSetSilence t q r f s).1 := by
  unfold ownerSetSilence
  (repeat' first | split | dsimp only) <;> simp (maxDischargeDepth := 40) [h]

@[simp] theorem keeps_logAired {s0 s : State} (b : Block) (h : Keeps s0 s) : Keeps s0 (logAired b s) := by
  unfold logAired
  refine keeps_withOut ?_
  have one : Keeps s0 (match !decide (b.tag.entry.map (·.1) = s.out.entry.map (·.1)), s.out.entry with
      | true, some (n, _) => logEntry .itemEnded (.cue n) (.ended s.out.entryRun s.out.carriedRun) s
      | _, _ => s) := by split <;> simp (maxDischargeDepth := 40) [h]
  split
  · exact keeps_logEntry _ _ _ one
  · exact one

@[simp] theorem keeps_logLine {s0 s : State} (b : Block) (l : Nth) (h : Keeps s0 s) : Keeps s0 (logLine b s l) := by
  unfold logLine
  split <;> simp (maxDischargeDepth := 40) [h]


/-- A fold of operations that each keep what they start from keeps it. -/
theorem keeps_foldl {α : Type} {s0 s : State} (f : State → α → State) (xs : List α)
    (hf : ∀ t x, Keeps s0 t → Keeps s0 (f t x)) (h : Keeps s0 s) : Keeps s0 (xs.foldl f s) := by
  induction xs generalizing s with
  | nil => exact h
  | cons x rest ih => exact ih (hf s x h)


@[simp] theorem keeps_logLines {s0 s : State} (b : Block) (h : Keeps s0 s) : Keeps s0 (logLines b s) := keeps_withOut (keeps_foldl _ _ (fun _ l k => keeps_logLine b l k) h)

@[simp] theorem keeps_silenceMonitor {s0 s : State} (h : Keeps s0 s) : Keeps s0 (silenceMonitor s) := by
  unfold silenceMonitor
  (repeat' first | split | dsimp only) <;> simp (maxDischargeDepth := 40) [h]

@[simp] theorem keeps_outputStage {s0 s : State} (h : Keeps s0 s) : Keeps s0 (outputStage s) := keeps_silenceMonitor (keeps_logLines _ (keeps_logAired _ (keeps_withAudio h rfl rfl)))

@[simp] theorem keeps_carryingReport {s0 s : State} (l : LinkState) (f : Bool) (h : Keeps s0 s) : Keeps s0 (carryingReport l f s) := keeps_withOut h

/-! ### DLY -/

@[simp] theorem keeps_dlyBecomes {s0 s : State} (d : DLY) (h : Keeps s0 s) (hd : RingSound s.dly → RingSound d)
    (k : RingSound s.dly → DelayAt s → DelayAt (s.withDly d)) : Keeps s0 (dlyBecomes d s) :=
  keeps_when _ _ (keeps_withDly h hd k) (keeps_raise _ (keeps_withDly h hd k))

theorem RingSound.enter {d : DLY} (h : RingSound d) (r : RunState) : RingSound (d.enter r) := h.of_eq rfl rfl h.2.2.2.1

/-- DLY goes to a run state that its delay fits, out of a chain. -/
theorem DelayAt.goes {s : State} {d : DLY} (h : DelayAt s) (n : s.air.chain = .none) {r : RunState} (st : d.state = .run r)
    (le : d.delay ≤ Config.maxDelay) (f : d.Fits r) : DelayAt (s.withDly d) := by
  unfold DelayAt at *
  have o : s.alc.chainOpen = false := by
    have := h.opened
    rw [n] at this
    simpa using this
  show DelaySound d s.air.chain s.air.stack s.alc.chainOpen
  rw [n, o]
  exact .run st le f

/-- DLY settles, by R109's table, on what its delay and its target have become. -/
theorem keeps_settle {s0 s : State} {d : DLY} (h : Keeps s0 s) (hd : RingSound s.dly → RingSound d)
    (k : RingSound s.dly → DelayAt s → s.air.chain = .none ∧ d.delay ≤ Config.maxDelay) :
    Keeps s0 (settle (s.withDly d)) := by
  have one : Keeps s0 (s.withDly (d.enter d.settled)) := keeps_withDly h (fun r => (hd r).enter _)
    fun r e => DelayAt.goes e (k r e).1 rfl (k r e).2 (DLY.fits_settled d)
  exact keeps_when _ _ one (keeps_raise _ one)

@[simp] theorem keeps_emit {s0 s : State} (b : Block) (h : Keeps s0 s) : Keeps s0 (emit b s) := keeps_withAudio (keeps_withDly h fun r => r.of_eq rfl rfl r.2.2.2.1) rfl rfl

theorem RingSound.afterStep {d : DLY} (h : RingSound d) : RingSound d.afterStep := by
  unfold DLY.afterStep
  split
  · exact h.enter _
  · exact h

/-- After a step DLY is in the state it was in, or settled. -/
theorem DelayAt.afterStep {s : State} {d : DLY} (h : DelayAt s) (n : s.air.chain = .none) {r : RunState}
    (st : d.state = .run r) (le : d.delay ≤ Config.maxDelay) (f : d.delay ≠ d.target → d.Fits r) :
    DelayAt (s.withDly d.afterStep) := by
  unfold DLY.afterStep
  split
  · exact h.goes n rfl le (DLY.fits_settled d)
  · rename_i e
    exact h.goes n st le (f e)

@[simp] theorem keeps_passOne {s0 s : State} (b : Block) (h : Keeps s0 s) : Keeps s0 (passOne b s) :=
  keeps_emit _ (keeps_withDly h (fun r => (r.put b).of_eq rfl rfl (cellAfter_lt _ _))
    fun r d => DelaySound.of_dly d (delay_pass 1 r d.atMost (Nat.le_add_left 1 _) rfl rfl) rfl rfl rfl rfl)

theorem keeps_buildStep {s0 s : State} (b : Block) (h : Keeps s0 s) (st : s.dly.state = .run .building) :
    Keeps s0 (buildStep b s) := by
  refine keeps_emit _ (keeps_dlyBecomes _ h (fun r =>
    ((r.put b).of_eq (e := { s.dly.put b with stepCount := 0 }) rfl rfl r.2.2.2.1).afterStep) fun r d => ?_)
  obtain ⟨n, f⟩ := d.running _ st
  have f : s.dly.delay < s.dly.target := f
  have p : ({ s.dly.put b with stepCount := 0 } : DLY).delay = s.dly.delay + 1 := delay_put r d.atMost rfl rfl
  have most := r.2.2.2.2.1
  generalize hx : ({ s.dly.put b with stepCount := 0 } : DLY) = x at p ⊢
  have tx : x.target = s.dly.target := by subst hx; rfl
  refine DelayAt.afterStep d n (by subst hx; exact st) (by omega) fun ne => ?_
  show x.delay < x.target
  omega

theorem keeps_shrinkStep {s0 s : State} (b : Block) (h : Keeps s0 s) (st : s.dly.state = .run .shrinking) :
    Keeps s0 (shrinkStep b s) := by
  refine keeps_emit _ (keeps_dlyBecomes _ h (fun r => RingSound.afterStep ((r.put b).of_eq rfl rfl (cellAfter_lt _ _)))
    fun r d => ?_)
  obtain ⟨n, f⟩ := d.running _ st
  have f : s.dly.target < s.dly.delay := f
  have le := d.atMost
  dsimp only
  generalize hx : (DLY.mk _ _ _ _ _ _ _ _ _ _ _ _ _ : DLY) = x
  have p : x.delay = s.dly.delay + 1 - 2 := delay_pass 2 r le (by omega) (by subst hx; rfl) (by subst hx; rfl)
  have tx : x.target = s.dly.target := by subst hx; rfl
  refine DelayAt.afterStep d n (by subst hx; exact st) (by omega) fun ne => ?_
  show x.target < x.delay
  omega

@[simp] theorem keeps_delayStage {s0 s : State} (h : Keeps s0 s) : Keeps s0 (delayStage s) := by
  have count : Keeps s0 (s.withDly { s.dly with stepCount := s.dly.stepCount + 1 }) :=
    keeps_withDly h fun r => r.of_eq rfl rfl r.2.2.2.1
  unfold delayStage
  dsimp only
  split
  · exact keeps_withAudio h rfl rfl
  · exact keeps_emit _ h
  · exact keeps_passOne _ h
  · rename_i st
    split
    · exact keeps_buildStep _ h st
    · exact keeps_passOne _ count
  · rename_i st
    split
    · exact keeps_shrinkStep _ h st
    · exact keeps_passOne _ count

/-- A target in its range keeps the rest (R106). -/
theorem RingSound.aim {d : DLY} (h : RingSound d) (n : Nat) (hn : n ≤ Config.maxDelay) : RingSound { d with target := n } :=
  ⟨h.1, h.2.1, h.2.2.1, h.2.2.2.1, hn, h.2.2.2.2.2⟩

/-- In FROZEN the state is to be settled afresh, whatever the target and the delay become (R122). -/
theorem DelayAt.afresh {s : State} {d : DLY} (h : DelayAt s) (st : s.dly.state = .frozen) (st' : d.state = .frozen)
    (re : d.recompute = true) (le : d.delay ≤ Config.maxDelay) : DelayAt (s.withDly d) :=
  DelaySound.mk le h.opened h.top (fun r e => by rw [show (s.withDly d).dly.state = .frozen from st'] at e; cases e)
    fun _ => ⟨(h.frozen st).1, fun e => by rw [show (s.withDly d).dly.recompute = true from re] at e; cases e⟩

@[simp] theorem keeps_setTarget {s0 s : State} (n : Nat) (h : Keeps s0 s) (hn : n ≤ Config.maxDelay) :
    Keeps s0 (setTarget n s) := by
  have settles (r : RunState) (e : s.dly.state = .run r) : Keeps s0 (settle (s.withDly { s.dly with target := n })) :=
    keeps_settle h (fun k => k.aim n hn) fun _ d => ⟨(d.running r e).1, d.atMost⟩
  unfold setTarget
  split
  · rename_i e
    exact keeps_withDly h (fun r => (r.aim n hn).of_eq rfl rfl r.2.2.2.1) fun _ d => DelayAt.afresh d e e rfl d.atMost
  · rename_i e
    split
    · exact keeps_withDly h (fun r => r.aim 0 (Nat.zero_le _)) fun _ d =>
        DelayAt.goes d (d.running _ e).1 e d.atMost ⟨(d.running _ e).2.1, rfl⟩
    · exact settles _ e
  · rename_i e _
    cases q : s.dly.state with
    | frozen => exact absurd q e
    | run r => exact settles r q

@[simp] theorem keeps_ownerEngage {s0 s : State} (t : Half) (h : Keeps s0 s) : Keeps s0 (ownerEngage t s).1 := by
  unfold ownerEngage
  split
  · exact h
  · split
    · exact h
    · exact keeps_setTarget _ h (by omega)

@[simp] theorem keeps_ownerDisengage {s0 s : State} (h : Keeps s0 s) : Keeps s0 (ownerDisengage s).1 := by
  unfold ownerDisengage
  split
  · exact h
  · exact keeps_setTarget _ h (Nat.zero_le _)

/-- A dump leaves no more than the delay there was (R118). -/
theorem delay_dumped {d : DLY} (r : RingSound d) (h : d.delay ≤ Config.maxDelay) :
    ({ d with readPos := cellAfter d.readPos d.dumped } : DLY).delay ≤ Config.maxDelay := by
  have le : d.dumped ≤ d.delay := Nat.min_le_right _ _
  have := delay_read (e := { d with readPos := cellAfter d.readPos d.dumped }) _ r le rfl rfl
  omega

@[simp] theorem keeps_performDump {s0 s : State} (h : Keeps s0 s) : Keeps s0 (performDump s) := by
  refine keeps_handOver _ (keeps_raise _ (keeps_logEntry _ _ _ ?_))
  have moved (r : RingSound s.dly) : RingSound { s.dly with readPos := cellAfter s.dly.readPos s.dly.dumped } :=
    r.of_eq rfl rfl (cellAfter_lt _ _)
  split
  · rename_i e
    exact keeps_withDly (s := s) (x := { s.dly with readPos := cellAfter s.dly.readPos s.dly.dumped, recompute := true }) h
      (fun r => (moved r).of_eq rfl rfl (cellAfter_lt _ _)) fun r d => DelayAt.afresh d e e rfl (delay_dumped r d.atMost)
  · rename_i e
    cases q : s.dly.state with
    | frozen => exact absurd q e
    | run r => exact keeps_settle h moved fun k d => ⟨(d.running r q).1, delay_dumped k d.atMost⟩

@[simp] theorem keeps_ownerDump {s0 s : State} (h : Keeps s0 s) : Keeps s0 (ownerDump s).1 := by
  unfold ownerDump
  (repeat' first | split | dsimp only) <;> simp (maxDischargeDepth := 40) [h]

@[simp] theorem keeps_keyDump {s0 s : State} (h : Keeps s0 s) : Keeps s0 (keyDump s) := by
  unfold keyDump
  (repeat' first | split | dsimp only) <;> simp (maxDischargeDepth := 40) [h]

@[simp] theorem keeps_ownerSetDelayOptions {s0 s : State} (a : Half) (r : Byte) (h : Keeps s0 s) : Keeps s0 (ownerSetDelayOptions a r s).1 := by
  unfold ownerSetDelayOptions
  split
  · rename_i e
    exact keeps_withDly h fun r => ⟨r.1, r.2.1, r.2.2.1, r.2.2.2.1, r.2.2.2.2.1, e.1, e.2.1, e.2.2.1, e.2.2.2⟩
  · exact h

@[simp] theorem keeps_gateReport {s0 s : State} (a l : Bool) (h : Keeps s0 s) : Keeps s0 (gateReport a l s) := by
  have ring {d : DLY} (r : RingSound s.dly) (hd : d = { s.dly with gateAir := a, gateLive := l }) : RingSound d := by
    subst hd; exact r.of_eq rfl rfl r.2.2.2.1
  have same (d : DelayAt s) : DelayAt (s.withDly { s.dly with gateAir := a, gateLive := l }) :=
    DelaySound.of_dly d rfl rfl rfl rfl rfl
  unfold gateReport
  dsimp only
  split
  · rename_i e
    refine keeps_dlyBecomes _ h (fun r => ?_) fun _ d => ?_
    · split
      · exact (ring r rfl).enter _
      · exact ring r rfl
    · split
      · rename_i c
        exact DelayAt.goes d (d.running _ e).1 rfl d.atMost ⟨c.2.1, c.1⟩
      · exact same d
  · rename_i e
    refine keeps_dlyBecomes _ h (fun r => ?_) fun _ d => ?_
    · split
      · exact ring r rfl
      · exact ((ring r rfl).enter .engaged).aim 0 (Nat.zero_le _)
    · split
      · exact same d
      · exact DelayAt.goes d (d.running _ e).1 rfl d.atMost (d.running _ e).2.1
  · exact keeps_withDly h (fun r => ring r rfl) fun _ d => same d

/-! ### LSW -/

@[simp] theorem keeps_linesChange {s0 s : State} (x : LSW) (h : Keeps s0 s) (hx : LinesSound s.lsw → LinesSound x) :
    Keeps s0 (linesChange x s) := keeps_raise _ (keeps_withLsw h hx)

/-- A line's state is one state, so it is no other. -/
theorem line_ne {s : State} {l : Nth} {a b : LineState} (h : s.line l = a) (ne : a ≠ b) :
    (s.lsw.lines.get l).state ≠ b := fun e => ne (h.symm.trans e)

@[simp] theorem keeps_ringEdge {s0 s : State} (l : Nth) (h : Keeps s0 s) : Keeps s0 (ringEdge l s) := by
  unfold ringEdge
  split
  · rename_i e
    exact keeps_raise _ (keeps_withLsw h fun x => x.moves l _ (line_ne e (by decide)) (line_ne e (by decide)) nofun)
  · rename_i e
    refine keeps_withLsw h fun x => x.moves l _ (line_ne e (by decide)) (line_ne e (by decide)) (line_ne e (by decide))
  · exact h

@[simp] theorem keeps_ringTimeout {s0 s : State} (l : Nth) (h : Keeps s0 s) : Keeps s0 (ringTimeout l s) := by
  unfold ringTimeout
  split
  · rename_i e
    have e := (of_decide_eq_true e).1
    exact keeps_linesChange _ h fun x => x.moves l _ (line_ne e (by decide)) (line_ne e (by decide)) nofun
  · exact h

@[simp] theorem keeps_clearingEnd {s0 s : State} (l : Nth) (h : Keeps s0 s) : Keeps s0 (clearingEnd l s) := by
  unfold clearingEnd
  split
  · rename_i e
    have e := (of_decide_eq_true e).1
    exact keeps_linesChange _ h fun x => x.moves l _ (line_ne e (by decide)) (line_ne e (by decide)) nofun
  · exact h

@[simp] theorem keeps_removeParked {s0 s : State} (l : Nth) (h : Keeps s0 s) : Keeps s0 (removeParked l s) := keeps_withAir h (fun k => k.of_eq (by
  show (s.air.stack.map _).map _ = _
  rw [List.map_map]; rfl) rfl rfl) fun _ d =>
  (sameChain_mapStack s (fun r => { r with parked := r.parked.filter fun p => !decide (p.1 = l) }) fun _ => rfl).delay d

@[simp] theorem keeps_dropLine {s0 s : State} (l : Nth) (h : Keeps s0 s) : Keeps s0 (dropLine l s) := by
  have k := keeps_linesChange ((s.lsw.release l).modify l fun r =>
    { r.goes .clearing with clearing := Config.clearingGuard, ringQuiet := 0, loopLoss := 0 }) h fun x => x.leaves l _ nofun
  exact keeps_when _ _ k (keeps_removeParked l k)

@[simp] theorem keeps_loopDrop {s0 s : State} (l : Nth) (h : Keeps s0 s) : Keeps s0 (loopDrop l s) := by
  unfold loopDrop
  (repeat' first | split | dsimp only) <;> simp (maxDischargeDepth := 40) [h]

@[simp] theorem keeps_dropLines {s0 s : State} (h : Keeps s0 s) : Keeps s0 (dropLines s) := keeps_foldl _ _ (fun _ l k => keeps_dropLine l k) h

@[simp] theorem keeps_dumpReport {s0 s : State} (frozen : Bool) (h : Keeps s0 s) : Keeps s0 (dumpReport frozen s) := by
  unfold dumpReport
  split
  · exact h
  · split
    · exact keeps_dropLines h
    · exact keeps_withLsw h fun x => x.each _ fun r => .inl (by split <;> rfl)

theorem keeps_onLine {s0 s : State} (b : Byte) (ok : LineState → Bool) (act : Nth → State → State)
    (hf : ∀ l, ok (s.line l) = true → Keeps s0 (act l s)) (h : Keeps s0 s) : Keeps s0 (onLine b ok act s).1 := by
  unfold onLine
  split
  · exact h
  · split
    · rename_i l _ e
      exact hf l e
    · exact h

/-- SCREENING gives way to HOLD (R88, R90). -/
theorem LinesSound.screenAside {x : LSW} (h : LinesSound x) : LinesSound x.screenAside := by
  refine h.each _ fun r => ?_
  split
  · rename_i e
    exact .inr ⟨by rw [e]; decide, by rw [e]; decide, nofun⟩
  · exact .inl rfl

/-- Setting a screened line aside changes no other line's state. -/
theorem screenAside_state (x : LSW) (l : Nth) (h : (x.lines.get l).state ≠ .screening) :
    (x.screenAside.lines.get l).state = (x.lines.get l).state := by
  unfold LSW.screenAside
  dsimp only
  rw [four_get_map, if_neg h]


@[simp] theorem keeps_ownerAnswer {s0 s : State} (b : Byte) (h : Keeps s0 s) : Keeps s0 (ownerAnswer b s).1 :=
  keeps_onLine _ _ _ (fun l e => keeps_linesChange _ h fun x => by
    have e : s.line l = .ringing := of_decide_eq_true e
    have k := screenAside_state s.lsw l (line_ne e (by decide))
    exact x.screenAside.moves l _ (by rw [k]; exact line_ne e (by decide)) (by rw [k]; exact line_ne e (by decide)) nofun) h

@[simp] theorem keeps_ownerHold {s0 s : State} (b : Byte) (h : Keeps s0 s) : Keeps s0 (ownerHold b s).1 :=
  keeps_onLine _ _ _ (fun l e => keeps_linesChange _ h fun x => by
    have e : s.line l = .screening := of_decide_eq_true e
    exact x.moves l _ (line_ne e (by decide)) (line_ne e (by decide)) nofun) h

@[simp] theorem keeps_ownerScreen {s0 s : State} (b : Byte) (h : Keeps s0 s) : Keeps s0 (ownerScreen b s).1 :=
  keeps_onLine _ _ _ (fun l _ => keeps_linesChange _ h fun x => x.screenAside.leaves l _ nofun) h

@[simp] theorem keeps_ownerUnready {s0 s : State} (b : Byte) (h : Keeps s0 s) : Keeps s0 (ownerUnready b s).1 :=
  keeps_onLine _ _ _ (fun l _ => keeps_linesChange _ h fun x => x.leaves l _ nofun) h

@[simp] theorem keeps_ownerReady {s0 s : State} (b : Byte) (note : Option (List Byte)) (h : Keeps s0 s) : Keeps s0 (ownerReady b note s).1 := by
  unfold ownerReady
  split
  · exact h
  · refine keeps_onLine _ _ _ (fun l e => keeps_linesChange _ h fun x => x.joins l _ ?_ ?_ rfl) h
    · rcases of_decide_eq_true e with e | e <;> exact line_ne e (by decide)
    · rcases of_decide_eq_true e with e | e <;> exact line_ne e (by decide)

@[simp] theorem keeps_ownerLineNote {s0 s : State} (b : Byte) (note : List Byte) (h : Keeps s0 s) : Keeps s0 (ownerLineNote b note s).1 := by
  unfold ownerLineNote
  split
  · exact h
  · refine keeps_onLine _ _ _ (fun l _ => keeps_linesChange _ h fun x => x.of_states rfl rfl rfl fun m => ?_) h
    rw [modify_state]
    split
    · rename_i e; subst e; rfl
    · rfl

@[simp] theorem keeps_ownerDrop {s0 s : State} (b : Byte) (h : Keeps s0 s) : Keeps s0 (ownerDrop b s).1 := keeps_onLine _ _ _ (fun l _ => keeps_dropLine l h) h

@[simp] theorem keeps_takeLineNamed {s0 s : State} (l : Option Nth) (h : Keeps s0 s) : Keeps s0 (takeLineNamed l s).1 := by
  have go (l : Nth) (slot : Slot) : Keeps s0 (linesChange (s.lsw.toAir l slot) s) := keeps_linesChange _ h fun x => x.toAir l slot
  unfold takeLineNamed
  (repeat' first | split | dsimp only) <;> simp (maxDischargeDepth := 40) [h, go]

@[simp] theorem keeps_ownerTakeLine {s0 s : State} (b : Option Byte) (h : Keeps s0 s) : Keeps s0 (ownerTakeLine b s).1 := by
  unfold ownerTakeLine
  (repeat' first | split | dsimp only) <;> simp (maxDischargeDepth := 40) [h]

@[simp] theorem keeps_ownerSetLineOptions {s0 s : State} (d l e1 e2 e3 e4 : Byte) (h : Keeps s0 s) : Keeps s0 (ownerSetLineOptions d l e1 e2 e3 e4 s).1 := by
  unfold ownerSetLineOptions
  split
  · split
    · exact h
    · exact keeps_withLsw h fun x => x.of_states rfl rfl rfl fun _ => rfl
  · exact h

@[simp] theorem keeps_emptyAir {s0 s : State} (f : Line → Line) (h : Keeps s0 s) (new : ∀ r : Line, (f r).state ≠ .ready) :
    Keeps s0 (emptyAir f s) := by
  unfold emptyAir
  split
  · exact keeps_linesChange _ h fun x => x.emptyAir f new
  · exact h

@[simp] theorem keeps_parkLines {s0 s : State} (h : Keeps s0 s) : Keeps s0 (parkLines s) := keeps_emptyAir _ h nofun

@[simp] theorem keeps_holdLines {s0 s : State} (h : Keeps s0 s) : Keeps s0 (holdLines s) := keeps_emptyAir _ h nofun

@[simp] theorem keeps_holdParked {s0 s : State} (l : Nth) (h : Keeps s0 s) : Keeps s0 (holdParked s l) :=
  keeps_linesChange _ h fun x => x.leaves l _ nofun


@[simp] theorem keeps_returnLine {s0 s : State} (p : Nth × Slot) (h : Keeps s0 s) : Keeps s0 (returnLine s p) := by
  unfold returnLine
  split
  · exact keeps_holdParked _ h
  · exact keeps_linesChange _ h fun x => x.toAir _ _


@[simp] theorem keeps_lineStage {s0 s : State} (h : Keeps s0 s) : Keeps s0 (lineStage s) := keeps_withAudio h rfl rfl

/-! ### SITE and LNK -/

@[simp] theorem keeps_considerOutstanding {s0 s : State} (h : Keeps s0 s) : Keeps s0 (considerOutstanding s) := by
  unfold considerOutstanding
  split
  · rename_i e
    exact keeps_withLnk h id fun c => ⟨fun _ => e.2.1, c.numbered, c.awaited⟩
  · exact h

@[simp] theorem keeps_putCommands {s0 s : State} (h : Keeps s0 s) : Keeps s0 (putCommands s) := by
  unfold putCommands
  split
  · exact h
  · rename_i st e
    refine keeps_considerOutstanding (keeps_withSiteLnk h (fun q => ?_) fun c => ⟨fun o => ?_, fun q m => ?_, fun st' e' => ?_⟩)
    · simp only [withSite_lnk, List.length_append, List.length_map, List.length_take] at q ⊢
      omega
    · exact fun n => c.head o (List.append_eq_nil_iff.1 n).1
    · rcases List.mem_append.1 m with m | m
      · exact c.numbered q m
      · obtain ⟨_, _, rfl⟩ := List.mem_map.1 m
        exact (c.awaited st e).1
    · obtain ⟨lt, aw⟩ := c.awaited st e
      cases e'
      refine ⟨lt, ?_⟩
      show _ = ofStage st.id (s.lnk.queue ++ _)
      rw [ofStage_append, ofStage_new]
      exact congrArg (· ++ _) aw

theorem lnk_keepOutstanding (x : LNK) : x.keepOutstanding.queue.length ≤ x.queue.length := by
  unfold LNK.keepOutstanding
  dsimp only
  split
  · rw [List.length_take]; omega
  · exact Nat.zero_le _


@[simp] theorem keeps_beginStage {s0 s : State} (k : StageKind) (sl : Option Nat) (n : Nat) (cs : List SiteCommand) (h : Keeps s0 s) : Keeps s0 (beginStage k sl n cs s) := by
  unfold beginStage
  refine keeps_putCommands (keeps_withSite h fun c => ⟨c.head, fun q m => Nat.lt_succ_of_lt (c.numbered q m), fun st e => ?_⟩)
  cases e
  exact ⟨Nat.lt_succ_self _, (ofStage_other _ _ c.numbered).symm⟩

@[simp] theorem keeps_siteChange {s0 s : State} (n : SiteState) (c : SiteCause) (h : Keeps s0 s) : Keeps s0 (siteChange n c s) := keeps_raise _ (keeps_logEntry _ _ _ (keeps_withSite h))

@[simp] theorem keeps_notTaken {s0 s : State} (w : ScheduleWord) (h : Keeps s0 s) : Keeps s0 (notTaken w s) := keeps_logEntry _ _ _ h

@[simp] theorem keeps_beginUp {s0 s : State} (n : Nat) (h : Keeps s0 s) : Keeps s0 (beginUp n s) := keeps_beginStage _ _ _ _ h

@[simp] theorem keeps_beginDown {s0 s : State} (n : Nat) (h : Keeps s0 s) : Keeps s0 (beginDown n s) := keeps_beginStage _ _ _ _ h

@[simp] theorem keeps_beginPower {s0 s : State} (h : Keeps s0 s) : Keeps s0 (beginPower s) := keeps_beginStage _ _ _ _ h

@[simp] theorem keeps_startRaising {s0 s : State} (c : SiteCause) (h : Keeps s0 s) : Keeps s0 (startRaising c s) := keeps_beginUp _ (keeps_siteChange _ _ h)

@[simp] theorem keeps_startLowering {s0 s : State} (c : SiteCause) (h : Keeps s0 s) : Keeps s0 (startLowering c s) := keeps_beginPower (keeps_siteChange _ _ (keeps_withSite h))

@[simp] theorem keeps_completeSequence {s0 s : State} (h : Keeps s0 s) : Keeps s0 (completeSequence s) := by
  have one : Keeps s0 (s.withSite { s.site with stage := none }) := keeps_siteNoStage h rfl rfl
  unfold completeSequence
  dsimp only
  split
  · split
    · exact keeps_startRaising _ (keeps_siteKept (keeps_siteChange _ _ one) rfl rfl)
    · exact keeps_siteChange _ _ one
  · exact keeps_siteChange _ _ (keeps_siteKept one rfl rfl)
  · exact keeps_siteChange _ _ one
  · exact keeps_siteChange _ _ one
  · exact one

@[simp] theorem keeps_advance {s0 s : State} (st : Stage) (h : Keeps s0 s) : Keeps s0 (advance st s) := by
  unfold advance
  (repeat' first | split | dsimp only) <;> simp (maxDischargeDepth := 40) [h]

@[simp] theorem keeps_runStages {s0 s : State} (n : Nat) (h : Keeps s0 s) : Keeps s0 (runStages n s) := by
  induction n generalizing s with
  | zero => exact h
  | succ k ih =>
    unfold runStages
    split
    · exact h
    · split
      · exact ih (keeps_advance _ h)
      · exact h

@[simp] theorem keeps_checkStage {s0 s : State} (h : Keeps s0 s) : Keeps s0 (checkStage s) := keeps_runStages _ h

/-- A stage abandoned in a state from which commands may have left the queue (R180). -/
theorem keeps_abandonFrom {s0 s : State} (y : LNK) (h : Keeps s0 s) (st : s.site.stage ≠ none)
    (sub : y.queue.Sublist s.lnk.queue) (head : CommandsAt s → y.outstanding.isSome = true → y.queue ≠ []) :
    Keeps s0 (abandonStage (s.withLnk y)) := by
  have back (z : SITE) (l : List (Nat × Bool)) (f : SITE → Nat × Bool → SITE) (hf : ∀ z p, (f z p).nextStage = z.nextStage) :
      (l.foldl f z).nextStage = z.nextStage := by
    induction l generalizing z with
    | nil => rfl
    | cons p rest ih => exact (ih _).trans (hf _ _)
  unfold abandonStage
  split
  · rename_i e
    exact absurd e st
  · rename_i st' _
    show Keeps s0 ((s.withSite { st'.prior.foldl _ s.site with stage := none }).withLnk y.keepOutstanding)
    refine keeps_withSiteLnk h
      (fun q => (lnk_keepOutstanding _).trans (sub.length_le.trans q)) fun c => c.noStage ?_ ?_ ?_ rfl
    · have keep : y.keepOutstanding.queue.Sublist y.queue := by
        unfold LNK.keepOutstanding
        dsimp only
        split
        · exact List.take_sublist _ _
        · exact List.nil_sublist _
      exact (keep.trans sub).subset
    · intro o
      have o : y.outstanding.isSome = true := o
      unfold LNK.keepOutstanding
      dsimp only
      rw [if_pos o]
      cases q : y.queue with
      | nil => exact absurd q (head c o)
      | cons a rest => simp
    · exact back _ _ _ fun z p => by
        show SITE.nextStage (if _ then _ else z) = _
        split <;> rfl

@[simp] theorem keeps_abandonStage {s0 s : State} (h : Keeps s0 s) : Keeps s0 (abandonStage s) := by
  by_cases st : s.site.stage = none
  · unfold abandonStage
    rw [st]
    exact h
  · exact keeps_abandonFrom s.lnk h st (List.Sublist.refl _) fun c => c.head

/-- SITE goes to FAULT once its stage is abandoned. -/
theorem keeps_siteFaultFrom {s0 s : State} (c : SiteCause) (h : Keeps s0 (abandonStage s)) : Keeps s0 (siteFault c s) := by
  have one : Keeps s0 ((abandonStage s).withSite { (abandonStage s).site with pendingWake := false }) :=
    keeps_withSite h
  exact keeps_siteChange _ _ (keeps_when _ _ one (keeps_logEntry _ _ _ one))

@[simp] theorem keeps_siteFault {s0 s : State} (c : SiteCause) (h : Keeps s0 s) : Keeps s0 (siteFault c s) :=
  keeps_siteFaultFrom c (keeps_abandonStage h)

@[simp] theorem keeps_newFault {s0 s : State} (c : SiteCause) (h : Keeps s0 s) : Keeps s0 (newFault s c) := by
  unfold newFault
  split <;> simp [h]


/-- LNK's queue without its head, and nothing outstanding (R168). -/
def LNK.headOff (x : LNK) : LNK := { x with queue := x.queue.drop 1, outstanding := none }

/-- The head of the queue leaves, and SITE acts on the report of it (R168, R178). -/
theorem keeps_commandLeft {s0 s : State} (q : QueuedCommand) (rest : List QueuedCommand) (o : Left) (h : Keeps s0 s)
    (hq : s.lnk.queue = q :: rest) : Keeps s0 (commandLeft q o (s.withLnk s.lnk.headOff)) := by
  have off : s.lnk.headOff.queue = rest := by show s.lnk.queue.drop 1 = rest; rw [hq]; rfl
  have sub : s.lnk.headOff.queue.Sublist s.lnk.queue := List.drop_sublist _ _
  have len (k : s.lnk.queue.length ≤ Config.siteCommands) : s.lnk.headOff.queue.length ≤ Config.siteCommands :=
    sub.length_le.trans k
  have numbered (c : CommandsAt s) : ∀ k ∈ s.lnk.headOff.queue, k.stage < s.site.nextStage :=
    fun k m => c.numbered k (sub.subset m)
  have faults (c : SiteCause) (st : s.site.stage ≠ none) : Keeps s0 (siteFault c (s.withLnk s.lnk.headOff)) :=
    keeps_siteFaultFrom c (keeps_abandonFrom _ h st sub fun _ e => by cases e)
  unfold commandLeft
  split
  · rename_i none_
    have none_ : s.site.stage = none := none_
    exact keeps_withLnk h len fun c => c.noStage sub.subset (fun e => by cases e) rfl none_
  · rename_i st e
    have e : s.site.stage = some st := e
    split
    · rename_i ne
      refine keeps_checkStage (keeps_putCommands (keeps_withLnk h len fun c => ⟨fun e => (by cases e), numbered c, fun st' e' => ?_⟩))
      have e' : s.site.stage = some st' := e'
      rw [e] at e'
      cases e'
      obtain ⟨lt, aw⟩ := c.awaited st e
      refine ⟨lt, aw.trans ?_⟩
      show ofStage st.id s.lnk.queue = ofStage st.id s.lnk.headOff.queue
      rw [off, hq, ofStage_skip _ _ _ (Ne.symm ne)]
    · rename_i eq
      have eq : st.id = q.stage := not_not.1 eq
      have gone (puts : List SiteCommand) : Keeps s0 ((s.withLnk s.lnk.headOff).withSite { s.site with
          stage := some { st with awaiting := st.awaiting.erase q.command, toPut := puts } }) := by
        refine keeps_withSiteLnk h len fun c => ⟨fun e => (by cases e), numbered c, fun st' e' => ?_⟩
        cases e'
        obtain ⟨lt, aw⟩ := c.awaited st e
        refine ⟨lt, ?_⟩
        show st.awaiting.erase q.command = ofStage st.id s.lnk.headOff.queue
        have aw : st.awaiting = ofStage st.id s.lnk.queue := aw
        rw [aw, off, hq, ofStage_head _ _ _ eq.symm]
      have some_ : s.site.stage ≠ none := by rw [e]; exact nofun
      dsimp only
      split
      · exact keeps_checkStage (keeps_putCommands (gone st.toPut))
      · exact keeps_checkStage (keeps_putCommands (gone _))
      · exact faults _ some_
      · exact faults _ some_

@[simp] theorem keeps_adopt {s0 s : State} (f : ReturnFrame) (h : Keeps s0 s) : Keeps s0 (adopt f s) := keeps_siteChange _ _ (keeps_withSite h)

@[simp] theorem keeps_siteDelivery {s0 s : State} (f : ReturnFrame) (h : Keeps s0 s) : Keeps s0 (siteDelivery f s) := by
  refine keeps_checkStage (keeps_foldl _ _ (fun _ c k => keeps_newFault c k) ?_)
  split
  · exact keeps_adopt _ (keeps_siteKept h rfl rfl)
  · exact keeps_siteKept h rfl rfl

@[simp] theorem keeps_siteStage {s0 s : State} (h : Keeps s0 s) : Keeps s0 (siteStage s) := by
  unfold siteStage
  split
  · exact h
  · rename_i st e
    have aged : Keeps s0 (checkStage (s.withSite { s.site with
        stage := some (if st.begun < s.boundaryNo then { st with age := min Config.confirmLimit (st.age + 1) } else st) })) := by
      refine keeps_checkStage (keeps_withSite h fun c => ⟨c.head, c.numbered, fun st' e' => ?_⟩)
      cases e'
      split <;> exact c.awaited st e
    dsimp only
    split
    · exact aged
    · split
      · exact keeps_siteFault _ aged
      · exact aged

@[simp] theorem keeps_takeLowTime {s0 s : State} (h : Keeps s0 s) : Keeps s0 (takeLowTime s) := by
  unfold takeLowTime
  (repeat' first | split | dsimp only) <;> simp (maxDischargeDepth := 40) [h]

@[simp] theorem keeps_takeFullTime {s0 s : State} (h : Keeps s0 s) : Keeps s0 (takeFullTime s) := by
  unfold takeFullTime
  (repeat' first | split | dsimp only) <;> simp (maxDischargeDepth := 40) [h]

@[simp] theorem keeps_windowStage {s0 s : State} (w : LowWindow) (h : Keeps s0 s) : Keeps s0 (windowStage w s) := by
  unfold windowStage
  (repeat' first | split | dsimp only) <;> simp (maxDischargeDepth := 40) [h]

@[simp] theorem keeps_wakeSite {s0 s : State} (h : Keeps s0 s) : Keeps s0 (wakeSite s) := by
  unfold wakeSite
  (repeat' first | split | dsimp only) <;> simp (maxDischargeDepth := 40) [h]

@[simp] theorem keeps_ownerSiteUp {s0 s : State} (h : Keeps s0 s) : Keeps s0 (ownerSiteUp s).1 := by
  unfold ownerSiteUp
  (repeat' first | split | dsimp only) <;> simp (maxDischargeDepth := 40) [h]

@[simp] theorem keeps_stopSite {s0 s : State} (h : Keeps s0 s) : Keeps s0 (stopSite s) := by
  have one : Keeps s0 ((abandonStage s).withSite { (abandonStage s).site with pendingWake := false }) :=
    keeps_withSite (keeps_abandonStage h)
  refine keeps_checkStage ?_
  split
  · exact keeps_beginDown _ (keeps_withSite (keeps_siteChange _ _ one))
  · exact keeps_beginStage _ _ _ _ (keeps_withSite (keeps_siteChange _ _ one))

@[simp] theorem keeps_ownerSiteDown {s0 s : State} (h : Keeps s0 s) : Keeps s0 (ownerSiteDown s).1 := by
  unfold ownerSiteDown
  (repeat' first | split | dsimp only) <;> simp (maxDischargeDepth := 40) [h]

@[simp] theorem keeps_ownerSiteLow {s0 s : State} (h : Keeps s0 s) : Keeps s0 (ownerSiteLow s).1 := by
  unfold ownerSiteLow
  (repeat' first | split | dsimp only) <;> simp (maxDischargeDepth := 40) [h]

@[simp] theorem keeps_ownerSiteFull {s0 s : State} (h : Keeps s0 s) : Keeps s0 (ownerSiteFull s).1 := by
  unfold ownerSiteFull
  (repeat' first | split | dsimp only) <;> simp (maxDischargeDepth := 40) [h]

@[simp] theorem keeps_ownerSetSiteResource {s0 s : State} (r t k : Byte) (l : List Byte) (h : Keeps s0 s) : Keeps s0 (ownerSetSiteResource r t k l s).1 := by
  unfold ownerSetSiteResource
  (repeat' first | split | dsimp only) <;> simp (maxDischargeDepth := 40) [h]

@[simp] theorem keeps_ownerSetSiteOptions {s0 s : State} (l f w r q : Byte) (h : Keeps s0 s) : Keeps s0 (ownerSetSiteOptions l f w r q s).1 := by
  unfold ownerSetSiteOptions
  (repeat' first | split | dsimp only) <;> simp (maxDischargeDepth := 40) [h]

@[simp] theorem keeps_ownerSetLowWindow {s0 s : State} (l f : Long) (e : Byte) (h : Keeps s0 s) : Keeps s0 (ownerSetLowWindow l f e s).1 := by
  unfold ownerSetLowWindow
  (repeat' first | split | dsimp only) <;> simp (maxDischargeDepth := 40) [h]

@[simp] theorem keeps_formFrame {s0 s : State} (h : Keeps s0 s) : Keeps s0 (formFrame s) :=
  keeps_withLnk h id fun c => ⟨fun o => c.head (Option.isSome_map ▸ o), c.numbered, c.awaited⟩

@[simp] theorem keeps_returnFrame {s0 s : State} (bs : List Byte) (h : Keeps s0 s) : Keeps s0 (returnFrame bs s) := by
  unfold returnFrame
  split
  · exact keeps_withLnk h id
  · exact h

theorem keeps_headLeaves {s0 s : State} (q : QueuedCommand) (rest : List QueuedCommand) (o : Left) (h : Keeps s0 s)
    (hq : s.lnk.queue = q :: rest) : Keeps s0 (headLeaves q o s) :=
  keeps_considerOutstanding (keeps_commandLeft q rest o h hq)

@[simp] theorem keeps_failOutstanding {s0 s : State} (r : FailReason) (h : Keeps s0 s) : Keeps s0 (failOutstanding r s) := by
  unfold failOutstanding
  split
  · rename_i hq
    exact keeps_headLeaves _ _ _ (keeps_raise _ (keeps_logEntry _ _ _ h)) hq
  · exact h

@[simp] theorem keeps_takeAck {s0 s : State} (f : ReturnFrame) (h : Keeps s0 s) : Keeps s0 (takeAck f s) := by
  unfold takeAck
  split
  · rename_i hq
    exact keeps_headLeaves _ _ _ h hq
  · exact keeps_failOutstanding _ h
  · exact h

@[simp] theorem keeps_reportCarrying {s0 s : State} (h : Keeps s0 s) : Keeps s0 (reportCarrying s) := keeps_handOver _ h

@[simp] theorem keeps_linkGoes {s0 s : State} (l : LinkState) (h : Keeps s0 s) : Keeps s0 (linkGoes l s) := by
  have two : Keeps s0 (reportCarrying (linkToTb l (raise .linkState
      (logEntry .linkState .none (.link s.lnk.state l) (s.withLnk { s.lnk with state := l }))))) :=
    keeps_reportCarrying (keeps_linkToTb _ (keeps_raise _ (keeps_logEntry _ _ _ (keeps_withLnk h id))))
  unfold linkGoes
  split
  · exact h
  · split
    · exact keeps_failOutstanding _ two
    · exact keeps_considerOutstanding two
    · exact two

@[simp] theorem keeps_takeSiteFill {s0 s : State} (f : ReturnFrame) (h : Keeps s0 s) : Keeps s0 (takeSiteFill f s) := by
  unfold takeSiteFill
  split
  · exact h
  · exact keeps_reportCarrying (keeps_raise _ (keeps_logEntry _ _ _ (keeps_withLnk h id)))

@[simp] theorem keeps_deliver {s0 s : State} (f : ReturnFrame) (h : Keeps s0 s) : Keeps s0 (deliver f s) := keeps_takeAck _ (keeps_takeSiteFill _ (keeps_siteDelivery _ (keeps_withLnk h id)))

theorem lnk_counted_queue (x : LNK) : x.counted.queue = x.queue := by
  unfold LNK.counted
  split <;> rfl

theorem lnk_counted_outstanding (x : LNK) : x.counted.outstanding = x.outstanding := by
  unfold LNK.counted
  split <;> rfl


@[simp] theorem keeps_judgePeriod {s0 s : State} (h : Keeps s0 s) : Keeps s0 (judgePeriod s) := by
  have one : Keeps s0 (linkGoes s.lnk.judgement (s.withLnk { s.lnk.counted with judged := none })) :=
    keeps_linkGoes _ (keeps_withLnk h (fun q => by dsimp only; rw [lnk_counted_queue]; exact q)
      fun c => c.of_eq (lnk_counted_outstanding _) (lnk_counted_queue _) rfl rfl)
  unfold judgePeriod
  dsimp only
  have two : Keeps s0 (match s.lnk.judged with
      | some f => if s.lnk.judgement = .up ∨ s.lnk.judgement = .degraded
          then deliver f (linkGoes s.lnk.judgement (s.withLnk { s.lnk.counted with judged := none }))
          else linkGoes s.lnk.judgement (s.withLnk { s.lnk.counted with judged := none })
      | none => linkGoes s.lnk.judgement (s.withLnk { s.lnk.counted with judged := none })) := by
    (repeat' split) <;> simp [one]
  exact keeps_when _ _ two (keeps_failOutstanding _ two)

@[simp] theorem keeps_linkStage {s0 s : State} (h : Keeps s0 s) : Keeps s0 (linkStage s) := keeps_judgePeriod (keeps_formFrame h)

@[simp] theorem keeps_ownerLinkRestart {s0 s : State} (h : Keeps s0 s) : Keeps s0 (ownerLinkRestart s).1 := keeps_linkGoes _ (keeps_withLnk h id)

/-! ### CUE -/

@[simp] theorem cue_modify_length (x : CUE) (n : Nat) (f : CueEntry → CueEntry) :
    (x.modify n f).list.length = x.list.length := List.length_map _

/-- A change of one entry that leaves its serial keeps the list sound. -/
theorem CueSound.modify {x : CUE} (h : CueSound x) (n : Nat) (f : CueEntry → CueEntry) (hf : ∀ e, (f e).serial = e.serial) :
    CueSound (x.modify n f) :=
  h.of_map _ rfl (fun e => by split <;> simp [hf]) rfl

/-- The soundness of the list asks nothing of the run lines. -/
theorem CueSound.of_eq {x y : CUE} (h : CueSound x) (l : y.list = x.list) (c : y.counter = x.counter) : CueSound y :=
  h.of_sublist (by rw [l]) c

@[simp] theorem cue_dropLine_list (x : CUE) (e : CueEntry) : (x.dropLine e).list = x.list := by
  unfold CUE.dropLine
  split <;> rfl

@[simp] theorem cue_dropLine_counter (x : CUE) (e : CueEntry) : (x.dropLine e).counter = x.counter := by
  unfold CUE.dropLine
  split <;> rfl

@[simp] theorem cue_raiseLine_list (x : CUE) (e : CueEntry) (n : Nat) : (x.raiseLine e n).list = x.list := by
  unfold CUE.raiseLine
  split <;> rfl

@[simp] theorem cue_raiseLine_counter (x : CUE) (e : CueEntry) (n : Nat) : (x.raiseLine e n).counter = x.counter := by
  unfold CUE.raiseLine
  split <;> rfl


@[simp] theorem keeps_clearLate {s0 s : State} (n : Nat) (h : Keeps s0 s) : Keeps s0 (clearLate n s) := by
  refine keeps_withAir h (fun k => k.of_eq ?_ rfl rfl) fun _ => (sameChain_clearLate n s).delay
  show (s.air.stack.map _).map _ = _
  rw [List.map_map]
  refine List.map_congr_left fun r _ => ?_
  show (if _ then _ else r : ContextRecord).number = _
  split <;> rfl

@[simp] theorem keeps_leave {s0 s : State} (e : CueEntry) (h : Keeps s0 s) : Keeps s0 (leave e s) := by
  have one : Keeps s0 (s.withCue (if e.state = .playing ∨ e.state = .fading
      then ({ s.cue with list := s.cue.list.filter fun x => !decide (x.serial = e.serial) } : CUE).dropLine e
      else { s.cue with list := s.cue.list.filter fun x => !decide (x.serial = e.serial) })) := by
    refine keeps_withCue h fun k => ?_
    have gone : CueSound { s.cue with list := s.cue.list.filter fun x => !decide (x.serial = e.serial) } :=
      k.of_sublist (List.filter_sublist.map _) rfl
    split
    · exact gone.of_eq (cue_dropLine_list _ _) (cue_dropLine_counter _ _)
    · exact gone
  have two := keeps_when (e.onAir) (raise .entryEnded) one (keeps_raise _ one)
  exact keeps_when _ _ two (keeps_clearLate _ two)

@[simp] theorem keeps_leaveSkipped {s0 s : State} (c : SkipCause) (e : CueEntry) (h : Keeps s0 s) : Keeps s0 (leaveSkipped c e s) := keeps_logEntry _ _ _ (keeps_leave _ h)

@[simp] theorem keeps_leaveMissed {s0 s : State} (c : MissCause) (e : CueEntry) (h : Keeps s0 s) : Keeps s0 (leaveMissed c e s) := keeps_logEntry _ _ _ (keeps_leave _ h)

@[simp] theorem cue_recue_length (x : CUE) : x.recue.list.length = x.list.length := List.length_map _


@[simp] theorem keeps_recueLoop {s0 s : State} (n : Nat) (h : Keeps s0 s) : Keeps s0 (recueLoop n s).1 := by
  induction n generalizing s with
  | zero => exact h
  | succ k ih =>
    have one : Keeps s0 (s.withCue s.cue.recue) := keeps_withCue h fun q => q.of_map _ rfl (fun e => by split <;> rfl) rfl
    unfold recueLoop
    dsimp only
    split
    · split
      · exact ih (keeps_leaveSkipped _ _ one)
      · exact one
    · exact one


@[simp] theorem keeps_recue {s0 s : State} (h : Keeps s0 s) : Keeps s0 (recue s) := keeps_recueLoop _ h

@[simp] theorem keeps_passStops {s0 s : State} (h : Keeps s0 s) : Keeps s0 (passStops s) := by
  unfold passStops
  (repeat' first | split | dsimp only) <;> simp (maxDischargeDepth := 40) [h]

@[simp] theorem keeps_setPlaying {s0 s : State} (n e : Nat) (j : Option Nat) (h : Keeps s0 s) : Keeps s0 (setPlaying n e j s) := by
  unfold setPlaying
  split
  · exact h
  · refine keeps_raise _ (keeps_withCue h fun q => ?_)
    exact CueSound.of_eq (q.modify n (fun x => { x with state := .playing, elapsed := e, joinEnd := j, begun := s.boundaryNo })
      fun _ => rfl) (cue_raiseLine_list _ _ _) (cue_raiseLine_counter _ _ _)

@[simp] theorem keeps_startEntry {s0 s : State} (e : CueEntry) (h : Keeps s0 s) : Keeps s0 (startEntry e s) := keeps_setPlaying _ _ _ h

@[simp] theorem keeps_endFading {s0 s : State} (h : Keeps s0 s) : Keeps s0 (endFading s) := by
  unfold endFading
  (repeat' first | split | dsimp only) <;> simp (maxDischargeDepth := 40) [h]

@[simp] theorem keeps_considerIdle {s0 s : State} (h : Keeps s0 s) : Keeps s0 (considerIdle s) := by
  unfold considerIdle
  (repeat' first | split | dsimp only) <;> simp (maxDischargeDepth := 40) [h]

@[simp] theorem keeps_settleList {s0 s : State} (c : Bool) (h : Keeps s0 s) : Keeps s0 (settleList c s) := by
  unfold settleList
  dsimp only
  split <;> simp [h]

@[simp] theorem keeps_segueTo {s0 s : State} (o i : CueEntry) (h : Keeps s0 s) : Keeps s0 (segueTo o i s) := by
  refine keeps_recue (keeps_startEntry _ ?_)
  split
  · exact keeps_withCue (keeps_endFading h) fun q => q.modify _ _ fun _ => rfl
  · exact keeps_leave _ (keeps_endFading h)

@[simp] theorem keeps_reachSegue {s0 s : State} (p : CueEntry) (h : Keeps s0 s) : Keeps s0 (reachSegue p s) := by
  unfold reachSegue
  (repeat' first | split | dsimp only) <;> simp (maxDischargeDepth := 40) [h]

@[simp] theorem keeps_suspend {s0 s : State} (h : Keeps s0 s) : Keeps s0 (suspend s) := by
  refine keeps_withCue (keeps_endFading h) fun q => ?_
  split
  · rename_i p _
    exact CueSound.of_eq (q.modify p.serial (fun x => { x with state := .suspended }) fun _ => rfl)
      (cue_dropLine_list _ _) (cue_dropLine_counter _ _)
  · exact q.of_eq rfl rfl

@[simp] theorem keeps_holdSequence {s0 s : State} (h : Keeps s0 s) : Keeps s0 (holdSequence s) :=
  keeps_withCue h fun q => q.of_eq rfl rfl

@[simp] theorem keeps_endNoContext {s0 s : State} (h : Keeps s0 s) : Keeps s0 (endNoContext s) := by
  unfold endNoContext
  dsimp only
  split <;> simp (maxDischargeDepth := 40) [h]

@[simp] theorem keeps_resumeEntry {s0 s : State} (n e : Nat) (h : Keeps s0 s) : Keeps s0 (resumeEntry n e s) := by
  unfold resumeEntry
  (repeat' first | split | dsimp only) <;> simp (maxDischargeDepth := 40) [h]

@[simp] theorem keeps_considerRelease {s0 s : State} (h : Keeps s0 s) : Keeps s0 (considerRelease s) := by
  unfold considerRelease
  split
  · exact keeps_considerIdle (keeps_withCue h fun q => q.of_eq rfl rfl)
  · exact h

/-! ### AIR -/

/-- The numbers of the records on the stack. -/
def State.numbers (s : State) : List Nat := s.air.stack.map (·.number)

theorem numbers_clearLate (n : Nat) (s : State) : (clearLate n s).numbers = s.numbers := by
  show (s.air.stack.map _).map _ = _
  rw [List.map_map]
  refine List.map_congr_left fun r _ => ?_
  show (if _ then _ else r : ContextRecord).number = _
  split <;> rfl

theorem numbers_when (c : Bool) (f : State → State) (s : State) (h : (f s).numbers = s.numbers) :
    (when c f s).numbers = s.numbers := by
  cases c
  · rfl
  · exact h

theorem numbers_leave (e : CueEntry) (s : State) : (leave e s).numbers = s.numbers := by
  unfold leave
  refine (numbers_when _ _ _ (numbers_clearLate _ _)).trans ((numbers_when _ _ _ ?_).trans ?_) <;> rfl

theorem numbers_recueLoop (n : Nat) (s : State) : (recueLoop n s).1.numbers = s.numbers := by
  induction n generalizing s with
  | zero => rfl
  | succ k ih =>
    unfold recueLoop
    dsimp only
    split
    · split
      · exact (ih _).trans (numbers_leave _ _)
      · rfl
    · rfl


@[simp] theorem keeps_changeMode {s0 s : State} (m : Mode) (f : Bool) (h : Keeps s0 s) : Keeps s0 (changeMode m f s) := by
  have one : Keeps s0 (s.withAir { s.air with mode := m }) := keeps_withAir h fun k => k.of_eq rfl rfl rfl
  have two := keeps_when (decide (m = .test)) _ one (keeps_safeChange .test true one)
  exact keeps_judgeSilence (keeps_logEntry _ _ _ (keeps_when _ _ two (keeps_safeChange .test false two)))

@[simp] theorem keeps_readyReport {s0 s : State} (h : Keeps s0 s) : Keeps s0 (readyReport s) := by
  unfold readyReport
  (repeat' first | split | dsimp only) <;> simp (maxDischargeDepth := 40) [h]

@[simp] theorem keeps_logStackFull {s0 s : State} (x : Subject) (h : Keeps s0 s) : Keeps s0 (logStackFull x s) := keeps_logEntry _ _ _ h

theorem StackSound.push {x : AIR} (h : StackSound x) (room : x.hasRoom = true) (r : ContextRecord)
    (hr : r.number = x.free.headD 1) : StackSound { x with stack := r :: x.stack, free := x.free.drop 1 } := by
  obtain ⟨n, rest, hf⟩ := h.free_of_room room
  have lt : x.stack.length < x.maxDepth := by simpa [AIR.hasRoom] using room
  have p := h.1
  rw [hf] at p
  refine ⟨?_, lt, h.2.2⟩
  show (r.number :: (x.stack.map (·.number) ++ x.free.drop 1)).Perm _
  rw [hr, hf]
  exact List.perm_middle.symm.trans p


@[simp] theorem keeps_push {s0 s : State} (k : RecordKind) (h : Keeps s0 s) (room : s.air.hasRoom = true)
    (n : s.air.chain ≠ .withContext) : Keeps s0 (push k s) :=
  keeps_parkLines (keeps_suspend (keeps_withAir h (fun x => x.push room _ rfl) fun _ d => d.anyStack n _))

@[simp] theorem keeps_reportJoinLost {s0 s : State} (h : Keeps s0 s) : Keeps s0 (reportJoinLost s) := by
  unfold reportJoinLost
  (repeat' first | split | dsimp only) <;> simp (maxDischargeDepth := 40) [h]

theorem moves_dlyBecomes (d : DLY) (s : State) (hd : RingSound s.dly → RingSound d) : Moves s (dlyBecomes d s) := by
  unfold dlyBecomes
  cases !decide (d.state = s.dly.state)
  · exact moves_withDly s d hd
  · exact (moves_withDly s d hd).andKeeps (keeps_raise _ (keeps_refl _))

theorem moves_freeze (k : Bool) (s : State) : Moves s (freeze k s) :=
  moves_dlyBecomes _ s fun r => r.of_eq rfl rfl r.2.2.2.1

theorem moves_unfreeze (b : RunState) (s : State) : Moves s (unfreeze b s) :=
  moves_dlyBecomes _ s fun r => RingSound.of_eq (d := s.dly) r rfl rfl r.2.2.2.1

/-- What DLY becomes, with everything DelaySound reads elsewhere as it was. -/
theorem dlyBecomes_reads (d : DLY) (s : State) :
    (dlyBecomes d s).dly = d ∧ (dlyBecomes d s).air = s.air ∧ (dlyBecomes d s).alc = s.alc := by
  unfold dlyBecomes
  cases !decide (d.state = s.dly.state) <;> exact ⟨rfl, rfl, rfl⟩

/-- The state in which the suspension of a grant with a record begins: the chain begun, the record on the stack (R32, R35). -/
def granted (s : State) : State :=
  (beginChainAt .withContext s).withAir { (beginChainAt .withContext s).air with
    stack := newRecord .alert (beginChainAt .withContext s) :: s.air.stack, free := s.air.free.drop 1 }

/-- DLY freezes at the beginning of a chain, whose end will return it to the state it was in (R121). -/
theorem DelayAt.freezes {s u : State} {d : DLY} {x : List ContextRecord} {r : RunState} (h : DelayAt s)
    (st : s.dly.state = .run r) (f : s.dly.Fits r) (dly : u.dly = s.dly) (c : ChainState) (n : c ≠ .none) (k : Bool)
    (hd : d = { u.dly with state := .frozen, recompute := false, kept := if k then some u.dly.runState else none })
    (top : c = .withContext → x.head?.map ContextRecord.view = some (.alert, some r)) (own : c ≠ .withContext → k = true) :
    DelaySound d c x true := by
  have run : s.dly.runState = r := by unfold DLY.runState; rw [st]
  rw [dly] at hd
  subst hd
  have head (e : c = .withContext) : ∃ y, x.head? = some y ∧ y.kind = .alert ∧ y.delayBefore = some r := by
    have t := top e
    cases hx : x.head? with
    | none => rw [hx] at t; cases t
    | some y =>
      rw [hx, Option.map_some] at t
      have t := Option.some.inj t
      exact ⟨y, rfl, congrArg Prod.fst t, congrArg Prod.snd t⟩
  refine ⟨h.atMost, by simp [n], fun e => ?_, fun q e => (by cases e), fun _ => ⟨n, fun _ => ⟨r, ?_, ?_⟩⟩⟩
  · obtain ⟨y, hy, ky, _⟩ := head e
    exact ⟨y, hy, ky⟩
  · cases c
    · exact absurd rfl n
    · obtain ⟨y, hy, _, dy⟩ := head rfl
      show x.head?.bind _ = _
      rw [hy]
      exact dy
    · have := own (by decide)
      subst this
      show some s.dly.runState = _
      rw [run]
  · exact f

/-- The air goes to a chain that ALC opens in the same event (R32, R43, R121, R143). -/
theorem keeps_grantAlert {s0 s : State} (p : Pair) (h : Keeps s0 s) (closed : s.alc.chainOpen = false) :
    Keeps s0 ((grantAlert p s).withAlc { (grantAlert p s).alc with chainOpen := true }) := by
  refine h.trans (Moves.keeps (Moves.trans ?_ (moves_chainOpen _ true)) fun _ d => ?_)
  · unfold grantAlert
    split
    · rename_i room
      have one : Moves s (granted s) := (moves_withAir s { s.air with chain := .withContext, chainSource := some (selectedSource s) }
        fun k => k.of_eq rfl rfl rfl).trans (moves_withAir (beginChainAt .withContext s) _ fun x =>
          x.push room (newRecord .alert (beginChainAt .withContext s)) rfl)
      exact ((one.andKeeps (keeps_parkLines (keeps_suspend (keeps_refl _)))).trans (moves_freeze _ _)).andKeeps
        (keeps_alertHolds _ (keeps_refl _))
    · have one : Moves s (beginChainAt .withoutContext s) :=
        moves_withAir s { s.air with chain := .withoutContext, chainSource := some (selectedSource s) } fun k => k.of_eq rfl rfl rfl
      exact ((one.andKeeps (keeps_holdLines (keeps_endNoContext (keeps_reportJoinLost (keeps_refl _))))).trans
        (moves_freeze _ _)).andKeeps (keeps_logStackFull _ (keeps_alertHolds _ (keeps_refl _)))
  · obtain ⟨n, r, st, f⟩ := d.runs closed
    have run : s.dly.runState = r := by unfold DLY.runState; rw [st]
    unfold grantAlert
    split
    · have k : SameChain (granted s) (push .alert (beginChainAt .withContext s)) :=
        (sameChain_suspend (granted s)).trans (sameChain_emptyAir _ _)
      generalize push .alert (beginChainAt .withContext s) = u at k ⊢
      obtain ⟨hd, ha, _⟩ := dlyBecomes_reads
        { u.dly with state := .frozen, recompute := false, kept := if false then some u.dly.runState else none } u
      show DelaySound (freeze false u).dly (freeze false u).air.chain (freeze false u).air.stack true
      unfold freeze
      rw [hd, ha, show u.air.chain = .withContext from k.chain]
      refine d.freezes st f k.dly _ nofun false rfl (fun _ => ?_) fun e => absurd rfl e
      rw [k.head]
      show some (ContextRecord.view (newRecord .alert (beginChainAt .withContext s))) = _
      show some (RecordKind.alert, some s.dly.runState) = _
      rw [run]
    · have k : SameChain (beginChainAt .withoutContext s)
          (holdLines (endNoContext (reportJoinLost (beginChainAt .withoutContext s)))) :=
        ((sameChain_reportJoinLost _).trans (sameChain_endNoContext _)).trans (sameChain_emptyAir _ _)
      generalize holdLines (endNoContext (reportJoinLost (beginChainAt .withoutContext s))) = u at k ⊢
      obtain ⟨hd, ha, _⟩ := dlyBecomes_reads
        { u.dly with state := .frozen, recompute := false, kept := if true then some u.dly.runState else none } u
      show DelaySound (freeze true u).dly (freeze true u).air.chain (freeze true u).air.stack true
      unfold freeze
      rw [hd, ha, show u.air.chain = .withoutContext from k.chain]
      exact d.freezes st f k.dly _ nofun true rfl (fun e => by cases e) fun _ => rfl

@[simp] theorem keeps_logPreemptionEnd {s0 s : State} (k : RecordKind) (n : Nat) (h : Keeps s0 s) : Keeps s0 (logPreemptionEnd k n s) := by
  unfold logPreemptionEnd
  (repeat' first | split | dsimp only) <;> simp (maxDischargeDepth := 40) [h]

/-- ALC's chain closes, DLY unfreezes and AIR's chain ends, in one event (R37, R45, R48, R123). -/
theorem keeps_chainEnds {s0 s : State} (b : RunState) (h : Keeps s0 s)
    (fits : DelayAt s → s.dly.recompute = false → s.dly.Fits b) :
    Keeps s0 (chainOver (unfreeze b (s.withAlc { s.alc with chainOpen := false }))) := by
  refine h.trans (Moves.keeps ?_ fun _ d => ?_)
  · exact (((moves_chainOpen s false).trans (moves_unfreeze _ _)).trans
      (moves_withAir _ { (unfreeze b (s.withAlc { s.alc with chainOpen := false })).air with chain := .none, chainSource := none }
        fun k => k.of_eq rfl rfl rfl)).andKeeps (keeps_alertHolds _ (keeps_refl _))
  · have k := dlyBecomes_reads { s.dly.enter (if s.dly.recompute then s.dly.unfrozen else b) with recompute := false, kept := none }
      (s.withAlc { s.alc with chainOpen := false })
    show DelaySound (unfreeze b (s.withAlc { s.alc with chainOpen := false })).dly .none
      (unfreeze b (s.withAlc { s.alc with chainOpen := false })).air.stack
      (unfreeze b (s.withAlc { s.alc with chainOpen := false })).alc.chainOpen
    unfold unfreeze
    dsimp only
    rw [show (s.withAlc { s.alc with chainOpen := false }).dly = s.dly from rfl, k.1, k.2.1, k.2.2]
    refine .run (r := if s.dly.recompute then s.dly.unfrozen else b) rfl d.atMost ?_
    show s.dly.Fits _
    split
    · exact DLY.fits_unfrozen _
    · rename_i re
      exact fits d (by simpa using re)

@[simp] theorem keeps_reportJoinEnd {s0 s : State} (n : Nat) (h : Keeps s0 s) : Keeps s0 (reportJoinEnd n s) := by
  unfold reportJoinEnd
  (repeat' first | split | dsimp only) <;> simp (maxDischargeDepth := 40) [h]

@[simp] theorem keeps_restoreEntry {s0 s : State} (x : Option (Nat × Nat)) (h : Keeps s0 s) : Keeps s0 (restoreEntry x s) := by
  unfold restoreEntry
  split
  · exact keeps_when _ _ (keeps_resumeEntry _ _ h) (keeps_reportJoinEnd _ (keeps_resumeEntry _ _ h))
  · exact h

theorem keeps_popRecord {s0 s : State} (r : ContextRecord) (n : Nat) (h : Keeps s0 s) (mem : r.number ∈ s.numbers)
    (out : StackSound s.air → DelayAt s → s.air.chain ≠ .withContext) : Keeps s0 (popRecord r n s) := by
  unfold popRecord
  exact keeps_considerRelease (keeps_logPreemptionEnd _ _ (keeps_foldl _ _ (fun _ p k => keeps_returnLine p k)
    (keeps_restoreEntry _ (keeps_withAir h (fun x => x.free_ _ mem) fun k d => d.anyStack (out k d) _))))

/-- The stack without a record that is not its top. -/
theorem take_numbers (r : ContextRecord) (l : List ContextRecord) (mem : r.number ∈ l.map (·.number))
    (top : l.head?.map (·.number) ≠ some r.number) :
    ((withdrawRecord.take r l).map (·.number) ++ [r.number]).Perm (l.map (·.number)) := by
  induction l with
  | nil => cases mem
  | cons x rest ih =>
    cases rest with
    | nil =>
      rw [List.map_cons, List.map_nil, List.mem_singleton] at mem
      exact absurd (by rw [mem]; rfl) top
    | cons y rest =>
      have notx : x.number ≠ r.number := fun e => top (by rw [← e]; rfl)
      unfold withdrawRecord.take
      split
      · rename_i e
        show (x.number :: (rest.map (·.number) ++ [r.number])).Perm (x.number :: y.number :: rest.map (·.number))
        rw [e]
        exact (List.perm_append_singleton _ _).cons _
      · rename_i e
        refine (ih ?_ ?_).cons x.number
        · rcases List.mem_cons.1 mem with m | m
          · exact absurd m.symm notx
          · exact m
        · intro c
          exact e (Option.some.inj c)


/-- A record withdrawn below the top leaves what DelaySound reads of the top. -/
theorem take_head (r : ContextRecord) (l : List ContextRecord) :
    (withdrawRecord.take r l).head?.map ContextRecord.view = l.head?.map ContextRecord.view := by
  cases l with
  | nil => rfl
  | cons x rest =>
    cases rest with
    | nil => rfl
    | cons y rest =>
      unfold withdrawRecord.take
      split <;> rfl

theorem keeps_withdrawRecord {s0 s : State} (r : ContextRecord) (n : Nat) (h : Keeps s0 s) (mem : r.number ∈ s.numbers)
    (top : s.air.stack.head?.map (·.number) ≠ some r.number) : Keeps s0 (withdrawRecord r n s) := by
  unfold withdrawRecord
  refine keeps_logPreemptionEnd _ _ (keeps_withAir h (fun x => ?_) fun _ => SameChain.delay ⟨rfl, rfl, take_head r _, rfl⟩)
  have p := take_numbers r s.air.stack mem top
  have len := p.length_eq
  simp only [List.length_append, List.length_map, List.length_singleton] at len
  refine ⟨?_, ?_, x.2.2⟩
  · show ((withdrawRecord.take r s.air.stack).map (·.number) ++ r.number :: s.air.free).Perm _
    rw [List.append_cons]
    exact (p.append_right _).trans x.1
  · show (withdrawRecord.take r s.air.stack).length ≤ s.air.maxDepth
    have := x.2.1
    omega

@[simp] theorem keeps_endSuspended {s0 s : State} (x : Option (Nat × Nat)) (h : Keeps s0 s) : Keeps s0 (endSuspended x s) := by
  unfold endSuspended
  (repeat' first | split | dsimp only) <;> simp (maxDischargeDepth := 40) [h]

theorem keeps_withdrawTop {s0 s : State} (r : ContextRecord) (n : Nat) (h : Keeps s0 s) (mem : r.number ∈ s.numbers)
    (out : s.air.chain ≠ .withContext) : Keeps s0 (withdrawTop r n s) := by
  unfold withdrawTop
  exact keeps_logPreemptionEnd _ _ (keeps_foldl _ _ (fun _ l k => keeps_holdParked l k)
    (keeps_endSuspended _ (keeps_withAir h (fun x => x.free_ _ mem) fun _ d => d.anyStack out _)))

/-- The end of a record that is no ALERT record (R36). -/
theorem keeps_endRecord {s0 s : State} (r n : Nat) (h : Keeps s0 s)
    (kind : StackSound s.air → ∀ x ∈ s.air.stack, x.number = r → x.kind ≠ .alert) : Keeps s0 (endRecord r n s) := by
  unfold endRecord
  split
  · exact h
  · rename_i x found
    have num : x.number = r := by simpa using List.find?_some found
    have mem : x.number ∈ s.numbers := List.mem_map_of_mem (List.mem_of_find?_eq_some found)
    split
    · rename_i top
      exact keeps_withdrawRecord _ _ h mem (by rw [num]; exact top)
    · rename_i top
      split
      · rename_i c
        exact keeps_withdrawTop _ _ h mem (by rw [c]; decide)
      · refine keeps_popRecord _ _ h mem fun k d c => ?_
        obtain ⟨y, hy, alert⟩ := d.top c
        rw [hy] at top
        exact kind k y (List.mem_of_mem_head? hy) (Option.some.inj (not_not.1 top)) alert

@[simp] theorem keeps_endLiveInsert {s0 s : State} (h : Keeps s0 s) : Keeps s0 (endLiveInsert s) := by
  unfold endLiveInsert
  split
  · exact h
  · rename_i r found
    refine keeps_endRecord _ _ h fun k x mem e alert => ?_
    have kind : r.kind = .liveInsert := by simpa using List.find?_some found
    rw [k.unique mem (List.mem_of_find?_eq_some found) e, kind] at alert
    cases alert

theorem numbers_chainOver_unfreeze (b : RunState) (s : State) : (chainOver (unfreeze b s)).numbers = s.numbers :=
  numbers_when _ (raise .delayState) (s.withDly _) rfl

theorem keeps_handOverRecord {s0 s : State} (r : ContextRecord) (n d : Nat)
    (one : Keeps s0 (chainOver (unfreeze (r.delayBefore.getD .bypass) s))) (mem : r.number ∈ s.numbers) :
    Keeps s0 (handOverRecord r n d s) := by
  have stack : (chainOver (unfreeze (r.delayBefore.getD .bypass) s)).numbers = s.numbers :=
    numbers_chainOver_unfreeze _ _
  unfold handOverRecord
  dsimp only
  split
  · exact keeps_popRecord _ _ one (by rw [stack]; exact mem) fun _ _ => nofun
  · split
    · refine keeps_logEntry _ _ _ (keeps_recue (keeps_setPlaying _ _ _ (keeps_withAir one (fun k => k.of_eq ?_ rfl rfl)
        fun _ d => d.anyStack nofun _)))
      show (List.map _ _).map _ = _
      rw [List.map_map]
      refine List.map_congr_left fun x _ => ?_
      show (if _ then _ else x : ContextRecord).number = _
      split <;> rfl
    · rename_i e _ _
      have same := (sameChain_leaveMissed .tooLate e (chainOver (unfreeze (r.delayBefore.getD .bypass) s))).trans (sameChain_recue _)
      refine keeps_popRecord _ _ (keeps_raise _ (keeps_recue (keeps_leaveMissed _ _ one))) ?_ fun _ _ c => ?_
      · show r.number ∈ (recue _).numbers
        unfold recue
        rw [numbers_recueLoop]
        show r.number ∈ (leave _ _).numbers
        rw [numbers_leave, stack]
        exact mem
      · have c : (recue (leaveMissed .tooLate e (chainOver (unfreeze (r.delayBefore.getD .bypass) s)))).air.chain = .withContext := c
        rw [same.chain] at c
        cases c

/-- ALC closes the chain and AIR ends it (R37, R45, R48, R147). -/
theorem keeps_endChain {s0 s : State} (h : Keeps s0 s) : Keeps s0 (endChain (s.withAlc { s.alc with chainOpen := false })) := by
  have fits (b : RunState) (o : Option RunState) (c : s.air.chain ≠ .none) (ho : s.dly.before s.air.chain s.air.stack = o) :
      DelayAt s → s.dly.recompute = false → s.dly.Fits (o.getD .bypass) := fun d re => by
    obtain ⟨b, hb, f⟩ := d.kept c re
    rw [ho] at hb
    rw [hb]
    exact f
  unfold endChain
  split
  · rename_i _ c
    have c : s.air.chain = .none := c
    refine h.trans ((moves_chainOpen s false).keeps fun _ d => ?_)
    have o : s.alc.chainOpen = false := by
      have := d.opened
      rw [c] at this
      simpa using this
    exact (SameChain.mk rfl rfl rfl o.symm : SameChain s (s.withAlc { s.alc with chainOpen := false })).delay d
  · rename_i _ c
    have c : s.air.chain = .withoutContext := c
    refine keeps_considerRelease (keeps_logEntry _ _ _ (keeps_raise _ (keeps_safeChange _ _ (keeps_chainEnds _ h ?_))))
    exact fits .bypass _ (by rw [c]; decide) (by rw [c]; rfl)
  · rename_i c hs
    have c : s.air.chain = .withContext := c
    have hs : s.air.stack = [] := hs
    refine h.trans (((moves_chainOpen s false).trans (moves_withAir _ { s.air with chain := .none, chainSource := none }
      fun k => k.of_eq rfl rfl rfl)).andKeeps (keeps_alertHolds _ (keeps_refl _)) |>.keeps fun _ d => ?_)
    obtain ⟨y, hy, _⟩ := d.top c
    rw [hs] at hy
    cases hy
  · rename_i r rest c hs
    have c : s.air.chain = .withContext := c
    have hs : s.air.stack = r :: rest := hs
    have mem : r.number ∈ s.numbers := by
      unfold State.numbers
      rw [hs]
      exact List.mem_cons_self
    have one := keeps_chainEnds _ h (fits .bypass r.delayBefore (by rw [c]; decide) (by rw [c, hs]; rfl))
    split
    · exact keeps_handOverRecord _ _ _ one mem
    · refine keeps_popRecord _ _ one ?_ fun _ _ => nofun
      rw [numbers_chainOver_unfreeze]
      exact mem

@[simp] theorem keeps_setModeTo {s0 s : State} (m : Mode) (h : Keeps s0 s) : Keeps s0 (setModeTo m s).1 := by
  unfold setModeTo
  (repeat' first | split | dsimp only) <;> simp (maxDischargeDepth := 40) [h]

@[simp] theorem keeps_ownerSetMaxDepth {s0 s : State} (b : Byte) (h : Keeps s0 s) : Keeps s0 (ownerSetMaxDepth b s).1 := by
  unfold ownerSetMaxDepth
  split
  · exact h
  · rename_i range
    split
    · exact h
    · rename_i depth
      exact keeps_withAir h fun k => ⟨k.1, by dsimp only; omega, by dsimp only; omega, by dsimp only; omega⟩

@[simp] theorem keeps_liveInsert {s0 s : State} (h : Keeps s0 s) : Keeps s0 (liveInsert s).1 := by
  unfold liveInsert
  (repeat' split)
  · exact h
  · exact h
  · exact h
  · exact h
  · rename_i _ n _ room
    have n : s.air.chain = .none := not_not.1 n
    exact keeps_logEntry _ _ _ (keeps_push _ h (by simpa using room) (by rw [n]; decide))

@[simp] theorem keeps_liveInsertEnd {s0 s : State} (h : Keeps s0 s) : Keeps s0 (liveInsertEnd s).1 := by
  unfold liveInsertEnd
  (repeat' first | split | dsimp only) <;> simp (maxDischargeDepth := 40) [h]

/-! ### CUE's requests and times -/

@[simp] theorem keeps_afterPlaying {s0 s : State} (p : CueEntry) (h : Keeps s0 s) : Keeps s0 (afterPlaying p s) := by
  unfold afterPlaying
  dsimp only
  split
  · have one : Keeps s0 (passStops (recue s)) := keeps_passStops (keeps_recue h)
    split
    · rename_i r rest hs
      split
      · rename_i kind
        refine keeps_endRecord _ _ one fun k x mem e alert => ?_
        rw [k.unique mem (hs ▸ List.mem_cons_self) e, kind] at alert
        cases alert
      · exact one
    · exact one
  · exact keeps_settleList _ h

@[simp] theorem keeps_endPlaying {s0 s : State} (p : CueEntry) (h : Keeps s0 s) : Keeps s0 (endPlaying p s) := keeps_afterPlaying _ (keeps_leave _ (keeps_endFading h))

@[simp] theorem keeps_itemEnds {s0 s : State} (p : CueEntry) (h : Keeps s0 s) : Keeps s0 (itemEnds p s) := by
  unfold itemEnds
  (repeat' first | split | dsimp only) <;> simp (maxDischargeDepth := 40) [h]

@[simp] theorem keeps_addEntry {s0 s : State} (n : Nat) (k : CueKind) (t : Timing) (r : Long) (h : Keeps s0 s)
    (room : s.cue.list.length < Config.cueEntries) : Keeps s0 (addEntry n k t r s).1 := by
  unfold addEntry
  dsimp only
  refine keeps_settleList _ (keeps_withCue h fun q => ?_)
  obtain ⟨range, fresh⟩ := nextSerial_spec q
  have place : (s.cue.list.insertIdx n (newEntry s.cue.nextSerial k t r s.boundaryNo)).map (·.serial) =
      (s.cue.list.map (·.serial)).insertIdx n s.cue.nextSerial := by rw [List.map_insertIdx]; rfl
  refine ⟨List.length_insertIdx_le_succ.trans room, ?_, ?_, serialAfter_range _ range⟩
  · rw [place]
    rcases Nat.lt_or_ge (s.cue.list.map (·.serial)).length n with far | near
    · rw [List.insertIdx_of_length_lt far]
      exact q.2.1
    · exact (List.perm_insertIdx _ _ near).nodup_iff.2 (List.nodup_cons.2 ⟨fresh, q.2.1⟩)
  · rw [place]
    intro m hm
    rcases List.eq_or_mem_of_mem_insertIdx hm with rfl | hm
    · exact range
    · exact q.2.2.1 m hm


@[simp] theorem keeps_append {s0 s : State} (f : EntryFields) (h : Keeps s0 s) : Keeps s0 (append f s).1 := by
  unfold append
  split
  · exact h
  · split
    · exact h
    · rename_i room
      exact keeps_addEntry _ _ _ _ h (by omega)

@[simp] theorem keeps_insert {s0 s : State} (a : Half) (f : EntryFields) (h : Keeps s0 s) : Keeps s0 (insert a f s).1 := by
  unfold insert
  split
  · exact h
  · split
    · exact h
    · rename_i room
      split
      · exact h
      · exact keeps_addEntry _ _ _ _ h (by omega)

@[simp] theorem keeps_delete {s0 s : State} (n : Half) (h : Keeps s0 s) : Keeps s0 (delete n s).1 := by
  unfold delete
  (repeat' first | split | dsimp only) <;> simp (maxDischargeDepth := 40) [h]

@[simp] theorem keeps_skip {s0 s : State} (n : Half) (h : Keeps s0 s) : Keeps s0 (skip n s).1 := by
  unfold skip
  (repeat' first | split | dsimp only) <;> simp (maxDischargeDepth := 40) [h]

@[simp] theorem keeps_takeEntry {s0 s : State} (e : CueEntry) (h : Keeps s0 s) : Keeps s0 (takeEntry e s) := by
  unfold takeEntry
  split
  · exact keeps_settleList _ (keeps_leave _ h)
  · refine keeps_recue (keeps_startEntry _ ?_)
    split
    · exact keeps_leave _ (keeps_endFading h)
    · exact keeps_endFading h

@[simp] theorem keeps_take {s0 s : State} (n : Option Half) (h : Keeps s0 s) : Keeps s0 (take n s).1 := by
  unfold take
  (repeat' first | split | dsimp only) <;> simp (maxDischargeDepth := 40) [h]

@[simp] theorem keeps_itemEnd {s0 s : State} (n : Half) (h : Keeps s0 s) : Keeps s0 (itemEnd n s).1 := by
  unfold itemEnd
  (repeat' first | split | dsimp only) <;> simp (maxDischargeDepth := 40) [h]

@[simp] theorem keeps_ownerSetLowWater {s0 s : State} (b : Byte) (h : Keeps s0 s) : Keeps s0 (ownerSetLowWater b s).1 := by
  unfold ownerSetLowWater
  split
  · exact h
  · exact keeps_withCue h fun q => q.of_eq rfl rfl

@[simp] theorem keeps_ownerArmLowWater {s0 s : State} (h : Keeps s0 s) : Keeps s0 (ownerArmLowWater s).1 := by
  unfold ownerArmLowWater
  rw [reply_state]
  split
  · exact keeps_withCue h fun q => q.of_eq rfl rfl
  · exact keeps_raise _ (keeps_withCue h fun q => q.of_eq rfl rfl)

@[simp] theorem keeps_lowWaterCheck {s0 s : State} (b : State) (h : Keeps s0 s) : Keeps s0 (lowWaterCheck b s) := by
  unfold lowWaterCheck
  dsimp only
  split
  · exact keeps_raise _ (keeps_withCue h fun q => q.of_eq rfl rfl)
  · split
    · exact keeps_withCue h fun q => q.of_eq rfl rfl
    · exact h

@[simp] theorem keeps_delayedRises {s0 s : State} (h : Keeps s0 s) : Keeps s0 (delayedRises s) := keeps_withCue h fun q => q.of_eq rfl rfl

@[simp] theorem keeps_countElapsed {s0 s : State} (h : Keeps s0 s) : Keeps s0 (countElapsed s) := keeps_withCue h fun q => q.of_map _ rfl (fun e => by split <;> rfl) rfl

@[simp] theorem keeps_onPlaying {s0 s : State} (f : CueEntry → State → State) (h : Keeps s0 s) (hf : ∀ p, Keeps s0 (f p s)) : Keeps s0 (onPlaying f s) := by
  unfold onPlaying
  split
  · exact hf _
  · exact h

@[simp] theorem keeps_counted {s0 s : State} (h : Keeps s0 s) : Keeps s0 (counted s) := keeps_countElapsed (keeps_delayedRises h)

@[simp] theorem keeps_cueCounts {s0 s : State} (h : Keeps s0 s) : Keeps s0 (cueCounts s) := by
  have one := keeps_counted h
  unfold cueCounts
  dsimp only
  have two : Keeps s0 (if fadeOver (counted s) then recue (endFading (counted s)) else counted s) := by
    split
    · exact keeps_recue (keeps_endFading one)
    · exact one
  generalize (if fadeOver (counted s) then recue (endFading (counted s)) else counted s) = s2 at two ⊢
  split
  · exact keeps_onPlaying _ two fun p => keeps_itemEnds p two
  · have three : Keeps s0 (if atSegue s2 then onPlaying reachSegue s2 else s2) := by
      split
      · exact keeps_onPlaying _ two fun p => keeps_reachSegue p two
      · exact two
    generalize (if atSegue s2 then onPlaying reachSegue s2 else s2) = s3 at three ⊢
    split
    · exact keeps_onPlaying _ three fun p => keeps_endPlaying p three
    · exact three

@[simp] theorem keeps_miss {s0 s : State} (c : MissCause) (e : CueEntry) (h : Keeps s0 s) : Keeps s0 (miss c s e) :=
  keeps_raise _ (keeps_leaveMissed _ _ h)


@[simp] theorem keeps_hardTimeDue {s0 s : State} (e : CueEntry) (h : Keeps s0 s) : Keeps s0 (hardTimeDue e s) := by
  have one : Keeps s0 ((passedOver e s.cue.list).foldl (fun s x => leaveSkipped .hardTime x s) s) :=
    keeps_foldl _ _ (fun _ x k => keeps_leaveSkipped _ x k) h
  unfold hardTimeDue
  split
  · exact keeps_settleList _ (keeps_miss _ _ h)
  · dsimp only
    split
    · split
      · exact keeps_segueTo _ _ one
      · exact keeps_recue (keeps_startEntry _ one)
    · exact keeps_raise _ (keeps_recue (keeps_withCue one fun q => q.modify _ _ fun _ => rfl))

@[simp] theorem keeps_breakInDue {s0 s : State} (e : CueEntry) (len due : Nat) (h : Keeps s0 s) : Keeps s0 (breakInDue e len due s) := by
  have refused : Keeps s0 (settleList false (miss .stackFull (logStackFull (.cue e.serial) s) e)) :=
    keeps_settleList _ (keeps_miss _ _ (keeps_logStackFull _ h))
  unfold breakInDue
  dsimp only
  split
  · exact keeps_settleList _ (keeps_miss _ _ h)
  · split
    · split
      · exact refused
      · rename_i r rest _ hs _
        exact keeps_recue (keeps_withCue (keeps_withAir h (fun k => k.of_eq (by rw [hs]; rfl) rfl rfl)
            fun _ => SameChain.delay ⟨rfl, rfl, by rw [hs]; rfl, rfl⟩)
          fun q => q.modify _ _ fun _ => rfl)
    · rename_i n
      split
      · rename_i room
        exact keeps_logEntry _ _ _ (keeps_recue (keeps_setPlaying _ _ _ (keeps_push _ h room (by rw [n]; decide))))
      · exact refused
    · exact refused

@[simp] theorem keeps_takeDueEntry {s0 s : State} (e : CueEntry) (h : Keeps s0 s) : Keeps s0 (takeDueEntry e s) := by
  unfold takeDueEntry
  (repeat' first | split | dsimp only) <;> simp (maxDischargeDepth := 40) [h]

@[simp] theorem keeps_cueTimes {s0 s : State} (h : Keeps s0 s) : Keeps s0 (cueTimes s) := by
  unfold cueTimes
  split
  · exact h
  · split
    · exact keeps_settleList _ (keeps_foldl _ _ (fun _ x k => keeps_miss _ x k) h)
    · exact keeps_takeDueEntry _ (keeps_foldl _ _ (fun _ x k => keeps_miss _ x k) h)

@[simp] theorem keeps_joinReleased {s0 s : State} (r n : Nat) (h : Keeps s0 s) : Keeps s0 (joinReleased r n s) := by
  unfold joinReleased
  cases c : s.air.stack.any fun x => decide (x.number = r ∧ x.kind = .breakIn)
  · exact h
  · refine keeps_endRecord _ _ h fun k x mem e alert => ?_
    obtain ⟨y, hy, c⟩ := List.any_eq_true.1 c
    have c := of_decide_eq_true c
    rw [k.unique mem hy (e.trans c.1.symm), c.2] at alert
    cases alert

/-! ### ALC -/

@[simp] theorem alc_modify_length (x : ALC) (p : Pair) (f : AlertEntry → AlertEntry) :
    (x.modify p f).queue.length = x.queue.length := List.length_map _

theorem alc_remove_length (x : ALC) (p : Pair) : (x.remove p).queue.length ≤ x.queue.length := List.length_filter_le _ _

theorem alc_recordKnown_length (x : ALC) (p : Pair) (h : x.known.length ≤ Config.knownPairs) :
    (x.recordKnown p).known.length ≤ Config.knownPairs := by
  have : Config.knownPairs = 32 := rfl
  unfold ALC.recordKnown
  dsimp only
  split
  · rw [List.length_append, List.length_singleton]; omega
  · rw [List.length_append, List.length_drop, List.length_singleton]; omega


@[simp] theorem keeps_logAlert {s0 s : State} (k : LogKind) (p : Pair) (d : Detail) (h : Keeps s0 s) : Keeps s0 (logAlert k p d s) := keeps_logEntry _ _ _ h

@[simp] theorem keeps_alcModify {s0 s : State} (p : Pair) (f : AlertEntry → AlertEntry) (h : Keeps s0 s) :
    Keeps s0 (s.withAlc (s.alc.modify p f)) := keeps_withAlc h (fun q => by rw [alc_modify_length]; exact q) id

@[simp] theorem keeps_alcRemove {s0 s : State} (p : Pair) (h : Keeps s0 s) : Keeps s0 (s.withAlc (s.alc.remove p)) :=
  keeps_withAlc h (fun q => (alc_remove_length _ _).trans q) id

/-- An update of ALC that leaves its queue and its table. -/
theorem keeps_alcKept {s0 s : State} {x : ALC} (h : Keeps s0 s) (q : x.queue.length = s.alc.queue.length)
    (k : x.known = s.alc.known) (o : x.chainOpen = s.alc.chainOpen := by rfl) : Keeps s0 (s.withAlc x) :=
  keeps_withAlc h (fun l => by rw [q]; exact l) (fun l => by rw [k]; exact l) o


@[simp] theorem keeps_airing {s0 s : State} (b : Bool) (e : AlertEntry) (h : Keeps s0 s) : Keeps s0 (airing b e s) := by
  have one : Keeps s0 (s.withAlc (if b then
        { s.alc.modify e.header.pair fun e =>
            { e with state := .onAir, played := 0, advisory := 0, begun := s.boundaryNo } with
          goRiseAfter := some s.boundaryNo }
      else { s.alc.modify e.header.pair fun e =>
            { e with state := .onAir, played := 0, advisory := 0, begun := s.boundaryNo } with
          go := true, goRiseAfter := none })) := by
    split <;> exact keeps_alcKept h (alc_modify_length _ _ _) rfl
  exact keeps_raise _ (keeps_logAlert _ _ _ (keeps_when _ _ (keeps_withOut one) (keeps_wakeSite (keeps_withOut one))))

@[simp] theorem keeps_goFalls {s0 s : State} (h : Keeps s0 s) : Keeps s0 (goFalls s) := keeps_alcKept h rfl rfl

theorem keeps_beginChain {s0 s : State} (e : AlertEntry) (h : Keeps s0 s) (closed : s.alc.chainOpen = false) :
    Keeps s0 (beginChain e s) := keeps_airing _ _ (keeps_grantAlert _ h closed)

@[simp] theorem keeps_considerAir {s0 s : State} (h : Keeps s0 s) : Keeps s0 (considerAir s) := by
  unfold considerAir
  split
  · rename_i c
    split
    · split
      · exact keeps_beginChain _ h (by simpa using c.2)
      · exact h
    · exact h
  · exact h

@[simp] theorem keeps_chainGoesOn {s0 s : State} (h : Keeps s0 s) : Keeps s0 (chainGoesOn s) := by
  unfold chainGoesOn
  split
  · exact keeps_airing _ _ h
  · exact keeps_endChain h

@[simp] theorem keeps_endAiring {s0 s : State} (e : AlertEntry) (k : LogKind) (d : Detail) (h : Keeps s0 s) : Keeps s0 (endAiring e k d s) := keeps_raise _ (keeps_logAlert _ _ _ (keeps_alcRemove _ (keeps_goFalls h)))

@[simp] theorem keeps_programmeStage {s0 s : State} (h : Keeps s0 s) : Keeps s0 (programmeStage s) := keeps_withAudio h rfl rfl

@[simp] theorem keeps_airingEnds {s0 s : State} (e : AlertEntry) (k : LogKind) (d : Detail) (h : Keeps s0 s) : Keeps s0 (airingEnds e k d s) :=
  keeps_chainGoesOn (keeps_endAiring _ _ _ h)

@[simp] theorem keeps_interrupt {s0 s : State} (n o : AlertEntry) (h : Keeps s0 s) : Keeps s0 (interrupt n o s) := by
  refine keeps_airing _ _ (keeps_raise _ (keeps_logAlert _ _ _ ?_))
  split
  · exact keeps_logAlert _ _ _ (keeps_alcRemove _ (keeps_goFalls h))
  · exact keeps_alcModify _ _ (keeps_goFalls h)

@[simp] theorem keeps_afterReady {s0 s : State} (e : AlertEntry) (h : Keeps s0 s) : Keeps s0 (afterReady e s) := by
  unfold afterReady
  (repeat' first | split | dsimp only) <;> simp (maxDischargeDepth := 40) [h]

@[simp] theorem keeps_gateCheck {s0 s : State} (b : State) (h : Keeps s0 s) : Keeps s0 (gateCheck b s) := by
  unfold gateCheck
  (repeat' first | split | dsimp only) <;> simp (maxDischargeDepth := 40) [h]

@[simp] theorem keeps_clearMarks {s0 s : State} (h : Keeps s0 s) : Keeps s0 (clearMarks s) := keeps_withCue h fun q => q.of_eq rfl rfl

@[simp] theorem keeps_finish {s0 s : State} (b : State) (h : Keeps s0 s) : Keeps s0 (finish b s) := keeps_clearMarks (keeps_gateCheck _ (keeps_lowWaterCheck _
  (keeps_when _ _ h (keeps_considerAir h))))

@[simp] theorem keeps_event {s0 s : State} (f : State → State) (h : Keeps s0 (f (clearMarks s))) :
    Keeps s0 (event f s) := keeps_finish _ h

@[simp] theorem keeps_eventReply {s0 s : State} (f : OwnerEvent) (h : Keeps s0 (f (clearMarks s)).1) :
    Keeps s0 (eventReply f s).1 := keeps_finish _ h


theorem place_length (e : AlertEntry) (q : List AlertEntry) : (place e q).length = q.length + 1 := by
  unfold place
  have := congrArg List.length
    (List.takeWhile_append_dropWhile (p := fun x : AlertEntry => decide (e.header.priority ≤ x.header.priority)) (l := q))
  rw [List.length_append] at this ⊢
  rw [List.length_cons]
  omega


@[simp] theorem alc_recordKnown_open (x : ALC) (p : Pair) : (x.recordKnown p).chainOpen = x.chainOpen := by
  unfold ALC.recordKnown
  dsimp only

theorem keeps_acceptAlert {s0 s : State} (x : Header) (st : AlertState) (b : Bool) (h : Keeps s0 s)
    (room : BlocksSound s0 → s.alc.queue.length < Config.alertEntries) : Keeps s0 (acceptAlert x st b s) := by
  have one : Keeps s0 (s.withAlc (({ s.alc with
      queue := place (acceptedEntry x st s) s.alc.queue, nextArrival := s.alc.nextArrival + 1 } : ALC).recordKnown x.pair)) := by
    refine ⟨⟨h.pending, h.boundaryNo, h.prev, h.inputs, h.init, fun i => ?_, fun i d => ?_, h.site⟩,
      h.notices.trans (notices_of_pi rfl)⟩
    · refine { h.blocks i with alerts := ?_, known := alc_recordKnown_length _ _ (h.blocks i).known }
      show (place _ _).length ≤ _
      rw [place_length]
      exact room i
    · exact (SameChain.mk rfl rfl rfl (alc_recordKnown_open _ x.pair) : SameChain s (s.withAlc (ALC.recordKnown _ x.pair))).delay
        (h.delay i d)
  have two := keeps_logAlert .alertReceived x.pair (.received x.priority st) one
  have three := keeps_raise .alertArrived (keeps_when b _ two (keeps_logAlert .alertForwarded x.pair (.forwarded .auto) two))
  unfold acceptAlert
  dsimp only
  split
  · exact keeps_afterReady _ three
  · exact three


@[simp] theorem keeps_displace {s0 s : State} (e : AlertEntry) (x : Header) (h : Keeps s0 s) : Keeps s0 (displace e x s) := keeps_raise _ (keeps_logAlert _ _ _ (keeps_alcRemove _ h))

theorem displaceable_mem (x : ALC) (n : Nat) (e : AlertEntry) (h : x.displaceable n = some e) : e ∈ x.queue := by
  unfold ALC.displaceable at h
  split at h
  · rename_i d found
    split at h
    · cases h
      exact (List.mem_filter.1 (List.mem_of_getLast? found)).1
    · cases h
  · cases h

theorem alc_remove_mem (x : ALC) (e : AlertEntry) (h : e ∈ x.queue) :
    (x.remove e.header.pair).queue.length < x.queue.length := by
  refine lt_of_le_of_ne (alc_remove_length _ _) fun c => ?_
  have := List.filter_eq_self.1 (List.filter_sublist.eq_of_length c) e h
  simp at this


@[simp] theorem keeps_takeHeader {s0 s : State} (x : Header) (h : Keeps s0 s) : Keeps s0 (takeHeader x s).1 := by
  unfold takeHeader
  split
  · exact keeps_logAlert _ _ _ h
  · split
    · exact keeps_logAlert _ _ _ (keeps_withAlc h id fun q => alc_recordKnown_length _ _ q)
    · exact keeps_logAlert _ _ _ (keeps_withAlc h id fun q => alc_recordKnown_length _ _ q)
    · split
      · rename_i room
        exact keeps_acceptAlert _ _ _ h fun _ => room
      · split
        · rename_i e found
          refine keeps_acceptAlert _ _ _ (keeps_displace _ _ h) fun i => ?_
          have : (s.alc.remove e.header.pair).queue.length < s.alc.queue.length :=
            alc_remove_mem _ _ (displaceable_mem _ _ _ found)
          exact this.trans_le (h.blocks i).alerts
        · exact keeps_logAlert _ _ _ h

@[simp] theorem keeps_alertHeader {s0 s : State} (x : HeaderFields) (h : Keeps s0 s) : Keeps s0 (alertHeader x s).1 := by
  unfold alertHeader
  (repeat' first | split | dsimp only) <;> simp (maxDischargeDepth := 40) [h]

@[simp] theorem keeps_readyEntry {s0 s : State} (e : AlertEntry) (c : ForwardCause) (h : Keeps s0 s) : Keeps s0 (readyEntry e c s) := keeps_raise _ (keeps_logAlert _ _ _ (keeps_alcModify _ _ h))

@[simp] theorem keeps_forwardEntry {s0 s : State} (e : AlertEntry) (c : ForwardCause) (h : Keeps s0 s) : Keeps s0 (forwardEntry e c s) := keeps_afterReady _ (keeps_readyEntry _ _ h)

@[simp] theorem keeps_forwardAlert {s0 s : State} (p : Option (Half × Half)) (h : Keeps s0 s) : Keeps s0 (forwardAlert p s).1 := by
  unfold forwardAlert
  (repeat' first | split | dsimp only) <;> simp (maxDischargeDepth := 40) [h]

@[simp] theorem keeps_keyForward {s0 s : State} (h : Keeps s0 s) : Keeps s0 (keyForward s) := by
  unfold keyForward
  (repeat' first | split | dsimp only) <;> simp (maxDischargeDepth := 40) [h]

@[simp] theorem keeps_cancelAlert {s0 s : State} (o n : Half) (h : Keeps s0 s) : Keeps s0 (cancelAlert o n s).1 := by
  unfold cancelAlert
  (repeat' first | split | dsimp only) <;> simp (maxDischargeDepth := 40) [h]

@[simp] theorem keeps_alertEnd {s0 s : State} (o n : Half) (h : Keeps s0 s) : Keeps s0 (alertEnd o n s).1 := by
  unfold alertEnd
  (repeat' first | split | dsimp only) <;> simp (maxDischargeDepth := 40) [h]

@[simp] theorem keeps_cutShort {s0 s : State} (h : Keeps s0 s) : Keeps s0 (cutShort s) := by
  unfold cutShort
  (repeat' first | split | dsimp only) <;> simp (maxDischargeDepth := 40) [h]

@[simp] theorem keeps_ownerSetAreas {s0 s : State} (c : List Tri) (h : Keeps s0 s) : Keeps s0 (ownerSetAreas c s).1 := by
  unfold ownerSetAreas
  (repeat' first | split | dsimp only) <;> simp (maxDischargeDepth := 40) [h]

@[simp] theorem keeps_ownerSetEventAction {s0 s : State} (e1 e2 e3 a : Byte) (h : Keeps s0 s) : Keeps s0 (ownerSetEventAction e1 e2 e3 a s).1 := by
  unfold ownerSetEventAction
  (repeat' first | split | dsimp only) <;> simp (maxDischargeDepth := 40) [h]

@[simp] theorem keeps_ownerSetAlertTimes {s0 s : State} (l a w : Tri) (k : Byte) (h : Keeps s0 s) : Keeps s0 (ownerSetAlertTimes l a w k s).1 := by
  unfold ownerSetAlertTimes
  (repeat' first | split | dsimp only) <;> simp (maxDischargeDepth := 40) [h]

@[simp] theorem keeps_setMode {s0 s : State} (m : Byte) (h : Keeps s0 s) : Keeps s0 (setMode m s).1 := by
  unfold setMode
  (repeat' first | split | dsimp only) <;> simp (maxDischargeDepth := 40) [h]

@[simp] theorem keeps_countPlayed {s0 s : State} (h : Keeps s0 s) : Keeps s0 (countPlayed s) := by
  unfold countPlayed
  (repeat' first | split | dsimp only) <;> simp (maxDischargeDepth := 40) [h]

@[simp] theorem keeps_expire {s0 s : State} (e : AlertEntry) (h : Keeps s0 s) : Keeps s0 (expire s e) :=
  keeps_raise _ (keeps_logAlert _ _ _ (keeps_alcRemove _ h))

@[simp] theorem keeps_holdEnds {s0 s : State} (e : AlertEntry) (h : Keeps s0 s) : Keeps s0 (holdEnds s e) :=
  keeps_readyReport (keeps_readyEntry _ _ h)


@[simp] theorem keeps_countValidity {s0 s : State} (h : Keeps s0 s) : Keeps s0 (countValidity s) := keeps_foldl _ _ (fun _ e k => keeps_expire e k) (keeps_alcKept h (List.length_map _) rfl)

@[simp] theorem keeps_countHolds {s0 s : State} (h : Keeps s0 s) : Keeps s0 (countHolds s) := keeps_foldl _ _ (fun _ e k => keeps_holdEnds e k) (keeps_alcKept h (List.length_map _) rfl)

@[simp] theorem keeps_countAdvisory {s0 s : State} (h : Keeps s0 s) : Keeps s0 (countAdvisory s) := keeps_alcKept h (List.length_map _) rfl

@[simp] theorem keeps_alertStage {s0 s : State} (h : Keeps s0 s) : Keeps s0 (alertStage s) := by
  have one := keeps_countPlayed h
  unfold alertStage
  dsimp only
  cases lengthReached (countPlayed s) with
  | some e =>
    exact keeps_chainGoesOn (keeps_countAdvisory (keeps_countHolds (keeps_countValidity (keeps_endAiring _ _ _ one))))
  | none =>
    have three := keeps_countAdvisory (keeps_countHolds (keeps_countValidity one))
    dsimp only [Option.isSome_none]
    (repeat' split) <;> simp_all

/-! ### PI, the requests and the rows -/

@[simp] theorem keeps_portEffect {s0 s : State} (p : PortId) (h : Keeps s0 s) : Keeps s0 (portEffect p s) := by
  unfold portEffect
  split
  · exact keeps_withCue h fun q => q.of_eq rfl rfl
  · exact keeps_event _ (keeps_endLiveInsert (keeps_clearMarks h))
  · exact keeps_event _ (keeps_cutShort (keeps_clearMarks h))

theorem stays_resetPort {s0 s : State} (p : PortId) (h : Stays s0 s) : Stays s0 (resetPort p s) := by
  have one := stays_withPi (x := { (clockFirst s).pi.set p ((clockFirst s).port p).cleared with
    handed := discardReplies p (clockFirst s).pi.handed }) (stays_clockFirst h)
    fun q => by cases p <;> cases q <;> rfl
  exact one.trans (keeps_portEffect p (keeps_refl _)).toStays

@[simp] theorem ownerRead_state (part : Option Byte) (s : State) :
    (ownerReadTimebase part s).1 = s ∧ (ownerReadAir part s).1 = s ∧ (ownerReadLines part s).1 = s ∧
    (ownerReadOutput part s).1 = s ∧ (ownerReadLink part s).1 = s ∧ (ownerReadSite part s).1 = s :=
  ⟨rfl, rfl, rfl, rfl, rfl, rfl⟩

@[simp] theorem ownerReadDelay_state (s : State) : (ownerReadDelay s).1 = s := rfl

@[simp] theorem ownerReadCue_state (n : Half) (s : State) : (ownerReadCue n s).1 = s := by
  unfold ownerReadCue
  split <;> rfl

@[simp] theorem ownerReadAlerts_state (n : Byte) (part : Option Byte) (s : State) : (ownerReadAlerts n part s).1 = s := by
  unfold ownerReadAlerts
  (repeat' split) <;> rfl

@[simp] theorem ownerReadAlertTables_state (n m : Byte) (s : State) : (ownerReadAlertTables n m s).1 = s := by
  unfold ownerReadAlertTables
  dsimp only
  split <;> rfl

@[simp] theorem ownerReadLog_state (n : Long) (k : Byte) (s : State) : (ownerReadLog n k s).1 = s := by
  unfold ownerReadLog
  split <;> rfl


theorem stays_ownerReadNotices (p : PortId) (s : State) : Stays s (ownerReadNotices p s).1 :=
  stays_withPort (stays_refl s) rfl

theorem stays_ownerSetNoticeMask (p : PortId) (m : Half) (s : State) : Stays s (ownerSetNoticeMask p m s).1 :=
  stays_withPort (stays_refl s) rfl

/-- What an owner other than PI does with a request keeps what every owner's operation keeps. -/
theorem keeps_ownerAct {s0 s : State} (i : Instr) (n1 : ∀ p, i ≠ .readNotices p) (n2 : ∀ p m, i ≠ .setNoticeMask p m)
    (h : Keeps s0 s) : Keeps s0 (ownerAct i s).1 := by
  cases i <;> first | exact absurd rfl (n1 _) | exact absurd rfl (n2 _ _) | skip
  all_goals dsimp only [ownerAct]
  all_goals first
    | exact h
    | simp only [ownerReadCue_state, ownerReadAlerts_state,
        ownerReadAlertTables_state, ownerReadLog_state]; exact h
    | (dsimp only [ownerSetMode, ownerLiveInsert, ownerLiveInsertEnd, ownerAppend, ownerInsert, ownerDelete, ownerSkip,
        ownerTake, ownerItemEnd, ownerTakeLineEvent, ownerDropEvent, ownerLineOptionsEvent, ownerAlertHeader,
        ownerAlertEnd, ownerForwardAlert, ownerCancelAlert]
       simp (maxDischargeDepth := 40) [h])
    | simp [h]

/-- What any owner does with a request keeps what everything within a boundary keeps. -/
theorem stays_ownerAct {s0 s : State} (i : Instr) (h : Stays s0 s) : Stays s0 (ownerAct i s).1 := by
  by_cases n1 : ∃ p, i = .readNotices p
  · obtain ⟨p, rfl⟩ := n1
    exact h.trans (stays_ownerReadNotices p s)
  · by_cases n2 : ∃ p m, i = .setNoticeMask p m
    · obtain ⟨p, m, rfl⟩ := n2
      exact h.trans (stays_ownerSetNoticeMask p m s)
    · exact h.trans (keeps_ownerAct i (fun p e => n1 ⟨p, e⟩) (fun p m e => n2 ⟨p, m, e⟩) (keeps_refl s)).toStays

/-- Bytes written whole keep what their taking keeps. -/
theorem stays_writeWhole {s0 s : State} (p : PortId) (f : State → State) (h : Stays s0 s)
    (hf : ∀ t, Stays s0 t → Stays s0 (f t)) : Stays s0 (writeWhole p f s) := by
  unfold writeWhole
  dsimp only
  split
  · exact h
  · split
    · exact stays_withPort h rfl
    · split
      · exact hf _ (stays_withPort h rfl)
      · exact hf _ h

/-- A request row keeps what its owner's act keeps. -/
theorem stays_takeRequest {s0 s : State} (i : Instr) (act : OwnerEvent) (h : Stays s0 s)
    (hf : ∀ t, Stays s0 t → Stays s0 (act t).1) : Stays s0 (takeRequest i act s) := by
  have clock := stays_clockFirst h
  unfold takeRequest
  dsimp only
  split
  · exact h
  · split
    · have step := stays_withPi (x := { (clockFirst s).pi with handed := ‹List Handed› }) clock
        fun p => by cases p <;> rfl
      split
      · exact hf _ step
      · exact stays_replyTo _ _ _ (hf _ step)
    · refine stays_writeWhole _ _ clock fun t k => ?_
      unfold answer
      split
      · exact stays_replyTo _ _ _ k
      · exact stays_replyTo _ _ _ (hf _ k)

theorem stays_writeCommand {s0 s : State} (p : PortId) (b : Byte) (h : Stays s0 s) : Stays s0 (writeCommand p b s) := by
  unfold writeCommand overrun
  (repeat' first | split | dsimp only) <;> first | exact h | exact stays_withPort h rfl

theorem stays_complete {s0 s : State} (p : PortId) (n : Nat) (bs : List Byte) (now : Bool) (h : Stays s0 s) :
    Stays s0 (complete p n bs now s) := by
  have one : Stays s0 (s.withPort p
      { s.port p with phase := .complete, length := n, params := bs, idleCount := 0, busy := true }) :=
    stays_withPort h rfl
  unfold complete
  dsimp only
  split
  · exact stays_replyTo _ _ _ one
  · split
    · exact stays_resetPort _ one
    · split
      · exact stays_replyTo _ _ _ (stays_ownerAct _ (stays_clockFirst one))
      · exact stays_withPi one fun q => by cases q <;> rfl

theorem stays_writeData {s0 s : State} (p : PortId) (b : Byte) (now : Bool) (h : Stays s0 s) :
    Stays s0 (writeData p b now s) := by
  unfold writeData overrun
  (repeat' first | split | dsimp only) <;> first | exact h | exact stays_withPort h rfl | exact stays_complete _ _ _ _ h

theorem stays_readStatus {s0 s : State} (p : PortId) (h : Stays s0 s) : Stays s0 (readStatus p s) := by
  unfold readStatus
  dsimp only
  split <;> exact stays_withPort h rfl

theorem stays_readReply {s0 s : State} (p : PortId) (h : Stays s0 s) : Stays s0 (readReply p s) := by
  unfold readReply
  dsimp only
  (repeat' split) <;> exact stays_withPort h rfl

theorem stays_requestTimesOut {s0 s : State} (p : PortId) (h : Stays s0 s) : Stays s0 (requestTimesOut p s) := by
  unfold requestTimesOut
  dsimp only
  split
  · exact stays_withPort h rfl
  · exact h

@[simp] theorem keeps_keyAction {s0 s : State} (a : KeyAction) (h : Keeps s0 s) : Keeps s0 (keyAction a s) := by
  unfold keyAction
  (repeat' first | split | dsimp only) <;> simp (maxDischargeDepth := 40) [h]

@[simp] theorem keeps_keyEdgeTo {s0 s : State} (k : Nth) (l : Level) (h : Keeps s0 s) : Keeps s0 (keyEdgeTo k l s) := by
  have one : Keeps s0 (judgeKey (s.withTb { s.tb with
      keys := s.tb.keys.set k { s.tb.keys.get k with settled := l, sampled := true, differed := false } })) :=
    keeps_judgeKey (keeps_withTb h id)
  unfold keyEdgeTo
  dsimp only
  split
  · exact h
  · split
    · exact keeps_keyAction _ one
    · exact one

@[simp] theorem keeps_keyEdgeDue {s0 s : State} (k : Nth) (h : Keeps s0 s) : Keeps s0 (keyEdgeDue k s) := keeps_keyEdgeTo _ _ h

/-- Every event that can come due, but a request's timeout, keeps what every owner's operation keeps. -/
theorem keeps_takeDue {s0 s : State} (d : Due) (n : ∀ p, d ≠ .requestTimeout p) (h : Keeps s0 s) :
    Keeps s0 (takeDue d s) := by
  cases d <;> first | exact absurd rfl (n _) | skip
  all_goals dsimp only [takeDue]
  all_goals simp (maxDischargeDepth := 40) [h]

theorem keeps_takeOne {s0 s : State} (k : DueKind) (n : ∀ p, k ≠ .requestTimeout p) (h : Keeps s0 s) :
    Keeps s0 (takeOne k s) := by
  unfold takeOne
  split
  · exact h
  · rename_i d found
    refine keeps_takeDue _ (fun p e => ?_) (keeps_withDue h)
    subst e
    exact n p (by simpa [Due.kind, eq_comm] using List.find?_some found)

theorem keeps_takeBefore {s0 s : State} (k : DueKind) (h : Keeps s0 s) : Keeps s0 (takeBefore k s) := by
  have one (j : DueKind) (n : ∀ p, j ≠ .requestTimeout p) {t : State} (g : Keeps s0 t) := keeps_takeOne j n g
  have s1 : Keeps s0 (if k = .clockSet then s else clockFirst s) := by
    split
    · exact h
    · exact keeps_clockFirst h
  unfold takeBefore
  dsimp only
  generalize (if k = DueKind.clockSet then s else clockFirst s) = u at s1 ⊢
  split
  · exact one .link (by intro p e; cases e) s1
  · exact one .cueCounts (by intro p e; cases e) s1
  · split
    · exact one .output (by intro p e; cases e) s1
    · exact s1
  · exact s1

theorem keeps_stageRow {s0 s : State} (k : DueKind) (o : State → Bool) (n : ∀ p, k ≠ .requestTimeout p) (h : Keeps s0 s) :
    Keeps s0 (stageRow k o s) := by
  unfold stageRow
  dsimp only
  split
  · exact keeps_takeOne _ n (keeps_takeBefore _ h)
  · exact h

theorem keeps_directRow {s0 s : State} (d : Due) (f : State → State) (h : Keeps s0 s)
    (hf : ∀ t, Keeps s0 t → Keeps s0 (f t)) : Keeps s0 (directRow d f s) :=
  hf _ (keeps_withDue (keeps_clockFirst h))

/-- Every event that can come due keeps what everything within a boundary keeps. -/
theorem stays_takeDue {s0 s : State} (d : Due) (h : Stays s0 s) : Stays s0 (takeDue d s) := by
  by_cases n : ∃ p, d = .requestTimeout p
  · obtain ⟨p, rfl⟩ := n
    exact stays_requestTimesOut p h
  · exact h.trans (keeps_takeDue d (fun p e => n ⟨p, e⟩) (keeps_refl s)).toStays

theorem stays_takeOne {s0 s : State} (k : DueKind) (h : Stays s0 s) : Stays s0 (takeOne k s) := by
  unfold takeOne
  split
  · exact h
  · exact stays_takeDue _ (h.trans (keeps_withDue (keeps_refl s)).toStays)

theorem stays_takeKind {s0 s : State} (k : DueKind) (h : Stays s0 s) : Stays s0 (takeKind k s) :=
  stays_takeOne k (h.trans (keeps_takeBefore k (keeps_refl s)).toStays)

theorem stays_drain {s0 s : State} (keep : DueKind → Bool) (n : Nat) (h : Stays s0 s) : Stays s0 (drain keep n s) := by
  induction n generalizing s with
  | zero => exact h
  | succ n ih =>
    unfold drain
    split
    · exact h
    · exact ih (stays_takeKind _ h)

/-- The events a boundary names first keep what everything within a boundary keeps. -/
theorem stays_takeKinds {s0 : State} (ks : List DueKind) : ∀ {s : State}, Stays s0 s →
    Stays s0 (ks.foldl (fun s k => takeKind k s) s) := by
  induction ks with
  | nil => intro s h; exact h
  | cons k ks ih => intro s h; exact ih (stays_takeKind k h)

/-! ### Boundaries and resets -/

@[simp] theorem keeps_firstSampling {s0 s : State} (b : State) (h : Keeps s0 s) : Keeps s0 (firstSampling b s) := by
  unfold firstSampling
  split
  · exact h
  · exact keeps_judgeKey (keeps_clockFirst h)

/-- A boundary's counts change no line's state. -/
theorem tick_state (r : Line) (ring loop : Level) : (r.tick ring loop).state = r.state := by
  unfold Line.tick
  dsimp only
  split <;> rfl

/-- What a boundary does at once: its number, the blocks of the period, and the invariant. -/
theorem latch_spec (i : PeriodInput) (s : State) :
    (latch i s).pending = s.pending ∧ (latch i s).boundaryNo = s.boundaryNo + 1 ∧
    (latch i s).audio.prev = s.audio.cur ∧ (latch i s).audio.cur.inputs = formInputs i ∧
    (∀ p, ((latch i s).port p).init = (s.port p).init) ∧ (Inv s → Inv (latch i s)) := by
  obtain ⟨s1, e, k⟩ : ∃ s1 : State, (Keeps s1 (latch i s)) ∧
      (s1.pending = s.pending ∧ s1.boundaryNo = s.boundaryNo + 1 ∧ s1.audio.prev = s.audio.cur ∧
       s1.audio.cur.inputs = formInputs i ∧ (∀ p, (s1.port p).init = (s.port p).init) ∧ (Inv s → Inv s1)) := by
    refine ⟨_, keeps_withDue (keeps_refl _), rfl, rfl, rfl, rfl, ?_, ?_⟩
    · intro p
      cases p
      · show (Port.tick s.pi.a).init = _
        unfold Port.tick
        split <;> rfl
      · show (Port.tick s.pi.b).init = _
        unfold Port.tick
        split <;> rfl
      · show (Port.tick s.pi.c).init = _
        unfold Port.tick
        split <;> rfl
    · intro inv
      refine { inv with clock := ⟨?_, inv.clock.2⟩, lines := inv.lines.of_states rfl rfl rfl fun l => ?_
                        site := inv.site.of_eq rfl rfl rfl rfl }
      swap
      · cases l <;> exact tick_state _ _ _
      show (if _ then _ else _) < _
      split
      · exact inv.clock.1
      · exact clockAfter_lt _ inv.clock.1
  exact ⟨e.pending.trans k.1, e.boundaryNo.trans k.2.1, e.prev.trans k.2.2.1, e.inputs.trans k.2.2.2.1,
    fun p => (e.init p).trans (k.2.2.2.2.1 p), fun inv => e.inv (k.2.2.2.2.2 inv)⟩

/-- A port reset by its init pin keeps the invariant. -/
theorem inv_portInit (p : PortId) (l : Level) (s : State) (h : Inv s) : Inv (portInit p l s) := by
  have port (v : Port) : Inv (s.withPort p v) := { h with }
  unfold portInit
  split
  · exact (stays_resetPort p (stays_refl _)).inv (port _)
  · exact port _

theorem portInit_pending (p : PortId) (l : Level) (s : State) :
    (portInit p l s).pending = s.pending ∧ (portInit p l s).boundaryNo = s.boundaryNo := by
  unfold portInit
  split
  · exact ⟨(stays_resetPort p (stays_refl _)).pending, (stays_resetPort p (stays_refl _)).boundaryNo⟩
  · exact ⟨rfl, rfl⟩

/-- The chip reset's values keep the invariant. -/
theorem inv_resetValues {s : State} (k : Inv s) : Inv (resetValues s) where
  clock := ⟨k.clock.1, fun _ e => by cases e⟩
  stack := (⟨List.Perm.refl _, by decide, by decide, by decide⟩ : StackSound ({} : AIR))
  cue := (⟨Nat.zero_le _, List.nodup_nil, fun _ h => (List.not_mem_nil h).elim, by decide, by decide⟩ : CueSound ({} : CUE))
  lines := LinesSound.init
  ring := RingSound.reset k.ring
  alerts := Nat.zero_le _
  known := Nat.zero_le _
  commands := Nat.zero_le _
  log := k.log
  delay := DelaySound.init _
  site := .init rfl rfl rfl

/-- The chip reset keeps the invariant. -/
theorem inv_chipReset (s : State) (h : Inv s) : Inv (chipReset s) :=
  (keeps_logEntry _ _ _ (keeps_refl (resetValues (clockFirst s)))).inv
    (inv_resetValues ((keeps_clockFirst (keeps_refl s)).inv h))

/-- The chip reset brings no boundary and touches no queue of commands. -/
theorem chipReset_pending (s : State) :
    (chipReset s).pending = s.pending ∧ (chipReset s).boundaryNo = s.boundaryNo ∧ (chipReset s).audio.prev = s.audio.prev ∧
    (chipReset s).audio.cur.inputs = s.audio.cur.inputs := by
  have clock := keeps_clockFirst (keeps_refl s)
  have last : Keeps (resetValues (clockFirst s)) (chipReset s) := keeps_logEntry _ _ _ (keeps_refl _)
  exact ⟨last.pending.trans clock.pending, last.boundaryNo.trans clock.boundaryNo, last.prev.trans clock.prev,
    last.inputs.trans clock.inputs⟩

end Sys2Proof.Machine
end

