-- ==== Sys2Proof/Laws/Lengths.lean ====
section
/-! SUPPORT. The lengths the catalogue allows a request are those of the requests that are read from their bytes (R195, section
10.6). -/

set_option maxRecDepth 4000
set_option maxHeartbeats 4000000

open Sys2Proof Sys2Proof.Machine

namespace Sys2Proof.Laws

/-- A request of the catalogue that is read has a length the catalogue allows. -/
theorem allowsLength_of_decode (p : PortId) (code : Nat) (bs : List Byte) (ps : List PortId)
    (hc : portsOf code = some ps) (h : (decodeRequest p code bs).isSome) : AllowsLength code bs := by
  have fixed : ∀ ls, (code, ls) ∈ fixedLengths → bs.length ∈ ls → AllowsLength code bs := fun ls hm hl => Or.inl ⟨ls, hm, hl⟩
  have ite : ∀ (c : Prop) [Decidable c] (o : Option Instr), (if c then o else none).isSome → c := fun c _ o h => by
    by_cases hc : c
    · exact hc
    · rw [if_neg hc] at h; cases h
  have hcode : code ∈ [1, 2, 3, 8, 16, 24, 40, 56, 64, 65, 80, 88, 96, 112] ∨ code ∈ [9, 11, 17, 18, 19, 20, 41, 42, 43, 44, 45, 46, 47, 48, 49, 57, 58, 59, 60, 71, 72, 89] ∨
      code ∈ [10, 21, 25, 26, 27, 28, 29, 31, 32, 68, 69, 70, 81, 82, 83, 97, 98, 99, 100, 101, 102, 103] ∨ code = 30 ∨ code ∈ [66, 67] := by
    unfold portsOf at hc
    split at hc
    · exact Or.inl ‹_›
    · split at hc
      · exact Or.inr (Or.inl ‹_›)
      · split at hc
        · exact Or.inr (Or.inr (Or.inl ‹_›))
        · split at hc
          · exact Or.inr (Or.inr (Or.inr (Or.inl ‹_›)))
          · split at hc
            · exact Or.inr (Or.inr (Or.inr (Or.inr ‹_›)))
            · cases hc
  clear hc
  simp only [List.mem_cons, List.not_mem_nil, or_false] at hcode
  rcases hcode with hcode | hcode | hcode | hcode | hcode
  · rcases hcode with rfl | rfl | rfl | rfl | rfl | rfl | rfl | rfl | rfl | rfl | rfl | rfl | rfl | rfl
    · exact fixed [0] (by decide) (by rcases bs with _ | ⟨x1, bs⟩ <;> first | exact absurd h Bool.false_ne_true | simp)
    · exact fixed [2] (by decide) (by rcases bs with _ | ⟨x1, _ | ⟨x2, _ | ⟨x3, bs⟩⟩⟩ <;> first | exact absurd h Bool.false_ne_true | simp)
    · exact fixed [0] (by decide) (by rcases bs with _ | ⟨x1, bs⟩ <;> first | exact absurd h Bool.false_ne_true | simp)
    · exact fixed [0, 1] (by decide) (by rcases bs with _ | ⟨x1, _ | ⟨x2, bs⟩⟩ <;> first | exact absurd h Bool.false_ne_true | simp)
    · exact fixed [0, 1] (by decide) (by rcases bs with _ | ⟨x1, _ | ⟨x2, bs⟩⟩ <;> first | exact absurd h Bool.false_ne_true | simp)
    · exact fixed [2] (by decide) (by rcases bs with _ | ⟨x1, _ | ⟨x2, _ | ⟨x3, bs⟩⟩⟩ <;> first | exact absurd h Bool.false_ne_true | simp)
    · exact fixed [0, 1] (by decide) (by rcases bs with _ | ⟨x1, _ | ⟨x2, bs⟩⟩ <;> first | exact absurd h Bool.false_ne_true | simp)
    · exact fixed [0] (by decide) (by rcases bs with _ | ⟨x1, bs⟩ <;> first | exact absurd h Bool.false_ne_true | simp)
    · exact fixed [1, 2] (by decide) (by rcases bs with _ | ⟨x1, _ | ⟨x2, _ | ⟨x3, bs⟩⟩⟩ <;> first | exact absurd h Bool.false_ne_true | simp)
    · exact fixed [2] (by decide) (by rcases bs with _ | ⟨x1, _ | ⟨x2, _ | ⟨x3, bs⟩⟩⟩ <;> first | exact absurd h Bool.false_ne_true | simp)
    · exact fixed [0, 1] (by decide) (by rcases bs with _ | ⟨x1, _ | ⟨x2, bs⟩⟩ <;> first | exact absurd h Bool.false_ne_true | simp)
    · exact fixed [0, 1] (by decide) (by rcases bs with _ | ⟨x1, _ | ⟨x2, bs⟩⟩ <;> first | exact absurd h Bool.false_ne_true | simp)
    · exact fixed [0, 1] (by decide) (by rcases bs with _ | ⟨x1, _ | ⟨x2, bs⟩⟩ <;> first | exact absurd h Bool.false_ne_true | simp)
    · exact fixed [5] (by decide) (by rcases bs with _ | ⟨x1, _ | ⟨x2, _ | ⟨x3, _ | ⟨x4, _ | ⟨x5, _ | ⟨x6, bs⟩⟩⟩⟩⟩⟩ <;> first | exact absurd h Bool.false_ne_true | simp)
  · rcases hcode with rfl | rfl | rfl | rfl | rfl | rfl | rfl | rfl | rfl | rfl | rfl | rfl | rfl | rfl | rfl | rfl | rfl | rfl | rfl | rfl | rfl | rfl
    · exact fixed [1] (by decide) (by rcases bs with _ | ⟨x1, _ | ⟨x2, bs⟩⟩ <;> first | exact absurd h Bool.false_ne_true | simp)
    · exact fixed [4] (by decide) (by rcases bs with _ | ⟨x1, _ | ⟨x2, _ | ⟨x3, _ | ⟨x4, _ | ⟨x5, bs⟩⟩⟩⟩⟩ <;> first | exact absurd h Bool.false_ne_true | simp)
    · exact fixed [1] (by decide) (by rcases bs with _ | ⟨x1, _ | ⟨x2, bs⟩⟩ <;> first | exact absurd h Bool.false_ne_true | simp)
    · exact fixed [1] (by decide) (by rcases bs with _ | ⟨x1, _ | ⟨x2, bs⟩⟩ <;> first | exact absurd h Bool.false_ne_true | simp)
    · exact fixed [0] (by decide) (by rcases bs with _ | ⟨x1, bs⟩ <;> first | exact absurd h Bool.false_ne_true | simp)
    · exact fixed [0] (by decide) (by rcases bs with _ | ⟨x1, bs⟩ <;> first | exact absurd h Bool.false_ne_true | simp)
    · exact fixed [1] (by decide) (by rcases bs with _ | ⟨x1, _ | ⟨x2, bs⟩⟩ <;> first | exact absurd h Bool.false_ne_true | simp)
    · exact fixed [1] (by decide) (by rcases bs with _ | ⟨x1, _ | ⟨x2, bs⟩⟩ <;> first | exact absurd h Bool.false_ne_true | simp)
    · exact fixed [1] (by decide) (by rcases bs with _ | ⟨x1, _ | ⟨x2, bs⟩⟩ <;> first | exact absurd h Bool.false_ne_true | simp)
    · rcases bs with _ | ⟨x, _ | ⟨n, bs⟩⟩
      · cases h
      · exact Or.inr (Or.inl ⟨rfl, Or.inl rfl⟩)
      · have := ite _ _ (show (if bs.length = n.toNat then _ else none : Option Instr).isSome from h)
        exact Or.inr (Or.inl ⟨rfl, Or.inr ⟨by simp, by simp; omega⟩⟩)
    · exact fixed [1] (by decide) (by rcases bs with _ | ⟨x1, _ | ⟨x2, bs⟩⟩ <;> first | exact absurd h Bool.false_ne_true | simp)
    · rcases bs with _ | ⟨x, _ | ⟨n, bs⟩⟩
      · cases h
      · cases h
      · have := ite _ _ (show (if bs.length = n.toNat then _ else none : Option Instr).isSome from h)
        exact Or.inr (Or.inr (Or.inl ⟨rfl, by simp, by simp; omega⟩))
    · exact fixed [0, 1] (by decide) (by rcases bs with _ | ⟨x1, _ | ⟨x2, bs⟩⟩ <;> first | exact absurd h Bool.false_ne_true | simp)
    · exact fixed [1] (by decide) (by rcases bs with _ | ⟨x1, _ | ⟨x2, bs⟩⟩ <;> first | exact absurd h Bool.false_ne_true | simp)
    · exact fixed [6] (by decide) (by rcases bs with _ | ⟨x1, _ | ⟨x2, _ | ⟨x3, _ | ⟨x4, _ | ⟨x5, _ | ⟨x6, _ | ⟨x7, bs⟩⟩⟩⟩⟩⟩⟩ <;> first | exact absurd h Bool.false_ne_true | simp)
    · exact fixed [2] (by decide) (by rcases bs with _ | ⟨x1, _ | ⟨x2, _ | ⟨x3, bs⟩⟩⟩ <;> first | exact absurd h Bool.false_ne_true | simp)
    · exact fixed [0] (by decide) (by rcases bs with _ | ⟨x1, bs⟩ <;> first | exact absurd h Bool.false_ne_true | simp)
    · exact fixed [0] (by decide) (by rcases bs with _ | ⟨x1, bs⟩ <;> first | exact absurd h Bool.false_ne_true | simp)
    · exact fixed [3] (by decide) (by rcases bs with _ | ⟨x1, _ | ⟨x2, _ | ⟨x3, _ | ⟨x4, bs⟩⟩⟩⟩ <;> first | exact absurd h Bool.false_ne_true | simp)
    · exact fixed [0, 4] (by decide) (by rcases bs with _ | ⟨x1, _ | ⟨x2, _ | ⟨x3, _ | ⟨x4, _ | ⟨x5, bs⟩⟩⟩⟩⟩ <;> first | exact absurd h Bool.false_ne_true | simp)
    · exact fixed [4] (by decide) (by rcases bs with _ | ⟨x1, _ | ⟨x2, _ | ⟨x3, _ | ⟨x4, _ | ⟨x5, bs⟩⟩⟩⟩⟩ <;> first | exact absurd h Bool.false_ne_true | simp)
    · exact fixed [0] (by decide) (by rcases bs with _ | ⟨x1, bs⟩ <;> first | exact absurd h Bool.false_ne_true | simp)
  · rcases hcode with rfl | rfl | rfl | rfl | rfl | rfl | rfl | rfl | rfl | rfl | rfl | rfl | rfl | rfl | rfl | rfl | rfl | rfl | rfl | rfl | rfl | rfl
    · exact fixed [4] (by decide) (by rcases bs with _ | ⟨x1, _ | ⟨x2, _ | ⟨x3, _ | ⟨x4, _ | ⟨x5, bs⟩⟩⟩⟩⟩ <;> first | exact absurd h Bool.false_ne_true | simp)
    · exact fixed [0] (by decide) (by rcases bs with _ | ⟨x1, bs⟩ <;> first | exact absurd h Bool.false_ne_true | simp)
    · exact fixed [19] (by decide) (by rcases bs with _ | ⟨x1, _ | ⟨x2, _ | ⟨x3, _ | ⟨x4, _ | ⟨x5, _ | ⟨x6, _ | ⟨x7, _ | ⟨x8, _ | ⟨x9, _ | ⟨x10, _ | ⟨x11, _ | ⟨x12, _ | ⟨x13, _ | ⟨x14, _ | ⟨x15, _ | ⟨x16, _ | ⟨x17, _ | ⟨x18, _ | ⟨x19, _ | ⟨x20, bs⟩⟩⟩⟩⟩⟩⟩⟩⟩⟩⟩⟩⟩⟩⟩⟩⟩⟩⟩⟩ <;> first | exact absurd h Bool.false_ne_true | simp)
    · exact fixed [21] (by decide) (by rcases bs with _ | ⟨x1, _ | ⟨x2, _ | ⟨x3, _ | ⟨x4, _ | ⟨x5, _ | ⟨x6, _ | ⟨x7, _ | ⟨x8, _ | ⟨x9, _ | ⟨x10, _ | ⟨x11, _ | ⟨x12, _ | ⟨x13, _ | ⟨x14, _ | ⟨x15, _ | ⟨x16, _ | ⟨x17, _ | ⟨x18, _ | ⟨x19, _ | ⟨x20, _ | ⟨x21, _ | ⟨x22, bs⟩⟩⟩⟩⟩⟩⟩⟩⟩⟩⟩⟩⟩⟩⟩⟩⟩⟩⟩⟩⟩⟩ <;> first | exact absurd h Bool.false_ne_true | simp)
    · exact fixed [2] (by decide) (by rcases bs with _ | ⟨x1, _ | ⟨x2, _ | ⟨x3, bs⟩⟩⟩ <;> first | exact absurd h Bool.false_ne_true | simp)
    · exact fixed [2] (by decide) (by rcases bs with _ | ⟨x1, _ | ⟨x2, _ | ⟨x3, bs⟩⟩⟩ <;> first | exact absurd h Bool.false_ne_true | simp)
    · exact fixed [0, 2] (by decide) (by rcases bs with _ | ⟨x1, _ | ⟨x2, _ | ⟨x3, bs⟩⟩⟩ <;> first | exact absurd h Bool.false_ne_true | simp)
    · exact fixed [1] (by decide) (by rcases bs with _ | ⟨x1, _ | ⟨x2, bs⟩⟩ <;> first | exact absurd h Bool.false_ne_true | simp)
    · exact fixed [0] (by decide) (by rcases bs with _ | ⟨x1, bs⟩ <;> first | exact absurd h Bool.false_ne_true | simp)
    · rcases bs with _ | ⟨n, bs⟩
      · cases h
      · have := ite _ _ (show (if bs.length = 3 * n.toNat then _ else none : Option Instr).isSome from h)
        exact Or.inr (Or.inr (Or.inr (Or.inr (Or.inl ⟨rfl, by simp, by simp; omega⟩))))
    · exact fixed [4] (by decide) (by rcases bs with _ | ⟨x1, _ | ⟨x2, _ | ⟨x3, _ | ⟨x4, _ | ⟨x5, bs⟩⟩⟩⟩⟩ <;> first | exact absurd h Bool.false_ne_true | simp)
    · exact fixed [10] (by decide) (by rcases bs with _ | ⟨x1, _ | ⟨x2, _ | ⟨x3, _ | ⟨x4, _ | ⟨x5, _ | ⟨x6, _ | ⟨x7, _ | ⟨x8, _ | ⟨x9, _ | ⟨x10, _ | ⟨x11, bs⟩⟩⟩⟩⟩⟩⟩⟩⟩⟩⟩ <;> first | exact absurd h Bool.false_ne_true | simp)
    · exact fixed [0] (by decide) (by rcases bs with _ | ⟨x1, bs⟩ <;> first | exact absurd h Bool.false_ne_true | simp)
    · exact fixed [0] (by decide) (by rcases bs with _ | ⟨x1, bs⟩ <;> first | exact absurd h Bool.false_ne_true | simp)
    · exact fixed [6] (by decide) (by rcases bs with _ | ⟨x1, _ | ⟨x2, _ | ⟨x3, _ | ⟨x4, _ | ⟨x5, _ | ⟨x6, _ | ⟨x7, bs⟩⟩⟩⟩⟩⟩⟩ <;> first | exact absurd h Bool.false_ne_true | simp)
    · exact fixed [0] (by decide) (by rcases bs with _ | ⟨x1, bs⟩ <;> first | exact absurd h Bool.false_ne_true | simp)
    · exact fixed [0] (by decide) (by rcases bs with _ | ⟨x1, bs⟩ <;> first | exact absurd h Bool.false_ne_true | simp)
    · exact fixed [0] (by decide) (by rcases bs with _ | ⟨x1, bs⟩ <;> first | exact absurd h Bool.false_ne_true | simp)
    · exact fixed [0] (by decide) (by rcases bs with _ | ⟨x1, bs⟩ <;> first | exact absurd h Bool.false_ne_true | simp)
    · rcases bs with _ | ⟨x, _ | ⟨y, _ | ⟨z, _ | ⟨n, bs⟩⟩⟩⟩
      all_goals try (cases h)
      have := ite _ _ (show (if bs.length = n.toNat then _ else none : Option Instr).isSome from h)
      exact Or.inr (Or.inr (Or.inr (Or.inr (Or.inr ⟨rfl, by simp, by simp; omega⟩))))
    · exact fixed [5] (by decide) (by rcases bs with _ | ⟨x1, _ | ⟨x2, _ | ⟨x3, _ | ⟨x4, _ | ⟨x5, _ | ⟨x6, bs⟩⟩⟩⟩⟩⟩ <;> first | exact absurd h Bool.false_ne_true | simp)
    · exact fixed [9] (by decide) (by rcases bs with _ | ⟨x1, _ | ⟨x2, _ | ⟨x3, _ | ⟨x4, _ | ⟨x5, _ | ⟨x6, _ | ⟨x7, _ | ⟨x8, _ | ⟨x9, _ | ⟨x10, bs⟩⟩⟩⟩⟩⟩⟩⟩⟩⟩ <;> first | exact absurd h Bool.false_ne_true | simp)
  · rcases hcode with rfl
    · exact fixed [2] (by decide) (by rcases bs with _ | ⟨x1, _ | ⟨x2, _ | ⟨x3, bs⟩⟩⟩ <;> first | exact absurd h Bool.false_ne_true | simp)
  · rcases hcode with rfl | rfl
    · rcases bs with _ | ⟨x1, _ | ⟨x2, _ | ⟨x3, _ | ⟨x4, _ | ⟨x5, _ | ⟨x6, _ | ⟨x7, _ | ⟨x8, _ | ⟨x9, _ | ⟨x10, _ | ⟨x11, _ | ⟨x12, _ | ⟨x13, bs⟩⟩⟩⟩⟩⟩⟩⟩⟩⟩⟩⟩⟩
      all_goals try (cases h)
      have hc : bs.length = 3 * x13.toNat := by
        by_contra hn
        have : decodeRequest p 66 (x1 :: x2 :: x3 :: x4 :: x5 :: x6 :: x7 :: x8 :: x9 :: x10 :: x11 :: x12 :: x13 :: bs) = none := by
          show (if bs.length = 3 * x13.toNat then _ else none : Option HeaderFields).map _ = none
          rw [if_neg hn]; rfl
        rw [this] at h; cases h
      exact Or.inr (Or.inr (Or.inr (Or.inl ⟨rfl, by simp, by simp; omega⟩)))
    · exact fixed [4] (by decide) (by rcases bs with _ | ⟨x1, _ | ⟨x2, _ | ⟨x3, _ | ⟨x4, _ | ⟨x5, bs⟩⟩⟩⟩⟩ <;> first | exact absurd h Bool.false_ne_true | simp)

/-- A request of a length the catalogue allows is read. -/
theorem decode_of_allowsLength (p : PortId) (code : Nat) (bs : List Byte) (h : AllowsLength code bs) :
    (decodeRequest p code bs).isSome := by
  rcases h with ⟨ls, hm, hl⟩ | ⟨rfl, h⟩ | ⟨rfl, h1, h⟩ | ⟨rfl, h1, h⟩ | ⟨rfl, h1, h⟩ | ⟨rfl, h1, h⟩
  · simp only [fixedLengths, List.mem_append, List.mem_cons, Prod.mk.injEq, List.not_mem_nil] at hm
    rcases hm with hm | hm <;> (repeat' (rcases hm with ⟨rfl, rfl⟩ | hm)) <;>
    (try simp only [List.mem_cons, List.not_mem_nil, or_false] at hl) <;>
    (try rcases hl with hl | hl) <;>
    (repeat (first | rfl | omega | (exfalso; (try simp only [List.length_cons, List.length_nil] at hl); omega) | rcases bs with _ | ⟨x, bs⟩))
  · rcases h with h | ⟨h1, h⟩
    · rcases bs with _ | ⟨x, _ | ⟨y, bs⟩⟩ <;> simp at h ⊢; rfl
    · rcases bs with _ | ⟨x, _ | ⟨y, bs⟩⟩ <;> simp at h h1
      have : bs.length = y.toNat := by omega
      show (if bs.length = y.toNat then _ else _ : Option Instr).isSome
      rw [if_pos this]; rfl
  · rcases bs with _ | ⟨x, _ | ⟨y, bs⟩⟩ <;> simp at h h1
    have : bs.length = y.toNat := by omega
    show (if bs.length = y.toNat then _ else _ : Option Instr).isSome
    rw [if_pos this]; rfl
  · rcases bs with _ | ⟨x1, _ | ⟨x2, _ | ⟨x3, _ | ⟨x4, _ | ⟨x5, _ | ⟨x6, _ | ⟨x7, _ | ⟨x8, _ | ⟨x9, _ | ⟨x10, _ | ⟨x11, _ | ⟨x12, _ | ⟨x13, bs⟩⟩⟩⟩⟩⟩⟩⟩⟩⟩⟩⟩⟩ <;> simp at h h1
    have : bs.length = 3 * x13.toNat := by omega
    show ((if bs.length = 3 * x13.toNat then _ else none : Option HeaderFields).map _).isSome
    rw [if_pos this]; rfl
  · rcases bs with _ | ⟨x, bs⟩ <;> simp at h h1
    have : bs.length = 3 * x.toNat := by omega
    show (if bs.length = 3 * x.toNat then _ else _ : Option Instr).isSome
    rw [if_pos this]; rfl
  · rcases bs with _ | ⟨x, _ | ⟨y, _ | ⟨z, _ | ⟨w, bs⟩⟩⟩⟩ <;> simp at h h1
    have : bs.length = w.toNat := by omega
    show (if bs.length = w.toNat then _ else _ : Option Instr).isSome
    rw [if_pos this]; rfl

end Sys2Proof.Laws
end

