-- ==== Sys2Proof/Laws/PerInstr.lean ====
section
/-! SUPPORT. The request codec, constructor by constructor: a well-formed request is what its bytes decode to (R195, section
10.6). A command that is no request says nothing. -/

set_option Elab.async false

namespace Sys2Proof.Laws.Encoding

open Sys2Proof

/-- The bytes of a well-formed request decode to it. -/
def Statement (i : Instr) : Prop :=
  i.wellFormed = true → ∀ r, i.request = some r → decodeRequest r.port r.code r.params = some i

/-- A command that is no request satisfies the statement. -/
theorem notRequest {i : Instr} (none : i.request = none) : Statement i := by
  intro _ r h
  rw [none] at h
  cases h

theorem powerOn : Statement (.powerOn) := notRequest rfl

theorem chipReset : Statement (.chipReset) := notRequest rfl

theorem portInit (p : PortId) (level : Level) : Statement (.portInit p level) := notRequest rfl

theorem blockBoundary (inp : PeriodInput) (first later : List DueKind) : Statement (.blockBoundary inp first later) := notRequest rfl

theorem returnFrame (bytes : List Byte) : Statement (.returnFrame bytes) := notRequest rfl

theorem linkUp : Statement (.linkUp) := notRequest rfl

theorem linkDegraded : Statement (.linkDegraded) := notRequest rfl

theorem linkDown : Statement (.linkDown) := notRequest rfl

theorem commandTimeout : Statement (.commandTimeout) := notRequest rfl

theorem carryingReport : Statement (.carryingReport) := notRequest rfl

theorem slotLengthElapsed : Statement (.slotLengthElapsed) := notRequest rfl

theorem confirmLimit : Statement (.confirmLimit) := notRequest rfl

theorem windowTimeDue : Statement (.windowTimeDue) := notRequest rfl

theorem houseLock : Statement (.houseLock) := notRequest rfl

theorem houseSyncLoss : Statement (.houseSyncLoss) := notRequest rfl

theorem clockSelectionTaken : Statement (.clockSelectionTaken) := notRequest rfl

theorem clockSetTakesEffect : Statement (.clockSetTakesEffect) := notRequest rfl

theorem keyLineEdge (k : Nth) (level : Level) : Statement (.keyLineEdge k level) := notRequest rfl

theorem dropLines : Statement (.dropLines) := notRequest rfl

theorem ringEdge (l : Nth) : Statement (.ringEdge l) := notRequest rfl

theorem ringTimeout (l : Nth) : Statement (.ringTimeout l) := notRequest rfl

theorem loopSenseDrop (l : Nth) : Statement (.loopSenseDrop l) := notRequest rfl

theorem clearingEnd (l : Nth) : Statement (.clearingEnd l) := notRequest rfl

theorem gateReport : Statement (.gateReport) := notRequest rfl

theorem buildStep : Statement (.buildStep) := notRequest rfl

theorem shrinkStep : Statement (.shrinkStep) := notRequest rfl

theorem dumpReport : Statement (.dumpReport) := notRequest rfl

theorem seguePoint : Statement (.seguePoint) := notRequest rfl

theorem entryLengthEnd : Statement (.entryLengthEnd) := notRequest rfl

theorem openLengthLimit : Statement (.openLengthLimit) := notRequest rfl

theorem crossfadeEnd : Statement (.crossfadeEnd) := notRequest rfl

theorem runLineDelayedRise : Statement (.runLineDelayedRise) := notRequest rfl

theorem hardTimeDue : Statement (.hardTimeDue) := notRequest rfl

theorem breakInDue : Statement (.breakInDue) := notRequest rfl

theorem joinEndRelease : Statement (.joinEndRelease) := notRequest rfl

theorem withdrawalWithoutRecord : Statement (.withdrawalWithoutRecord) := notRequest rfl

theorem holdExpiry : Statement (.holdExpiry) := notRequest rfl

theorem advisoryWaitExpiry : Statement (.advisoryWaitExpiry) := notRequest rfl

theorem validityExpiry : Statement (.validityExpiry) := notRequest rfl

theorem alertLengthReached : Statement (.alertLengthReached) := notRequest rfl

theorem goLineDelayedRise : Statement (.goLineDelayedRise) := notRequest rfl

theorem silenceStart : Statement (.silenceStart) := notRequest rfl

theorem silenceEnd : Statement (.silenceEnd) := notRequest rfl

theorem commandAddressWrite (p : PortId) (byte : Byte) : Statement (.commandAddressWrite p byte) := notRequest rfl

theorem dataAddressWrite (p : PortId) (byte : Byte) (now : Bool) : Statement (.dataAddressWrite p byte now) := notRequest rfl

theorem statusRead (p : PortId) : Statement (.statusRead p) := notRequest rfl

theorem replyByteRead (p : PortId) : Statement (.replyByteRead p) := notRequest rfl

theorem requestTimeout (p : PortId) : Statement (.requestTimeout p) := notRequest rfl

theorem readNotices (p : PortId) : Statement (.readNotices p) := by
  intro _ r h
  cases h
  rfl

theorem setNoticeMask (p : PortId) (mask : Half) : Statement (.setNoticeMask p mask) := by
  intro _ r h
  cases h
  show some _ = some _
  rw [half_of_halfBytes]

theorem portReset (p : PortId) : Statement (.portReset p) := by
  intro _ r h
  cases h
  rfl

theorem readTimebase (p : PortId) (part : Option Byte) : Statement (.readTimebase p part) := by
  intro _ r h
  cases h
  cases part <;> rfl

theorem selectClock (p : PortId) (source : Byte) : Statement (.selectClock p source) := by
  intro _ r h
  cases h
  rfl

theorem setClock (p : PortId) (time : Long) : Statement (.setClock p time) := by
  intro _ r h
  cases h
  show some _ = some _
  rw [long_of_longBytes]

theorem setKeyLine (p : PortId) (line action edge level : Byte) : Statement (.setKeyLine p line action edge level) := by
  intro _ r h
  cases h
  rfl

theorem readAir (p : PortId) (part : Option Byte) : Statement (.readAir p part) := by
  intro _ r h
  cases h
  cases part <;> rfl

theorem setMode (p : PortId) (mode : Byte) : Statement (.setMode p mode) := by
  intro _ r h
  cases h
  rfl

theorem setMaxDepth (p : PortId) (depth : Byte) : Statement (.setMaxDepth p depth) := by
  intro _ r h
  cases h
  rfl

theorem liveInsert (p : PortId) : Statement (.liveInsert p) := by
  intro _ r h
  cases h
  rfl

theorem liveInsertEnd (p : PortId) : Statement (.liveInsertEnd p) := by
  intro _ r h
  cases h
  rfl

theorem clearResumeLost (p : PortId) : Statement (.clearResumeLost p) := by
  intro _ r h
  cases h
  rfl

theorem readCue (p : PortId) (start : Half) : Statement (.readCue p start) := by
  intro _ r h
  cases h
  show some _ = some _
  rw [half_of_halfBytes]

theorem append (p : PortId) (f : EntryFields) : Statement (.append p f) := by
  intro _ r h
  cases h
  show (EntryFields.ofBytes f.bytes).map _ = _
  rw [EntryFields.ofBytes_bytes]
  rfl

theorem insert (p : PortId) (anchor : Half) (f : EntryFields) : Statement (.insert p anchor f) := by
  intro _ r h
  cases h
  show (EntryFields.ofBytes f.bytes).map _ = _
  rw [EntryFields.ofBytes_bytes, half_of_halfBytes]
  rfl

theorem delete (p : PortId) (serial : Half) : Statement (.delete p serial) := by
  intro _ r h
  cases h
  show some _ = some _
  rw [half_of_halfBytes]

theorem skip (p : PortId) (serial : Half) : Statement (.skip p serial) := by
  intro _ r h
  cases h
  show some _ = some _
  rw [half_of_halfBytes]

theorem take (p : PortId) (expected : Option Half) : Statement (.take p expected) := by
  intro _ r h
  cases expected with
  | none => cases h; rfl
  | some n =>
    cases h
    show some _ = some _
    rw [half_of_halfBytes]

theorem itemEnd (p : PortId) (serial : Half) : Statement (.itemEnd p serial) := by
  intro _ r h
  cases h
  show some _ = some _
  rw [half_of_halfBytes]

theorem setLowWater (p : PortId) (threshold : Byte) : Statement (.setLowWater p threshold) := by
  intro _ r h
  cases h
  rfl

theorem armLowWater (p : PortId) : Statement (.armLowWater p) := by
  intro _ r h
  cases h
  rfl

theorem readLines (p : PortId) (part : Option Byte) : Statement (.readLines p part) := by
  intro _ r h
  cases h
  cases part <;> rfl

theorem answer (p : PortId) (line : Byte) : Statement (.answer p line) := by
  intro _ r h
  cases h
  rfl

theorem hold (p : PortId) (line : Byte) : Statement (.hold p line) := by
  intro _ r h
  cases h
  rfl

theorem screen (p : PortId) (line : Byte) : Statement (.screen p line) := by
  intro _ r h
  cases h
  rfl

theorem ready (p : PortId) (line : Byte) (note : Option (List Byte)) : Statement (.ready p line note) := by
  intro wf r h
  cases note with
  | none => cases h; rfl
  | some note =>
    cases h
    have fits : note.length ≤ 60 := by simpa [Instr.wellFormed] using wf
    show (if _ then _ else _) = _
    rw [if_pos (count_byte (by omega)).symm]

theorem unready (p : PortId) (line : Byte) : Statement (.unready p line) := by
  intro _ r h
  cases h
  rfl

theorem lineNote (p : PortId) (line : Byte) (note : List Byte) : Statement (.lineNote p line note) := by
  intro wf r h
  cases h
  have fits : note.length ≤ 60 := by simpa [Instr.wellFormed] using wf
  show (if _ then _ else _) = _
  rw [if_pos (count_byte (by omega)).symm]

theorem takeLine (p : PortId) (line : Option Byte) : Statement (.takeLine p line) := by
  intro _ r h
  cases line with
  | none => cases h; rfl
  | some n =>
    cases h
    rfl

theorem drop (p : PortId) (line : Byte) : Statement (.drop p line) := by
  intro _ r h
  cases h
  rfl

theorem setLineOptions (p : PortId) (dropOnDump liveCalls edge1 edge2 edge3 edge4 : Byte) : Statement (.setLineOptions p dropOnDump liveCalls edge1 edge2 edge3 edge4) := by
  intro _ r h
  cases h
  rfl

theorem readDelay (p : PortId) : Statement (.readDelay p) := by
  intro _ r h
  cases h
  rfl

theorem engage (p : PortId) (target : Half) : Statement (.engage p target) := by
  intro _ r h
  cases h
  show some _ = some _
  rw [half_of_halfBytes]

theorem disengage (p : PortId) : Statement (.disengage p) := by
  intro _ r h
  cases h
  rfl

theorem dump (p : PortId) : Statement (.dump p) := by
  intro _ r h
  cases h
  rfl

theorem setDelayOptions (p : PortId) (amount : Half) (ratio : Byte) : Statement (.setDelayOptions p amount ratio) := by
  intro _ r h
  cases h
  show some _ = some _
  rw [half_of_halfBytes]

theorem readAlerts (p : PortId) (place : Byte) (part : Option Byte) : Statement (.readAlerts p place part) := by
  intro _ r h
  cases h
  cases part <;> rfl

theorem readAlertTables (p : PortId) (selector start : Byte) : Statement (.readAlertTables p selector start) := by
  intro _ r h
  cases h
  rfl

theorem alertHeader (p : PortId) (h : HeaderFields) : Statement (.alertHeader p h) := by
  intro wf r e
  cases e
  have fits : h.areas.length ≤ 16 := by simpa [Instr.wellFormed] using wf
  show (HeaderFields.ofBytes h.bytes).map _ = _
  rw [HeaderFields.ofBytes_bytes h fits]
  rfl

theorem alertEnd (p : PortId) (originator serial : Half) : Statement (.alertEnd p originator serial) := by
  intro _ r h
  cases h
  show some _ = some _
  rw [half_of_halfBytes, half_of_halfBytes]

theorem setAreas (p : PortId) (codes : List Tri) : Statement (.setAreas p codes) := by
  intro wf r h
  cases h
  have fits : codes.length ≤ 20 := by simpa [Instr.wellFormed] using wf
  show (if _ then _ else _) = _
  rw [if_pos (by rw [triListBytes_length, count_byte (by omega)]), triList_of_triListBytes]

theorem setEventAction (p : PortId) (event1 event2 event3 action : Byte) : Statement (.setEventAction p event1 event2 event3 action) := by
  intro _ r h
  cases h
  rfl

theorem setAlertTimes (p : PortId) (liveHold autoHold advisoryWait : Tri) (wake : Byte) : Statement (.setAlertTimes p liveHold autoHold advisoryWait wake) := by
  intro _ r h
  cases h
  show some _ = some _
  rw [tri_of_triBytes, tri_of_triBytes, tri_of_triBytes]

theorem forwardAlert (p : PortId) (pair : Option (Half × Half)) : Statement (.forwardAlert p pair) := by
  intro _ r h
  rcases pair with _ | ⟨o, n⟩
  · cases h; rfl
  · cases h
    show some _ = some _
    rw [half_of_halfBytes, half_of_halfBytes]

theorem cancelAlert (p : PortId) (originator serial : Half) : Statement (.cancelAlert p originator serial) := by
  intro _ r h
  cases h
  show some _ = some _
  rw [half_of_halfBytes, half_of_halfBytes]

theorem readOutput (p : PortId) (part : Option Byte) : Statement (.readOutput p part) := by
  intro _ r h
  cases h
  cases part <;> rfl

theorem safeOn (p : PortId) : Statement (.safeOn p) := by
  intro _ r h
  cases h
  rfl

theorem safeOff (p : PortId) : Statement (.safeOff p) := by
  intro _ r h
  cases h
  rfl

theorem setSilence (p : PortId) (threshold : Byte) (silenceTime restoreTime : Half) (failover : Byte) : Statement (.setSilence p threshold silenceTime restoreTime failover) := by
  intro _ r h
  cases h
  show some _ = some _
  rw [half_of_halfBytes, half_of_halfBytes]

theorem readLink (p : PortId) (part : Option Byte) : Statement (.readLink p part) := by
  intro _ r h
  cases h
  cases part <;> rfl

theorem linkRestart (p : PortId) : Statement (.linkRestart p) := by
  intro _ r h
  cases h
  rfl

theorem readSite (p : PortId) (part : Option Byte) : Statement (.readSite p part) := by
  intro _ r h
  cases h
  cases part <;> rfl

theorem siteUp (p : PortId) : Statement (.siteUp p) := by
  intro _ r h
  cases h
  rfl

theorem siteDown (p : PortId) : Statement (.siteDown p) := by
  intro _ r h
  cases h
  rfl

theorem siteLow (p : PortId) : Statement (.siteLow p) := by
  intro _ r h
  cases h
  rfl

theorem siteFull (p : PortId) : Statement (.siteFull p) := by
  intro _ r h
  cases h
  rfl

theorem setSiteResource (p : PortId) (resource slot keepInLow : Byte) (label : List Byte) : Statement (.setSiteResource p resource slot keepInLow label) := by
  intro wf r h
  cases h
  have fits : label.length ≤ 58 := by simpa [Instr.wellFormed] using wf
  show (if _ then _ else _) = _
  rw [if_pos (count_byte (by omega)).symm]

theorem setSiteOptions (p : PortId) (slotLength fullStep lowStep restore sequentialOff : Byte) : Statement (.setSiteOptions p slotLength fullStep lowStep restore sequentialOff) := by
  intro _ r h
  cases h
  rfl

theorem setLowWindow (p : PortId) (lowTime fullTime : Long) (enabled : Byte) : Statement (.setLowWindow p lowTime fullTime enabled) := by
  intro _ r h
  cases h
  show some _ = some _
  rw [long_of_longBytes, long_of_longBytes]

theorem readLog (p : PortId) (start : Long) (count : Byte) : Statement (.readLog p start count) := by
  intro _ r h
  cases h
  show some _ = some _
  rw [long_of_longBytes]

end Sys2Proof.Laws.Encoding
end

