-- ==== Sys2Proof/Laws/Readings.lean ====
section
/-! SUPPORT. The values of a reading fit a reply of 61 value bytes (R79, R191, R196). -/

namespace Sys2Proof.Machine

open Sys2Proof

@[simp] theorem beBytes_length (k v : Nat) : (beBytes k v).length = k := by
  induction k with
  | zero => rfl
  | succ k ih => exact congrArg (· + 1) ih

theorem present_length_le {α : Type} (f : α → List Byte) (o : Option α) (n : Nat) (h : ∀ x, (f x).length ≤ n) :
    (present f o).length ≤ n := by
  cases o
  · exact Nat.zero_le _
  · exact h _

/-- A part holds at most 61 bytes: its number, the number of parts, and 59 (R196). -/
theorem paged_fits (part : Option Byte) (values : List Byte) : (paged part values).values.length ≤ 61 := by
  by_cases small : values.length ≤ 61
  · simp only [paged, small, if_true]
    split
    · exact Nat.zero_le _
    · exact small
  · simp only [paged, small, if_false]
    split
    · exact Nat.zero_le _
    · simp only [List.length_cons, List.length_take]; omega

/-- A cue entry takes at most 23 bytes (R79; log 8). -/
theorem CueEntry.bytes_length_le (e : CueEntry) : e.bytes.length ≤ 23 := by
  have time : (present (beBytes 4) e.timing.time).length ≤ 4 := present_length_le _ _ _ fun x => (beBytes_length 4 x).le
  have elapsed : (if e.onAir then beBytes 3 e.elapsed else []).length ≤ 3 := by split <;> simp
  have ends : (present (beBytes 4) e.endTime).length ≤ 4 := present_length_le _ _ _ fun x => (beBytes_length 4 x).le
  have stays (h : e.feed = none) : (present (beBytes 4) e.endTime).length = 0 := by simp [CueEntry.endTime, h, present]
  unfold CueEntry.bytes
  cases hk : e.kind with
  | item c len g p =>
    have := stays (by simp [CueEntry.feed, hk])
    simp only [List.length_append, List.length_cons, List.length_nil, beBytes_length, longBytes]
    omega
  | join f len =>
    simp only [List.length_append, List.length_cons, List.length_nil, beBytes_length, longBytes]
    omega
  | stop =>
    have := stays (by simp [CueEntry.feed, hk])
    simp only [List.length_append, List.length_cons, List.length_nil, beBytes_length, longBytes]
    omega

/-- READ CUE gives the summary and two entries in at most 60 bytes (R79, R196). -/
theorem readCue_fits (start : Half) (s : State) : (ownerReadCue start s).2.values.length ≤ 60 := by
  unfold ownerReadCue
  split
  · exact Nat.zero_le _
  · rename_i n _
    have two (xs : List CueEntry) : ((xs.take 2).flatMap CueEntry.bytes).length ≤ 46 := by
      match xs with
      | [] => exact Nat.zero_le _
      | [a] => have := a.bytes_length_le; simp; omega
      | a :: b :: _ => have := a.bytes_length_le; have := b.bytes_length_le; simp; omega
    have := two (s.cue.list.drop n)
    simp only [cueSummary, serialBytes, List.length_append, List.length_cons, List.length_nil, beBytes_length]
    omega

end Sys2Proof.Machine
end

