-- ==== Sys2Proof/Laws/Rows.lean ====
section
/-! SUPPORT. The shapes a row of the table has: a request its owner takes, an event a boundary made due, an owner's event whole.
What each does is said here once. -/

set_option Elab.async false

namespace Sys2Proof.Machine

open Sys2Proof

/-! ### Requests -/

/-- Every request row but PORT RESET is its owner taking the request. -/
theorem exec_request (i : Instr) (s : State) (h : i.request.isSome = true) (n : ∀ p, i ≠ .portReset p) :
    exec i s = .next (takeRequest i (ownerAct i) s) := by
  cases i <;> first | rfl | (cases h; done) | exact absurd rfl (n _)

/-- With no SET CLOCK left due, nothing stands before an owner's event. -/
theorem clockFirst_of_not {s : State} (h : .clockSet ∉ s.due) : clockFirst s = s := if_neg h

/-- Once a SET CLOCK left due has been taken, taking it again changes nothing. -/
theorem clockFirst_of_mem {s : State} (h : .clockSet ∈ s.due) :
    clockFirst s = clockSetStage (s.withDue (s.due.erase .clockSet)) := if_pos h

/-- Bytes written whole on a free port are taken. -/
theorem writeWhole_free {p : PortId} {f : State → State} {s : State} (h : (s.port p).Free) : writeWhole p f s = f s := by
  unfold writeWhole Port.occupied Port.open_
  simp [h.1, h.2.1, h.2.2.1, h.2.2.2]

/-- Bytes written whole while a request is at its owner or a reply waits are dropped with OVERRUN. -/
theorem writeWhole_occupied {p : PortId} {f : State → State} {s : State} (i : (s.port p).init = .high)
    (h : (s.port p).busy = true ∨ (s.port p).replyReady = true) : writeWhole p f s = overrun p s := by
  unfold writeWhole Port.occupied
  rcases h with h | h <;> simp [i, h]

/-- A port whose init pin is low takes no bytes. -/
theorem writeWhole_low {p : PortId} {f : State → State} {s : State} (i : (s.port p).init = .low) : writeWhole p f s = s := by
  unfold writeWhole
  simp [i]

/-- PORT RESET on a port that takes bytes is the port reset, a request open on it being discarded with the rest (R194, R199). -/
theorem writeWhole_portReset {p : PortId} {s : State} (h : (s.port p).TakesBytes) (c : .clockSet ∉ s.due) :
    writeWhole p (resetPort p) s = resetPort p s := by
  obtain ⟨i, b, r, ph⟩ := h
  have free : (s.port p).occupied = false := by simp [Port.occupied, b, r, ph]
  unfold writeWhole
  simp only [i, free]
  split
  · cases ‹false = true›
  · split
    · unfold resetPort
      rw [clockFirst_of_not c, clockFirst_of_not (s := s.withPort p _) (by cases p <;> exact c)]
      cases p <;> rfl
    · rfl

/-- A request not handed over, with no SET CLOCK left due, is its bytes written whole. -/
theorem takeRequest_bytes {i : Instr} {act : OwnerEvent} {s : State} {r : Request} (h : i.request = some r)
    (a : takeHanded s.pi.handed i = none) (c : .clockSet ∉ s.due) :
    takeRequest i act s = writeWhole r.port (answer r act) s := by
  unfold takeRequest
  rw [h, clockFirst_of_not c]
  simp only [a]

/-- A request that comes as bytes on its port and that PI passes is answered by its owner. -/
theorem takeRequest_arrives {i : Instr} {act : OwnerEvent} {s : State} {r : Request} (h : i.request = some r)
    (a : Arrives i r.port s) (ok : piRefusal r = none) :
    takeRequest i act s = replyTo r.port r.code (act s).2 (act s).1 := by
  rw [takeRequest_bytes h a.1 a.2.2, writeWhole_free a.2.1]
  unfold answer
  rw [ok]

/-- A request that PI refuses is answered by PI. -/
theorem takeRequest_refused {i : Instr} {act : OwnerEvent} {s : State} {r : Request} {x : Result}
    (h : i.request = some r) (a : Arrives i r.port s) (no : piRefusal r = some x) :
    takeRequest i act s = replyTo r.port r.code ⟨x, []⟩ s := by
  rw [takeRequest_bytes h a.1 a.2.2, writeWhole_free a.2.1]
  unfold answer
  rw [no]

/-- A request handed over is taken off the list, and its owner answers it unless its reply is discarded. -/
theorem takeRequest_handed {i : Instr} {act : OwnerEvent} {s : State} {r : Request} {discard : Bool} {rest : List Handed}
    (h : i.request = some r) (t : takeHanded s.pi.handed i = some (discard, rest)) (c : .clockSet ∉ s.due) :
    takeRequest i act s =
      if discard then (act (s.withPi { s.pi with handed := rest })).1
      else replyTo r.port r.code (act (s.withPi { s.pi with handed := rest })).2
        (act (s.withPi { s.pi with handed := rest })).1 := by
  unfold takeRequest
  rw [h, clockFirst_of_not c]
  simp only [t]

/-- A request that comes as bytes on a port that it is permitted on is answered by its owner. -/
theorem exec_arrives {i : Instr} {s : State} {p : PortId} (r : Request) (h : i.request = some r) (hp : r.port = p)
    (a : Arrives i p s) (ok : piRefusal r = none) (n : ∀ q, i ≠ .portReset q) :
    exec i s = .next (replyTo p r.code (ownerAct i s).2 (ownerAct i s).1) := by
  subst hp
  rw [exec_request _ _ (by rw [h]; rfl) n, takeRequest_arrives h a ok]

/-- A request is refused NOT_PERMITTED on the ports for which PI's judgement of its bytes says so. -/
theorem refusedOff_of {permitted : List PortId} {request : PortId → Instr} {code : Nat} {s : State}
    (h : ∀ p, p ∉ permitted → ∃ r, (request p).request = some r ∧ r.port = p ∧ r.code = code ∧
      piRefusal r = some .notPermitted ∧ ∀ q, request p ≠ .portReset q) :
    RefusedOff permitted request code s := by
  intro p hp a
  obtain ⟨r, h1, rfl, rfl, h2, h3⟩ := h p hp
  rw [exec_request _ _ (by rw [h1]; rfl) h3, takeRequest_refused h1 a h2]

/-! ### Events that have come due -/

/-- Of a list that holds one event of a kind, that event is the one taken. -/
theorem takeOne_of_mem (d : Due) (s : State) (mem : d ∈ s.due) (one : ∀ e ∈ s.due, e.kind = d.kind → e = d) :
    takeOne d.kind s = takeDue d (s.withDue (s.due.erase d)) := by
  have found : s.due.find? (fun e => decide (e.kind = d.kind)) = some d := by
    obtain ⟨e, he⟩ : ∃ e, s.due.find? (fun e => decide (e.kind = d.kind)) = some e := by
      rw [← Option.isSome_iff_exists, List.find?_isSome]
      exact ⟨d, mem, by simp⟩
    rw [he, one e (List.mem_of_find?_eq_some he) (by simpa using List.find?_some he)]
  unfold takeOne
  rw [found]

/-- Of a list that holds no event of a kind, none is taken. -/
theorem takeOne_of_not (k : DueKind) (s : State) (none : ∀ e ∈ s.due, e.kind ≠ k) : takeOne k s = s := by
  have found : s.due.find? (fun e => decide (e.kind = k)) = Option.none := by
    rw [List.find?_eq_none]
    intro e he
    simpa using none e he
  unfold takeOne
  rw [found]

/-- With no SET CLOCK left due, a direct row is its event. -/
theorem directRow_of_not {d : Due} {f : State → State} {s : State} (h : .clockSet ∉ s.due) :
    directRow d f s = f (s.withDue (s.due.erase d)) := by
  unfold directRow
  rw [clockFirst_of_not h]

/-- With one event due, a row of its kind whose occasion arises takes it. -/
theorem stageRow_of_one {d : Due} {s : State} {occasion : State → Bool} (h : s.due = [d]) (n : d ≠ .clockSet)
    (o : occasion s = true) : stageRow d.kind occasion s = takeDue d { s with due := [] } := by
  have none : ∀ k, k ≠ d.kind → takeOne k s = s := by
    intro k hk
    apply takeOne_of_not
    rw [h]
    intro e he hk'
    rw [List.mem_singleton] at he
    subst he
    exact hk hk'.symm
  have before : takeBefore d.kind s = s := by
    have hk : d.kind ≠ .clockSet := by cases d <;> simp_all [Due.kind]
    have free : .clockSet ∉ s.due := by rw [h]; simpa using Ne.symm n
    unfold takeBefore
    rw [if_neg hk, clockFirst_of_not free]
    dsimp only
    split
    · rename_i hk; exact none _ (by rw [hk]; simp)
    · rename_i hk; exact none _ (by rw [hk]; simp)
    · rename_i hk
      split
      · exact none _ (by rw [hk]; simp)
      · rfl
    · rfl
  have due : s.due.any (fun e => decide (e.kind = d.kind)) = true := by rw [h]; simp
  unfold stageRow
  rw [before]
  simp only [due, o, Bool.and_self, if_true]
  rw [takeOne_of_mem d s (by rw [h]; simp) (by rw [h]; intro e he _; simpa using he), h]
  simp [State.withDue]

/-! ### What every command keeps -/

/-- Every row of an event inside the part, but a request's timeout, keeps what every owner's operation keeps. -/
theorem keeps_exec (i : Instr) (s : State) (h1 : i ≠ .powerOn) (h2 : i ≠ .chipReset) (h3 : ∀ p l, i ≠ .portInit p l)
    (h4 : ∀ inp first later, i ≠ .blockBoundary inp first later) (h5 : i.request = none)
    (h6 : ∀ p, i ≠ .requestTimeout p) (h7 : ∀ p b, i ≠ .commandAddressWrite p b) (h8 : ∀ p b n, i ≠ .dataAddressWrite p b n)
    (h9 : ∀ p, i ≠ .statusRead p) (h10 : ∀ p, i ≠ .replyByteRead p) : ∃ t, exec i s = .next t ∧ Keeps s t := by
  have k := keeps_refl s
  have req : i.request.isSome ≠ true := by rw [h5]; simp
  cases i <;> first
    | exact absurd rfl h1 | exact absurd rfl h2 | exact absurd rfl (h3 _ _) | exact absurd rfl (h4 _ _ _)
    | exact absurd rfl (h6 _) | exact absurd rfl (h7 _ _) | exact absurd rfl (h8 _ _ _) | exact absurd rfl (h9 _)
    | exact absurd rfl (h10 _)
    | exact absurd rfl req
    | exact ⟨_, rfl, keeps_stageRow _ _ (by intro p e; cases e) k⟩
    | exact ⟨_, rfl, keeps_takeOne _ (by intro p e; cases e) (keeps_clockFirst k)⟩
    | exact ⟨_, rfl, keeps_directRow _ _ k fun t h => keeps_event _ (by simp [h])⟩
    | (exfalso; rename_i x; rcases x with _ | x <;> exact req rfl)
    | skip
  case returnFrame b => exact ⟨_, rfl, keeps_returnFrame _ k⟩
  case carryingReport =>
    refine ⟨_, rfl, ?_⟩
    split
    · exact keeps_takeOne _ (by intro p e; cases e) k
    · exact keeps_carryingReport _ _ k
  case gateReport =>
    refine ⟨_, rfl, ?_⟩
    split
    · exact keeps_takeOne _ (by intro p e; cases e) k
    · exact keeps_gateReport _ _ k
  case dumpReport =>
    refine ⟨_, rfl, ?_⟩
    split
    · exact keeps_takeOne _ (by intro p e; cases e) (keeps_clockFirst k)
    · exact keeps_event _ (keeps_dumpReport _ (keeps_clearMarks (keeps_clockFirst k)))

/-- Every command but a reset, an init pin and a boundary ends in a next state that keeps what `Stays` names. -/
theorem stays_exec (i : Instr) (s : State) (h1 : i ≠ .powerOn) (h2 : i ≠ .chipReset) (h3 : ∀ p l, i ≠ .portInit p l)
    (h4 : ∀ inp first later, i ≠ .blockBoundary inp first later) : ∃ t, exec i s = .next t ∧ Stays s t := by
  have k := stays_refl s
  by_cases hp : ∃ p, i = .portReset p
  · obtain ⟨p, rfl⟩ := hp
    refine ⟨_, rfl, ?_⟩
    exact stays_writeWhole _ _ k fun t h => stays_resetPort p h
  by_cases hr : i.request = none
  · by_cases e : (∃ p, i = .requestTimeout p) ∨ (∃ p b, i = .commandAddressWrite p b) ∨
        (∃ p b n, i = .dataAddressWrite p b n) ∨ (∃ p, i = .statusRead p) ∨ (∃ p, i = .replyByteRead p)
    · rcases e with ⟨p, rfl⟩ | ⟨p, b, rfl⟩ | ⟨p, b, n, rfl⟩ | ⟨p, rfl⟩ | ⟨p, rfl⟩
      · exact ⟨_, rfl, stays_requestTimesOut _ (keeps_withDue (keeps_refl s)).toStays⟩
      · exact ⟨_, rfl, stays_writeCommand _ _ k⟩
      · exact ⟨_, rfl, stays_writeData _ _ _ k⟩
      · exact ⟨_, rfl, stays_readStatus _ k⟩
      · exact ⟨_, rfl, stays_readReply _ k⟩
    · simp only [not_or, not_exists] at e
      obtain ⟨t, x, y⟩ := keeps_exec i s h1 h2 h3 h4 hr e.1 e.2.1 e.2.2.1 e.2.2.2.1 e.2.2.2.2
      exact ⟨t, x, y.toStays⟩
  · exact ⟨_, exec_request i s (Option.isSome_iff_ne_none.mpr hr) fun p e => hp ⟨p, e⟩,
      stays_takeRequest _ _ k fun t h => stays_ownerAct i h⟩

/-- After its counts, a boundary keeps what `Stays` names. -/
theorem stays_boundary (inp : PeriodInput) (first later : List DueKind) (s : State) :
    Stays (latch inp (drain DueKind.isReport 128 s)) (boundary inp first later s) :=
  stays_drain _ _ (stays_takeKinds _ (keeps_firstSampling _ (keeps_refl _)).toStays)

/-! ### An owner's event whole -/

/-- An event that starts no entry and leaves the waiting count and the gate as they were ends with its marks wiped. -/
theorem finish_same {b a : State} (st : a.cue.started = false) (w : a.cue.waiting = b.cue.waiting)
    (air : a.lsw.anyIn .air = b.lsw.anyIn .air) (live : a.lsw.liveCalls = b.lsw.liveCalls) :
    finish b a = clearMarks a := by
  have low : lowWaterCheck b a = a := by
    unfold lowWaterCheck
    dsimp only
    rw [if_neg (by omega), if_neg (by omega)]
  have gate : gateCheck b a = a := if_pos ⟨air, live⟩
  unfold finish
  rw [st, when_false, low, gate]

@[simp] theorem clearMarks_clearMarks (s : State) : clearMarks (clearMarks s) = clearMarks s := rfl

@[simp] theorem clearMarks_started (s : State) : (clearMarks s).cue.started = false := rfl

@[simp] theorem clearMarks_list (s : State) : (clearMarks s).cue.list = s.cue.list := rfl

@[simp] theorem clearMarks_waiting (s : State) : (clearMarks s).cue.waiting = s.cue.waiting := rfl

end Sys2Proof.Machine
end

