-- ==== Sys2Proof/Tests/Slice0.lean ====
section
/-! SUPPORT. Tests on small states: an ill-formed term for each check of WellFormed, a few requests read from their bytes, and
for every obligation with premises a state and operands that meet them, clause by clause, at values of their range's ends. -/

set_option Elab.async false

open Sys2Proof Sys2Proof.Machine

/-! ### Well-formedness -/

theorem test_wf_boundary_brings_at_most_240_samples :
    (Instr.blockBoundary { studio := List.replicate 241 none } [] []).wellFormed = false ∧
    (Instr.blockBoundary { players := ⟨[], [], [], List.replicate 241 none⟩ } [] []).wellFormed = false ∧
    (Instr.blockBoundary { netA := List.replicate 241 none } [] []).wellFormed = false ∧
    (Instr.blockBoundary { netB := List.replicate 241 none } [] []).wellFormed = false ∧
    (Instr.blockBoundary { fill := List.replicate 241 none } [] []).wellFormed = false ∧
    (Instr.blockBoundary { alert := List.replicate 241 none } [] []).wellFormed = false ∧
    (Instr.blockBoundary { consoleReturn := List.replicate 241 none } [] []).wellFormed = false ∧
    (Instr.blockBoundary { screenerIn := List.replicate 241 none } [] []).wellFormed = false ∧
    (Instr.blockBoundary { lineReceive := ⟨List.replicate 241 none, [], [], []⟩ } [] []).wellFormed = false ∧
    (Instr.blockBoundary {} [] []).wellFormed = true := by decide +kernel

theorem test_wf_boundary_counts_at_most_240_house_edges :
    (Instr.blockBoundary { houseEdges := 241 } [] []).wellFormed = false := by decide

theorem test_wf_notes_and_labels_fit_the_request :
    (Instr.ready .b 1 (some (List.replicate 61 65))).wellFormed = false ∧
    (Instr.lineNote .b 1 (List.replicate 61 65)).wellFormed = false ∧
    (Instr.setSiteResource .a 0 0 0 (List.replicate 59 65)).wellFormed = false := by decide

theorem test_wf_area_lists_fit_the_request :
    (Instr.alertHeader .c ⟨0, 0, 65, 65, 65, 1, 1, 200, List.replicate 17 0⟩).wellFormed = false ∧
    (Instr.setAreas .a (List.replicate 21 0)).wellFormed = false := by decide

/-! ### Requests from their bytes (section 10.6) -/

theorem test_bytes_of_set_clock :
    decodeRequest .a 10 [0x01, 0x07, 0xAB, 0xFF] = some (.setClock .a 17279999) := by decide

theorem test_bytes_of_take_line : decodeRequest .b 47 [] = some (.takeLine .b none) ∧
    decodeRequest .b 47 [3] = some (.takeLine .b (some 3)) ∧ decodeRequest .b 47 [3, 3] = none := by decide

theorem test_bytes_of_alert_header :
    decodeRequest .c 66 [1, 54, 0, 40, 76, 79, 67, 2, 0, 30, 3, 232, 1, 0, 0, 7] =
      some (.alertHeader .c ⟨310, 40, 76, 79, 67, 2, 30, 1000, [7]⟩) ∧
    decodeRequest .c 66 [1, 54, 0, 40, 76, 79, 67, 2, 0, 30, 3, 232, 2, 0, 0, 7] = none := by decide

/-- The check of a frame of ASCII digits, the usual check value of this polynomial (section 10.6). -/
theorem test_frame_check : crc [49, 50, 51, 52, 53, 54, 55, 56, 57] = 0x29B1#16 := by decide +kernel

/-! ### States that meet the premises of the obligations -/

/-- Every request comes as bytes after power-on. -/
theorem test_arrives (i : Instr) (p : PortId) : Arrives i p State.reset :=
  ⟨rfl, by cases p <;> exact ⟨rfl, rfl, rfl, rfl⟩, List.not_mem_nil⟩

/-- Every kind of due event. -/
def allKinds : List DueKind :=
  [.clockSet, .clockSelect, .house, .programme, .lineAudio, .delay, .output, .link, .site, .window, .cueCounts, .cueTimes,
   .alerts, .dropLines, .gateReport, .dumpReport, .carrying, .joinEnd, .withdrawal] ++
  Nth.all.flatMap (fun n => [.keyEdge n, .ringEdge n, .ringTimeout n, .loopDrop n, .clearingEnd n]) ++
  [.requestTimeout .a, .requestTimeout .b, .requestTimeout .c]

theorem test_allKinds (k : DueKind) : k ∈ allKinds := by
  cases k <;> first | decide | (rename_i x; cases x <;> decide)

/-- A port in a phase. -/
def portIn (ph : Phase) : State := { pi := { a := { phase := ph, code := 9, length := 2, params := [1] } } }

theorem test_meets_general : (∃ c s, (s : State).pending = [c]) ∧ (State.reset).pending = [] ∧
    (∃ t, exec .dropLines State.reset = .next t) ∧ (∃ t, step { pending := [.dropLines] } = .next t) ∧
    (Instr.setMode .b 0).wellFormed = true ∧ (Instr.setMode .b 0).request = some ⟨.b, 17, [0]⟩ :=
  ⟨⟨.chipReset, { pending := [.chipReset] }, rfl⟩, rfl, ⟨_, rfl⟩, ⟨_, rfl⟩, rfl, rfl⟩

theorem test_meets_invariant : Inv { pending := [.dropLines] } :=
  { clock := ⟨by decide, fun _ e => by cases e⟩
    stack := (⟨List.Perm.refl _, by decide, by decide, by decide⟩ : StackSound ({} : AIR))
    cue := ⟨Nat.zero_le _, List.nodup_nil, fun _ h => (List.not_mem_nil h).elim, by decide, by decide⟩
    lines := by
      refine ⟨fun l h => ?_, fun l h => ?_, List.nodup_nil, fun l => ⟨fun h => absurd h List.not_mem_nil, fun h => ?_⟩⟩
      · rcases h with h | h <;> cases h
      · cases h.1
      · cases l <;> cases h
    ring := (⟨rfl, fun _ h => (List.not_mem_nil h).elim, by decide⟩ : RingSound ({} : DLY))
    alerts := Nat.zero_le _, known := Nat.zero_le _, commands := Nat.zero_le _, log := ⟨Nat.zero_le _, trivial⟩
    delay := .init _, site := .init rfl rfl rfl }

/-- A chain with a record holds the air, and a stage has its command in LNK's queue, outstanding. -/
theorem test_meets_invariant_in_a_chain :
    DelaySound { state := .frozen, writePos := 6000, target := 6000 } .withContext
      [⟨1, .alert, .studio, none, [], some .engaged, none⟩] true ∧
    CommandsSound { queue := [⟨.on 7, 1⟩], outstanding := some ⟨1, 0, none⟩ }
      { stage := some ⟨.upSlot, some 1, 0, [], [.on 7], 0, true, [], [(7, false)], 1, 0⟩, nextStage := 2 } :=
  ⟨⟨by decide, by decide, fun _ => ⟨_, rfl, rfl⟩, fun _ e => (by cases e), fun _ => ⟨by decide, fun _ => ⟨.engaged, rfl, rfl⟩⟩⟩,
    fun _ => by decide, by decide, fun st e => by cases e; exact ⟨by decide, rfl⟩⟩

theorem test_meets_port_resets : (∀ p, ((State.reset).port p).init = .high) ∧ (State.reset).air.insertRecord = none ∧
    (State.reset).alc.onAir = none ∧ (({ pi := { a := { init := .low } } } : State).port .a).init = .low :=
  ⟨fun p => by cases p <;> rfl, rfl, rfl, rfl⟩

theorem test_meets_boundary : (State.reset).due = [] ∧ (State.reset).tb.pendingTime = none ∧
    ({ tb := { pendingTime := some 0 } } : State).tb.pendingTime ≠ none := by decide

theorem test_meets_port_bytes :
    (({ pi := { b := { replyReady := true, reply := [9, 0, 0] } } } : State).port .b).replyReady = true ∧
    (({ pi := { b := { busy := true } } } : State).port .b).busy = true ∧ ((portIn .codeTaken).port .a).phase = .codeTaken ∧
    ((portIn .parameters).port .a).params.length + 1 = ((portIn .parameters).port .a).length ∧
    portsOf 0 = none ∧ portsOf 9 = some [.b] ∧ PortId.a ∉ [PortId.b] ∧ portsOf 25 = some [.a, .b] ∧
    (({ pi := { b := { phase := .parameters, code := 9, length := 1 } } } : State).port .b).params.length + 1 = 1 ∧
    decodeRequest .b 9 ([] ++ [2]) = some (.selectClock .b 2) ∧
    (({ pi := { a := { phase := .parameters, length := 62, params := [] } } } : State).port .a).params.length + 1 < 62 ∧
    (({ pi := { a := { phase := .codeTaken, idleCount := 10 } } } : State).port .a).idleCount = 10 ∧
    (({ pi := { a := { phase := .codeTaken, idleCount := 9 } } } : State).port .a).idleCount < 10 := by decide

theorem test_meets_owners :
    piRefusal ⟨.b, 17, [0]⟩ = none ∧ piRefusal ⟨.a, 17, [0]⟩ = some .notPermitted ∧
    takeHanded [⟨.setMode .b 0, false⟩] (.setMode .b 0) = some (false, []) ∧
    takeHanded [⟨.setMode .b 0, true⟩] (.setMode .b 0) = some (true, []) ∧
    takeHanded [] (.setMode .b 0) = none := by decide

theorem test_meets_notices_only : (Instr.linkUp).request = none ∧ (∃ t, exec .linkUp State.reset = .next t) ∧
    (∀ p, Instr.safeOn .a ≠ .readNotices p) ∧ (∀ p m, Instr.safeOn .a ≠ .setNoticeMask p m) :=
  ⟨rfl, ⟨_, rfl⟩, fun _ e => (nomatch e), fun _ _ e => (nomatch e)⟩

/-- A log entry of a kind that merges. -/
def repeated (n : Nat) : LogEntry := ⟨1, none, .alertDuplicate, .none, .number 0, n, none⟩

theorem test_meets_log : ({ log := { entries := [repeated 254], next := 2 } } : State).log.entries = repeated 254 :: [] ∧
    (repeated 254).repeats < 255 ∧ 255 ≤ (repeated 255).repeats ∧ (LogKind.reset ≠ .alertDuplicate) := by decide

/-! #### Timebase -/

theorem test_meets_clock_requests : 2 < (3#8).toNat ∧ (2#8).toNat = ClockSource.link.place ∧
    200 ≤ ({ tb := { houseCount := 200 } } : State).tb.houseCount ∧ ¬ 200 ≤ ({ tb := { houseCount := 199 } } : State).tb.houseCount ∧
    ({ tb := { link := .up } } : State).tb.link = .up ∧ (State.reset).tb.source = .internal ∧
    17280000 ≤ (17280000#32).toNat ∧ (17279999#32).toNat < 17280000 := by decide

/-- A boundary's judgement of HOUSE is due. -/
def houseDue (ok : Bool) (n : Nat) (src : ClockSource) : State :=
  { due := [.house], tb := { houseOk := ok, houseCount := n, source := src } }

theorem test_meets_clock_events :
    Due.clockSet ∈ ({ due := [.clockSet], tb := { pendingTime := some 17279999 } } : State).due ∧
    DueNow .clockSelect { due := [.clockSelect], tb := { pendingSource := some .link } } ∧
    DueNow .house (houseDue true 199 .internal) ∧ (houseDue true 199 .internal).tb.houseCount = 199 ∧
    DueNow .house (houseDue false 200 .house) ∧ (houseDue false 200 .house).tb.source = .house ∧
    (houseDue false 200 .internal).tb.houseOk = false ∧ 200 ≤ (houseDue false 200 .internal).tb.houseCount := by decide

/-- Key line 1 with a record and a settled level. -/
def keyOne (a : KeyAction) (e : KeyEdge) (l : Level) (sampled : Bool := true) : State :=
  { tb := { keys := ⟨{ action := a, edge := e, settled := l, sampled := sampled }, {}, {}, {}⟩ } }

theorem test_meets_key_lines : (4#8).toNat = Nth.n4.number ∧ (5#8).toNat = KeyAction.dropLines.place ∧
    (3#8).toNat = KeyEdge.both.place ∧ (1#8).toNat = Level.place .low ∧
    (State.reset).out.reasons.key = (State.reset).tb.keyHeld ∧
    ((keyOne .dump .rising .low).tb.keys.get .n1).settled = otherLevel .high ∧ KeyEdge.rising.acts .high = true ∧
    ((keyOne .dump .rising .low).tb.keys.toList.any KeyLine.holds) = (keyOne .dump .rising .low).tb.keyHeld ∧
    (keyOne .dump .rising .low).dly.state = .run .bypass ∧
    ((keyOne .none .none .low false).tb.keys.get .n1).sampled = false := by decide

/-! #### The air context -/

/-- A record of the stack. -/
def rec (k : RecordKind) : ContextRecord :=
  { number := 1, kind := k, before := .studio, suspended := none, parked := [], delayBefore := none, late := none }

/-- An air mode with a stack. -/
def airIn (m : Mode) (stack : List ContextRecord) (depth : Nat := 3) : State :=
  { air := { mode := m, stack := stack, free := [2, 3, 4], maxDepth := depth } }

/-- A caller on line 1 in AIR, in LIVE, through an engaged delay. -/
def onAirLive : State :=
  { lsw := { lines := ⟨{ state := .air, onAir := some (0, 0) }, {}, {}, {}⟩, slotA := some .n1 }
    dly := { state := .run .engaged, target := 2, writePos := 2, gateAir := true } }

theorem test_meets_air_requests : 3 < (4#8).toNat ∧ (1#8).toNat = Mode.auto.place ∧ Mode.auto ≠ (State.reset).air.mode ∧
    (airIn .auto []).air.mode ≠ .live ∧ (airIn .auto [rec .breakIn]).air.stack ≠ [] ∧ (State.reset).lsw.anyIn .air = false ∧
    onAirLive.lsw.anyIn .air = true ∧ onAirLive.air.mode = .live ∧ (State.reset).alc.readyHead = none ∧
    4 < (5#8).toNat ∧ (2#8).toNat < (airIn .auto [rec .alert, rec .breakIn, rec .liveInsert]).air.stack.length ∧
    (State.reset).air.stack.length ≤ (1#8).toNat := by decide

theorem test_meets_live_insert : (airIn .test []).air.mode = .test ∧ (airIn .auto [rec .liveInsert]).air.insertRecord.isSome = true ∧
    (airIn .auto [rec .breakIn] 1).air.maxDepth ≤ (airIn .auto [rec .breakIn] 1).air.stack.length ∧
    (airIn .auto [rec .breakIn] 1).air.insertRecord = none ∧ (airIn .auto []).air.chain = .none ∧
    (airIn .unattended []).air.stack.length < (airIn .unattended []).air.maxDepth ∧ (airIn .auto []).cue.fading = none := by decide

theorem test_meets_releases : (State.reset).air.insertRecord = none ∧
    (airIn .auto [rec .liveInsert]).air.stack = rec .liveInsert :: [] ∧ (rec .liveInsert).suspended = none ∧
    (airIn .auto [rec .liveInsert]).cue.list = [] ∧ (airIn .auto [rec .liveInsert]).air.chain = .none ∧
    ({ airIn .auto [rec .breakIn] with due := [.joinEnd 1 7] }).due = [.joinEnd (rec .breakIn).number 7] ∧
    ({ due := [.withdrawal 1 7], air := { chain := .withoutContext, stack := [rec .breakIn] } } : State).air.chain =
      .withoutContext := by decide

/-! #### The cue list -/

/-- The fields of an item on P1 of 1 block, of a JOIN of NET B at midnight's last block, and of a STOP. -/
def itemFields : EntryFields := ⟨0, 0, 1, 0, 0, 0, 0, 0, 0⟩
def joinFields : EntryFields := ⟨1, 5, 1440000, 0, 0, 2, 17279999, 0, 0⟩

/-- An item on a channel. -/
def item (serial : Nat) (ch : Nth) (len : Option Nat) (st : CueState) (elapsed : Nat := 0) (g : Segue := .cut)
    (t : Timing := .none) : CueEntry :=
  { serial := serial, kind := .item ch len g .resume, timing := t, logRef := 0, state := st, elapsed := elapsed }

/-- A list in a mode, one boundary on, with an event due. -/
def listed (m : Mode) (es : List CueEntry) (due : List Due := []) : State :=
  { air := { mode := m }, cue := { list := es }, due := due, boundaryNo := 1 }

theorem test_meets_append_and_insert : cueKindOf itemFields = some (.item .n1 (some 1) .cut .resume) ∧
    timingOf (.item .n1 (some 1) .cut .resume) itemFields = some .none ∧
    cueKindOf joinFields = some (.join .netB 1440000) ∧
    timingOf (.join .netB 1440000) joinFields = some (.breakIn 17279999) ∧
    cueKindOf { joinFields with channel := 3 } = none ∧ 2 < ({ itemFields with kind := 3 } : EntryFields).kind.toNat ∧
    timingOf .stop { itemFields with kind := 2, timing := 1 } = none ∧
    64 ≤ (listed .live (List.replicate 64 (item 1 .n1 none .waiting))).cue.list.length ∧
    (State.reset).cue.list.length < 64 ∧ (State.reset).air.mode = .live ∧ (1#16).toNat ≠ 0 ∧ (0#16).toNat = 0 ∧
    (∀ e ∈ (State.reset).cue.list, e.serial ≠ (1#16).toNat) ∧
    (listed .live [item 1 .n1 none .cued]).cue.list = [] ++ item 1 .n1 none .cued :: [] ∧
    (item 1 .n1 none .cued).serial = (1#16).toNat := by decide

theorem test_meets_delete_and_skip : (State.reset).cue.find (1#16).toNat = none ∧
    (listed .live [item 1 .n1 none .playing]).cue.find (1#16).toNat = some (item 1 .n1 none .playing) ∧
    (item 1 .n1 none .playing).state = .playing ∧
    (listed .live [item 1 .n1 none .suspended]).cue.find 1 = some (item 1 .n1 none .suspended) ∧
    (listed .live [item 1 .n1 none .waiting]).cue.find 1 = some (item 1 .n1 none .waiting) ∧
    (item 1 .n1 none .waiting).state = .waiting := by decide

theorem test_meets_take_and_item_end : ({ cue := { held := true } } : State).cue.held = true ∧ (State.reset).cue.cued = none ∧
    (State.reset).cue.held = false ∧ (∀ e ∈ (listed .live [item 2 .n1 none .cued]).cue.cued, e.serial ≠ (1#16).toNat) ∧
    (listed .live [item 1 .n1 none .cued]).cue.list = [item 1 .n1 none .cued] ∧ (item 1 .n1 none .cued).state = .cued ∧
    (item 1 .n1 none .cued).kind = .item .n1 none .cut .resume ∧ (listed .live [item 1 .n1 none .cued]).alc.readyHead = none ∧
    (item 1 .n1 none .cued).state ≠ .playing ∧ (item 1 .n4 (some 9) .playing).state = .playing ∧
    (listed .live [item 1 .n4 (some 9) .playing]).cue.find (1#16).toNat = some (item 1 .n4 (some 9) .playing) := by decide

theorem test_meets_low_water : 63 < (64#8).toNat ∧ (63#8).toNat ≤ 63 ∧ (State.reset).cue.threshold = 0 ∧
    (let s : State := { cue := { threshold := 1, list := [item 1 .n1 none .cued] } }; 1 ≤ s.cue.threshold ∧
      s.cue.waiting ≤ s.cue.threshold) ∧
    (let s : State := { cue := { threshold := 1, list := [item 1 .n1 none .cued, item 2 .n1 none .waiting] } }
     s.cue.threshold < s.cue.waiting) := by decide

theorem test_meets_ends_and_segues :
    (let s := listed .live [item 1 .n1 (some 9) .playing 8] [.cueCounts]
     s.due = [.cueCounts] ∧ (item 1 .n1 (some 9) .playing 8).begun < s.boundaryNo ∧ s.air.mode = .live ∧ s.cue.held = false ∧
     (item 1 .n1 (some 9) .playing 8).elapsed + 1 = 9 ∧ (s.cue.run.get .n1).riseAfter = none) ∧
    (item 1 .n1 none .playing 1439999).elapsed + 1 = 1440000 ∧
    (let s := listed .auto [item 1 .n1 (some 9) .playing 8, item 2 .n2 (some 1) .cued] [.cueCounts]
     s.due = [.cueCounts] ∧ (item 1 .n1 (some 9) .playing 8).serial ≠ (item 2 .n2 (some 1) .cued).serial ∧
     s.air.mode = .auto ∧ s.alc.readyHead = none ∧ (item 2 .n2 (some 1) .cued).timing = .none) := by decide

theorem test_meets_crossfade_and_delayed_rise :
    (let o := item 1 .n1 none .fading 5 (.fade 400); let p := item 2 .n2 none .playing 400
     let s := listed .auto [o, p] [.cueCounts]
     s.due = [.cueCounts] ∧ s.cue.held = false ∧ o.serial ≠ p.serial ∧ o.kind = .item .n1 none (.fade 400) .resume ∧
     p.begun < s.boundaryNo ∧ p.elapsed = 400 ∧ p.elapsed + 1 < 1440000) ∧
    (let s : State := { listed .auto [item 1 .n1 none .playing 0] [.cueCounts] with
        cue := { list := [item 1 .n1 none .playing 0], run := ⟨{ riseAfter := some 0 }, {}, {}, {}⟩ } }
     (s.cue.run.get .n1).riseAfter = some 0 ∧ 0 < s.boundaryNo) := by decide

/-- A set clock at a time, with a list and the times due. -/
def clocked (m : Mode) (n : Nat) (es : List CueEntry) (stack : List ContextRecord := []) : State :=
  { due := [.cueTimes], air := { mode := m, stack := stack, free := [2, 3, 4] }, cue := { list := es }
    tb := { clock := n, clockSet := true }, boundaryNo := 1 }

/-- A BREAK-IN JOIN. -/
def breakIn (n len : Nat) : CueEntry := { serial := 1, kind := .join .netA len, timing := .breakIn n, logRef := 0 }

theorem test_meets_times :
    (let e := item 1 .n1 none .cued 0 .cut (.hard 17279999); let s := clocked .live 17279999 [e]
     s.due = [.cueTimes] ∧ e.timing = .hard s.tb.clock ∧ e.timeReached = false ∧ s.tb.clockSet = true ∧ s.tb.report = none ∧
     e.added < s.boundaryNo ∧ s.alc.readyHead = none ∧ s.air.mode = .live) ∧
    (clocked .auto 0 [item 1 .n1 none .cued 0 .cut (.hard 0)]).cue.held = false ∧
    (let e := breakIn 17279999 1; let s := clocked .auto 17279999 [e] [rec .liveInsert, rec .breakIn]
     e.state = .waiting ∧ e.timing = .breakIn s.tb.clock ∧ e.added < s.boundaryNo ∧ s.tb.clock < 17280000 ∧ s.air.chain = .none ∧
     s.air.stack.length < s.air.maxDepth) ∧
    (let s := clocked .auto 0 [breakIn 0 1440000] [rec .liveInsert, rec .breakIn, rec .breakIn]
     s.air.maxDepth ≤ s.air.stack.length) := by decide

/-! #### Lines and the delay -/

/-- Line 1 in a state. -/
def lineIn (st : LineState) : State := { lsw := { lines := ⟨{ state := st }, {}, {}, {}⟩ } }

/-- Line 1 READY at the head of the queue, line 2 behind it; one slot taken or none. -/
def queued (a b : Option Nth) (live : Bool) : State :=
  { lsw := { lines := ⟨{ state := .ready, waiting := some 0 }, { state := .ready, waiting := some 0 }, {}, {}⟩
             queue := [.n1, .n2], slotA := a, slotB := b, liveCalls := live } }

theorem test_meets_line_requests : (0#8).toNat = 0 ∧ 4 < (5#8).toNat ∧ (1#8).toNat = Nth.n1.number ∧ (4#8).toNat = Nth.n4.number ∧
    (lineIn .ringing).line .n1 = .ringing ∧ (State.reset).line .n4 ≠ .ringing ∧ (lineIn .hold).line .n1 = .hold ∧
    (lineIn .hold).lsw.slotA ≠ some .n1 ∧ (lineIn .screening).line .n1 = .screening ∧ (lineIn .ready).line .n1 = .ready ∧
    (lineIn .parked).line .n1 = .parked ∧ (lineIn .clearing).line .n1 = .clearing ∧
    (Instr.ready .b 1 (some (List.replicate 60 65))).wellFormed = true ∧ 24 < (List.replicate 25 (65 : Byte)).length ∧
    (∀ c ∈ [(32 : Byte), 126], 32 ≤ c.toNat ∧ c.toNat ≤ 126) ∧ (∃ c ∈ [(31 : Byte), 65], c.toNat < 32 ∨ 126 < c.toNat) := by decide

theorem test_meets_take_line : (airIn .auto []).air.mode ≠ .live ∧ (lineIn .parked).lsw.anyIn .parked = true ∧
    (queued none none false).dly.state = .run .bypass ∧ (queued none none false).lsw.liveCalls = false ∧
    (queued (some .n3) (some .n4) true).lsw.slotB ≠ none ∧ (lineIn .ready).lsw.queue = [] ∧
    (queued none none true).line .n3 ≠ .ready ∧ (queued none none true).line .n1 = .ready ∧
    (queued (some .n3) none true).lsw.slotB = none ∧ (queued none none true).lsw.queue.head? = some .n1 ∧
    (queued none none true).lsw.anyIn .parked = false ∧ (queued none none true).air.chain = .none := by decide

theorem test_meets_line_options : 1 < (2#8).toNat ∧
    (let s : State := { lsw := { onAirLive.lsw with liveCalls := true } }
     s.lsw.liveCalls = true ∧ s.dly.state = .run .bypass ∧ s.lsw.anyIn .air = true) ∧ (1#8).toNat = 1 ∧
    (State.reset).lsw.liveCalls = false := by decide

theorem test_meets_line_events :
    (({ lsw := { lines := ⟨{ state := .ringing, ringQuiet := 1600 }, {}, {}, {}⟩ } } : State).lsw.lines.get .n1).ringQuiet = 1600 ∧
    (({ lsw := { lines := ⟨{ state := .clearing, clearing := 0 }, {}, {}, {}⟩ } } : State).lsw.lines.get .n1).clearing = 0 ∧
    (({ lsw := { lines := ⟨{ state := .hold, loopLoss := 20 }, {}, {}, {}⟩ } } : State).lsw.lines.get .n1).loopLoss = 20 ∧
    LineState.parked.offHook = true ∧ (State.reset).lsw.anyIn .air = false ∧
    ({ lsw := { dropOnDump := true } } : State).lsw.dropOnDump = true ∧
    (∀ f, ([.dropLines, .dumpReport f, .dumpReport (!f)] : List Due).find? (fun d => decide (d.kind = .dumpReport)) =
      some (.dumpReport f)) ∧
    (([] : List Due).find? (fun d => decide (d.kind = .dumpReport)) = none ∧ (State.reset).dly.state ≠ .frozen ∧
      ({ dly := { state := .frozen } } : State).dly.state = .frozen) := by decide

/-- The report of a dump in FROZEN drops and counts no one, though the chain is over and the caller back in AIR (R100). -/
theorem test_a_dump_in_frozen_acts_on_no_line (drop : Bool) :
    (let s : State := { onAirLive with due := [.dumpReport true], lsw := { onAirLive.lsw with dropOnDump := drop } }
     match exec .dumpReport s with
     | .next t => decide (t.lsw = s.lsw ∧ t.due = [] ∧ s.dly.state ≠ .frozen ∧ s.lsw.anyIn .air = true)
     | _ => false) = true := by cases drop <;> decide +kernel

/-- The delay store in a state with a delay and a target. -/
def delayed (st : DelayState) (target delay : Nat) (air live : Bool) (due : List Due := []) : State :=
  { dly := { state := st, target := target, writePos := delay, gateAir := air, gateLive := live, ratio := 8, stepCount := 7 }
    due := due }

theorem test_meets_delay_requests : 6000 < (6001#16).toNat ∧ (6000#16).toNat ≤ 6000 ∧ (7#8).toNat < 8 ∧ (64#8).toNat ≤ 64 ∧
    (delayed (.run .engaged) 0 0 true false).dly.gateAir = true ∧ (delayed .frozen 1 1 true false).dly.state = .frozen ∧
    (delayed (.run .building) 5 1 false false).dly.state ≠ .run .bypass ∧
    (delayed (.run .engaged) 5 5 false false).dly.readPos < 8192 ∧ (State.reset).dly.state = .run .bypass := by decide

theorem test_meets_steps_and_gates :
    (let s := delayed (.run .building) 6000 5999 false false [.delay]
     DueNow .delay s ∧ s.dly.ratio ≤ s.dly.stepCount + 1 ∧ s.dly.delay < 8191 ∧ 1 ≤ s.dly.target) ∧
    (let s := delayed (.run .shrinking) 0 1 false false [.delay]; DueNow .delay s ∧ 1 ≤ s.dly.delay) ∧
    (delayed (.run .engaged) 0 0 true false [.gateReport false true]).due = [.gateReport false true] ∧
    (delayed (.run .bypass) 0 0 false false [.gateReport true false]).dly.state = .run .bypass := by decide

/-! #### Alerts -/

/-- A header as sent and as read: event LOC, one minute, 200 blocks. -/
def sentHeader (priority : Byte) : HeaderFields := ⟨310, 40, 76, 79, 67, priority, 1, 200, [7]⟩
def header (serial : Half) (priority : Nat) : Header := ⟨⟨310, serial⟩, ⟨76, 79, 67⟩, priority, [7], 1, 200⟩

/-- An entry of the alert queue. -/
def alert (serial : Half) (priority : Nat) (st : AlertState) : AlertEntry :=
  { header := header serial priority, state := st, arrival := 0, validity := 12000 }

/-- A queue of alerts with what is due, one boundary on; a chain holds the air when the first of them is ON AIR. -/
def alerts (q : List AlertEntry) (due : List Due := []) (m : Mode := .live) : State :=
  let airs := q.any fun e => decide (e.state = .onAir)
  { alc := { queue := q, chainOpen := airs, go := airs, wake := false, areas := [7] }
    air := { mode := m, chain := if airs then .withContext else .none, stack := if airs then [rec .alert] else [] }
    dly := { state := if airs then .frozen else .run .bypass }
    due := due, boundaryNo := 1 }

theorem test_meets_alert_headers :
    headerOf (sentHeader 3) = some (header 40 3) ∧ headerOf (sentHeader 1) = some (header 40 1) ∧
    (sentHeader 4).priority.toNat = 4 ∧ (sentHeader 0).priority.toNat = 0 ∧ (sentHeader 1).areas.length ≤ 16 ∧
    (∃ x ∈ (alerts [alert 40 1 .ready]).alc.queue, x.header.pair = (header 40 3).pair) ∧
    (header 40 3).pair ∉ (alerts []).alc.known ∧ ¬ (∃ a ∈ (header 40 1).areas, a ∈ (State.reset).alc.areas) ∧
    (∃ a ∈ (header 40 1).areas, a ∈ (alerts []).alc.areas) ∧ (alerts []).alc.actionFor ⟨76, 79, 67⟩ = .hold ∧
    ({ alc := { events := [(⟨76, 79, 67⟩, .ignore)] } } : State).alc.actionFor ⟨76, 79, 67⟩ = .ignore ∧
    ({ alc := { events := [(⟨76, 79, 67⟩, .forward)] } } : State).alc.actionFor ⟨76, 79, 67⟩ = .forward ∧
    (let s := alerts (List.replicate 8 (alert 41 3 .ready))
     s.alc.queue.length = 8 ∧ ∀ x ∈ s.alc.queue, x.state ≠ .onAir → 3 ≤ x.header.priority) ∧
    1 ≤ (alerts []).alc.liveHold ∧ (alerts [] [] .auto).alc.queue.length < 8 ∧ (alerts []).alc.chainOpen = false ∧
    (alerts []).air.chain = .none ∧ (alerts []).air.stack.length < (alerts []).air.maxDepth ∧ (alerts []).alc.wake = false ∧
    (alerts [] [] .test).air.mode = .test := by decide

theorem test_meets_alert_ends :
    (State.reset).alc.onAir = none ∧ (alerts [alert 40 1 .onAir]).alc.onAir = some (alert 40 1 .onAir) ∧
    (alert 40 1 .onAir).header.pair = ⟨310, 40⟩ ∧ (⟨310, 40⟩ : Pair) ≠ ⟨310, 41⟩ ∧
    ChainAlone (rec .alert) (alerts [alert 40 1 .onAir]) ∧
    (alerts [alert 40 1 .onAir, alert 41 1 .ready]).alc.queue = [alert 40 1 .onAir, alert 41 1 .ready] ∧
    (alerts [alert 40 1 .onAir, alert 41 1 .ready]).alc.go = true ∧
    (alerts [alert 40 3 .onAir]).alc.find ⟨310, 40⟩ = some (alert 40 3 .onAir) ∧
    (alerts [alert 40 1 .onAir, alert 41 1 .pending]).alc.find ⟨310, 41⟩ = some (alert 41 1 .pending) ∧
    (alerts [alert 40 1 .onAir, alert 41 1 .pending]).alc.chainOpen = true ∧ (State.reset).alc.pendingHead = none ∧
    (alerts [alert 40 1 .onAir, alert 41 1 .pending]).alc.pendingHead = some (alert 41 1 .pending) ∧
    (alerts [alert 40 1 .onAir, alert 41 1 .pending]).air.mode ≠ .test := by decide

theorem test_meets_alert_tables : 16 < (List.replicate 17 (0 : Tri)).length ∧ 999999 < (1000000#24).toNat ∧
    ¬ [(7 : Tri), 7].Nodup ∧ [(7 : Tri), 999999].Nodup ∧ (∀ c ∈ [(65 : Byte), 90, 66], 65 ≤ c.toNat ∧ c.toNat ≤ 90) ∧
    3 < (4#8).toNat ∧ (2#8).toNat = EventAction.ignore.place ∧ ¬ (∃ r ∈ (State.reset).alc.events, r.1 = ⟨65, 65, 65⟩) ∧
    (∃ r ∈ [((⟨65, 65, 65⟩, .hold) : EventCode × EventAction)], r.1 = ⟨65, 65, 65⟩) ∧
    32 ≤ (List.replicate 32 ((⟨66, 66, 66⟩, .hold) : EventCode × EventAction)).length ∧
    180000 < (180001#24).toNat ∧ (180000#24).toNat ≤ 180000 := by decide

theorem test_meets_alert_counts :
    (let o := alert 40 2 .onAir; let e := { alert 41 2 .pending with hold := 1, validity := 2 }
     let s := alerts [o, e] [.alerts] .auto
     s.due = [.alerts] ∧ o.begun < s.boundaryNo ∧ o.played + 1 < o.header.audioLength ∧ o.header.pair ≠ e.header.pair ∧
     e.header.priority ≤ o.header.priority ∧ s.alc.goRiseAfter = none ∧ s.air.mode ≠ .test) ∧
    (let e := { alert 41 1 .ready with advisory := 1, validity := 2 }; let s := alerts [e] [.alerts] .auto
     e.header.priority = 1 ∧ s.alc.chainOpen = false ∧ s.air.chain = .none ∧ s.air.stack.length < s.air.maxDepth ∧
     s.alc.wake = false) ∧
    ({ alert 41 1 .pending with validity := 1, hold := 1 }).validity ≤ 1 ∧
    (let s := alerts [alert 40 1 .onAir] [.alerts]
     let t : State := { s with alc := { s.alc with goRiseAfter := some 0, go := false } }
     t.alc.goRiseAfter = some 0 ∧ 0 < t.boundaryNo ∧ (alert 40 1 .onAir).played < 200) ∧
    ChainAlone (rec .alert) (alerts [{ alert 40 1 .onAir with played := 199 }] [.alerts]) := by decide

/-! #### Output, link and site -/

/-- A delayed block at a level, waiting for OUT. -/
def emitted (peak : Nat) (o : OUT) : State :=
  { due := [.output], out := o
    audio := { prev := { delayed := some ⟨[], { silentBlock.tag with peak := peak, entry := some (7, 9) }⟩ } } }

theorem test_meets_output : ({ port := true } : SafeSet).port = true ∧ ({} : SafeSet) = {} ∧
    ({ silence := true } : SafeSet) ≠ {} ∧ ({ port := true, test := true } : SafeSet) ≠ { port := true } ∧
    ({ resumeLost := true } : SafeSet) = { resumeLost := true } ∧ (195#8).toInt < -60 ∧ (196#8).toInt = -60 ∧
    (236#8).toInt = -20 ∧ (400#16).toNat = 400 ∧ (12001#16).toNat > 12000 ∧
    (let s := emitted 46 { quietRun := 3999 }
     s.due = [.output] ∧ s.out.threshold < 46 ∧ s.out.silenceTime ≤ s.out.quietRun + 1 ∧ s.out.deadAir = false ∧
     s.out.reasons = {} ∧ s.out.entry = none) ∧
    (let s := emitted 45 { deadAir := true, soundRun := 999 }
     45 ≤ s.out.threshold ∧ s.out.restoreTime ≤ s.out.soundRun + 1 ∧ s.out.deadAir = true) := by decide

/-- Bytes 0 to 6 of a return frame: sequence 5 echoed, FULL, resources 0 to 2 ON, step 15, command 3 DONE, no site fill. -/
def frameBytes : List Byte := [5, 1, 0, 0x15, 15, 0x83, 0]
/-- The frame of those bytes. -/
def goodFrame : ReturnFrame := ⟨5, .full, [.on, .on, .on, .off, .off, .off, .off, .off], 15, some (3, true), false⟩

theorem test_meets_frames :
    ReturnFrame.ofBytes (frameBytes ++ halfBytes (crc frameBytes)) = some goodFrame ∧
    ReturnFrame.ofBytes (frameBytes ++ halfBytes (crc frameBytes + 1)) = none := by decide +kernel

/-- The link in a state when its judgement is due, the site FULL. -/
def linked (x : LNK) (boundaryNo : Nat := 100) : State :=
  { due := [.link], lnk := x, site := { state := .full }, boundaryNo := boundaryNo }

theorem test_meets_link :
    ({ due := [.carrying .up false] } : State).due = [.carrying .up false] ∧ (State.reset).due = [] ∧
    (State.reset).tb.good .internal = true ∧ (State.reset).lnk.state = .down ∧
    (linked { state := .up, queue := [⟨.on 1, 0⟩], outstanding := some ⟨0, 0, none⟩ }).site.stage = none ∧
    (let s := linked { state := .syncing, good := 7, judged := some goodFrame }
     s.due = [.link] ∧ s.site.state ≠ .unknown ∧ s.tb.source = .internal ∧ s.lnk.judged = some goodFrame ∧
     goodFrame.fill = s.lnk.siteFill ∧ goodFrame.mode ≠ .fault ∧ s.site.resources.length = 8) ∧
    (linked { state := .up, missing := 9 }).lnk.judged = none ∧ (linked { state := .degraded, missing := 399 }).lnk.missing = 399 ∧
    (linked { state := .up, missing := 8, queue := [⟨.on 1, 0⟩], outstanding := some ⟨0, 0, none⟩ }).lnk.missing < 9 ∧
    0 + 100 ≤ (linked {}).boundaryNo := by decide

theorem test_goodFrame_reports_no_fault (r : Nat) : goodFrame.resources.getD r .off ≠ .fault := by
  by_cases h : r < 8
  · revert r; decide
  · rw [List.getD_eq_default _ _ (by simpa [goodFrame] using Nat.not_lt.1 h)]; decide

/-- The site in a state, resource 0 in slot 0 and ON, resources 1 and 7 in slots 1 and 7. -/
def sited (st : SiteState) (seqOff : Bool) (due : List Due := []) : State :=
  { due := due, boundaryNo := 1
    site := { state := st, sequentialOff := seqOff, windowEnabled := true
              resources := [{ slot := some 0, reported := .on }, { slot := some 1 }, {}, {}, {}, {}, {},
                            { slot := some 7, commanded := true }] }
    tb := { clockSet := true, clock := 15840000 } }

/-- A stage on its slot, every command of it done. -/
def slotStage (n age : Nat) (awaiting : List SiteCommand) : Stage :=
  { kind := .upSlot, slot := some n, step := 0, toPut := [], awaiting := awaiting, age := age, commands := true, offs := []
    prior := [], id := 0, begun := 0 }

theorem test_meets_site_settings :
    ((7#8).toNat ≤ 7 ∧ ((255#8).toNat ≤ 7 ∨ (255#8).toNat = 255) ∧ (1#8).toNat ≤ 1 ∧ (List.replicate 8 (126 : Byte)).length ≤ 8) ∧
    ¬ ((8#8).toNat ≤ 7) ∧ (List.replicate 9 (65 : Byte)).length ≤ 58 ∧ (sited .raising true).site.state = .raising ∧
    ((3#8).toNat ≤ 3 ∧ (15#8).toNat ≤ 15 ∧ (14#8).toNat < (15#8).toNat) ∧ ¬ ((15#8).toNat < (15#8).toNat) ∧
    ((17279999#32).toNat ≤ 17279999 ∧ (17279999#32 : Long) ≠ 0) ∧ ¬ ((17280000#32).toNat ≤ 17279999) := by decide

theorem test_meets_site_requests :
    (sited .off true).site.those (fun r => decide (r.slot = some 0)) ≠ [] ∧ (sited .off true).site.stage = none ∧
    (sited .off true).site.resources.length = 8 ∧ (sited .off true).lnk.queue = [] ∧ (State.reset).site.state ≠ .off ∧
    (sited .fault false).site.those (fun r => r.sequenced && (r.commanded || decide (r.reported = .on))) ≠ [] ∧
    (sited .full true).site.those (fun r => decide (r.slot = some 7) && (r.commanded || decide (r.reported = .on))) ≠ [] ∧
    (let s : State := { site := { state := .low, resources := { slot := some 0 } :: List.replicate 7 {} } }
     s.site.those (fun r => decide (r.slot = some 0) && !decide (r.reported = .on)) ≠ [] ∧ s.site.state = .low) := by decide

theorem test_meets_site_events :
    (let s := sited .starting true [.site]; let st := slotStage 0 199 []
     let u : State := { s with site := { s.site with stage := some st } }
     u.due = [.site] ∧ st.begun < u.boundaryNo ∧ st.age + 1 = u.site.slotLength ∧ st.age < 1999 ∧
     (∀ r < 8, ∀ m ∈ (u.site.resource r).slot, m ≤ 0 → (u.site.resource r).reported = .on) ∧
     u.site.those (fun r => decide (r.slot = some 1)) ≠ []) ∧
    (let st := slotStage 0 1999 [.on 0]
     st.age + 1 = 2000 ∧ st.awaiting ≠ [] ∧ (sited .starting true [.site]).site.pendingWake = false) ∧
    (let w : LowWindow := ⟨15840000, 4320000, true⟩; let s := sited .full true [.window w]
     s.due = [.window w] ∧ w.enabled = true ∧ w.low = s.tb.clock ∧ w.low ≠ w.full ∧ s.tb.report = none ∧
     (sited .low true [.window w]).site.state ≠ .full) ∧
    (let w : LowWindow := ⟨15840000, 4320000, true⟩
     let s : State := { site := { state := .low, resources := { slot := some 0 } :: List.replicate 7 {} }
                        due := [.window w], tb := { clockSet := true, clock := 4320000 } }
     w.full = s.tb.clock ∧ s.site.those (fun r => decide (r.slot = some 0) && !decide (r.reported = .on)) ≠ []) := by decide

theorem test_meets_readings : ((State.reset).port .c).init = .high ∧ (State.reset).pi.handed = [] ∧
    (delayed (.run .engaged) 0 0 true false).dly.state = .run .engaged ∧ (1#16).toNat ≠ 0 ∧
    (∀ e ∈ (State.reset).cue.list, e.serial ≠ (1#16).toNat) ∧ 8 < (9#8).toNat ∧
    (State.reset).alc.queue.length < (1#8).toNat ∧ (alerts [alert 40 1 .ready]).alc.queue[(1#8).toNat - 1]? = some (alert 40 1 .ready) ∧
    (2#8).toNat = 2 ∧ (31#8).toNat ≤ 31 ∧ 3 < (4#8).toNat ∧
    ({ log := { entries := [repeated 1], next := 2 } } : State).log.entries = [repeated 1] := by decide

/-! ### The widened statements -/

/-- A SET CLOCK left due after its boundary. -/
def clockDue (more : List Due := []) : State :=
  { due := .clockSet :: more, tb := { pendingTime := some 17279999, clockSet := true, clock := 9 } }

theorem test_meets_left_due_clock : (∃ u, ActsOn clockDue u) ∧ ActsOn State.reset State.reset ∧
    (∃ u, exec .clockSetTakesEffect (clockDue [.dropLines]) = .next u ∧ .clockSet ∉ u.due) ∧
    (Instr.take .a none).request ≠ none ∧ ((clockDue [.dropLines]).port .b).Free :=
  ⟨⟨_, .inr ⟨by decide, by decide, rfl⟩⟩, .inl ⟨by decide, rfl⟩, ⟨_, rfl, by decide⟩, nofun, by decide⟩

theorem test_meets_port_resets_that_end_something :
    (airIn .auto [rec .liveInsert]).air.stack = rec .liveInsert :: [] ∧ ((airIn .auto [rec .liveInsert]).port .b).Free ∧
    (let s := alerts [alert 40 1 .onAir]; s.alc.queue = [alert 40 1 .onAir] ∧ ChainAlone (rec .alert) s ∧ (s.port .c).Free) ∧
    (let s := alerts [alert 40 1 .onAir, alert 41 3 .ready]
     s.alc.queue = [alert 40 1 .onAir, alert 41 3 .ready] ∧ s.alc.wake = false ∧ (s.port .c).init = .high) ∧
    (({ pi := { b := { busy := true } } } : State).port .b).busy = true ∧
    (({ pi := { b := { replyReady := true } } } : State).port .b).replyReady = true := by decide

/-- One key line sampled and one not, a switch to INTERNAL pending, an open request, nothing due. -/
def beforeBoundary : State :=
  { tb := { source := .house, toInternal := true, keys := ⟨{ sampled := true, differed := true }, {}, {}, {}⟩ }
    pi := { a := { phase := .codeTaken, idleCount := 10 } } }

/-- Every key line has been sampled, and line 3's settled level is its active one or the other. -/
def sampledKeys (l : Level) : TB :=
  { keys := ⟨{ sampled := true }, { sampled := true }, { action := .safe, settled := l, sampled := true }, { sampled := true }⟩ }

theorem test_meets_key_samplings : KeysSampled { tb := sampledKeys .low } ∧ ¬ KeysSampled beforeBoundary ∧
    (let s : State := { beforeBoundary with tb := { beforeBoundary.tb with pendingTime := some 17279999 } }
     s.due = [] ∧ s.tb.pendingTime = some 17279999 ∧ ¬ (∀ k ∈ Nth.all, (s.tb.keys.get k).sampled = true)) ∧
    (let s : State := { tb := { sampledKeys .high with keyHeld := true }, out := { reasons := { key := true } } }
     s.out.reasons.key = s.tb.keyHeld ∧ s.out.reasons = { key := true } ∧ (s.tb.keys.get .n3).holds = true) :=
  ⟨fun k => by cases k <;> rfl, fun h => absurd (h .n4) (by decide), by decide, by decide⟩

theorem test_meets_ordinary_boundary : beforeBoundary.due = [] ∧ beforeBoundary.tb.pendingTime = none ∧
    (beforeBoundary.tb.keys.get .n1).sampled = true ∧ (beforeBoundary.tb.keys.get .n4).sampled = false ∧
    (∀ k, k ≠ DueKind.programme → k ∈ allKinds) ∧ (∀ k, k ≠ DueKind.lineAudio → k ∈ allKinds) ∧
    (delayed .frozen 5 0 false false).dly.state = .frozen ∧ (delayed (.run .building) 5 0 false false).dly.stepCount + 1 = 8 ∧
    (let s := delayed (.run .shrinking) 0 5 false false
     let u : State := { s with dly := { s.dly with stepCount := 6 } }; u.due = [] ∧ u.dly.stepCount + 1 < u.dly.ratio) ∧
    (let s : State := { tb := sampledKeys .low, out := { quietRun := 3998, deadAir := false, entry := some (65535, 1) }
                        audio := { cur := { delayed := some ⟨[], { silentBlock.tag with peak := 46, entry := some (1, 2) }⟩ } } }
     s.due = [] ∧ s.out.threshold < 46 ∧ s.out.quietRun + 1 < s.out.silenceTime ∧ s.out.alertFlag = false ∧
     s.out.reasons = {} ∧ s.out.entry.map (·.1) ≠ some 1) ∧
    (let s : State := { tb := sampledKeys .low, out := { soundRun := 998, deadAir := true, lines := ⟨true, false, false, false⟩ } }
     45 ≤ s.out.threshold ∧ s.out.soundRun + 1 < s.out.restoreTime ∧ Four.all false = s.out.lines.set .n1 false ∧
     s.out.lines.get .n1 = true) :=
  ⟨rfl, rfl, rfl, rfl, fun k _ => test_allKinds k, fun k _ => test_allKinds k, by decide⟩

theorem test_meets_completed_requests :
    62 < (63#8).toNat ∧ (0#8).toNat = 0 ∧ ((portIn .codeTaken).port .a).phase = .codeTaken ∧ portsOf 4 = none ∧
    portsOf 3 = some [.a, .b, .c] ∧ decodeRequest .a 3 [] = some (.portReset .a) ∧
    decodeRequest .b 19 [] = some (.liveInsert .b) ∧ Instr.liveInsert .b ≠ .portReset .b := by decide

theorem test_meets_catalogue_lengths : AllowsLength 3 [] ∧ AllowsLength 46 [1, 1, 65] ∧
    AllowsLength 68 (20#8 :: List.replicate 60 0) ∧ ¬ AllowsLength 9 [] ∧ ¬ AllowsLength 46 [1, 2, 65] := by
  refine ⟨.inl ⟨[0], by decide, by decide⟩, .inr (.inr (.inl (by decide))),
    .inr (.inr (.inr (.inr (.inl (by decide))))), fun h => ?_, fun h => ?_⟩
  · rcases h with ⟨ls, hm, hl⟩ | h | h | h | h | h
    · exact (by decide : ∀ x ∈ fixedLengths, x.1 = 9 → 0 ∉ x.2) _ hm rfl hl
    all_goals exact absurd h.1 (by decide)
  · rcases h with ⟨ls, hm, hl⟩ | h | h | h | h | h
    · exact (by decide : ∀ x ∈ fixedLengths, x.1 = 46 → 3 ∉ x.2) _ hm rfl hl
    · exact absurd h.1 (by decide)
    · exact absurd h.2 (by decide)
    all_goals exact absurd h.1 (by decide)

theorem test_meets_requests_not_taken :
    (({ pi := { b := { init := .low } } } : State).port .b).init = .low ∧
    (({ pi := { b := { phase := .complete } } } : State).port .b).phase = .complete ∧
    (({ pi := { b := { phase := .parameters } } } : State).port .b).busy = false ∧
    .clockSet ∉ ({ pi := { b := { phase := .parameters } } } : State).due := by decide

/-- A chip reset's switch to INTERNAL is pending. -/
def switching (n : Nat) : State := { tb := { source := .house, toInternal := true, houseCount := n } }

theorem test_meets_pending_switch : (switching 200).tb.toInternal = true ∧ 200 ≤ (switching 200).tb.houseCount ∧
    (switching 199).tb.houseCount < 200 ∧ (State.reset).tb.toInternal = false ∧ (1#8).toNat = ClockSource.house.place := by decide

/-- Key line 1 with an action on its rising edge, settled LOW, in a state. -/
def keyed (a : KeyAction) (s : State) : State := { s with tb := (keyOne a .rising .low).tb }

theorem test_meets_key_edges :
    (∀ a ∈ [KeyAction.none, .dropLines, .dump, .take, .forward],
      let r := (keyed a {}).tb.keys.get .n1; r.sampled = true ∧ r.settled = otherLevel .high ∧ r.action ≠ .safe) ∧
    (keyed .dump (delayed (.run .engaged) 9 9 false false)).dly.state ≠ .run .bypass ∧
    (State.reset).alc.pendingHead = none ∧
    (let s := keyed .forward (alerts [alert 40 2 .onAir, alert 41 1 .pending])
     s.alc.pendingHead = some (alert 41 1 .pending) ∧ s.alc.onAir = some (alert 40 2 .onAir) ∧ s.air.mode ≠ .test) ∧
    ((keyOne .safe .none .low false).tb.keys.get .n1).sampled = false ∧ KeyEdge.falling.acts .high = false ∧
    (let s : State := { keyOne .safe .none .low with out := { reasons := { key := true } } }
     s.out.reasons = { key := true } ∧ (s.tb.keys.get .n1).settled = otherLevel .high) := by decide

/-- A live insert that suspended an entry stands on a stack; the clock's value. -/
def suspending (e : CueEntry) (rest : List ContextRecord) (clock : Nat) : State :=
  { air := { mode := .auto, stack := { rec .liveInsert with suspended := some (e.serial, 4), number := 4 } :: rest, free := [2, 3] }
    cue := { list := [e], held := true }, tb := { clock := clock, clockSet := true } }

/-- A JOIN of 100 blocks that ends at midnight's fiftieth block. -/
def joined : CueEntry :=
  { serial := 9, kind := .join .netA 100, timing := .breakIn 17279950, logRef := 3, state := .suspended, joinEnd := some 50 }

theorem test_meets_restores :
    (let e := item 9 .n2 (some 50) .suspended; let s := suspending e [] 0
     s.cue.list = [e] ∧ e.state = .suspended ∧ s.alc.readyHead = none ∧ e.kind = .item .n2 (some 50) .cut .resume) ∧
    joined.joinEnd = some 50 ∧ (50 + 17280000 - (suspending joined [] 17279950).tb.clock) % 17280000 = 100 ∧
    (50 + 17280000 - (suspending joined [] 49).tb.clock) % 17280000 = 1 ∧
    (50 + 17280000 - (suspending joined [] 50).tb.clock) % 17280000 = 0 ∧
    (50 + 17280000 - (suspending joined [rec .breakIn] 51).tb.clock) % 17280000 = 17279999 ∧
    (let below : ContextRecord := { rec .liveInsert with number := 2 }
     ({ air := { stack := [rec .alert, below] } } : State).air.stack = rec .alert :: below :: [] ∧
     (rec .alert).kind ≠ .liveInsert ∧ (rec .alert).number ≠ below.number) ∧
    (let r : ContextRecord := { rec .liveInsert with parked := [(.n2, .b)] }
     let s : State := { airIn .auto [r] with lsw := { lines := ⟨{}, { state := .parked }, {}, {}⟩ } }
     s.air.stack = r :: [] ∧ r.suspended = none ∧ s.line .n2 = .parked ∧ s.lsw.anyIn .air = false ∧
     s.dly.state = .run .bypass ∧ s.lsw.liveCalls = false) := by decide

/-- The same state with the report of a SET CLOCK. -/
def reported (r : ClockReport) (e : CueEntry) : State :=
  let s := clocked .live r.new [e]; { s with tb := { s.tb with report := some r } }

theorem test_meets_times_of_a_set_clock :
    (let e := item 1 .n1 none .cued 0 .cut (.hard 0); let f := item 2 .n1 none .waiting 0 .cut (.hard 0)
     (clocked .live 0 [e, f]).cue.list = [e, f] ∧ e.serial ≠ f.serial ∧ f.timing = .hard (clocked .live 0 [e, f]).tb.clock) ∧
    (clocked .auto 0 [item 1 .n1 none .cued 0 .cut (.hard 0)]).alc.readyHead = none ∧
    (∀ x : Nat × ClockReport, x ∈ [(50, ⟨3, 50, false⟩), (49, ⟨3, 50, false⟩), (4, ⟨3, 203, true⟩), (204, ⟨3, 204, true⟩),
        (8640003, ⟨3, 8640003, true⟩), (9, ⟨3, 8640004, true⟩), (3, ⟨3, 50, true⟩), (51, ⟨3, 50, true⟩), (3, ⟨3, 3, true⟩)] →
      let s := reported x.2 (item 1 .n1 none .cued 0 .cut (.hard x.1))
      s.due = [.cueTimes] ∧ s.tb.report = some x.2 ∧ s.tb.clockSet = true ∧ s.air.mode = .live) ∧
    (let s := clocked .auto 0 [breakIn 0 9] [rec .alert]
     let u : State := { s with air := { s.air with chain := .withContext } }
     u.air.chain = .withContext ∧ u.air.stack = rec .alert :: [] ∧ (rec .alert).late = none) ∧
    ({ rec .alert with late := some (5, 0) } : ContextRecord).late ≠ none := by decide

theorem test_meets_line_counts :
    (let s : State := { lsw := { lines := ⟨{ state := .ringing, ringQuiet := 1599 }, { state := .air, loopLoss := 19 },
                                           { state := .clearing, clearing := 1 }, { state := .screening }⟩, slotA := some .n2 } }
     s.due = [] ∧ (s.line .n1 = .ringing ∧ 1600 ≤ 1599 + 1) ∧ (s.line .n2).offHook = true ∧ s.line .n3 = .clearing ∧
     s.line .n4 = .screening ∧ ∀ m ∈ Nth.all, s.line m = .screening → m = .n4) ∧
    (lineIn .hold).line .n1 = .hold ∧ .clockSet ∉ (lineIn .hold).due := by decide

/-- The air is full: no record is left to give. -/
def noRoom (stack : List ContextRecord) (list : List CueEntry) : State :=
  { air := { mode := .auto, stack := stack, free := [4], maxDepth := stack.length }, cue := { list := list, held := true }
    alc := { wake := false } }

theorem test_meets_headers_with_a_chain :
    (let o := { alert 41 1 .onAir with interruptions := 255 }; let s := alerts [o]
     s.alc.queue = [o] ∧ o.header.priority < (header 40 2).priority ∧ 1 ≤ o.validity ∧ s.air.mode ≠ .test) ∧
    (let s := alerts (List.replicate 7 (alert 41 3 .ready) ++ [alert 42 1 .pending])
     s.alc.queue.length = 8 ∧ (header 40 2).pair ∉ s.alc.known ∧ (∀ x ∈ s.alc.queue, x.header.pair ≠ (header 40 2).pair) ∧
     (s.alc.queue.filter fun y => !decide (y.state = .onAir)).getLast? = some (alert 42 1 .pending) ∧
     s.alc.actionFor (header 40 2).event = .hold ∧ 1 ≤ s.alc.liveHold) ∧
    (let s := noRoom [rec .liveInsert] []; s.air.maxDepth ≤ s.air.stack.length ∧ s.alc.queue = [] ∧ s.alc.chainOpen = false ∧
     s.air.chain = .none ∧ s.alc.wake = false ∧ s.cue.list = []) ∧
    (let j := { joined with state := .playing }; let s := noRoom [rec .breakIn] [j]
     s.air.stack = rec .breakIn :: [] ∧ s.cue.list = [j] ∧ j.state = .playing ∧ j.kind = .join .netA 100) := by decide

/-- The alert of a chain is on air; the chain's record, if it has one, and the cue list. -/
def chained (c : ChainState) (stack : List ContextRecord) (list : List CueEntry) (clock : Nat) : State :=
  let s := alerts [alert 40 1 .onAir]
  { s with air := { s.air with chain := c, stack := stack }, cue := { list := list, held := true }, tb := { clock := clock } }

theorem test_meets_chain_ends :
    (let s := alerts [alert 40 1 .onAir, alert 41 1 .ready]
     let w (st : SiteState) : State := { s with alc := { s.alc with wake := true }, site := (sited st true).site }
     (w .full).alc.wake = true ∧ (w .full).site.state = .full ∧ (w .lowering).site.state = .lowering ∧ (w .off).site.state = .off ∧
     (w .low).site.state = .low ∧ (w .low).site.stage = none ∧ (w .low).lnk.queue = [] ∧ (w .low).lnk.outstanding = none) ∧
    ({ slot := some 0 } : Resource).reported ≠ .on ∧
    (let s := chained .withoutContext [rec .breakIn] [] 0
     s.alc.queue = [alert 40 1 .onAir] ∧ s.air.chain = .withoutContext ∧ s.dly.state = .frozen ∧ s.dly.recompute = false ∧
     s.cue.list = [] ∧ s.out.reasons = {}) ∧
    (let r : ContextRecord := { rec .alert with late := some (9, 17279950) }; let j := { joined with state := .cuedLate }
     let s := chained .withContext [r] [j] 49
     s.air.stack = r :: [] ∧ r.late = some (j.serial, 17279950) ∧ s.cue.list = [j] ∧ j.state = .cuedLate ∧
     (s.tb.clock + 17280000 - 17279950) % 17280000 = 99 ∧
     ((chained .withContext [r] [j] 50).tb.clock + 17280000 - 17279950) % 17280000 = 100) := by decide

/-- A return frame with no acknowledgement. -/
def plainFrame (m : SiteMode) (rs : List Reported) : ReturnFrame := ⟨5, m, rs, 15, none, false⟩

/-- The eighth good period, in a site state. -/
def eighth (f : ReturnFrame) (st : SiteState) (last : Option SiteMode) : State :=
  { due := [.link], lnk := { state := .syncing, good := 7, judged := some f }, site := { state := st, lastMode := last } }

/-- A power command out, its stage held. -/
def commanded (since boundaryNo : Nat) (period : Option ReturnFrame) (due : List Due) : State :=
  { due := due, boundaryNo := boundaryNo, tb := sampledKeys .low
    lnk := { state := .up, period := period, queue := [⟨.power 9, 4⟩], outstanding := some ⟨77, since, some 10⟩ }
    site := { state := .starting, stage := some { kind := .power, slot := none, step := 9, toPut := [], awaiting := [.power 9],
                                                  age := 5, commands := true, offs := [], prior := [], id := 4, begun := 0 } } }

theorem test_meets_deliveries_and_acknowledgements :
    (∀ m ∈ [SiteMode.off, .full, .low, .fault], let s := eighth (plainFrame m (List.replicate 8 .off)) .unknown none
      s.due = [.link] ∧ s.site.stage = none ∧ s.tb.source = .internal ∧ s.lnk.good = 7 ∧ s.site.state = .unknown ∧
      s.site.lastMode = none ∧ s.site.resources.length = 8) ∧
    (let f := plainFrame .full [.off, .off, .off, .off, .off, .off, .off, .fault]
     f.resources.getD 7 .off = .fault ∧ (∀ q < 7, f.resources.getD q .off ≠ .fault) ∧ f.resources.length = 8 ∧
     ((eighth f .off none).site.resource 7).reported ≠ .fault ∧ (eighth f .low none).site.pendingWake = false) ∧
    (let s := eighth (plainFrame .fault (List.replicate 8 .off)) .full (some .full)
     s.site.lastMode = some .full ∧ s.site.state ≠ .off ∧ s.site.state ≠ .unknown) ∧
    (let f : ReturnFrame := { plainFrame .full (List.replicate 8 .off) with ack := some (77, true), echo := 137, power := 8 }
     let s := commanded 0 98 (some f) []
     s.due = [] ∧ s.lnk.period = some f ∧ (f.echo + 256 - 10) % 256 = 127 ∧ f.power ≠ 9 ∧ s.boundaryNo + 1 < 0 + 100) ∧
    (let s := commanded 0 100 none [.link]; s.lnk.judged = none ∧ 0 + 100 ≤ s.boundaryNo ∧ s.lnk.missing < 9) ∧
    (let s : State := { due := [.link], lnk := { state := .up, missing := 9 }, tb := { source := .link } }
     s.tb.source = .link ∧ s.tb.toInternal = false ∧ s.lnk.missing = 9) := by decide

theorem test_meets_stops_and_limits :
    (let s := sited .starting true; let u : State := { s with site := { s.site with stage := some (slotStage 0 5 []) } }
     u.site.stage = some (slotStage 0 5 []) ∧ (slotStage 0 5 []).toPut = [] ∧ u.lnk.queue = [] ∧ u.site.resources.length = 8 ∧
     u.site.those (fun r => decide (r.slot = some 7) && (r.commanded || decide (r.reported = .on))) ≠ []) ∧
    (let st := slotStage 0 1999 [.on 0]; let s := sited .starting true [.site]
     let u : State := { s with lnk := { queue := [⟨.on 0, 0⟩], outstanding := some ⟨0, 0, none⟩ }
                               site := { s.site with stage := some st } }
     u.due = [.site] ∧ st.begun < u.boundaryNo ∧ u.lnk.queue = [⟨.on 0, 0⟩] ∧ st.id = 0 ∧ st.awaiting = [.on 0]) ∧
    (let st := slotStage 1 1999 []; let s := sited .starting true [.site]
     let u : State := { s with site := { s.site with stage := some st } }
     st.awaiting = [] ∧ (u.site.resource 1).slot = some 1 ∧ (u.site.resource 1).reported ≠ .on) ∧
    (∀ x : SiteState × Nat × Nat × ClockReport,
        x ∈ [(.full, 7, 30, ⟨5, 20, true⟩), (.full, 20, 7, ⟨5, 20, true⟩), (.low, 7, 20, ⟨5, 20, true⟩), (.low, 5, 20, ⟨5, 20, true⟩),
             (.off, 5, 21, ⟨5, 20, true⟩), (.full, 20, 7, ⟨5, 20, false⟩), (.low, 7, 20, ⟨5, 20, false⟩), (.full, 4, 5, ⟨5, 4, true⟩),
             (.full, 5, 6, ⟨5, 5, true⟩)] →
      let w : LowWindow := ⟨x.2.1, x.2.2.1, true⟩; let s := sited x.1 true [.window w]
      let u : State := { s with tb := { s.tb with clock := x.2.2.2.new, report := some x.2.2.2 } }
      u.due = [.window w] ∧ w.low ≠ w.full ∧ u.tb.report = some x.2.2.2 ∧ u.site.state = x.1) ∧
    (let w : LowWindow := ⟨15840000, 4320000, false⟩; (sited .full true [.window w]).due = [.window w] ∧ w.enabled = false) ∧
    (let w : LowWindow := ⟨1, 2, true⟩; (sited .full true [.window w]).due = [.window w] ∧ (State.reset).tb.clockSet = false) ∧
    (State.reset).due = [] := by decide

/-- The site in a state of a sequence, its stage's commands done, the link UP with a delivery on the way. -/
def delivering (st : SiteState) (stage : Stage) (f : ReturnFrame) (wake : Bool := false) : State :=
  { tb := sampledKeys .low, lnk := { state := .up, period := some f }
    site := { (sited st true).site with stage := some stage, pendingWake := wake } }

theorem test_meets_completions :
    (let st : Stage := { slotStage 0 5 [] with kind := .power, slot := none, step := goodFrame.power }
     let s := delivering .starting st goodFrame; let low := delivering .lowering st goodFrame
     s.due = [] ∧ s.tb = sampledKeys .low ∧ s.tb.pendingTime = none ∧ s.lnk.state = .up ∧ goodFrame.fill = s.lnk.siteFill ∧
     s.site.resources.length = 8 ∧ goodFrame.resources.length = 8 ∧ goodFrame.mode ≠ .fault ∧ s.site.stage = some st ∧
     st.toPut = [] ∧ st.awaiting = [] ∧ goodFrame.power = st.step ∧ low.site.state = .lowering ∧
     (low.site.resource 7).slot = some 7 ∧ (low.site.resource 7).keepInLow = false ∧ (low.site.resource 7).commanded = true) ∧
    (let st : Stage := { slotStage 0 5 [] with kind := .downSlot, offs := [0] }
     let f : ReturnFrame := { goodFrame with resources := List.replicate 8 .off }
     (delivering .lowering st f true).site.pendingWake = true ∧ (delivering .lowering st f).site.pendingWake = false ∧
     st.slot = some 0 ∧ (∀ r ∈ st.offs, f.resources.getD r .off = .off) ∧ f.resources.length = 8 ∧
     ((delivering .lowering st f true).site.resource 0).slot = some 0) ∧
    (let st : Stage := { slotStage 0 5 [] with kind := .downSlot, slot := none, offs := [7] }
     let f : ReturnFrame := { goodFrame with resources := List.replicate 8 .off }
     (delivering .stopping st f).site.stage = some st ∧ ∀ r ∈ st.offs, f.resources.getD r .off = .off) ∧
    (let st := slotStage 7 200 []; let f : ReturnFrame := { goodFrame with resources := List.replicate 8 .on }
     let s := delivering .raising st f
     st.slot = some 7 ∧ s.site.slotLength ≤ st.age ∧ ∀ r < 8, f.resources.getD r .off = .on) := by decide

theorem test_meets_idle_starts :
    (let s : State := { air := { mode := .auto } }; s.cue.list = [] ∧ s.cue.held = false ∧ s.alc.readyHead = none ∧
     s.cue.counter = 1) ∧ timingOf .stop { itemFields with kind := 2 } = some .none ∧
    timingOf (.item .n1 (some 1) .cut .resume) { itemFields with timing := 1, time := 17279999 } = some (.hard 17279999) ∧
    ({ air := { mode := .unattended }, cue := { held := true } } : State).cue.held = true ∧
    (let x : CUE := { list := [item 65535 .n1 none .playing, item 1 .n2 none .cued], counter := 65535 }
     x.counter ≤ 65535 ∧ x.list.length ≤ 64 ∧ x.nextSerial = (65535 - 1 + 2) % 65535 + 1) := by decide

theorem test_meets_passed_stops :
    (let z : CueEntry := { serial := 9, kind := .stop, timing := .none, logRef := 0, state := .cued }
     let q := item 1 .n1 (some 50) .playing 49; let e := item 2 .n2 (some 1) .waiting
     let s := listed .unattended [q, z, e] [.cueCounts]
     s.cue.list = [q, z, e] ∧ (s.cue.list.map (·.serial)).Nodup ∧ q.elapsed + 1 = 50 ∧ q.begun < s.boundaryNo ∧
     s.air.mode = .unattended ∧ s.alc.readyHead = none) ∧
    (let z : CueEntry := { serial := 9, kind := .stop, timing := .none, logRef := 0 }
     let q := item 1 .n1 (some 50) .playing 49; let e := item 2 .n2 none .cued
     (listed .unattended [q, e, z] [.cueCounts]).cue.list = [q, e, z] ∧ z.state = .waiting) := by decide

theorem test_meets_times_with_others_before :
    (let q := item 1 .n1 (some 50) .playing 3 (.fade 9); let x := item 2 .n2 none .cued
     let z : CueEntry := { serial := 9, kind := .stop, timing := .none, logRef := 0 }
     let e := item 3 .n3 none .waiting 0 .cut (.hard 17279999); let s := clocked .auto 17279999 (q :: ([x, z] ++ [e]))
     s.cue.list = q :: ([x, z] ++ [e]) ∧ (s.cue.list.map (·.serial)).Nodup ∧ e.added < s.boundaryNo ∧
     (∀ y ∈ [x, z], (y.state = .cued ∨ y.state = .waiting) ∧ y.timing = .none) ∧ q.state = .playing) ∧
    (let e := { item 3 .n3 none .cued 0 .cut (.hard 5) with added := 1 }; let s := clocked .auto 5 [e]
     s.due = [.cueTimes] ∧ (∀ x ∈ s.cue.list, s.boundaryNo ≤ x.added) ∧ e.timing = .hard s.tb.clock) := by decide

theorem test_meets_riding_commands : (∀ n ∈ [0, 15], ∀ c ∈ [SiteCommand.on 7, .off 7, .power 15],
    let s : State := { lnk := { queue := [⟨c, 0⟩], outstanding := some ⟨n, 0, none⟩ } }
    s.due = [] ∧ s.lnk.queue = ⟨c, 0⟩ :: [] ∧ 0 < s.boundaryNo + 1) ∧ (State.reset).lnk.outstanding = none := by decide

/-- A BREAK-IN's JOIN is PLAYING, its record at the top. -/
def broken (el : Nat) (rest : List ContextRecord) (due : List Due := []) : State :=
  { airIn .auto ({ rec .breakIn with number := 4 } :: rest) with
    due := due, boundaryNo := 1
    cue := { list := [{ joined with state := .playing, elapsed := el, begun := 0 }], held := true } }

theorem test_meets_skips :
    (let e := { joined with state := .cuedLate }; let s := listed .live [e]
     s.cue.find (9#16).toNat = some e ∧ e.state = .cuedLate ∧ s.air.mode = .live) ∧
    (let o := item 1 .n1 none .fading 5 (.fade 400); let p := item 2 .n2 none .playing
     (listed .auto [o, p]).cue.find 1 = some o ∧ (listed .auto [o, p]).cue.playing = some p ∧ p.serial ≠ o.serial ∧
     (listed .live [p]).cue.find 2 = some p ∧ (listed .live [p]).cue.fading = none) ∧
    (let e := item 1 .n1 none .playing; let x := item 2 .n2 none .cued; let s := listed .auto [e, x]
     s.cue.list = [e, x] ∧ x.timing = .none ∧ s.cue.held = false ∧ s.alc.readyHead = none) ∧
    (let s := broken 4 []; s.air.stack = [{ rec .breakIn with number := 4 }] ∧ s.cue.held = true ∧ s.air.chain = .none) := by decide

theorem test_meets_takes_and_ends :
    (let e : CueEntry := { serial := 9, kind := .stop, timing := .none, logRef := 0, state := .cued }
     (listed .live [e]).cue.list = [e] ∧ e.state = .cued ∧ e.serial = (9#16).toNat) ∧
    (let e := { joined with state := .cued }; (listed .live [e]).cue.list = [e] ∧ e.kind = .join .netA 100) ∧
    (let q := item 1 .n1 none .playing; let e := item 2 .n1 none .cued
     let s : State := { listed .auto [q, e] with cue := { list := [q, e], run := ⟨{ high := true }, {}, {}, {}⟩ } }
     let held : State := { s with cue := { s.cue with run := ⟨{ riseAfter := some 3 }, {}, {}, {}⟩ } }
     s.cue.list = [q, e] ∧ q.serial ≠ e.serial ∧ (s.cue.run.get .n1).high = true ∧ s.alc.readyHead = none ∧ s.cue.held = false ∧
     (held.cue.run.get .n1).high = false ∧ (held.cue.run.get .n1).riseAfter.isNone = false) ∧
    (let q := item 1 .n1 none .playing 5 (.fade 400); let e := item 2 .n2 none .cued
     (listed .auto [q, e]).cue.list = [q, e] ∧ q.serial = (1#16).toNat ∧ q.kind = .item .n1 none (.fade 400) .resume) ∧
    (let s := broken 99 [rec .liveInsert] [.cueCounts]
     s.due = [.cueCounts] ∧ (∀ e ∈ s.cue.list, e.elapsed + 1 = 100 ∧ e.begun < s.boundaryNo) ∧
     (∀ x ∈ [rec .liveInsert], x.number ≠ 4) ∧ (s.cue.run.get .n1).riseAfter = none) ∧
    (let e := item 1 .n1 (some 401) .playing 0 (.fade 400); let s := listed .auto [e, item 2 .n2 none .cued] [.cueCounts]
     s.due = [.cueCounts] ∧ e.elapsed + 1 = 401 - 400 ∧ 400 < 401 ∧ e.begun < s.boundaryNo) := by decide

/-- A second TAKE on a channel whose run line is held low for this block period leaves it low until the boundary (R61). -/
theorem test_a_held_run_line_stays_low :
    (let s := listed .auto [item 1 .n1 none .playing, item 2 .n1 none .cued]
     match exec (.take .a none) { s with cue := { s.cue with run := ⟨{ riseAfter := some s.boundaryNo }, {}, {}, {}⟩ } } with
     | .next t => decide ((t.cue.run.get .n1).high = false ∧ (t.cue.run.get .n1).riseAfter = some s.boundaryNo ∧
         t.cue.list.map (·.state) = [.playing])
     | _ => false) = true := by decide +kernel

theorem test_meets_link_recoveries :
    (let s : State := { lnk := { state := .up }, tb := { source := .link, link := .up } }
     Arrives (.linkRestart .b) .b s ∧ s.tb.source = .link ∧ s.tb.toInternal = false ∧ s.lnk.state ≠ .down ∧
     s.lnk.outstanding = none) ∧
    (let s := commanded 0 98 none []
     ∃ st, s.site.stage = some st ∧ s.lnk.queue = ⟨.power 9, 4⟩ :: [] ∧ st.id = 4 ∧ st.toPut = [] ∧
       s.tb.good s.tb.source = true ∧ s.tb.source ≠ .link) ∧
    (linked { state := .degraded, good := 7, missing := 399, judged := some goodFrame }).lnk.state = .degraded ∧
    (let s : State := { tb := sampledKeys .low, lnk := { period := some goodFrame } }
     s.due = [] ∧ s.lnk.state = .down ∧ s.lnk.period = some goodFrame ∧ s.lnk.outstanding = none ∧ s.tb.source = .internal) :=
  ⟨by decide, ⟨_, rfl, by decide⟩, by decide, by decide⟩

theorem test_meets_withdrawn_commands :
    (let st : Stage := { slotStage 0 5 [.on 0] with prior := [(0, false)] }; let s := sited .raising false
     let u : State := { s with lnk := { queue := [⟨.power 9, 4⟩, ⟨.on 0, 0⟩], outstanding := some ⟨0, 0, none⟩ }
                               site := { s.site with stage := some st } }
     u.site.stage = some st ∧ u.lnk.queue = ⟨.power 9, 4⟩ :: [⟨.on 0, 0⟩] ∧ (st.prior.map (·.1)).Nodup ∧
     u.site.resources.length = 8 ∧ (u.site.resource 7).slot.isSome = true ∧ (u.site.resource 7).commanded = true) := by decide

theorem test_meets_all_readings : ((State.reset).port .c).Free ∧ (State.reset).pi.handed = [] ∧ .clockSet ∉ (State.reset).due ∧
    (let s : State := { lnk := { queue := [⟨.on 1, 0⟩, ⟨.on 2, 0⟩], outstanding := some ⟨127, 0, none⟩ } }
     s.lnk.queue = ⟨.on 1, 0⟩ :: [⟨.on 2, 0⟩] ∧ s.lnk.outstanding = some ⟨127, 0, none⟩) ∧
    (let s := listed .live [item 1 .n1 none .cued, item 2 .n2 none .waiting]
     s.cue.list = [item 1 .n1 none .cued] ++ item 2 .n2 none .waiting :: [] ∧ (2#16).toNat ≠ 0 ∧
     (item 2 .n2 none .waiting).serial = (2#16).toNat ∧ ∀ q ∈ [item 1 .n1 none .cued], q.serial ≠ (2#16).toNat) ∧
    (item 1 .n1 none .cued).timeReached = false ∧ joined.kind = .join .netA 100 ∧ (32#8).toNat > 31 ∧
    (let held := [repeated 1].length + 1
     ∀ x : Nat × Nat, x ∈ [(2, 0), (1, 1)] → 2 - x.1 = x.2 ∧ x.2 < held) ∧
    (2 + 4294967295 - 4294967295 : Nat) = 2 ∧ 2147483648 ≤ 2 + 4294967295 - 2147483649 := by decide

/-- A record's suspended ITEM, its elapsed count 5. -/
def saved (p : Policy) : CueEntry :=
  { serial := 3, kind := .item .n1 (some 50) .cut p, timing := .none, logRef := 3, state := .suspended, elapsed := 5 }

/-- What a record with a suspended entry and callers saved, as a state shows it: the entry in the list, the lines parked. -/
def parkedOn (s : State) (list : List CueEntry) (live : Bool := false) : State :=
  { s with cue := { list := list, held := true }
           lsw := { lines := ⟨{}, { state := .parked }, {}, { state := .parked }⟩, liveCalls := live } }

/-- A record that saved an entry, or none, and the callers of lines 2 and 4. -/
def saving (k : RecordKind) (e : Option CueEntry) (before : RunState := .engaged) : ContextRecord :=
  { rec k with suspended := e.map fun e => (e.serial, e.elapsed), parked := [(.n2, .b), (.n4, .a)]
               delayBefore := if k = .alert then some before else none }

theorem test_meets_entries_given_back (p : Policy) :
    let r : ContextRecord := { saving .alert (some (saved p)) with parked := [] }
    let s := chained .withContext [r] [saved p] 0
    ChainOnTop r [] s ∧ r.suspended = some ((saved p).serial, 5) ∧ s.cue.list = [saved p] ∧ (saved p).state = .suspended := by
  cases p <;> decide

theorem test_meets_records_of_a_chain_given_back :
    (let r := saving .alert (some (saved .resume)); let s := parkedOn (alerts [alert 40 1 .onAir] [.alerts]) [saved .resume]
     let u : State := { s with air := { s.air with stack := [r] } }
     ChainOnTop r [] u ∧ u.dly.returnsTo (r.delayBefore.getD .bypass) ≠ .bypass ∧ r.parked ≠ [] ∧
     (r.parked.map (·.1)).Nodup ∧ (r.parked.map (·.2)).Nodup ∧ (∀ p ∈ r.parked, u.line p.1 = .parked) ∧
     u.lsw.anyIn .air = false) ∧
    (let r := saving .alert none .bypass; let s := parkedOn (alerts [alert 40 1 .onAir]) []
     let u : State := { s with air := { s.air with stack := [r] } }
     ChainOnTop r [] u ∧ u.dly.returnsTo (r.delayBefore.getD .bypass) = .bypass ∧ u.lsw.liveCalls = false ∧
     ({ u.dly with recompute := true, target := 1 } : DLY).returnsTo .bypass = .building) ∧
    (let below : ContextRecord := { rec .breakIn with number := 2 }; let r : ContextRecord := { rec .alert with suspended := some (9, 4) }
     let s := chained .withContext [r, below] [joined] 50
     ChainOnTop r [below] s ∧ joined.joinEnd = some 50 ∧ (50 + 17280000 - s.tb.clock) % 17280000 = 0 ∧
     below.kind = .breakIn) := by decide

theorem test_meets_records_of_a_break_in_given_back :
    (let r := saving .breakIn (some (saved .resume)); let s := parkedOn (airIn .live [r]) [saved .resume]
     let u : State := { s with due := [.joinEnd 1 9] }
     u.air.stack = r :: [] ∧ u.due = [.joinEnd r.number 9] ∧ u.air.chain = .none ∧ u.alc.readyHead = none ∧
     u.dly.state = .run .bypass ∧ u.lsw.liveCalls = false) ∧
    (let r := { saving .breakIn (some (saved .resume)) with number := 4 }; let s := broken 99 [] [.cueCounts]
     let j : CueEntry := { joined with state := .playing, elapsed := 99, begun := 0 }
     let u := parkedOn { s with air := { s.air with mode := .live, stack := [r] } } [j, saved .resume] true
     u.due = [.cueCounts] ∧ u.cue.list = j :: [saved .resume] ∧ (∀ e ∈ [saved .resume], e.serial ≠ j.serial) ∧
     j.begun < u.boundaryNo ∧ j.elapsed + 1 = 100 ∧ u.cue.held = true ∧ u.air.stack = r :: [] ∧ u.air.chain = .none ∧
     (∀ c ∈ [Nth.n1, .n2, .n3, .n4], (u.cue.run.get c).riseAfter = none) ∧ u.alc.readyHead = none ∧
     u.lsw.liveCalls = true) := by decide

theorem test_meets_withdrawals_without_a_record :
    (let below : ContextRecord := { rec .breakIn with number := 2 }; let r : ContextRecord := { rec .breakIn with suspended := some (9, 4) }
     let s : State := { chained .withoutContext [r, below] [joined] 0 with due := [.withdrawal 1 7] }
     s.air.stack = r :: [below] ∧ s.due = [.withdrawal r.number 7] ∧ s.air.chain = .withoutContext ∧
     (∀ x ∈ [below], x.number ≠ r.number) ∧ s.cue.list = [joined] ∧ joined.state = .suspended ∧ joined.feed = some .netA) ∧
    (let r := saving .liveInsert (some (saved .skip)); let s := parkedOn (chained .withoutContext [r] [] 0) [saved .skip]
     s.air.stack = r :: [] ∧ s.air.chain = .withoutContext ∧ (∀ p ∈ r.parked, s.line p.1 = .parked) ∧
     (saved .skip).feed = none) := by decide

/-- A state whose blocks AIR formed from P3. -/
def formed (s : State) : State :=
  let p3 : Block := { silentBlock with tag := { silentBlock.tag with origin := .programme (.play .n3) } }
  s.withAudio { s.audio with cur := { programme := p3 }, prev := { programme := p3 } }

theorem test_meets_blocks_kept :
    let s := formed (alerts [alert 40 1 .onAir] [.delay, .output])
    Instr.chipReset ∈ [Instr.alertEnd .c 310 40, .chipReset] ∧ .clockSet ∉ s.due ∧ s.air.chain ≠ .none ∧ .delay ∈ s.due ∧
    .output ∈ s.due ∧ ∃ t, exec .chipReset s = .next t ∧ t.air.chain = .none :=
  ⟨by decide, by decide, by decide, by decide, by decide, _, rfl, rfl⟩

/-- A chain's last programme block is DLY's at its first boundary after the end of the chain (R1, R108, R123): in BYPASS it is the
delayed block. -/
theorem test_a_chains_last_block_is_delays :
    (let t := airingEnds (alert 40 1 .onAir) .alertEnded (.alertEnd .ended)
        (formed (chained .withContext [{ rec .alert with delayBefore := some .bypass }] [] 0))
     decide (t.air.chain = .none ∧ t.dly.state = .run .bypass ∧
       ((delayStage t).audio.cur.delayed.map fun b => b.tag.origin) = some (.programme (.play .n3)))) = true := by decide +kernel

theorem test_meets_port_resets_with_a_request_open :
    (∀ ph ∈ [Phase.idle, .codeTaken, .parameters], ((portIn ph).port .a).TakesBytes) ∧ .clockSet ∉ (portIn .parameters).due ∧
    (({ pi := { a := { init := .low } } } : State).port .a).init = .low := by decide

theorem test_meets_port_resets_that_give_back :
    (let r := saving .liveInsert (some (saved .resume)); let s := parkedOn (airIn .auto [r]) [saved .resume]
     s.air.stack = r :: [] ∧ r.kind = .liveInsert ∧ s.air.chain = .none ∧ s.alc.readyHead = none ∧ (s.port .b).TakesBytes ∧
     r.parked ≠ [] ∧ (r.parked.map (·.1)).Nodup ∧ (r.parked.map (·.2)).Nodup ∧ (∀ p ∈ r.parked, s.line p.1 = .parked) ∧
     s.lsw.anyIn .air = false ∧ s.dly.state = .run .bypass ∧ s.lsw.liveCalls = false) ∧
    (let r := saving .liveInsert (some (saved .skip)); let s := parkedOn (chained .withoutContext [r] [] 0) [saved .skip]
     s.air.stack = r :: [] ∧ s.air.chain = .withoutContext ∧ (s.port .b).TakesBytes ∧
     (∀ p ∈ r.parked, s.line p.1 = .parked) ∧ (saved .skip).feed = none) ∧
    (let r : ContextRecord := { rec .liveInsert with number := 3 }; let above : ContextRecord := { rec .breakIn with number := 2 }
     let s : State := airIn .auto [rec .alert, above, r]
     s.air.stack = [rec .alert] ++ above :: r :: [] ∧ r.kind = .liveInsert ∧ (s.port .b).init = .high ∧
     ∀ x ∈ [rec .alert] ++ [above], x.kind ≠ .liveInsert ∧ x.number ≠ r.number) := by decide

theorem test_meets_clearing_not_over :
    (lineIn .hold).line .n1 ≠ .clearing ∧
    (({ lsw := { lines := ⟨{ state := .clearing, clearing := 1 }, {}, {}, {}⟩ } } : State).lsw.lines.get .n1).clearing ≠ 0 := by decide

theorem test_meets_cancelled_with_the_chain_closed :
    (let e := alert 40 2 .pending; let f := { alert 41 1 .ready with advisory := 1 }; let s := alerts [e, f] [] .auto
     s.alc.find ⟨310, 40⟩ = some e ∧ e.state ≠ .onAir ∧
     ∀ x ∈ s.alc.queue, x.header.pair ≠ ⟨310, 40⟩ → x.state = .ready →
       s.air.mode ≠ .live ∧ x.header.priority = 1 ∧ x.advisory ≠ 0) ∧
    (let e := { alert 40 1 .ready with advisory := 1 }; let f := alert 41 1 .ready; let s := alerts [e, f] [] .auto
     s.alc.find ⟨310, 40⟩ = some e ∧ s.alc.queue = [e, f] ∧ f.header.pair ≠ ⟨310, 40⟩ ∧ f.advisory = 0 ∧
     s.alc.chainOpen = false ∧ s.air.chain = .none ∧ s.air.stack.length < s.air.maxDepth ∧ s.alc.wake = false) := by decide

/-- The air before a grant: one entry PLAYING on P3, one FADING on P1, one waiting, a caller on air, DLY engaged. -/
def playingAir : State :=
  { onAirLive with
    cue := { list := [item 10 .n1 (some 500) .fading 40, item 9 .n3 (some 500) .playing 40, item 11 .n2 (some 500) .waiting]
             run := ⟨{ high := true }, {}, { high := true }, {}⟩ }
    dly := { state := .run .engaged, target := 5, writePos := 5 }, alc := { wake := false, areas := [7] }, boundaryNo := 1 }

/-- A grant with a record keeps the entry that was playing, its elapsed count, the lines on air and DLY's state (R31, R70, R101,
R121). -/
theorem test_a_grant_keeps_the_air_in_a_record :
    (match exec (.alertHeader .c (sentHeader 3)) playingAir with
     | .next t => decide (t.air.stack = [⟨1, .alert, selectedSource playingAir, some (9, 40), [(.n1, .a)], some .engaged, none⟩]) &&
       decide (t.air.free = playingAir.air.free.drop 1 ∧ t.due = [.gateReport false playingAir.lsw.liveCalls]) &&
       decide ((t.cue.list.map fun e => (e.serial, e.state)) = [(9, .suspended), (11, .waiting)] ∧
         (t.cue.run.map (·.high)).toList = [false, false, false, false]) &&
       [1, 5, 6, 8, 9, 15].all fun n => (t.port .a).flags.getLsbD n
     | _ => false) = true := by decide +kernel

theorem test_meets_grants_with_a_record :
    (playingAir.cue.list.map (·.serial)).Nodup ∧ playingAir.lsw.anyIn .air = true ∧ playingAir.alc.queue = [] ∧
    playingAir.air.mode ≠ .test ∧ playingAir.air.stack.length < playingAir.air.maxDepth ∧
    (let s : State := { alerts [] [] .test with out := { reasons := { test := true } } }
     s.air.mode = .test ∧ s.out.reasons.silence = (s.out.deadAir && s.out.failover) ∧
     s.out.reasons.test = true ∧ ({ s.out.reasons with test := false } : SafeSet) = {}) ∧
    (let e := { alert 41 1 .ready with advisory := 1, validity := 2 }
     let s : State := { playingAir with due := [.alerts], air := { playingAir.air with mode := .auto }
                                        alc := { playingAir.alc with queue := [e] } }
     s.due = [.alerts] ∧ s.alc.queue = [e] ∧ 1 < e.validity ∧ s.alc.chainOpen = false ∧ s.air.chain = .none ∧
     s.alc.goRiseAfter = none) := by decide

/-- A source and a house count at a boundary that every key line has been sampled before. -/
def houseAt (n : Nat) (src : ClockSource) : State :=
  { tb := { sampledKeys .low with houseCount := n, source := src } }

/-- The count and the source after a boundary that takes the judgement of HOUSE alone. -/
def houseAfter (edges : Nat) (ppm : Int) (n : Nat) : Nat × ClockSource :=
  match exec (.blockBoundary { houseEdges := edges, housePpm := ppm } [.house]
      (allKinds.filter fun k => decide (k ≠ .house))) (houseAt n .house) with
  | .next t => (t.tb.houseCount, t.tb.source)
  | _ => (0, .internal)

/-- A qualifying period counts up to 200, any other clears the count, whatever it was, and HOUSE is left (R8, R11). -/
theorem test_a_period_counts_for_house_or_clears_the_count :
    ([0, 198, 199, 200].map (houseAfter 240 500)) = [(1, .house), (199, .house), (200, .house), (200, .house)] ∧
    ([0, 198, 199, 200].map (houseAfter 240 (-500))).map (·.1) = [1, 199, 200, 200] ∧
    ([0, 198, 199, 200].map (houseAfter 239 0)) = List.replicate 4 (0, .internal) ∧
    ([199, 200].map (houseAfter 240 501)) = List.replicate 2 (0, .internal) ∧
    ([199, 200].map (houseAfter 240 (-501))) = List.replicate 2 (0, .internal) := by decide +kernel

theorem test_meets_house_periods : (houseAt 200 .house).due = [] ∧ (∀ k, k ≠ DueKind.house → k ∈ allKinds) ∧
    KeysSampled (houseAt 199 .house) ∧ (houseAt 199 .internal).tb.source ≠ .link ∧
    DueNow .house (houseDue true 198 .internal) ∧ (houseDue true 198 .internal).tb.houseCount ≠ 199 ∧
    (houseDue true 198 .internal).tb.houseOk = true ∧ (houseDue false 199 .house).tb.houseCount < 200 ∧
    (houseDue false 199 .house).tb.houseOk = false :=
  ⟨rfl, fun k _ => test_allKinds k, fun k => by cases k <;> rfl, by decide, by decide, by decide, rfl, by decide, rfl⟩

/-- Line 1 lost on air, alone or beside line 2, and lost PARKED in a record that keeps line 2 too. -/
def lostLine (one two : LineState) : State :=
  { lsw := { lines := ⟨{ state := one, loopLoss := 20 }, { state := two }, {}, {}⟩ }
    air := { chain := .withContext, stack := [{ rec .alert with parked := [(.n1, .a), (.n2, .b)] }] } }

/-- A line lost PARKED leaves its record alone (R29, R97). -/
theorem test_a_parked_line_lost_leaves_its_record :
    (match exec (.loopSenseDrop .n1) (lostLine .parked .parked) with
     | .next t => decide (t.line .n1 = .clearing ∧ t.line .n2 = .parked ∧ (t.air.stack.map (·.parked)) = [[(.n2, .b)]] ∧ t.due = [])
     | _ => false) = true := by decide +kernel

theorem test_meets_lines_lost : .clockSet ∉ (lostLine .parked .parked).due ∧ (lostLine .parked .parked).line .n1 = .parked ∧
    20 ≤ ((lostLine .parked .parked).lsw.lines.get .n1).loopLoss ∧ LineState.air.offHook = true ∧
    (lostLine .air .idle).line .n1 = .air ∧ (∀ m ∈ Nth.all, m ≠ .n1 → (lostLine .air .idle).line m ≠ .air) ∧
    (∃ m ∈ Nth.all, m ≠ .n1 ∧ (lostLine .air .air).line m = .air) ∧
    (((lineIn .idle).lsw.lines.get .n1).loopLoss < 20) := by decide

theorem test_meets_dumps_and_steps_that_change_the_state_or_not :
    (let s := delayed (.run .engaged) 5 5 false false
     s.dly.state ≠ .run .bypass ∧ s.dly.readPos < 8192 ∧ s.dly.writePos < 8192 ∧
     (performDump s).dly.state = .run .building ∧ (performDump s).dly.stepCount = 0) ∧
    (let s := delayed (.run .building) 9 5 false false
     (performDump s).dly.state = s.dly.state ∧ (performDump s).dly.stepCount = s.dly.stepCount) ∧
    (let s := delayed (.run .building) 6000 5998 false false [.delay]
     DueNow .delay s ∧ s.dly.delay + 1 ≠ s.dly.target ∧ s.dly.delay < 8191) ∧
    (let s := delayed (.run .shrinking) 0 2 false false [.delay]
     DueNow .delay s ∧ s.dly.delay - 1 ≠ s.dly.target) := by decide +kernel
end

section
/-! Telephone lines: what a request that names a line answers (R88 to R92), and TAKE LINE (R95). -/

namespace Sys2Proof.Machine

open Sys2Proof

/-! ### Line numbers -/

theorem nthOf_number {b : Byte} {l : Nth} (h : b.toNat = l.number) : nthOf b = some l := by
  unfold nthOf
  rw [h]
  cases l <;> rfl

theorem nthOf_outside {b : Byte} (h : b.toNat = 0 ∨ 4 < b.toNat) : nthOf b = none := by
  unfold nthOf
  rcases h with h | h
  · rw [h]; rfl
  · obtain ⟨n, hn⟩ := Nat.exists_eq_add_of_lt h
    rw [hn, show 4 + n + 1 = n + 5 by omega]
    rfl

/-- A number 1 to 4 is that of a line. -/
theorem exists_line_number {b : Byte} (low : 1 ≤ b.toNat) (high : b.toNat ≤ 4) : ∃ l : Nth, b.toNat = l.number := by
  obtain h | h | h | h : b.toNat = 1 ∨ b.toNat = 2 ∨ b.toNat = 3 ∨ b.toNat = 4 := by omega
  exacts [⟨.n1, h⟩, ⟨.n2, h⟩, ⟨.n3, h⟩, ⟨.n4, h⟩]

/-! ### Requests of port B -/

/-- A request of port B is no PORT RESET, which every port takes. -/
theorem ne_portReset_of_portB {i : Instr} {p : PortId} {code : Nat} {ps : List Byte}
    (h : i.request = some ⟨p, code, ps⟩) (c : portsOf code = some [.b]) (q : PortId) : i ≠ .portReset q := by
  rintro rfl
  cases h
  cases c

/-- PI passes a request of port B on its port. -/
theorem piRefusal_portB {code : Nat} {ps : List Byte} (c : portsOf code = some [.b]) (fits : ps.length ≤ 62) :
    piRefusal ⟨.b, code, ps⟩ = none := by
  unfold piRefusal
  rw [if_neg (by simpa using fits)]
  simp [c]

/-- A request of port B is refused NOT_PERMITTED on every other port. -/
theorem refusedOff_portB {request : PortId → Instr} {code : Nat} {ps : List Byte} (s : State)
    (h : ∀ p, (request p).request = some ⟨p, code, ps⟩) (c : portsOf code = some [.b]) (fits : ps.length ≤ 62) :
    RefusedOff [.b] request code s := by
  refine refusedOff_of fun p hp => ⟨_, h p, rfl, rfl, ?_, ne_portReset_of_portB (h p) c⟩
  unfold piRefusal
  rw [if_neg (by simpa using fits)]
  simp only [c]
  exact if_neg hp

/-! ### A request that names a line -/

theorem onLine_outside {b : Byte} {allowed : LineState → Bool} {act : Nth → State → State} {s : State}
    (h : b.toNat = 0 ∨ 4 < b.toNat) : onLine b allowed act s = (s, ⟨.badValue, []⟩) := by
  unfold onLine
  rw [nthOf_outside h]
  rfl

theorem onLine_number {b : Byte} {allowed : LineState → Bool} {act : Nth → State → State} {s : State} {l : Nth}
    (h : b.toNat = l.number) :
    onLine b allowed act s = if allowed (s.line l) then (act l s, ⟨.ok, []⟩) else (s, ⟨.wrongState, []⟩) := by
  unfold onLine
  rw [nthOf_number h]
  rfl

/-- What a request of port B that names a line answers: BAD_VALUE for no line, WRONG_STATE in a state that is not allowed, and
otherwise OK with its effect. -/
structure AnswersOnLine (i : Instr) (code : Nat) (b : Byte) (allowed : LineState → Bool) (act : Nth → State → State)
    (s : State) : Prop where
  badValue : b.toNat = 0 ∨ 4 < b.toNat → exec i s = .next (replyTo .b code ⟨.badValue, []⟩ s)
  wrongState : ∀ l : Nth, b.toNat = l.number → allowed (s.line l) = false →
    exec i s = .next (replyTo .b code ⟨.wrongState, []⟩ s)
  taken : ∀ l : Nth, b.toNat = l.number → allowed (s.line l) = true →
    exec i s = .next (replyTo .b code ⟨.ok, []⟩ (act l s))

/-- A request of port B that comes as bytes there is answered by its owner. -/
theorem exec_portB (i : Instr) {code : Nat} {ps : List Byte} {s : State} (h : i.request = some ⟨.b, code, ps⟩)
    (c : portsOf code = some [.b]) (fits : ps.length ≤ 62) (a : Arrives i .b s) :
    exec i s = .next (replyTo .b code (ownerAct i s).2 (ownerAct i s).1) :=
  exec_arrives _ h rfl a (piRefusal_portB c fits) (ne_portReset_of_portB h c)

/-- A request of port B whose owner acts on a line answers as `AnswersOnLine` says. -/
theorem answersOnLine (i : Instr) (owner : OwnerEvent) {code : Nat} {ps : List Byte} {b : Byte} {allowed : LineState → Bool}
    {act : Nth → State → State} {s : State} (h : i.request = some ⟨.b, code, ps⟩) (c : portsOf code = some [.b])
    (fits : ps.length ≤ 62) (a : Arrives i .b s) (own : ownerAct i = owner) (shape : owner s = onLine b allowed act s) :
    AnswersOnLine i code b allowed act s := by
  have run := exec_portB i h c fits a
  rw [own, shape] at run
  refine ⟨fun hb => ?_, fun l hl no => ?_, fun l hl yes => ?_⟩
  · rw [run, onLine_outside hb]
  · rw [run, onLine_number hl, no]; rfl
  · rw [run, onLine_number hl, yes]; rfl

/-! ### The lines after an operation -/

theorem modify_get (x : LSW) (l : Nth) (f : Line → Line) : (x.modify l f).lines.get l = f (x.lines.get l) :=
  four_get_modify ..

theorem modify_get_other (x : LSW) {l m : Nth} (f : Line → Line) (h : m ≠ l) :
    (x.modify l f).lines.get m = x.lines.get m := four_get_set_other _ _ _ _ h

theorem screenAside_get (x : LSW) (m : Nth) : x.screenAside.lines.get m =
    if (x.lines.get m).state = .screening then (x.lines.get m).waits .hold else x.lines.get m := four_get_map ..

/-- A line that holds no slot leaves the ready queue alone. -/
theorem release_of_no_slot {x : LSW} {l : Nth} (a : x.slotA ≠ some l) (b : x.slotB ≠ some l) :
    x.release l = { x with queue := x.queue.filter fun m => !decide (m = l) } := by
  unfold LSW.release
  rw [if_neg a, if_neg b]

/-- A line taken to SCREENING puts the one already there on HOLD, and no other line moves (R88, R90). -/
theorem screened_lines {x : LSW} {l : Nth} (f : Line → Line) (other : (x.lines.get l).state ≠ .screening) :
    (x.screenAside.modify l f).lines.get l = f (x.lines.get l) ∧
    (∀ m, m ≠ l → (x.lines.get m).state = .screening →
      (x.screenAside.modify l f).lines.get m = (x.lines.get m).waits .hold) ∧
    (∀ m, m ≠ l → (x.lines.get m).state ≠ .screening → (x.screenAside.modify l f).lines.get m = x.lines.get m) := by
  refine ⟨?_, fun m hm st => ?_, fun m hm st => ?_⟩
  · rw [modify_get, screenAside_get, if_neg other]
  · rw [modify_get_other _ _ hm, screenAside_get, if_pos st]
  · rw [modify_get_other _ _ hm, screenAside_get, if_neg st]

/-! ### ANSWER, SCREEN, HOLD, READY, UNREADY -/

/-- Settles O33: a line not yet in SCREENING is left alone by the step that puts the one there aside. -/
theorem linesAreScreened : Obligations.LinesAreScreened := by
  refine ⟨fun b s => ⟨refusedOff_portB s (fun _ => rfl) rfl (by simp), fun a => ?_⟩,
    fun b s => ⟨refusedOff_portB s (fun _ => rfl) rfl (by simp), fun a => ?_⟩⟩
  · have ans := answersOnLine (.answer .b b) (ownerAnswer b) rfl rfl (by simp) a rfl rfl
    refine ⟨ans.badValue, fun l hl => ⟨fun no => ans.wrongState l hl (by simpa using no), fun ringing => ?_⟩⟩
    obtain ⟨here, aside, rest⟩ := screened_lines
      (fun r => { r.goes .screening with ringQuiet := 0, loopLoss := 0 }) (line_ne ringing (by decide))
    exact ⟨_, ans.taken l hl (by simp [ringing]), here, aside, rest, rfl⟩
  · have ans := answersOnLine (.screen .b b) (ownerScreen b) rfl rfl (by simp) a rfl rfl
    refine ⟨ans.badValue, fun l hl => ⟨fun noHold noReady => ans.wrongState l hl (by simp [noHold, noReady]),
      fun st noA noB => ?_⟩⟩
    have other : (s.lsw.lines.get l).state ≠ .screening :=
      st.elim (fun h => line_ne h (by decide)) fun h => line_ne h (by decide)
    have taken := ans.taken l hl (by simpa using st)
    rw [release_of_no_slot (x := s.lsw.screenAside) noA noB] at taken
    obtain ⟨here, aside, rest⟩ := screened_lines (·.goes .screening) other
    exact ⟨_, taken, here, aside, rest, rfl, rfl⟩

/-- TAKE LINE takes no line but a READY one (R95). -/
theorem takeLineNamed_of_not_ready {l : Nth} {s : State} (h : s.line l ≠ .ready) :
    (takeLineNamed (some l) s).2.result ≠ .ok := by
  unfold takeLineNamed
  split
  · exact nofun
  split
  · exact nofun
  split
  · exact nofun
  split
  · exact nofun
  · dsimp only
    rw [if_neg h]
    exact nofun

/-- Settles O34: the line is in HOLD after it, and the rest follows from that state. -/
theorem holdPutsAScreenedLineOnHold : Obligations.HoldPutsAScreenedLineOnHold := by
  refine fun b s => ⟨refusedOff_portB s (fun _ => rfl) rfl (by simp), fun a => ?_⟩
  have ans := answersOnLine (.hold .b b) (ownerHold b) rfl rfl (by simp) a rfl rfl
  refine ⟨ans.badValue, fun l hl => ⟨fun no => ans.wrongState l hl (by simpa using no), fun screening => ?_⟩⟩
  intro t
  have held : t.lsw.lines.get l = (s.lsw.lines.get l).waits .hold := modify_get s.lsw l (·.waits .hold)
  refine ⟨ans.taken l hl (by simp [screening]), rfl, ?_, takeLineNamed_of_not_ready (line_ne (a := .hold) ?_ (by decide))⟩
  · rw [held]; rfl
  · exact congrArg Line.state held

/-- A note of at most 24 printable characters fits (R91). -/
theorem noteFits_iff {note : Option (List Byte)} :
    noteFits note = true ↔ ∀ cs, note = some cs → cs.length ≤ 24 ∧ ∀ c ∈ cs, 32 ≤ c.toNat ∧ c.toNat ≤ 126 := by
  cases note <;> simp [noteFits, printable]

/-- What READY does to LSW and its line: the note written, the waiting kept from HOLD, the line behind the queue (R91). -/
def readyLine (note : Option (List Byte)) (l : Nth) (s : State) : State :=
  let x := s.lsw.modify l fun r =>
    { r.annotate note with
      state := .ready, waiting := if (r.annotate note).state = .hold then (r.annotate note).waiting else some 0 }
  linesChange { x with queue := x.queue ++ [l] } s

/-- READY refuses a note that does not fit before it looks at the line (R91). -/
theorem ownerReady_unfit {b : Byte} {note : Option (List Byte)} {s : State} (h : noteFits note = false) :
    ownerReady b note s = (s, ⟨.badValue, []⟩) := by
  unfold ownerReady
  rw [h]
  rfl

/-- With a note that fits, READY acts on its line (R91). -/
theorem ownerReady_fit {b : Byte} {note : Option (List Byte)} {s : State} (h : noteFits note = true) :
    ownerReady b note s = onLine b (fun st => decide (st = .screening ∨ st = .hold)) (readyLine note) s := by
  unfold ownerReady
  rw [h]
  rfl

/-- Settles O35: the note is judged first, then the line. -/
theorem readyQueuesALine : Obligations.ReadyQueuesALine := by
  intro b note s wf
  have bytes : ∃ ps : List Byte, ps.length ≤ 62 ∧ ∀ p, (Instr.ready p b note).request = some ⟨p, 44, ps⟩ := by
    cases note with
    | none => exact ⟨[b], by simp, fun _ => rfl⟩
    | some cs =>
      have short : cs.length ≤ 60 := by simpa [Instr.wellFormed] using wf
      exact ⟨_, by simp only [List.length_cons]; omega, fun _ => rfl⟩
  obtain ⟨ps, fits, req⟩ := bytes
  refine ⟨refusedOff_portB s req rfl fits, fun a => ?_⟩
  have run := exec_portB (.ready .b b note) (req .b) rfl fits a
  have unfit (no : noteFits note = false) :
      exec (.ready .b b note) s = .next (replyTo .b 44 ⟨.badValue, []⟩ s) := by
    rw [run]
    simp only [ownerAct, ownerReady_unfit no]
  have fit (yes : noteFits note = true) :=
    answersOnLine (.ready .b b note) (ownerReady b note) (req .b) rfl fits a rfl (ownerReady_fit yes)
  refine ⟨fun hb => ?_, fun cs hcs bad => unfit ?_, fun l hl good => ?_⟩
  · cases yes : noteFits note with
    | true => exact (fit yes).badValue hb
    | false => exact unfit yes
  · rw [Bool.eq_false_iff, Ne, noteFits_iff]
    intro ok
    obtain ⟨short, printed⟩ := ok cs hcs
    rcases bad with long | ⟨c, hc, out⟩
    · omega
    · have := printed c hc
      omega
  · have ans := fit (noteFits_iff.2 good)
    refine ⟨fun noScreening noHold => ans.wrongState l hl (by simp [noScreening, noHold]), fun st => ?_⟩
    rw [ans.taken l hl (by simpa using st)]
    rcases note with _ | _ | ⟨c, cs⟩ <;> rfl

/-- Settles O36: leaving the queue frees a slot too, though a line in READY holds none. -/
theorem unreadyPutsALineOnHold : Obligations.UnreadyPutsALineOnHold := by
  refine fun b s => ⟨refusedOff_portB s (fun _ => rfl) rfl (by simp), fun a => ?_⟩
  have ans := answersOnLine (.unready .b b) (ownerUnready b) rfl rfl (by simp) a rfl rfl
  exact ⟨ans.badValue, fun l hl => ⟨fun no => ans.wrongState l hl (by simpa using no),
    fun ready => ans.taken l hl (by simp [ready])⟩⟩

/-! ### An owner's event that moves lines -/

/-- LOW WATER is neither armed nor raised while the waiting count stands (R78). -/
theorem lowWaterCheck_same {b a : State} (w : a.cue.waiting = b.cue.waiting) : lowWaterCheck b a = a := by
  unfold lowWaterCheck
  dsimp only
  rw [if_neg (by omega), if_neg (by omega)]

/-- An event that starts no entry and leaves the waiting count ends with the gate report and its marks wiped. -/
theorem finish_of_no_start {b a : State} (st : a.cue.started = false) (w : a.cue.waiting = b.cue.waiting) :
    finish b a = clearMarks (gateCheck b a) := by
  unfold finish
  rw [st, when_false, lowWaterCheck_same w]

/-- The gate is reported behind what is due when it has changed (R103). -/
theorem gateCheck_due (b a : State) : (gateCheck b a).due =
    if a.lsw.anyIn .air = b.lsw.anyIn .air ∧ a.lsw.liveCalls = b.lsw.liveCalls then a.due
    else a.due ++ [.gateReport (a.lsw.anyIn .air) a.lsw.liveCalls] := by
  unfold gateCheck
  split <;> rfl

/-- The gate report is all the check leaves (R103). -/
theorem gateCheck_eq (b a : State) : gateCheck b a = a.withDue (gateCheck b a).due := by
  unfold gateCheck
  split <;> rfl

/-- An owner's event that is refused only wipes the event's marks. -/
theorem eventReply_refused {act : OwnerEvent} {s : State} {r : Result} (h : act (clearMarks s) = refuse r (clearMarks s)) :
    eventReply act s = (clearMarks s, ⟨r, []⟩) := by
  unfold eventReply
  rw [h]
  exact congrArg (·, _) (finish_same rfl rfl rfl rfl)

/-! ### TAKE LINE -/

/-- Some line is in a state when one of the four is. -/
theorem anyIn_of_get {x : LSW} {st : LineState} (l : Nth) (h : (x.lines.get l).state = st) : x.anyIn st = true := by
  simp only [LSW.anyIn, List.any_eq_true, decide_eq_true_eq]
  exact ⟨x.lines.get l, by cases l <;> simp [Four.toList, Four.get], h⟩

/-- The line that goes to AIR, the others, its slot and the queue (R81, R84, R95). -/
theorem toAir_get (x : LSW) (l : Nth) (slot : Slot) : (x.toAir l slot).lines.get l =
    { x.lines.get l with state := .air, waiting := none, onAir := some ((x.lines.get l).onAir.getD (0, 0)) } := by
  cases slot <;> exact four_get_modify ..

theorem toAir_get_other (x : LSW) {l m : Nth} (slot : Slot) (h : m ≠ l) :
    (x.toAir l slot).lines.get m = x.lines.get m := by
  cases slot <;> exact four_get_set_other _ _ _ _ h

theorem toAir_queue (x : LSW) (l : Nth) (slot : Slot) :
    (x.toAir l slot).queue = x.queue.filter fun m => !decide (m = l) := by cases slot <;> rfl

theorem toAir_liveCalls (x : LSW) (l : Nth) (slot : Slot) : (x.toAir l slot).liveCalls = x.liveCalls := by
  cases slot <;> rfl

theorem toAir_anyIn (x : LSW) (l : Nth) (slot : Slot) : (x.toAir l slot).anyIn .air = true :=
  anyIn_of_get l (by rw [toAir_get])

/-- The first free slot (R84, R95). -/
def LSW.firstFree (x : LSW) : Slot := if x.slotA = none then .a else .b

/-- A line that goes to AIR in the first free slot takes slot A when it is free and slot B otherwise (R95). -/
theorem toAir_firstFree (x : LSW) (l : Nth) : if x.slotA = none then (x.toAir l x.firstFree).slotA = some l
    else (x.toAir l x.firstFree).slotB = some l := by
  unfold LSW.firstFree
  by_cases free : x.slotA = none
  · rw [if_pos free, if_pos free]; rfl
  · rw [if_neg free, if_neg free]; rfl

/-- TAKE LINE passes checks 2 to 4: the mode, the chain and the parked lines, and BYPASS without live calls (R95). -/
structure MayTake (s : State) : Prop where
  live : s.air.mode = .live
  noChain : s.air.chain = .none
  noParked : s.lsw.anyIn .parked = false
  gate : s.dly.state ≠ .run .bypass ∨ s.lsw.liveCalls = true

theorem takeLineNamed_not_live {o : Option Nth} {s : State} (h : s.air.mode ≠ .live) :
    takeLineNamed o s = refuse .wrongMode s := if_pos h

theorem takeLineNamed_held {o : Option Nth} {s : State} (live : s.air.mode = .live)
    (h : s.air.chain ≠ .none ∨ s.lsw.anyIn .parked = true) : takeLineNamed o s = refuse .inUse s := by
  unfold takeLineNamed
  rw [if_neg (not_not_intro live), if_pos h]

theorem takeLineNamed_gate_shut {o : Option Nth} {s : State} (live : s.air.mode = .live) (noChain : s.air.chain = .none)
    (noParked : s.lsw.anyIn .parked = false) (bypass : s.dly.state = .run .bypass) (shut : s.lsw.liveCalls = false) :
    takeLineNamed o s = refuse .wrongState s := by
  unfold takeLineNamed
  rw [if_neg (not_not_intro live), if_neg (by simp [noChain, noParked]), if_pos ⟨bypass, by simp [shut]⟩]

/-- A line goes to AIR in the first free slot, and the reply gives the line and the slot (R95). -/
def seatLine (l : Nth) : OwnerEvent := fun s =>
  (linesChange (s.lsw.toAir l s.lsw.firstFree) s, ⟨.ok, [byte l.number, byte s.lsw.firstFree.place]⟩)

/-- The line TAKE LINE takes once a slot is free: the named line when it is READY, or the head of the queue (R95). -/
def seatNext (o : Option Nth) : OwnerEvent := fun s =>
  match o, s.lsw.queue with
  | some l, _ => if s.line l = .ready then seatLine l s else refuse .wrongState s
  | none, l :: _ => seatLine l s
  | none, [] => refuse .notFound s

/-- Past checks 2 to 4, TAKE LINE looks at the slots, then at the line (R95). -/
theorem takeLineNamed_of_mayTake {o : Option Nth} {s : State} (h : MayTake s) :
    takeLineNamed o s = if s.lsw.slotA.isSome ∧ s.lsw.slotB.isSome then refuse .full s else seatNext o s := by
  have gate : ¬ (s.dly.state = .run .bypass ∧ (!s.lsw.liveCalls) = true) := by
    rintro ⟨bypass, shut⟩
    exact h.gate.elim (· bypass) fun e => by simp [e] at shut
  unfold takeLineNamed
  rw [if_neg (not_not_intro h.live), if_neg (by simp [h.noChain, h.noParked]), if_neg gate]
  rfl

theorem takeLineNamed_full {o : Option Nth} {s : State} (h : MayTake s) (a : s.lsw.slotA ≠ none) (b : s.lsw.slotB ≠ none) :
    takeLineNamed o s = refuse .full s := by
  rw [takeLineNamed_of_mayTake h, if_pos ⟨Option.isSome_iff_ne_none.2 a, Option.isSome_iff_ne_none.2 b⟩]

theorem takeLineNamed_free {o : Option Nth} {s : State} (h : MayTake s) (free : s.lsw.slotA = none ∨ s.lsw.slotB = none) :
    takeLineNamed o s = seatNext o s := by
  rw [takeLineNamed_of_mayTake h, if_neg]
  rintro ⟨a, b⟩
  rcases free with e | e
  · simp [e] at a
  · simp [e] at b

theorem seatNext_ready {l : Nth} {s : State} (h : s.line l = .ready) : seatNext (some l) s = seatLine l s := if_pos h

theorem seatNext_not_ready {l : Nth} {s : State} (h : s.line l ≠ .ready) : seatNext (some l) s = refuse .wrongState s :=
  if_neg h

theorem seatNext_head {l : Nth} {s : State} (h : s.lsw.queue.head? = some l) : seatNext none s = seatLine l s := by
  obtain ⟨rest, hq⟩ := List.head?_eq_some_iff.1 h
  unfold seatNext
  rw [hq]

theorem seatNext_empty {s : State} (h : s.lsw.queue = []) : seatNext none s = refuse .notFound s := by
  unfold seatNext
  rw [h]

/-- A caller taken on air: LSW's new state, LINE CHANGE, and the gate report when no line was in AIR (R95, R103). -/
theorem finish_seatLine (l : Nth) (s : State) : finish s (seatLine l (clearMarks s)).1 =
    clearMarks ((linesChange (s.lsw.toAir l s.lsw.firstFree) (clearMarks s)).withDue
      (if s.lsw.anyIn .air = true then s.due else s.due ++ [.gateReport true s.lsw.liveCalls])) := by
  have due : (gateCheck s (seatLine l (clearMarks s)).1).due =
      if s.lsw.anyIn .air = true then s.due else s.due ++ [.gateReport true s.lsw.liveCalls] := by
    have moved : (seatLine l (clearMarks s)).1.lsw = s.lsw.toAir l s.lsw.firstFree := rfl
    rw [gateCheck_due, moved, toAir_anyIn, toAir_liveCalls]
    simp only [and_true, eq_comm (a := true)]
    rfl
  rw [finish_of_no_start (b := s) (a := (seatLine l (clearMarks s)).1) rfl rfl, gateCheck_eq, due]
  rfl

theorem ownerTakeLine_outside {b : Byte} (h : b.toNat = 0 ∨ 4 < b.toNat) (s : State) :
    ownerTakeLine (some b) s = refuse .badValue s := by
  unfold ownerTakeLine
  dsimp only
  rw [nthOf_outside h]

theorem ownerTakeLine_number {b : Byte} {l : Nth} (h : b.toNat = l.number) (s : State) :
    ownerTakeLine (some b) s = takeLineNamed (some l) s := by
  unfold ownerTakeLine
  dsimp only
  rw [nthOf_number h]

/-- With a number in range, or none, TAKE LINE goes on to checks 2 to 6 (R95). -/
theorem ownerTakeLine_in_range {o : Option Byte} (h : ∀ b, o = some b → 1 ≤ b.toNat ∧ b.toNat ≤ 4) (s : State) :
    ∃ m : Option Nth, ownerTakeLine o s = takeLineNamed m s := by
  cases o with
  | none => exact ⟨none, rfl⟩
  | some b =>
    obtain ⟨l, hl⟩ := exists_line_number (h b rfl).1 (h b rfl).2
    exact ⟨some l, ownerTakeLine_number hl s⟩

/-- Past the checks, TAKE LINE takes the named line, when it is READY, or the head of the queue (R95). -/
theorem ownerTakeLine_takes {o : Option Byte} {l : Nth} {s : State} (may : MayTake s)
    (free : s.lsw.slotA = none ∨ s.lsw.slotB = none) (named : ∀ b, o = some b → b.toNat = l.number ∧ s.line l = .ready)
    (headed : o = none → s.lsw.queue.head? = some l) : ownerTakeLine o s = seatLine l s := by
  cases o with
  | none => exact (takeLineNamed_free may free).trans (seatNext_head (headed rfl))
  | some b =>
    obtain ⟨hl, ready⟩ := named b rfl
    rw [ownerTakeLine_number hl, takeLineNamed_free may free, seatNext_ready ready]

/-- TAKE LINE on its port is its owner's event whole. -/
theorem exec_takeLine {o : Option Byte} {s : State} (a : Arrives (.takeLine .b o) .b s) : exec (.takeLine .b o) s =
    .next (replyTo .b 47 (eventReply (ownerTakeLine o) s).2 (eventReply (ownerTakeLine o) s).1) := by
  cases o with
  | none => exact exec_portB (.takeLine .b none) rfl rfl (by simp) a
  | some b => exact exec_portB (.takeLine .b (some b)) rfl rfl (by simp) a

theorem exec_takeLine_refused {o : Option Byte} {s : State} {r : Result} (a : Arrives (.takeLine .b o) .b s)
    (h : ownerTakeLine o (clearMarks s) = refuse r (clearMarks s)) :
    exec (.takeLine .b o) s = .next (replyTo .b 47 ⟨r, []⟩ (clearMarks s)) := by
  rw [exec_takeLine a, eventReply_refused h]

/-- TAKE LINE that takes a line answers with the line and its slot. -/
theorem exec_takeLine_taken {o : Option Byte} {l : Nth} {s : State} (a : Arrives (.takeLine .b o) .b s)
    (h : ownerTakeLine o (clearMarks s) = seatLine l (clearMarks s)) : exec (.takeLine .b o) s =
    .next (replyTo .b 47 ⟨.ok, [BitVec.ofNat 8 l.number, if s.lsw.slotA = none then 0 else 1]⟩
      (finish s (seatLine l (clearMarks s)).1)) := by
  have slot : byte s.lsw.firstFree.place = if s.lsw.slotA = none then 0 else 1 := by
    unfold LSW.firstFree
    split <;> rfl
  rw [exec_takeLine a, ← slot]
  unfold eventReply
  rw [h]
  rfl

/-- Settles O38: the checks in their order; a line that passes them is seated, and `finish_seatLine` says the rest. -/
theorem takeLinePutsACallerOnAir : Obligations.TakeLinePutsACallerOnAir := by
  refine fun o s => ⟨?_, fun a => ⟨?_, fun inRange => ?_⟩⟩
  · cases o with
    | none => exact refusedOff_portB s (fun _ => rfl) rfl (by simp)
    | some b => exact refusedOff_portB s (fun _ => rfl) rfl (by simp)
  · rintro b rfl outside
    exact exec_takeLine_refused a (ownerTakeLine_outside outside _)
  obtain ⟨m, owner⟩ := ownerTakeLine_in_range inRange (clearMarks s)
  have refused {r : Result} (h : takeLineNamed m (clearMarks s) = refuse r (clearMarks s)) :
      exec (.takeLine .b o) s = .next (replyTo .b 47 ⟨r, []⟩ (clearMarks s)) :=
    exec_takeLine_refused a (owner.trans h)
  refine ⟨fun notLive => refused (takeLineNamed_not_live notLive), fun live held => refused (takeLineNamed_held live held),
    fun live noChain noParked => ⟨fun bypass shut => refused (takeLineNamed_gate_shut live noChain noParked bypass shut),
      fun gate => ?_⟩⟩
  have may : MayTake (clearMarks s) := ⟨live, noChain, noParked, gate⟩
  refine ⟨fun slotA slotB => refused (takeLineNamed_full may slotA slotB), ?_, ?_, fun l free named headed => ?_⟩
  · rintro free rfl empty
    exact exec_takeLine_refused a ((takeLineNamed_free may free).trans (seatNext_empty empty))
  · rintro b l free rfl hl notReady
    refine exec_takeLine_refused a ((ownerTakeLine_number hl _).trans ?_)
    rw [takeLineNamed_free may free]
    exact seatNext_not_ready notReady
  · refine ⟨_, exec_takeLine_taken a (ownerTakeLine_takes may free named headed), ?_⟩
    rw [finish_seatLine]
    exact ⟨toAir_get .., fun m other => toAir_get_other _ _ other, toAir_firstFree .., toAir_queue ..,
      fun q high => raised_bit .lineChange (s := (clearMarks s).withLsw (s.lsw.toAir l s.lsw.firstFree)) high,
      fun _ noAir => if_neg (by simp [noAir]), rfl⟩

end Sys2Proof.Machine
end

section
/-! The safe-reason set: SAFE ON, SAFE OFF and CLEAR RESUME LOST (R46, R154, R155). -/

namespace Sys2Proof.Machine

open Sys2Proof

/-! ### Requests of several ports -/

/-- A request of the catalogue that PI can hold is judged by its port alone (R195). -/
theorem piRefusal_of_portsOf {r : Request} {permitted : List PortId} (c : portsOf r.code = some permitted)
    (fits : r.params.length ≤ 62) : piRefusal r = if r.port ∈ permitted then none else some .notPermitted := by
  unfold piRefusal
  rw [if_neg (Nat.not_lt.2 fits), c]

/-- A request is refused NOT_PERMITTED on every port the catalogue does not list for it. -/
theorem refusedOff_portsOf {permitted : List PortId} {request : PortId → Instr} {code : Nat} {ps : List Byte} (s : State)
    (h : ∀ p, (request p).request = some ⟨p, code, ps⟩) (c : portsOf code = some permitted) (fits : ps.length ≤ 62)
    (n : ∀ p q, request p ≠ .portReset q) : RefusedOff permitted request code s :=
  refusedOff_of fun p off => ⟨_, h p, rfl, rfl, (piRefusal_of_portsOf c fits).trans (if_neg off), n p⟩

/-- A request that comes as bytes on a port the catalogue lists for it is answered by its owner. -/
theorem exec_portsOf {permitted : List PortId} {i : Instr} {p : PortId} {code : Nat} {ps : List Byte} {s : State}
    (h : i.request = some ⟨p, code, ps⟩) (c : portsOf code = some permitted) (fits : ps.length ≤ 62)
    (n : ∀ q, i ≠ .portReset q) (on : p ∈ permitted) (a : Arrives i p s) :
    exec i s = .next (replyTo p code (ownerAct i s).2 (ownerAct i s).1) :=
  exec_arrives _ h rfl a ((piRefusal_of_portsOf c fits).trans (if_pos on)) n

/-! ### The set -/

theorem SafeSet.isEmpty_iff {x : SafeSet} : x.isEmpty = true ↔ x = {} := by
  cases x
  simp [SafeSet.isEmpty, and_assoc]

@[simp] theorem SafeSet.get_empty (r : SafeReason) : ({} : SafeSet).get r = false := by cases r <;> rfl

@[simp] theorem SafeSet.get_set (x : SafeSet) (r : SafeReason) (held : Bool) : (x.set r held).get r = held := by
  cases r <;> rfl

@[simp] theorem SafeSet.set_set (x : SafeSet) (r : SafeReason) (b held : Bool) : (x.set r b).set r held = x.set r held := by
  cases r <;> rfl

/-- Writing a reason as it stands writes nothing. -/
theorem SafeSet.set_of_get {x : SafeSet} {r : SafeReason} {held : Bool} (h : x.get r = held) : x.set r held = x := by
  subst h
  cases r <;> rfl

/-- A set in which a reason is held is not empty. -/
theorem SafeSet.ne_empty_of_get {x : SafeSet} {r : SafeReason} (h : x.get r = true) : x ≠ {} := by
  rintro rfl
  simp at h

/-- Letting a held reason go empties the set exactly when it was the only one. -/
theorem SafeSet.set_false_eq_empty_iff {x : SafeSet} {r : SafeReason} (h : x.get r = true) :
    x.set r false = {} ↔ x = ({} : SafeSet).set r true := by
  constructor
  · intro empty
    rw [← empty, SafeSet.set_set, SafeSet.set_of_get h]
  · rintro rfl
    rw [SafeSet.set_set, SafeSet.set_of_get (SafeSet.get_empty r)]

/-! ### A change of the set (R154) -/

/-- The set written and SAFE CHANGE raised. -/
def withReasons (y : SafeSet) (s : State) : State := raise .safeChange { s with out := { s.out with reasons := y } }

/-- A reason already as asked changes nothing. -/
theorem safeChange_of_get {r : SafeReason} {held : Bool} {s : State} (h : s.out.reasons.get r = held) :
    safeChange r held s = s := if_pos h

/-- A change of a reason, by what the set was before it and is after it. -/
theorem safeChange_of_get_ne {r : SafeReason} {held : Bool} {s : State} (h : s.out.reasons.get r ≠ held) :
    safeChange r held s =
      if s.out.reasons = {} then logEntry .safeOn .none (.reason r) (withReasons (s.out.reasons.set r held) s)
      else if s.out.reasons.set r held = {} then
        logEntry .safeOff .none (.reason r) (withReasons (s.out.reasons.set r held) s)
      else withReasons (s.out.reasons.set r held) s := by
  simp only [← SafeSet.isEmpty_iff]
  exact if_neg h

/-- The first reason to be held is logged SAFE ON. -/
theorem safeChange_first {r : SafeReason} {s : State} (h : s.out.reasons = {}) :
    safeChange r true s = logEntry .safeOn .none (.reason r) (withReasons (s.out.reasons.set r true) s) := by
  rw [safeChange_of_get_ne (by simp [h]), if_pos h]

/-- A reason that joins others is not logged. -/
theorem safeChange_joins {r : SafeReason} {s : State} (new : s.out.reasons.get r = false) (others : s.out.reasons ≠ {}) :
    safeChange r true s = withReasons (s.out.reasons.set r true) s := by
  rw [safeChange_of_get_ne (by simp [new]), if_neg others, if_neg (SafeSet.ne_empty_of_get (SafeSet.get_set _ r true))]

/-- The last reason let go is logged SAFE OFF. -/
theorem safeChange_last {r : SafeReason} {s : State} (only : s.out.reasons = ({} : SafeSet).set r true) :
    safeChange r false s = logEntry .safeOff .none (.reason r) (withReasons {} s) := by
  have held : s.out.reasons.get r = true := by rw [only, SafeSet.get_set]
  have empty := (SafeSet.set_false_eq_empty_iff held).2 only
  rw [safeChange_of_get_ne (by simp [held]), if_neg (SafeSet.ne_empty_of_get held), if_pos empty, empty]

/-- A reason that leaves others held is not logged. -/
theorem safeChange_leaves {r : SafeReason} {s : State} (held : s.out.reasons.get r = true)
    (others : s.out.reasons ≠ ({} : SafeSet).set r true) :
    safeChange r false s = withReasons (s.out.reasons.set r false) s := by
  rw [safeChange_of_get_ne (by simp [held]), if_neg (SafeSet.ne_empty_of_get held),
    if_neg (mt (SafeSet.set_false_eq_empty_iff held).1 others)]

/-! ### The three requests -/

/-- SAFE ON holds PORT and answers OK (R155). -/
theorem exec_safeOn {p : PortId} {s : State} (on : p ∈ [PortId.a, .b]) (a : Arrives (.safeOn p) p s) :
    exec (.safeOn p) s = .next (replyTo p 81 ⟨.ok, []⟩ (safeChange .port true s)) :=
  exec_portsOf rfl rfl (Nat.zero_le _) nofun on a

/-- SAFE OFF while KEY is held is refused before all else (R155). -/
theorem ownerSafeOff_key {s : State} (key : s.out.reasons.key = true) : ownerSafeOff s = refuse .heldByLine s := if_pos key

theorem ownerSafeOff_no_port {s : State} (key : s.out.reasons.key = false) (port : s.out.reasons.port = false) :
    ownerSafeOff s = refuse .wrongState s := by
  unfold ownerSafeOff
  simp [key, port]

theorem ownerSafeOff_port {s : State} (key : s.out.reasons.key = false) (port : s.out.reasons.port = true) :
    ownerSafeOff s = reply .ok (safeChange .port false) s := by
  unfold ownerSafeOff
  simp [key, port]

theorem exec_safeOff {p : PortId} {s : State} (on : p ∈ [PortId.a, .b]) (a : Arrives (.safeOff p) p s) :
    exec (.safeOff p) s = .next (replyTo p 82 (ownerSafeOff s).2 (ownerSafeOff s).1) :=
  exec_portsOf rfl rfl (Nat.zero_le _) nofun on a

/-- SAFE OFF that is not refused lets PORT go and answers OK (R155). -/
theorem exec_safeOff_port {p : PortId} {s : State} (on : p ∈ [PortId.a, .b]) (a : Arrives (.safeOff p) p s)
    (key : s.out.reasons.key = false) (port : s.out.reasons.port = true) :
    exec (.safeOff p) s = .next (replyTo p 82 ⟨.ok, []⟩ (safeChange .port false s)) := by
  rw [exec_safeOff on a, ownerSafeOff_port key port]
  rfl

theorem exec_clearResumeLost {p : PortId} {s : State} (on : p ∈ [PortId.a, .b]) (a : Arrives (.clearResumeLost p) p s) :
    exec (.clearResumeLost p) s = .next (replyTo p 21 (ownerClearResumeLost s).2 (ownerClearResumeLost s).1) :=
  exec_portsOf rfl rfl (Nat.zero_le _) nofun on a

/-- CLEAR RESUME LOST while RESUME LOST is not held is refused (R46). -/
theorem exec_clearResumeLost_none {p : PortId} {s : State} (on : p ∈ [PortId.a, .b]) (a : Arrives (.clearResumeLost p) p s)
    (lost : s.out.reasons.resumeLost = false) :
    exec (.clearResumeLost p) s = .next (replyTo p 21 ⟨.wrongState, []⟩ s) := by
  have owner : ownerClearResumeLost s = refuse .wrongState s := if_neg (by simp [lost])
  rw [exec_clearResumeLost on a, owner]
  rfl

/-- CLEAR RESUME LOST lets RESUME LOST go and answers OK (R46). -/
theorem exec_clearResumeLost_held {p : PortId} {s : State} (on : p ∈ [PortId.a, .b]) (a : Arrives (.clearResumeLost p) p s)
    (lost : s.out.reasons.resumeLost = true) :
    exec (.clearResumeLost p) s = .next (replyTo p 21 ⟨.ok, []⟩ (safeChange .resumeLost false s)) := by
  have owner : ownerClearResumeLost s = reply .ok (safeChange .resumeLost false) s := if_pos lost
  rw [exec_clearResumeLost on a, owner]
  rfl

/-- Settles O52: each request that is not refused is one `safeChange`, and the set before it decides what that logs. -/
theorem safeReasonsAreHeld : Obligations.SafeReasonsAreHeld := by
  refine fun p s => ⟨refusedOff_portsOf s (fun _ => rfl) rfl (Nat.zero_le _) nofun,
    refusedOff_portsOf s (fun _ => rfl) rfl (Nat.zero_le _) nofun,
    refusedOff_portsOf s (fun _ => rfl) rfl (Nat.zero_le _) nofun, fun ab aOn aOff aLost => ?_⟩
  have on : p ∈ [PortId.a, .b] := by simpa using ab
  have safeOn {t : State} (change : safeChange .port true s = t) :
      exec (.safeOn p) s = .next (replyTo p 81 ⟨.ok, []⟩ t) := change ▸ exec_safeOn on aOn
  have safeOff {t : State} (key : s.out.reasons.key = false) (port : s.out.reasons.port = true)
      (change : safeChange .port false s = t) :
      exec (.safeOff p) s = .next (replyTo p 82 ⟨.ok, []⟩ t) := change ▸ exec_safeOff_port on aOff key port
  have clear {t : State} (lost : s.out.reasons.resumeLost = true) (change : safeChange .resumeLost false s = t) :
      exec (.clearResumeLost p) s = .next (replyTo p 21 ⟨.ok, []⟩ t) :=
    change ▸ exec_clearResumeLost_held on aLost lost
  refine ⟨fun held => safeOn (safeChange_of_get held), fun empty => safeOn (safeChange_first empty),
    fun new others => safeOn (safeChange_joins new others), fun key => ?_, fun key port => ?_, fun only => ?_,
    fun key port others => safeOff key port (safeChange_leaves port others), exec_clearResumeLost_none on aLost,
    fun only => ?_, fun lost others => clear lost (safeChange_leaves lost others)⟩
  · rw [exec_safeOff on aOff, ownerSafeOff_key key]
    rfl
  · rw [exec_safeOff on aOff, ownerSafeOff_no_port key port]
    rfl
  · exact safeOff (by rw [only]) (by rw [only]) (safeChange_last only)
  · exact clear (by rw [only]) (safeChange_last only)

end Sys2Proof.Machine
end

section
/-! The air log: an append is a new entry, or a merge into the newest one (R188, R189, R190). -/

namespace Sys2Proof.Machine

open Sys2Proof

/-- The log with a new entry as its newest: it takes the next serial, and the oldest gives way in a full ring (R189). -/
def LOG.appended (l : LOG) (time : Option Nat) (k : LogKind) (x : Subject) (d : Detail) : LOG :=
  ⟨⟨l.next, time, k, x, d, 1, none⟩ :: l.entries.take (Config.logPlaces - 1), nextSerial l.next⟩

/-- The newest entry takes what is to be appended as its repeat (R190). -/
def LogEntry.Takes (e : LogEntry) (k : LogKind) (x : Subject) (d : Detail) : Prop :=
  merges k d = true ∧ e.kind = k ∧ e.subject = x ∧ e.detail = d ∧ e.repeats < 255

/-- The kinds that merge, by name (R190). -/
theorem merges_iff (k : LogKind) (d : Detail) :
    merges k d = true ↔ k = .alertDuplicate ∨ k = .siteCommandFailed ∨ (k = .dump ∧ d = .number 0) := by
  cases k <;> simp [merges]

/-- With no newest entry that takes it as a repeat, what is appended is a new entry (R190). -/
theorem LOG.append_of_no_repeat {l : LOG} {k : LogKind} {x : Subject} {d : Detail}
    (no : ∀ e rest, l.entries = e :: rest → ¬ e.Takes k x d) (time : Option Nat) :
    l.append time k x d = l.appended time k x d := by
  unfold LOG.append LOG.appended
  cases held : l.entries with
  | nil => rfl
  | cons e rest => exact if_neg (no e rest held)

/-- A repeat that the newest entry takes adds one to it; no entry leaves and the next serial stays (R190). -/
theorem LOG.append_of_repeat {l : LOG} {e : LogEntry} {rest : List LogEntry} {k : LogKind} {x : Subject} {d : Detail}
    (held : l.entries = e :: rest) (takes : e.Takes k x d) (time : Option Nat) :
    l.append time k x d =
      { l with entries := { e with repeats := e.repeats + 1, lastTime := some time } :: rest } := by
  unfold LOG.append
  rw [held]
  exact if_pos takes

/-- Settles O17: an append is new unless the newest entry takes it as a repeat; LOG NEW is raised either way. -/
theorem theLogAppendsOrMerges : Obligations.TheLogAppendsOrMerges := by
  refine fun k x d s => ⟨raise_port .logNew _, rfl, fun noDuplicate noFailed noDump => ?_, fun empty => ?_,
    fun e rest held differs => ?_, fun e rest held merging kind subject detail below => ?_⟩
  · refine LOG.append_of_no_repeat (fun e rest _ ⟨merging, _⟩ => ?_) (stamp s)
    rcases (merges_iff k d).1 merging with h | h | h
    · exact noDuplicate h
    · exact noFailed h
    · exact noDump h
  · exact LOG.append_of_no_repeat (fun e rest held => by simp [empty] at held) (stamp s)
  · refine LOG.append_of_no_repeat (fun e' rest' held' ⟨_, kind, subject, detail, below⟩ => ?_) (stamp s)
    obtain ⟨rfl, -⟩ : e = e' ∧ rest = rest' := List.cons.inj (held.symm.trans held')
    rcases differs with h | h | h | h
    · exact h kind
    · exact h subject
    · exact h detail
    · omega
  · exact LOG.append_of_repeat held ⟨(merges_iff k d).2 merging, kind, subject, detail, below⟩ (stamp s)

end Sys2Proof.Machine
end

section
/-! The queue, every command, the invariant, and the codec. -/

namespace Sys2Proof.Machine

open Sys2Proof

/-! ### The queue, every command, the invariant -/

/-- Settles O1: both clauses are the branches of `step`. -/
theorem stepTakesTheFrontCommand : Obligations.StepTakesTheFrontCommand := by
  refine ⟨fun c rest s front => ?_, fun s empty => ?_⟩
  · unfold step
    rw [front]
  · unfold step
    rw [empty]

/-- What a command that is neither a boundary nor power-on leaves: the queue, the boundary number and the blocks of the period. -/
theorem exec_brings_no_block (c : Instr) (s : State) (notPowerOn : c ≠ .powerOn)
    (notBoundary : ∀ inp first later, c ≠ .blockBoundary inp first later) :
    ∃ t, exec c s = .next t ∧ t.pending = s.pending ∧ t.boundaryNo = s.boundaryNo ∧ t.audio.prev = s.audio.prev ∧
      t.audio.cur.inputs = s.audio.cur.inputs := by
  by_cases reset : c = .chipReset
  · subst reset
    exact ⟨_, rfl, chipReset_pending s⟩
  by_cases pin : ∃ p l, c = .portInit p l
  · obtain ⟨p, l, rfl⟩ := pin
    refine ⟨_, rfl, (portInit_pending p l s).1, (portInit_pending p l s).2, ?_⟩
    unfold portInit
    split
    · have kept := stays_resetPort p (stays_refl (s.withPort p { s.port p with init := .low }))
      exact ⟨kept.prev, kept.inputs⟩
    · exact ⟨rfl, rfl⟩
  · obtain ⟨t, run, kept⟩ := stays_exec c s notPowerOn reset (fun p l e => pin ⟨p, l, e⟩) notBoundary
    exact ⟨t, run, kept.pending, kept.boundaryNo, kept.prev, kept.inputs⟩

/-- A boundary keeps the queue of commands. -/
theorem boundary_pending (inp : PeriodInput) (first later : List DueKind) (s : State) :
    (boundary inp first later s).pending = s.pending :=
  (stays_boundary inp first later s).pending.trans
    ((latch_spec inp _).1.trans (stays_drain _ _ (stays_refl s)).pending)

/-- A boundary keeps the invariant. -/
theorem inv_boundary (inp : PeriodInput) (first later : List DueKind) {s : State} (h : Inv s) :
    Inv (boundary inp first later s) :=
  (stays_boundary inp first later s).inv
    ((latch_spec inp _).2.2.2.2.2 ((stays_drain _ _ (stays_refl s)).inv h))

/-- Settles O2: a boundary and power-on apart, by what every command keeps. -/
theorem everyCommandEndsInANextState : Obligations.EveryCommandEndsInANextState := by
  intro c s
  by_cases power : c = .powerOn
  · subst power
    exact ⟨_, rfl, rfl⟩
  by_cases edge : ∃ inp first later, c = .blockBoundary inp first later
  · obtain ⟨inp, first, later, rfl⟩ := edge
    exact ⟨_, rfl, boundary_pending inp first later s⟩
  · obtain ⟨t, run, queue, -⟩ := exec_brings_no_block c s power fun inp first later e => edge ⟨inp, first, later, e⟩
    exact ⟨t, run, queue⟩

/-- Settles O3. -/
theorem onlyBoundariesBringBlocks : Obligations.OnlyBoundariesBringBlocks := by
  intro c s t run power edge
  obtain ⟨u, run', -, kept⟩ := exec_brings_no_block c s power edge
  rw [run] at run'
  cases run'
  exact kept

/-- The invariant holds after power-on, whatever commands wait. -/
theorem inv_powerOn (s : State) : Inv (powerOn s) where
  clock := ⟨show 0 < 17280000 by decide, fun _ e => by cases e⟩
  stack := (⟨List.Perm.refl _, by decide, by decide, by decide⟩ : StackSound ({} : AIR))
  cue := (⟨Nat.zero_le _, List.nodup_nil, fun _ h => (List.not_mem_nil h).elim, by decide, by decide⟩ : CueSound ({} : CUE))
  lines := LinesSound.init
  ring := (⟨rfl, fun _ h => (List.not_mem_nil h).elim, by decide, by decide, by decide, by decide, by decide, by decide,
    by decide⟩ : RingSound ({} : DLY))
  alerts := Nat.zero_le _
  known := Nat.zero_le _
  commands := Nat.zero_le _
  log := ⟨Nat.zero_le _, trivial⟩
  delay := DelaySound.init _
  site := .init rfl rfl rfl

/-- Settles O4. -/
theorem theInvariantHoldsAtReset : Obligations.TheInvariantHoldsAtReset := inv_powerOn {}

/-- Every command keeps the invariant. -/
theorem inv_exec (c : Instr) (s t : State) (h : Inv s) (run : exec c s = .next t) : Inv t := by
  by_cases power : c = .powerOn
  · subst power
    cases run
    exact inv_powerOn s
  by_cases reset : c = .chipReset
  · subst reset
    cases run
    exact inv_chipReset s h
  by_cases pin : ∃ p l, c = .portInit p l
  · obtain ⟨p, l, rfl⟩ := pin
    cases run
    exact inv_portInit p l s h
  by_cases edge : ∃ inp first later, c = .blockBoundary inp first later
  · obtain ⟨inp, first, later, rfl⟩ := edge
    cases run
    exact inv_boundary inp first later h
  · obtain ⟨u, run', kept⟩ := stays_exec c s power reset (fun p l e => pin ⟨p, l, e⟩)
      fun inp first later e => edge ⟨inp, first, later, e⟩
    rw [run] at run'
    cases run'
    exact kept.inv h

/-- Settles O5: the command at the front of the queue keeps the invariant, which says nothing of the queue. -/
theorem everyStepKeepsTheInvariant : Obligations.EveryStepKeepsTheInvariant := by
  intro s t h run
  rcases empty : s.pending with _ | ⟨c, rest⟩
  · rw [stepTakesTheFrontCommand.2 s empty] at run
    cases run
    exact h
  · rw [stepTakesTheFrontCommand.1 c rest s empty] at run
    exact inv_exec c { s with pending := rest } t { h with } run

end Sys2Proof.Machine
end

section
/-! The codec: a request is what its bytes decode to (section 10.6). -/

namespace Sys2Proof.Laws

open Sys2Proof Encoding

/-- The bytes of every well-formed request decode to it: the layer's statement of each constructor. -/
theorem encoding_statement : ∀ i : Instr, Statement i
  | .powerOn => powerOn | .chipReset => chipReset | .portInit p level => portInit p level
  | .blockBoundary inp first later => blockBoundary inp first later | .returnFrame bytes => returnFrame bytes
  | .linkUp => linkUp | .linkDegraded => linkDegraded | .linkDown => linkDown | .commandTimeout => commandTimeout
  | .carryingReport => carryingReport | .slotLengthElapsed => slotLengthElapsed | .confirmLimit => confirmLimit
  | .windowTimeDue => windowTimeDue | .houseLock => houseLock | .houseSyncLoss => houseSyncLoss
  | .clockSelectionTaken => clockSelectionTaken | .clockSetTakesEffect => clockSetTakesEffect
  | .keyLineEdge k level => keyLineEdge k level | .dropLines => dropLines | .ringEdge l => ringEdge l
  | .ringTimeout l => ringTimeout l | .loopSenseDrop l => loopSenseDrop l | .clearingEnd l => clearingEnd l
  | .gateReport => gateReport | .buildStep => buildStep | .shrinkStep => shrinkStep | .dumpReport => dumpReport
  | .seguePoint => seguePoint | .entryLengthEnd => entryLengthEnd | .openLengthLimit => openLengthLimit
  | .crossfadeEnd => crossfadeEnd | .runLineDelayedRise => runLineDelayedRise | .hardTimeDue => hardTimeDue
  | .breakInDue => breakInDue | .joinEndRelease => joinEndRelease | .withdrawalWithoutRecord => withdrawalWithoutRecord
  | .holdExpiry => holdExpiry | .advisoryWaitExpiry => advisoryWaitExpiry | .validityExpiry => validityExpiry
  | .alertLengthReached => alertLengthReached | .goLineDelayedRise => goLineDelayedRise | .silenceStart => silenceStart
  | .silenceEnd => silenceEnd | .commandAddressWrite p byte => commandAddressWrite p byte
  | .dataAddressWrite p byte now => dataAddressWrite p byte now | .statusRead p => statusRead p
  | .replyByteRead p => replyByteRead p | .requestTimeout p => requestTimeout p | .readNotices p => readNotices p
  | .setNoticeMask p mask => setNoticeMask p mask | .portReset p => portReset p | .readTimebase p part => readTimebase p part
  | .selectClock p source => selectClock p source | .setClock p time => setClock p time
  | .setKeyLine p line action edge level => setKeyLine p line action edge level | .readAir p part => readAir p part
  | .setMode p mode => setMode p mode | .setMaxDepth p depth => setMaxDepth p depth | .liveInsert p => liveInsert p
  | .liveInsertEnd p => liveInsertEnd p | .clearResumeLost p => clearResumeLost p | .readCue p start => readCue p start
  | .append p f => append p f | .insert p anchor f => insert p anchor f | .delete p serial => delete p serial
  | .skip p serial => skip p serial | .take p expected => take p expected | .itemEnd p serial => itemEnd p serial
  | .setLowWater p threshold => setLowWater p threshold | .armLowWater p => armLowWater p
  | .readLines p part => readLines p part | .answer p line => answer p line | .hold p line => hold p line
  | .screen p line => screen p line | .ready p line note => ready p line note | .unready p line => unready p line
  | .lineNote p line note => lineNote p line note | .takeLine p line => takeLine p line | .drop p line => drop p line
  | .setLineOptions p dropOnDump liveCalls e1 e2 e3 e4 => setLineOptions p dropOnDump liveCalls e1 e2 e3 e4
  | .readDelay p => readDelay p | .engage p target => engage p target | .disengage p => disengage p | .dump p => dump p
  | .setDelayOptions p amount ratio => setDelayOptions p amount ratio | .readAlerts p place part => readAlerts p place part
  | .readAlertTables p selector start => readAlertTables p selector start | .alertHeader p h => alertHeader p h
  | .alertEnd p originator serial => alertEnd p originator serial | .setAreas p codes => setAreas p codes
  | .setEventAction p event1 event2 event3 action => setEventAction p event1 event2 event3 action
  | .setAlertTimes p liveHold autoHold advisoryWait wake => setAlertTimes p liveHold autoHold advisoryWait wake
  | .forwardAlert p pair => forwardAlert p pair | .cancelAlert p originator serial => cancelAlert p originator serial
  | .readOutput p part => readOutput p part | .safeOn p => safeOn p | .safeOff p => safeOff p
  | .setSilence p threshold silenceTime restoreTime failover => setSilence p threshold silenceTime restoreTime failover
  | .readLink p part => readLink p part | .linkRestart p => linkRestart p | .readSite p part => readSite p part
  | .siteUp p => siteUp p | .siteDown p => siteDown p | .siteLow p => siteLow p | .siteFull p => siteFull p
  | .setSiteResource p resource slot keepInLow label => setSiteResource p resource slot keepInLow label
  | .setSiteOptions p slot full low restore sequentialOff => setSiteOptions p slot full low restore sequentialOff
  | .setLowWindow p lowTime fullTime enabled => setLowWindow p lowTime fullTime enabled
  | .readLog p start count => readLog p start count

/-- Settles O6. -/
theorem requestsAreReadBackFromTheirBytes : Obligations.RequestsAreReadBackFromTheirBytes :=
  fun i r wf h => encoding_statement i wf r h

end Sys2Proof.Laws
end

section
/-! The control ports: reply bytes, the status byte, and the bytes of a request (R193 to R197, R199). -/

namespace Sys2Proof.Machine

open Sys2Proof

/-! ### Reading -/

/-- Settles O11: `readReply` by the pin's level and whether a reply is ready. -/
theorem repliesAreReadByteByByte : Obligations.RepliesAreReadByteByByte := by
  refine fun p code r s => ⟨⟨replyTo_port p code r s, fun q other => replyTo_port_other p q code r s other⟩, ?_⟩
  show (_ → _ → Host.Outcome.next (readReply p s) = _) ∧ (_ → _ → Host.Outcome.next (readReply p s) = _) ∧
    (_ → Host.Outcome.next (readReply p s) = _)
  unfold readReply
  refine ⟨fun high ready => ?_, fun high none => ?_, fun low => ?_⟩
  · simp [high, ready]
  · simp [high, none]
  · simp [low]

/-- The bits of the status byte, whatever the flags. -/
theorem status_bits (busy ready notice timeout overrun : Bool) :
    let b := flagBit busy 0 ||| flagBit ready 1 ||| flagBit notice 2 ||| flagBit timeout 3 ||| flagBit overrun 4
    b.getLsbD 0 = busy ∧ b.getLsbD 1 = ready ∧ b.getLsbD 2 = notice ∧ b.getLsbD 3 = timeout ∧ b.getLsbD 4 = overrun ∧
      b.toNat < 32 := by
  revert busy ready notice timeout overrun
  decide

/-- Settles O12. -/
theorem statusReadsClearTimeoutAndOverrun : Obligations.StatusReadsClearTimeoutAndOverrun := by
  intro p s
  show (_ → Host.Outcome.next (readStatus p s) = _) ∧ (_ → ∃ b : Byte, Host.Outcome.next (readStatus p s) = _ ∧ _)
  unfold readStatus
  refine ⟨fun low => by simp [low], fun high => ⟨(s.port p).status, by simp [high], ?_⟩⟩
  exact status_bits _ _ (s.port p).noticeLine _ _

/-! ### Writing -/

/-- Settles O13: each clause is a branch of `writeCommand`, `writeData` or `requestTimesOut`. -/
theorem bytesAssembleARequest : Obligations.BytesAssembleARequest := by
  refine ⟨fun p b now s => ?_, fun p s => ?_⟩
  · show (_ → Host.Outcome.next (writeCommand p b s) = _ ∧ Host.Outcome.next (writeData p b now s) = _) ∧
      (_ → _ → Host.Outcome.next (writeCommand p b s) = _ ∧ Host.Outcome.next (writeData p b now s) = _) ∧
      (_ → _ → _ → (_ → Host.Outcome.next (writeCommand p b s) = _ ∧ Host.Outcome.next (writeData p b now s) = _) ∧
        (_ → Host.Outcome.next (writeCommand p b s) = _) ∧ (_ → _ → _ → Host.Outcome.next (writeData p b now s) = _) ∧
        (_ → _ → Host.Outcome.next (writeData p b now s) = _))
    unfold writeCommand writeData
    refine ⟨fun low => by simp [low], fun high taken => ?_, fun high free ready =>
      ⟨fun idle => ?_, fun open_ => ?_, fun code least most => ?_, fun params more => ?_⟩⟩
    · simp [high, taken, overrun]
    · simp [high, free, ready, idle, overrun, Port.begin_]
    · rcases open_ with phase | phase <;> simp [high, free, ready, phase, Port.begin_]
    · have inRange : ¬ (b.toNat = 0 ∨ 62 < b.toNat) := by omega
      simp only [high, free, ready, code, Bool.or_self, Bool.false_eq_true, if_false, reduceCtorEq, if_neg inRange]
    · have more' : ¬ (s.port p).length ≤ (s.port p).params.length + 1 := by omega
      simp [high, free, ready, params, more']
  · show (_ → _ → Host.Outcome.next (requestTimesOut p (s.withDue (s.due.erase (.requestTimeout p)))) = _) ∧
      (_ → Host.Outcome.next (requestTimesOut p (s.withDue (s.due.erase (.requestTimeout p)))) = _)
    have port : (s.withDue (s.due.erase (.requestTimeout p))).port p = s.port p := rfl
    unfold requestTimesOut Port.timedOut Port.open_
    rw [port]
    refine ⟨fun open_ idle => ?_, fun left => ?_⟩
    · simp [open_, Config.requestIdle, idle, Port.discard]
    · rcases left with phase | phase | early
      · simp [phase]
      · simp [phase]
      · simp [Config.requestIdle, Nat.not_le.2 early]

/-! ### A completed request -/

/-- The byte completes a request with these parameters (R194). -/
def Completes (p : PortId) (b : Byte) (params : List Byte) (s : State) : Prop :=
  ((s.port p).phase = .codeTaken ∧ b.toNat = 0 ∧ params = []) ∨
    ((s.port p).phase = .parameters ∧ (s.port p).params.length + 1 = (s.port p).length ∧ (s.port p).length ≤ 62 ∧
      params = (s.port p).params ++ [b])

theorem Completes.fits {p : PortId} {b : Byte} {params : List Byte} {s : State} (h : Completes p b params s) :
    params.length ≤ 62 := by
  rcases h with ⟨-, -, rfl⟩ | ⟨-, count, most, rfl⟩
  · exact Nat.zero_le _
  · simp only [List.length_append, List.length_singleton]
    omega

/-- On a port that takes bytes, the completing byte makes PI judge the request. -/
theorem writeData_completes {p : PortId} {b : Byte} {params : List Byte} {s : State} (high : (s.port p).init = .high)
    (free : (s.port p).busy = false) (ready : (s.port p).replyReady = false) (h : Completes p b params s) (now : Bool) :
    writeData p b now s = complete p params.length params now s := by
  unfold writeData
  rcases h with ⟨phase, zero, rfl⟩ | ⟨phase, count, -, rfl⟩
  · simp [high, free, ready, phase, zero]
  · simp [high, free, ready, phase, ← count]

/-- PI's own refusal is in the buffer at once, and nothing but the port changes. -/
theorem complete_refused {p : PortId} {length : Nat} {params : List Byte} {now : Bool} {s : State} {r : Result}
    (judged : judgeRequest p (s.port p).code.toNat length params = .inl r) :
    ((complete p length params now s).port p).reply = [(s.port p).code, BitVec.ofNat 8 r.code, 0#8] ∧
    ((complete p length params now s).port p).replyReady = true ∧ ((complete p length params now s).port p).busy = false ∧
    ((complete p length params now s).port p).phase = .idle ∧ { complete p length params now s with pi := s.pi } = s := by
  unfold complete
  simp only [judged, replyTo_port, withPort_port]
  exact ⟨by simp [Port.fill], rfl, rfl, rfl, rfl⟩

/-- The port as it stands while a completed request is at its owner. -/
def State.atOwner (s : State) (p : PortId) (params : List Byte) : State :=
  s.withPort p { s.port p with phase := .complete, length := params.length, params := params, idleCount := 0, busy := true }

/-- A request that passes is handed to its owner, which takes it later or in the same event (log 29). -/
theorem complete_taken {p : PortId} {params : List Byte} {s : State} {i : Instr} (now : Bool)
    (judged : judgeRequest p (s.port p).code.toNat params.length params = .inr i) :
    complete p params.length params now s =
      if i = .portReset p then resetPort p (s.atOwner p params)
      else if now then replyTo p (s.port p).code.toNat (ownerAct i (clockFirst (s.atOwner p params))).2
        (ownerAct i (clockFirst (s.atOwner p params))).1
      else (s.atOwner p params).withPi
        { (s.atOwner p params).pi with handed := (s.atOwner p params).pi.handed ++ [⟨i, false⟩] } := by
  unfold complete
  simp only [judged]
  rfl

/-- Of a port, a port reset keeps the levels of its pins alone. -/
theorem resetPort_withPort {p : PortId} {v w : Port} (s : State) (init : v.init = w.init) (out : v.dataOut = w.dataOut) :
    resetPort p (s.withPort p v) = resetPort p (s.withPort p w) := by
  unfold resetPort
  have raised (k : Notice) : (v.raise k).cleared = (w.raise k).cleared := by
    unfold Port.cleared Port.raise
    rw [init]
    cases w.init <;> simp [init, out]
  have kept : v.cleared = w.cleared := by simp [Port.cleared, init, out]
  unfold clockFirst
  have due (x : Port) : (s.withPort p x).due = s.due := rfl
  rw [due, due]
  split
  · unfold clockSetStage
    cases pending : s.tb.pendingTime <;> cases p <;>
      simp [State.withPort, State.withDue, State.withPi, State.withTb, State.port, PI.get, PI.set, raise, pending, kept, raised]
  · cases p <;> simp [State.withPort, State.withPi, State.port, PI.get, PI.set, kept]

/-- Settles O14: the completing byte calls `complete`, which `judgeRequest` decides. -/
theorem completedRequestsAreJudged : Obligations.CompletedRequestsAreJudged := by
  intro p b now s high free ready
  have run (now : Bool) : exec (.dataAddressWrite p b now) s = .next (writeData p b now s) := rfl
  refine ⟨fun code long => ?_, fun params done => ?_⟩
  · have judged : judgeRequest p (s.port p).code.toNat b.toNat [] = .inl .badFormat := by
      unfold judgeRequest
      split
      · rfl
      · rw [if_pos long]
    have written : writeData p b now s = complete p b.toNat [] now s := by
      unfold writeData
      simp only [high, free, ready, code, Bool.or_self, Bool.false_eq_true, if_false, reduceCtorEq, if_pos (Or.inr long)]
    obtain ⟨reply, shown, -, phase, rest⟩ := complete_refused (now := now) judged
    exact ⟨_, (run now).trans (congrArg _ written), reply, shown, phase, rest⟩
  · have fits : ¬ 62 < params.length := Nat.not_lt.2 (Completes.fits done)
    have taken (now : Bool) : exec (.dataAddressWrite p b now) s = .next (complete p params.length params now s) :=
      (run now).trans (congrArg _ (writeData_completes high free ready done now))
    refine ⟨fun unknown => ⟨_, taken now, complete_refused ?_⟩, fun ps known off => ⟨_, taken now, complete_refused ?_⟩,
      fun ps known on long => ⟨_, taken now, complete_refused ?_⟩, fun ps known on allowed => ?_⟩
    · unfold judgeRequest
      rw [unknown]
    · unfold judgeRequest
      simp only [known, if_neg fits, if_pos off]
    · have unread : decodeRequest p (s.port p).code.toNat params = none := by
        by_contra read
        exact long (Laws.allowsLength_of_decode _ _ _ _ known (Option.isSome_iff_ne_none.2 read))
      unfold judgeRequest
      simp only [known, if_neg fits, not_not.2 on, if_false, unread]
    · obtain ⟨i, read⟩ := Option.isSome_iff_exists.1 (Laws.decode_of_allowsLength p _ _ allowed)
      have judged : judgeRequest p (s.port p).code.toNat params.length params = .inr i := by
        unfold judgeRequest
        simp only [known, if_neg fits, not_not.2 on, if_false, read]
      refine ⟨i, read, fun other => ⟨?_, fun clock => ?_⟩, fun reset => ?_⟩
      · refine ⟨_, taken false, ?_⟩
        rw [complete_taken false judged, if_neg other, if_neg Bool.false_ne_true]
        unfold State.atOwner
        cases p <;> exact ⟨rfl, rfl, rfl, rfl⟩
      · rw [taken, complete_taken true judged, if_neg other, if_pos rfl, clockFirst_of_not (s := s.atOwner p params) clock]
        rfl
      · rw [taken, complete_taken now judged, if_pos reset]
        show _ = Host.Outcome.next (writeWhole p (resetPort p) _)
        rw [writeWhole_free (by rw [withPort_port]; exact ⟨rfl, rfl, rfl, rfl⟩), State.atOwner, resetPort_withPort s (w := { init := .high, dataOut := (s.port p).dataOut })]
        · exact high
        · rfl

/-! ### Request rows -/

/-- On a port with a request at its owner or a reply waiting, the bytes are dropped with OVERRUN (R197). -/
theorem writeWhole_of_occupied {p : PortId} {f : State → State} {s : State} (high : (s.port p).init = .high)
    (h : (s.port p).occupied = true) : writeWhole p f s = overrun p s := by
  unfold writeWhole
  simp [high, h]

/-- An open request gives way to the new one with OVERRUN (R194). -/
theorem writeWhole_open {p : PortId} {f : State → State} {s : State} (high : (s.port p).init = .high)
    (free : (s.port p).occupied = false) (h : (s.port p).open_ = true) :
    writeWhole p f s = f (s.withPort p { (s.port p).discard with overrun := true }) := by
  unfold writeWhole
  simp [high, free, h]

/-- Settles O15: `takeRequest` by whether PI holds the request and by the port. -/
theorem ownersTakeRequests : Obligations.OwnersTakeRequests := by
  intro i r s h notReset
  have run : exec i s = .next (takeRequest i (ownerAct i) s) := exec_request i s (by rw [h]; rfl) notReset
  refine ⟨fun a passes => ?_, fun a x no => ?_, fun clock => ⟨fun new low => ?_, fun new high taken => ?_,
    fun new high free ready phase => ?_, fun rest held => ?_, fun rest held => ?_⟩⟩
  · rw [run, takeRequest_arrives h a passes]
  · rw [run, takeRequest_refused h a no]
  · rw [run, takeRequest_bytes h new clock, writeWhole_low low]
  · have occupied : (s.port r.port).occupied = true := by
      unfold Port.occupied
      rcases taken with busy | ready | phase <;> simp [*]
    rw [run, takeRequest_bytes h new clock, writeWhole_of_occupied high occupied]
    rfl
  · have free' : (s.port r.port).occupied = false := by
      unfold Port.occupied
      rcases phase with phase | phase <;> simp [free, ready, phase]
    have open_ : (s.port r.port).open_ = true := by
      unfold Port.open_
      simpa using phase
    have written : takeRequest i (ownerAct i) s = answer r (ownerAct i)
        (s.withPort r.port { (s.port r.port).discard with overrun := true }) := by
      rw [takeRequest_bytes h new clock, writeWhole_open high free' open_]
    refine ⟨fun passes => ?_, fun x no => ?_⟩
    · rw [run, written]
      unfold answer
      rw [passes]
      rfl
    · rw [run, written]
      unfold answer
      rw [no]
      rfl
  · rw [run, takeRequest_handed h held clock]
    rfl
  · rw [run, takeRequest_handed h held clock]
    rfl

/-! ### Notices -/

/-- The notice line is active while a flag is set whose enable is on (R198). -/
theorem noticeLine_iff (q : Port) :
    q.noticeLine = true ↔ ∃ n < 16, q.flags.getLsbD n = true ∧ q.mask.getLsbD n = true := by
  unfold Port.noticeLine
  simp only [Bool.not_eq_true', decide_eq_false_iff_not]
  constructor
  · intro set
    by_contra none
    refine set (BitVec.eq_of_getLsbD_eq fun n small => ?_)
    rw [BitVec.getLsbD_and, BitVec.getLsbD_zero]
    by_contra both
    exact none ⟨n, small, by simpa using both⟩
  · rintro ⟨n, small, flag, enable⟩ clear
    have bit := congrArg (·.getLsbD n) clear
    simp [flag, enable] at bit

/-- A notice leaves a port as it was but for its flag, which a low init pin holds off (R198, R199). -/
theorem raise_flags (q : Port) (k : Notice) :
    q.raise k = { q with flags := if q.init = .high then q.flags ||| (1#16 <<< k.bit) else q.flags } := by
  unfold Port.raise
  split
  · rw [if_pos ‹_›]
  · rw [if_neg (by simp [*])]

/-- Settles O16: PI's own requests are short, and all else is in `keeps_ownerAct` and `keeps_exec`. -/
theorem noticesReachAllPorts : Obligations.NoticesReachAllPorts := by
  refine ⟨fun k p mask s => ⟨?_, rfl, noticeLine_iff _, ?_, fun a => ?_, fun a => ?_⟩, fun i s n1 n2 => ?_, ?_⟩
  · rw [raise_port, raise_flags]
  · exact (status_bits _ _ _ _ _).2.2.1
  · exact exec_portsOf rfl rfl (by simp [halfBytes]) nofun (by cases p <;> simp) a
  · exact exec_portsOf rfl rfl (Nat.zero_le _) nofun (by cases p <;> simp) a
  · exact (keeps_ownerAct i n1 n2 (keeps_refl s)).notices
  · intro c s t run none power reset pin boundary reads command data
    obtain ⟨u, run', kept⟩ := keeps_exec c s power reset pin boundary none (fun p => (reads p).1) command data
      (fun p => (reads p).2.1) fun p => (reads p).2.2
    rw [run] at run'
    cases run'
    exact kept.notices

end Sys2Proof.Machine
end

section
/-! The two resets, and a SET CLOCK that a boundary left due (R13, R20, R192; log 2). -/

namespace Sys2Proof.Machine

open Sys2Proof

/-! ### A SET CLOCK left due -/

/-- The row CLOCK SET TAKES EFFECT takes a SET CLOCK that is left due. -/
theorem exec_clockSetTakesEffect {s : State} (due : .clockSet ∈ s.due) (pending : s.tb.pendingTime ≠ none) :
    exec .clockSetTakesEffect s = .next (clockFirst s) := by
  show Host.Outcome.next (stageRow .clockSet (fun s => s.tb.pendingTime.isSome) s) = _
  have before : takeBefore .clockSet s = s := rfl
  have any : s.due.any (fun d => decide (d.kind = .clockSet)) = true :=
    List.any_eq_true.2 ⟨.clockSet, due, decide_eq_true rfl⟩
  have one : ∀ e ∈ s.due, e.kind = Due.clockSet.kind → e = .clockSet := by
    intro e _ kind
    cases e <;> first | rfl | exact absurd kind nofun
  unfold stageRow
  rw [before]
  simp only [any, Option.isSome_iff_ne_none.2 pending, Bool.and_self, if_true]
  exact congrArg _ ((takeOne_of_mem .clockSet s due one).trans (clockFirst_of_mem due).symm)

/-- The state an owner's event acts on is the state once a SET CLOCK left due has been taken. -/
theorem clockFirst_of_actsOn {s u : State} (h : ActsOn s u) : clockFirst s = u := by
  rcases h with ⟨free, rfl⟩ | ⟨due, pending, run⟩
  · exact clockFirst_of_not free
  · rw [exec_clockSetTakesEffect due pending] at run
    injection run

/-! ### Power-on and chip reset -/

theorem delay_initial : ({} : DLY).delay = 0 := by simp [DLY.delay]

/-- Settles O7: the power-on state is the state of defaults. -/
theorem powerOnValues : Obligations.PowerOnValues := by
  intro s
  refine ⟨powerOn s, rfl, rfl, ?_⟩
  -- TB
  refine ⟨rfl, rfl, rfl, rfl, rfl, rfl, rfl, fun k => by cases k <;> exact ⟨rfl, rfl, rfl, rfl⟩, ?_⟩
  -- AIR
  refine ⟨rfl, rfl, rfl, rfl, rfl, rfl, ?_⟩
  -- CUE
  refine ⟨rfl, rfl, rfl, rfl, rfl, fun c => by cases c <;> exact ⟨rfl, rfl⟩, ?_⟩
  -- LSW
  refine ⟨fun l => by cases l <;> exact ⟨rfl, rfl, rfl, rfl, rfl, rfl, rfl, rfl, rfl⟩, rfl, rfl, rfl, rfl, rfl,
    fun l => by cases l <;> rfl, ?_⟩
  -- DLY
  refine ⟨rfl, rfl, delay_initial, rfl, rfl, rfl, rfl, rfl, rfl, rfl, rfl, rfl, rfl, ?_⟩
  -- ALC
  refine ⟨rfl, rfl, rfl, rfl, rfl, rfl, rfl, rfl, rfl, rfl, ?_⟩
  -- OUT
  refine ⟨rfl, rfl, rfl, rfl, rfl, rfl, rfl, rfl, rfl, rfl, rfl, rfl, rfl, rfl,
    fun l => by cases l <;> exact ⟨rfl, rfl⟩, rfl, ?_⟩
  -- LNK
  refine ⟨rfl, rfl, rfl, rfl, rfl, rfl, rfl, rfl, rfl, rfl, ?_⟩
  -- SITE
  refine ⟨rfl, rfl, rfl, rfl, fun r mem => ?_, rfl, rfl, rfl, rfl, rfl, rfl, rfl, rfl, rfl, rfl, rfl, rfl, ?_⟩
  · obtain rfl : r = {} := List.eq_of_mem_replicate mem
    exact ⟨rfl, rfl, rfl, rfl, rfl⟩
  -- LOG and PI
  exact ⟨rfl, rfl, fun p => by cases p <;> rfl⟩

/-- A cleared port after the RESET entry: LOG NEW set, unless its init pin is low. -/
theorem cleared_raise_logNew (q : Port) : q.cleared.raise .logNew =
    { init := q.init, dataOut := q.dataOut, flags := if q.init = .high then 0x8000#16 else 0#16 } := by
  rw [raise_flags]
  have bit : (0 : Half) ||| (1#16 <<< Notice.logNew.bit) = 0x8000#16 := by decide
  unfold Port.cleared
  cases q.init
  · exact congrArg (fun f => ({ dataOut := q.dataOut, flags := f } : Port)) bit
  · rfl

/-- Settles O8. -/
theorem chipResetKeepsTheClockAndTheLog : Obligations.ChipResetKeepsTheClockAndTheLog := by
  intro s₀ s acts
  have run : exec .chipReset s₀ = .next (logEntry .reset .none (.number 0) (resetValues s)) :=
    congrArg (fun u => Host.Outcome.next (logEntry .reset .none (.number 0) (resetValues u))) (clockFirst_of_actsOn acts)
  refine ⟨_, run, rfl, rfl, rfl, rfl, rfl, rfl, rfl, rfl, rfl, rfl, rfl, rfl, rfl, fun p => ?_⟩
  cases p <;> exact cleared_raise_logNew _

end Sys2Proof.Machine
end

section
/-! Requests that write settings: the values they refuse and what they write. -/

namespace Sys2Proof.Machine

open Sys2Proof

/-! ### Operands -/

theorem yesNoOf_of_le {b : Byte} (h : b.toNat ≤ 1) : yesNoOf b = some (decide (b.toNat = 0)) := by
  unfold yesNoOf
  obtain h | h : b.toNat = 0 ∨ b.toNat = 1 := by omega
  · simp only [h]; rfl
  · simp only [h]; rfl

theorem yesNoOf_outside {b : Byte} (h : 1 < b.toNat) : yesNoOf b = none := by
  unfold yesNoOf
  split <;> first | omega | rfl

theorem ringDirOf_of_le {b : Byte} (h : b.toNat ≤ 1) :
    ringDirOf b = some (if b.toNat = 0 then .rising else .falling) := by
  unfold ringDirOf
  obtain h | h : b.toNat = 0 ∨ b.toNat = 1 := by omega
  · simp only [h]; rfl
  · simp only [h]; rfl

theorem ringDirOf_outside {b : Byte} (h : 1 < b.toNat) : ringDirOf b = none := by
  unfold ringDirOf
  split <;> first | omega | rfl

theorem printable_iff {most : Nat} {cs : List Byte} :
    printable most cs = true ↔ cs.length ≤ most ∧ ∀ c ∈ cs, 32 ≤ c.toNat ∧ c.toNat ≤ 126 := by
  unfold printable
  rw [Bool.and_eq_true, decide_eq_true_iff, List.all_eq_true]
  simp only [decide_eq_true_iff]

/-- The answer of a request that its owner decides. -/
theorem exec_answers {permitted : List PortId} {i : Instr} {p : PortId} {code : Nat} {ps : List Byte} {s t : State} {x : Reply}
    (h : i.request = some ⟨p, code, ps⟩) (c : portsOf code = some permitted) (fits : ps.length ≤ 62)
    (n : ∀ q, i ≠ .portReset q) (on : p ∈ permitted) (a : Arrives i p s) (own : ownerAct i s = (t, x)) :
    exec i s = .next (replyTo p code x t) := by
  rw [exec_portsOf h c fits n on a, own]

/-! ### One block's settings -/

/-- Settles O23. -/
theorem setMaxDepthKeepsTheDepth : Obligations.SetMaxDepthKeepsTheDepth := by
  refine ⟨rfl, fun s => ⟨_, rfl, rfl⟩, fun b s => ⟨refusedOff_portsOf s (fun _ => rfl) rfl (by simp) nofun, fun a => ?_⟩⟩
  have run {t : State} {x : Reply} (own : ownerSetMaxDepth b s = (t, x)) :
      exec (.setMaxDepth .b b) s = .next (replyTo .b 18 x t) :=
    exec_answers rfl rfl (by simp) nofun (by simp) a own
  refine ⟨fun outside => run ?_, fun least most below => run ?_, fun least most fits => run ?_⟩
  · exact if_pos (by omega)
  · unfold ownerSetMaxDepth
    rw [if_neg (by omega), if_pos below]
    rfl
  · unfold ownerSetMaxDepth
    rw [if_neg (by omega), if_neg (by omega)]
    rfl

/-- Settles O29. -/
theorem lowWaterIsArmed : Obligations.LowWaterIsArmed := by
  refine fun p b s => ⟨refusedOff_portsOf s (fun _ => rfl) rfl (by simp) nofun,
    refusedOff_portsOf s (fun _ => rfl) rfl (by simp) nofun, fun ab set arm => ?_⟩
  have on : p ∈ [PortId.a, .b] := by simpa using ab
  have runSet {t : State} {x : Reply} (own : ownerSetLowWater b s = (t, x)) :
      exec (.setLowWater p b) s = .next (replyTo p 31 x t) := exec_answers rfl rfl (by simp) nofun on set own
  have runArm {t : State} {x : Reply} (own : ownerArmLowWater s = (t, x)) :
      exec (.armLowWater p) s = .next (replyTo p 32 x t) := exec_answers rfl rfl (by simp) nofun on arm own
  refine ⟨fun above => runSet (if_pos above), fun within => runSet (if_neg (Nat.not_lt.2 within)), fun above => runArm ?_,
    fun least most => runArm ?_⟩
  · exact congrArg (·, (⟨.ok, []⟩ : Reply)) (if_pos above)
  · exact congrArg (·, (⟨.ok, []⟩ : Reply)) (if_neg (by omega))

/-- Settles O43. -/
theorem setDelayOptionsWritesBoth : Obligations.SetDelayOptionsWritesBoth := by
  refine fun d r s => ⟨refusedOff_portsOf s (fun _ => rfl) rfl (by simp [halfBytes]) nofun, fun a => ?_, rfl, decide_eq_true_iff⟩
  have run {t : State} {x : Reply} (own : ownerSetDelayOptions d r s = (t, x)) :
      exec (.setDelayOptions .b d r) s = .next (replyTo .b 60 x t) :=
    exec_answers rfl rfl (by simp [halfBytes]) nofun (by simp) a own
  refine ⟨fun outside => run (if_neg ?_), fun least most low high => run (if_pos ⟨least, most, low, high⟩)⟩
  simp only [Config.maxDelay]
  omega

/-- Settles O37. -/
theorem lineNoteWritesTheNote : Obligations.LineNoteWritesTheNote := by
  intro b note s size
  refine ⟨refusedOff_portsOf s (fun _ => rfl) rfl (by simp; omega) nofun, fun a => ?_, fun r => rfl⟩
  have run {t : State} {x : Reply} (own : ownerLineNote b note s = (t, x)) :
      exec (.lineNote .b b note) s = .next (replyTo .b 46 x t) :=
    exec_answers rfl rfl (by simp; omega) nofun (by simp) a own
  refine ⟨fun bad => run ?_, fun l number short chars => ?_⟩
  · unfold ownerLineNote
    by_cases fits : printable 24 note = true
    · rw [if_neg (by simp [fits])]
      obtain ⟨short, chars⟩ := printable_iff.1 fits
      refine onLine_outside ?_
      rcases bad with zero | above | long | ⟨c, mem, low | high⟩
      · exact .inl zero
      · exact .inr above
      · omega
      · have := chars c mem; omega
      · have := chars c mem; omega
    · rw [if_pos (by simp [fits])]
      rfl
  · have own : ownerLineNote b note s = if (s.line l).offHook then
        (linesChange (s.lsw.modify l (·.annotate (some note))) s, ⟨.ok, []⟩) else (s, ⟨.wrongState, []⟩) := by
      unfold ownerLineNote
      rw [printable_iff.2 ⟨short, chars⟩]
      exact onLine_number number
    refine ⟨fun off => run ?_, fun idle ringing clearing => run ?_⟩
    · rw [own]
      rcases off with st | st | st <;> rw [st] <;> rfl
    · have connected : (s.line l).offHook = true := by
        cases st : s.line l <;> simp_all [LineState.offHook]
      rw [own, connected]
      rfl

/-! ### The alert tables -/

theorem eventCodeOf_of_capitals {x y z : Byte} (h : ∀ c ∈ [x, y, z], 65 ≤ c.toNat ∧ c.toNat ≤ 90) :
    eventCodeOf x y z = some ⟨x, y, z⟩ := if_pos (List.all_eq_true.2 fun c mem => decide_eq_true (h c mem))

theorem eventCodeOf_outside {x y z : Byte} (h : ∃ c ∈ [x, y, z], c.toNat < 65 ∨ 90 < c.toNat) : eventCodeOf x y z = none := by
  refine if_neg fun all => ?_
  obtain ⟨c, mem, outside⟩ := h
  have within := of_decide_eq_true (List.all_eq_true.1 all c mem)
  omega

theorem eventActionOf_outside {b : Byte} (h : 3 < b.toNat) : eventActionOf b = none := by
  unfold eventActionOf
  split <;> first | omega | rfl

theorem eventActionOf_place {b : Byte} {x : EventAction} (h : b.toNat = x.place) : eventActionOf b = some (some x) := by
  unfold eventActionOf
  rw [h]
  cases x <;> rfl

/-- Settles O50: the code present in the table or not, and the table full or not, decide SET EVENT ACTION. -/
theorem alertTablesAreWritten : Obligations.AlertTablesAreWritten := by
  intro codes e1 e2 e3 a k l u w s size
  have room : (BitVec.ofNat 8 codes.length :: triListBytes codes).length ≤ 62 := by
    have := (by simp [triListBytes, triBytes, Nat.mul_comm] : (triListBytes codes).length = 3 * codes.length)
    simp only [List.length_cons, this]
    omega
  refine ⟨refusedOff_portsOf s (fun _ => rfl) rfl room nofun, refusedOff_portsOf s (fun _ => rfl) rfl (by simp) nofun,
    refusedOff_portsOf s (fun _ => rfl) rfl (by simp [triBytes]) nofun, fun p ab areas action times => ?_⟩
  have on : p ∈ [PortId.a, .b] := by simpa using ab
  have runAreas {t : State} {x : Reply} (own : ownerSetAreas codes s = (t, x)) :
      exec (.setAreas p codes) s = .next (replyTo p 68 x t) := exec_answers rfl rfl room nofun on areas own
  have runAction {t : State} {x : Reply} (own : ownerSetEventAction e1 e2 e3 a s = (t, x)) :
      exec (.setEventAction p e1 e2 e3 a) s = .next (replyTo p 69 x t) :=
    exec_answers rfl rfl (by simp) nofun on action own
  have runTimes {t : State} {x : Reply} (own : ownerSetAlertTimes l u w k s = (t, x)) :
      exec (.setAlertTimes p l u w k) s = .next (replyTo p 70 x t) :=
    exec_answers rfl rfl (by simp [triBytes]) nofun on times own
  refine ⟨fun bad => runAreas ?_, fun few small nodup => runAreas ?_, fun bad => runAction ?_,
    fun capitals => ?_, fun bad => runTimes ?_, fun hl hu hw hk => runTimes ?_⟩
  · refine if_neg ?_
    rintro ⟨few, small, nodup⟩
    rcases bad with many | ⟨c, mem, big⟩ | twice
    · omega
    · have := of_decide_eq_true (List.all_eq_true.1 small c mem)
      omega
    · exact twice nodup
  · exact if_pos ⟨few, List.all_eq_true.2 fun c mem => decide_eq_true (small c mem), nodup⟩
  · unfold ownerSetEventAction
    rcases bad with outside | above
    · rw [eventCodeOf_outside outside]
      rfl
    · rw [eventActionOf_outside above]
      split
      · rename_i none
        cases none
      · rfl
  · have code := eventCodeOf_of_capitals capitals
    have anyIff : (s.alc.events.any fun r => decide (r.1 = ⟨e1, e2, e3⟩)) = true ↔
        ∃ r ∈ s.alc.events, r.1 = (⟨e1, e2, e3⟩ : EventCode) := by
      simp only [List.any_eq_true, decide_eq_true_iff]
    have removes (three : a.toNat = 3) : eventActionOf a = some none := by
      unfold eventActionOf
      rw [three]
      rfl
    refine ⟨fun three absent => runAction ?_, fun three present => runAction ?_, fun x place =>
      ⟨fun present => runAction ?_, fun absent room => runAction ?_, fun absent full => runAction ?_⟩⟩
    · unfold ownerSetEventAction
      simp only [code, removes three, Bool.eq_false_iff.2 (mt anyIff.1 absent)]
      rfl
    · unfold ownerSetEventAction
      simp only [code, removes three, anyIff.2 present]
      rfl
    · unfold ownerSetEventAction
      simp only [code, eventActionOf_place place, anyIff.2 present]
      rfl
    · unfold ownerSetEventAction
      simp only [code, eventActionOf_place place, Bool.eq_false_iff.2 (mt anyIff.1 absent), if_pos room]
      rfl
    · unfold ownerSetEventAction
      simp only [code, eventActionOf_place place, Bool.eq_false_iff.2 (mt anyIff.1 absent), if_neg (Nat.not_lt.2 full)]
      rfl
  · unfold ownerSetAlertTimes
    by_cases wake : k.toNat ≤ 1
    · rw [yesNoOf_of_le wake]
      exact if_neg (by omega)
    · rw [yesNoOf_outside (by omega)]
      rfl
  · unfold ownerSetAlertTimes
    rw [yesNoOf_of_le hk]
    exact if_pos ⟨hl, hu, hw⟩

end Sys2Proof.Machine
end

section
/-! The site's settings and the timebase's requests (R9, R13, R176). -/

namespace Sys2Proof.Machine

open Sys2Proof

/-! ### Operands -/

theorem timeOf_of_lt {t : Long} (h : t.toNat < 17280000) : timeOf t = some t.toNat := if_pos h

theorem timeOf_outside {t : Long} (h : 17280000 ≤ t.toNat) : timeOf t = none := if_neg (Nat.not_lt.2 h)

theorem slotOf_of_mem {b : Byte} (h : b.toNat ≤ 7 ∨ b.toNat = 255) :
    slotOf b = some (if b.toNat ≤ 7 then some b.toNat else none) := by
  unfold slotOf
  split
  · rfl
  · rw [if_pos (h.resolve_left ‹_›)]

theorem slotOf_outside {b : Byte} (h : ¬ (b.toNat ≤ 7 ∨ b.toNat = 255)) : slotOf b = none := by
  unfold slotOf
  rw [if_neg fun slot => h (.inl slot), if_neg fun none => h (.inr none)]

theorem slotLengthOf_of_le {b : Byte} (h : b.toNat ≤ 3) : slotLengthOf b = some ([0, 200, 400, 1000].getD b.toNat 0) := by
  unfold slotLengthOf
  obtain h | h | h | h : b.toNat = 0 ∨ b.toNat = 1 ∨ b.toNat = 2 ∨ b.toNat = 3 := by omega
  all_goals simp only [h]; rfl

theorem slotLengthOf_outside {b : Byte} (h : 3 < b.toNat) : slotLengthOf b = none := by
  unfold slotLengthOf
  split <;> first | omega | rfl

theorem inSequence_iff (x : SiteState) :
    x.inSequence = true ↔ x = .starting ∨ x = .lowering ∨ x = .raising ∨ x = .stopping := by cases x <;> simp [SiteState.inSequence]

/-! ### The site's settings -/

/-- SET SITE RESOURCE by whether its values are in range and whether a sequence is under way (R176). -/
theorem ownerSetSiteResource_cases (r t k : Byte) (label : List Byte) (s : State) :
    let inRange := r.toNat ≤ 7 ∧ (t.toNat ≤ 7 ∨ t.toNat = 255) ∧ k.toNat ≤ 1 ∧ label.length ≤ 8 ∧
      ∀ x ∈ label, 32 ≤ x.toNat ∧ x.toNat ≤ 126
    (¬ inRange → ownerSetSiteResource r t k label s = refuse .badValue s) ∧
    (inRange → ownerSetSiteResource r t k label s = if s.site.state.inSequence then refuse .wrongState s
      else reply .ok (fun s => s.withSite (s.site.modify r.toNat fun x => { x with
        slot := if t.toNat ≤ 7 then some t.toNat else none
        keepInLow := decide (k.toNat = 0), label := textOf label })) s) := by
  refine ⟨fun bad => ?_, fun ⟨resource, slot, keep, short, chars⟩ => ?_⟩
  · unfold ownerSetSiteResource
    by_cases slot : t.toNat ≤ 7 ∨ t.toNat = 255
    · by_cases keep : k.toNat ≤ 1
      · rw [slotOf_of_mem slot, yesNoOf_of_le keep]
        refine if_pos ?_
        rw [Bool.not_eq_true', Bool.eq_false_iff, Ne, printable_iff]
        by_contra fits
        exact bad ⟨by omega, slot, keep, not_not.1 fun bad => fits (.inr bad)⟩
      · rw [slotOf_of_mem slot, yesNoOf_outside (by omega)]
    · rw [slotOf_outside slot]
  · unfold ownerSetSiteResource
    rw [slotOf_of_mem slot, yesNoOf_of_le keep]
    exact if_neg (by simp [printable_iff.2 ⟨short, chars⟩, resource])

/-- SET SITE OPTIONS by whether its values are in range and whether a sequence is under way (R176). -/
theorem ownerSetSiteOptions_cases (l f w c q : Byte) (s : State) :
    let inRange := l.toNat ≤ 3 ∧ f.toNat ≤ 15 ∧ w.toNat < f.toNat ∧ c.toNat ≤ 1 ∧ q.toNat ≤ 1
    (¬ inRange → ownerSetSiteOptions l f w c q s = refuse .badValue s) ∧
    (inRange → ownerSetSiteOptions l f w c q s = if s.site.state.inSequence then refuse .wrongState s
      else reply .ok (fun s => s.withSite { s.site with
        slotLength := [0, 200, 400, 1000].getD l.toNat 0, fullStep := f.toNat, lowStep := w.toNat
        restorePrevious := decide (c.toNat = 0), sequentialOff := decide (q.toNat = 0) }) s) := by
  refine ⟨fun bad => ?_, fun ⟨slot, full, low, restore, sequential⟩ => ?_⟩
  · unfold ownerSetSiteOptions
    by_cases slot : l.toNat ≤ 3
    · by_cases restore : c.toNat ≤ 1
      · by_cases sequential : q.toNat ≤ 1
        · rw [slotLengthOf_of_le slot, yesNoOf_of_le restore, yesNoOf_of_le sequential]
          exact if_neg fun ⟨full, low⟩ => bad ⟨slot, full, low, restore, sequential⟩
        · rw [slotLengthOf_of_le slot, yesNoOf_of_le restore, yesNoOf_outside (by omega)]
      · rw [slotLengthOf_of_le slot, yesNoOf_outside (b := c) (by omega)]
    · rw [slotLengthOf_outside (by omega)]
  · unfold ownerSetSiteOptions
    rw [slotLengthOf_of_le slot, yesNoOf_of_le restore, yesNoOf_of_le sequential]
    exact if_pos ⟨full, low⟩

/-- SET LOW WINDOW by whether its values are in range (R176). -/
theorem ownerSetLowWindow_cases (low full : Long) (e : Byte) (s : State) :
    let inRange := low.toNat ≤ 17279999 ∧ full.toNat ≤ 17279999 ∧ low ≠ full ∧ e.toNat ≤ 1
    (¬ inRange → ownerSetLowWindow low full e s = refuse .badValue s) ∧
    (inRange → ownerSetLowWindow low full e s = reply .ok (fun s => s.withSite { s.site with
      lowTime := low.toNat, fullTime := full.toNat, windowEnabled := decide (e.toNat = 0) }) s) := by
  refine ⟨fun bad => ?_, fun ⟨hl, hf, differ, enabled⟩ => ?_⟩
  · unfold ownerSetLowWindow
    by_cases hl : low.toNat < 17280000
    · by_cases hf : full.toNat < 17280000
      · by_cases enabled : e.toNat ≤ 1
        · rw [timeOf_of_lt hl, timeOf_of_lt hf, yesNoOf_of_le enabled]
          refine if_pos ?_
          by_contra differ
          exact bad ⟨by omega, by omega, fun same => differ (congrArg _ same), enabled⟩
        · rw [timeOf_of_lt hl, timeOf_of_lt hf, yesNoOf_outside (by omega)]
      · rw [timeOf_of_lt hl, timeOf_outside (t := full) (by omega)]
    · rw [timeOf_outside (t := low) (by omega)]
  · unfold ownerSetLowWindow
    rw [timeOf_of_lt (by omega), timeOf_of_lt (by omega), yesNoOf_of_le enabled]
    exact if_neg fun same => differ (BitVec.eq_of_toNat_eq same)

/-- Settles O57. -/
theorem siteSettingsAreWritten : Obligations.SiteSettingsAreWritten := by
  intro r t k l f w c q e label low full s size
  refine ⟨refusedOff_portsOf s (fun _ => rfl) rfl (by simp; omega) nofun, refusedOff_portsOf s (fun _ => rfl) rfl (by simp) nofun,
    refusedOff_portsOf s (fun _ => rfl) rfl (by simp [longBytes]) nofun, fun p ab aResource aOptions aWindow => ?_⟩
  have on : p ∈ [PortId.a, .b] := by simpa using ab
  have runResource {u : State} {x : Reply} (own : ownerSetSiteResource r t k label s = (u, x)) :
      exec (.setSiteResource p r t k label) s = .next (replyTo p 101 x u) :=
    exec_answers rfl rfl (by simp; omega) nofun on aResource own
  have runOptions {u : State} {x : Reply} (own : ownerSetSiteOptions l f w c q s = (u, x)) :
      exec (.setSiteOptions p l f w c q) s = .next (replyTo p 102 x u) :=
    exec_answers rfl rfl (by simp) nofun on aOptions own
  have runWindow {u : State} {x : Reply} (own : ownerSetLowWindow low full e s = (u, x)) :
      exec (.setLowWindow p low full e) s = .next (replyTo p 103 x u) :=
    exec_answers rfl rfl (by simp [longBytes]) nofun on aWindow own
  obtain ⟨badResource, goodResource⟩ := ownerSetSiteResource_cases r t k label s
  obtain ⟨badOptions, goodOptions⟩ := ownerSetSiteOptions_cases l f w c q s
  obtain ⟨badWindow, goodWindow⟩ := ownerSetLowWindow_cases low full e s
  refine ⟨fun bad => runResource (badResource bad), fun good moving => runResource ?_, fun good still => runResource ?_,
    fun bad => runOptions (badOptions bad), fun good moving => runOptions ?_, fun good still => runOptions ?_,
    fun bad => runWindow (badWindow bad), fun good => runWindow (goodWindow good)⟩
  · rw [goodResource good, if_pos ((inSequence_iff _).2 moving)]
    rfl
  · rw [goodResource good, if_neg (mt (inSequence_iff _).1 still)]
    rfl
  · rw [goodOptions good, if_pos ((inSequence_iff _).2 moving)]
    rfl
  · rw [goodOptions good, if_neg (mt (inSequence_iff _).1 still)]
    rfl

/-! ### The clock's requests -/

theorem clockSourceOf_outside {b : Byte} (h : 2 < b.toNat) : clockSourceOf b = none := by
  unfold clockSourceOf
  split <;> first | omega | rfl

theorem clockSourceOf_place {b : Byte} {x : ClockSource} (h : b.toNat = x.place) : clockSourceOf b = some x := by
  unfold clockSourceOf
  rw [h]
  cases x <;> rfl

/-- Which sources are good (R8). -/
theorem good_iff (t : TB) (x : ClockSource) :
    t.good x = true ↔ x = .internal ∨ (x = .house ∧ 200 ≤ t.houseCount) ∨ (x = .link ∧ t.link = .up) := by
  
  cases x
  · simp [TB.good]
  · show decide (Config.houseLock ≤ t.houseCount) = true ↔ _
    rw [decide_eq_true_iff]
    simp [Config.houseLock]
  · simp [TB.good]

/-- Settles O18. -/
theorem clockRequestsAreJudged : Obligations.ClockRequestsAreJudged := by
  refine ⟨fun b s => ⟨refusedOff_portsOf s (fun _ => rfl) rfl (by simp) nofun, fun a => ?_⟩,
    fun time s => ⟨refusedOff_portsOf s (fun _ => rfl) rfl (by simp [longBytes]) nofun, fun p ab a => ?_⟩⟩
  · have run {t : State} {x : Reply} (own : ownerSelectClock b s = (t, x)) :
        exec (.selectClock .b b) s = .next (replyTo .b 9 x t) := exec_answers rfl rfl (by simp) nofun (by simp) a own
    refine ⟨fun outside => run ?_, fun src place => ⟨fun bad => run ?_, fun good same settled => run ?_,
      fun good other => run ?_⟩⟩
    · unfold ownerSelectClock
      rw [clockSourceOf_outside outside]
      rfl
    all_goals
      unfold ownerSelectClock
      rw [clockSourceOf_place place]
      simp only []
    · exact if_pos (by simpa using mt (good_iff s.tb src).1 bad)
    · rw [if_neg (by simpa using (good_iff s.tb src).2 good), if_pos ⟨same, by simp [settled]⟩]
      rfl
    · rw [if_neg (by simpa using (good_iff s.tb src).2 good), if_neg]
      · rfl
      · rintro ⟨same, settled⟩
        rcases other with differ | pending
        · exact differ same
        · simp [pending] at settled
  · have run {t : State} {x : Reply} (own : ownerSetClock time s = (t, x)) :
        exec (.setClock p time) s = .next (replyTo p 10 x t) :=
      exec_answers rfl rfl (by simp [longBytes]) nofun (by simpa using ab) a own
    refine ⟨fun outside => run ?_, fun inRange => run ?_⟩
    · unfold ownerSetClock
      rw [timeOf_outside outside]
      rfl
    · unfold ownerSetClock
      rw [timeOf_of_lt inRange]
      rfl

end Sys2Proof.Machine
end

section
/-! What a change of the safe reasons touches, and the requests that make OUT judge a reason again (R15, R18, R22, R158). -/

namespace Sys2Proof.Machine

open Sys2Proof

/-! ### OUT, the log and the ports alone -/

/-- Nothing but OUT, the log and the ports differs. -/
def OutAlone (s t : State) : Prop := { t with out := s.out, log := s.log, pi := s.pi } = s

theorem OutAlone.tb {s t : State} (h : OutAlone s t) : t.tb = s.tb := (congrArg State.tb h :)
theorem OutAlone.air {s t : State} (h : OutAlone s t) : t.air = s.air := (congrArg State.air h :)
theorem OutAlone.cue {s t : State} (h : OutAlone s t) : t.cue = s.cue := (congrArg State.cue h :)
theorem OutAlone.lsw {s t : State} (h : OutAlone s t) : t.lsw = s.lsw := (congrArg State.lsw h :)
theorem OutAlone.dly {s t : State} (h : OutAlone s t) : t.dly = s.dly := (congrArg State.dly h :)
theorem OutAlone.alc {s t : State} (h : OutAlone s t) : t.alc = s.alc := (congrArg State.alc h :)
theorem OutAlone.lnk {s t : State} (h : OutAlone s t) : t.lnk = s.lnk := (congrArg State.lnk h :)
theorem OutAlone.site {s t : State} (h : OutAlone s t) : t.site = s.site := (congrArg State.site h :)
theorem OutAlone.audio {s t : State} (h : OutAlone s t) : t.audio = s.audio := (congrArg State.audio h :)
theorem OutAlone.due {s t : State} (h : OutAlone s t) : t.due = s.due := (congrArg State.due h :)

theorem OutAlone.refl (s : State) : OutAlone s s := rfl

theorem OutAlone.trans {s t u : State} (h : OutAlone s t) (k : OutAlone t u) : OutAlone s u := by
  unfold OutAlone at *
  rw [← h, ← k]

theorem outAlone_logEntry (k : LogKind) (x : Subject) (d : Detail) (s : State) : OutAlone s (logEntry k x d s) := rfl

theorem outAlone_safeChange (r : SafeReason) (held : Bool) (s : State) : OutAlone s (safeChange r held s) := by
  unfold safeChange
  dsimp only
  split
  · rfl
  · split
    · rfl
    · split <;> rfl

/-- OUT after a change of a reason (R154). -/
theorem safeChange_out (r : SafeReason) (held : Bool) (s : State) :
    (safeChange r held s).out = { s.out with reasons := s.out.reasons.set r held } := by
  unfold safeChange
  split
  · rename_i same
    rw [SafeSet.set_of_get same]
  · dsimp only
    split
    · rfl
    · split <;> rfl

theorem outAlone_judgeSilence (s : State) : OutAlone s (judgeSilence s) := outAlone_safeChange _ _ _

theorem judgeSilence_out (s : State) : (judgeSilence s).out = { s.out with
    reasons := s.out.reasons.set .silence (s.out.deadAir && (s.out.failover || decide (s.air.mode = .unattended))) } :=
  safeChange_out _ _ _

/-! ### SET SILENCE -/

theorem thresholdOf_of_mem {b : Byte} (low : -60 ≤ b.toInt) (high : b.toInt ≤ -20) :
    thresholdOf b = some (-b.toInt).toNat := if_pos ⟨low, high⟩

theorem thresholdOf_outside {b : Byte} (h : b.toInt < -60 ∨ -20 < b.toInt) : thresholdOf b = none := if_neg (by omega)

/-- Settles O53. -/
theorem setSilenceWritesAllFour : Obligations.SetSilenceWritesAllFour := by
  refine fun th f q r s => ⟨refusedOff_portsOf s (fun _ => rfl) rfl (by simp [halfBytes]) nofun, fun p ab a => ?_⟩
  have run {t : State} {x : Reply} (own : ownerSetSilence th q r f s = (t, x)) :
      exec (.setSilence p th q r f) s = .next (replyTo p 83 x t) :=
    exec_answers rfl rfl (by simp [halfBytes]) nofun (by simpa using ab) a own
  refine ⟨fun bad => run ?_, fun low high qLow qHigh rLow rHigh failover => ?_⟩
  · unfold ownerSetSilence
    by_cases threshold : -60 ≤ th.toInt ∧ th.toInt ≤ -20
    · by_cases failover : f.toNat ≤ 1
      · rw [thresholdOf_of_mem threshold.1 threshold.2, yesNoOf_of_le failover]
        exact if_neg (by omega)
      · rw [thresholdOf_of_mem threshold.1 threshold.2, yesNoOf_outside (by omega)]
        rfl
    · rw [thresholdOf_outside (by omega)]
      rfl
  · let written : State := s.withOut { s.out with
      threshold := (-th.toInt).toNat, silenceTime := q.toNat, restoreTime := r.toNat, failover := decide (f.toNat = 0) }
    have own : ownerSetSilence th q r f s = (judgeSilence written, ⟨.ok, []⟩) := by
      unfold ownerSetSilence
      rw [thresholdOf_of_mem low high, yesNoOf_of_le failover]
      exact if_pos ⟨qLow, qHigh, rLow, rHigh⟩
    have out := judgeSilence_out written
    have frame := outAlone_judgeSilence written
    have audio : (judgeSilence written).audio = s.audio := frame.audio
    refine ⟨_, run own, ?_, ?_, congrArg (fun u : State => { u with out := s.out }) frame, fun b delayed =>
      ⟨fun alive reached => ?_, fun dead reached => ?_⟩⟩
    · rw [out]
      show (((-th.toInt).toNat : Nat) : Int) = -th.toInt
      omega
    · rw [out]
      rfl
    · unfold silenceStarts
      rw [audio, delayed, out]
      simp [written, alive, Nat.le_succ_of_le reached]
    · unfold silenceEnds
      rw [audio, delayed, out]
      simp [written, dead, Nat.le_succ_of_le reached]

/-! ### SET MODE -/

theorem modeOf_outside {b : Byte} (h : 3 < b.toNat) : modeOf b = none := by
  unfold modeOf
  split <;> first | omega | rfl

theorem modeOf_place {b : Byte} {m : Mode} (h : b.toNat = m.place) : modeOf b = some m := by
  unfold modeOf
  rw [h]
  cases m <;> rfl

/-- The newest entry of a kind. -/
def LOG.newest (l : LOG) (k : LogKind) : Option Detail := (l.entries.find? fun e => decide (e.kind = k)).map (·.detail)

/-- An appended entry that merges with none is the newest of its kind. -/
theorem LOG.newest_append {l : LOG} {k : LogKind} {d : Detail} (time : Option Nat) (x : Subject) (no : merges k d = false) :
    (l.append time k x d).newest k = some d ∧ ∃ e rest, (l.append time k x d).entries = e :: rest ∧ e.kind = k := by
  rw [LOG.append_of_no_repeat (fun _ _ _ takes => absurd takes.1 (by simp [no]))]
  exact ⟨by simp [LOG.appended, LOG.newest], _, _, rfl, rfl⟩

/-- An entry of another kind leaves the newest entry the newest of its own. -/
theorem LOG.newest_append_other {l : LOG} {k k' : LogKind} {d : Detail} (time : Option Nat) (x : Subject)
    (no : merges k' d = false) (other : k' ≠ k) (head : ∃ e rest, l.entries = e :: rest ∧ e.kind = k) :
    (l.append time k' x d).newest k = l.newest k := by
  obtain ⟨e, rest, head, kind⟩ := head
  rw [LOG.append_of_no_repeat (fun _ _ _ takes => absurd takes.1 (by simp [no]))]
  simp [LOG.appended, LOG.newest, head, other, kind, Config.logPlaces]

/-- What a change of a reason appends to the log (R154). -/
theorem safeChange_log (r : SafeReason) (held : Bool) (s : State) : (safeChange r held s).log = s.log ∨
    ∃ k, (k = .safeOn ∨ k = .safeOff) ∧ (safeChange r held s).log = s.log.append (stamp s) k .none (.reason r) := by
  unfold safeChange
  dsimp only
  split
  · exact .inl rfl
  · split
    · exact .inr ⟨.safeOn, .inl rfl, rfl⟩
    · split
      · exact .inr ⟨.safeOff, .inr rfl, rfl⟩
      · exact .inl rfl

/-- The log keeps the newest entry of another kind through a change of a reason. -/
theorem safeChange_newest {r : SafeReason} {held : Bool} {s : State} {k : LogKind} (on : k ≠ .safeOn) (off : k ≠ .safeOff)
    (head : ∃ e rest, s.log.entries = e :: rest ∧ e.kind = k) : (safeChange r held s).log.newest k = s.log.newest k := by
  rcases safeChange_log r held s with same | ⟨k', rfl | rfl, log⟩
  · rw [same]
  · rw [log, LOG.newest_append_other _ _ rfl on.symm head]
  · rw [log, LOG.newest_append_other _ _ rfl off.symm head]

/-- The TEST reason comes and goes with the mode TEST (R23). -/
def testReason (new : Mode) (s : State) : State :=
  when (decide (s.air.mode = .test ∧ new ≠ .test)) (safeChange .test false)
    (when (decide (new = .test)) (safeChange .test true) (s.withAir { s.air with mode := new }))

theorem changeMode_eq (new : Mode) (forced : Bool) (s : State) : changeMode new forced s =
    judgeSilence (logEntry .modeChange .none (.mode new forced) (testReason new s)) := rfl

theorem outAlone_testReason (new : Mode) (s : State) : OutAlone (s.withAir { s.air with mode := new }) (testReason new s) := by
  unfold testReason when
  split <;> split <;>
    first | exact (outAlone_safeChange ..).trans (outAlone_safeChange ..) | exact outAlone_safeChange .. | exact .refl _

theorem testReason_out (new : Mode) (s : State) : (testReason new s).out = { s.out with
    reasons := { s.out.reasons with
      test := if new = .test then true else if s.air.mode = .test then false else s.out.reasons.test } } := by
  unfold testReason when
  by_cases test : new = .test <;> by_cases old : s.air.mode = .test <;> simp [test, old, safeChange_out, SafeSet.set]

/-- A change of mode: AIR's mode, OUT's reasons, the log and the ports (R23). -/
theorem outAlone_changeMode (new : Mode) (forced : Bool) (s : State) :
    OutAlone (s.withAir { s.air with mode := new }) (changeMode new forced s) :=
  (outAlone_testReason new s).trans (OutAlone.trans (outAlone_logEntry ..) (outAlone_judgeSilence _))

theorem changeMode_out (new : Mode) (forced : Bool) (s : State) : (changeMode new forced s).out = { s.out with
    reasons := { s.out.reasons with
      test := if new = .test then true else if s.air.mode = .test then false else s.out.reasons.test
      silence := s.out.deadAir && (s.out.failover || decide (new = .unattended)) } } := by
  have mode : (testReason new s).air.mode = new := congrArg AIR.mode (outAlone_testReason new s).air
  rw [changeMode_eq, judgeSilence_out]
  simp only [logEntry_eq, raise_out, withLog_out, raise_air, withLog_air, mode, testReason_out]
  rfl

theorem changeMode_newest (new : Mode) (forced : Bool) (s : State) :
    (changeMode new forced s).log.newest .modeChange = some (.mode new forced) := by
  obtain ⟨newest, head⟩ := LOG.newest_append (l := (testReason new s).log) (k := .modeChange) (d := .mode new forced)
    (stamp (testReason new s)) .none rfl
  rw [changeMode_eq]
  exact (safeChange_newest (by decide) (by decide) head).trans newest

/-- With no READY head ALC leaves the air alone (R142). -/
theorem considerAir_of_no_head {s : State} (h : s.alc.readyHead = none) : considerAir s = s := by
  unfold considerAir
  rw [h]
  exact ite_self _

/-- An owner's event that is not refused. -/
theorem eventReply_taken {act : OwnerEvent} {s t : State} {x : Reply} (h : act (clearMarks s) = (t, x)) :
    eventReply act s = (finish s t, x) := by
  unfold eventReply
  rw [h]

/-- Settles O22: the checks of `setModeTo` in order, then `changeMode`. -/
theorem setModeChangesTheAirMode : Obligations.SetModeChangesTheAirMode := by
  refine fun b s => ⟨refusedOff_portsOf s (fun _ => rfl) rfl (by simp) nofun, fun a => ?_⟩
  have run {t : State} {x : Reply} (own : eventReply (setMode b) s = (t, x)) :
      exec (.setMode .b b) s = .next (replyTo .b 17 x t) := exec_answers rfl rfl (by simp) nofun (by simp) a own
  have stays {x : Result} (no : setMode b (clearMarks s) = refuse x (clearMarks s)) :
      exec (.setMode .b b) s = .next (replyTo .b 17 ⟨x, []⟩ (clearMarks s)) := run (eventReply_refused no)
  refine ⟨fun outside => stays ?_, fun m place => ?_⟩
  · unfold setMode
    rw [modeOf_outside outside]
  have judged {x : Result} (no : setModeTo m (clearMarks s) = refuse x (clearMarks s)) :
      setMode b (clearMarks s) = refuse x (clearMarks s) := by
    unfold setMode
    rw [modeOf_place place]
    simp only [no]
    exact congrArg (·, _) (if_pos rfl)
  refine ⟨fun same => stays (judged ?_), fun new notLive wasNotLive => stays (judged ?_),
    fun new live inUse => stays (judged ?_), fun notLive wasLive empty noChain onAir => stays (judged ?_),
    fun new live empty noChain noReady => ?_⟩
  · exact if_pos same
  · exact (if_neg new).trans (if_pos ⟨wasNotLive, notLive⟩)
  · exact (if_neg new).trans ((if_neg (by rintro ⟨h, h'⟩; exact live.elim h' h)).trans (if_pos inUse))
  · exact (if_neg fun same => notLive (same.trans wasLive)).trans ((if_neg fun h => h.1 wasLive).trans
      ((if_neg (by rintro (h | h) <;> exact h ‹_›)).trans (if_pos ⟨wasLive, onAir⟩)))
  · have taken : setMode b (clearMarks s) = (changeMode m false (clearMarks s), ⟨.ok, []⟩) := by
      have allowed : setModeTo m (clearMarks s) = reply .ok (changeMode m false) (clearMarks s) := by
        refine (if_neg new).trans ((if_neg ?_).trans ((if_neg (by rintro (h | h) <;> exact h ‹_›)).trans (if_neg ?_)))
        · rintro ⟨wasNot, isNot⟩
          rcases live with live | ⟨live, -⟩
          · exact isNot live
          · exact wasNot live
        · rintro ⟨wasLive, onAir⟩
          rcases live with rfl | ⟨-, offAir⟩
          · exact new wasLive.symm
          · exact absurd (onAir.symm.trans offAir) nofun
      have frame := outAlone_changeMode m false (clearMarks s)
      have mode : (changeMode m false (clearMarks s)).air.mode = m := congrArg AIR.mode frame.air
      have alc : (changeMode m false (clearMarks s)).alc = s.alc := frame.alc
      unfold setMode
      rw [modeOf_place place]
      simp only [allowed, reply, mode, show (clearMarks s).air.mode = s.air.mode from rfl, if_neg new]
      rw [considerAir_of_no_head (by rw [alc]; exact noReady)]
    have frame := outAlone_changeMode m false (clearMarks s)
    have cue : (changeMode m false (clearMarks s)).cue = (clearMarks s).cue := frame.cue
    have lsw : (changeMode m false (clearMarks s)).lsw = s.lsw := frame.lsw
    have out := changeMode_out m false (clearMarks s)
    have ends : finish s (changeMode m false (clearMarks s)) = clearMarks (changeMode m false (clearMarks s)) :=
      finish_same (by rw [cue]; rfl) (by rw [cue]; rfl) (by rw [lsw]) (by rw [lsw])
    refine ⟨clearMarks (changeMode m false (clearMarks s)), run ((eventReply_taken taken).trans (by rw [ends])), frame.air,
      changeMode_newest m false _, fun test => ?_, fun test => ?_, ?_,
      congrArg (fun u : State => clearMarks { u with air := s.air }) frame⟩
    · show (changeMode m false (clearMarks s)).out.reasons.test = true
      rw [out]
      exact if_pos test
    · show (changeMode m false (clearMarks s)).out.reasons.test = false
      rw [out]
      exact (if_neg fun same => new (same.trans test.symm)).trans (if_pos test)
    · show (changeMode m false (clearMarks s)).out.reasons.silence = _
      rw [out]
      rfl

/-! ### SET KEY LINE -/

theorem keyActionOf_outside {b : Byte} (h : 5 < b.toNat) : keyActionOf b = none := by
  unfold keyActionOf
  split <;> first | omega | rfl

theorem keyActionOf_place {b : Byte} {x : KeyAction} (h : b.toNat = x.place) : keyActionOf b = some x := by
  unfold keyActionOf
  rw [h]
  cases x <;> rfl

theorem keyEdgeOf_outside {b : Byte} (h : 3 < b.toNat) : keyEdgeOf b = none := by
  unfold keyEdgeOf
  split <;> first | omega | rfl

theorem keyEdgeOf_place {b : Byte} {x : KeyEdge} (h : b.toNat = x.place) : keyEdgeOf b = some x := by
  unfold keyEdgeOf
  rw [h]
  cases x <;> rfl

theorem levelOf_outside {b : Byte} (h : 1 < b.toNat) : levelOf b = none := by
  unfold levelOf
  split <;> first | omega | rfl

theorem levelOf_place {b : Byte} {x : Level} (h : b.toNat = Level.place x) : levelOf b = some x := by
  unfold levelOf
  rw [h]
  cases x <;> rfl

/-- What SET KEY LINE keeps of an edge and an active level (R15). -/
theorem keyLine_write (r : KeyLine) (a : KeyAction) (e : KeyEdge) (l : Level) : r.write a e l = { r with
    action := a
    edge := if a = .none ∨ a = .safe then .none else e
    active := if a = .safe then l else .high } := by cases a <;> rfl

theorem holds_iff (r : KeyLine) : r.holds = true ↔ r.action = .safe ∧ r.settled = r.active := decide_eq_true_iff

theorem anyHolds_iff (keys : Four KeyLine) :
    keys.toList.any KeyLine.holds = true ↔ ∃ n, (keys.get n).action = .safe ∧ (keys.get n).settled = (keys.get n).active := by
  rw [List.any_eq_true]
  constructor
  · rintro ⟨r, mem, holds⟩
    simp only [Four.toList, List.mem_cons, List.not_mem_nil, or_false] at mem
    rcases mem with rfl | rfl | rfl | rfl
    exacts [⟨.n1, (holds_iff _).1 holds⟩, ⟨.n2, (holds_iff _).1 holds⟩, ⟨.n3, (holds_iff _).1 holds⟩,
      ⟨.n4, (holds_iff _).1 holds⟩]
  · rintro ⟨n, holds⟩
    exact ⟨keys.get n, by cases n <;> simp [Four.toList, Four.get], (holds_iff _).2 holds⟩

/-- KEY after its judgement is held as the lines say (R18). -/
theorem judgeKey_held (s : State) : (judgeKey s).tb = { s.tb with keyHeld := s.tb.keys.toList.any KeyLine.holds } := by
  unfold judgeKey
  dsimp only
  split
  · rename_i same
    rw [same]
  · exact (outAlone_safeChange ..).tb

/-- OUT holds KEY as TB does when it did before (R18). -/
theorem judgeKey_reasons {s : State} (agree : s.out.reasons.key = s.tb.keyHeld) :
    (judgeKey s).out = { s.out with reasons := { s.out.reasons with key := s.tb.keys.toList.any KeyLine.holds } } := by
  unfold judgeKey
  dsimp only
  split
  · rename_i same
    rw [same, ← agree]
  · exact safeChange_out ..

/-- The judgement of KEY touches TB, OUT, the log and the ports alone. -/
theorem judgeKey_frame (s : State) : { judgeKey s with tb := s.tb, out := s.out, log := s.log, pi := s.pi } = s := by
  unfold judgeKey
  dsimp only
  split
  · rfl
  · exact congrArg (fun u : State => { u with tb := s.tb })
      (outAlone_safeChange .key _ (s.withTb { s.tb with keyHeld := s.tb.keys.toList.any KeyLine.holds }))

/-- Settles O20. -/
theorem setKeyLineWritesTheRecord : Obligations.SetKeyLineWritesTheRecord := by
  refine fun line action edge level s => ⟨refusedOff_portsOf s (fun _ => rfl) rfl (by simp) nofun, fun a => ?_⟩
  have run {t : State} {x : Reply} (own : ownerSetKeyLine line action edge level s = (t, x)) :
      exec (.setKeyLine .b line action edge level) s = .next (replyTo .b 11 x t) :=
    exec_answers rfl rfl (by simp) nofun (by simp) a own
  refine ⟨fun bad => run ?_, fun k act e l hk ha he hl => ?_⟩
  · unfold ownerSetKeyLine
    split
    · rename_i hk ha he hl
      rcases bad with h | h | h | h | h
      · rw [nthOf_outside (.inl h)] at hk; cases hk
      · rw [nthOf_outside (.inr h)] at hk; cases hk
      · rw [keyActionOf_outside h] at ha; cases ha
      · rw [keyEdgeOf_outside h] at he; cases he
      · rw [levelOf_outside h] at hl; cases hl
    · rfl
  · let written : State := s.withTb { s.tb with keys := s.tb.keys.modify k fun r => r.write act e l }
    have own : ownerSetKeyLine line action edge level s = (judgeKey written, ⟨.ok, []⟩) := by
      unfold ownerSetKeyLine
      rw [nthOf_number hk, keyActionOf_place ha, keyEdgeOf_place he, levelOf_place hl]
      rfl
    refine ⟨_, run own, ?_, ?_, fun agree => ?_, congrArg (fun u : State => { u with tb := s.tb }) (judgeKey_frame written)⟩
    · rw [judgeKey_held, ← keyLine_write]
      rfl
    · rw [judgeKey_held]
      exact anyHolds_iff _
    · rw [judgeKey_reasons (s := written) agree, judgeKey_held]

end Sys2Proof.Machine
end

section
/-! The block boundary: what it makes due, and a boundary that takes one event and leaves the rest for later (R1; log 2). -/

namespace Sys2Proof.Machine

open Sys2Proof

/-! ### What is due after the counts -/

/-- Every kind of event that a boundary can make due behind a SET CLOCK, in the order it is listed. -/
def kindsAfterClock : List DueKind :=
  [DueKind.clockSelect] ++ [DueKind.house] ++
  (Nth.all.map DueKind.keyEdge ++ [PortId.a, .b, .c].map DueKind.requestTimeout ++ Nth.all.map DueKind.ringEdge ++ Nth.all.map DueKind.ringTimeout ++
    Nth.all.map DueKind.loopDrop ++ Nth.all.map DueKind.clearingEnd) ++
  [DueKind.programme, .lineAudio, .delay, .output, .link, .site, .window, .cueCounts, .cueTimes, .alerts]

theorem boundaryKinds_nodup : (.clockSet :: kindsAfterClock).Nodup := by decide

/-- The kinds of what a filter lets come due are among the kinds of all of it. -/
theorem kinds_sublist {α : Type} (xs : List α) (c : α → Prop) [DecidablePred c] (f : α → Due) (g : α → DueKind)
    (kind : ∀ x, (f x).kind = g x) :
    ((xs.filterMap fun x => if c x then some (f x) else none).map Due.kind).Sublist (xs.map g) := by
  induction xs with
  | nil => exact .slnil
  | cons x xs ih =>
    rw [List.filterMap_cons, List.map_cons]
    split
    · exact ih.cons _
    · rename_i y found
      obtain rfl : f x = y := by
        split at found
        · injection found
        · cases found
      rw [List.map_cons, kind]
      exact ih.cons_cons _

theorem ite_singleton_sublist {c : Prop} [Decidable c] (d : Due) : ((if c then [d] else []).map Due.kind).Sublist [d.kind] := by
  split
  · exact List.Sublist.refl _
  · exact List.nil_sublist _

/-- A boundary makes at most one event of each kind due, and a SET CLOCK only when one is pending. -/
theorem latch_kinds (i : PeriodInput) {s : State} (due : s.due = []) : ((latch i s).due.map Due.kind).Sublist
    ((if s.tb.pendingTime.isSome then [.clockSet] else []) ++ kindsAfterClock) := by
  simp only [latch, withDue_due]
  rw [due, List.nil_append, List.append_assoc, List.append_assoc, List.append_assoc, List.map_append]
  refine List.Sublist.append ?_ ?_
  · split
    · exact List.Sublist.refl _
    · exact List.nil_sublist _
  unfold kindsAfterClock
  rw [List.append_assoc, List.append_assoc, List.map_append, List.map_append, List.map_append]
  refine .append (ite_singleton_sublist _) (.append (List.Sublist.refl _) (.append ?_ (List.Sublist.refl _)))
  unfold pinEvents
  simp only [List.map_append]
  exact .append (.append (.append (.append (.append (kinds_sublist _ _ _ _ fun _ => rfl) (kinds_sublist _ _ _ _ fun _ => rfl))
    (kinds_sublist _ _ _ _ fun _ => rfl)) (kinds_sublist _ _ _ _ fun _ => rfl)) (kinds_sublist _ _ _ _ fun _ => rfl))
    (kinds_sublist _ _ _ _ fun _ => rfl)

/-- No two events a boundary makes due are of one kind. -/
theorem latch_once (i : PeriodInput) {s : State} (due : s.due = []) : ((latch i s).due.map Due.kind).Nodup := by
  refine boundaryKinds_nodup.sublist ((latch_kinds i due).trans ?_)
  split
  · exact List.Sublist.refl _
  · exact List.sublist_cons_self _ _

/-- A boundary with no SET CLOCK pending leaves none due. -/
theorem clockSet_not_mem_latch (i : PeriodInput) {s : State} (due : s.due = []) (clock : s.tb.pendingTime = none) :
    .clockSet ∉ (latch i s).due := by
  intro mem
  have listed := (latch_kinds i due).subset (List.mem_map_of_mem (f := Due.kind) mem)
  rw [clock] at listed
  exact absurd listed (by decide)

/-- An owner's event of every boundary is due after the counts. -/
theorem stage_mem_latch (i : PeriodInput) (s : State) {d : Due} (h : d ∈ stageEvents s.site.window) : d ∈ (latch i s).due :=
  List.mem_append_right _ h

/-! ### The clock and the first sampling -/

/-- The clock's stage touches TB and the ports alone, and takes itself off what is due. -/
theorem clockFirst_frame (s : State) :
    { clockFirst s with tb := s.tb, pi := s.pi, due := s.due } = s ∧ (clockFirst s).due = s.due.erase .clockSet := by
  unfold clockFirst
  split
  · unfold clockSetStage
    split <;> exact ⟨rfl, rfl⟩
  · rename_i free
    exact ⟨rfl, (List.erase_of_not_mem free).symm⟩

/-- The first sampling touches TB, OUT, the log and the ports alone, and takes at most the clock's setting off what is due. -/
theorem firstSampling_frame (b s : State) :
    { firstSampling b s with tb := s.tb, out := s.out, log := s.log, pi := s.pi, due := s.due } = s ∧
    ((firstSampling b s).due = s.due ∨ (firstSampling b s).due = s.due.erase .clockSet) := by
  unfold firstSampling
  split
  · exact ⟨rfl, .inl rfl⟩
  · obtain ⟨frame, due⟩ := clockFirst_frame s
    have judged := judgeKey_frame (clockFirst s)
    refine ⟨?_, .inr ((congrArg State.due judged :).trans due)⟩
    exact (congrArg (fun u : State => { u with tb := s.tb, out := s.out, log := s.log, pi := s.pi, due := s.due }) judged :).trans
      (congrArg (fun u : State => { u with out := s.out, log := s.log }) frame :)

/-- With every key line sampled since the reset, a boundary makes no first sampling. -/
theorem firstSampling_of_sampled {b s : State} (h : KeysSampled b) : firstSampling b s = s :=
  if_pos (by simp [Four.toList, show b.tb.keys.a.sampled = true from h .n1, show b.tb.keys.b.sampled = true from h .n2,
    show b.tb.keys.c.sampled = true from h .n3, show b.tb.keys.d.sampled = true from h .n4])

/-- The state in which the owners' events of a boundary are taken: after its counts, its first sampling and its clock. -/
def atBoundary (i : PeriodInput) (s : State) : State := clockFirst (firstSampling s (latch i s))

/-- Beyond the counts, the boundary touches TB, OUT, the log and the ports alone. -/
theorem atBoundary_frame (i : PeriodInput) (s : State) : { atBoundary i s with
    tb := (latch i s).tb, out := (latch i s).out, log := (latch i s).log, pi := (latch i s).pi, due := (latch i s).due } =
    latch i s := by
  unfold atBoundary
  generalize latch i s = v
  have clock := (clockFirst_frame (firstSampling s v)).1
  have first := (firstSampling_frame s v).1
  rw [← clock] at first
  exact first

theorem atBoundary_due_sublist (i : PeriodInput) (s : State) : (atBoundary i s).due.Sublist (latch i s).due := by
  unfold atBoundary
  rw [(clockFirst_frame _).2]
  rcases (firstSampling_frame s (latch i s)).2 with same | erased
  · rw [same]; exact List.erase_sublist
  · rw [erased]; exact List.erase_sublist.trans List.erase_sublist

theorem mem_atBoundary (i : PeriodInput) (s : State) {d : Due} (n : d ≠ .clockSet) :
    d ∈ (atBoundary i s).due ↔ d ∈ (latch i s).due := by
  unfold atBoundary
  rw [(clockFirst_frame _).2, List.mem_erase_of_ne n]
  rcases (firstSampling_frame s (latch i s)).2 with same | erased
  · rw [same]
  · rw [erased, List.mem_erase_of_ne n]

/-- With no SET CLOCK pending and every key line sampled, the owners' events are taken on the state after the counts. -/
theorem atBoundary_of_sampled {i : PeriodInput} {s : State} (due : s.due = []) (keys : KeysSampled s)
    (clock : s.tb.pendingTime = none) : atBoundary i s = latch i s := by
  unfold atBoundary
  rw [firstSampling_of_sampled keys]
  exact clockFirst_of_not (clockSet_not_mem_latch i due clock)

/-! ### Taking one event -/

/-- Nothing is taken of what is all kept. -/
theorem drain_kept {keep : DueKind → Bool} {n : Nat} {s : State} (h : ∀ d ∈ s.due, keep d.kind = true) :
    drain keep n s = s := by
  cases n with
  | zero => rfl
  | succ n =>
    unfold drain
    rw [List.find?_eq_none.2 fun d mem => by simp [h d mem]]

/-- Of events no two of which are of a kind, one is taken, and none of its kind is left. -/
theorem takeOne_once {s : State} {d : Due} (once : (s.due.map Due.kind).Nodup) (mem : d ∈ s.due) :
    takeOne d.kind s = takeDue d (s.withDue (s.due.erase d)) ∧ ∀ e ∈ s.due.erase d, e.kind ≠ d.kind := by
  refine ⟨takeOne_of_mem d s mem fun e he same => List.inj_on_of_nodup_map once he mem same, fun e he same => ?_⟩
  have nodup : s.due.Nodup := List.Nodup.of_map _ once
  exact nodup.not_mem_erase (List.inj_on_of_nodup_map once (List.mem_of_mem_erase he) mem same ▸ he)

theorem atBoundary_once (i : PeriodInput) {s : State} (due : s.due = []) : ((atBoundary i s).due.map Due.kind).Nodup :=
  (latch_once i due).sublist ((atBoundary_due_sublist i s).map _)

/-- A boundary that leaves every event for later is its counts and its first sampling. -/
theorem boundary_all_later {i : PeriodInput} {later : List DueKind} {s : State} (due : s.due = []) (all : ∀ k, k ∈ later) :
    boundary i [] later s = firstSampling s (latch i s) := by
  unfold boundary
  rw [drain_kept (s := s) (by simp [due])]
  exact drain_kept fun d _ => decide_eq_true (all d.kind)

/-- The events that no other kind stands before, the clock's apart. -/
def standsFirst (k : DueKind) : Bool := decide (k ≠ .clockSet ∧ k ≠ .site ∧ k ≠ .cueTimes ∧ k ≠ .delay)

theorem takeBefore_first {k : DueKind} (first : standsFirst k = true) (s : State) : takeBefore k s = clockFirst s := by
  cases k <;> first | rfl | cases first

/-- A boundary that takes one event first and leaves every other for later. -/
theorem boundary_one {i : PeriodInput} {k : DueKind} {later : List DueKind} {s : State} (due : s.due = [])
    (others : ∀ j, j ≠ k → j ∈ later) (done : ∀ e ∈ (takeKind k (firstSampling s (latch i s))).due, e.kind ≠ k) :
    boundary i [k] later s = takeKind k (firstSampling s (latch i s)) := by
  unfold boundary
  rw [drain_kept (s := s) (by simp [due])]
  exact drain_kept fun d mem => decide_eq_true (others d.kind (done d mem))

/-- A boundary that takes one of the owners' events first, before which the clock alone stands, and leaves the rest for later. -/
theorem boundary_takes_of_before {i : PeriodInput} {d : Due} {later : List DueKind} {s : State} (due : s.due = [])
    (others : ∀ j, j ≠ d.kind → j ∈ later) (clock : d ≠ .clockSet)
    (before : takeBefore d.kind (firstSampling s (latch i s)) = atBoundary i s) (mem : d ∈ stageEvents s.site.window)
    (after : ∀ e ∈ (takeDue d ((atBoundary i s).withDue ((atBoundary i s).due.erase d))).due, e.kind = d.kind →
      e ∈ (atBoundary i s).due.erase d) :
    boundary i [d.kind] later s = takeDue d ((atBoundary i s).withDue ((atBoundary i s).due.erase d)) := by
  have listed : d ∈ (atBoundary i s).due := (mem_atBoundary i s clock).2 (stage_mem_latch i s mem)
  obtain ⟨taken, none⟩ := takeOne_once (atBoundary_once i due) listed
  have run : takeKind d.kind (firstSampling s (latch i s)) =
      takeDue d ((atBoundary i s).withDue ((atBoundary i s).due.erase d)) := by
    unfold takeKind
    rw [before]
    exact taken
  rw [boundary_one due others, run]
  intro e he same
  rw [run] at he
  exact none e (after e he same) same

/-- A boundary that takes one of the owners' events first, one that no other stands before, and leaves the rest for later. -/
theorem boundary_takes {i : PeriodInput} {d : Due} {later : List DueKind} {s : State} (due : s.due = [])
    (others : ∀ j, j ≠ d.kind → j ∈ later) (first : standsFirst d.kind = true) (mem : d ∈ stageEvents s.site.window)
    (after : ∀ e ∈ (takeDue d ((atBoundary i s).withDue ((atBoundary i s).due.erase d))).due, e.kind = d.kind →
      e ∈ (atBoundary i s).due.erase d) :
    boundary i [d.kind] later s = takeDue d ((atBoundary i s).withDue ((atBoundary i s).due.erase d)) :=
  boundary_takes_of_before due others (by rintro rfl; cases first) (takeBefore_first first _) mem after

end Sys2Proof.Machine
end

section
/-! Telephone lines: DROP, the line options, the events of a line, and the lines that leave the air together (R81, R86, R87,
R94 to R100, R103). -/

namespace Sys2Proof.Machine

open Sys2Proof

/-! ### Lines in AIR -/

theorem anyIn_iff {x : LSW} {st : LineState} : x.anyIn st = true ↔ ∃ l, (x.lines.get l).state = st := by
  refine ⟨fun some => ?_, fun ⟨l, h⟩ => anyIn_of_get l h⟩
  simp only [LSW.anyIn, List.any_eq_true, decide_eq_true_eq, Four.toList, List.mem_cons, List.not_mem_nil, or_false] at some
  obtain ⟨r, rfl | rfl | rfl | rfl, h⟩ := some
  exacts [⟨.n1, h⟩, ⟨.n2, h⟩, ⟨.n3, h⟩, ⟨.n4, h⟩]

theorem anyIn_eq_false_iff {x : LSW} {st : LineState} : x.anyIn st = false ↔ ∀ l, (x.lines.get l).state ≠ st := by
  rw [← Bool.not_eq_true, anyIn_iff, not_exists]

/-- Two line tables with the same lines in a state agree on whether there is one. -/
theorem anyIn_congr {x y : LSW} {st : LineState} (h : ∀ l, (x.lines.get l).state = st ↔ (y.lines.get l).state = st) :
    x.anyIn st = y.anyIn st := by
  rw [Bool.eq_iff_iff, anyIn_iff, anyIn_iff]
  exact exists_congr h

/-- A line that is in AIR neither before nor after a change of its record. -/
theorem modify_anyIn_air {x : LSW} {l : Nth} {f : Line → Line} (before : (x.lines.get l).state ≠ .air)
    (after : (f (x.lines.get l)).state ≠ .air) : (x.modify l f).anyIn .air = x.anyIn .air := by
  refine anyIn_congr fun m => ?_
  by_cases same : m = l
  · subst same
    rw [modify_get]
    exact iff_of_false after before
  · rw [modify_get_other x f same]

/-! ### An event of a line -/

/-- An event that leaves CUE alone and the gate as it was ends with its marks wiped. -/
theorem event_same {f : State → State} {s a : State} (h : f (clearMarks s) = a) (cue : a.cue = (clearMarks s).cue)
    (air : a.lsw.anyIn .air = s.lsw.anyIn .air) (live : a.lsw.liveCalls = s.lsw.liveCalls) : event f s = clearMarks a := by
  unfold event
  rw [h]
  exact finish_same (by rw [cue]; rfl) (by rw [cue]; rfl) air live

/-- An event that leaves CUE alone ends with the gate's report and its marks wiped. -/
theorem event_gate {f : State → State} {s a : State} (h : f (clearMarks s) = a) (cue : a.cue = (clearMarks s).cue) :
    event f s = clearMarks (a.withDue (gateCheck s a).due) := by
  unfold event
  rw [h, finish_of_no_start (by rw [cue]; rfl) (by rw [cue]; rfl), ← gateCheck_eq]

/-! ### A line goes to CLEARING (R96) -/

/-- The record of a line that has been dropped (R96). -/
def Line.dropped (r : Line) : Line :=
  { r with state := .clearing, waiting := none, clearing := 200, ringQuiet := 0, loopLoss := 0 }

theorem dropLine_lsw (l : Nth) (s : State) : (dropLine l s).lsw = { s.lsw with
    queue := s.lsw.queue.filter fun m => !decide (m = l)
    slotA := if s.lsw.slotA = some l then none else s.lsw.slotA
    slotB := if s.lsw.slotB = some l then none else s.lsw.slotB
    lines := s.lsw.lines.set l (s.lsw.lines.get l).dropped } := by
  unfold dropLine when
  split <;> rfl

theorem dropLine_frame (l : Nth) (s : State) : { dropLine l s with lsw := s.lsw, air := s.air, pi := s.pi } = s := by
  unfold dropLine when
  split <;> rfl

theorem dropLine_get (l : Nth) (s : State) : (dropLine l s).lsw.lines.get l = (s.lsw.lines.get l).dropped := by
  rw [dropLine_lsw]
  exact four_get_set ..

theorem dropLine_get_other {l m : Nth} (s : State) (h : m ≠ l) : (dropLine l s).lsw.lines.get m = s.lsw.lines.get m := by
  rw [dropLine_lsw]
  exact four_get_set_other _ _ _ _ h

/-- A PARKED line leaves its context record, and no other line's drop touches AIR (R29, R96). -/
theorem dropLine_air_parked {l : Nth} {s : State} (h : s.line l = .parked) : (dropLine l s).air = { s.air with
    stack := s.air.stack.map fun c => { c with parked := c.parked.filter fun p => !decide (p.1 = l) } } := by
  unfold dropLine
  rw [h]
  rfl

theorem dropLine_air {l : Nth} {s : State} (h : s.line l ≠ .parked) : (dropLine l s).air = s.air := by
  unfold dropLine
  rw [decide_eq_false h]
  rfl

/-- LINE CHANGE is raised (R82). -/
theorem dropLine_flag {l : Nth} {s : State} {q : PortId} (high : (s.port q).init = .high) :
    ((dropLine l s).port q).flags.getLsbD 5 = true := by
  unfold dropLine when
  split <;> exact raised_bit .lineChange high

/-- Some line is in AIR after a drop when another was. -/
theorem dropLine_anyIn_air {l : Nth} {s : State} :
    (dropLine l s).lsw.anyIn .air = true ↔ ∃ m, m ≠ l ∧ s.line m = .air := by
  rw [anyIn_iff]
  refine exists_congr fun m => ?_
  by_cases same : m = l
  · subst same
    rw [dropLine_get]
    simp [Line.dropped]
  · rw [dropLine_get_other s same]
    exact ⟨fun h => ⟨same, h⟩, fun h => h.2⟩

/-- A dropped line is in no slot. -/
theorem dropLine_slots (l : Nth) (s : State) : (dropLine l s).lsw.slotA ≠ some l ∧ (dropLine l s).lsw.slotB ≠ some l := by
  rw [dropLine_lsw]
  constructor <;> dsimp only <;> split <;> simp_all

/-- The event of a dropped line: its drop, the gate's report, the marks wiped (R96, R103). -/
theorem event_dropLine (l : Nth) (s : State) : event (dropLine l) s =
    clearMarks ((dropLine l (clearMarks s)).withDue (gateCheck s (dropLine l (clearMarks s))).due) :=
  event_gate rfl (congrArg State.cue (dropLine_frame l (clearMarks s)) :)

/-- The gate's report is due when the last line has left AIR (R103). -/
theorem dropLine_due_last {l : Nth} {s : State} (air : s.line l = .air) (last : ∀ m, m ≠ l → s.line m ≠ .air) :
    (gateCheck s (dropLine l (clearMarks s))).due = s.due ++ [.gateReport false s.lsw.liveCalls] := by
  have frame := dropLine_frame l (clearMarks s)
  have none : (dropLine l (clearMarks s)).lsw.anyIn .air = false := by
    rw [← Bool.not_eq_true, dropLine_anyIn_air]
    rintro ⟨m, other, on⟩
    exact last m other on
  have live : (dropLine l (clearMarks s)).lsw.liveCalls = s.lsw.liveCalls := by rw [dropLine_lsw]; rfl
  rw [gateCheck_due, none, live, anyIn_of_get l air, if_neg (by simp), show (dropLine l (clearMarks s)).due = s.due from
    (congrArg State.due frame :)]

/-- A drop that leaves the gate as it was leaves what is due. -/
theorem dropLine_due_same {l : Nth} {s : State} (same : s.line l ≠ .air ∨ ∃ m, m ≠ l ∧ s.line m = .air) :
    (gateCheck s (dropLine l (clearMarks s))).due = s.due := by
  have live : (dropLine l (clearMarks s)).lsw.liveCalls = s.lsw.liveCalls := by rw [dropLine_lsw]; rfl
  rw [gateCheck_due, if_pos]
  · exact (congrArg State.due (dropLine_frame l (clearMarks s)) :)
  refine ⟨?_, live⟩
  rw [Bool.eq_iff_iff, dropLine_anyIn_air, anyIn_iff]
  constructor
  · rintro ⟨m, -, air⟩
    exact ⟨m, air⟩
  · rintro ⟨m, air⟩
    by_cases this : m = l
    · subst this
      exact same.elim (absurd air) id
    · exact ⟨m, this, air⟩

/-- Settles O39. -/
theorem dropClearsALine : Obligations.DropClearsALine := by
  refine fun b s => ⟨refusedOff_portB s (fun _ => rfl) rfl (by simp), fun a => ?_⟩
  have run {t : State} {x : Reply} (own : eventReply (ownerDrop b) s = (t, x)) :
      exec (.drop .b b) s = .next (replyTo .b 48 x t) := exec_answers rfl rfl (by simp) nofun (by simp) a own
  refine ⟨fun outside => run (eventReply_refused (onLine_outside outside)), fun l number => ?_⟩
  have own : ownerDrop b (clearMarks s) = if (!decide (s.line l = .idle ∨ s.line l = .clearing)) = true
      then (dropLine l (clearMarks s), ⟨.ok, []⟩) else (clearMarks s, ⟨.wrongState, []⟩) := onLine_number number
  have taken (state : ¬ (s.line l = .idle ∨ s.line l = .clearing)) : exec (.drop .b b) s = .next (replyTo .b 48 ⟨.ok, []⟩
      (clearMarks ((dropLine l (clearMarks s)).withDue (gateCheck s (dropLine l (clearMarks s))).due))) := by
    rw [← event_dropLine]
    exact run (eventReply_taken (own.trans (if_pos (by simpa using state))))
  have frame := dropLine_frame l (clearMarks s)
  refine ⟨fun off => run (eventReply_refused (own.trans (if_neg (by rw [decide_eq_true off]; decide)))), fun quiet => ?_, fun held => ?_⟩
  · rw [taken (by rcases quiet with h | h | h | h <;> simp [h]), dropLine_due_same
      (.inl (by rcases quiet with h | h | h | h <;> simp [h]))]
    have notParked : s.line l ≠ .parked := by rcases quiet with h | h | h | h <;> simp [h]
    unfold dropLine
    rw [decide_eq_false (p := (clearMarks s).line l = .parked) notParked]
    rfl
  · refine ⟨_, taken (by rcases held with h | h <;> simp [h]), dropLine_get l _, fun m other => dropLine_get_other _ other,
      (dropLine_slots l _).1, (dropLine_slots l _).2, fun q high => dropLine_flag high, fun parked => ?_,
      fun air => dropLine_air (s := clearMarks s) (fun parked => absurd (air.symm.trans parked) nofun), fun air last => ?_,
      ?_, (congrArg State.dly frame :), (congrArg State.alc frame :), (congrArg State.out frame :), (congrArg State.log frame :)⟩
    · show ∀ r ∈ (dropLine l (clearMarks s)).air.stack, _
      rw [dropLine_air_parked (s := clearMarks s) parked]
      intro r mem x listed
      obtain ⟨c, -, rfl⟩ := List.mem_map.1 mem
      simpa using (List.mem_filter.1 listed).2
    · exact dropLine_due_last air last
    · have cue : (dropLine l (clearMarks s)).cue = (clearMarks s).cue := (congrArg State.cue frame :)
      show (clearMarks (State.withDue _ _)).cue = _
      unfold clearMarks at cue ⊢
      simp only [withCue_cue, withDue_cue, cue]
      rfl

/-! ### The line options -/

/-- A change of live calls permitted is reported to the gate (R94, R103). -/
theorem gateCheck_options {s : State} {y : LSW} (lines : y.lines = s.lsw.lines) :
    (gateCheck s ((clearMarks s).withLsw y)).due =
      if s.lsw.liveCalls = y.liveCalls then s.due else s.due ++ [.gateReport (s.lsw.anyIn .air) y.liveCalls] := by
  have air : y.anyIn .air = s.lsw.anyIn .air := anyIn_congr fun l => by rw [lines]
  rw [gateCheck_due]
  simp only [withLsw_lsw, air, true_and, eq_comm (a := y.liveCalls)]
  rfl

/-- Settles O40. -/
theorem setLineOptionsWritesTheOptions : Obligations.SetLineOptionsWritesTheOptions := by
  refine fun d v e1 e2 e3 e4 s => ⟨refusedOff_portB s (fun _ => rfl) rfl (by simp), fun a => ?_⟩
  have run {t : State} {x : Reply} (own : eventReply (ownerSetLineOptions d v e1 e2 e3 e4) s = (t, x)) :
      exec (.setLineOptions .b d v e1 e2 e3 e4) s = .next (replyTo .b 49 x t) :=
    exec_answers rfl rfl (by simp) nofun (by simp) a own
  refine ⟨fun bad => run (eventReply_refused ?_), fun hd hv h1 h2 h3 h4 => ?_⟩
  · unfold ownerSetLineOptions
    split
    · rename_i hd hv h1 h2 h3 h4
      rcases bad with h | h | h | h | h | h
      · rw [yesNoOf_outside h] at hd; cases hd
      · rw [yesNoOf_outside h] at hv; cases hv
      · rw [ringDirOf_outside h] at h1; cases h1
      · rw [ringDirOf_outside h] at h2; cases h2
      · rw [ringDirOf_outside h] at h3; cases h3
      · rw [ringDirOf_outside h] at h4; cases h4
    · rfl
  · have own : ownerSetLineOptions d v e1 e2 e3 e4 (clearMarks s) =
        if s.lsw.liveCalls ∧ !decide (v.toNat = 0) ∧ s.dly.state = .run .bypass ∧ s.lsw.anyIn .air
        then refuse .inUse (clearMarks s)
        else reply .ok (fun s => s.withLsw { s.lsw with
          dropOnDump := decide (d.toNat = 0), liveCalls := decide (v.toNat = 0)
          ringEdges := ⟨if e1.toNat = 0 then .rising else .falling, if e2.toNat = 0 then .rising else .falling,
            if e3.toNat = 0 then .rising else .falling, if e4.toNat = 0 then .rising else .falling⟩ }) (clearMarks s) := by
      unfold ownerSetLineOptions
      rw [yesNoOf_of_le hd, yesNoOf_of_le hv, ringDirOf_of_le h1, ringDirOf_of_le h2, ringDirOf_of_le h3, ringDirOf_of_le h4]
      rfl
    refine ⟨fun live shut bypass air => run (eventReply_refused (own.trans (if_pos ⟨live, by simp [shut], bypass, air⟩))),
      fun allowed => run ((eventReply_taken (own.trans (if_neg ?_))).trans ?_)⟩
    · rintro ⟨live, shut, bypass, air⟩
      rcases allowed with h | h | h | h
      · rw [h] at live; cases live
      · simp [h] at shut
      · exact h bypass
      · rw [h] at air; cases air
    · show (finish s ((clearMarks s).withLsw _), _) = _
      rw [finish_of_no_start (b := s) (a := (clearMarks s).withLsw _) rfl rfl, gateCheck_eq, gateCheck_options (by rfl)]
      rfl

end Sys2Proof.Machine
end

section
/-! Telephone lines: the events of one line, a line's counts and audio at a boundary, and the lines that leave the air together
(R81, R83, R86, R87, R97 to R100). -/

namespace Sys2Proof.Machine

open Sys2Proof

/-! ### The events of a line -/

theorem directRow_event {d : Due} {f : State → State} {s : State} (clock : .clockSet ∉ s.due) :
    directRow d (event f) s = event f (s.withDue (s.due.erase d)) := directRow_of_not clock

/-- An event that does nothing ends with the marks wiped. -/
theorem event_nothing {f : State → State} {s : State} (h : f (clearMarks s) = clearMarks s) : event f s = clearMarks s :=
  (event_same (a := clearMarks s) h rfl rfl rfl).trans rfl

/-- A line event that changes one record, in AIR neither before nor after. -/
theorem event_modify {f : State → State} {g : Line → Line} {s : State} {l : Nth}
    (h : f (clearMarks s) = (clearMarks s).withLsw (s.lsw.modify l g)) (before : s.line l ≠ .air)
    (after : (g (s.lsw.lines.get l)).state ≠ .air) : event f s = clearMarks (s.withLsw (s.lsw.modify l g)) :=
  (event_same h rfl (modify_anyIn_air before after) rfl).trans rfl

/-- The same with a notice raised. -/
theorem event_modify_raise {f : State → State} {g : Line → Line} {s : State} {l : Nth} {k : Notice}
    (h : f (clearMarks s) = raise k ((clearMarks s).withLsw (s.lsw.modify l g))) (before : s.line l ≠ .air)
    (after : (g (s.lsw.lines.get l)).state ≠ .air) : event f s = clearMarks (raise k (s.withLsw (s.lsw.modify l g))) :=
  (event_same h rfl (modify_anyIn_air (x := s.lsw) before after) rfl).trans rfl

theorem event_ringEdge_idle {l : Nth} {s : State} (h : s.line l = .idle) : event (ringEdge l) s =
    clearMarks (raise .lineRing (s.withLsw (s.lsw.modify l fun r => { r with state := .ringing, ringQuiet := 0 }))) := by
  refine event_modify_raise ?_ (by rw [h]; decide) nofun
  unfold ringEdge
  rw [show (clearMarks s).line l = s.line l from rfl, h]
  rfl

theorem event_ringEdge_ringing {l : Nth} {s : State} (h : s.line l = .ringing) : event (ringEdge l) s =
    clearMarks (s.withLsw (s.lsw.modify l fun r => { r with ringQuiet := 0 })) := by
  refine event_modify ?_ (by rw [h]; decide) (by rw [show (s.lsw.lines.get l).state = s.line l from rfl, h]; decide)
  unfold ringEdge
  rw [show (clearMarks s).line l = s.line l from rfl, h]
  rfl

theorem event_ringEdge_other {l : Nth} {s : State} (idle : s.line l ≠ .idle) (ringing : s.line l ≠ .ringing) :
    event (ringEdge l) s = clearMarks s := by
  refine event_nothing ?_
  unfold ringEdge
  split
  · exact absurd ‹_› idle
  · exact absurd ‹_› ringing
  · rfl

theorem event_ringTimeout {l : Nth} {s : State} (ringing : s.line l = .ringing)
    (quiet : 1600 ≤ (s.lsw.lines.get l).ringQuiet) : event (ringTimeout l) s =
    clearMarks (raise .lineChange (s.withLsw (s.lsw.modify l Line.toIdle))) :=
  event_modify_raise (if_pos (decide_eq_true ⟨ringing, quiet⟩)) (by rw [ringing]; decide) nofun

theorem event_ringTimeout_early {l : Nth} {s : State} (h : s.line l ≠ .ringing ∨ (s.lsw.lines.get l).ringQuiet < 1600) :
    event (ringTimeout l) s = clearMarks s := by
  refine event_nothing (if_neg ?_)
  rw [ringTimedOut, decide_eq_true_iff]
  rintro ⟨ringing, quiet⟩
  exact h.elim (absurd ringing) (Nat.not_lt.2 quiet)

theorem event_clearingEnd {l : Nth} {s : State} (clearing : s.line l = .clearing)
    (ended : (s.lsw.lines.get l).clearing = 0) : event (clearingEnd l) s =
    clearMarks (raise .lineChange (s.withLsw (s.lsw.modify l Line.toIdle))) :=
  event_modify_raise (if_pos (decide_eq_true ⟨clearing, ended⟩)) (by rw [clearing]; decide) nofun

theorem event_clearingEnd_early {l : Nth} {s : State} (h : s.line l ≠ .clearing ∨ (s.lsw.lines.get l).clearing ≠ 0) :
    event (clearingEnd l) s = clearMarks s := by
  refine event_nothing (if_neg ?_)
  rw [clearingEnded, decide_eq_true_iff]
  rintro ⟨clearing, ended⟩
  exact h.elim (absurd clearing) (absurd ended)

/-- A connected line whose loop loss has reached the limit is dropped (R97). -/
theorem event_loopDrop {l : Nth} {s : State} (offHook : (s.line l).offHook = true)
    (lost : 20 ≤ (s.lsw.lines.get l).loopLoss) : event (loopDrop l) s =
    clearMarks ((dropLine l (clearMarks s)).withDue (gateCheck s (dropLine l (clearMarks s))).due) := by
  rw [← event_dropLine]
  have run : loopDrop l (clearMarks s) = dropLine l (clearMarks s) := if_pos (by
    rw [loopLost, Bool.and_eq_true, decide_eq_true_iff]
    exact ⟨offHook, lost⟩)
  unfold event
  rw [run]

theorem event_loopDrop_early {l : Nth} {s : State} (h : (s.line l).offHook = false ∨ (s.lsw.lines.get l).loopLoss < 20) :
    event (loopDrop l) s = clearMarks s := by
  refine event_nothing (if_neg ?_)
  rw [loopLost, Bool.and_eq_true, decide_eq_true_iff]
  rintro ⟨offHook, lost⟩
  exact h.elim (fun off => absurd (off.symm.trans offHook) nofun) (Nat.not_lt.2 lost)

/-! ### A line's counts at a boundary -/

/-- What a boundary makes of a line's record (R81, R86, R87, R97, R98). -/
theorem tick_eq (r : Line) (ring loop : Level) : r.tick ring loop = { r with
    waiting := if r.state = .hold ∨ r.state = .ready then r.waiting.map fun n => min 17280000 (n + 1) else r.waiting
    onAir := if r.state = .air then r.onAir.map fun p => (min 17280000 (p.1 + 1), p.2) else r.onAir
    ringQuiet := if r.state = .ringing then min 1600 (r.ringQuiet + 1) else r.ringQuiet
    clearing := if r.state = .clearing then r.clearing - 1 else r.clearing
    loopLoss := if r.state.offHook = true ∧ loop = .low then min 20 (r.loopLoss + 1) else 0
    ring := some ring, loop := some loop } := by
  obtain ⟨state, note, waiting, onAir, ringQuiet, clearing, loopLoss, oldRing, oldLoop⟩ := r
  unfold Line.tick
  cases state <;> cases loop <;> simp [LineState.offHook, countUp, Config.day, Config.loopLossLimit, Config.ringTimeout]
  all_goals rfl

theorem four_get_mapIdx {α β : Type} (f : Four α) (g : Nth → α → β) (i : Nth) : (f.mapIdx g).get i = g i (f.get i) := by
  cases i <;> rfl

theorem latch_line (i : PeriodInput) (s : State) (l : Nth) :
    (latch i s).lsw.lines.get l = (s.lsw.lines.get l).tick (i.ring.get l) (i.loop.get l) := four_get_mapIdx ..

theorem nth_mem_all (l : Nth) : l ∈ Nth.all := by cases l <;> decide

/-- The events of a line that a boundary's counts make due (R86, R87, R97, R98). -/
theorem line_event_due (i : PeriodInput) {s : State} (due : s.due = []) (l : Nth) :
    (.ringEdge l ∈ (latch i s).due ↔
      (s.lsw.ringEdges.get l).edge (s.lsw.lines.get l).ring (i.ring.get l) = true) ∧
    (.ringTimeout l ∈ (latch i s).due ↔ ringTimedOut l (latch i s) = true) ∧
    (.loopDrop l ∈ (latch i s).due ↔ loopLost l (latch i s) = true) ∧
    (.clearingEnd l ∈ (latch i s).due ↔ clearingEnded l (latch i s) = true) := by
  have clockParts (d : Due) (n : d ≠ .clockSet ∧ d ≠ .clockSelect ∧ d ≠ .house) (stage : d ∉ stageEvents s.site.window) :
      d ∈ (latch i s).due ↔ d ∈ pinEvents i s (latch i s) := by
    simp only [latch, withDue_due, due, List.nil_append, List.mem_append, stage, or_false]
    refine or_iff_right ?_
    rintro ((h | h) | h)
    · split at h
      · exact n.1 (List.mem_singleton.1 h)
      · cases h
    · split at h
      · exact n.2.1 (List.mem_singleton.1 h)
      · cases h
    · exact n.2.2 (List.mem_singleton.1 h)
  refine ⟨(clockParts _ (by simp) (by simp [stageEvents])).trans ?_, (clockParts _ (by simp) (by simp [stageEvents])).trans ?_,
    (clockParts _ (by simp) (by simp [stageEvents])).trans ?_, (clockParts _ (by simp) (by simp [stageEvents])).trans ?_⟩
  all_goals simp [pinEvents, nth_mem_all]
  all_goals rfl

theorem latch_line_state (i : PeriodInput) (s : State) (l : Nth) : (latch i s).line l = s.line l := by
  unfold State.line
  rw [latch_line, tick_eq]

/-! ### Events and boundaries of the lines (R81, R83, R86, R87, R97, R98) -/

/-- A line that holds no slot and is not PARKED leaves the queue and goes to CLEARING, and nothing else changes (R96). -/
theorem dropLine_of_no_slot {l : Nth} {s : State} (parked : s.line l ≠ .parked) (a : s.lsw.slotA ≠ some l)
    (b : s.lsw.slotB ≠ some l) : dropLine l s = raise .lineChange (s.withLsw { s.lsw with
      queue := s.lsw.queue.filter fun m => !decide (m = l)
      lines := s.lsw.lines.set l (s.lsw.lines.get l).dropped }) := by
  unfold dropLine linesChange LSW.release
  rw [decide_eq_false parked, if_neg a, if_neg b]
  rfl

/-- A lost line that holds no slot leaves the queue and goes to CLEARING, and nothing else changes (R97). -/
theorem event_loopDrop_of_no_slot {l : Nth} {s : State} (offHook : (s.line l).offHook = true)
    (lost : 20 ≤ (s.lsw.lines.get l).loopLoss) (air : s.line l ≠ .air) (parked : s.line l ≠ .parked)
    (a : s.lsw.slotA ≠ some l) (b : s.lsw.slotB ≠ some l) : event (loopDrop l) s =
    clearMarks (raise .lineChange (s.withLsw { s.lsw with
      queue := s.lsw.queue.filter fun m => !decide (m = l)
      lines := s.lsw.lines.set l (s.lsw.lines.get l).dropped })) := by
  rw [event_loopDrop offHook lost, dropLine_due_same (.inl air), dropLine_of_no_slot (s := clearMarks s) parked a b]
  rfl

/-- The edge between two samples of ring detect (R86). -/
theorem ring_edge_iff (d : RingDir) (old : Option Level) (new : Level) : d.edge old new = true ↔
    (d = .rising ∧ old = some .low ∧ new = .high) ∨ (d = .falling ∧ old = some .high ∧ new = .low) := by
  cases d <;> simp [RingDir.edge]

/-! ### Line audio (R83) -/

theorem lineStage_lineSend (s : State) (l : Nth) : (lineStage s).audio.lineSend.get l = sendMono s (s.lsw.lines.get l) :=
  four_get_map _ _ _

/-- What a line's caller hears is formed by the line's state alone. -/
theorem sendMono_eq (s : State) (r : Line) : sendMono s r = match r.state with
    | .idle | .ringing | .clearing => List.replicate 240 0
    | .screening => (List.range 240).map (Config.oneChannel s.audio.prev.inputs.screenerIn)
    | .hold | .ready | .parked => (List.range 240).map (Config.oneChannel s.audio.prev.air.audio)
    | .air => (List.range 240).map (Config.oneChannel s.audio.prev.inputs.consoleReturn) := by
  unfold sendMono sendAudio
  cases r.state <;> rfl

/-- What a line receives, or silence. -/
theorem receiveAudio_eq (s : State) (x : Option Nth) :
    receiveAudio s x = (x.map s.audio.prev.inputs.lineReceive.get).getD (List.replicate 240 0) := by
  cases x <;> rfl

/-- The screener hears the one line in SCREENING. -/
theorem screenerOut_of_only {s : State} {l : Nth} (h : s.line l = .screening) (only : ∀ m, s.line m = .screening → m = l) :
    (lineStage s).audio.screenerOut = s.audio.prev.inputs.lineReceive.get l := by
  obtain ⟨m, found⟩ : ∃ m, (Nth.all.find? fun l => decide (s.line l = .screening)) = some m := by
    rw [← Option.isSome_iff_exists, List.find?_isSome]
    exact ⟨l, nth_mem_all l, decide_eq_true h⟩
  obtain rfl := only m (of_decide_eq_true (List.find?_some found :))
  show receiveAudio s _ = _
  rw [found]
  rfl

/-- With no line in SCREENING the screener hears silence. -/
theorem screenerOut_of_none {s : State} (none : ∀ l, s.line l ≠ .screening) :
    (lineStage s).audio.screenerOut = List.replicate 240 0 := by
  show receiveAudio s _ = _
  rw [List.find?_eq_none.2 fun l _ => by simpa using none l]
  rfl

/-- Settles O41: the rows of a line's events, its counts at a boundary, and the line audio of the states. -/
theorem linesRingDropAndClear : Obligations.LinesRingDropAndClear := by
  refine ⟨fun l s clock => ?_, fun i first later s due => ⟨fun h all => ?_, fun h others clock => ?_⟩⟩
  · intro r put
    have run {d : Due} {f : State → State} {t : State} (h : event f (s.withDue (s.due.erase d)) = t) :
        Host.Outcome.next (σ := State) (φ := Fault) (ρ := Refusal) (directRow d (event f) s) = .next t :=
      congrArg _ ((directRow_event clock).trans h)
    refine ⟨fun h => run (event_ringEdge_idle h), fun h => run (event_ringEdge_ringing h),
      fun idle ringing => run (event_ringEdge_other idle ringing), fun h quiet => run (event_ringTimeout h quiet),
      fun h => run (event_ringTimeout_early h), fun h ended => run (event_clearingEnd h ended),
      fun h => run (event_clearingEnd_early h), fun state lost a b => run ?_, fun offHook lost => ⟨_, run (event_loopDrop offHook lost), ?_⟩,
      fun h => run (event_loopDrop_early ?_)⟩
    · have parked : s.line l ≠ .parked := by rcases state with h | h | h <;> exact fun p => absurd (h.symm.trans p) nofun
      have air : s.line l ≠ .air := by rcases state with h | h | h <;> exact fun p => absurd (h.symm.trans p) nofun
      have offHook : (s.line l).offHook = true := by rcases state with h | h | h <;> exact (congrArg LineState.offHook h :)
      exact event_loopDrop_of_no_slot (s := s.withDue _) offHook lost air parked a b
    · have frame := dropLine_frame l (clearMarks (s.withDue (s.due.erase (.loopDrop l))))
      refine ⟨fun q high => dropLine_flag high, dropLine_lsw l _, fun h => dropLine_air_parked (s := clearMarks _) h,
        fun h => dropLine_air (s := clearMarks _) h, fun air last => dropLine_due_last air last,
        fun same => dropLine_due_same same, ?_⟩
      exact (congrArg (fun t : State => clearMarks { t with due := s.due }) frame :)
    · rcases h with h | h | h | h
      · exact .inl (congrArg LineState.offHook h :)
      · exact .inl (congrArg LineState.offHook h :)
      · exact .inl (congrArg LineState.offHook h :)
      · exact .inr h
  · subst h
    have frame := (firstSampling_frame s (latch i s)).1
    have lsw : (firstSampling s (latch i s)).lsw = (latch i s).lsw := (congrArg State.lsw frame :)
    have listed (d : Due) (n : d ≠ .clockSet) : d ∈ (firstSampling s (latch i s)).due ↔ d ∈ (latch i s).due := by
      rcases (firstSampling_frame s (latch i s)).2 with same | erased
      · rw [same]
      · rw [erased, List.mem_erase_of_ne n]
    refine ⟨_, congrArg Host.Outcome.next (boundary_all_later due all), by rw [lsw]; rfl, fun l => ?_⟩
    obtain ⟨edge, timeout, drop, clearing⟩ := line_event_due i due l
    have record := (latch_line i s l).trans (tick_eq ..)
    have state := latch_line_state i s l
    refine ⟨by rw [lsw]; exact record, ?_, ?_, ?_, ?_⟩
    · rw [listed (.ringEdge l) nofun, edge, ring_edge_iff]
    · rw [listed (.ringTimeout l) nofun, timeout, ringTimedOut, decide_eq_true_iff, state, record]
      refine and_congr_right fun ringing => ?_
      rw [show (s.lsw.lines.get l).state = .ringing from ringing]
      simp [Config.ringTimeout]
    · rw [listed (.loopDrop l) nofun, drop, loopLost, Bool.and_eq_true, decide_eq_true_iff, state, record]
      refine and_congr_right fun offHook => ?_
      rw [show (s.lsw.lines.get l).state.offHook = true from offHook]
      simp only [true_and, Config.loopLossLimit]
      split
      · simp [*]
      · simp [*]
    · rw [listed (.clearingEnd l) nofun, clearing, clearingEnded, decide_eq_true_iff, state, record]
      refine and_congr_right fun clearing => ?_
      rw [show (s.lsw.lines.get l).state = .clearing from clearing]
      simp only [if_true]
      omega
  · subst h
    have frame := atBoundary_frame i s
    refine ⟨_, congrArg Host.Outcome.next (boundary_takes (d := .lineAudio) due others rfl (by simp [stageEvents]) ?_), ?_⟩
    · exact fun e mem _ => mem
    generalize hu : (atBoundary i s).withDue ((atBoundary i s).due.erase .lineAudio) = u
    have lsw : u.lsw = (latch i s).lsw := by rw [← hu]; exact (congrArg State.lsw frame :)
    have prev : u.audio.prev = s.audio.cur := by rw [← hu]; exact (congrArg (·.audio.prev) frame :)
    have line (l : Nth) : u.line l = s.line l := by
      rw [← latch_line_state i s l]
      exact congrArg (fun x : LSW => (x.lines.get l).state) lsw
    have send (l : Nth) := (lineStage_lineSend u l).trans (sendMono_eq u _)
    rw [prev] at send
    intro inputs heard receive
    refine ⟨fun l => ⟨fun h => ?_, fun h => ⟨?_, fun only => ?_⟩, fun h => ?_, fun h => ?_⟩,
      (receiveAudio_eq u u.lsw.slotA).trans (by rw [lsw, prev]; rfl), (receiveAudio_eq u u.lsw.slotB).trans (by rw [lsw, prev]; rfl),
      fun none => screenerOut_of_none fun l => by rw [line]; exact none l⟩
    · refine (send l).trans ?_
      rw [show (u.lsw.lines.get l).state = s.line l from line l]
      rcases h with h | h | h <;> rw [h]
    · refine (send l).trans ?_
      rw [show (u.lsw.lines.get l).state = s.line l from line l, h]
    · refine (screenerOut_of_only ((line l).trans h) fun m hm => only m ((line m).symm.trans hm)).trans ?_
      rw [prev]
    · refine (send l).trans ?_
      rw [show (u.lsw.lines.get l).state = s.line l from line l]
      rcases h with h | h | h <;> rw [h]
    · refine (send l).trans ?_
      rw [show (u.lsw.lines.get l).state = s.line l from line l, h]

/-! ### The lines that leave the air together (R96, R99, R100) -/

/-- What some drops make of the lines: each named one is dropped and leaves its slot, and no other one changes. -/
structure Dropped (ls : List Nth) (s t : State) : Prop where
  frame : { t with lsw := s.lsw, pi := s.pi } = s
  named : ∀ l, l ∈ ls → t.lsw.lines.get l = (s.lsw.lines.get l).dropped
  others : ∀ l, l ∉ ls → t.lsw.lines.get l = s.lsw.lines.get l
  slotA : ∀ l, t.lsw.slotA = some l → s.lsw.slotA = some l ∧ l ∉ ls
  slotB : ∀ l, t.lsw.slotB = some l → s.lsw.slotB = some l ∧ l ∉ ls
  live : t.lsw.liveCalls = s.lsw.liveCalls
  gains : GainsNotices s t
  flags : ls ≠ [] → ∀ q, (s.port q).init = .high → (t.port q).flags.getLsbD 5 = true

theorem gains_dropLine (l : Nth) (s : State) : GainsNotices s (dropLine l s) := by
  unfold dropLine linesChange
  refine GainsNotices.trans ?_ (gains_when (gains_of_pi rfl))
  refine GainsNotices.trans ?_ (gains_raise .lineChange _)
  exact gains_of_pi rfl

/-- The drop of one line that is not PARKED. -/
theorem dropped_one {l : Nth} {s : State} (parked : s.line l ≠ .parked) : Dropped [l] s (dropLine l s) := by
  refine ⟨?_, fun m mem => ?_, fun m out => dropLine_get_other s (by simpa using out), fun m held => ?_, fun m held => ?_, by rw [dropLine_lsw],
    gains_dropLine l s, fun _ q high => dropLine_flag high⟩
  · have frame := dropLine_frame l s
    rw [← dropLine_air parked] at frame
    exact frame
  · obtain rfl := List.mem_singleton.1 mem
    exact dropLine_get m s
  all_goals
    rw [dropLine_lsw] at held
    dsimp only at held
    split at held
    · cases held
    · exact ⟨held, fun mem => by obtain rfl := List.mem_singleton.1 mem; contradiction⟩

/-- Drops after a drop, of lines not named before. -/
theorem Dropped.cons {l : Nth} {ls : List Nth} {s t u : State} (one : Dropped [l] s t) (rest : Dropped ls t u) (fresh : l ∉ ls) :
    Dropped (l :: ls) s u := by
  have other {m : Nth} (h : m ∈ ls) : m ∉ [l] := fun same => fresh (List.mem_singleton.1 same ▸ h)
  refine ⟨?_, fun m mem => ?_, fun m out => ?_, fun m held => ?_, fun m held => ?_, rest.live.trans one.live,
    one.gains.trans rest.gains, fun _ q high => ?_⟩
  · exact (congrArg (fun v : State => { v with lsw := s.lsw, pi := s.pi }) rest.frame :).trans one.frame
  · rcases List.mem_cons.1 mem with rfl | mem
    · rw [rest.others m fresh, one.named m List.mem_cons_self]
    · rw [rest.named m mem, one.others m (other mem)]
  · rw [List.mem_cons, not_or] at out
    rw [rest.others m out.2, one.others m (by simpa using out.1)]
  · obtain ⟨held, out⟩ := rest.slotA m held
    obtain ⟨held, first⟩ := one.slotA m held
    exact ⟨held, by simp_all⟩
  · obtain ⟨held, out⟩ := rest.slotB m held
    obtain ⟨held, first⟩ := one.slotB m held
    exact ⟨held, by simp_all⟩
  · exact (rest.gains q (one.gains q high).1).2 5 (one.flags nofun q high)

/-- Drops of lines that are not PARKED, each named once. -/
theorem dropped_foldl : ∀ (ls : List Nth) (s : State), ls.Nodup → (∀ l ∈ ls, s.line l ≠ .parked) →
    Dropped ls s (ls.foldl (fun s l => dropLine l s) s) := by
  intro ls
  induction ls with
  | nil => exact fun s _ _ => ⟨rfl, nofun, fun _ _ => rfl, fun _ h => ⟨h, nofun⟩, fun _ h => ⟨h, nofun⟩, rfl, gains_of_pi rfl, nofun⟩
  | cons l ls ih =>
    intro s nodup parked
    obtain ⟨fresh, nodup⟩ := List.nodup_cons.1 nodup
    have one := dropped_one (parked l List.mem_cons_self)
    refine one.cons (ih (dropLine l s) nodup fun m mem => ?_) fresh
    rw [State.line, one.others m fun same => fresh (List.mem_singleton.1 same ▸ mem)]
    exact parked m (List.mem_cons_of_mem _ mem)

theorem mem_inAir {x : LSW} {l : Nth} : l ∈ x.inAir ↔ (x.lines.get l).state = .air := by
  simp [LSW.inAir, nth_mem_all]

theorem dropped_dropLines (s : State) : Dropped s.lsw.inAir s (dropLines s) :=
  dropped_foldl _ s (List.Nodup.filter _ (by decide)) fun l mem parked => absurd ((mem_inAir.1 mem).symm.trans parked) nofun

/-- What the drop of every line in AIR makes of a state whose due list is given (R96, R99, R103). -/
def AirDropped (s : State) (due : List Due) (t : State) : Prop :=
  (s.lsw.anyIn .air = true → (∀ q, (s.port q).init = .high → (t.port q).flags.getLsbD 5 = true) ∧
    t.due = due ++ [.gateReport false s.lsw.liveCalls]) ∧
  (s.lsw.anyIn .air = false → t.due = due) ∧
  (∀ l, s.line l = .air → t.line l = .clearing ∧ t.lsw.slotA ≠ some l ∧ t.lsw.slotB ≠ some l ∧
    t.lsw.lines.get l = (s.lsw.lines.get l).dropped) ∧
  (∀ l, s.line l ≠ .air → t.lsw.lines.get l = s.lsw.lines.get l) ∧
  { t with lsw := s.lsw, pi := s.pi, due := s.due } = clearMarks s

/-- An event that drops every line in AIR. -/
theorem event_dropLines {f : State → State} {s : State} (h : f (clearMarks s) = dropLines (clearMarks s)) :
    AirDropped s s.due (event f s) := by
  have drops : Dropped s.lsw.inAir (clearMarks s) (dropLines (clearMarks s)) := dropped_dropLines (clearMarks s)
  have frame := drops.frame
  rw [event_gate h (congrArg State.cue frame :)]
  have none : (dropLines (clearMarks s)).lsw.anyIn .air = false := by
    rw [anyIn_eq_false_iff]
    intro l air
    by_cases named : l ∈ s.lsw.inAir
    · rw [drops.named l named] at air
      cases air
    · rw [drops.others l named] at air
      exact named (mem_inAir.2 air)
  have due := gateCheck_due (b := s) (a := dropLines (clearMarks s))
  rw [none, drops.live, show (dropLines (clearMarks s)).due = s.due from (congrArg State.due frame :)] at due
  refine ⟨fun air => ⟨fun q high => drops.flags ?_ q high, ?_⟩, fun noAir => ?_, fun l air => ?_, fun l off => ?_, ?_⟩
  · obtain ⟨l, on⟩ := anyIn_iff.1 air
    exact List.ne_nil_of_mem (mem_inAir.2 on)
  · refine due.trans (if_neg ?_)
    rw [air]
    simp
  · refine due.trans (if_pos ⟨noAir.symm, rfl⟩)
  · have record := drops.named l (mem_inAir.2 air)
    exact ⟨congrArg Line.state record, fun held => (drops.slotA l held).2 (mem_inAir.2 air),
      fun held => (drops.slotB l held).2 (mem_inAir.2 air), record⟩
  · exact drops.others l fun mem => off (mem_inAir.1 mem)
  · exact (congrArg (fun t : State => clearMarks { t with due := s.due }) frame :)

theorem AirDropped.of_withDue {s t : State} {due : List Due} (h : AirDropped (s.withDue due) due t) : AirDropped s due t := by
  obtain ⟨air, noAir, dropped, others, frame⟩ := h
  exact ⟨air, noAir, dropped, others, (congrArg (fun t : State => { t with due := s.due }) frame :)⟩

/-! ### DUMP REPORT (R100) -/

/-- A dump report with drop on dump drops every line in AIR. -/
theorem dumpReport_drops {s : State} (h : s.lsw.dropOnDump = true) : dumpReport false s = dropLines s := by
  unfold dumpReport
  rw [h]
  rfl

theorem event_dumpReport_frozen (s : State) : event (dumpReport true) s = clearMarks s := event_nothing rfl

/-- A dump report without drop on dump counts the callers in AIR. -/
theorem event_dumpReport_counts {s : State} (h : s.lsw.dropOnDump = false) : event (dumpReport false) s =
    clearMarks (s.withLsw { s.lsw with lines := s.lsw.lines.map fun r =>
      if r.state = .air then { r with onAir := r.onAir.map fun p => (p.1, min 255 (p.2 + 1)) } else r }) := by
  have run : dumpReport false (clearMarks s) = (clearMarks s).withLsw { s.lsw with lines := s.lsw.lines.map fun r =>
      if r.state = .air then { r with onAir := r.onAir.map fun p => (p.1, min 255 (p.2 + 1)) } else r } := by
    unfold dumpReport
    rw [show (clearMarks s).lsw.dropOnDump = false from h]
    rfl
  refine (event_same run rfl (anyIn_congr fun l => ?_) rfl).trans rfl
  simp only [withLsw_lsw, four_get_map]
  split <;> rfl

/-- The oldest dump report outstanding is the one taken. -/
theorem exec_dumpReport_some {s : State} {frozen : Bool} (clock : .clockSet ∉ s.due)
    (found : (s.due.find? fun d => decide (d.kind = .dumpReport)) = some (.dumpReport frozen)) :
    exec .dumpReport s = .next (event (dumpReport frozen) (s.withDue (s.due.erase (.dumpReport frozen)))) := by
  have has : s.hasDue .dumpReport = true := List.any_eq_true.2 ⟨_, List.mem_of_find?_eq_some found, rfl⟩
  show Host.Outcome.next (if (clockFirst s).hasDue .dumpReport then _ else _) = _
  rw [clockFirst_of_not clock, has, if_pos rfl]
  unfold takeOne
  rw [found]
  rfl

/-- With none outstanding, the row reports a dump that finds DLY as it stands. -/
theorem exec_dumpReport_none {s : State} (clock : .clockSet ∉ s.due)
    (found : (s.due.find? fun d => decide (d.kind = .dumpReport)) = none) :
    exec .dumpReport s = .next (event (dumpReport (decide (s.dly.state = .frozen))) s) := by
  have has : s.hasDue .dumpReport = false := List.any_eq_false.2 fun d mem => by simpa using List.find?_eq_none.1 found d mem
  show Host.Outcome.next (if (clockFirst s).hasDue .dumpReport then _ else _) = _
  rw [clockFirst_of_not clock, has]
  rfl

/-- Settles O42: the drops of the lines in AIR, one by one, and the event around them. -/
theorem keysAndDumpsDropTheCallersOnAir : Obligations.KeysAndDumpsDropTheCallersOnAir := by
  refine fun s clock => ⟨fun none => ?_, ⟨_, congrArg Host.Outcome.next (directRow_event clock), ?_⟩, fun found => ?_,
    fun found frozen => ?_, fun due how => ⟨fun drops => ?_, fun counts => ?_⟩⟩
  · refine congrArg Host.Outcome.next ((directRow_event clock).trans (event_nothing ?_))
    have empty : s.lsw.inAir = [] := List.eq_nil_iff_forall_not_mem.2 fun l mem => anyIn_eq_false_iff.1 none l (mem_inAir.1 mem)
    show s.lsw.inAir.foldl _ _ = _
    rw [empty]
    rfl
  · exact (event_dropLines (s := s.withDue _) rfl).of_withDue
  · rw [exec_dumpReport_some clock found, event_dumpReport_frozen]
  · rw [exec_dumpReport_none clock found, decide_eq_true frozen, event_dumpReport_frozen]
  all_goals
    have run : exec .dumpReport s = .next (event (dumpReport false) (s.withDue due)) := by
      rcases how with ⟨found, rfl⟩ | ⟨found, run, rfl⟩
      · exact exec_dumpReport_some clock found
      · exact (exec_dumpReport_none clock found).trans (by rw [decide_eq_false run]; rfl)
  · exact ⟨_, run, (event_dropLines (s := s.withDue due) (dumpReport_drops drops)).of_withDue⟩
  · exact run.trans (congrArg Host.Outcome.next (event_dumpReport_counts (s := s.withDue due) counts))

end Sys2Proof.Machine
end

section
/-! What the log shows after an event, and OUT's event at a boundary: the air block, what aired, and the silence monitor (R152,
R156 to R161, R189). -/

namespace Sys2Proof.Machine

open Sys2Proof

/-! ### What the log shows -/

/-- Among the newest entries of the log there is one of a kind with a subject and a detail. -/
def LOG.Shows (l : LOG) (n : Nat) (k : LogKind) (x : Subject) (d : Detail) : Prop :=
  ∃ e ∈ l.entries.take n, e.kind = k ∧ e.subject = x ∧ e.detail = d

/-- A log that has had at most so many appends since another. -/
inductive LOG.Follows : Nat → LOG → LOG → Prop
  | refl (n : Nat) (l : LOG) : LOG.Follows n l l
  | append {n : Nat} {l m : LOG} (h : LOG.Follows n l m) (time : Option Nat) (k : LogKind) (x : Subject) (d : Detail) :
    LOG.Follows (n + 1) l (m.append time k x d)

theorem LOG.Follows.mono {a b : Nat} {l m : LOG} (h : LOG.Follows a l m) (le : a ≤ b) : LOG.Follows b l m := by
  induction h generalizing b with
  | refl => exact .refl _ _
  | append _ time k x d ih =>
    obtain ⟨c, rfl⟩ : ∃ c, b = c + 1 := ⟨b - 1, by omega⟩
    exact .append (ih (by omega)) time k x d

theorem LOG.Follows.trans {a b : Nat} {l m n : LOG} (h : LOG.Follows a l m) (k : LOG.Follows b m n) : LOG.Follows (a + b) l n := by
  induction k with
  | refl => exact h.mono (by omega)
  | append _ time k x d ih => exact .append (ih h) time k x d

theorem LOG.follows_of_eq {l m : LOG} (h : m = l) (n : Nat) : LOG.Follows n l m := h ▸ .refl n m

theorem follows_logEntry (k : LogKind) (x : Subject) (d : Detail) (s : State) : LOG.Follows 1 s.log (logEntry k x d s).log :=
  .append (.refl 0 _) ..

/-- What is appended is shown, whether or not the newest entry takes it as a repeat. -/
theorem LOG.shows_append (l : LOG) (time : Option Nat) (k : LogKind) (x : Subject) (d : Detail) :
    (l.append time k x d).Shows 1 k x d := by
  unfold LOG.append LOG.Shows
  dsimp only
  split
  · split
    · rename_i h
      exact ⟨_, List.mem_cons_self, h.2.1, h.2.2.1, h.2.2.2.1⟩
    · exact ⟨_, List.mem_cons_self, rfl, rfl, rfl⟩
  · exact ⟨_, List.mem_cons_self, rfl, rfl, rfl⟩

/-- An append pushes a shown entry down by one place at most. -/
theorem LOG.Shows.append {l : LOG} {n : Nat} {k : LogKind} {x : Subject} {d : Detail} (h : l.Shows n k x d) (small : n < 512)
    (time : Option Nat) (k' : LogKind) (x' : Subject) (d' : Detail) : (l.append time k' x' d').Shows (n + 1) k x d := by
  obtain ⟨e, mem, is⟩ := h
  have pushed (f : LogEntry) : e ∈ (f :: l.entries.take (Config.logPlaces - 1)).take (n + 1) := by
    rw [List.take_succ_cons, List.take_take, Nat.min_eq_left (show n ≤ Config.logPlaces - 1 by unfold Config.logPlaces; omega)]
    exact List.mem_cons_of_mem _ mem
  unfold LOG.append LOG.Shows
  dsimp only
  split
  · rename_i head rest held
    split
    · rw [held] at mem
      cases n with
      | zero => cases mem
      | succ n =>
        rw [List.take_succ_cons] at mem ⊢
        rcases List.mem_cons.1 mem with rfl | mem
        · exact ⟨_, List.mem_cons_self, is⟩
        · exact ⟨e, List.mem_cons_of_mem _ (List.take_subset_take_left _ (by omega) mem), is⟩
    · exact ⟨e, pushed _, is⟩
  · exact ⟨e, pushed _, is⟩

theorem LOG.Shows.mono {l : LOG} {m n : Nat} {k : LogKind} {x : Subject} {d : Detail} (h : l.Shows m k x d) (le : m ≤ n) :
    l.Shows n k x d := by
  obtain ⟨e, mem, is⟩ := h
  exact ⟨e, List.take_subset_take_left _ le mem, is⟩

/-- What a log shows is still shown after some appends. -/
theorem LOG.Shows.follows {l m : LOG} {n a : Nat} {k : LogKind} {x : Subject} {d : Detail} (h : l.Shows n k x d)
    (later : LOG.Follows a l m) (small : n + a ≤ 512) : m.Shows (n + a) k x d := by
  induction later with
  | refl => exact h.mono (by omega)
  | append _ _ _ _ _ ih => exact (ih h (by omega)).append (by omega) ..

/-- What the log shows is among its entries. -/
theorem LOG.Shows.entry {l : LOG} {n : Nat} {k : LogKind} {x : Subject} {d : Detail} (h : l.Shows n k x d) :
    ∃ e ∈ l.entries, e.kind = k ∧ e.subject = x ∧ e.detail = d := by
  obtain ⟨e, mem, is⟩ := h
  exact ⟨e, List.mem_of_mem_take mem, is⟩

theorem follows_safeChange (r : SafeReason) (held : Bool) (s : State) : LOG.Follows 1 s.log (safeChange r held s).log := by
  rcases safeChange_log r held s with same | ⟨k, -, log⟩
  · exact LOG.follows_of_eq same 1
  · rw [log]
    exact .append (.refl 0 _) ..

/-! ### What aired (R159, R160) -/

/-- The block's entry is not the remembered one. -/
abbrev Differs (b : Block) (o : OUT) : Prop := b.tag.entry.map (·.1) ≠ o.entry.map (·.1)

/-- The remembered entry's end is logged. -/
def endedEntry (s : State) : State :=
  match s.out.entry with
  | some (n, _) => logEntry .itemEnded (.cue n) (.ended s.out.entryRun s.out.carriedRun) s
  | none => s

/-- The block's entry is logged as aired. -/
def airedEntry (b : Block) (s : State) : State :=
  match b.tag.entry with
  | some (n, ref) => logEntry .itemAired (.cue n) (.aired ref s.out.carrying) s
  | none => s

/-- OUT's memory of what aired, with the runs so far. -/
def OUT.remember (o : OUT) (b : Block) (entryRun carriedRun : Nat) : OUT := { o with
  origin := some b.tag.origin
  entry := b.tag.entry
  entryRun := if b.tag.entry.isSome then countUp entryRun else entryRun
  carriedRun := if b.tag.entry.isSome && o.carrying then countUp carriedRun else carriedRun }

theorem logAired_of_same {b : Block} {s : State} (h : ¬ Differs b s.out) :
    logAired b s = s.withOut (s.out.remember b s.out.entryRun s.out.carriedRun) := by
  unfold logAired
  rw [decide_eq_true (not_not.1 h)]
  rfl

theorem endedEntry_out (s : State) : (endedEntry s).out = s.out := by
  unfold endedEntry
  split <;> rfl

theorem airedEntry_out (b : Block) (s : State) : (airedEntry b s).out = s.out := by
  unfold airedEntry
  split <;> rfl

theorem logAired_of_differs {b : Block} {s : State} (h : Differs b s.out) :
    logAired b s = (airedEntry b (endedEntry s)).withOut (s.out.remember b 0 0) := by
  unfold logAired airedEntry endedEntry OUT.remember
  rw [decide_eq_false h]
  cases s.out.entry <;> cases b.tag.entry <;> rfl

theorem outAlone_endedEntry (s : State) : OutAlone s (endedEntry s) := by
  unfold endedEntry
  split <;> rfl

theorem outAlone_airedEntry (b : Block) (s : State) : OutAlone s (airedEntry b s) := by
  unfold airedEntry
  split <;> rfl

theorem OutAlone.withOut {s t : State} (h : OutAlone s t) (o : OUT) : OutAlone s (t.withOut o) := h

theorem outAlone_logAired (b : Block) (s : State) : OutAlone s (logAired b s) := by
  by_cases h : Differs b s.out
  · rw [logAired_of_differs h]
    exact ((outAlone_endedEntry s).trans (outAlone_airedEntry ..)).withOut _
  · rw [logAired_of_same h]
    rfl

theorem logAired_out (b : Block) (s : State) : (logAired b s).out =
    s.out.remember b (if Differs b s.out then 0 else s.out.entryRun) (if Differs b s.out then 0 else s.out.carriedRun) := by
  by_cases h : Differs b s.out
  · rw [logAired_of_differs h, if_pos h, if_pos h]
    rfl
  · rw [logAired_of_same h, if_neg h, if_neg h]
    rfl

/-! ### The lines on air (R160) -/

theorem logLine_out (b : Block) (s : State) (l : Nth) : (logLine b s l).out = s.out := by
  unfold logLine
  split <;> rfl

theorem outAlone_logLine (b : Block) (s : State) (l : Nth) : OutAlone s (logLine b s l) := by
  unfold logLine
  split <;> rfl

theorem follows_logLine (b : Block) (s : State) (l : Nth) : LOG.Follows 1 s.log (logLine b s l).log := by
  unfold logLine
  split
  · exact follows_logEntry ..
  · exact follows_logEntry ..
  · exact .refl ..

theorem logLine_of_same {b : Block} {s : State} {l : Nth} (h : b.tag.lines.get l = s.out.lines.get l) : logLine b s l = s := by
  unfold logLine
  rw [h]
  cases s.out.lines.get l <;> rfl

/-- What is kept by every line's judgement is kept by all four. -/
theorem foldl_logLine {b : Block} (ls : List Nth) (s : State) : OutAlone s (ls.foldl (logLine b) s) ∧
    (ls.foldl (logLine b) s).out = s.out ∧ LOG.Follows ls.length s.log (ls.foldl (logLine b) s).log := by
  induction ls generalizing s with
  | nil => exact ⟨.refl s, rfl, .refl ..⟩
  | cons l ls ih =>
    obtain ⟨alone, out, log⟩ := ih (logLine b s l)
    exact ⟨(outAlone_logLine b s l).trans alone, out.trans (logLine_out b s l),
      ((follows_logLine b s l).trans log).mono (Nat.le_of_eq (Nat.add_comm ..))⟩

/-- Lines that did not change log nothing. -/
theorem foldl_logLine_same {b : Block} {s : State} (ls : List Nth) (h : ∀ l ∈ ls, b.tag.lines.get l = s.out.lines.get l) :
    ls.foldl (logLine b) s = s := by
  induction ls with
  | nil => rfl
  | cons l ls ih =>
    rw [List.foldl_cons, logLine_of_same (h l List.mem_cons_self)]
    exact ih fun m mem => h m (List.mem_cons_of_mem _ mem)

/-- Of lines of which one changed, that one is logged. -/
theorem foldl_logLine_one {b : Block} {s : State} {l : Nth} (ls : List Nth) (nodup : ls.Nodup) (mem : l ∈ ls)
    (h : ∀ m, m ≠ l → b.tag.lines.get m = s.out.lines.get m) : ls.foldl (logLine b) s = logLine b s l := by
  induction ls with
  | nil => cases mem
  | cons m ls ih =>
    obtain ⟨fresh, nodup⟩ := List.nodup_cons.1 nodup
    rw [List.foldl_cons]
    by_cases same : m = l
    · subst same
      refine foldl_logLine_same ls fun n hn => ?_
      rw [logLine_out]
      exact h n fun same => fresh (same ▸ hn)
    · rw [logLine_of_same (h m same)]
      exact ih nodup ((List.mem_cons.1 mem).resolve_left (Ne.symm same))

theorem logLines_out (b : Block) (s : State) : (logLines b s).out = { s.out with
    lines := b.tag.lines
    lineCounts := s.out.lineCounts.mapIdx fun l n => if b.tag.lines.get l then countUp n else 0 } := by
  show (_ : OUT) = _
  unfold logLines
  rw [withOut_out, (foldl_logLine _ s).2.1]

theorem outAlone_logLines (b : Block) (s : State) : OutAlone s (logLines b s) := (foldl_logLine _ s).1.withOut _

theorem follows_logLines (b : Block) (s : State) : LOG.Follows 4 s.log (logLines b s).log := 
  (foldl_logLine Nth.all s).2.2

/-- With the lines unchanged nothing is logged of them. -/
theorem logLines_log_of_same {b : Block} {s : State} (h : b.tag.lines = s.out.lines) : (logLines b s).log = s.log := by
  show (Nth.all.foldl (logLine b) s).log = _
  rw [foldl_logLine_same _ fun l _ => by rw [h]]

/-- With one line changed, it is logged. -/
theorem logLines_log_of_set {b : Block} {s : State} {l : Nth} {v : Bool} (h : b.tag.lines = s.out.lines.set l v) :
    (logLines b s).log = (logLine b s l).log := by
  show (Nth.all.foldl (logLine b) s).log = _
  rw [foldl_logLine_one Nth.all (by decide) (nth_mem_all l) fun m other => by rw [h]; exact four_get_set_other _ _ _ _ other]

theorem logLine_log_on {b : Block} {s : State} {l : Nth} (was : s.out.lines.get l = false) (is : b.tag.lines.get l = true) :
    (logLine b s l).log = s.log.append (stamp s) .lineOnAir (.line l) (.carrying s.out.carrying) := by
  unfold logLine
  rw [was, is]
  rfl

theorem logLine_log_off {b : Block} {s : State} {l : Nth} (was : s.out.lines.get l = true) (is : b.tag.lines.get l = false) :
    (logLine b s l).log = s.log.append (stamp s) .lineOffAir (.line l) (.number (s.out.lineCounts.get l)) := by
  unfold logLine
  rw [was, is]
  rfl

/-! ### The silence monitor (R156, R157) -/

/-- The monitor with dead air starting: its entry, then SILENCE judged. -/
theorem silenceMonitor_of_starts {s : State} (h : silenceStarts s = true) : silenceMonitor s =
    judgeSilence (logEntry .silence .none (.silence true)
      (s.withOut { s.out with quietRun := s.out.silenceTime, deadAir := true, soundRun := 0 })) := by
  unfold silenceMonitor
  split
  · rename_i none
    rw [silenceStarts, none] at h
    cases h
  · exact if_pos h

/-- The monitor with dead air ending. -/
theorem silenceMonitor_of_ends {s : State} (h : silenceEnds s = true) : silenceMonitor s =
    judgeSilence (logEntry .silence .none (.silence false)
      (s.withOut { s.out with soundRun := s.out.restoreTime, deadAir := false, quietRun := 0 })) := by
  unfold silenceMonitor
  split
  · rename_i none
    rw [silenceEnds, none] at h
    cases h
  · rename_i b delayed
    refine (if_neg ?_).trans (if_pos h)
    rw [silenceEnds, delayed] at h
    rw [silenceStarts, delayed]
    simp_all

/-- The monitor while dead air neither starts nor ends counts its runs. -/
theorem silenceMonitor_of_neither {s : State} {b : Block} (delayed : s.audio.prev.delayed = some b)
    (starts : silenceStarts s = false) (ends : silenceEnds s = false) : silenceMonitor s = s.withOut { s.out with
      quietRun := if s.out.deadAir = true then s.out.quietRun else if s.out.threshold < b.tag.peak then s.out.quietRun + 1 else 0
      soundRun := if s.out.deadAir = false then s.out.soundRun else if s.out.threshold < b.tag.peak then 0 else s.out.soundRun + 1 } := by
  unfold silenceMonitor
  rw [delayed]
  simp only [starts, ends]
  unfold OUT.quiet
  cases dead : s.out.deadAir <;> by_cases quiet : s.out.threshold < b.tag.peak <;> simp [quiet]

theorem outAlone_silenceMonitor (s : State) : OutAlone s (silenceMonitor s) := by
  by_cases starts : silenceStarts s = true
  · rw [silenceMonitor_of_starts starts]
    exact OutAlone.trans (t := logEntry .silence .none (.silence true) (s.withOut { s.out with quietRun := s.out.silenceTime, deadAir := true, soundRun := 0 })) rfl
      (outAlone_judgeSilence _)
  by_cases ends : silenceEnds s = true
  · rw [silenceMonitor_of_ends ends]
    exact OutAlone.trans (t := logEntry .silence .none (.silence false) (s.withOut { s.out with soundRun := s.out.restoreTime, deadAir := false, quietRun := 0 })) rfl
      (outAlone_judgeSilence _)
  cases delayed : s.audio.prev.delayed with
  | none =>
    unfold silenceMonitor
    rw [delayed]
    rfl
  | some b =>
    rw [silenceMonitor_of_neither delayed (by simpa using starts) (by simpa using ends)]
    rfl

/-! ### OUT's event (R152) -/

/-- The state in which OUT has formed the air block. -/
def aired (b : Block) (s : State) : State := s.withAudio { s.audio with cur := { s.audio.cur with air := b } }

theorem outputStage_eq (s : State) :
    outputStage s = silenceMonitor (logLines (airBlock s) (logAired (airBlock s) (aired (airBlock s) s))) := rfl

theorem outAlone_outputStage (s : State) : OutAlone (aired (airBlock s) s) (outputStage s) :=
  ((outAlone_logAired _ _).trans (outAlone_logLines ..)).trans (outAlone_silenceMonitor _)

theorem airBlock_of_alert {s : State} (h : s.out.alertFlag = true) : (airBlock s).audio = s.audio.prev.inputs.alert ∧
    (airBlock s).tag.origin = .alert := by
  unfold airBlock
  simp [h]

theorem airBlock_of_safe {s : State} (alert : s.out.alertFlag = false) (h : s.out.reasons ≠ {}) :
    (airBlock s).audio = s.audio.prev.inputs.fill := by
  have safe : s.out.reasons.isEmpty = false := by
    rw [← Bool.not_eq_true]
    exact fun empty => h (SafeSet.isEmpty_iff.1 empty)
  unfold airBlock
  simp [alert, safe, fillBlock]

theorem airBlock_of_delayed {s : State} {b : Block} (alert : s.out.alertFlag = false) (h : s.out.reasons = {})
    (delayed : s.audio.prev.delayed = some b) : airBlock s = b := by
  have safe : s.out.reasons.isEmpty = true := by rw [h]; rfl
  unfold airBlock
  simp [alert, safe, delayed]

/-- What is logged when the block's entry is another one (R159). -/
theorem logAired_log_of_differs {b : Block} {s : State} (h : Differs b s.out) :
    (∀ n ref, s.out.entry = some (n, ref) → b.tag.entry = none →
      (logAired b s).log = s.log.append (stamp s) .itemEnded (.cue n) (.ended s.out.entryRun s.out.carriedRun)) ∧
    (∀ m ref, s.out.entry = none → b.tag.entry = some (m, ref) →
      (logAired b s).log = s.log.append (stamp s) .itemAired (.cue m) (.aired ref s.out.carrying)) ∧
    (∀ n r m ref, s.out.entry = some (n, r) → b.tag.entry = some (m, ref) → (logAired b s).log =
      (s.log.append (stamp s) .itemEnded (.cue n) (.ended s.out.entryRun s.out.carriedRun)).append (stamp s)
        .itemAired (.cue m) (.aired ref s.out.carrying)) := by
  rw [logAired_of_differs h]
  unfold airedEntry endedEntry
  refine ⟨fun n ref old new => ?_, fun m ref old new => ?_, fun n r m ref old new => ?_⟩ <;> rw [old, new] <;> rfl

/-- OUT before its silence monitor, with what aired logged. -/
def heard (s : State) : State := logLines (airBlock s) (logAired (airBlock s) (aired (airBlock s) s))

theorem outputStage_heard (s : State) : outputStage s = silenceMonitor (heard s) := rfl

theorem outAlone_heard (s : State) : OutAlone (aired (airBlock s) s) (heard s) :=
  (outAlone_logAired _ _).trans (outAlone_logLines ..)

theorem heard_out (s : State) : (heard s).out = { s.out.remember (airBlock s)
      (if Differs (airBlock s) s.out then 0 else s.out.entryRun) (if Differs (airBlock s) s.out then 0 else s.out.carriedRun) with
    lines := (airBlock s).tag.lines
    lineCounts := s.out.lineCounts.mapIdx fun l n => if (airBlock s).tag.lines.get l then countUp n else 0 } := by
  unfold heard
  rw [logLines_out, logAired_out]
  rfl

theorem heard_prev (s : State) : (heard s).audio.prev = s.audio.prev := by
  rw [(outAlone_heard s).audio]
  rfl

theorem silenceStarts_heard (s : State) : silenceStarts (heard s) = silenceStarts s := by
  unfold silenceStarts
  rw [heard_prev, heard_out]
  rfl

theorem silenceEnds_heard (s : State) : silenceEnds (heard s) = silenceEnds s := by
  unfold silenceEnds
  rw [heard_prev, heard_out]
  rfl

theorem silenceStarts_iff {s : State} {b : Block} (delayed : s.audio.prev.delayed = some b) : silenceStarts s = true ↔
    s.out.deadAir = false ∧ s.out.threshold < b.tag.peak ∧ s.out.silenceTime ≤ s.out.quietRun + 1 := by
  unfold silenceStarts
  rw [delayed]
  simp [OUT.quiet, and_assoc]

theorem silenceEnds_iff {s : State} {b : Block} (delayed : s.audio.prev.delayed = some b) : silenceEnds s = true ↔
    s.out.deadAir = true ∧ b.tag.peak ≤ s.out.threshold ∧ s.out.restoreTime ≤ s.out.soundRun + 1 := by
  unfold silenceEnds
  rw [delayed]
  simp [OUT.quiet, and_assoc]

/-- OUT's entry for dead air, and SILENCE judged after it: what changes, and what the log shows of this and of before (R157). -/
theorem judgeSilence_logged (dead : Bool) (o : OUT) (s : State) (h : o.deadAir = dead) (reasons : o.reasons = s.out.reasons)
    (failover : o.failover = s.out.failover) : let t := judgeSilence (logEntry .silence .none (.silence dead) (s.withOut o))
    t.out = { o with reasons := { s.out.reasons with
      silence := dead && (s.out.failover || decide (s.air.mode = .unattended)) } } ∧
    t.log.Shows 2 .silence .none (.silence dead) ∧ LOG.Follows 2 s.log t.log ∧ OutAlone s t := by
  refine ⟨?_, ?_, (follows_logEntry .silence .none (.silence dead) (s.withOut o)).trans (follows_safeChange ..),
    OutAlone.trans (t := logEntry .silence .none (.silence dead) (s.withOut o)) rfl (outAlone_judgeSilence _)⟩
  · rw [judgeSilence_out]
    simp only [logEntry_out, withOut_out, logEntry_air, withOut_air, h, reasons, failover]
    rfl
  · exact (LOG.shows_append s.log (stamp s) ..).follows (n := 1) (a := 1)
      (follows_safeChange _ _ (logEntry .silence .none (.silence dead) (s.withOut o))) (by omega)

theorem heard_air (s : State) : (heard s).audio.cur.air = airBlock s := by
  rw [(outAlone_heard s).audio]
  rfl

/-- The block's entry is logged as aired, and still shown when the lines have been logged. -/
theorem heard_shows_aired {s : State} {n : Nat} {ref : Long} (old : s.out.entry = none)
    (new : (airBlock s).tag.entry = some (n, ref)) : (heard s).log.Shows 5 .itemAired (.cue n) (.aired ref s.out.carrying) := by
  have log := (logAired_log_of_differs (b := airBlock s) (s := aired (airBlock s) s) (by simp [Differs, new, aired, old])).2.1 n ref old new
  have shown : (logAired (airBlock s) (aired (airBlock s) s)).log.Shows 1 .itemAired (.cue n) (.aired ref s.out.carrying) := by
    rw [log]
    exact LOG.shows_append ..
  exact shown.follows (follows_logLines ..) (by omega)

/-- Dead air starts or ends at a boundary that brings OUT a delayed block: OUT, the log and the air block (R157). -/
theorem outputStage_silence {s : State} {dead : Bool} {q r : Nat}
    (monitor : silenceMonitor (heard s) = judgeSilence (logEntry .silence .none (.silence dead)
      ((heard s).withOut { (heard s).out with quietRun := q, deadAir := dead, soundRun := r }))) :
    (outputStage s).out = { (heard s).out with
      quietRun := q, deadAir := dead, soundRun := r
      reasons := { s.out.reasons with silence := dead && (s.out.failover || decide (s.air.mode = .unattended)) } } ∧
    (outputStage s).log.Shows 2 .silence .none (.silence dead) ∧ LOG.Follows 2 (heard s).log (outputStage s).log ∧
    OutAlone (aired (airBlock s) s) (outputStage s) := by
  obtain ⟨after, shown, later, -⟩ := judgeSilence_logged dead
    { (heard s).out with quietRun := q, deadAir := dead, soundRun := r } (heard s) rfl rfl rfl
  rw [outputStage_heard, monitor]
  refine ⟨after.trans ?_, shown, later, monitor ▸ outAlone_outputStage s⟩
  rw [heard_out, (outAlone_heard s).air]
  rfl

/-- OUT at a boundary at which dead air neither starts nor ends: its memory, its runs and its log (R157, R159, R160). -/
theorem outputStage_of_neither {s : State} {b : Block} (block : airBlock s = b) (delayed : s.audio.prev.delayed = some b)
    (starts : silenceStarts s ≠ true) (ends : silenceEnds s ≠ true) :
    (outputStage s).out = { s.out.remember b (if Differs b s.out then 0 else s.out.entryRun)
        (if Differs b s.out then 0 else s.out.carriedRun) with
      lines := b.tag.lines
      lineCounts := s.out.lineCounts.mapIdx fun l n => if b.tag.lines.get l then countUp n else 0
      quietRun := if s.out.deadAir = true then s.out.quietRun else if s.out.threshold < b.tag.peak then s.out.quietRun + 1 else 0
      soundRun := if s.out.deadAir = false then s.out.soundRun else if s.out.threshold < b.tag.peak then 0
        else s.out.soundRun + 1 } ∧
    (outputStage s).log = (logLines b (logAired b (aired b s))).log ∧ (outputStage s).audio.cur.air = b := by
  have monitor := silenceMonitor_of_neither ((congrArg Blocks.delayed (heard_prev s)).trans delayed)
    (by rw [silenceStarts_heard]; simpa using starts) (by rw [silenceEnds_heard]; simpa using ends)
  have out := heard_out s
  rw [block] at out
  rw [outputStage_heard, monitor, out]
  exact ⟨rfl, by rw [← block]; rfl, (heard_air s).trans block⟩

/-- OUT's entry runs when the block's entry is the remembered one (R159). -/
theorem remember_same {o : OUT} {b : Block} (h : ¬ Differs b o) :
    (o.remember b (if Differs b o then 0 else o.entryRun) (if Differs b o then 0 else o.carriedRun)).entryRun =
      (if b.tag.entry.map (·.1) = none then o.entryRun else min 17280000 (o.entryRun + 1)) ∧
    (o.remember b (if Differs b o then 0 else o.entryRun) (if Differs b o then 0 else o.carriedRun)).carriedRun =
      (if b.tag.entry.map (·.1) ≠ none ∧ o.carrying = true then min 17280000 (o.carriedRun + 1) else o.carriedRun) := by
  rw [if_neg h, if_neg h]
  unfold OUT.remember countUp Config.day
  cases b.tag.entry <;> simp

/-- OUT's entry runs when the block's entry is another (R159). -/
theorem remember_differs {o : OUT} {b : Block} (h : Differs b o) :
    (o.remember b (if Differs b o then 0 else o.entryRun) (if Differs b o then 0 else o.carriedRun)).entryRun =
      (if b.tag.entry.map (·.1) = none then 0 else 1) ∧
    (o.remember b (if Differs b o then 0 else o.entryRun) (if Differs b o then 0 else o.carriedRun)).carriedRun =
      (if b.tag.entry.map (·.1) ≠ none ∧ o.carrying = true then 1 else 0) := by
  rw [if_pos h, if_pos h]
  unfold OUT.remember countUp Config.day
  cases b.tag.entry <;> simp

/-- Settles O54. -/
theorem silenceStartsAndEnds : Obligations.SilenceStartsAndEnds := by
  refine ⟨fun b s due delayed => ?_, fun i later b s due others keys clock delayed alert safe => ?_⟩
  · let u : State := { s with due := [] }
    intro silence
    refine ⟨fun alive quiet long => ?_, fun dead sound long => ?_⟩
    · have starts : silenceStarts s = true := (silenceStarts_iff delayed).2 ⟨alive, quiet, long⟩
      obtain ⟨out, shown, later, alone⟩ := outputStage_silence (silenceMonitor_of_starts ((silenceStarts_heard u).trans starts))
      rw [heard_out] at out
      have air : (outputStage u).audio.cur.air = airBlock u := by rw [alone.audio]; rfl
      refine ⟨_, congrArg Host.Outcome.next (stageRow_of_one (d := .output) due nofun starts), congrArg OUT.deadAir out,
        congrArg OUT.soundRun out, congrArg OUT.quietRun out, congrArg OUT.reasons out, shown.entry, fun alert safe => ?_,
        fun alert => ?_, fun alert safe => ?_, ?_⟩
      · have block := airBlock_of_delayed (s := u) alert safe delayed
        refine ⟨air.trans block, fun n ref old new => ?_⟩
        rw [block] at out
        have differs : Differs b u.out := by simp [Differs, new, show u.out.entry = none from old]
        refine ⟨(congrArg OUT.entry out).trans new, (congrArg OUT.entryRun out).trans ?_, ?_⟩
        · show (if b.tag.entry.isSome then countUp _ else _) = 1
          rw [if_pos differs, new]
          rfl
        · exact ((heard_shows_aired (s := u) old (by rw [block]; exact new)).follows later (by omega)).entry
      · have block := airBlock_of_alert (s := u) alert
        rw [← air] at block
        exact block
      · exact (congrArg Block.audio air).trans (airBlock_of_safe (s := u) alert safe)
      · exact (congrArg (fun t : State => { t with audio := s.audio, due := s.due }) alone :)
    · have ends : silenceEnds s = true := (silenceEnds_iff delayed).2 ⟨dead, sound, long⟩
      obtain ⟨out, shown, later, alone⟩ := outputStage_silence (silenceMonitor_of_ends ((silenceEnds_heard u).trans ends))
      rw [heard_out] at out
      obtain ⟨x, mem, kind, -, detail⟩ := shown.entry
      exact ⟨_, congrArg Host.Outcome.next (stageRow_of_one (d := .output) due nofun ends), congrArg OUT.deadAir out,
        congrArg OUT.quietRun out, congrArg OUT.soundRun out, congrArg OUT.reasons out, ⟨x, mem, kind, detail⟩,
        (congrArg (fun t : State => { t with audio := s.audio, due := s.due }) alone :)⟩
  · intro x starts ends time new old
    have counted : atBoundary i s = latch i s := atBoundary_of_sampled due keys clock
    have run := boundary_takes (i := i) (d := .output) due others rfl (by simp [stageEvents]) (by
      intro e mem _
      rw [show (takeDue .output _).due = _ from (outAlone_outputStage _).due] at mem
      exact mem)
    rw [counted] at run
    generalize hu : (latch i s).withDue ((latch i s).due.erase .output) = u at run
    have out : u.out = x := by rw [← hu]; rfl
    have log : u.log = s.log := by rw [← hu]; rfl
    have prev : u.audio.prev.delayed = some b := by rw [← hu]; exact delayed
    have stamped : stamp u = time := by
      rw [← hu]
      show (if s.tb.clockSet then some (if s.tb.pendingTime.isSome then s.tb.clock else clockAfter s.tb.clock) else none) = _
      rw [clock]
      simp [time, clockAfter, Config.day]
    have block : airBlock u = b := airBlock_of_delayed (by rw [out]; exact alert) (by rw [out]; exact safe) prev
    have starts' : silenceStarts u ≠ true := by
      rw [ne_eq, silenceStarts_iff prev, out]
      rintro ⟨alive, quiet, long⟩
      exact absurd (starts alive quiet) (by omega)
    have ends' : silenceEnds u ≠ true := by
      rw [ne_eq, silenceEnds_iff prev, out]
      rintro ⟨dead, sound, long⟩
      exact absurd (ends dead sound) (by omega)
    obtain ⟨after, logged, air⟩ := outputStage_of_neither block prev starts' ends'
    rw [out] at after
    have memory : (logAired b (aired b u)).out = x.remember b (if Differs b x then 0 else x.entryRun)
        (if Differs b x then 0 else x.carriedRun) := by
      rw [logAired_out, show (aired b u).out = x from out]
    have changed (h : new ≠ old) := logAired_log_of_differs (b := b) (s := aired b u) (by
      rw [show (aired b u).out = x from out]
      exact h)
    rw [show (aired b u).out = x from out, show (aired b u).log = s.log from log, show stamp (aired b u) = time from stamped] at changed
    have same (h : new = old) : (logAired b (aired b u)).log = s.log := by
      rw [logAired_of_same]
      · exact log
      · rw [show (aired b u).out = x from out]
        exact not_not.2 h
    have stamped' : stamp (logAired b (aired b u)) = time := by
      unfold stamp
      rw [(outAlone_logAired b (aired b u)).tb]
      exact stamped
    refine ⟨outputStage u, congrArg Host.Outcome.next run, air, congrArg OUT.origin after, (congrArg OUT.deadAir after :),
      (congrArg OUT.reasons after :), (congrArg OUT.quietRun after :), (congrArg OUT.soundRun after :), congrArg OUT.entry after, fun h => ?_,
      fun h => ?_, congrArg OUT.lines after, fun l => ?_, fun kept => ⟨fun h => ?_, fun n ref was is => ?_, fun m ref was is => ?_,
      fun n r m ref was is other => ?_⟩, fun h l => ⟨fun was is => ?_, fun was is => ?_⟩⟩
    · obtain ⟨entry, carried⟩ := remember_same (not_not.2 (show b.tag.entry.map (·.1) = x.entry.map (·.1) from h))
      exact ⟨(congrArg OUT.entryRun after).trans entry, (congrArg OUT.carriedRun after).trans carried⟩
    · obtain ⟨entry, carried⟩ := remember_differs (show Differs b x from h)
      exact ⟨(congrArg OUT.entryRun after).trans entry, (congrArg OUT.carriedRun after).trans carried⟩
    · rw [after]
      exact four_get_mapIdx ..
    · rw [logged, logLines_log_of_same (by rw [memory]; exact kept), same h]
    · rw [logged, logLines_log_of_same (by rw [memory]; exact kept)]
      exact (changed (by simp [new, old, was, is])).1 n ref was is
    · rw [logged, logLines_log_of_same (by rw [memory]; exact kept)]
      exact (changed (by simp [new, old, was, is])).2.1 m ref was is
    · rw [logged, logLines_log_of_same (by rw [memory]; exact kept)]
      exact (changed (by simpa [new, old, was, is] using Ne.symm other)).2.2 n r m ref was is
    · rw [logged, logLines_log_of_set (by rw [memory]; exact is), logLine_log_on (by rw [memory]; exact was)
        (by rw [is]; exact four_get_set ..), same h, stamped', memory]
      rfl
    · rw [logged, logLines_log_of_set (by rw [memory]; exact is), logLine_log_off (by rw [memory]; exact was)
        (by rw [is]; exact four_get_set ..), same h, stamped', memory]
      rfl

end Sys2Proof.Machine
end

section
/-! The delay store: the targets, the dump, the steps and the gate reports (R107 to R124). -/

namespace Sys2Proof.Machine

open Sys2Proof

/-! ### The delay and the state it settles to (R107, R109) -/

/-- The gate is closed by a caller on air with live calls not permitted. -/
abbrev DLY.Closed (d : DLY) : Prop := d.gateAir = true ∧ d.gateLive = false

theorem gateOpen_iff (d : DLY) : d.gateOpen = true ↔ ¬ d.Closed := by
  unfold DLY.gateOpen DLY.Closed
  cases d.gateAir <;> cases d.gateLive <;> decide

theorem settled_eq (d : DLY) : d.settled =
    if d.delay < d.target then .building else if d.target < d.delay then .shrinking
    else if 1 ≤ d.target then .engaged else if d.Closed then .engaged else .bypass := by
  unfold DLY.settled
  simp only [gateOpen_iff, ite_not]

theorem gateRefuses_iff (d : DLY) : d.gateRefuses = true ↔ d.Closed ∧ d.state ≠ .frozen := by
  unfold DLY.gateRefuses
  rw [Bool.and_eq_true, Bool.not_eq_true', ← Bool.not_eq_true, gateOpen_iff, not_not]
  simp

/-- What the delay is after the read position moves on by no more than it. -/
theorem delay_after_read {d : DLY} {n : Nat} (r : d.readPos < 8192) (w : d.writePos < 8192) (le : n ≤ d.delay) :
    ({ d with readPos := (d.readPos + n) % 8192 } : DLY).delay = d.delay - n := by
  unfold DLY.delay Config.ringCells at *
  dsimp only
  omega

theorem delay_after_put {d : DLY} {b : Block} (r : d.readPos < 8192) (w : d.writePos < 8192) (small : d.delay < 8191) :
    (d.put b).delay = d.delay + 1 := by
  unfold DLY.put cellAfter DLY.delay Config.ringCells at *
  dsimp only
  omega

/-! ### Writing DLY's state (R109, R124) -/

/-- A DLY written in the state it had raises nothing. -/
theorem dlyBecomes_of_same {d : DLY} {s : State} (h : d.state = s.dly.state) : dlyBecomes d s = s.withDly d := by
  unfold dlyBecomes
  rw [decide_eq_true h]
  rfl

theorem dlyBecomes_of_other {d : DLY} {s : State} (h : d.state ≠ s.dly.state) :
    dlyBecomes d s = raise .delayState (s.withDly d) := by
  unfold dlyBecomes
  rw [decide_eq_false h]
  rfl

theorem dlyBecomes_frame (d : DLY) (s : State) : { dlyBecomes d s with dly := s.dly, pi := s.pi } = s := by
  unfold dlyBecomes when
  split <;> rfl

/-- A port through a change of DLY (R124). -/
theorem dlyBecomes_port (d : DLY) (s : State) (q : PortId) : (dlyBecomes d s).port q =
    if d.state = s.dly.state then s.port q else (s.port q).raise .delayState := by
  split
  · rw [dlyBecomes_of_same ‹_›]
    cases q <;> rfl
  · rw [dlyBecomes_of_other ‹_›, raise_port]
    cases q <;> rfl

/-! ### ENGAGE and DISENGAGE -/

/-- The reply of a target set: PENDING while DLY moves to it (R115, R116). -/
theorem delayResult_of_run {s : State} {r : RunState} (h : s.dly.state = .run r) :
    delayResult s = if r = .building ∨ r = .shrinking then .pending else .ok := by
  unfold delayResult
  rw [h]
  cases r <;> rfl

theorem delayResult_of_frozen {s : State} (h : s.dly.state = .frozen) : delayResult s = .pending := by
  unfold delayResult
  rw [h]

/-- Settles O44. -/
theorem engageAndDisengageSettleTheState : Obligations.EngageAndDisengageSettleTheState := by
  refine fun n s => ⟨refusedOff_portB s (fun _ => rfl) rfl (by simp [halfBytes]), refusedOff_portB s (fun _ => rfl) rfl (by simp), fun a b => ?_⟩
  intro closed settles result settled
  have engage {t : State} {x : Reply} (own : ownerEngage n s = (t, x)) :
      exec (.engage .b n) s = .next (replyTo .b 57 x t) := exec_answers rfl rfl (by simp [halfBytes]) nofun (by simp) a own
  have disengage {t : State} {x : Reply} (own : ownerDisengage s = (t, x)) :
      exec (.disengage .b) s = .next (replyTo .b 58 x t) := exec_answers rfl rfl (by simp) nofun (by simp) b own
  have settle_eq (target : Nat) : settle (s.withDly { s.dly with target := target }) = settled target := by
    unfold settle
    rw [settled_eq]
    rfl
  have result_eq (target : Nat) : delayResult (settled target) = result (settles target) := by
    have state : (settled target).dly.state = .run (settles target) := by
      rw [← settle_eq, settle, (dlyBecomes_reads ..).1, settled_eq]
      rfl
    exact delayResult_of_run state
  have setTarget_settles {target : Nat} (run : s.dly.state ≠ .frozen) (moves : 1 ≤ target ∨ s.dly.state ≠ .run .bypass) :
      setTarget target s = settled target := by
    rw [← settle_eq]
    unfold setTarget
    split
    · exact absurd ‹_› run
    · exact if_neg (fun zero => moves.elim (by omega) (absurd ‹_›))
    · rfl
  have setTarget_frozen {target : Nat} (frozen : s.dly.state = .frozen) :
      setTarget target s = { s with dly := { s.dly with target := target, recompute := true } } := by
    unfold setTarget
    rw [frozen]
    rfl
  have setTarget_bypass (bypass : s.dly.state = .run .bypass) : setTarget 0 s = { s with dly := { s.dly with target := 0 } } := by
    unfold setTarget
    rw [bypass]
    rfl
  have engageTaken {t : State} {x : Result} (range : n.toNat ≤ 6000) (free : ¬ (n.toNat = 0 ∧ s.dly.state ≠ .run .bypass ∧ s.dly.gateRefuses))
      (set : setTarget n.toNat s = t) (reply : delayResult t = x) : exec (.engage .b n) s = .next (replyTo .b 57 ⟨x, []⟩ t) :=
    engage ((if_neg (show ¬ 6000 < n.toNat by omega)).trans ((if_neg free).trans (by rw [set, reply])))
  have disengageTaken {t : State} {x : Result} (free : ¬ s.dly.gateRefuses = true) (set : setTarget 0 s = t)
      (reply : delayResult t = x) : exec (.disengage .b) s = .next (replyTo .b 58 ⟨x, []⟩ t) :=
    disengage ((if_neg free).trans (by rw [set, reply]))
  refine ⟨fun big => engage (if_pos big), fun run closed zero moves => engage ?_, fun run closed => disengage ?_,
    fun zero bypass => ?_, fun range run free => ?_, fun run moves isOpen => ?_, fun bypass isOpen => ?_, fun frozen range => ?_, fun frozen => ?_⟩
  · exact (if_neg (by rw [zero]; decide)).trans (if_pos ⟨zero, moves, (gateRefuses_iff _).2 ⟨closed, run⟩⟩)
  · exact if_pos ((gateRefuses_iff _).2 ⟨closed, run⟩)
  · exact engageTaken (by omega) (fun h => h.2.1 bypass) ((congrArg (setTarget · s) zero).trans (setTarget_bypass bypass))
      (delayResult_of_run (r := .bypass) bypass)
  · refine engageTaken range ?_ (setTarget_settles run (free.imp id (·.2))) (result_eq _)
    rintro ⟨zero, moves, refuses⟩
    rcases free with some | ⟨isOpen, -⟩
    · omega
    · exact isOpen ((gateRefuses_iff _).1 refuses).1
  · exact disengageTaken (fun refuses => isOpen ((gateRefuses_iff _).1 refuses).1) (setTarget_settles run (.inr moves)) (result_eq _)
  · exact disengageTaken (fun refuses => isOpen ((gateRefuses_iff _).1 refuses).1) (setTarget_bypass bypass)
      (delayResult_of_run (r := .bypass) bypass)
  · exact engageTaken range (fun h => ((gateRefuses_iff _).1 h.2.2).2 frozen) (setTarget_frozen frozen) (delayResult_of_frozen frozen)
  · exact disengageTaken (fun refuses => ((gateRefuses_iff _).1 refuses).2 frozen) (setTarget_frozen frozen)
      (delayResult_of_frozen frozen)

/-! ### DUMP -/

theorem settle_frame (s : State) : { settle s with dly := s.dly, pi := s.pi } = s := dlyBecomes_frame ..

/-- DLY once settled (R109). -/
theorem settle_dly (s : State) : (settle s).dly = { s.dly with
    state := .run s.dly.settled
    stepCount := if s.dly.state = .run s.dly.settled then s.dly.stepCount else 0 } := (dlyBecomes_reads ..).1

/-- A notice's own flag, and another's, after it is raised on a port that takes notices (R198). -/
theorem raise_flag {q : Port} (k : Notice) {n : Nat} (high : q.init = .high) :
    ((q.raise k).flags.getLsbD n = true ↔ n = k.bit ∨ q.flags.getLsbD n = true) ∧ (q.raise k).init = .high := by
  rw [raise_flags, if_pos high]
  refine ⟨?_, high⟩
  have bit : k.bit < 16 := by cases k <;> decide
  have own : (1#16 <<< k.bit).getLsbD n = decide (n = k.bit) := by
    rw [← BitVec.twoPow_eq, BitVec.getLsbD_twoPow]
    simp [bit, eq_comm]
  rw [BitVec.getLsbD_or, own, Bool.or_eq_true, decide_eq_true_iff, or_comm]

/-- DELAY STATE through a change of DLY (R124). -/
theorem dlyBecomes_flag (d : DLY) {s : State} {q : PortId} (high : (s.port q).init = .high) :
    ((dlyBecomes d s).port q).init = .high ∧ (((dlyBecomes d s).port q).flags.getLsbD 6 = true ↔
      d.state ≠ s.dly.state ∨ (s.port q).flags.getLsbD 6 = true) := by
  rw [dlyBecomes_port]
  split
  · rename_i same
    exact ⟨high, by simp [same]⟩
  · rename_i other
    obtain ⟨flag, high⟩ := raise_flag .delayState (n := 6) high
    exact ⟨high, iff_of_true (flag.2 (.inl rfl)) (.inl other)⟩

/-- A dump outside FROZEN (R118, R119). -/
theorem performDump_of_run {s : State} (h : s.dly.state ≠ .frozen) : performDump s =
    handOver (.dumpReport false) (raise .dump (logEntry .dump .none (.number s.dly.dumped)
      (settle (s.withDly { s.dly with readPos := cellAfter s.dly.readPos s.dly.dumped })))) := by
  unfold performDump
  rw [decide_eq_false h]
  dsimp only
  split
  · exact absurd ‹_› h
  · rfl

theorem performDump_of_frozen {s : State} (h : s.dly.state = .frozen) : performDump s =
    handOver (.dumpReport true) (raise .dump (logEntry .dump .none (.number s.dly.dumped)
      (s.withDly { s.dly with readPos := cellAfter s.dly.readPos s.dly.dumped, recompute := true }))) := by
  unfold performDump
  rw [decide_eq_true h]
  dsimp only
  rw [h]
  rfl

/-- Settles O45. -/
theorem dumpDiscardsUnairedProgramme : Obligations.DumpDiscardsUnairedProgramme := by
  refine fun s => ⟨refusedOff_portB s (fun _ => rfl) rfl (by simp), fun a => ?_⟩
  have run {t : State} {x : Reply} (own : ownerDump s = (t, x)) : exec (.dump .b) s = .next (replyTo .b 59 x t) :=
    exec_answers rfl rfl (by simp) nofun (by simp) a own
  have taken {t : State} (moves : s.dly.state ≠ .run .bypass) (dump : performDump s = t) :
      exec (.dump .b) s = .next (replyTo .b 59 ⟨.ok, beBytes 2 s.dly.dumped⟩ t) := by
    refine run ?_
    unfold ownerDump
    split
    · exact absurd ‹_› moves
    · rw [dump]
  intro amount
  refine ⟨fun bypass => run ?_, fun frozen => (taken (by rw [frozen]; exact nofun) (performDump_of_frozen frozen)).trans rfl,
    fun moves running r w => ⟨_, taken moves (performDump_of_run running), ?_⟩⟩
  · unfold ownerDump
    rw [bypass]
    rfl
  · generalize hm : s.withDly { s.dly with readPos := cellAfter s.dly.readPos s.dly.dumped } = m
    have dly := settle_dly m
    have frame := settle_frame m
    have delay : (settle m).dly.delay = s.dly.delay - amount := by
      rw [dly, ← hm]
      exact delay_after_read r w (Nat.min_le_right ..)
    have target : (settle m).dly.target = m.dly.target := by rw [dly]
    have state : (settle m).dly.state = .run m.dly.settled := by rw [dly]
    have same : (settle m).dly.delay = m.dly.delay := by rw [dly]; rfl
    rw [settled_eq, ← same, ← target] at state
    have old : m.dly.state = s.dly.state := by rw [← hm]; rfl
    refine ⟨?_, delay, fun below => ?_, fun above => ?_, fun equal => ?_, ?_, fun q high => ?_, ?_, ?_, ?_, ?_⟩
    · show (settle m).dly.readPos = _
      rw [dly, ← hm]
      rfl
    · exact state.trans (congrArg DelayState.run (if_pos below))
    · exact state.trans (congrArg DelayState.run ((if_neg (Nat.lt_asymm above)).trans (if_pos above)))
    · refine state.trans (congrArg DelayState.run ((if_neg (Nat.not_lt.2 equal.ge)).trans ((if_neg (Nat.not_lt.2 equal.le)).trans ?_)))
      subst hm
      rfl
    · show (settle m).dly.stepCount = if (settle m).dly.state = _ then _ else _
      rw [dly, ← hm]
      exact if_congr eq_comm rfl rfl
    · obtain ⟨stillHigh, changed⟩ := dlyBecomes_flag (m.dly.enter m.dly.settled) (s := m) (q := q) (by subst hm; exact high)
      show ((raise .dump (raise .logNew ((settle m).withLog _))).port q).flags.getLsbD 7 = true ∧
        (((raise .dump (raise .logNew ((settle m).withLog _))).port q).flags.getLsbD 6 = true ↔ _)
      rw [raise_port, raise_port]
      obtain ⟨logged, stillHigh⟩ := raise_flag .logNew (n := 6) stillHigh
      refine ⟨(raise_flag .dump (n := 7) stillHigh).1.2 (.inl rfl), (raise_flag .dump (n := 6) stillHigh).1.trans ?_⟩
      have own : ((dlyBecomes (m.dly.enter m.dly.settled) m).port q).flags.getLsbD 6 = true ↔
          (settle m).dly.state ≠ s.dly.state ∨ (s.port q).flags.getLsbD 6 = true := by
        subst hm
        exact changed.trans (by rw [dly]; rfl)
      rw [logged, own]
      simp [Notice.bit]
    · show (settle m).log.append (stamp (settle m)) .dump .none (.number amount) = _
      rw [show (settle m).log = s.log from (congrArg State.log frame :).trans (by rw [← hm]; rfl)]
      unfold stamp
      rw [show (settle m).tb = s.tb from (congrArg State.tb frame :).trans (by rw [← hm]; rfl)]
    · show (settle m).due ++ _ = _
      rw [show (settle m).due = s.due from (congrArg State.due frame :).trans (by rw [← hm]; rfl)]
    · show ({ (settle m).dly with readPos := _, state := _, stepCount := _ } : DLY) = _
      rw [dly, ← hm]
      rfl
    · subst hm
      exact (congrArg (fun u : State => { u with dly := s.dly, log := s.log, due := s.due }) frame :)

/-! ### Gate reports (R114) -/

theorem exec_gateReport {air live : Bool} {s : State} (due : s.due = [.gateReport air live]) :
    exec .gateReport s = .next (gateReport air live (s.withDue [])) := by
  have has : s.hasDue .gateReport = true := by rw [State.hasDue, due]; rfl
  refine congrArg Host.Outcome.next ((if_pos has).trans ((takeOne_of_mem (.gateReport air live) s (by simp [due])
    (by simp [due])).trans ?_))
  rw [due, List.erase_cons_head]
  rfl

/-- Settles O47. -/
theorem gateReportsAreRecorded : Obligations.GateReportsAreRecorded := by
  intro air live s due recorded
  have run {t : State} (h : gateReport air live (s.withDue []) = t) : exec .gateReport s = .next t := by
    rw [exec_gateReport due, h]
  have isOpen (h : air = false ∨ live = true) : recorded.gateOpen = true := (gateOpen_iff _).2 (by
    rintro ⟨on, shut⟩
    rcases h with h | h
    · exact absurd (on.symm.trans h) nofun
    · exact absurd (shut.symm.trans h) nofun)
  have unchanged (h : s.dly.state = .frozen ∨ s.dly.state = .run .building ∨ s.dly.state = .run .shrinking) :
      gateReport air live (s.withDue []) = { s with due := [], dly := recorded } := by
    unfold gateReport
    dsimp only
    split
    · rename_i engaged; rcases h with h | h | h <;> exact absurd (engaged.symm.trans h) nofun
    · rename_i bypass; rcases h with h | h | h <;> exact absurd (bypass.symm.trans h) nofun
    · rfl
  have engaged (h : s.dly.state = .run .engaged) : gateReport air live (s.withDue []) =
      dlyBecomes (if recorded.target = 0 ∧ recorded.delay = 0 ∧ recorded.gateOpen then recorded.enter .bypass else recorded)
        (s.withDue []) := by
    unfold gateReport
    dsimp only
    split
    · rfl
    · rename_i bypass; exact absurd (bypass.symm.trans h) nofun
    · exact absurd h ‹_›
  have bypass (h : s.dly.state = .run .bypass) : gateReport air live (s.withDue []) =
      dlyBecomes (if recorded.gateOpen then recorded else { recorded.enter .engaged with target := 0 }) (s.withDue []) := by
    unfold gateReport
    dsimp only
    split
    · rename_i engaged; exact absurd (engaged.symm.trans h) nofun
    · rfl
    · exact absurd h ‹_›
  refine ⟨fun state target delay gate => run ((engaged state).trans ?_), fun state => run (unchanged state),
    fun state other => run ((engaged state).trans ?_), fun state gate => run ((bypass state).trans ?_),
    fun state on shut => run ((bypass state).trans ?_)⟩
  · rw [if_pos ⟨target, delay, isOpen gate⟩, dlyBecomes_of_other (by
      show DelayState.run .bypass ≠ s.dly.state
      rw [state]
      nofun)]
    unfold DLY.enter
    rw [if_neg (by show s.dly.state ≠ _; rw [state]; nofun)]
    rfl
  · rw [if_neg, dlyBecomes_of_same (d := recorded) (s := s.withDue []) rfl]
    · rfl
    · rintro ⟨target, delay, gate⟩
      rcases other with h | h | h
      · exact h target
      · exact h delay
      · exact (gateOpen_iff _).1 gate h
  · rw [if_pos (isOpen gate), dlyBecomes_of_same (d := recorded) (s := s.withDue []) rfl]
    rfl
  · rw [if_neg (fun gate => (gateOpen_iff _).1 gate ⟨on, shut⟩), dlyBecomes_of_other (by
      show DelayState.run .engaged ≠ s.dly.state
      rw [state]
      nofun)]
    unfold DLY.enter
    rw [if_neg (by show s.dly.state ≠ _; rw [state]; nofun)]
    rfl

/-! ### The steps (R108, R111 to R113) -/

/-- With no event standing before it, a row whose occasion arises takes its event. -/
theorem stageRow_of_due {d : Due} {s : State} {occasion : State → Bool} (before : takeBefore d.kind s = s) (mem : d ∈ s.due)
    (one : ∀ e ∈ s.due, e.kind = d.kind → e = d) (o : occasion s = true) :
    stageRow d.kind occasion s = takeDue d (s.withDue (s.due.erase d)) := by
  have due : s.due.any (fun e => decide (e.kind = d.kind)) = true := List.any_eq_true.2 ⟨d, mem, decide_eq_true rfl⟩
  unfold stageRow
  rw [before]
  simp only [due, o, Bool.and_self, if_true]
  exact takeOne_of_mem d s mem one

/-- The end of a step whose count has been set to 0 (R111, R112). -/
theorem afterStep_eq {d : DLY} (h : d.stepCount = 0) :
    d.afterStep = { d with state := if d.delay = d.target then .run d.settled else d.state } := by
  unfold DLY.afterStep DLY.enter
  split
  · obtain ⟨⟩ := d
    dsimp only at h
    subst h
    simp
  · rfl

theorem settled_of_reached {d : DLY} (h : d.delay = d.target) :
    d.settled = if 1 ≤ d.target ∨ d.Closed then .engaged else .bypass := by
  rw [settled_eq, if_neg (by omega), if_neg (by omega)]
  by_cases target : 1 ≤ d.target
  · rw [if_pos target, if_pos (.inl target)]
  · rw [if_neg target]
    exact if_congr (by simp [target]) rfl rfl

theorem delayStage_frozen {s : State} (h : s.dly.state = .frozen) :
    delayStage s = s.withAudio { s.audio with cur := { s.audio.cur with delayed := none } } := by
  unfold delayStage
  rw [h]

theorem delayStage_bypass {s : State} (h : s.dly.state = .run .bypass) : delayStage s = emit s.audio.prev.programme s := by
  unfold delayStage
  rw [h]

theorem delayStage_engaged {s : State} (h : s.dly.state = .run .engaged) : delayStage s = passOne s.audio.prev.programme s := by
  unfold delayStage
  rw [h]

theorem delayStage_building {s : State} (h : s.dly.state = .run .building) : delayStage s =
    if s.dly.stepDue then buildStep s.audio.prev.programme s
    else passOne s.audio.prev.programme (s.withDly { s.dly with stepCount := s.dly.stepCount + 1 }) := by
  unfold delayStage
  rw [h]

theorem delayStage_shrinking {s : State} (h : s.dly.state = .run .shrinking) : delayStage s =
    if s.dly.stepDue then shrinkStep s.audio.prev.programme s
    else passOne s.audio.prev.programme (s.withDly { s.dly with stepCount := s.dly.stepCount + 1 }) := by
  unfold delayStage
  rw [h]

theorem stepDue_iff (d : DLY) : d.stepDue = true ↔ d.ratio ≤ d.stepCount + 1 := decide_eq_true_iff

/-- DLY's notice after an event that leaves the ports otherwise alone (R124). -/
theorem notified_of_dlyBecomes {d : DLY} {s : State} :
    (d.state = s.dly.state → (dlyBecomes d s).pi = s.pi) ∧
    (d.state ≠ s.dly.state → (dlyBecomes d s).pi.handed = s.pi.handed ∧ ∀ q, (dlyBecomes d s).port q =
      if (s.port q).init = .high then { s.port q with flags := (s.port q).flags ||| 64 } else s.port q) := by
  refine ⟨fun same => by rw [dlyBecomes_of_same same]; rfl, fun other => ⟨by rw [dlyBecomes_of_other other]; rfl, fun q => ?_⟩⟩
  rw [dlyBecomes_port, if_neg other, raise_flags]
  split <;> rfl

/-- DLY's event touches DLY, the delayed block and the ports alone. -/
theorem delayStage_frame (s : State) : { delayStage s with dly := s.dly, audio := s.audio, pi := s.pi } = s := by
  have step (d : DLY) (b : Block) : { emit b (dlyBecomes d s) with dly := s.dly, audio := s.audio, pi := s.pi } = s :=
    (congrArg (fun u : State => { u with audio := s.audio }) (dlyBecomes_frame d s) :)
  unfold delayStage
  dsimp only
  split
  · rfl
  · rfl
  · rfl
  · split
    · exact step ..
    · rfl
  · split
    · exact step ..
    · rfl

theorem delayStage_due (s : State) : (delayStage s).due = s.due := (congrArg State.due (delayStage_frame s) :)

/-- DLY and the delayed block after a boundary in each state, no step being due (R108). -/
theorem delayStage_ordinary (s : State) :
    let b := s.audio.prev.programme
    let d := s.dly
    let ring := Memory.write d.ring d.writePos b
    let out := Memory.read ring d.readPos
    (d.state = .frozen → (delayStage s).dly = d ∧ (delayStage s).audio.cur.delayed = none) ∧
    (d.state = .run .bypass → (delayStage s).dly = { d with last := some b } ∧ (delayStage s).audio.cur.delayed = some b) ∧
    (d.state = .run .engaged → (delayStage s).dly = { d with
      ring := ring, writePos := (d.writePos + 1) % 8192, readPos := (d.readPos + 1) % 8192, last := some out } ∧
      (delayStage s).audio.cur.delayed = some out) ∧
    (d.state = .run .building ∨ d.state = .run .shrinking → d.stepCount + 1 < d.ratio → (delayStage s).dly = { d with
      ring := ring, writePos := (d.writePos + 1) % 8192, readPos := (d.readPos + 1) % 8192, last := some out
      stepCount := d.stepCount + 1 } ∧ (delayStage s).audio.cur.delayed = some out) := by
  intro b d ring out
  refine ⟨fun h => ?_, fun h => ?_, fun h => ?_, fun h early => ?_⟩
  · rw [delayStage_frozen h]
    exact ⟨rfl, rfl⟩
  · rw [delayStage_bypass h]
    exact ⟨rfl, rfl⟩
  · rw [delayStage_engaged h]
    exact ⟨rfl, rfl⟩
  · have no : ¬ s.dly.stepDue = true := by rw [stepDue_iff]; exact Nat.not_le.2 early
    rcases h with h | h
    · rw [delayStage_building h, if_neg no]
      exact ⟨rfl, rfl⟩
    · rw [delayStage_shrinking h, if_neg no]
      exact ⟨rfl, rfl⟩

theorem delayStage_air (s : State) : (delayStage s).audio.cur.air = s.audio.cur.air := by
  unfold delayStage
  dsimp only
  split
  · rfl
  · rfl
  · rfl
  · split <;> [exact (congrArg (·.audio.cur.air) (dlyBecomes_frame ..) :); rfl]
  · split <;> [exact (congrArg (·.audio.cur.air) (dlyBecomes_frame ..) :); rfl]

/-- OUT after a boundary's counts but for its reasons. -/
theorem atBoundary_alertFlag (i : PeriodInput) (s : State) : (atBoundary i s).out.alertFlag = s.out.alertFlag := by
  have clock (u : State) : (clockFirst u).out = u.out := (congrArg State.out (clockFirst_frame u).1 :)
  unfold atBoundary firstSampling
  rw [clock]
  split
  · rfl
  · unfold judgeKey
    dsimp only
    split
    · rw [clock]; rfl
    · rw [safeChange_out, withTb_out, clock]; rfl

/-- A boundary that takes DLY's event first, in a state other than FROZEN. -/
theorem boundary_delay {i : PeriodInput} {later : List DueKind} {s : State} (due : s.due = [])
    (others : ∀ k, k ≠ .delay → k ∈ later) (run : s.dly.state ≠ .frozen) :
    boundary i [.delay] later s = delayStage ((atBoundary i s).withDue ((atBoundary i s).due.erase .delay)) := by
  have dly : (atBoundary i s).dly = s.dly := (congrArg State.dly (atBoundary_frame i s) :)
  refine boundary_takes_of_before (d := .delay) due others nofun ?_ (by simp [stageEvents]) ?_
  · exact if_neg (by show (atBoundary i s).dly.state ≠ _; rw [dly]; exact run)
  · intro e mem _
    rw [show (takeDue .delay _).due = _ from delayStage_due _] at mem
    exact mem

/-- In FROZEN OUT's event stands before DLY's (R152). -/
theorem boundary_delay_frozen {i : PeriodInput} {later : List DueKind} {s : State} (due : s.due = [])
    (others : ∀ k, k ≠ .delay → k ∈ later) (frozen : s.dly.state = .frozen) :
    boundary i [.delay] later s = delayStage ((outputStage ((atBoundary i s).withDue ((atBoundary i s).due.erase .output))).withDue
      (((atBoundary i s).due.erase .output).erase .delay)) := by
  let a := atBoundary i s
  have dly : a.dly = s.dly := (congrArg State.dly (atBoundary_frame i s) :)
  have once := atBoundary_once i due
  have listed {d : Due} (n : d ≠ .clockSet) (h : d ∈ stageEvents s.site.window) : d ∈ a.due :=
    (mem_atBoundary i s n).2 (stage_mem_latch i s h)
  let out := outputStage (a.withDue (a.due.erase .output))
  have outDue : out.due = a.due.erase .output := (outAlone_outputStage _).due
  have first : takeBefore .delay (firstSampling s (latch i s)) = out := by
    refine (if_pos (show a.dly.state = .frozen by rw [dly]; exact frozen)).trans ?_
    exact (takeOne_once (d := .output) once (listed nofun (by simp [stageEvents]))).1
  have once' : (out.due.map Due.kind).Nodup := by
    rw [outDue]
    exact once.sublist (List.erase_sublist.map _)
  obtain ⟨taken, none⟩ := takeOne_once (s := out) (d := .delay) once'
    (by
      rw [outDue, List.mem_erase_of_ne (show Due.delay ≠ .output from nofun)]
      exact listed nofun (by simp [stageEvents]))
  have run : takeKind .delay (firstSampling s (latch i s)) = takeDue .delay (out.withDue (out.due.erase .delay)) := by
    unfold takeKind
    rw [first]
    exact taken
  rw [boundary_one due others, run, outDue]
  · rfl
  · intro e mem
    rw [run, show (takeDue .delay _).due = _ from delayStage_due _] at mem
    exact none e mem

/-- Settles O46. -/
theorem stepsChangeTheDelayByOneBlock : Obligations.StepsChangeTheDelayByOneBlock := by
  unfold Obligations.StepsChangeTheDelayByOneBlock
  intro notified
  refine ⟨fun s now ratio r w => ?_, fun i later s due others clock => ?_⟩
  · have due : s.dly.stepDue = true := (stepDue_iff _).2 ratio
    have row {occasion : State → Bool} (run : s.dly.state ≠ .frozen) (o : occasion s = true) :
        stageRow .delay occasion s = delayStage (s.withDue (s.due.erase .delay)) := by
      refine stageRow_of_due (d := .delay) ?_ now.1 (fun e _ same => by cases e <;> first | rfl | cases same) o
      show (if (clockFirst s).dly.state = .frozen then takeOne .output (clockFirst s) else clockFirst s) = s
      rw [clockFirst_of_not now.2, if_neg run]
    let b := s.audio.prev.programme
    let u := s.withDue (s.due.erase .delay)
    have frame := delayStage_frame u
    have rest : (delayStage u).out = s.out ∧ (delayStage u).log = s.log ∧ (delayStage u).lsw = s.lsw ∧ (delayStage u).air = s.air ∧
        (delayStage u).cue = s.cue ∧ (delayStage u).alc = s.alc ∧ (delayStage u).lnk = s.lnk :=
      ⟨(congrArg State.out frame :), (congrArg State.log frame :), (congrArg State.lsw frame :), (congrArg State.air frame :),
        (congrArg State.cue frame :), (congrArg State.alc frame :), (congrArg State.lnk frame :)⟩
    have step {d : DLY} {x : Block} (h : delayStage u = emit x (dlyBecomes d u)) :
        (delayStage u).dly = { d with last := some x } ∧ (delayStage u).audio.cur.delayed = some x ∧ notified s (delayStage u) := by
      have dly : (delayStage u).dly = { d with last := some x } := by
        rw [h]
        exact (congrArg (fun e : DLY => { e with last := some x }) (dlyBecomes_reads d u).1 :)
      obtain ⟨same, other⟩ := notified_of_dlyBecomes (d := d) (s := u)
      refine ⟨dly, by rw [h]; rfl, ?_, ?_⟩
      · rw [dly, h]
        exact same
      · rw [dly, h]
        exact other
    refine ⟨fun state target small => ?_, fun state some => ?_⟩
    · let d : DLY := { s.dly.put b with stepCount := 0 }
      have delay : d.delay = s.dly.delay + 1 := delay_after_put (b := b) r w small
      have after : d.afterStep = { d with state := if s.dly.delay + 1 = s.dly.target then .run .engaged else .run .building } := by
        rw [afterStep_eq rfl, delay]
        congr 1
        by_cases reached : s.dly.delay + 1 = s.dly.target
        · rw [if_pos (show s.dly.delay + 1 = d.target from reached), if_pos reached, settled_of_reached (delay.trans reached),
            if_pos (.inl target)]
        · rw [if_neg (show ¬ s.dly.delay + 1 = d.target from reached), if_neg reached]
          exact state
      obtain ⟨dly, delayed, notice⟩ := step (d := d.afterStep) ((delayStage_building (s := u) state).trans (if_pos due))
      rw [after] at dly
      refine ⟨_, congrArg Host.Outcome.next (row (by rw [state]; nofun) (by simp [buildDue, state, due])), ?_, ?_, ?_, ?_, ?_,
        fun x last => ?_, ?_, notice, rest⟩
      · rw [dly]; rfl
      · rw [dly]; rfl
      · rw [dly]; rfl
      · rw [dly]; exact delay
      · rw [dly]
      · rw [delayed, show u.dly.last = _ from last]; rfl
      · rw [dly]
    · let d : DLY := { { s.dly.put b with stepCount := 0 } with readPos := cellAfter s.dly.readPos 2 }
      have delay : d.delay = s.dly.delay - 1 := by
        simp only [d, DLY.put, cellAfter, DLY.delay, Config.ringCells] at *
        omega
      have after : d.afterStep = { d with state := if s.dly.delay - 1 ≠ s.dly.target then .run .shrinking
          else if 1 ≤ s.dly.target ∨ (s.dly.gateAir = true ∧ s.dly.gateLive = false) then .run .engaged else .run .bypass } := by
        rw [afterStep_eq rfl, delay]
        congr 1
        by_cases reached : s.dly.delay - 1 = s.dly.target
        · rw [if_pos (show s.dly.delay - 1 = d.target from reached), if_neg (not_not.2 reached),
            settled_of_reached (delay.trans reached), apply_ite DelayState.run]
          rfl
        · rw [if_neg (show ¬ s.dly.delay - 1 = d.target from reached), if_pos reached]
          exact state
      obtain ⟨dly, delayed, notice⟩ := step (d := d.afterStep) ((delayStage_shrinking (s := u) state).trans (if_pos due))
      rw [after] at dly
      refine ⟨_, congrArg Host.Outcome.next (row (by rw [state]; nofun) (by simp [shrinkDue, state, due])), ?_, ?_, ?_, ?_, ?_, ?_, ?_,
        notice, rest⟩
      · rw [dly]; rfl
      · rw [dly]; rfl
      · rw [dly]; rfl
      · rw [dly]; exact delay
      · rw [dly]
      · rw [delayed, dly]; rfl
      · rw [dly]
  · have frame := atBoundary_frame i s
    have dly : (atBoundary i s).dly = s.dly := (congrArg State.dly frame :)
    have audio : (atBoundary i s).audio = (latch i s).audio := (congrArg State.audio frame :)
    have sampled (keys : KeysSampled s) : atBoundary i s = latch i s := atBoundary_of_sampled due keys clock
    by_cases frozen : s.dly.state = .frozen
    · have run := boundary_delay_frozen (i := i) due others frozen
      generalize hv : (atBoundary i s).withDue ((atBoundary i s).due.erase .output) = v at run
      have alone := outAlone_outputStage v
      have out : (outputStage v).dly = s.dly := by rw [alone.dly, ← hv]; exact dly
      have last : delayStage ((outputStage v).withDue (((atBoundary i s).due.erase .output).erase .delay)) = _ :=
        delayStage_frozen (by show (outputStage v).dly.state = _; rw [out]; exact frozen)
      have air : (outputStage v).audio.cur.air = airBlock v := by rw [alone.audio]; rfl
      refine ⟨_, congrArg Host.Outcome.next (run.trans last), fun _ => ⟨out, rfl, fun alert => ?_⟩,
        fun h => absurd (h.symm.trans frozen) nofun, fun h => absurd (h.symm.trans frozen) nofun,
        fun h => by rcases h with h | h <;> exact absurd (h.symm.trans frozen) nofun, fun h => absurd frozen h⟩
      show (outputStage v).audio.cur.air.audio = _ ∧ (outputStage v).audio.cur.air.tag.origin = _
      have block := airBlock_of_alert (s := v) (by rw [← hv]; exact (atBoundary_alertFlag i s).trans alert)
      rw [air]
      refine ⟨block.1.trans ?_, block.2⟩
      rw [← hv]
      exact (congrArg (·.prev.inputs.alert) audio :)
    · have run := boundary_delay (i := i) due others frozen
      generalize hu : (atBoundary i s).withDue ((atBoundary i s).due.erase .delay) = u at run
      have uDly : u.dly = s.dly := by rw [← hu]; exact dly
      have uPrev : u.audio.prev.programme = s.audio.cur.programme := by rw [← hu]; exact (congrArg (·.prev.programme) audio :)
      obtain ⟨-, bypass, engaged, counting⟩ := delayStage_ordinary u
      rw [uDly, uPrev] at bypass engaged counting
      refine ⟨_, congrArg Host.Outcome.next run, fun h => absurd h frozen, bypass, engaged, counting, fun _ => ⟨?_, fun keys => ?_⟩⟩
      · rw [delayStage_air, ← hu]
        exact (congrArg (·.cur.air) audio :)
      · have frame := delayStage_frame u
        subst hu
        rw [sampled keys] at frame ⊢
        exact ⟨(congrArg State.out frame :), (congrArg State.log frame :)⟩

end Sys2Proof.Machine
end

section
/-! The site sequencer: how a stage begins, how one is abandoned, and the requests that start a sequence (R167, R168, R173 to R182). -/

namespace Sys2Proof.Machine

open Sys2Proof

/-! ### The resource table -/

/-- Some resources are commanded ON or OFF. -/
def SITE.command (x : SITE) (v : Bool) (rs : List Nat) : SITE :=
  rs.foldl (fun x r => x.modify r fun w => { w with commanded := v }) x

theorem resource_modify (x : SITE) (r : Nat) (f : Resource → Resource) (len : r < x.resources.length) (q : Nat) :
    (x.modify r f).resource q = if q = r then f (x.resource r) else x.resource q := by
  unfold SITE.modify SITE.resource
  dsimp only
  rw [List.getD_eq_getElem?_getD, List.getElem?_modify]
  by_cases same : r = q
  · subst same
    simp [List.getElem?_eq_getElem len]
  · simp [same, Ne.symm same]

theorem command_frame (x : SITE) (v : Bool) (rs : List Nat) : { x.command v rs with resources := x.resources } = x := by
  induction rs generalizing x with
  | nil => rfl
  | cons r rs ih => exact (congrArg (fun y : SITE => { y with resources := x.resources }) (ih (x.modify r _)) :)

theorem command_length (x : SITE) (v : Bool) (rs : List Nat) : (x.command v rs).resources.length = x.resources.length := by
  induction rs generalizing x with
  | nil => rfl
  | cons r rs ih => exact (ih (x.modify r _)).trans (List.length_modify ..)

theorem command_resource {x : SITE} {v : Bool} {rs : List Nat} (len : ∀ r ∈ rs, r < x.resources.length) (q : Nat) :
    (x.command v rs).resource q = { x.resource q with commanded := if q ∈ rs then v else (x.resource q).commanded } := by
  induction rs generalizing x with
  | nil => rfl
  | cons r rs ih =>
    refine (ih (x := x.modify r fun w => { w with commanded := v }) fun m mem => ?_).trans ?_
    · exact (len m (List.mem_cons_of_mem _ mem)).trans_eq (List.length_modify ..).symm
    · rw [resource_modify _ _ _ (len r List.mem_cons_self)]
      by_cases same : q = r
      · subst same
        simp
      · simp [same]

/-- The commands a stage begins with: all ON, all OFF, or one power step. -/
def Uniform (cs : List SiteCommand) : Prop :=
  (∃ rs : List Nat, cs = rs.map .on) ∨ (∃ rs : List Nat, cs = rs.map .off) ∨ ∃ n, cs = [.power n]

/-- A command is for a resource of the table. -/
def InTable (cs : List SiteCommand) : Prop := ∀ r, .on r ∈ cs ∨ .off r ∈ cs → r < 8

theorem foldl_on (rs : List Nat) (x : SITE) : (rs.map .on).foldl SITE.obey x = x.command true rs := List.foldl_map
theorem foldl_off (rs : List Nat) (x : SITE) : (rs.map .off).foldl SITE.obey x = x.command false rs := List.foldl_map

/-- A stage's commands write the commanded values of their resources alone (R177). -/
theorem obey_frame {cs : List SiteCommand} (uniform : Uniform cs) (x : SITE) :
    { cs.foldl SITE.obey x with resources := x.resources } = x := by
  rcases uniform with ⟨rs, rfl⟩ | ⟨rs, rfl⟩ | ⟨n, rfl⟩
  · rw [foldl_on]; exact command_frame ..
  · rw [foldl_off]; exact command_frame ..
  · rfl

theorem obey_length {cs : List SiteCommand} (uniform : Uniform cs) (x : SITE) :
    (cs.foldl SITE.obey x).resources.length = x.resources.length := by
  rcases uniform with ⟨rs, rfl⟩ | ⟨rs, rfl⟩ | ⟨n, rfl⟩
  · rw [foldl_on]; exact command_length ..
  · rw [foldl_off]; exact command_length ..
  · rfl

theorem obey_resource {cs : List SiteCommand} (uniform : Uniform cs) {x : SITE} (inTable : InTable cs)
    (len : x.resources.length = 8) (q : Nat) : (cs.foldl SITE.obey x).resource q = { x.resource q with
      commanded := if .on q ∈ cs then true else if .off q ∈ cs then false else (x.resource q).commanded } := by
  rcases uniform with ⟨rs, rfl⟩ | ⟨rs, rfl⟩ | ⟨n, rfl⟩
  · rw [foldl_on, command_resource fun r mem => len ▸ inTable r (.inl (List.mem_map_of_mem mem))]
    simp
  · rw [foldl_off, command_resource fun r mem => len ▸ inTable r (.inr (List.mem_map_of_mem mem))]
    simp
  · simp [SITE.obey]

/-! ### A stage begins (R167, R168, R177) -/

/-- LNK after its head has been considered (R168). -/
def LNK.considered (x : LNK) (boundaryNo : Nat) : LNK :=
  if x.outstanding.isNone ∧ x.queue ≠ [] ∧ (x.state = .up ∨ x.state = .degraded) then
    { x with outstanding := some ⟨x.nextNumber, boundaryNo, none⟩, nextNumber := (x.nextNumber + 1) % 16 }
  else x

theorem considerOutstanding_eq (s : State) : considerOutstanding s = s.withLnk (s.lnk.considered s.boundaryNo) := by
  unfold considerOutstanding LNK.considered
  split <;> rfl

theorem considered_queue (x : LNK) (n : Nat) : (x.considered n).queue = x.queue := by
  unfold LNK.considered
  split <;> rfl

/-- The stage that begins, its commands put while LNK has room. -/
def firstStage (kind : StageKind) (slot : Option Nat) (step : Nat) (cs : List SiteCommand) (s : State) : Stage :=
  { kind := kind, slot := slot, step := step, toPut := cs.drop (8 - s.lnk.queue.length)
    awaiting := cs.take (8 - s.lnk.queue.length), age := 0
    commands := !cs.isEmpty
    offs := if kind = .downSlot then cs.filterMap SiteCommand.resource else []
    prior := (cs.filterMap SiteCommand.resource).map fun r => (r, (s.site.resource r).commanded)
    id := s.site.nextStage, begun := s.boundaryNo }

theorem beginStage_eq (kind : StageKind) (slot : Option Nat) (step : Nat) (cs : List SiteCommand) (s : State) :
    beginStage kind slot step cs s = { s with
      site := { cs.foldl SITE.obey s.site with
        nextStage := s.site.nextStage + 1, stage := some (firstStage kind slot step cs s) }
      lnk := ({ s.lnk with queue := s.lnk.queue ++ (cs.take (8 - s.lnk.queue.length)).map fun c =>
        ⟨c, s.site.nextStage⟩ } : LNK).considered s.boundaryNo } := considerOutstanding_eq _

/-- A stage that still awaits a command is not confirmed. -/
theorem confirmed_of_awaiting {x : SITE} {st : Stage} (h : st.awaiting ≠ []) : x.confirmed st = false := by
  unfold SITE.confirmed
  cases eq : st.awaiting with
  | nil => exact absurd eq h
  | cons => simp

theorem checkStage_of_unconfirmed {s : State} {st : Stage} (stage : s.site.stage = some st) (no : s.site.confirmed st = false) :
    checkStage s = s := by
  unfold checkStage runStages
  simp only [stage, no]
  rfl

theorem checkStage_of_none {s : State} (stage : s.site.stage = none) : checkStage s = s := by
  unfold checkStage runStages
  rw [stage]

/-- A stage that begins with a command in a queue that has room is not confirmed at once. -/
theorem confirmed_firstStage {kind : StageKind} {slot : Option Nat} {step : Nat} {cs : List SiteCommand} {s : State} (x : SITE)
    (any : cs ≠ []) (room : s.lnk.queue.length < 8) : x.confirmed (firstStage kind slot step cs s) = false := by
  refine confirmed_of_awaiting ?_
  show cs.take (8 - s.lnk.queue.length) ≠ []
  rw [ne_eq, List.take_eq_nil_iff, not_or]
  exact ⟨by omega, any⟩

theorem checkStage_beginStage {kind : StageKind} {slot : Option Nat} {step : Nat} {cs : List SiteCommand} {s : State}
    (any : cs ≠ []) (room : s.lnk.queue.length < 8) :
    checkStage (beginStage kind slot step cs s) = beginStage kind slot step cs s := by
  refine checkStage_of_unconfirmed (st := firstStage kind slot step cs s) ?_ (confirmed_firstStage _ any room)
  rw [beginStage_eq]

/-- A stage begun with LNK's queue empty is held as R177 has it, seen from a state whose queue and commanded values it began on. -/
theorem stageHeld_beginStage {kind : StageKind} {slot : Option Nat} {step : Nat} {cs : List SiteCommand} {s u : State}
    (uniform : Uniform cs) (inTable : InTable cs) (few : cs.length ≤ 8) (any : cs ≠ [])
    (frame : { u with site := s.site, log := s.log, due := s.due, pi := s.pi } = s)
    (commanded : ∀ r, (u.site.resource r).commanded = (s.site.resource r).commanded) (len : u.site.resources.length = 8)
    (queue : s.lnk.queue = []) (out : s.lnk.outstanding = none) :
    StageHeld kind slot cs s (beginStage kind slot step cs u) := by
  have lnk : u.lnk = s.lnk := (congrArg State.lnk frame :)
  have no : u.boundaryNo = s.boundaryNo := (congrArg State.boundaryNo frame :)
  have take : cs.take (8 - u.lnk.queue.length) = cs := by
    rw [lnk, queue]
    exact List.take_of_length_le few
  have drop : cs.drop (8 - u.lnk.queue.length) = [] := by
    rw [lnk, queue]
    exact List.drop_eq_nil_of_le few
  rw [beginStage_eq]
  refine ⟨⟨_, rfl, rfl, rfl, drop, take, rfl, no⟩, ?_, ?_, fun r small => ?_, (congrArg State.tb frame :), (congrArg State.air frame :),
    (congrArg State.cue frame :), (congrArg State.lsw frame :), (congrArg State.dly frame :), (congrArg State.alc frame :),
    (congrArg State.out frame :)⟩
  · show (LNK.considered _ _).queue.map _ = _
    rw [considered_queue, take, lnk, queue, List.nil_append, List.map_map]
    exact List.map_id cs
  · show (LNK.considered _ _).outstanding = _
    rw [take, lnk, queue, no]
    unfold LNK.considered
    by_cases sends : s.lnk.state = .up ∨ s.lnk.state = .degraded
    · rw [if_pos sends, if_pos ⟨by simp [out], by simpa using any, sends⟩]
    · rw [if_neg sends, if_neg fun h => sends h.2.2]
      exact out
  · show ((cs.foldl SITE.obey u.site).resource r).commanded = _
    rw [obey_resource uniform inTable len, commanded]

/-! ### The lists of commands -/

theorem those_lt {x : SITE} {p : Resource → Bool} {r : Nat} (mem : r ∈ x.those p) : r < 8 :=
  List.mem_range.1 (List.mem_filter.1 mem).1

theorem those_congr {x y : SITE} (h : x.resources = y.resources) (p : Resource → Bool) : x.those p = y.those p := by
  unfold SITE.those SITE.resource
  rw [h]

theorem uniform_on (rs : List Nat) : Uniform (rs.map .on) := .inl ⟨rs, rfl⟩
theorem uniform_off (rs : List Nat) : Uniform (rs.map .off) := .inr (.inl ⟨rs, rfl⟩)
theorem uniform_power (n : Nat) : Uniform [.power n] := .inr (.inr ⟨n, rfl⟩)

theorem inTable_on {rs : List Nat} (h : ∀ r ∈ rs, r < 8) : InTable (rs.map .on) := fun r mem => h r (by simpa using mem)
theorem inTable_off {rs : List Nat} (h : ∀ r ∈ rs, r < 8) : InTable (rs.map .off) := fun r mem => h r (by simpa using mem)
theorem inTable_power (n : Nat) : InTable [.power n] := fun r mem => by simp at mem

theorem filter_range_length_le (p : Nat → Bool) : ((List.range 8).filter p).length ≤ 8 :=
  (List.length_filter_le ..).trans_eq List.length_range

/-! ### The site state changes (R174) -/

theorem siteChange_eq (new : SiteState) (cause : SiteCause) (s : State) : siteChange new cause s =
    raise .siteState (raise .logNew ((s.withSite { s.site with state := new }).withLog
      (s.log.append (stamp s) .siteState .none (.site s.site.state new cause)))) := rfl

theorem siteChange_frame (new : SiteState) (cause : SiteCause) (s : State) :
    { siteChange new cause s with site := s.site, log := s.log, pi := s.pi } = s := rfl

theorem siteChange_flag (new : SiteState) (cause : SiteCause) {s : State} {q : PortId} (high : (s.port q).init = .high) :
    ((siteChange new cause s).port q).flags.getLsbD 12 = true := by
  rw [siteChange_eq, raise_port, raise_port]
  exact (raise_flag .siteState (n := 12) (raise_flag .logNew (n := 12) high).2).1.2 (.inl rfl)

theorem beginStage_pi (kind : StageKind) (slot : Option Nat) (step : Nat) (cs : List SiteCommand) (s : State) :
    (beginStage kind slot step cs s).pi = s.pi := by rw [beginStage_eq]

theorem beginStage_log (kind : StageKind) (slot : Option Nat) (step : Nat) (cs : List SiteCommand) (s : State) :
    (beginStage kind slot step cs s).log = s.log := by rw [beginStage_eq]

/-- The fields of SITE a stage's beginning leaves. -/
theorem beginStage_site {kind : StageKind} {slot : Option Nat} {step : Nat} {cs : List SiteCommand} {s : State} (uniform : Uniform cs) :
    { (beginStage kind slot step cs s).site with
      resources := s.site.resources, nextStage := s.site.nextStage, stage := s.site.stage } = s.site := by
  rw [beginStage_eq]
  exact (congrArg (fun x : SITE => { x with nextStage := s.site.nextStage, stage := s.site.stage }) (obey_frame uniform s.site) :)

/-- A stage begun after a change of the site state, with LNK's queue empty (R174, R177). -/
theorem stageBegun_of {new : SiteState} {cause : SiteCause} {kind : StageKind} {slot : Option Nat} {step : Nat}
    {cs : List SiteCommand} {s u : State} (uniform : Uniform cs) (inTable : InTable cs) (few : cs.length ≤ 8) (any : cs ≠ [])
    (state : u.site.state = new) (log : u.log = s.log.append (stamp s) .siteState .none (.site s.site.state new cause))
    (flags : ∀ p, (s.port p).init = .high → (u.port p).flags.getLsbD 12 = true)
    (frame : { u with site := s.site, log := s.log, due := s.due, pi := s.pi } = s)
    (commanded : ∀ r, (u.site.resource r).commanded = (s.site.resource r).commanded) (len : u.site.resources.length = 8)
    (queue : s.lnk.queue = []) (out : s.lnk.outstanding = none) :
    StageBegun new cause kind slot cs s (beginStage kind slot step cs u) := by
  refine ⟨?_, (beginStage_log ..).trans log, fun p high => ?_,
    stageHeld_beginStage uniform inTable few any frame commanded len queue out⟩
  · exact (congrArg SITE.state (beginStage_site uniform) :).trans state
  · unfold State.port
    rw [beginStage_pi]
    exact flags p high

/-- The change of the site state before a stage, in a state that differs from another in SITE alone. -/
theorem siteChange_after {s v : State} (new : SiteState) (cause : SiteCause) (frame : { v with site := s.site } = s)
    (state : v.site.state = s.site.state) :
    (siteChange new cause v).log = s.log.append (stamp s) .siteState .none (.site s.site.state new cause) ∧
    (∀ p, (s.port p).init = .high → ((siteChange new cause v).port p).flags.getLsbD 12 = true) ∧
    { siteChange new cause v with site := s.site, log := s.log, due := s.due, pi := s.pi } = s := by
  have log : v.log = s.log := (congrArg State.log frame :)
  have tb : v.tb = s.tb := (congrArg State.tb frame :)
  have pi : v.pi = s.pi := (congrArg State.pi frame :)
  refine ⟨?_, fun p high => siteChange_flag new cause ?_, (congrArg (fun u : State => { u with log := s.log, due := s.due, pi := s.pi }) frame :)⟩
  · show v.log.append (stamp v) .siteState .none (.site v.site.state new cause) = _
    unfold stamp
    rw [log, tb, state]
  · unfold State.port
    rw [pi]
    exact high

/-- A stage begun right after a change of the site state. -/
theorem stageBegun_siteChange {new : SiteState} {cause : SiteCause} {kind : StageKind} {slot : Option Nat} {step : Nat}
    {cs : List SiteCommand} {s v : State} (uniform : Uniform cs) (inTable : InTable cs) (few : cs.length ≤ 8) (any : cs ≠ [])
    (frame : { v with site := s.site } = s) (state : v.site.state = s.site.state)
    (resources : v.site.resources = s.site.resources) (len : s.site.resources.length = 8)
    (queue : s.lnk.queue = []) (out : s.lnk.outstanding = none) :
    StageBegun new cause kind slot cs s (beginStage kind slot step cs (siteChange new cause v)) := by
  obtain ⟨log, flags, frame⟩ := siteChange_after new cause frame state
  refine stageBegun_of uniform inTable few any rfl log flags frame (fun r => ?_) (by rw [← len, ← resources]; rfl) queue out
  show (v.site.resource r).commanded = _
  unfold SITE.resource
  rw [resources]

/-! ### The sequences that start (R179, R181, R182) -/

/-- What STARTING commands ON in a slot (R179). -/
theorem upCommands_starting {x : SITE} (h : x.state = .starting) (slot : Nat) :
    upCommands x slot = (x.those fun r => decide (r.slot = some slot)).map .on := by
  unfold upCommands
  rw [h]
  simp

/-- What RAISING commands ON in a slot (R182). -/
theorem upCommands_raising {x : SITE} (h : x.state ≠ .starting) (slot : Nat) :
    upCommands x slot = (x.those fun r => decide (r.slot = some slot) && !decide (r.reported = .on)).map .on := by
  unfold upCommands
  simp [h]

/-- RAISING begins with a resource of slot 0 to bring up (R182). -/
theorem startRaising_begun {cause : SiteCause} {s : State}
    (any : s.site.those (fun r => decide (r.slot = some 0) && !decide (r.reported = .on)) ≠ [])
    (queue : s.lnk.queue = []) (out : s.lnk.outstanding = none) (len : s.site.resources.length = 8) :
    checkStage (startRaising cause s) = startRaising cause s ∧ StageBegun .raising cause .upSlot (some 0)
      ((s.site.those fun r => decide (r.slot = some 0) && !decide (r.reported = .on)).map .on) s (startRaising cause s) := by
  have commands : upCommands (siteChange .raising cause s).site 0 =
      (s.site.those fun r => decide (r.slot = some 0) && !decide (r.reported = .on)).map .on := upCommands_raising (by nofun) 0
  unfold startRaising beginUp
  rw [commands]
  have any' : (s.site.those fun r => decide (r.slot = some 0) && !decide (r.reported = .on)).map SiteCommand.on ≠ [] := by simpa using any
  refine ⟨checkStage_beginStage any' (by rw [show (siteChange .raising cause s).lnk = s.lnk from rfl, queue]; decide), ?_⟩
  exact stageBegun_siteChange (uniform_on _) (inTable_on fun r mem => those_lt mem)
    ((List.length_map ..).trans_le (filter_range_length_le _)) any' rfl rfl rfl len queue out

/-- LOWERING begins (R181). -/
theorem startLowering_begun {cause : SiteCause} {s : State} (queue : s.lnk.queue = []) (out : s.lnk.outstanding = none)
    (len : s.site.resources.length = 8) :
    checkStage (startLowering cause s) = startLowering cause s ∧
    (startLowering cause s).site.stepBeforeLow = s.site.power.getD s.site.stepBeforeLow ∧
    StageBegun .lowering cause .power none [.power s.site.lowStep] s (startLowering cause s) := by
  unfold startLowering beginPower
  generalize hv : s.withSite { s.site with stepBeforeLow := s.site.power.getD s.site.stepBeforeLow } = v
  have site : v.site = { s.site with stepBeforeLow := s.site.power.getD s.site.stepBeforeLow } := by rw [← hv]; rfl
  have lnk : v.lnk = s.lnk := by rw [← hv]; rfl
  have step : powerStep (siteChange .lowering cause v).site = s.site.lowStep := by
    show v.site.lowStep = _
    rw [site]
  rw [step]
  refine ⟨checkStage_beginStage (by simp) (by rw [show (siteChange .lowering cause v).lnk = v.lnk from rfl, lnk, queue]; decide), ?_,
    stageBegun_siteChange (uniform_power _) (inTable_power _) (by simp) (by simp) (by rw [← hv]; rfl) (by rw [site]) (by rw [site])
      len queue out⟩
  refine (congrArg SITE.stepBeforeLow (beginStage_site (uniform_power _)) :).trans ?_
  show v.site.stepBeforeLow = _
  rw [site]

/-- STARTING begins (R179). -/
theorem starting_begun {s : State} (any : s.site.those (fun r => decide (r.slot = some 0)) ≠ [])
    (queue : s.lnk.queue = []) (out : s.lnk.outstanding = none) (len : s.site.resources.length = 8) :
    let u := siteChange .starting .request (s.withSite { s.site with pendingWake := false })
    (checkStage (beginUp 0 u)).site.pendingWake = false ∧ StageBegun .starting .request .upSlot (some 0)
      ((s.site.those fun r => decide (r.slot = some 0)).map .on) s (checkStage (beginUp 0 u)) := by
  generalize hv : s.withSite { s.site with pendingWake := false } = v
  intro u
  have site : v.site = { s.site with pendingWake := false } := by rw [← hv]; rfl
  have lnk : u.lnk = s.lnk := show v.lnk = s.lnk by rw [← hv]; rfl
  have commands : upCommands u.site 0 = (s.site.those fun r => decide (r.slot = some 0)).map .on := by
    have resources : u.site.resources = s.site.resources := show v.site.resources = _ by rw [site]
    rw [upCommands_starting rfl 0, those_congr resources]
  have any' : (s.site.those fun r => decide (r.slot = some 0)).map SiteCommand.on ≠ [] := by simpa using any
  have run : checkStage (beginUp 0 u) =
      beginStage .upSlot (some 0) 0 ((s.site.those fun r => decide (r.slot = some 0)).map .on) u := by
    unfold beginUp
    rw [commands]
    exact checkStage_beginStage any' (by rw [lnk, queue]; decide)
  rw [run]
  refine ⟨(congrArg SITE.pendingWake (beginStage_site (uniform_on _)) :).trans (congrArg SITE.pendingWake site :), ?_⟩
  exact stageBegun_siteChange (uniform_on _) (inTable_on fun r mem => those_lt mem)
    ((List.length_map ..).trans_le (filter_range_length_le _)) any' (by rw [← hv]; rfl) (by rw [site]) (by rw [site]) len queue out

/-! ### A stage is abandoned and the site stops (R180) -/

/-- Commanded values put back. -/
def SITE.putBack (x : SITE) (undone : List Nat) (prior : List (Nat × Bool)) : SITE :=
  prior.foldl (fun x p => if p.1 ∈ undone then x.modify p.1 fun v => { v with commanded := p.2 } else x) x

theorem putBack_frame (x : SITE) (undone : List Nat) (prior : List (Nat × Bool)) :
    { x.putBack undone prior with resources := x.resources } = x := by
  induction prior generalizing x with
  | nil => rfl
  | cons p prior ih =>
    refine (congrArg (fun y : SITE => { y with resources := x.resources }) (ih (if p.1 ∈ undone then x.modify p.1 _ else x)) :).trans ?_
    split <;> rfl

theorem putBack_nil (x : SITE) (prior : List (Nat × Bool)) : x.putBack [] prior = x := by
  induction prior generalizing x with
  | nil => rfl
  | cons p prior ih => exact (congrArg (SITE.putBack · [] prior) (if_neg (by simp))).trans (ih x)

theorem putBack_length (x : SITE) (undone : List Nat) (prior : List (Nat × Bool)) :
    (x.putBack undone prior).resources.length = x.resources.length := by
  induction prior generalizing x with
  | nil => rfl
  | cons p prior ih =>
    refine (ih (if p.1 ∈ undone then x.modify p.1 _ else x)).trans ?_
    split
    · exact List.length_modify ..
    · rfl

/-- Of values put back for resources each named once, a resource takes its own if its command is undone. -/
theorem putBack_resource {x : SITE} {undone : List Nat} {prior : List (Nat × Bool)} (once : (prior.map (·.1)).Nodup) {q : Nat}
    (small : q < x.resources.length) : (x.putBack undone prior).resource q = { x.resource q with
      commanded := match prior.find? fun p => decide (p.1 = q ∧ q ∈ undone) with
        | some p => p.2
        | none => (x.resource q).commanded } := by
  induction prior generalizing x with
  | nil => rfl
  | cons p prior ih =>
    obtain ⟨fresh, once⟩ := List.nodup_cons.1 once
    have none (h : p.1 = q) : (prior.find? fun p => decide (p.1 = q ∧ q ∈ undone)) = none := by
      rw [List.find?_eq_none]
      intro r mem is
      exact fresh (List.mem_map.2 ⟨r, mem, (of_decide_eq_true is).1.trans h.symm⟩)
    show ((if p.1 ∈ undone then x.modify p.1 _ else x).putBack undone prior).resource q = _
    rw [ih once (by split <;> simpa [SITE.modify] using small), List.find?_cons]
    by_cases here : p.1 = q
    · subst here
      rw [none rfl]
      by_cases undo : p.1 ∈ undone
      · simp [undo, resource_modify _ _ _ small]
      · simp [undo]
    · have other : ((if p.1 ∈ undone then x.modify p.1 fun v => { v with commanded := p.2 } else x)).resource q = x.resource q := by
        split
        · by_cases inside : p.1 < x.resources.length
          · rw [resource_modify _ _ _ inside, if_neg (Ne.symm here)]
          · unfold SITE.modify SITE.resource
            rw [List.modify_eq_self (by omega)]
        · rfl
      simp [here, other]

theorem abandonStage_of_none {s : State} (h : s.site.stage = none) : abandonStage s = s := by
  unfold abandonStage
  rw [h]

/-- A stage abandoned: the queued commands behind the outstanding one leave, the values they would have changed are put back. -/
theorem abandonStage_of_some {s : State} {st : Stage} (h : s.site.stage = some st) : abandonStage s = { s with
    lnk := s.lnk.keepOutstanding
    site := { s.site.putBack ((s.lnk.behind.map (·.command) ++ st.toPut).filterMap SiteCommand.resource) st.prior with
      stage := none } } := by
  unfold abandonStage
  rw [h]
  rfl

/-- A resource that a stop commands OFF (R180). -/
def Resource.stops (r : Resource) : Bool := r.sequenced && (r.commanded || decide (r.reported = .on))

/-- The state in which a stop goes to STOPPING: its stage abandoned, the resources to stop noted. -/
def beforeStop (a : State) : State :=
  a.withSite { a.site with pendingWake := false, toStop := a.site.those Resource.stops }

theorem siteChange_toStop (a : State) (stops : List Nat) :
    (siteChange .stopping .request a).withSite { (siteChange .stopping .request a).site with toStop := stops } =
      siteChange .stopping .request (a.withSite { a.site with toStop := stops }) := rfl

/-- The OFF commands of a slot in a stop (R180). -/
theorem downCommands_stopping {x : SITE} (h : x.state = .stopping) (slot : Nat) :
    downCommands x slot = (x.toStop.filter fun r => decide ((x.resource r).slot = some slot)).map .off := if_pos h

/-- The first stage of a stop. -/
def stopStage (a : State) : State :=
  if a.site.sequentialOff then
    beginStage .downSlot (some 7) 0 (((a.site.those Resource.stops).filter fun r => decide ((a.site.resource r).slot = some 7)).map .off)
      (siteChange .stopping .request (beforeStop a))
  else beginStage .downSlot none 0 ((a.site.those Resource.stops).map .off) (siteChange .stopping .request (beforeStop a))

theorem stopSite_eq (s : State) : stopSite s = checkStage (stopStage (abandonStage s)) := by
  unfold stopSite
  generalize abandonStage s = a
  dsimp only
  generalize hw : a.withSite { a.site with pendingWake := false } = w
  have resources : w.site.resources = a.site.resources := by rw [← hw]; rfl
  have sequential : w.site.sequentialOff = a.site.sequentialOff := by rw [← hw]; rfl
  have before : w.withSite { w.site with toStop := a.site.those Resource.stops } = beforeStop a := by rw [← hw]; rfl
  have stops : (siteChange .stopping .request w).site.those
      (fun r => r.sequenced && (r.commanded || decide (r.reported = .on))) = a.site.those Resource.stops :=
    those_congr (x := (siteChange .stopping .request w).site) resources _
  rw [stops, siteChange_toStop, before]
  refine congrArg checkStage ?_
  unfold stopStage
  refine if_congr (by rw [← sequential, ← before]; exact Iff.rfl) ?_ (congrArg (beginStage _ _ _ · _) rfl)
  unfold beginDown
  rw [downCommands_stopping rfl]
  rfl

theorem keepOutstanding_of_empty {x : LNK} (h : x.queue = []) : x.keepOutstanding = x := by
  obtain ⟨⟩ := x
  dsimp only at h
  subst h
  unfold LNK.keepOutstanding
  split <;> rfl

theorem keepOutstanding_of_some {x : LNK} {o : Outstanding} {q : QueuedCommand} {behind : List QueuedCommand}
    (out : x.outstanding = some o) (queue : x.queue = q :: behind) : x.keepOutstanding = { x with queue := [q] } := by
  have kept : (if x.outstanding.isSome then x.queue.take 1 else []) = [q] := by
    rw [out, queue]
    rfl
  unfold LNK.keepOutstanding
  rw [kept]

/-- Abandoning with nothing queued takes the stage alone away. -/
theorem abandonStage_idle {s : State} (queue : s.lnk.queue = []) (out : s.lnk.outstanding = none)
    (stage : ∀ st, s.site.stage = some st → st.toPut = []) :
    abandonStage s = s.withSite { s.site with stage := none } := by
  cases h : s.site.stage with
  | none =>
    rw [abandonStage_of_none h, ← h]
    rfl
  | some st =>
    have lnk : s.lnk.keepOutstanding = s.lnk := keepOutstanding_of_empty queue
    have behind : s.lnk.behind = [] := by
      unfold LNK.behind
      rw [out, queue]
      rfl
    rw [abandonStage_of_some h, lnk, behind, stage st h, List.map_nil, List.nil_append, List.filterMap_nil, putBack_nil]
    rfl

theorem filter_those (x : SITE) (p q : Resource → Bool) : (x.those p).filter (fun r => q (x.resource r)) =
    x.those fun r => q r && p r := by
  unfold SITE.those
  rw [List.filter_filter]

/-- The resources of a slot among those a stop commands OFF. -/
theorem stops_in_slot (x : SITE) (n : Nat) : (x.those Resource.stops).filter (fun r => decide ((x.resource r).slot = some n)) =
    x.those fun r => decide (r.slot = some n) && (r.commanded || decide (r.reported = .on)) := by
  refine (filter_those x Resource.stops fun r => decide (r.slot = some n)).trans ?_
  refine congrArg x.those (funext fun r => ?_)
  by_cases slot : r.slot = some n
  · simp [Resource.stops, Resource.sequenced, slot]
  · simp [slot]

/-- A stop with nothing queued: its one stage begins (R180). -/
theorem stopSite_begun {s : State} (stage : ∀ st, s.site.stage = some st → st.toPut = []) (queue : s.lnk.queue = [])
    (out : s.lnk.outstanding = none) (len : s.site.resources.length = 8) (slot : Option Nat) (rs : List Nat)
    (which : (s.site.sequentialOff = false ∧ slot = none ∧ rs = s.site.those Resource.stops) ∨
      (s.site.sequentialOff = true ∧ slot = some 7 ∧
        rs = s.site.those fun r => decide (r.slot = some 7) && (r.commanded || decide (r.reported = .on))))
    (any : rs ≠ []) : (stopSite s).site.pendingWake = false ∧
    StageBegun .stopping .request .downSlot slot (rs.map .off) s (stopSite s) := by
  generalize hv : beforeStop (s.withSite { s.site with stage := none }) = v
  have site : v.site = { s.site with stage := none, pendingWake := false, toStop := s.site.those Resource.stops } := by
    rw [← hv]
    rfl
  have lnk : (siteChange .stopping .request v).lnk = s.lnk := show v.lnk = s.lnk by rw [← hv]; rfl
  have any' : rs.map SiteCommand.off ≠ [] := by simpa using any
  have run : stopSite s = beginStage .downSlot slot 0 (rs.map .off) (siteChange .stopping .request v) := by
    rw [stopSite_eq, abandonStage_idle queue out stage, ← checkStage_beginStage (slot := slot) any' (by rw [lnk, queue]; decide)]
    refine congrArg checkStage ?_
    rw [← hv]
    rcases which with ⟨together, rfl, rfl⟩ | ⟨sequential, rfl, rfl⟩
    · exact if_neg (by rw [show (s.withSite { s.site with stage := none }).site.sequentialOff = _ from together]; decide)
    · refine (if_pos sequential).trans (congrArg (beginStage _ _ _ · _) (congrArg (List.map _) ?_))
      exact stops_in_slot s.site 7
  have inTable : ∀ r ∈ rs, r < 8 := by
    rcases which with ⟨-, -, rfl⟩ | ⟨-, -, rfl⟩ <;> exact fun r mem => those_lt mem
  have few : rs.length ≤ 8 := by
    rcases which with ⟨-, -, rfl⟩ | ⟨-, -, rfl⟩ <;> exact filter_range_length_le _
  rw [run]
  refine ⟨(congrArg SITE.pendingWake (beginStage_site (uniform_off _)) :).trans (congrArg SITE.pendingWake site :), ?_⟩
  exact stageBegun_siteChange (uniform_off _) (inTable_off inTable) ((List.length_map ..).trans_le few) any' (by rw [← hv]; rfl)
    (by rw [site]) (by rw [site]) len queue out

/-- A stop with a command outstanding: the commands behind it leave, their values are put back, and the first stage's commands go
behind the outstanding one (R180). -/
theorem stopSite_outstanding {s : State} {st : Stage} {o : Outstanding} {q : QueuedCommand} {behind : List QueuedCommand}
    (stage : s.site.stage = some st) (out : s.lnk.outstanding = some o) (queue : s.lnk.queue = q :: behind)
    (len : s.site.resources.length = 8) (slot : Option Nat) (offs : List Nat) (inTable : ∀ r ∈ offs, r < 8) (any : offs ≠ [])
    (stops : stopStage (abandonStage s) =
      beginStage .downSlot slot 0 (offs.map .off) (siteChange .stopping .request (beforeStop (abandonStage s)))) :
    let t := stopSite s
    let put := s.site.putBack ((behind.map (·.command) ++ st.toPut).filterMap SiteCommand.resource) st.prior
    t.site.state = .stopping ∧ t.site.pendingWake = false ∧
    t.log = s.log.append (stamp s) .siteState .none (.site s.site.state .stopping .request) ∧
    (∀ p, (s.port p).init = .high → (t.port p).flags.getLsbD 12 = true) ∧
    (∃ x, t.site.stage = some x ∧ x.kind = .downSlot ∧ x.slot = slot ∧ x.awaiting = (offs.take 7).map .off ∧
      x.toPut = (offs.drop 7).map .off ∧ x.age = 0 ∧ x.begun = s.boundaryNo ∧
      t.lnk = { s.lnk with queue := q :: ((offs.take 7).map fun r => ⟨.off r, x.id⟩) }) ∧
    (∀ r < 8, (t.site.resource r).commanded = if r ∈ offs then false else (put.resource r).commanded) ∧
    t.tb = s.tb ∧ t.air = s.air ∧ t.cue = s.cue ∧ t.lsw = s.lsw ∧ t.dly = s.dly ∧ t.alc = s.alc ∧ t.out = s.out := by
  intro t put
  have abandoned := abandonStage_of_some stage
  rw [show s.lnk.behind = behind by unfold LNK.behind; rw [out, queue]; rfl] at abandoned
  generalize hv : beforeStop (abandonStage s) = v at stops
  have frame : { v with site := s.site, lnk := s.lnk } = s := by rw [← hv, abandoned]; rfl
  have lnk : v.lnk = { s.lnk with queue := [q] } := by
    rw [← hv, abandoned]
    exact keepOutstanding_of_some out queue
  have putFrame : { put with resources := s.site.resources } = s.site := putBack_frame ..
  have state : v.site.state = s.site.state := by rw [← hv, abandoned]; exact (congrArg SITE.state putFrame :)
  have wake : v.site.pendingWake = false := by rw [← hv]; rfl
  have resources : v.site.resources = put.resources := by rw [← hv, abandoned]; rfl
  have after : { (siteChange .stopping .request v) with site := s.site, lnk := s.lnk, log := s.log, pi := s.pi } = s :=
    (congrArg (fun u : State => { u with log := s.log, pi := s.pi }) frame :)
  have run : t = beginStage .downSlot slot 0 (offs.map .off) (siteChange .stopping .request v) := by
    refine (stopSite_eq s).trans ((congrArg checkStage stops).trans (checkStage_beginStage (by simpa using any) ?_))
    rw [show (siteChange .stopping .request v).lnk = v.lnk from rfl, lnk]
    exact (by decide : 1 < 8)
  have length : (siteChange .stopping .request v).lnk.queue.length = 1 := by
    rw [show (siteChange .stopping .request v).lnk = v.lnk from rfl, lnk]
    rfl
  have no : (siteChange .stopping .request v).boundaryNo = s.boundaryNo := (congrArg State.boundaryNo after :)
  rw [run]
  refine ⟨(congrArg SITE.state (beginStage_site (uniform_off _)) :), (congrArg SITE.pendingWake (beginStage_site (uniform_off _)) :).trans wake,
    (beginStage_log ..).trans ?_, fun p high => ?_, ?_, fun r small => ?_, ?_⟩
  · show v.log.append (stamp v) .siteState .none (.site v.site.state .stopping .request) = _
    unfold stamp
    rw [state, show v.log = s.log from (congrArg State.log frame :), show v.tb = s.tb from (congrArg State.tb frame :)]
  · unfold State.port
    rw [beginStage_pi]
    refine siteChange_flag _ _ (?_ : (v.port p).init = .high)
    unfold State.port
    rw [show v.pi = s.pi from (congrArg State.pi frame :)]
    exact high
  · rw [beginStage_eq]
    refine ⟨_, rfl, rfl, rfl, ?_, ?_, rfl, no, ?_⟩
    · show (offs.map SiteCommand.off).take (8 - _) = _
      rw [length, List.map_take]
    · show (offs.map SiteCommand.off).drop (8 - _) = _
      rw [length, List.map_drop]
    · show LNK.considered _ _ = _
      rw [length]
      unfold LNK.considered
      rw [if_neg (by rw [show (siteChange .stopping .request v).lnk = v.lnk from rfl, lnk]; simp [out])]
      have commands (id : Nat) : ((offs.map SiteCommand.off).take (8 - 1)).map (fun c => (⟨c, id⟩ : QueuedCommand)) =
          (offs.take 7).map fun r => ⟨.off r, id⟩ := by rw [← List.map_take, List.map_map]; rfl
      rw [commands, show (siteChange .stopping .request v).lnk = v.lnk from rfl, lnk]
      rfl
  · rw [beginStage_eq]
    show (((offs.map SiteCommand.off).foldl SITE.obey (siteChange .stopping .request v).site).resource r).commanded = _
    have len' : (siteChange .stopping .request v).site.resources.length = 8 := by
      rw [show (siteChange .stopping .request v).site.resources = v.site.resources from rfl, resources, putBack_length, len]
    rw [obey_resource (uniform_off _) (inTable_off inTable) len']
    have same : (siteChange .stopping .request v).site.resource r = put.resource r := by
      show v.site.resources.getD r {} = _
      rw [resources]
      rfl
    rw [same]
    simp
  · rw [beginStage_eq]
    exact ⟨(congrArg State.tb after :), (congrArg State.air after :), (congrArg State.cue after :), (congrArg State.lsw after :),
      (congrArg State.dly after :), (congrArg State.alc after :), (congrArg State.out after :)⟩

/-- Settles O58. -/
theorem siteRequestsStartSequences : Obligations.SiteRequestsStartSequences := by
  refine fun p s => ⟨refusedOff_portsOf s (fun _ => rfl) rfl (by simp) nofun, refusedOff_portsOf s (fun _ => rfl) rfl (by simp) nofun,
    refusedOff_portsOf s (fun _ => rfl) rfl (by simp) nofun, refusedOff_portsOf s (fun _ => rfl) rfl (by simp) nofun,
    fun ab upArrives downArrives lowArrives fullArrives => ?_⟩
  have permitted : p ∈ [PortId.a, .b] := by simpa using ab
  have up {t : State} {x : Reply} (own : ownerSiteUp s = (t, x)) : exec (.siteUp p) s = .next (replyTo p 97 x t) :=
    exec_answers rfl rfl (by simp) nofun permitted upArrives own
  have down {t : State} {x : Reply} (own : ownerSiteDown s = (t, x)) : exec (.siteDown p) s = .next (replyTo p 98 x t) :=
    exec_answers rfl rfl (by simp) nofun permitted downArrives own
  have low {t : State} {x : Reply} (own : ownerSiteLow s = (t, x)) : exec (.siteLow p) s = .next (replyTo p 99 x t) :=
    exec_answers rfl rfl (by simp) nofun permitted lowArrives own
  have full {t : State} {x : Reply} (own : ownerSiteFull s = (t, x)) : exec (.siteFull p) s = .next (replyTo p 100 x t) :=
    exec_answers rfl rfl (by simp) nofun permitted fullArrives own
  have stops (h : s.site.state = .full ∨ s.site.state = .low ∨ s.site.state = .starting ∨ s.site.state = .raising ∨
      s.site.state = .fault) : ownerSiteDown s = (stopSite s, ⟨.pending, []⟩) := by
    unfold ownerSiteDown
    rcases h with h | h | h | h | h <;> rw [h] <;> rfl
  refine ⟨fun h => up (if_neg h), fun h => down ?_, fun h => low (if_neg h), fun h => full (if_neg h),
    fun stage queue out len => ⟨fun state any => ?_, fun state together any => ?_, fun state sequential any => ?_, fun state => ?_,
      fun state any => ?_⟩, fun st state stage idle queue out len => ⟨fun together any => ?_, fun sequential any => ?_⟩,
    fun st o q behind state stage out queue once len => ?_⟩
  · unfold ownerSiteDown
    rcases h with h | h | h | h <;> rw [h] <;> rfl
  · obtain ⟨wake, begun⟩ := starting_begun any queue out len
    exact ⟨_, up (if_pos state), wake, begun⟩
  · obtain ⟨wake, begun⟩ := stopSite_begun (fun st h => by rw [stage] at h; cases h) queue out len none _ (.inl ⟨together, rfl, rfl⟩) any
    exact ⟨_, down (stops (by rcases state with h | h | h <;> simp [h])), wake, begun⟩
  · obtain ⟨wake, begun⟩ := stopSite_begun (fun st h => by rw [stage] at h; cases h) queue out len (some 7) _
      (.inr ⟨sequential, rfl, rfl⟩) any
    exact ⟨_, down (stops (by rcases state with h | h | h <;> simp [h])), wake, begun⟩
  · obtain ⟨run, step, begun⟩ := startLowering_begun (cause := .request) queue out len
    exact ⟨_, low ((if_pos state).trans (congrArg (·, _) run)), step, begun⟩
  · obtain ⟨run, begun⟩ := startRaising_begun (cause := .request) any queue out len
    exact ⟨_, full ((if_pos state).trans (congrArg (·, _) run)), begun⟩
  · obtain ⟨wake, begun⟩ := stopSite_begun (fun x h => by rw [stage] at h; cases h; exact idle) queue out len none _
      (.inl ⟨together, rfl, rfl⟩) any
    exact ⟨_, down (stops (by rcases state with h | h <;> simp [h])), wake, begun⟩
  · obtain ⟨wake, begun⟩ := stopSite_begun (fun x h => by rw [stage] at h; cases h; exact idle) queue out len (some 7) _
      (.inr ⟨sequential, rfl, rfl⟩) any
    exact ⟨_, down (stops (by rcases state with h | h <;> simp [h])), wake, begun⟩
  · intro undone was toStop stopsWith
    have abandoned := abandonStage_of_some stage
    rw [show s.lnk.behind = behind by unfold LNK.behind; rw [out, queue]; rfl] at abandoned
    have back (r : Nat) (small : r < 8) : (abandonStage s).site.resource r = { s.site.resource r with commanded := was r } := by
      rw [abandoned]
      exact putBack_resource once (by rw [len]; exact small)
    have those : (abandonStage s).site.those Resource.stops = toStop := by
      refine List.filter_congr fun r mem => ?_
      rw [back r (List.mem_range.1 mem)]
      rfl
    have inTable : ∀ r ∈ toStop, r < 8 := fun r mem => List.mem_range.1 (List.mem_filter.1 mem).1
    have sequentialOff : (abandonStage s).site.sequentialOff = s.site.sequentialOff := by
      rw [abandoned]
      exact (congrArg SITE.sequentialOff (putBack_frame ..) :)
    have stop {slot : Option Nat} {offs : List Nat} (inside : ∀ r ∈ offs, r < 8) (any : offs ≠ [])
        (h : stopStage (abandonStage s) =
          beginStage .downSlot slot 0 (offs.map .off) (siteChange .stopping .request (beforeStop (abandonStage s)))) :
        stopsWith slot offs := by
      obtain ⟨state', wake, log, flags, first, commanded, rest⟩ := stopSite_outstanding stage out queue len slot offs inside any h
      refine ⟨_, down (stops (by rcases state with h | h <;> simp [h])), state', wake, log, flags, first, fun r small => ?_, rest⟩
      rw [commanded r small, putBack_resource once (by rw [len]; exact small)] <;> rfl
    refine ⟨fun together any => stop inTable any ?_, fun sequential => ?_⟩
    · rw [← those]
      exact if_neg (by rw [sequentialOff, together]; decide)
    · intro last any
      refine stop (fun r mem => inTable r (List.mem_filter.1 mem).1) any ?_
      have slots : ((abandonStage s).site.those Resource.stops).filter
          (fun r => decide (((abandonStage s).site.resource r).slot = some 7)) = last := by
        rw [those]
        refine List.filter_congr fun r mem => ?_
        rw [back r (inTable r mem)]
      rw [← slots]
      exact if_pos (by rw [sequentialOff, sequential])

end Sys2Proof.Machine
end

section
/-! The site sequencer: its stages at a boundary, the times of the low window, and a delivery that confirms a stage (R175 to R185). -/

namespace Sys2Proof.Machine

open Sys2Proof

/-! ### Stages in force (R177) -/

theorem runStages_of_unconfirmed {s : State} {st : Stage} (k : Nat) (stage : s.site.stage = some st)
    (no : s.site.confirmed st = false) : runStages k s = s := by
  cases k with
  | zero => rfl
  | succ k =>
    unfold runStages
    simp only [stage, no]
    rfl

theorem runStages_of_none {s : State} (k : Nat) (stage : s.site.stage = none) : runStages k s = s := by
  cases k with
  | zero => rfl
  | succ k =>
    unfold runStages
    rw [stage]

/-- A confirmed stage gives way. -/
theorem checkStage_of_confirmed {s : State} {st : Stage} (stage : s.site.stage = some st) (yes : s.site.confirmed st = true) :
    checkStage s = runStages 31 (advance st s) := by
  unfold checkStage
  rw [runStages]
  simp only [stage, yes, if_true]

/-- A stage that begins with commands that LNK has room for stays. -/
theorem runStages_beginStage {kind : StageKind} {slot : Option Nat} {step : Nat} {cs : List SiteCommand} {s : State} (k : Nat)
    (any : cs ≠ []) (room : s.lnk.queue.length < 8) :
    runStages k (beginStage kind slot step cs s) = beginStage kind slot step cs s := by
  refine runStages_of_unconfirmed (st := firstStage kind slot step cs s) k ?_ (confirmed_firstStage _ any room)
  rw [beginStage_eq]

/-- No resource of a list is named when none meets the condition. -/
theorem those_isEmpty_iff (x : SITE) (p : Resource → Bool) : (x.those p).isEmpty = true ↔ ∀ r < 8, p (x.resource r) = false := by
  rw [List.isEmpty_iff, SITE.those, List.filter_eq_nil_iff]
  simp [List.mem_range]

/-- An upward slot stage is confirmed by its reports and its length (R177). -/
theorem confirmed_upSlot {x : SITE} {st : Stage} {n : Nat} (kind : st.kind = .upSlot) (slot : st.slot = some n)
    (put : st.toPut = []) (awaiting : st.awaiting = []) : x.confirmed st = true ↔
      (∀ r < 8, ∀ m, (x.resource r).slot = some m → m ≤ n → (x.resource r).reported = .on) ∧
      (st.commands = true → x.slotLength ≤ st.age) := by
  unfold SITE.confirmed
  rw [kind, slot, put, awaiting]
  simp only [List.isEmpty_nil, Bool.true_and, Bool.and_eq_true, those_isEmpty_iff]
  refine and_congr (forall₂_congr fun r _ => ?_) (by cases st.commands <;> simp)
  cases (x.resource r).slot with
  | none => simp
  | some m => simp

theorem confirmed_power {x : SITE} {st : Stage} (kind : st.kind = .power) (put : st.toPut = []) (awaiting : st.awaiting = []) :
    x.confirmed st = true ↔ x.reportedStep = some st.step := by
  unfold SITE.confirmed
  rw [kind, put, awaiting]
  simp

/-- A downward stage is confirmed when the resources it commanded OFF report OFF (R177). -/
theorem confirmed_downSlot {x : SITE} {st : Stage} (kind : st.kind = .downSlot) (put : st.toPut = []) (awaiting : st.awaiting = [])
    (offs : ∀ r ∈ st.offs, (x.resource r).reported = .off) : x.confirmed st = true := by
  unfold SITE.confirmed
  rw [kind, put, awaiting]
  simp only [List.isEmpty_nil, Bool.true_and, List.all_eq_true]
  intro r mem
  simp [offs r mem]

/-- SITE's event at a boundary on a stage that began before it. -/
theorem siteStage_of_begun {s : State} {st : Stage} (stage : s.site.stage = some st) (begun : st.begun < s.boundaryNo) :
    siteStage s =
      let s1 := checkStage (s.withSite { s.site with stage := some { st with age := min 2000 (st.age + 1) } })
      match s1.site.stage with
      | none => s1
      | some now => if now.id = st.id ∧ 2000 ≤ now.age then siteFault (.confirmLimit now.kind now.slot now.step) s1 else s1 := by
  unfold siteStage
  rw [stage]
  simp only [begun, if_true] <;> rfl

/-- The slot length elapses on a confirmed slot stage of STARTING: the next slot's stage begins (R177, R179). -/
theorem siteStage_slotLength {s : State} {st : Stage} {n : Nat} (stage : s.site.stage = some st) (state : s.site.state = .starting)
    (kind : st.kind = .upSlot) (slot : st.slot = some n) (small : n < 7) (put : st.toPut = []) (awaiting : st.awaiting = [])
    (begun : st.begun < s.boundaryNo) (length : st.age + 1 = s.site.slotLength) (age : st.age < 1999)
    (reports : ∀ r < 8, ∀ m, (s.site.resource r).slot = some m → m ≤ n → (s.site.resource r).reported = .on)
    (any : s.site.those (fun r => decide (r.slot = some (n + 1))) ≠ []) (queue : s.lnk.queue = [])
    (out : s.lnk.outstanding = none) (len : s.site.resources.length = 8) :
    (siteStage s).site.state = .starting ∧ (siteStage s).log = s.log ∧
    StageHeld .upSlot (some (n + 1)) ((s.site.those fun r => decide (r.slot = some (n + 1))).map .on) s (siteStage s) := by
  let aged : Stage := { st with age := min 2000 (st.age + 1) }
  let v : State := s.withSite { s.site with stage := some aged }
  have confirmed : v.site.confirmed aged = true :=
    (confirmed_upSlot (st := aged) kind slot put awaiting).2 ⟨reports, fun _ => show s.site.slotLength ≤ min 2000 (st.age + 1) by omega⟩
  have next : advance aged v = beginUp (n + 1) v := by
    unfold advance
    rw [show aged.kind = .upSlot from kind, show aged.slot = some n from slot]
    exact if_pos small
  have commands : upCommands v.site (n + 1) = (s.site.those fun r => decide (r.slot = some (n + 1))).map .on :=
    upCommands_starting state (n + 1)
  have any' : (s.site.those fun r => decide (r.slot = some (n + 1))).map SiteCommand.on ≠ [] := by simpa using any
  have check : checkStage v = beginStage .upSlot (some (n + 1)) 0 ((s.site.those fun r => decide (r.slot = some (n + 1))).map .on) v := by
    rw [checkStage_of_confirmed rfl confirmed, next, beginUp, commands]
    exact runStages_beginStage 31 any' (by rw [show v.lnk = s.lnk from rfl, queue]; exact (by decide : 0 < 8))
  have run : siteStage s = beginStage .upSlot (some (n + 1)) 0 ((s.site.those fun r => decide (r.slot = some (n + 1))).map .on) v := by
    rw [siteStage_of_begun stage begun]
    show (match (checkStage v).site.stage with | none => _ | some now => _) = _
    rw [check, beginStage_eq]
    exact if_neg (fun h => absurd h.2 (by decide : ¬ 2000 ≤ 0))
  rw [run]
  exact ⟨(congrArg SITE.state (beginStage_site (uniform_on _)) :).trans state, beginStage_log ..,
    stageHeld_beginStage (uniform_on _) (inTable_on fun r mem => those_lt mem)
      ((List.length_map ..).trans_le (filter_range_length_le _)) any' rfl (fun _ => rfl) len queue out⟩

/-- A stage unconfirmed at the confirm limit, no command of it left to put and none behind the outstanding one: FAULT (R177, R183). -/
theorem siteStage_confirmLimit {s : State} {st : Stage} (stage : s.site.stage = some st) (begun : st.begun < s.boundaryNo)
    (age : st.age + 1 = 2000) (put : st.toPut = []) (wake : s.site.pendingWake = false)
    (queue : s.lnk.queue = [] ∨ ∃ q o, s.lnk.queue = [q] ∧ s.lnk.outstanding = some o)
    (no : s.site.confirmed { st with age := 2000 } = false) :
    siteStage s = raise .siteState (logEntry .siteState .none (.site s.site.state .fault (.confirmLimit st.kind st.slot st.step))
      { s with site := { s.site with state := .fault, stage := none } }) := by
  let aged : Stage := { st with age := min 2000 (st.age + 1) }
  have full : aged.age = 2000 := by
    show min 2000 (st.age + 1) = 2000
    omega
  let v : State := s.withSite { s.site with stage := some aged }
  have check : checkStage v = v := by
    refine checkStage_of_unconfirmed (st := aged) rfl ?_
    rw [show aged = { st with age := 2000 } from congrArg (fun n => { st with age := n }) full]
    exact no
  have abandoned : abandonStage v = s.withSite { s.site with stage := none } := by
    have kept : s.lnk.keepOutstanding = s.lnk := by
      rcases queue with empty | ⟨q, o, one, out⟩
      · exact keepOutstanding_of_empty empty
      · rw [keepOutstanding_of_some out one, ← one]
    have behind : s.lnk.behind = [] := by
      unfold LNK.behind
      rcases queue with empty | ⟨q, o, one, out⟩
      · rw [empty]; split <;> rfl
      · rw [one, out]; rfl
    rw [abandonStage_of_some (st := aged) rfl, show v.lnk = s.lnk from rfl, kept, behind, show aged.toPut = [] from put, List.map_nil,
      List.nil_append, List.filterMap_nil, putBack_nil]
    rfl
  have asleep : { ({ s.site with stage := none } : SITE) with pendingWake := false } = { s.site with stage := none } := by
    rw [← wake]
  rw [siteStage_of_begun stage begun]
  show (match (checkStage v).site.stage with | none => _ | some now => _) = _
  rw [check]
  refine (if_pos ⟨rfl, full.ge⟩).trans ?_
  unfold siteFault
  rw [abandoned]
  dsimp only
  rw [show (s.withSite { s.site with stage := none }).site.pendingWake = false from wake, when_false,
    show (s.withSite { s.site with stage := none }).site = { s.site with stage := none } from rfl, asleep]
  rfl

/-! ### The times of the low window (R14, R184) -/

/-- A window time with its site state (R184). -/
theorem takeLowTime_full {s : State} (state : s.site.state = .full) (queue : s.lnk.queue = []) (out : s.lnk.outstanding = none)
    (len : s.site.resources.length = 8) :
    (takeLowTime s).site.stepBeforeLow = s.site.power.getD s.site.stepBeforeLow ∧
    StageBegun .lowering .window .power none [.power s.site.lowStep] s (takeLowTime s) := by
  obtain ⟨run, rest⟩ := startLowering_begun (cause := .window) queue out len
  have taken : takeLowTime s = startLowering .window s := (if_pos state).trans run
  rw [taken]
  exact rest

theorem takeLowTime_other {s : State} (state : s.site.state ≠ .full) : takeLowTime s = notTaken .lowTime s := if_neg state

theorem takeFullTime_low {s : State} (state : s.site.state = .low)
    (any : s.site.those (fun r => decide (r.slot = some 0) && !decide (r.reported = .on)) ≠ []) (queue : s.lnk.queue = [])
    (out : s.lnk.outstanding = none) (len : s.site.resources.length = 8) :
    StageBegun .raising .window .upSlot (some 0)
      ((s.site.those fun r => decide (r.slot = some 0) && !decide (r.reported = .on)).map .on) s (takeFullTime s) := by
  obtain ⟨run, begun⟩ := startRaising_begun (cause := .window) any queue out len
  have taken : takeFullTime s = startRaising .window s := (if_pos state).trans run
  rw [taken]
  exact begun

theorem takeFullTime_other {s : State} (state : s.site.state ≠ .low) : takeFullTime s = notTaken .fullTime s := if_neg state

/-- Without a report a window time is due when it is the air clock (R184). -/
theorem windowDue_clock {w : LowWindow} {s : State} (enabled : w.enabled = true) (set : s.tb.clockSet = true)
    (report : s.tb.report = none) (t : Nat) : windowDue w s t = decide (t = s.tb.clock) := by
  unfold windowDue
  rw [enabled, set, report]
  rfl

/-- At a clock set forward, a window time is due that is passed over (R14, R184). -/
theorem windowDue_forward {w : LowWindow} {s : State} {r : ClockReport} (enabled : w.enabled = true) (set : s.tb.clockSet = true)
    (report : s.tb.report = some r) (was : r.wasSet = true) (forward : r.forward = true) (t : Nat) :
    windowDue w s t = r.passes t := by
  unfold windowDue
  rw [enabled, set, report]
  simp [was, forward]

theorem windowDue_backward {w : LowWindow} {s : State} {r : ClockReport} (enabled : w.enabled = true) (set : s.tb.clockSet = true)
    (report : s.tb.report = some r) (back : r.wasSet = false ∨ r.forward = false) (t : Nat) :
    windowDue w s t = decide (t = r.new) := by
  unfold windowDue
  rw [enabled, set, report]
  rcases back with h | h <;> simp [h]

theorem windowDue_off {w : LowWindow} {s : State} (h : w.enabled = false ∨ s.tb.clockSet = false) (t : Nat) :
    windowDue w s t = false := by
  unfold windowDue
  rcases h with h | h <;> simp [h]

/-- A row whose event is due but whose occasion does not arise changes nothing. -/
theorem stageRow_of_no_occasion {k : DueKind} {occasion : State → Bool} {s : State} (h : occasion (takeBefore k s) = false) :
    stageRow k occasion s = s := by
  unfold stageRow
  dsimp only
  rw [h, Bool.and_false]
  rfl

theorem windowTimeDue_of_one {s : State} {w : LowWindow} (due : s.due = [.window w]) :
    windowTimeDue s = (windowDue w s w.low || windowDue w s w.full) := by
  unfold windowTimeDue
  rw [due]
  simp

/-- The row of the low window with its event due: it takes the event when a time is due. -/
theorem exec_windowTimeDue {s : State} {w : LowWindow} (due : s.due = [.window w]) : exec .windowTimeDue s = .next
    (if windowDue w s w.low || windowDue w s w.full then windowStage w { s with due := [] } else s) := by
  refine congrArg Host.Outcome.next ?_
  have occasion := windowTimeDue_of_one due
  cases h : windowDue w s w.low || windowDue w s w.full with
  | false =>
    refine stageRow_of_no_occasion ?_
    rw [show takeBefore .window s = s from clockFirst_of_not (by simp [due])]
    exact occasion.trans h
  | true => exact stageRow_of_one (d := .window w) due nofun (occasion.trans h)

theorem windowStage_low {w : LowWindow} {s : State} (low : windowDue w s w.low = true) (full : windowDue w s w.full = false) :
    windowStage w s = takeLowTime s := by
  unfold windowStage
  rw [low, full]

theorem windowStage_full {w : LowWindow} {s : State} (low : windowDue w s w.low = false) (full : windowDue w s w.full = true) :
    windowStage w s = takeFullTime s := by
  unfold windowStage
  rw [low, full]

theorem windowStage_both {w : LowWindow} {s : State} {r : ClockReport} (report : s.tb.report = some r)
    (low : windowDue w s w.low = true) (full : windowDue w s w.full = true) : windowStage w s =
      if blocksFrom r.old w.low < blocksFrom r.old w.full then takeFullTime (notTaken .lowTime s)
      else takeLowTime (notTaken .fullTime s) := by
  unfold windowStage
  rw [low, full, report]

/-! ### A delivery that confirms a stage (R166, R175, R177) -/

/-- A stage begun in a delivery at a boundary, LNK's queue empty and the link up. -/
theorem stageFollows_beginStage {kind : StageKind} {slot : Option Nat} {step : Nat} {cs : List SiteCommand} {s u : State}
    (uniform : Uniform cs) (inTable : InTable cs) (few : cs.length ≤ 8) (any : cs ≠ []) (no : u.boundaryNo = s.boundaryNo + 1)
    (up : u.lnk.state = .up) (queue : u.lnk.queue = []) (out : u.lnk.outstanding = none)
    (number : u.lnk.nextNumber = s.lnk.nextNumber)
    (commanded : ∀ r < 8, (u.site.resource r).commanded = (s.site.resource r).commanded) (len : u.site.resources.length = 8) :
    StageFollows kind slot step cs s (beginStage kind slot step cs u) := by
  obtain ⟨⟨st, stage, kind', slot', put, awaiting, age, begun⟩, commands, outstanding, values, -⟩ :=
    stageHeld_beginStage (kind := kind) (slot := slot) (step := step) uniform inTable few any rfl (fun _ => rfl) len queue out
  have step' : st.step = step := by
    rw [beginStage_eq] at stage
    cases stage
    rfl
  refine ⟨⟨st, stage, kind', slot', step', put, awaiting, age, begun.trans no⟩, commands, ?_, fun r small => ?_⟩
  · rw [outstanding, if_pos (.inl up), number, no]
  · rw [values r small, commanded r small]

/-- A resource's record after a delivery (R175). -/
theorem record_resource {x : SITE} {f : ReturnFrame} (len : x.resources.length = 8) (len' : f.resources.length = 8) {r : Nat}
    (small : r < 8) : (x.record f).resource r = { x.resource r with reported := f.resources.getD r .off } := by
  unfold SITE.record SITE.resource
  dsimp only
  simp only [List.getD_eq_getElem?_getD]
  rw [List.getElem?_zipWith, List.getElem?_eq_getElem (by omega), List.getElem?_eq_getElem (by omega)]
  rfl

theorem record_length {x : SITE} {f : ReturnFrame} (len : x.resources.length = 8) (len' : f.resources.length = 8) :
    (x.record f).resources.length = 8 := by
  unfold SITE.record
  simp [len, len']

/-- A frame without a fault brings no new one (R175). -/
theorem newFaults_of_none {x : SITE} {f : ReturnFrame} (resources : ∀ r, f.resources.getD r .off ≠ .fault) (mode : f.mode ≠ .fault) :
    newFaults x f = [] := by
  unfold newFaults
  rw [List.append_eq_nil_iff]
  constructor
  · rw [List.map_eq_nil_iff, List.filter_eq_nil_iff]
    intro r _
    rw [decide_eq_false (resources r), Bool.false_and]
    exact Bool.false_ne_true
  · split
    · rfl
    · exact if_neg fun h => mode h.2

/-- A delivery without a fault to a known site: the record, then the stage is checked (R175, R177). -/
theorem siteDelivery_known {s : State} {f : ReturnFrame} (known : s.site.state ≠ .unknown)
    (resources : ∀ r, f.resources.getD r .off ≠ .fault) (mode : f.mode ≠ .fault) :
    siteDelivery f s = checkStage (s.withSite (s.site.record f)) := by
  unfold siteDelivery
  dsimp only
  rw [newFaults_of_none resources mode, if_neg known]
  rfl

/-- LNK after a good frame in UP has been formed and judged, nothing outstanding (R162 to R164). -/
def LNK.delivering (x : LNK) (frame : ForwardFrame) (f : ReturnFrame) : LNK :=
  { x with
    frame := some frame, lastSent := some x.nextSeq, nextSeq := (x.nextSeq + 1) % 256
    good := min 8 (x.good + 1), missing := 0, lastEcho := some f.echo, judged := none, delivered := some f }

/-- LNK's event with a good frame in UP and nothing outstanding is the delivery to SITE, when that leaves the site fill and has no
command out from before (R166, R168, R169). -/
theorem linkStage_up {s : State} {f : ReturnFrame} (up : s.lnk.state = .up) (judged : s.lnk.judged = some f)
    (out : s.lnk.outstanding = none) {t : State}
    (delivery : siteDelivery f (s.withLnk (s.lnk.delivering (forwardFrame s) f)) = t) (fill : f.fill = t.lnk.siteFill)
    (fresh : t.lnk.outstanding = none ∨ ∃ n, t.lnk.outstanding = some ⟨n, t.boundaryNo, none⟩) : linkStage s = t := by
  have judgement : (formFrame s).lnk.judgement = .up := by
    unfold LNK.judgement
    rw [show (formFrame s).lnk.state = .up from up, show (formFrame s).lnk.judged = some f from judged]
    rfl
  have counted : (formFrame s).withLnk { (formFrame s).lnk.counted with judged := none, delivered := some f } =
      s.withLnk (s.lnk.delivering (forwardFrame s) f) := by
    unfold LNK.counted
    rw [show (formFrame s).lnk.judged = some f from judged]
    unfold formFrame LNK.delivering
    rw [out]
    exact congrArg s.withLnk (by simp only [withLnk_lnk, Option.map_none])
  have ack : takeAck f t = t := by
    have none : accepted t.lnk f = none := by
      unfold accepted
      rcases fresh with h | ⟨n, h⟩
      · rw [h]
      · rw [h]
        cases f.ack <;> rfl
    unfold takeAck
    rw [none]
  have stays : takeSiteFill f t = t := if_pos fill
  have early : commandOverdue t = false := by
    unfold commandOverdue
    rcases fresh with h | ⟨n, h⟩
    · rw [h]
    · rw [h]
      simp [Config.commandTimeout]
  unfold linkStage judgePeriod
  rw [judgement, show (formFrame s).lnk.judged = some f from judged]
  dsimp only
  have same : linkGoes .up ((formFrame s).withLnk { (formFrame s).lnk.counted with judged := none }) =
      (formFrame s).withLnk { (formFrame s).lnk.counted with judged := none } := by
    refine if_pos ?_
    show .up = (formFrame s).lnk.counted.state
    unfold LNK.counted
    split <;> exact up.symm
  have arrived : siteDelivery f ((formFrame s).withLnk { (formFrame s).lnk.counted with judged := none, delivered := some f }) = t :=
    (congrArg (siteDelivery f) counted).trans delivery
  have delivered : deliver f ((formFrame s).withLnk { (formFrame s).lnk.counted with judged := none }) = t :=
    (congrArg (fun u => takeAck f (takeSiteFill f u)) arrived).trans ((congrArg (takeAck f) stays).trans ack)
  rw [if_pos (.inl rfl), same, delivered, early, when_false]

/-- The state at a boundary in which SITE has recorded a delivery and its stage is to be checked. -/
def recorded (i : PeriodInput) (f : ReturnFrame) (s : State) : State :=
  let u := (latch i s).withDue ((latch i s).due.erase .link)
  (u.withLnk (u.lnk.delivering (forwardFrame u) f)).withSite (s.site.record f)

/-- A boundary that takes a good frame in UP, nothing being queued: the check of SITE's stage on the record of it. -/
theorem boundary_delivers {i : PeriodInput} {later : List DueKind} {f : ReturnFrame} {s t : State} (due : s.due = [])
    (others : ∀ k, k ≠ .link → k ∈ later) (keys : KeysSampled s) (clock : s.tb.pendingTime = none) (up : s.lnk.state = .up)
    (period : s.lnk.period = some f) (out : s.lnk.outstanding = none) (known : s.site.state ≠ .unknown)
    (resources : ∀ r, f.resources.getD r .off ≠ .fault) (mode : f.mode ≠ .fault) (check : checkStage (recorded i f s) = t)
    (fill : f.fill = t.lnk.siteFill)
    (fresh : t.lnk.outstanding = none ∨ ∃ n, t.lnk.outstanding = some ⟨n, t.boundaryNo, none⟩)
    (same : t.due = (recorded i f s).due) : exec (.blockBoundary i [.link] later) s = .next t := by
  have counted : atBoundary i s = latch i s := atBoundary_of_sampled due keys clock
  have link : linkStage ((latch i s).withDue ((latch i s).due.erase .link)) = t :=
    linkStage_up (s := (latch i s).withDue ((latch i s).due.erase .link)) up period out
      ((siteDelivery_known (s := ((latch i s).withDue ((latch i s).due.erase .link)).withLnk _) known resources mode).trans check) fill fresh
  refine congrArg Host.Outcome.next ((boundary_takes (d := .link) due others rfl (by simp [stageEvents]) ?_).trans ?_)
  · rw [counted]
    intro e mem _
    rw [show takeDue .link _ = t from link, same] at mem
    exact mem
  · rw [counted]
    exact link

theorem tick_init (q : Port) : q.tick.init = q.init := by
  unfold Port.tick
  split <;> rfl

/-- The recorded state but for SITE, LNK and what is due is that of the boundary's counts. -/
theorem recorded_high {i : PeriodInput} {f : ReturnFrame} {s : State} {p : PortId} (high : (s.port p).init = .high) :
    ((recorded i f s).port p).init = .high := by
  cases p <;> exact (tick_init _).trans high

theorem recorded_stamp {i : PeriodInput} {f : ReturnFrame} {s : State} (clock : s.tb.pendingTime = none) :
    stamp (recorded i f s) =
      if s.tb.clockSet then some (if s.tb.clock = 17279999 then 0 else s.tb.clock + 1) else none := by
  show (if s.tb.clockSet then some (if s.tb.pendingTime.isSome then s.tb.clock else clockAfter s.tb.clock) else none) = _
  rw [clock]
  simp [clockAfter, Config.day]

theorem downCommands_lowering {x : SITE} (h : x.state ≠ .stopping) (slot : Nat) : downCommands x slot =
    (x.those fun r => decide (r.slot = some slot) && !r.keepInLow && r.commanded).map .off := if_neg h

/-- The sequenced resources' commanded values are OFF after a stop (R180). -/
theorem stopped_resource (x : SITE) (q : Nat) : ({ x with
    resources := x.resources.map fun r => if r.sequenced then { r with commanded := false } else r } : SITE).resource q =
      { x.resource q with commanded := (x.resource q).commanded && (x.resource q).slot.isNone } := by
  unfold SITE.resource
  simp only [List.getD_eq_getElem?_getD, List.getElem?_map]
  cases x.resources[q]? with
  | none => rfl
  | some v =>
    obtain ⟨slot, keep, label, commanded, reported⟩ := v
    cases slot <;> simp [Resource.sequenced]

theorem powerStep_starting {x : SITE} (h : x.state = .starting) : powerStep x = x.fullStep := by
  unfold powerStep
  rw [h]

theorem powerStep_raising {x : SITE} (h : x.state = .raising) :
    powerStep x = if x.restorePrevious then x.stepBeforeLow else x.fullStep := by
  unfold powerStep
  rw [h]

theorem beginStage_due (kind : StageKind) (slot : Option Nat) (step : Nat) (cs : List SiteCommand) (s : State) :
    (beginStage kind slot step cs s).due = s.due := by rw [beginStage_eq]

theorem beginStage_siteFill (kind : StageKind) (slot : Option Nat) (step : Nat) (cs : List SiteCommand) (s : State) :
    (beginStage kind slot step cs s).lnk.siteFill = s.lnk.siteFill := by
  rw [beginStage_eq]
  show (LNK.considered _ _).siteFill = _
  unfold LNK.considered
  split <;> rfl

theorem beginStage_boundaryNo (kind : StageKind) (slot : Option Nat) (step : Nat) (cs : List SiteCommand) (s : State) :
    (beginStage kind slot step cs s).boundaryNo = s.boundaryNo := by rw [beginStage_eq]

theorem beginStage_reported {kind : StageKind} {slot : Option Nat} {step : Nat} {cs : List SiteCommand} {s : State}
    (uniform : Uniform cs) (inTable : InTable cs) (len : s.site.resources.length = 8) (q : Nat) :
    ((beginStage kind slot step cs s).site.resource q).reported = (s.site.resource q).reported := by
  rw [beginStage_eq]
  show ((cs.foldl SITE.obey s.site).resource q).reported = _
  rw [obey_resource uniform inTable len]

theorem siteChange_high (new : SiteState) (cause : SiteCause) {s : State} {q : PortId} (high : (s.port q).init = .high) :
    ((siteChange new cause s).port q).init = .high := by
  rw [siteChange_eq, raise_port, raise_port]
  exact (raise_flag .siteState (n := 12) (raise_flag .logNew (n := 12) high).2).2

/-! ### What follows a confirmed stage (R177, R179 to R182) -/

theorem advance_power {st : Stage} {s : State} (kind : st.kind = .power) : advance st s =
    if s.site.state = .lowering then beginDown 7 (s.withSite { s.site with power := some st.step })
    else completeSequence (s.withSite { s.site with power := some st.step }) := by
  unfold advance
  rw [kind]
  rfl

theorem advance_down {st : Stage} {s : State} (kind : st.kind = .downSlot) (slot : st.slot = some 0 ∨ st.slot = none) :
    advance st s = completeSequence s := by
  unfold advance
  rw [kind]
  rcases slot with h | h
  · rw [h]; exact if_neg (by decide)
  · rw [h]

theorem advance_up_last {st : Stage} {s : State} (kind : st.kind = .upSlot) (slot : st.slot = some 7) :
    advance st s = beginPower s := by
  unfold advance
  rw [kind, slot]
  exact if_neg (by decide)

theorem completeSequence_full {s : State} (h : s.site.state = .starting ∨ s.site.state = .raising) :
    completeSequence s = siteChange .full .complete (s.withSite { s.site with stage := none }) := by
  unfold completeSequence
  dsimp only [withSite_site]
  rcases h with h | h <;> rw [h]

theorem completeSequence_low {s : State} (h : s.site.state = .lowering) (wake : s.site.pendingWake = false) :
    completeSequence s = siteChange .low .complete (s.withSite { s.site with stage := none }) := by
  unfold completeSequence
  dsimp only [withSite_site]
  rw [h]
  exact if_neg (show ¬ s.site.pendingWake = true by rw [wake]; nofun)

theorem completeSequence_wake {s : State} (h : s.site.state = .lowering) (wake : s.site.pendingWake = true) :
    completeSequence s = startRaising .wake ((siteChange .low .complete (s.withSite { s.site with stage := none })).withSite
      { (siteChange .low .complete (s.withSite { s.site with stage := none })).site with pendingWake := false }) := by
  unfold completeSequence
  dsimp only [withSite_site]
  rw [h]
  exact if_pos wake

theorem completeSequence_off {s : State} (h : s.site.state = .stopping) : completeSequence s =
    siteChange .off .complete (s.withSite { s.site with
      stage := none, resources := s.site.resources.map fun r => if r.sequenced then { r with commanded := false } else r }) := by
  unfold completeSequence
  dsimp only [withSite_site]
  rw [h]
  rfl

/-! ### The stages and the times come due -/

theorem exec_siteRow {s : State} {age : Nat} {st : Stage} (due : s.due = [.site]) (stage : s.site.stage = some st)
    (begun : st.begun < s.boundaryNo) (reached : st.age + 1 = age) :
    stageRow .site (stageReaches age) s = siteStage { s with due := [] } := by
  refine stageRow_of_one (d := .site) due nofun ?_
  unfold stageReaches
  rw [stage]
  exact decide_eq_true ⟨begun, reached⟩

/-- Settles the rows of O59 for a stage and for the low window. -/
theorem site_rows (st : Stage) (s : State) :
    (∀ n, s.due = [.site] → s.site.stage = some st → s.site.state = .starting → st.kind = .upSlot → st.slot = some n → n < 7 →
      st.toPut = [] → st.awaiting = [] → st.begun < s.boundaryNo → st.age + 1 = s.site.slotLength → st.age < 1999 →
      (∀ r < 8, ∀ m, (s.site.resource r).slot = some m → m ≤ n → (s.site.resource r).reported = .on) →
      s.site.those (fun r => decide (r.slot = some (n + 1))) ≠ [] →
      s.lnk.queue = [] → s.lnk.outstanding = none → s.site.resources.length = 8 →
      ∃ t, exec .slotLengthElapsed s = .next t ∧ t.site.state = .starting ∧ t.log = s.log ∧
        StageHeld .upSlot (some (n + 1)) ((s.site.those fun r => decide (r.slot = some (n + 1))).map .on) s t) ∧
    (s.due = [.site] → s.site.stage = some st → s.site.state ≠ .off → s.site.state ≠ .fault → st.begun < s.boundaryNo →
      st.age + 1 = 2000 → st.toPut = [] → s.site.pendingWake = false →
      (∃ q o, s.lnk.queue = [q] ∧ s.lnk.outstanding = some o ∧ q.stage = st.id ∧ st.awaiting = [q.command]) ∨
        (s.lnk.queue = [] ∧ s.lnk.outstanding = none ∧ st.awaiting = [] ∧
          ((st.kind = .power ∧ s.site.reportedStep ≠ some st.step) ∨
           (∃ n m r, st.kind = .upSlot ∧ st.slot = some n ∧ r < 8 ∧ (s.site.resource r).slot = some m ∧ m ≤ n ∧
             (s.site.resource r).reported ≠ .on))) →
      exec .confirmLimit s = .next (raise .siteState (logEntry .siteState .none
        (.site s.site.state .fault (.confirmLimit st.kind st.slot st.step)) { s with
          due := [], site := { s.site with state := .fault, stage := none } }))) := by
  refine ⟨fun n due stage state kind slot small put awaiting begun length age reports any queue out len => ?_,
    fun due stage _ _ begun age put wake out => ?_⟩
  · obtain ⟨state', log, held⟩ := siteStage_slotLength (s := { s with due := [] }) stage state kind slot small put awaiting begun length
      age reports any queue out len
    refine ⟨_, congrArg Host.Outcome.next (?_ : stageRow .site (fun s => stageReaches s.site.slotLength s) s = _), state', log, held⟩
    refine stageRow_of_one (d := .site) due nofun ?_
    unfold stageReaches
    rw [stage]
    exact decide_eq_true ⟨begun, length⟩
  · refine congrArg Host.Outcome.next ((exec_siteRow due stage begun age).trans (siteStage_confirmLimit (s := { s with due := [] }) stage begun
      age put wake ?_ ?_))
    · rcases out with ⟨q, o, queue, out, -⟩ | ⟨queue, -⟩
      · exact .inr ⟨q, o, queue, out⟩
      · exact .inl queue
    · rcases out with ⟨q, o, -, -, -, awaiting⟩ | ⟨-, -, awaiting, ⟨kind, step⟩ | ⟨n, m, r, kind, slot, small, at', le, off⟩⟩
      · exact confirmed_of_awaiting (st := { st with age := 2000 }) (by rw [awaiting]; exact List.cons_ne_nil _ _)
      · rw [← Bool.not_eq_true, confirmed_power (st := { st with age := 2000 }) kind put awaiting]
        exact step
      · rw [← Bool.not_eq_true, confirmed_upSlot (st := { st with age := 2000 }) kind slot put awaiting]
        rintro ⟨reports, -⟩
        exact off (reports r small m at' le)

/-- At a clock set, a window time is due by the change it reports (R14, R184). -/
theorem window_report {w : LowWindow} {s : State} {r : ClockReport} (enabled : w.enabled = true) (set : s.tb.clockSet = true)
    (report : s.tb.report = some r) (t : Nat) :
    let after (x : Nat) : Nat := (x + 17280000 - r.old) % 17280000
    (r.wasSet = true → 1 ≤ after r.new → after r.new ≤ 8640000 → (windowDue w s t = true ↔ 1 ≤ after t ∧ after t ≤ after r.new)) ∧
    (r.wasSet = false ∨ after r.new = 0 ∨ 8640000 < after r.new → (windowDue w s t = true ↔ t = r.new)) := by
  intro after
  have forward : r.forward = true ↔ 1 ≤ after r.new ∧ after r.new ≤ 8640000 := decide_eq_true_iff
  refine ⟨fun was low high => ?_, fun back => ?_⟩
  · rw [windowDue_forward enabled set report was (forward.2 ⟨low, high⟩)]
    exact decide_eq_true_iff
  · rw [windowDue_backward enabled set report (back.imp id fun h => by rw [← Bool.not_eq_true, forward]; omega)]
    exact decide_eq_true_iff

/-- Settles O59. -/
theorem siteStagesAndTimesComeDue : Obligations.SiteStagesAndTimesComeDue := by
  refine ⟨fun st w s => ?_, fun i later s due all => ?_, fun i later f st s due others keys clock up period fill queue out len len'
    resources mode stage put awaiting => ?_⟩
  · obtain ⟨slotLength, confirmLimit⟩ := site_rows st s
    refine ⟨slotLength, confirmLimit, fun due enabled set report apart idle queue out len => ?_, fun due off => ?_,
      fun r due enabled set report apart idle queue out len => ?_⟩
    · let taken : State := { s with due := [] }
      have at' (t : Nat) : windowDue w s t = decide (t = s.tb.clock) := windowDue_clock enabled set report t
      have lowNow (h : w.low = s.tb.clock) : exec .windowTimeDue s = .next (takeLowTime taken) := by
        rw [exec_windowTimeDue due, at', decide_eq_true h, Bool.true_or, if_pos rfl]
        exact congrArg _ (windowStage_low ((at' _).trans (decide_eq_true h)) ((at' _).trans (decide_eq_false fun h' => apart (h.trans h'.symm))))
      have fullNow (h : w.full = s.tb.clock) : exec .windowTimeDue s = .next (takeFullTime taken) := by
        rw [exec_windowTimeDue due, at' w.full, decide_eq_true h, Bool.or_true, if_pos rfl]
        exact congrArg _ (windowStage_full ((at' _).trans (decide_eq_false fun h' => apart (h'.trans h.symm))) ((at' _).trans (decide_eq_true h)))
      refine ⟨fun low state => ?_, fun full state any => ?_, fun low state => ?_, fun full state => ?_⟩
      · obtain ⟨step, begun⟩ := takeLowTime_full (s := taken) state queue out len
        exact ⟨_, lowNow low, step, begun⟩
      · exact ⟨_, fullNow full, takeFullTime_low (s := taken) state any queue out len⟩
      · rw [lowNow low, takeLowTime_other (s := taken) state]
        rfl
      · rw [fullNow full, takeFullTime_other (s := taken) state]
        rfl
    · rw [exec_windowTimeDue due, windowDue_off off, windowDue_off off]
      rfl
    · intro after passed notTaken' taken ups low full
      have lowOf (l : LOG) (p : PI) (d : List Due)
          (run : exec .windowTimeDue s = .next (takeLowTime { s with log := l, pi := p, due := d })) :
          low { s with log := l, pi := p, due := d } := by
        refine ⟨fun state => ?_, fun state => run.trans (congrArg _ (takeLowTime_other (s := { s with log := l, pi := p, due := d }) state))⟩
        obtain ⟨step, state', log, -, held⟩ := takeLowTime_full (s := { s with log := l, pi := p, due := d }) state queue out len
        exact ⟨_, run, state', step, by rw [← state]; exact log, held⟩
      have fullOf (l : LOG) (p : PI) (d : List Due)
          (run : exec .windowTimeDue s = .next (takeFullTime { s with log := l, pi := p, due := d })) :
          full { s with log := l, pi := p, due := d } := by
        refine ⟨fun state any => ?_, fun state => run.trans (congrArg _ (takeFullTime_other (s := { s with log := l, pi := p, due := d }) state))⟩
        have any' : s.site.those (fun r => decide (r.slot = some 0) && !decide (r.reported = .on)) ≠ [] := by simpa [ups] using any
        obtain ⟨state', log, -, held⟩ := takeFullTime_low (s := { s with log := l, pi := p, due := d }) state any' queue out len
        exact ⟨_, run, state', by rw [← state]; exact log, held⟩
      have lowNow (l : windowDue w s w.low = true) (f : ¬ windowDue w s w.full = true) : low taken := by
        refine lowOf s.log s.pi [] ?_
        rw [exec_windowTimeDue due, l, Bool.true_or, if_pos rfl]
        exact congrArg _ (windowStage_low (s := taken) l (Bool.eq_false_iff.2 f))
      have fullNow (l : ¬ windowDue w s w.low = true) (f : windowDue w s w.full = true) : full taken := by
        refine fullOf s.log s.pi [] ?_
        rw [exec_windowTimeDue due, f, Bool.or_true, if_pos rfl]
        exact congrArg _ (windowStage_full (s := taken) (Bool.eq_false_iff.2 l) f)
      have neither (l : ¬ windowDue w s w.low = true) (f : ¬ windowDue w s w.full = true) : exec .windowTimeDue s = .next s := by
        rw [exec_windowTimeDue due, Bool.eq_false_iff.2 l, Bool.eq_false_iff.2 f]
        rfl
      have both (l : windowDue w s w.low = true) (f : windowDue w s w.full = true) : exec .windowTimeDue s = .next
          (if after w.low < after w.full then takeFullTime (notTaken' .lowTime taken) else takeLowTime (notTaken' .fullTime taken)) := by
        rw [exec_windowTimeDue due, l, Bool.true_or, if_pos rfl]
        exact congrArg _ (windowStage_both (s := taken) report l f)
      refine ⟨fun was one half => ?_, fun back => ?_⟩
      · have at' (t : Nat) : windowDue w s t = true ↔ passed t := (window_report enabled set report t).1 was one half
        rw [at', at'] at lowNow fullNow neither both
        refine ⟨lowNow, fullNow, fun l f => ⟨fun order => ?_, fun order => ?_⟩, neither⟩
        · exact lowOf _ _ _ ((both l f).trans (congrArg _ (if_neg (Nat.lt_asymm order))))
        · exact fullOf _ _ _ ((both l f).trans (congrArg _ (if_pos order)))
      · have at' (t : Nat) : windowDue w s t = true ↔ t = r.new := (window_report enabled set report t).2 back
        rw [at', at'] at lowNow fullNow neither
        exact ⟨fun l => lowNow l fun f => apart (l.trans f.symm), fun f => fullNow (fun l => apart (l.trans f.symm)) f, neither⟩
  · refine ⟨_, congrArg Host.Outcome.next (boundary_all_later due all), fun w => ?_⟩
    have listed : .window w ∈ (firstSampling s (latch i s)).due ↔ .window w ∈ (latch i s).due := by
      rcases (firstSampling_frame s (latch i s)).2 with same | erased
      · rw [same]
      · rw [erased, List.mem_erase_of_ne (show Due.window w ≠ .clockSet from nofun)]
    rw [listed]
    simp [latch, due, pinEvents, stageEvents]
    rfl
  · intro time delivered completed noticed completes ups offs kept allOff
    let r := recorded i f s
    have site : r.site = s.site.record f := rfl
    have stamped : stamp r = time := recorded_stamp clock
    have reports (x : SITE) (h : x.resources = (s.site.record f).resources) (q : Nat) (small : q < 8) :
        (x.resource q).reported = f.resources.getD q .off := by
      rw [SITE.resource, h, ← SITE.resource, record_resource len len' small]
    have deliver {t : State} (known : s.site.state ≠ .unknown) (check : checkStage r = t) (fill' : t.lnk.siteFill = s.lnk.siteFill)
        (fresh : t.lnk.outstanding = none ∨ ∃ n, t.lnk.outstanding = some ⟨n, t.boundaryNo, none⟩) (same : t.due = r.due)
        (step : t.site.reportedStep = some f.power) (reported : ∀ q < 8, (t.site.resource q).reported = f.resources.getD q .off) :
        delivered t :=
      ⟨boundary_delivers due others keys clock up period out known resources mode check (fill.trans fill'.symm) fresh same, step, reported⟩
    have complete {new : SiteState} {x : SITE} (known : s.site.state ≠ .unknown) (stage : x.stage = none) (state : x.state = s.site.state)
        (step : x.reportedStep = some f.power) (reported : ∀ q < 8, (x.resource q).reported = f.resources.getD q .off)
        (check : checkStage r = siteChange new .complete (r.withSite x)) : completes new (siteChange new .complete (r.withSite x)) := by
      refine ⟨deliver known check rfl (.inl out) rfl step reported, rfl, stage, ?_, fun p high => ?_, queue, out⟩
      · show s.log.append (stamp r) .siteState .none (.site x.state new .complete) = _
        rw [stamped, state]
      · refine siteChange_flag new .complete ?_
        exact recorded_high (i := i) (f := f) high
    have gives (confirmed : r.site.confirmed st = true) : checkStage r = runStages 31 (advance st r) :=
      checkStage_of_confirmed stage confirmed
    have values (x : SITE) (h : x.resources = (s.site.record f).resources) (q : Nat) (small : q < 8) :
        (x.resource q).commanded = (s.site.resource q).commanded := by
      rw [SITE.resource, h, ← SITE.resource, record_resource len len' small]
    have allOff' (off : allOff) : ∀ q ∈ st.offs, (r.site.resource q).reported = .off := by
      intro q mem
      by_cases small : q < 8
      · rw [site, record_resource len len' small]
        exact off q mem
      · rw [SITE.resource, List.getD_eq_default]
        rw [site, record_length len len']
        omega
    have follow {kind : StageKind} {slot : Option Nat} {step : Nat} {cs : List SiteCommand} {z : State} (uniform : Uniform cs)
        (inTable : InTable cs) (few : cs.length ≤ 8) (any : cs ≠ []) (known : s.site.state ≠ .unknown) (lnk : z.lnk = r.lnk)
        (no : z.boundaryNo = r.boundaryNo) (due : z.due = r.due) (same : z.site.resources = (s.site.record f).resources)
        (reportedStep : z.site.reportedStep = some f.power) (check : checkStage r = beginStage kind slot step cs z) :
        delivered (beginStage kind slot step cs z) ∧ StageFollows kind slot step cs s (beginStage kind slot step cs z) := by
      have len'' : z.site.resources.length = 8 := by rw [same, record_length len len']
      have follows : StageFollows kind slot step cs s (beginStage kind slot step cs z) :=
        stageFollows_beginStage uniform inTable few any no (by rw [lnk]; exact up) (by rw [lnk]; exact queue) (by rw [lnk]; exact out)
          (by rw [lnk]; rfl) (values _ same) len''
      refine ⟨deliver known check ?_ (.inr ⟨s.lnk.nextNumber, ?_⟩) ?_ ?_ fun q small => ?_, follows⟩
      · rw [beginStage_siteFill, lnk]; rfl
      · rw [follows.2.2.1, beginStage_boundaryNo, no]; rfl
      · rw [beginStage_due, due]
      · exact (congrArg SITE.reportedStep (beginStage_site uniform) :).trans reportedStep
      · rw [beginStage_reported uniform inTable len'', reports _ same q small]
    refine ⟨fun state kind power => ?_, fun state kind slot off => ⟨fun asleep => ?_, fun awake any => ?_⟩, fun state kind slot off => ?_,
      fun state kind power any => ?_, fun state kind slot length reported => ?_⟩
    · have known : s.site.state ≠ .unknown := by rcases state with h | h <;> rw [h] <;> nofun
      have notLowering : r.site.state ≠ .lowering := by rcases state with h | h <;> exact fun l => absurd (h.symm.trans l) nofun
      have confirmed : r.site.confirmed st = true := (confirmed_power kind put awaiting).2 (congrArg some power)
      let x : SITE := { s.site.record f with power := some st.step, stage := none }
      have check : checkStage r = siteChange .full .complete (r.withSite x) := by
        rw [gives confirmed, advance_power (s := r) kind, if_neg notLowering,
          completeSequence_full (s := r.withSite { r.site with power := some st.step }) state]
        exact runStages_of_none 31 rfl
      exact ⟨_, complete (x := x) known rfl rfl rfl (reports _ rfl) check, rfl, values x rfl⟩
    · let x : SITE := { s.site.record f with stage := none }
      have check : checkStage r = siteChange .low .complete (r.withSite x) := by
        rw [gives (confirmed_downSlot kind put awaiting (allOff' off)), advance_down (s := r) kind (.inl slot),
          completeSequence_low (s := r) state asleep]
        exact runStages_of_none 31 rfl
      exact ⟨_, complete (x := x) (by rw [state]; nofun) rfl rfl rfl (reports _ rfl) check, rfl, values x rfl⟩
    · let low : State := siteChange .low .complete (r.withSite { s.site.record f with stage := none })
      let z : State := siteChange .raising .wake (low.withSite { low.site with pendingWake := false })
      have resources' : z.site.resources = (s.site.record f).resources := rfl
      have commands : upCommands z.site 0 = ups 0 := by
        refine (upCommands_raising (x := z.site) nofun 0).trans (congrArg (List.map _) ?_)
        rw [those_congr resources']
        refine List.filter_congr fun q mem => ?_
        rw [record_resource len len' (List.mem_range.1 mem)]
      have check : checkStage r = beginStage .upSlot (some 0) 0 (ups 0) z := by
        rw [gives (confirmed_downSlot kind put awaiting (allOff' off)), advance_down (s := r) kind (.inl slot),
          completeSequence_wake (s := r) state awake]
        show runStages 31 (beginStage .upSlot (some 0) 0 (upCommands z.site 0) z) = _
        rw [commands]
        exact runStages_beginStage 31 any (by rw [show z.lnk.queue = [] from queue]; decide)
      obtain ⟨arrives, follows⟩ := follow (z := z) (uniform_on _) (inTable_on fun q mem => List.mem_range.1 (List.mem_filter.1 mem).1)
        ((List.length_map ..).trans_le (filter_range_length_le _)) any (by rw [state]; nofun) rfl rfl rfl resources' rfl check
      have after : { (beginStage .upSlot (some 0) 0 (ups 0) z).site with
        resources := z.site.resources, nextStage := z.site.nextStage, stage := z.site.stage } = z.site := beginStage_site (uniform_on _)
      refine ⟨_, arrives, (congrArg SITE.state after :), (congrArg SITE.pendingWake after :), (beginStage_log ..).trans ?_, fun p high => ?_,
        follows⟩
      · show (s.log.append (stamp r) .siteState .none (.site s.site.state .low .complete)).append (stamp r) .siteState .none
          (.site .low .raising .wake) = _
        rw [stamped]
      · unfold State.port
        rw [beginStage_pi]
        exact siteChange_flag .raising .wake (s := low.withSite _)
          (siteChange_high .low .complete (s := r.withSite _) (recorded_high (i := i) (f := f) high))
    · let x : SITE := { s.site.record f with
        stage := none
        resources := (s.site.record f).resources.map fun r => if r.sequenced then { r with commanded := false } else r }
      have stopped (q : Nat) : x.resource q = { (s.site.record f).resource q with
          commanded := ((s.site.record f).resource q).commanded && ((s.site.record f).resource q).slot.isNone } := stopped_resource _ q
      have check : checkStage r = siteChange .off .complete (r.withSite x) := by
        rw [gives (confirmed_downSlot kind put awaiting (allOff' off)), advance_down (s := r) kind slot, completeSequence_off (s := r) state]
        exact runStages_of_none 31 rfl
      refine ⟨_, complete (x := x) (by rw [state]; nofun) rfl rfl rfl (fun q small => ?_) check, rfl, fun q small => ?_⟩
      · rw [stopped q, record_resource len len' small]
      · show (x.resource q).commanded = _
        rw [stopped q, record_resource len len' small]
    · let z : State := r.withSite { s.site.record f with power := some st.step }
      have confirmed : r.site.confirmed st = true := (confirmed_power kind put awaiting).2 (congrArg some power)
      have commands : downCommands z.site 7 = offs 7 := by
        refine (downCommands_lowering (x := z.site) (by show s.site.state ≠ _; rw [state]; nofun) 7).trans (congrArg (List.map _) ?_)
        refine List.filter_congr fun q mem => ?_
        rw [show z.site.resource q = (s.site.record f).resource q from rfl, record_resource len len' (List.mem_range.1 mem)]
      have check : checkStage r = beginStage .downSlot (some 7) 0 (offs 7) z := by
        rw [gives confirmed, advance_power (s := r) kind, if_pos (show r.site.state = .lowering from state)]
        show runStages 31 (beginStage .downSlot (some 7) 0 (downCommands z.site 7) z) = _
        rw [commands]
        exact runStages_beginStage 31 any (by rw [show z.lnk.queue = [] from queue]; decide)
      obtain ⟨arrives, follows⟩ := follow (z := z) (uniform_off _) (inTable_off fun q mem => List.mem_range.1 (List.mem_filter.1 mem).1)
        ((List.length_map ..).trans_le (filter_range_length_le _)) any (by rw [state]; nofun) rfl rfl rfl rfl rfl check
      have after : { (beginStage .downSlot (some 7) 0 (offs 7) z).site with
        resources := z.site.resources, nextStage := z.site.nextStage, stage := z.site.stage } = z.site := beginStage_site (uniform_off _)
      exact ⟨_, arrives, (congrArg SITE.state after :).trans state, (congrArg SITE.power after :), beginStage_log .., follows⟩
    · intro step
      have known : s.site.state ≠ .unknown := by rcases state with h | h <;> rw [h] <;> nofun
      have confirmed : r.site.confirmed st = true := (confirmed_upSlot kind slot put awaiting).2 ⟨fun q small m at' le => by
        rw [site, record_resource len len' small] at at' ⊢
        exact reported q small m at' le, length⟩
      have powers : powerStep r.site = step := by
        rcases state with h | h
        · refine (powerStep_starting (x := r.site) h).trans (if_neg ?_).symm
          rintro ⟨raising, -⟩
          rw [h] at raising
          cases raising
        · refine (powerStep_raising (x := r.site) h).trans (if_congr ?_ rfl rfl)
          exact ⟨fun previous => ⟨h, previous⟩, fun both => both.2⟩
      have check : checkStage r = beginStage .power none step [.power step] r := by
        rw [gives confirmed, advance_up_last (s := r) kind slot, beginPower, powers]
        exact runStages_beginStage 31 (by simp) (by rw [show r.lnk.queue = [] from queue]; decide)
      obtain ⟨arrives, follows⟩ := follow (z := r) (uniform_power _) (inTable_power _) (by simp) (by simp) known rfl rfl rfl rfl rfl check
      have after : { (beginStage .power none step [.power step] r).site with
        resources := r.site.resources, nextStage := r.site.nextStage, stage := r.site.stage } = r.site := beginStage_site (uniform_power _)
      exact ⟨_, arrives, (congrArg SITE.state after :), beginStage_log .., follows⟩

end Sys2Proof.Machine
end

section
/-! What CUE's operations touch, what the owners' operations add to what is due, and the boundary's blocks (R1, R3, R6, R12, R16). -/

namespace Sys2Proof.Machine

open Sys2Proof

/-! ### CUE's operations -/

/-- A record but for its late break-in. -/
def ContextRecord.apartLate (r : ContextRecord) : ContextRecord := { r with late := none }

/-- What an operation of CUE touches: CUE, the late break-ins of the records, the log, and the ports by notices. -/
structure CueMoves (s t : State) : Prop where
  frame : { t with cue := s.cue, air := s.air, log := s.log, pi := s.pi } = s
  air : { t.air with stack := s.air.stack } = s.air
  records : t.air.stack.map ContextRecord.apartLate = s.air.stack.map ContextRecord.apartLate
  gains : GainsNotices s t

@[simp] theorem cueMoves_refl (s : State) : CueMoves s s := ⟨rfl, rfl, rfl, gains_of_pi rfl⟩

theorem CueMoves.trans {s t u : State} (h : CueMoves s t) (k : CueMoves t u) : CueMoves s u where
  frame := (congrArg (fun v : State => { v with cue := s.cue, air := s.air, log := s.log, pi := s.pi }) k.frame :).trans h.frame
  air := (congrArg (fun x : AIR => { x with stack := s.air.stack }) k.air :).trans h.air
  records := k.records.trans h.records
  gains := h.gains.trans k.gains

theorem cueMoves_withCue {s0 s : State} (x : CUE) (h : CueMoves s0 s) : CueMoves s0 (s.withCue x) :=
  h.trans ⟨rfl, rfl, rfl, gains_of_pi rfl⟩

theorem cueMoves_raise {s0 s : State} (k : Notice) (h : CueMoves s0 s) : CueMoves s0 (raise k s) :=
  h.trans ⟨rfl, rfl, rfl, gains_raise k s⟩

theorem cueMoves_logEntry {s0 s : State} (k : LogKind) (x : Subject) (d : Detail) (h : CueMoves s0 s) :
    CueMoves s0 (logEntry k x d s) :=
  h.trans ⟨rfl, rfl, rfl, (gains_of_pi rfl).trans (gains_raise .logNew (s.withLog _))⟩

theorem cueMoves_when {s0 s : State} {f : State → State} (c : Bool) (h : CueMoves s0 s) (k : CueMoves s0 (f s)) :
    CueMoves s0 (when c f s) := by
  cases c
  · exact h
  · exact k

theorem cueMoves_clearLate {s0 s : State} (n : Nat) (h : CueMoves s0 s) : CueMoves s0 (clearLate n s) := by
  refine h.trans ⟨rfl, rfl, ?_, gains_of_pi rfl⟩
  unfold clearLate
  simp only [withAir_air, List.map_map]
  refine List.map_congr_left fun r _ => ?_
  show ContextRecord.apartLate (if _ then _ else r) = _
  split <;> rfl

theorem cueMoves_leave {s0 s : State} (e : CueEntry) (h : CueMoves s0 s) : CueMoves s0 (leave e s) := by
  have gone (x : CUE) : CueMoves s0 (when e.onAir (raise .entryEnded) (s.withCue x)) :=
    cueMoves_when _ (cueMoves_withCue x h) (cueMoves_raise _ (cueMoves_withCue x h))
  exact cueMoves_when _ (gone _) (cueMoves_clearLate _ (gone _))

theorem cueMoves_leaveSkipped {s0 s : State} (c : SkipCause) (e : CueEntry) (h : CueMoves s0 s) :
    CueMoves s0 (leaveSkipped c e s) := cueMoves_logEntry _ _ _ (cueMoves_leave e h)

theorem cueMoves_leaveMissed {s0 s : State} (c : MissCause) (e : CueEntry) (h : CueMoves s0 s) :
    CueMoves s0 (leaveMissed c e s) := cueMoves_logEntry _ _ _ (cueMoves_leave e h)

theorem cueMoves_recueLoop {s0 s : State} (n : Nat) (h : CueMoves s0 s) : CueMoves s0 (recueLoop n s).1 := by
  induction n generalizing s with
  | zero => exact h
  | succ n ih =>
    unfold recueLoop
    dsimp only
    split
    · split
      · exact ih (cueMoves_leaveSkipped _ _ (cueMoves_withCue _ h))
      · exact cueMoves_withCue _ h
    · exact cueMoves_withCue _ h

theorem cueMoves_recue {s0 s : State} (h : CueMoves s0 s) : CueMoves s0 (recue s) := cueMoves_recueLoop 65 h

theorem cueMoves_passStops {s0 s : State} (h : CueMoves s0 s) : CueMoves s0 (passStops s) := by
  unfold passStops
  split
  · split
    · exact cueMoves_recue (cueMoves_leaveSkipped _ _ h)
    · exact h
  · exact h

theorem cueMoves_setPlaying {s0 s : State} (n el : Nat) (j : Option Nat) (h : CueMoves s0 s) :
    CueMoves s0 (setPlaying n el j s) := by
  unfold setPlaying
  split
  · exact h
  · exact cueMoves_raise _ (cueMoves_withCue _ h)

theorem cueMoves_startEntry {s0 s : State} (e : CueEntry) (h : CueMoves s0 s) : CueMoves s0 (startEntry e s) :=
  cueMoves_setPlaying _ _ _ h

theorem cueMoves_endFading {s0 s : State} (h : CueMoves s0 s) : CueMoves s0 (endFading s) := by
  unfold endFading
  split
  · exact cueMoves_leave _ h
  · exact h

theorem cueMoves_considerIdle {s0 s : State} (h : CueMoves s0 s) : CueMoves s0 (considerIdle s) := by
  have passed := cueMoves_passStops h
  unfold considerIdle
  dsimp only
  split
  · split
    · split
      · exact cueMoves_recue (cueMoves_startEntry _ passed)
      · exact passed
    · exact passed
  · exact passed

theorem cueMoves_settleList {s0 s : State} (c : Bool) (h : CueMoves s0 s) : CueMoves s0 (settleList c s) := by
  unfold settleList
  dsimp only
  split
  · exact cueMoves_considerIdle (cueMoves_recueLoop _ h)
  · exact cueMoves_recueLoop _ h

theorem cueMoves_segueTo {s0 s : State} (o i : CueEntry) (h : CueMoves s0 s) : CueMoves s0 (segueTo o i s) := by
  refine cueMoves_recue (cueMoves_startEntry _ ?_)
  split
  · exact cueMoves_withCue _ (cueMoves_endFading h)
  · exact cueMoves_leave _ (cueMoves_endFading h)

theorem cueMoves_reachSegue {s0 s : State} (p : CueEntry) (h : CueMoves s0 s) : CueMoves s0 (reachSegue p s) := by
  have ended := cueMoves_endFading h
  have passed := cueMoves_passStops ended
  unfold reachSegue
  dsimp only
  split
  · split
    · split
      · exact cueMoves_segueTo _ _ passed
      · exact passed
    · exact passed
  · exact ended

theorem cueMoves_suspend {s0 s : State} (h : CueMoves s0 s) : CueMoves s0 (suspend s) :=
  cueMoves_withCue _ (cueMoves_endFading h)

theorem cueMoves_endNoContext {s0 s : State} (h : CueMoves s0 s) : CueMoves s0 (endNoContext s) := by
  have ended := cueMoves_endFading h
  unfold endNoContext
  dsimp only
  split
  · exact cueMoves_passStops (cueMoves_recue (cueMoves_withCue _ (cueMoves_leaveSkipped _ _ ended)))
  · exact cueMoves_recue (cueMoves_withCue _ ended)

theorem cueMoves_resumeEntry {s0 s : State} (n el : Nat) (h : CueMoves s0 s) : CueMoves s0 (resumeEntry n el s) := by
  unfold resumeEntry
  split
  · exact h
  · split
    · exact cueMoves_setPlaying _ _ _ h
    · exact cueMoves_setPlaying _ _ _ h
    · exact cueMoves_recue (cueMoves_leaveSkipped _ _ h)
    · dsimp only
      split
      · exact cueMoves_setPlaying _ _ _ h
      · exact cueMoves_recue (cueMoves_leave _ h)
    · exact h

theorem cueMoves_considerRelease {s0 s : State} (h : CueMoves s0 s) : CueMoves s0 (considerRelease s) := by
  unfold considerRelease
  split
  · exact cueMoves_considerIdle (cueMoves_withCue _ h)
  · exact h

/-! ### What is due is only added to -/

/-- An owner's operation that leaves every block as it was formed and everything due as it stood, adding what it hands over. -/
structure AddsDue (s t : State) : Prop where
  audio : t.audio = s.audio
  due : ∃ more, t.due = s.due ++ more

theorem AddsDue.trans {s t u : State} (h : AddsDue s t) (k : AddsDue t u) : AddsDue s u := by
  obtain ⟨x, hx⟩ := h.due
  obtain ⟨y, hy⟩ := k.due
  exact ⟨k.audio.trans h.audio, x ++ y, by rw [hy, hx, List.append_assoc]⟩

theorem AddsDue.mem {s t : State} (h : AddsDue s t) {d : Due} (mem : d ∈ s.due) : d ∈ t.due := by
  obtain ⟨more, due⟩ := h.due
  rw [due]
  exact List.mem_append_left _ mem

theorem addsDue_of_same {s0 s t : State} (h : AddsDue s0 s) (audio : t.audio = s.audio) (due : t.due = s.due) : AddsDue s0 t :=
  h.trans ⟨audio, [], by rw [due, List.append_nil]⟩

theorem addsDue_refl (s : State) : AddsDue s s := ⟨rfl, [], (List.append_nil _).symm⟩

theorem AddsDue.cue {s0 s t : State} (h : AddsDue s0 s) (k : CueMoves s t) : AddsDue s0 t :=
  addsDue_of_same h (congrArg State.audio k.frame :) (congrArg State.due k.frame :)

theorem addsDue_raise {s0 s : State} (k : Notice) (h : AddsDue s0 s) : AddsDue s0 (raise k s) := addsDue_of_same h rfl rfl

theorem addsDue_logEntry {s0 s : State} (k : LogKind) (x : Subject) (d : Detail) (h : AddsDue s0 s) :
    AddsDue s0 (logEntry k x d s) := addsDue_of_same h rfl rfl

theorem addsDue_handOver {s0 s : State} (d : Due) (h : AddsDue s0 s) : AddsDue s0 (handOver d s) := h.trans ⟨rfl, [d], rfl⟩

theorem addsDue_when {s0 s : State} {f : State → State} (c : Bool) (h : AddsDue s0 s) (k : AddsDue s0 (f s)) :
    AddsDue s0 (when c f s) := by
  cases c
  · exact h
  · exact k

theorem addsDue_foldl {α : Type} {s0 s : State} {f : State → α → State} (xs : List α)
    (step : ∀ {u : State} (x : α), AddsDue s0 u → AddsDue s0 (f u x)) (h : AddsDue s0 s) : AddsDue s0 (xs.foldl f s) := by
  induction xs generalizing s with
  | nil => exact h
  | cons x xs ih => exact ih (step x h)

/-! The operations of LSW, DLY, OUT and SITE that the end or the beginning of a chain consists of. -/

theorem addsDue_emptyAir {s0 s : State} (f : Line → Line) (h : AddsDue s0 s) : AddsDue s0 (emptyAir f s) := by
  unfold emptyAir
  split
  · exact addsDue_of_same h rfl rfl
  · exact h

theorem addsDue_returnLine {s0 s : State} (p : Nth × Slot) (h : AddsDue s0 s) : AddsDue s0 (returnLine s p) := by
  unfold returnLine
  split <;> exact addsDue_of_same h rfl rfl

theorem addsDue_dlyBecomes {s0 s : State} (d : DLY) (h : AddsDue s0 s) : AddsDue s0 (dlyBecomes d s) :=
  addsDue_when _ (addsDue_of_same h rfl rfl) (addsDue_of_same h rfl rfl)

theorem addsDue_safeChange {s0 s : State} (r : SafeReason) (held : Bool) (h : AddsDue s0 s) : AddsDue s0 (safeChange r held s) :=
  addsDue_of_same h (outAlone_safeChange r held s).audio (outAlone_safeChange r held s).due

theorem addsDue_considerOutstanding {s0 s : State} (h : AddsDue s0 s) : AddsDue s0 (considerOutstanding s) := by
  rw [considerOutstanding_eq]
  exact addsDue_of_same h rfl rfl

theorem addsDue_beginStage {s0 s : State} (k : StageKind) (slot : Option Nat) (n : Nat) (cs : List SiteCommand)
    (h : AddsDue s0 s) : AddsDue s0 (beginStage k slot n cs s) := by
  rw [beginStage_eq]
  exact addsDue_of_same h rfl rfl

theorem addsDue_siteChange {s0 s : State} (n : SiteState) (c : SiteCause) (h : AddsDue s0 s) : AddsDue s0 (siteChange n c s) :=
  addsDue_of_same h rfl rfl

theorem addsDue_startRaising {s0 s : State} (c : SiteCause) (h : AddsDue s0 s) : AddsDue s0 (startRaising c s) :=
  addsDue_beginStage _ _ _ _ (addsDue_siteChange _ _ h)

theorem addsDue_completeSequence {s0 s : State} (h : AddsDue s0 s) : AddsDue s0 (completeSequence s) := by
  have done : AddsDue s0 (s.withSite { s.site with stage := none }) := addsDue_of_same h rfl rfl
  unfold completeSequence
  dsimp only
  split
  · split
    · exact addsDue_startRaising _ (addsDue_of_same (addsDue_siteChange .low .complete done) rfl rfl)
    · exact addsDue_siteChange _ _ done
  · exact addsDue_siteChange _ _ (addsDue_of_same done rfl rfl)
  · exact addsDue_siteChange _ _ done
  · exact addsDue_siteChange _ _ done
  · exact done

theorem addsDue_advance {s0 s : State} (st : Stage) (h : AddsDue s0 s) : AddsDue s0 (advance st s) := by
  have stage (k : StageKind) (slot : Option Nat) (n : Nat) (cs : List SiteCommand) := addsDue_beginStage k slot n cs h
  unfold advance
  split
  · split
    · exact stage _ _ _ _
    · exact stage _ _ _ _
  · split
    · exact stage _ _ _ _
    · exact addsDue_completeSequence h
  · have powered : AddsDue s0 (s.withSite { s.site with power := some st.step }) := addsDue_of_same h rfl rfl
    dsimp only
    split
    · exact addsDue_beginStage _ _ _ _ powered
    · exact addsDue_completeSequence powered
  · exact addsDue_completeSequence h

theorem addsDue_checkStage {s0 s : State} (h : AddsDue s0 s) : AddsDue s0 (checkStage s) := by
  unfold checkStage
  generalize 32 = n
  induction n generalizing s with
  | zero => exact h
  | succ n ih =>
    unfold runStages
    split
    · exact h
    · split
      · exact ih (addsDue_advance _ h)
      · exact h

theorem addsDue_wakeSite {s0 s : State} (h : AddsDue s0 s) : AddsDue s0 (wakeSite s) := by
  unfold wakeSite
  split <;> first | exact addsDue_checkStage (addsDue_startRaising _ h) | exact addsDue_of_same h rfl rfl

/-! AIR's and ALC's operations. -/

theorem addsDue_logPreemptionEnd {s0 s : State} (k : RecordKind) (n : Nat) (h : AddsDue s0 s) :
    AddsDue s0 (logPreemptionEnd k n s) := by
  cases k <;> exact addsDue_of_same h rfl rfl

theorem addsDue_restoreEntry {s0 s : State} (x : Option (Nat × Nat)) (h : AddsDue s0 s) : AddsDue s0 (restoreEntry x s) := by
  unfold restoreEntry
  split
  · rename_i n el
    have resumed := h.cue (cueMoves_resumeEntry n el (cueMoves_refl s))
    refine addsDue_when _ resumed ?_
    unfold reportJoinEnd
    split
    · split
      · exact addsDue_handOver _ resumed
      · exact resumed
    · exact resumed
  · exact h

theorem addsDue_popRecord {s0 s : State} (r : ContextRecord) (n : Nat) (h : AddsDue s0 s) : AddsDue s0 (popRecord r n s) := by
  have restored : AddsDue s0 (restoreEntry r.suspended (s.withAir (s.air.free_ r.number))) :=
    addsDue_restoreEntry _ (addsDue_of_same h rfl rfl)
  exact (addsDue_logPreemptionEnd _ _ (addsDue_foldl _ (fun p => addsDue_returnLine p) restored)).cue
    (cueMoves_considerRelease (cueMoves_refl _))

theorem addsDue_chainOver {s0 s : State} (h : AddsDue s0 s) : AddsDue s0 (chainOver s) := addsDue_of_same h rfl rfl

theorem addsDue_handOverRecord {s0 s : State} (r : ContextRecord) (n due : Nat) (h : AddsDue s0 s) :
    AddsDue s0 (handOverRecord r n due s) := by
  have done : AddsDue s0 (chainOver (unfreeze (r.delayBefore.getD .bypass) s)) := addsDue_chainOver (addsDue_dlyBecomes _ h)
  unfold handOverRecord
  dsimp only
  split
  · exact addsDue_popRecord _ _ done
  · split
    · refine addsDue_of_same (s := recue (setPlaying _ _ _ _)) (AddsDue.cue ?_ (cueMoves_recue
        (cueMoves_setPlaying _ _ _ (cueMoves_refl _)))) rfl rfl
      exact addsDue_of_same done rfl rfl
    · exact addsDue_popRecord _ _ (done.cue (cueMoves_raise _ (cueMoves_recue (cueMoves_leaveMissed _ _ (cueMoves_refl _)))))

theorem addsDue_endWithoutRecord {s0 s : State} (h : AddsDue s0 s) : AddsDue s0 (endWithoutRecord s) := by
  have done : AddsDue s0 (chainOver (unfreeze (s.dly.kept.getD .bypass) s)) := addsDue_chainOver (addsDue_dlyBecomes _ h)
  exact (addsDue_safeChange .resumeLost true done).cue
    (cueMoves_considerRelease (cueMoves_logEntry _ _ _ (cueMoves_raise _ (cueMoves_refl _))))

theorem addsDue_endChain {s0 s : State} (h : AddsDue s0 s) : AddsDue s0 (endChain s) := by
  unfold endChain
  split
  · exact h
  · exact addsDue_endWithoutRecord h
  · exact addsDue_chainOver h
  · split
    · exact addsDue_handOverRecord _ _ _ h
    · exact addsDue_popRecord _ _ (addsDue_chainOver (addsDue_dlyBecomes _ h))

theorem addsDue_airing {s0 s : State} (b : Bool) (e : AlertEntry) (h : AddsDue s0 s) : AddsDue s0 (airing b e s) := by
  have aired (x : ALC) (y : OUT) : AddsDue s0 (when s.alc.wake wakeSite ((s.withAlc x).withOut y)) :=
    addsDue_when _ (addsDue_of_same h rfl rfl) (addsDue_wakeSite (addsDue_of_same h rfl rfl))
  exact addsDue_raise _ (addsDue_logEntry _ _ _ (aired _ _))

theorem addsDue_push {s0 s : State} (k : RecordKind) (h : AddsDue s0 s) : AddsDue s0 (push k s) := by
  have given : AddsDue s0 (s.withAir { s.air with stack := newRecord k s :: s.air.stack, free := s.air.free.drop 1 }) :=
    addsDue_of_same h rfl rfl
  exact addsDue_emptyAir _ (given.cue (cueMoves_suspend (cueMoves_refl _)))

theorem addsDue_alertHolds {s0 s : State} (b : Bool) (h : AddsDue s0 s) : AddsDue s0 (alertHolds b s) := addsDue_of_same h rfl rfl

theorem addsDue_reportJoinLost {s0 s : State} (h : AddsDue s0 s) : AddsDue s0 (reportJoinLost s) := by
  unfold reportJoinLost
  split
  · split
    · exact addsDue_handOver _ h
    · exact h
  · exact h

theorem addsDue_grantAlert {s0 s : State} (p : Pair) (h : AddsDue s0 s) : AddsDue s0 (grantAlert p s) := by
  have begun (c : ChainState) : AddsDue s0 (beginChainAt c s) := addsDue_of_same h rfl rfl
  unfold grantAlert
  split
  · exact addsDue_alertHolds _ (addsDue_dlyBecomes _ (addsDue_push _ (begun _)))
  · exact addsDue_logEntry _ _ _ (addsDue_alertHolds _ (addsDue_dlyBecomes _ (addsDue_emptyAir _
      ((addsDue_reportJoinLost (begun _)).cue (cueMoves_endNoContext (cueMoves_refl _))))))

theorem addsDue_beginChain {s0 s : State} (e : AlertEntry) (h : AddsDue s0 s) : AddsDue s0 (beginChain e s) := by
  have granted := addsDue_grantAlert e.header.pair h
  exact addsDue_airing _ _ (addsDue_of_same (s := grantAlert e.header.pair s) granted rfl rfl)

theorem addsDue_considerAir {s0 s : State} (h : AddsDue s0 s) : AddsDue s0 (considerAir s) := by
  unfold considerAir
  split
  · split
    · split
      · exact addsDue_beginChain _ h
      · exact h
    · exact h
  · exact h

theorem addsDue_chainGoesOn {s0 s : State} (h : AddsDue s0 s) : AddsDue s0 (chainGoesOn s) := by
  unfold chainGoesOn
  split
  · exact addsDue_airing _ _ h
  · exact addsDue_endChain (addsDue_of_same h rfl rfl)

theorem addsDue_endAiring {s0 s : State} (e : AlertEntry) (k : LogKind) (d : Detail) (h : AddsDue s0 s) :
    AddsDue s0 (endAiring e k d s) := addsDue_of_same h rfl rfl

theorem addsDue_airingEnds {s0 s : State} (e : AlertEntry) (k : LogKind) (d : Detail) (h : AddsDue s0 s) :
    AddsDue s0 (airingEnds e k d s) := addsDue_chainGoesOn (addsDue_endAiring e k d h)

theorem addsDue_readyReport {s0 s : State} (h : AddsDue s0 s) : AddsDue s0 (readyReport s) := by
  unfold readyReport
  split
  · have changed := outAlone_changeMode .live true s
    exact addsDue_of_same (addsDue_of_same h rfl rfl) changed.audio changed.due
  · exact h

theorem addsDue_interrupt {s0 s : State} (new old : AlertEntry) (h : AddsDue s0 s) : AddsDue s0 (interrupt new old s) := by
  unfold interrupt
  dsimp only
  split <;> exact addsDue_airing _ _ (addsDue_of_same h rfl rfl)

/-- The decision on the air that ALC's event at a boundary makes when no airing ended in it; `before` are those READY before the
counts (R142, R145). -/
def decideAir (before : List Pair) (s : State) : State :=
  match s.alc.onAir, s.alc.readyHead with
  | some o, some h => if o.header.priority < h.header.priority ∧ h.header.pair ∉ before then interrupt h o s else s
  | _, _ => considerAir s

/-- The counts of a boundary, after the played count (R136 to R138). -/
def alertCounts (s : State) : State := countAdvisory (countHolds (countValidity s))

theorem alertStage_of_ended {s : State} {e : AlertEntry} (h : lengthReached (countPlayed s) = some e) :
    alertStage s = chainGoesOn (alertCounts (endAiring e .alertEnded (.alertEnd .length) (countPlayed s))) := by
  unfold alertStage
  dsimp only
  rw [h]
  rfl

theorem alertStage_of_none {s : State} (h : lengthReached (countPlayed s) = none) :
    alertStage s = decideAir (countPlayed s).alc.readyPairs (alertCounts (countPlayed s)) := by
  unfold alertStage
  dsimp only
  rw [h]
  rfl

theorem addsDue_countPlayed {s0 s : State} (h : AddsDue s0 s) : AddsDue s0 (countPlayed s) := by
  unfold countPlayed
  split <;> exact addsDue_of_same h rfl rfl

theorem addsDue_alertCounts {s0 s : State} (h : AddsDue s0 s) : AddsDue s0 (alertCounts s) := by
  have valid : AddsDue s0 (countValidity s) := addsDue_foldl _ (fun e k => addsDue_of_same k rfl rfl) (addsDue_of_same h rfl rfl)
  have held : AddsDue s0 (countHolds (countValidity s)) :=
    addsDue_foldl _ (fun e k => addsDue_readyReport (addsDue_of_same k rfl rfl)) (addsDue_of_same valid rfl rfl)
  exact addsDue_of_same held rfl rfl

theorem addsDue_alertStage {s0 s : State} (h : AddsDue s0 s) : AddsDue s0 (alertStage s) := by
  have played := addsDue_countPlayed h
  cases ended : lengthReached (countPlayed s) with
  | some e =>
    rw [alertStage_of_ended ended]
    exact addsDue_chainGoesOn (addsDue_alertCounts (addsDue_endAiring e _ _ played))
  | none =>
    rw [alertStage_of_none ended]
    unfold decideAir
    split
    · split
      · exact addsDue_interrupt _ _ (addsDue_alertCounts played)
      · exact addsDue_alertCounts played
    · exact addsDue_considerAir (addsDue_alertCounts played)

/-! What closes an event, and the rows. -/

theorem addsDue_finish {s0 s : State} (b : State) (h : AddsDue s0 s) : AddsDue s0 (finish b s) := by
  have air : AddsDue s0 (when s.cue.started considerAir s) := addsDue_when _ h (addsDue_considerAir h)
  obtain ⟨m, q, water⟩ := lowWaterCheck_eq b (when s.cue.started considerAir s)
  have low : AddsDue s0 (lowWaterCheck b (when s.cue.started considerAir s)) := by
    rw [water]
    exact addsDue_of_same air rfl rfl
  refine addsDue_of_same (s := gateCheck b _) ?_ rfl rfl
  unfold gateCheck
  split
  · exact low
  · exact addsDue_handOver _ low

theorem addsDue_event {s0 s : State} (f : State → State) (h : AddsDue s0 (f (clearMarks s))) : AddsDue s0 (event f s) :=
  addsDue_finish _ h

theorem addsDue_clearMarks {s0 s : State} (h : AddsDue s0 s) : AddsDue s0 (clearMarks s) := addsDue_of_same h rfl rfl

/-- A request whose owner adds to what is due alone does so, however its bytes come. -/
theorem addsDue_takeRequest {s : State} (i : Instr) (act : OwnerEvent) (clock : .clockSet ∉ s.due)
    (own : ∀ t, AddsDue s t → AddsDue s (act t).1) : AddsDue s (takeRequest i act s) := by
  have self := addsDue_refl s
  unfold takeRequest
  rw [clockFirst_of_not clock]
  dsimp only
  split
  · exact self
  · split
    · have taken := own _ (addsDue_of_same self rfl rfl : AddsDue s (s.withPi { s.pi with handed := ‹List Handed› }))
      split
      · exact taken
      · exact addsDue_of_same taken rfl rfl
    · have answered {t : State} (h : AddsDue s t) : AddsDue s (answer ‹Request› act t) := by
        unfold answer
        split
        · exact addsDue_of_same h rfl rfl
        · exact addsDue_of_same (own t h) rfl rfl
      unfold writeWhole
      dsimp only
      split
      · exact self
      · split
        · exact addsDue_of_same self rfl rfl
        · split
          · exact answered (addsDue_of_same self rfl rfl)
          · exact answered self

theorem addsDue_cutShort {s0 s : State} (h : AddsDue s0 s) : AddsDue s0 (cutShort s) := by
  unfold cutShort
  split
  · exact h
  · exact addsDue_airingEnds _ _ _ h

theorem addsDue_resetC {s0 s : State} (h : AddsDue s0 s) (clock : .clockSet ∉ s.due) : AddsDue s0 (resetPort .c s) := by
  unfold resetPort
  rw [clockFirst_of_not clock]
  exact addsDue_event _ (addsDue_cutShort (addsDue_clearMarks (addsDue_of_same h rfl rfl)))

end Sys2Proof.Machine
end

section
/-! A boundary's blocks, its clock and its sampling of the key lines (R1, R3, R6, R12, R13, R16, R18). -/

namespace Sys2Proof.Machine

open Sys2Proof

/-! ### Input blocks -/

theorem fillPlaces_length {α : Type} (z : α) (n : Nat) (xs : List (Option α)) : (fillPlaces z n xs).length = n := by
  induction n generalizing xs with
  | zero => rfl
  | succ n ih => cases xs <;> simp [fillPlaces, ih]

/-- A place holds the sample given for it, or the zero sample (R6). -/
theorem fillPlaces_get {α : Type} (z : α) (n : Nat) (xs : List (Option α)) {k : Nat} (h : k < n) :
    (fillPlaces z n xs)[k]? = some ((xs[k]?.getD none).getD z) := by
  induction n generalizing xs k with
  | zero => omega
  | succ n ih =>
    cases xs with
    | nil =>
      cases k with
      | zero => rfl
      | succ k => simpa [fillPlaces] using ih [] (by omega)
    | cons x rest =>
      cases k with
      | zero => rfl
      | succ k => simpa [fillPlaces] using ih rest (by omega)

/-! ### The judgement of KEY -/

theorem judgeKey_same {s : State} (h : s.tb.keys.toList.any KeyLine.holds = s.tb.keyHeld) : judgeKey s = s := if_pos h

theorem judgeKey_changed {s : State} (h : s.tb.keys.toList.any KeyLine.holds ≠ s.tb.keyHeld) :
    judgeKey s = safeChange .key (s.tb.keys.toList.any KeyLine.holds)
      (s.withTb { s.tb with keyHeld := s.tb.keys.toList.any KeyLine.holds }) := if_neg h

/-- A change of a safe reason raises SAFE CHANGE (R154). -/
theorem safeChange_flag {r : SafeReason} {held : Bool} {s : State} (new : s.out.reasons.get r ≠ held) {p : PortId}
    (high : (s.port p).init = .high) : ((safeChange r held s).port p).flags.getLsbD 10 = true := by
  have raised : GainsNotices s (withReasons (s.out.reasons.set r held) s) :=
    (gains_of_pi rfl).trans (gains_raise .safeChange (s.withOut { s.out with reasons := s.out.reasons.set r held }))
  have bit : ((withReasons (s.out.reasons.set r held) s).port p).flags.getLsbD 10 = true :=
    raised_bit .safeChange (s := s.withOut { s.out with reasons := s.out.reasons.set r held }) high
  have logged (k : LogKind) := (gains_raise .logNew ((withReasons (s.out.reasons.set r held) s).withLog
    ((withReasons (s.out.reasons.set r held) s).log.append (stamp s) k .none (.reason r))) p (raised p high).1).2 _ bit
  rw [safeChange_of_get_ne new]
  split
  · exact logged .safeOn
  · split
    · exact logged .safeOff
    · exact bit

/-- What KEY's judgement logs and raises when OUT holds KEY as TB does (R18, R154). -/
theorem judgeKey_logged {s : State} (agree : s.out.reasons.key = s.tb.keyHeld) :
    ((judgeKey s).tb.keyHeld = s.tb.keyHeld → judgeKey s = s) ∧
    ((judgeKey s).tb.keyHeld ≠ s.tb.keyHeld → ∀ p, (s.port p).init = .high →
      ((judgeKey s).port p).flags.getLsbD 10 = true) ∧
    ((judgeKey s).tb.keyHeld = true → s.out.reasons = {} →
      (judgeKey s).log = s.log.append (stamp s) .safeOn .none (.reason .key)) ∧
    ((judgeKey s).tb.keyHeld = false → s.out.reasons = { key := true } →
      (judgeKey s).log = s.log.append (stamp s) .safeOff .none (.reason .key)) := by
  have now : (judgeKey s).tb.keyHeld = s.tb.keys.toList.any KeyLine.holds := congrArg TB.keyHeld (judgeKey_held s)
  rw [now]
  refine ⟨judgeKey_same, fun changed p high => ?_, fun held empty => ?_, fun free only => ?_⟩
  · rw [judgeKey_changed changed]
    refine safeChange_flag (s := s.withTb _) ?_ high
    show s.out.reasons.key ≠ _
    rw [agree]
    exact changed.symm
  · have off : s.tb.keyHeld = false := by rw [← agree, empty]
    rw [judgeKey_changed (by rw [held, off]; exact nofun), held]
    exact congrArg State.log (safeChange_first (r := .key) (s := s.withTb { s.tb with keyHeld := true }) empty)
  · have on : s.tb.keyHeld = true := by rw [← agree, only]
    rw [judgeKey_changed (by rw [free, on]; exact nofun), free]
    exact congrArg State.log (safeChange_last (r := .key) (s := s.withTb { s.tb with keyHeld := false }) only)

/-! ### The counts of a boundary -/

theorem clockAfter_eq (n : Nat) : clockAfter n = if n = 17279999 then 0 else n + 1 := by
  have day : Config.day = 17280000 := rfl
  unfold clockAfter
  split <;> split <;> omega

/-- The change of a key line that a boundary's sampling finds is due (R16). -/
theorem keyEdge_due (i : PeriodInput) {s : State} (due : s.due = []) (k : Nth) :
    .keyEdge k ∈ (latch i s).due ↔ (s.tb.keys.get k).changes (i.keys.get k) = true := by
  have pins : .keyEdge k ∈ (latch i s).due ↔ .keyEdge k ∈ pinEvents i s (latch i s) := by
    simp only [latch, withDue_due, due, List.nil_append, List.mem_append]
    refine ⟨fun h => ?_, fun h => .inl (.inr h)⟩
    rcases h with (((h | h) | h) | h) | h
    · split at h <;> simp at h
    · split at h <;> simp at h
    · simp at h
    · exact h
    · simp [stageEvents] at h
  rw [pins]
  simp [pinEvents, nth_mem_all]

theorem tick_frame (q : Port) : q.tick = { q with idleCount :=
    if q.phase = .codeTaken ∨ q.phase = .parameters then min 10 (q.idleCount + 1) else q.idleCount } := by
  unfold Port.tick Port.open_
  simp only [decide_eq_true_iff]
  split <;> rfl

theorem latch_port (i : PeriodInput) (s : State) (p : PortId) : (latch i s).port p = (s.port p).tick := by cases p <;> rfl

theorem latch_key (i : PeriodInput) (s : State) (k : Nth) :
    (latch i s).tb.keys.get k = (s.tb.keys.get k).sample (i.keys.get k) := four_get_mapIdx ..

/-! ### The first sampling -/

theorem firstSampling_of_unsampled {b s : State} (h : ¬ KeysSampled b) : firstSampling b s = judgeKey (clockFirst s) := by
  refine if_neg fun all => h fun k => ?_
  rw [List.all_eq_true] at all
  exact all _ (by cases k <;> simp [Four.toList, Four.get])

/-- A SET CLOCK left due touches TB and the ports alone, and the key lines not (R13). -/
theorem clockFirst_tb (s : State) : { (clockFirst s).tb with
    clock := s.tb.clock, clockSet := s.tb.clockSet, pendingTime := s.tb.pendingTime, report := s.tb.report } = s.tb ∨
    (s.tb.pendingTime = none ∧ { (clockFirst s).tb with clock := s.tb.clock } = s.tb) := by
  unfold clockFirst
  split
  · unfold clockSetStage
    split
    · rename_i none_
      exact .inr ⟨none_, rfl⟩
    · exact .inl rfl
  · exact .inl rfl

/-- A pending SET CLOCK that a boundary left due takes effect (R13). -/
theorem clockFirst_of_pending {s : State} {n : Nat} (due : .clockSet ∈ s.due) (pending : s.tb.pendingTime = some n) :
    clockFirst s = raise .clock { s with
      due := s.due.erase .clockSet
      tb := { s.tb with clock := n, clockSet := true, pendingTime := none
                        report := some ⟨s.tb.clock, n, s.tb.clockSet⟩ } } := by
  rw [clockFirst_of_mem due]
  unfold clockSetStage
  rw [show (s.withDue (s.due.erase .clockSet)).tb.pendingTime = some n from pending]
  rfl

/-- A pending SET CLOCK is due after the counts, before all else. -/
theorem clockSet_mem_latch (i : PeriodInput) {s : State} {n : Nat} (due : s.due = []) (pending : s.tb.pendingTime = some n) :
    .clockSet ∈ (latch i s).due ∧ .clockSet ∉ (latch i s).due.erase .clockSet := by
  have mem : .clockSet ∈ (latch i s).due := by
    simp only [latch, withDue_due, List.mem_append, pending]
    simp
  exact ⟨mem, (List.Nodup.of_map _ (latch_once i due)).not_mem_erase⟩

/-- The first sampling raises notices alone on the ports. -/
theorem firstSampling_port (i : PeriodInput) (s : State) (p : PortId) :
    { (firstSampling s (latch i s)).port p with flags := (s.port p).flags } = { s.port p with
      idleCount := if (s.port p).phase = .codeTaken ∨ (s.port p).phase = .parameters then min 10 ((s.port p).idleCount + 1)
        else (s.port p).idleCount } := by
  obtain ⟨-, raised, ports⟩ := (keeps_firstSampling s (keeps_refl (latch i s))).notices
  rw [ports, latch_port, tick_frame]

/-- The clock and the SET CLOCK of a boundary that leaves every event for later (R12, R13). -/
theorem firstSampling_clock (i : PeriodInput) {s : State} (due : s.due = []) :
    (s.tb.pendingTime = none → (firstSampling s (latch i s)).tb.clock = clockAfter s.tb.clock ∧
      .clockSet ∉ (firstSampling s (latch i s)).due) ∧
    (s.tb.pendingTime ≠ none → KeysSampled s → (firstSampling s (latch i s)).tb.clock = s.tb.clock ∧
      .clockSet ∈ (firstSampling s (latch i s)).due) ∧
    (∀ n, s.tb.pendingTime = some n → ¬ KeysSampled s → (firstSampling s (latch i s)).tb.clock = n ∧
      (firstSampling s (latch i s)).tb.clockSet = true ∧ (firstSampling s (latch i s)).tb.pendingTime = none ∧
      .clockSet ∉ (firstSampling s (latch i s)).due) := by
  refine ⟨fun none_ => ?_, fun pending sampled => ?_, fun n pending unsampled => ?_⟩
  · have notDue := clockSet_not_mem_latch i due none_
    have counted : (latch i s).tb.clock = clockAfter s.tb.clock := by simp [latch, none_]
    by_cases sampled : KeysSampled s
    · rw [firstSampling_of_sampled sampled]
      exact ⟨counted, notDue⟩
    · rw [firstSampling_of_unsampled sampled, clockFirst_of_not notDue]
      refine ⟨(congrArg TB.clock (judgeKey_held _)).trans counted, ?_⟩
      rw [(congrArg State.due (judgeKey_frame (latch i s)) :)]
      exact notDue
  · obtain ⟨n, pending⟩ := Option.ne_none_iff_exists'.1 pending
    rw [firstSampling_of_sampled sampled]
    exact ⟨by simp [latch, pending], (clockSet_mem_latch i due pending).1⟩
  · obtain ⟨mem, gone⟩ := clockSet_mem_latch i due pending
    rw [firstSampling_of_unsampled unsampled, clockFirst_of_pending mem pending, judgeKey_held]
    refine ⟨rfl, rfl, rfl, ?_⟩
    rw [(congrArg State.due (judgeKey_frame _) :)]
    exact gone

/-- The first sampling leaves TB's source and its judgement of HOUSE as the counts left them. -/
theorem firstSampling_tb (b s : State) : { (firstSampling b s).tb with
    clock := s.tb.clock, clockSet := s.tb.clockSet, pendingTime := s.tb.pendingTime, report := s.tb.report
    keyHeld := s.tb.keyHeld } = s.tb := by
  unfold firstSampling
  split
  · rfl
  · rw [judgeKey_held]
    rcases clockFirst_tb s with frame | ⟨-, frame⟩
    · exact (congrArg (fun x : TB => { x with keyHeld := s.tb.keyHeld }) frame :)
    · refine (congrArg (fun x : TB => { x with
        clockSet := s.tb.clockSet, pendingTime := s.tb.pendingTime, report := s.tb.report, keyHeld := s.tb.keyHeld }) frame :)

/-- The clock's time that stamps what the first sampling logs, with no SET CLOCK pending (R12, R189). -/
theorem stamp_clockFirst_latch (i : PeriodInput) {s : State} (due : s.due = []) (none_ : s.tb.pendingTime = none) :
    stamp (clockFirst (latch i s)) = if s.tb.clockSet then some (clockAfter s.tb.clock) else none := by
  rw [clockFirst_of_not (clockSet_not_mem_latch i due none_)]
  simp [stamp, latch, none_]

/-- The same with one pending, which takes effect first (R13, R189). -/
theorem stamp_clockFirst_latch_pending (i : PeriodInput) {s : State} {n : Nat} (due : s.due = [])
    (pending : s.tb.pendingTime = some n) : stamp (clockFirst (latch i s)) = some n := by
  rw [clockFirst_of_pending (clockSet_mem_latch i due pending).1 pending]
  rfl

/-- The owners' events that the counts made due stay due through the first sampling. -/
theorem mem_firstSampling (b s : State) {d : Due} (n : d ≠ .clockSet) : d ∈ (firstSampling b s).due ↔ d ∈ s.due := by
  rcases (firstSampling_frame b s).2 with same | erased
  · rw [same]
  · rw [erased, List.mem_erase_of_ne n]

/-- A key line's record after a boundary's sampling, and whether its change is due (R16). -/
theorem firstSampling_key (i : PeriodInput) {s : State} (due : s.due = []) (k : Nth) :
    ((s.tb.keys.get k).sampled = false → (firstSampling s (latch i s)).tb.keys.get k = { s.tb.keys.get k with
        settled := i.keys.get k, sampled := true, differed := false } ∧
      .keyEdge k ∉ (firstSampling s (latch i s)).due) ∧
    ((s.tb.keys.get k).sampled = true → (firstSampling s (latch i s)).tb.keys.get k = { s.tb.keys.get k with
        differed := decide (i.keys.get k ≠ (s.tb.keys.get k).settled) } ∧
      (.keyEdge k ∈ (firstSampling s (latch i s)).due ↔
        (s.tb.keys.get k).differed = true ∧ i.keys.get k ≠ (s.tb.keys.get k).settled)) := by
  rw [mem_firstSampling (d := .keyEdge k) _ _ nofun, keyEdge_due i due, (congrArg TB.keys (firstSampling_tb s (latch i s)) :), latch_key]
  unfold KeyLine.sample KeyLine.changes
  constructor
  · intro new
    simp [new]
  · intro old
    simp [old]

/-! ### The programme block -/

/-- What a programme block is formed from: AIR, CUE and which lines are in AIR. -/
theorem ProgrammeFormed.of_same {inputs : Inputs} {n : Nat} {s t : State} {b : Block} (air : t.air = s.air) (cue : t.cue = s.cue)
    (lines : ∀ l, t.line l = s.line l) (h : ProgrammeFormed inputs n t b) : ProgrammeFormed inputs n s b := by
  unfold ProgrammeFormed at h ⊢
  simpa only [air, cue, lines] using h

/-- A boundary that takes AIR's event first forms its block of the inputs of the period before (R1, R27). -/
theorem boundary_programme {i : PeriodInput} {later : List DueKind} {s : State} (due : s.due = [])
    (others : ∀ k, k ≠ .programme → k ∈ later) :
    ProgrammeFormed s.audio.cur.inputs (s.boundaryNo + 1) s (boundary i [.programme] later s).audio.cur.programme := by
  have run := boundary_takes (i := i) (d := .programme) due others rfl (by simp [stageEvents]) fun _ h _ => h
  have frame := atBoundary_frame i s
  rw [show boundary i [.programme] later s = _ from run]
  let w := (atBoundary i s).withDue ((atBoundary i s).due.erase .programme)
  have formed := programmeBlock_formed w
  have prev : w.audio.prev = s.audio.cur := (congrArg (fun u : State => u.audio.prev) frame :)
  have number : w.boundaryNo = s.boundaryNo + 1 := (congrArg State.boundaryNo frame :)
  rw [prev, number] at formed
  refine ProgrammeFormed.of_same (congrArg State.air frame :) (congrArg State.cue frame :) (fun l => ?_) formed
  exact (congrArg (fun u : State => u.line l) frame :).trans (latch_line_state i s l)

/-! ### A boundary -/

/-- What every boundary brings: its number, and the blocks of the period (R1, R6). -/
theorem boundary_brings (i : PeriodInput) (first later : List DueKind) (s : State) :
    (boundary i first later s).boundaryNo = s.boundaryNo + 1 ∧
    (boundary i first later s).audio.cur.inputs = formInputs i ∧
    (s.due = [] → (boundary i first later s).audio.prev = s.audio.cur) := by
  have kept := stays_boundary i first later s
  have before := stays_drain DueKind.isReport 128 (stays_refl s)
  obtain ⟨-, number, prev, inputs, -, -⟩ := latch_spec i (drain DueKind.isReport 128 s)
  refine ⟨kept.boundaryNo.trans (number.trans ?_), kept.inputs.trans inputs, fun due => kept.prev.trans (prev.trans ?_)⟩
  · rw [before.boundaryNo]
  · rw [drain_kept (s := s) (by simp [due])]

/-- KEY at the first sampling (R16, R18). -/
theorem firstSampling_judges (i : PeriodInput) {s : State} (due : s.due = []) (unsampled : ¬ KeysSampled s) :
    ((firstSampling s (latch i s)).tb.keyHeld = true ↔ ∃ k, ((firstSampling s (latch i s)).tb.keys.get k).action = .safe ∧
      ((firstSampling s (latch i s)).tb.keys.get k).settled = ((firstSampling s (latch i s)).tb.keys.get k).active) ∧
    (s.out.reasons.key = s.tb.keyHeld →
      let t := firstSampling s (latch i s)
      t.out.reasons = { s.out.reasons with key := t.tb.keyHeld } ∧
      (t.tb.keyHeld = s.tb.keyHeld → t.log = s.log ∧ (s.tb.pendingTime = none → ∀ p, (t.port p).flags = (s.port p).flags)) ∧
      (t.tb.keyHeld ≠ s.tb.keyHeld → ∀ p, (s.port p).init = .high → (t.port p).flags.getLsbD 10 = true) ∧
      (t.tb.keyHeld = true → s.out.reasons = {} →
        t.log = s.log.append (stamp (clockFirst (latch i s))) .safeOn .none (.reason .key)) ∧
      (t.tb.keyHeld = false → s.out.reasons = { key := true } →
        t.log = s.log.append (stamp (clockFirst (latch i s))) .safeOff .none (.reason .key))) := by
  rw [firstSampling_of_unsampled unsampled]
  have notDue := clockSet_not_mem_latch i due
  have init (p : PortId) (high : (s.port p).init = .high) : ((clockFirst (latch i s)).port p).init = .high := by
    rw [(keeps_clockFirst (keeps_refl (latch i s))).init, latch_port, tick_init]
    exact high
  have frame := (clockFirst_frame (latch i s)).1
  have flags (none_ : s.tb.pendingTime = none) (p : PortId) : ((clockFirst (latch i s)).port p).flags = (s.port p).flags := by
    rw [clockFirst_of_not (notDue none_), latch_port, tick_frame]
  have held : (clockFirst (latch i s)).tb.keyHeld = s.tb.keyHeld := by
    rcases clockFirst_tb (latch i s) with tb | ⟨-, tb⟩ <;> exact (congrArg TB.keyHeld tb :)
  have out : (clockFirst (latch i s)).out = s.out := (congrArg State.out frame :)
  have log : (clockFirst (latch i s)).log = s.log := (congrArg State.log frame :)
  generalize clockFirst (latch i s) = u at *
  refine ⟨?_, fun agree => ?_⟩
  · rw [judgeKey_held]
    exact anyHolds_iff _
  · have agree : u.out.reasons.key = u.tb.keyHeld := by rw [out, held, agree]
    obtain ⟨same, flag, on, off⟩ := judgeKey_logged agree
    refine ⟨?_, fun h => ?_, fun h p high => flag (by rw [held]; exact h) p (init p high), fun h empty => ?_,
      fun h only => ?_⟩
    · rw [judgeKey_reasons agree, judgeKey_held, out]
    · rw [same (by rw [held]; exact h)]
      exact ⟨log, flags⟩
    · rw [on h (by rw [out]; exact empty), log]
    · rw [off h (by rw [out]; exact only), log]

/-- The end of a chain leaves every block as it was formed, and OUT's and DLY's events due (R1, R108; log 56). -/
theorem chainEnd_addsDue {o n : Half} {c : Instr} {s t : State}
    (mem : c ∈ [.alertEnd .c o n, .cancelAlert .b o n, .portReset .c, .portInit .c .low, .alertLengthReached, .chipReset])
    (clock : .clockSet ∉ s.due) (run : exec c s = .next t) :
    t.audio = s.audio ∧ (.delay ∈ s.due → .delay ∈ t.due) ∧ (.output ∈ s.due → .output ∈ t.due) := by
  have of {u : State} (h : AddsDue s u) (e : u = t) :
      t.audio = s.audio ∧ (.delay ∈ s.due → .delay ∈ t.due) ∧ (.output ∈ s.due → .output ∈ t.due) :=
    e ▸ ⟨h.audio, h.mem, h.mem⟩
  have closed {act : OwnerEvent} (own : ∀ u, AddsDue s u → AddsDue s (act u).1) (u : State) (h : AddsDue s u) :
      AddsDue s (eventReply act u).1 := addsDue_finish _ (own _ (addsDue_clearMarks h))
  simp only [List.mem_cons, List.not_mem_nil, or_false] at mem
  rcases mem with rfl | rfl | rfl | rfl | rfl | rfl
  · refine of (addsDue_takeRequest _ (ownerAlertEnd o n) clock (closed fun u h => ?_)) (Host.Outcome.next.inj run)
    unfold alertEnd
    split
    · exact h
    · split
      · exact addsDue_airingEnds _ _ _ h
      · exact h
  · refine of (addsDue_takeRequest _ (ownerCancelAlert o n) clock (closed fun u h => ?_)) (Host.Outcome.next.inj run)
    unfold cancelAlert
    split
    · exact h
    · split
      · split
        · exact h
        · exact addsDue_airingEnds _ _ _ h
      · exact addsDue_considerAir (addsDue_of_same h rfl rfl)
  · refine of ?_ (Host.Outcome.next.inj run)
    unfold writeWhole
    dsimp only
    split
    · exact addsDue_refl s
    · split
      · exact addsDue_of_same (addsDue_refl s) rfl rfl
      · split
        · exact addsDue_resetC (addsDue_of_same (addsDue_refl s) rfl rfl) clock
        · exact addsDue_resetC (addsDue_refl s) clock
  · refine of ?_ (Host.Outcome.next.inj run)
    unfold portInit
    split
    · exact addsDue_resetC (addsDue_of_same (addsDue_refl s) rfl rfl) clock
    · exact addsDue_of_same (addsDue_refl s) rfl rfl
  · obtain rfl : _ = t := Host.Outcome.next.inj run
    have before : takeBefore .alerts s = s := clockFirst_of_not clock
    unfold stageRow
    rw [before]
    dsimp only
    split
    · unfold takeOne
      split
      · exact ⟨rfl, id, id⟩
      · rename_i d found
        have kind : d = .alerts := by
          have := List.find?_some found
          cases d <;> first | rfl | simp [Due.kind] at this
        subst kind
        have taken : AddsDue (s.withDue (s.due.erase .alerts)) (event alertStage (s.withDue (s.due.erase .alerts))) :=
          addsDue_event _ (addsDue_alertStage (addsDue_clearMarks (addsDue_refl _)))
        exact ⟨taken.audio, fun m => taken.mem ((List.mem_erase_of_ne (show Due.delay ≠ .alerts from nofun)).2 m),
          fun m => taken.mem ((List.mem_erase_of_ne (show Due.output ≠ .alerts from nofun)).2 m)⟩
    · exact ⟨rfl, id, id⟩
  · obtain rfl : chipReset s = t := Host.Outcome.next.inj run
    unfold chipReset
    rw [clockFirst_of_not clock]
    exact ⟨rfl, fun m => List.mem_filter.2 ⟨m, rfl⟩, fun m => List.mem_filter.2 ⟨m, rfl⟩⟩

/-- Settles O10. -/
theorem aBoundaryBringsItsPeriod : Obligations.ABoundaryBringsItsPeriod := by
  refine ⟨fun xs k => ⟨fillPlaces_length _ _ _, fillPlaces_get _ _ _⟩, fun inp first later s => ?_,
    fun o n c s t mem clock _ run _ => chainEnd_addsDue mem clock run⟩
  obtain ⟨number, inputs, prev⟩ := boundary_brings inp first later s
  refine ⟨boundary inp first later s, rfl, number, inputs, prev, ?_, ?_, ?_, ?_, ?_⟩
  · rintro due rfl all none_
    rw [boundary_all_later due all, ← clockAfter_eq]
    exact (firstSampling_clock inp due).1 none_
  · rintro due rfl all
    rw [boundary_all_later due all]
    exact (firstSampling_clock inp due).2.1
  · rintro n due rfl all
    rw [boundary_all_later due all]
    exact (firstSampling_clock inp due).2.2 n
  · rintro due rfl all
    rw [boundary_all_later due all, ← clockAfter_eq]
    have tb := firstSampling_tb s (latch inp s)
    refine ⟨(congrArg TB.source tb :), (congrArg TB.toInternal tb :), ?_, (congrArg TB.houseCount tb :),
      (mem_firstSampling (d := .house) _ _ nofun).2 (by simp [latch]), firstSampling_port inp s, firstSampling_key inp due, fun sampled => ?_,
      fun unsampled => ?_⟩
    · rw [(congrArg TB.houseOk tb :)]
      exact decide_eq_true_iff
    · rw [firstSampling_of_sampled sampled]
      exact ⟨rfl, rfl, fun p => by rw [latch_port, tick_frame]⟩
    · obtain ⟨held, judged⟩ := firstSampling_judges inp due unsampled
      refine ⟨held, fun agree => ?_⟩
      cases pending : s.tb.pendingTime with
      | none => simpa only [pending, stamp_clockFirst_latch inp due pending] using judged agree
      | some n => simpa only [pending, stamp_clockFirst_latch_pending inp due pending] using judged agree
  · rintro due rfl others -
    exact boundary_programme due others

end Sys2Proof.Machine
end

section
/-! The clock's events of a boundary, and what the rows of an owner's event do while a SET CLOCK is left due (R8, R10 to R14; log 2). -/

namespace Sys2Proof.Machine

open Sys2Proof

/-! ### Clock changes (R14) -/

/-- The step of a clock change, its direction, and the times it passes over, for times of day. -/
theorem clockReport_spec (r : ClockReport) (x : Nat) (old : r.old < 17280000) (new : r.new < 17280000) (time : x < 17280000) :
    let after (y : Nat) : Int := if (y : Int) - r.old < 0 then (y : Int) - r.old + 17280000 else (y : Int) - r.old
    (r.step : Int) = after r.new ∧ (r.forward = true ↔ 1 ≤ after r.new ∧ after r.new ≤ 8640000) ∧
    (r.passes x = true ↔ 1 ≤ after x ∧ after x ≤ after r.new) := by
  have day : Config.day = 17280000 := rfl
  have from_ (y : Nat) (h : y < 17280000) : (blocksFrom r.old y : Int) =
      if (y : Int) - r.old < 0 then (y : Int) - r.old + 17280000 else (y : Int) - r.old := by
    unfold blocksFrom
    rw [day]
    split <;> omega
  have step : (r.step : Int) = _ := from_ r.new new
  have passed := from_ x time
  dsimp only
  refine ⟨step, ?_, ?_⟩
  · rw [← step]
    unfold ClockReport.forward
    rw [decide_eq_true_iff]
    omega
  · rw [← step, ← passed]
    unfold ClockReport.passes
    rw [decide_eq_true_iff]
    omega

/-! ### A SET CLOCK left due stands before an owner's event (log 2) -/

/-- Once no SET CLOCK is left due, none is taken. -/
theorem clockFirst_clockFirst {s : State} (gone : .clockSet ∉ (clockFirst s).due) : clockFirst (clockFirst s) = clockFirst s :=
  clockFirst_of_not gone

/-- A request finds the clock as the SET CLOCK left due sets it. -/
theorem takeRequest_clockFirst {i : Instr} {act : OwnerEvent} {s : State} (some_ : i.request ≠ none)
    (gone : .clockSet ∉ (clockFirst s).due) : takeRequest i act s = takeRequest i act (clockFirst s) := by
  obtain ⟨r, h⟩ := Option.ne_none_iff_exists'.1 some_
  unfold takeRequest
  simp only [h, clockFirst_clockFirst gone]

/-- A port reset finds the clock as the SET CLOCK left due sets it. -/
theorem portReset_clockFirst {p : PortId} {s : State} (free : (s.port p).Free) (gone : .clockSet ∉ (clockFirst s).due) :
    writeWhole p (resetPort p) s = writeWhole p (resetPort p) (clockFirst s) := by
  obtain ⟨-, raised, ports⟩ := (keeps_clockFirst (keeps_refl s)).notices
  have free' : ((clockFirst s).port p).Free := by
    rw [ports]
    exact free
  rw [writeWhole_free free, writeWhole_free free']
  unfold resetPort
  rw [clockFirst_clockFirst gone]

/-- The rows of an owner's event find the clock as the SET CLOCK left due sets it. -/
theorem directRow_clockFirst (d : Due) (f : State → State) {s : State} (gone : .clockSet ∉ (clockFirst s).due) :
    directRow d f s = directRow d f (clockFirst s) := by
  unfold directRow
  rw [clockFirst_clockFirst gone]

/-- A command that takes a SET CLOCK left due before its own event does what it does after the row that takes it. -/
theorem exec_clockFirst {c : Instr} {s : State} (gone : .clockSet ∉ (clockFirst s).due)
    (row : (c.request ≠ none ∧ ∀ p, c ≠ .portReset p) ∨ (∃ p, c = .portReset p ∧ (s.port p).Free) ∨ c = .chipReset ∨
      (∃ k l, c = .keyLineEdge k l) ∨ c = .dropLines ∨ c = .dumpReport ∨ c = .joinEndRelease ∨
      c = .withdrawalWithoutRecord ∨
      (∃ l, c = .ringEdge l ∨ c = .ringTimeout l ∨ c = .loopSenseDrop l ∨ c = .clearingEnd l)) :
    exec c s = exec c (clockFirst s) := by
  have again := clockFirst_clockFirst gone
  have direct (d : Due) (f : State → State) : (.next (directRow d f s) : Next) = .next (directRow d f (clockFirst s)) :=
    congrArg _ (directRow_clockFirst d f gone)
  rcases row with ⟨request, notReset⟩ | ⟨p, rfl, free⟩ | rfl | ⟨k, l, rfl⟩ | rfl | rfl | rfl | rfl | ⟨l, rfl | rfl | rfl | rfl⟩
  · rw [exec_request c s (Option.isSome_iff_ne_none.2 request) notReset,
      exec_request c (clockFirst s) (Option.isSome_iff_ne_none.2 request) notReset, takeRequest_clockFirst request gone]
  · exact congrArg Host.Outcome.next (portReset_clockFirst free gone)
  · show Host.Outcome.next (chipReset s) = .next (chipReset (clockFirst s))
    unfold chipReset
    rw [again]
  · exact direct _ _
  · exact direct _ _
  · show execDumpReport s = execDumpReport (clockFirst s)
    unfold execDumpReport
    rw [again]
  · show execJoinEndRelease s = execJoinEndRelease (clockFirst s)
    unfold execJoinEndRelease
    rw [again]
  · show execWithdrawalWithoutRecord s = execWithdrawalWithoutRecord (clockFirst s)
    unfold execWithdrawalWithoutRecord
    rw [again]
  all_goals exact direct _ _

/-! ### The fallback to INTERNAL (R11) -/

theorem clockFallback_none {s : State} (h : s.tb.good s.tb.source = true ∨ s.tb.toInternal = true) : clockFallback s = s := by
  refine if_pos ?_
  rcases h with h | h <;> simp [h]

theorem clockFallback_falls {s : State} (bad : s.tb.good s.tb.source = false) (notAwaited : s.tb.toInternal = false) :
    clockFallback s = raise .clock (logEntry .clockFallback .none (.source s.tb.source)
      (s.withTb { s.tb with source := .internal, pendingSource := none })) :=
  if_neg (by simp [bad, notAwaited])

/-- The fallback touches TB's selection, the log and the ports alone. -/
theorem clockFallback_frame (s : State) : { clockFallback s with tb := s.tb, log := s.log, pi := s.pi } = s ∧
    { (clockFallback s).tb with source := s.tb.source, pendingSource := s.tb.pendingSource } = s.tb := by
  unfold clockFallback
  split <;> exact ⟨rfl, rfl⟩

/-- HOUSE counts a period that qualified (R8). -/
theorem houseStage_qualified {s : State} (h : s.tb.houseOk = true) :
    houseStage s = s.withTb { s.tb with houseCount := min 200 (s.tb.houseCount + 1) } := if_pos h

/-- A period that did not qualify clears the count, and the source in use may fall back (R8, R11). -/
theorem houseStage_unqualified {s : State} (h : s.tb.houseOk = false) :
    houseStage s = clockFallback (s.withTb { s.tb with houseCount := 0 }) := if_neg (by simp [h])

theorem houseStage_due (s : State) : (houseStage s).due = s.due := by
  unfold houseStage
  split
  · rfl
  · exact (congrArg State.due (clockFallback_frame _).1 :)

/-- A boundary that takes the judgement of HOUSE first. -/
theorem boundary_house {i : PeriodInput} {later : List DueKind} {s : State} (due : s.due = [])
    (others : ∀ k, k ≠ .house → k ∈ later) : boundary i [.house] later s =
    houseStage ((atBoundary i s).withDue ((atBoundary i s).due.erase .house)) := by
  have listed : .house ∈ (atBoundary i s).due := (mem_atBoundary i s (show Due.house ≠ .clockSet from nofun)).2 (by simp [latch])
  obtain ⟨taken, none⟩ := takeOne_once (atBoundary_once i due) listed
  have run : takeKind .house (firstSampling s (latch i s)) =
      houseStage ((atBoundary i s).withDue ((atBoundary i s).due.erase .house)) := by
    unfold takeKind
    rw [takeBefore_first rfl]
    exact taken
  rw [boundary_one due others, run]
  rw [run, houseStage_due]
  exact none

/-- TB when HOUSE is judged at a boundary. -/
theorem atBoundary_tb (i : PeriodInput) (s : State) : { (atBoundary i s).tb with
    clock := s.tb.clock, clockSet := s.tb.clockSet, pendingTime := s.tb.pendingTime, report := s.tb.report
    keyHeld := s.tb.keyHeld, keys := s.tb.keys } = { s.tb with
    source := if s.tb.toInternal then .internal else s.tb.source, toInternal := false, houseOk := houseQualifies i } := by
  have first := firstSampling_tb s (latch i s)
  unfold atBoundary
  rcases clockFirst_tb (firstSampling s (latch i s)) with tb | ⟨-, tb⟩
  · exact (congrArg (fun x : TB => { x with
      clock := s.tb.clock, clockSet := s.tb.clockSet, pendingTime := s.tb.pendingTime, report := s.tb.report
      keyHeld := s.tb.keyHeld, keys := s.tb.keys }) tb :).trans (congrArg (fun x : TB => { x with
      clock := s.tb.clock, clockSet := s.tb.clockSet, pendingTime := s.tb.pendingTime, report := s.tb.report
      keyHeld := s.tb.keyHeld, keys := s.tb.keys }) first :)
  · exact (congrArg (fun x : TB => { x with
      clock := s.tb.clock, clockSet := s.tb.clockSet, pendingTime := s.tb.pendingTime, report := s.tb.report
      keyHeld := s.tb.keyHeld, keys := s.tb.keys }) tb :).trans (congrArg (fun x : TB => { x with
      clock := s.tb.clock, clockSet := s.tb.clockSet, pendingTime := s.tb.pendingTime, report := s.tb.report
      keyHeld := s.tb.keyHeld, keys := s.tb.keys }) first :)

/-- With every key line sampled, nothing is logged before the owners' events of a boundary. -/
theorem atBoundary_log (i : PeriodInput) {s : State} (keys : KeysSampled s) : (atBoundary i s).log = s.log := by
  unfold atBoundary
  rw [firstSampling_of_sampled keys]
  exact (congrArg State.log (clockFirst_frame (latch i s)).1 :)

/-- A pin that is high is so when the owners' events of a boundary are taken. -/
theorem atBoundary_high (i : PeriodInput) {s : State} {p : PortId} (high : (s.port p).init = .high) :
    ((atBoundary i s).port p).init = .high := by
  have kept := keeps_clockFirst (keeps_firstSampling s (keeps_refl (latch i s)))
  rw [show ((atBoundary i s).port p).init = _ from kept.init p, latch_port, tick_init]
  exact high

/-- What the judgement of HOUSE does in a state whose SET CLOCK and selection stand as they do, LINK apart (R8, R11). -/
theorem houseStage_spec (w : State) (reset : w.tb.toInternal = false) :
    (w.tb.houseOk = true → (houseStage w).tb.houseCount = min 200 (w.tb.houseCount + 1)) ∧
    (w.tb.houseOk = false → (houseStage w).tb.houseCount = 0) ∧
    (w.tb.houseOk = false → w.tb.source = .house → (houseStage w).tb.source = .internal ∧
      (houseStage w).tb.pendingSource = none ∧
      (∀ p, (w.port p).init = .high → ((houseStage w).port p).flags.getLsbD 13 = true) ∧
      (houseStage w).log = w.log.append (stamp (houseStage w)) .clockFallback .none (.source .house)) ∧
    (¬ (w.tb.houseOk = false ∧ w.tb.source = .house) → w.tb.source ≠ .link ∨ w.tb.link = .up →
      (houseStage w).tb.source = w.tb.source ∧ (houseStage w).tb.pendingSource = w.tb.pendingSource ∧
      (houseStage w).log = w.log) := by
  refine ⟨fun ok => by rw [houseStage_qualified ok]; rfl, fun bad => ?_, fun bad house => ?_, fun no link => ?_⟩
  · rw [houseStage_unqualified bad]
    exact (congrArg TB.houseCount (clockFallback_frame _).2 :)
  · rw [houseStage_unqualified bad, clockFallback_falls (s := w.withTb { w.tb with houseCount := 0 })
      (by simp [house, TB.good, Config.houseLock]) reset]
    refine ⟨rfl, rfl, fun p high => ?_, by rw [withTb_tb, house]; rfl⟩
    exact raised_bit .clock (gains_raise .logNew ((w.withTb { w.tb with
      houseCount := 0, source := .internal, pendingSource := none }).withLog _) p high).1
  · cases ok : w.tb.houseOk with
    | true =>
      rw [houseStage_qualified ok]
      exact ⟨rfl, rfl, rfl⟩
    | false =>
      have good : (w.withTb { w.tb with houseCount := 0 }).tb.good w.tb.source = true := by
        cases source : w.tb.source with
        | internal => rfl
        | house => exact absurd ⟨ok, source⟩ no
        | link =>
          rcases link with h | up
          · exact absurd source h
          · exact decide_eq_true up
      rw [houseStage_unqualified ok, clockFallback_none (.inl good)]
      exact ⟨rfl, rfl, rfl⟩

/-! ### The rows of HOUSE and of a selection -/

/-- A row of TB's own event takes it when it is due, its occasion arises, and no SET CLOCK is. -/
theorem stageRow_clock {d : Due} {s : State} {occasion : State → Bool} (now : DueNow d s) (first : standsFirst d.kind = true)
    (one : ∀ e : Due, e.kind = d.kind → e = d) (o : occasion s = true) :
    stageRow d.kind occasion s = takeDue d (s.withDue (s.due.erase d)) :=
  stageRow_of_due ((takeBefore_first first s).trans (clockFirst_of_not now.2)) now.1 (fun e _ => one e) o

/-- The same row changes nothing when its occasion does not arise. -/
theorem stageRow_clock_none {k : DueKind} {s : State} {occasion : State → Bool} (free : .clockSet ∉ s.due)
    (first : standsFirst k = true) (o : occasion s = false) : stageRow k occasion s = s :=
  stageRow_of_no_occasion (by rw [takeBefore_first first, clockFirst_of_not free]; exact o)

theorem kind_house (e : Due) (h : e.kind = .house) : e = .house := by cases e <;> first | rfl | cases h

theorem kind_clockSelect (e : Due) (h : e.kind = .clockSelect) : e = .clockSelect := by cases e <;> first | rfl | cases h

/-- Settles O19. -/
theorem clockEventsOfABoundary : Obligations.ClockEventsOfABoundary := by
  refine ⟨fun s => ⟨fun n due pending => ?_, fun src now pending => ?_⟩, clockReport_spec,
    fun c s u due pending run gone row => ?_, fun inp later s due others => ⟨_, rfl, ?_⟩, fun s now => ?_⟩
  · rw [exec_clockSetTakesEffect due (by rw [pending]; exact nofun), clockFirst_of_pending due pending]
  · have row := stageRow_clock (occasion := fun s => s.tb.pendingSource.isSome) now rfl kind_clockSelect (by simp [pending])
    show Host.Outcome.next (stageRow .clockSelect (fun s => s.tb.pendingSource.isSome) s) = _
    rw [show stageRow .clockSelect _ s = _ from row]
    show Host.Outcome.next (selectionStage _) = _
    unfold selectionStage
    rw [withDue_tb, pending]
    rfl
  · obtain rfl : clockFirst s = u := Host.Outcome.next.inj ((exec_clockSetTakesEffect due pending).symm.trans run)
    exact exec_clockFirst gone row
  · rw [boundary_house due others]
    have tb := atBoundary_tb inp s
    have log := atBoundary_log inp (s := s)
    have high (p : PortId) := atBoundary_high inp (s := s) (p := p)
    generalize hw : (atBoundary inp s).withDue ((atBoundary inp s).due.erase .house) = w
    have source : w.tb.source = if s.tb.toInternal then .internal else s.tb.source := by
      rw [← hw]; exact (congrArg TB.source tb :)
    have ok : w.tb.houseOk = houseQualifies inp := by rw [← hw]; exact (congrArg TB.houseOk tb :)
    have count : w.tb.houseCount = s.tb.houseCount := by rw [← hw]; exact (congrArg TB.houseCount tb :)
    have reset : w.tb.toInternal = false := by rw [← hw]; exact (congrArg TB.toInternal tb :)
    have pending : w.tb.pendingSource = s.tb.pendingSource := by rw [← hw]; exact (congrArg TB.pendingSource tb :)
    have link : w.tb.link = s.tb.link := by rw [← hw]; exact (congrArg TB.link tb :)
    have log' (keys : KeysSampled s) : w.log = s.log := by rw [← hw]; exact log keys
    have high' (p : PortId) (h : (s.port p).init = .high) : (w.port p).init = .high := by rw [← hw]; exact high p h
    obtain ⟨counts, clears, falls, stays⟩ := houseStage_spec w reset
    rw [ok, count] at counts
    rw [ok] at clears falls stays
    have yes (q : 240 ≤ inp.houseEdges ∧ -500 ≤ inp.housePpm ∧ inp.housePpm ≤ 500) : houseQualifies inp = true :=
      decide_eq_true q
    have no (q : ¬ (240 ≤ inp.houseEdges ∧ -500 ≤ inp.housePpm ∧ inp.housePpm ≤ 500)) : houseQualifies inp = false :=
      decide_eq_false q
    refine ⟨fun q below => ?_, fun q full => ?_, fun q => clears (no q), ?_, fun ⟨q, house, inUse⟩ => ?_, fun keep other => ?_⟩
    · rw [counts (yes q)]; omega
    · rw [counts (yes q)]; omega
    · show decide (200 ≤ (houseStage w).tb.houseCount) = true ↔ _
      rw [decide_eq_true_iff]
      by_cases q : 240 ≤ inp.houseEdges ∧ -500 ≤ inp.housePpm ∧ inp.housePpm ≤ 500
      · rw [counts (yes q)]
        simp only [q, and_self, true_and]
        omega
      · rw [clears (no q)]
        simp [q]
    · obtain ⟨internal, none_, flags, entry⟩ := falls (no q) (by rw [source, inUse, house]; rfl)
      refine ⟨internal, none_, fun p h => flags p (high' p h), fun keys => ?_⟩
      rw [entry, log' keys]
    · have notFalling : ¬ (houseQualifies inp = false ∧ w.tb.source = .house) := by
        rintro ⟨bad, house⟩
        rw [source] at house
        split at house
        · cases house
        · exact keep ⟨fun q => absurd bad (by rw [yes q]; exact nofun), house, Bool.eq_false_iff.2 ‹_›⟩
      have lasting : w.tb.source ≠ .link ∨ w.tb.link = .up := by
        rw [source, link]
        rcases other with notLink | up | awaits
        · refine .inl ?_
          split
          · exact nofun
          · exact notLink
        · exact .inr up
        · exact .inl (by rw [awaits]; exact nofun)
      obtain ⟨same, pendings, entry⟩ := stays notFalling lasting
      exact ⟨same.trans source, pendings.trans pending, fun keys => entry.trans (log' keys)⟩
  · have lock : exec .houseLock s = .next (stageRow .house houseLocks s) := rfl
    have lost : exec .houseSyncLoss s = .next (stageRow .house houseLost s) := rfl
    have takes {o : State → Bool} (h : o s = true) : stageRow .house o s = houseStage (s.withDue (s.due.erase .house)) :=
      stageRow_clock now rfl kind_house h
    have config : Config.houseLock = 200 := rfl
    refine ⟨fun no => ?_, fun no => ?_, fun ok count => ?_, fun bad good safe => ?_, fun bad good house inUse => ?_⟩
    · rw [lock, stageRow_clock_none now.2 rfl]
      rcases no with bad | count
      · simp [houseLocks, bad]
      · simp [houseLocks, config]; omega
    · rw [lost, stageRow_clock_none now.2 rfl]
      rcases no with ok | count
      · simp [houseLost, ok]
      · simp [houseLost, TB.good, config, count]
    · rw [lock, takes (by simp [houseLocks, ok, count, config]), houseStage_qualified (s := s.withDue (s.due.erase .house)) ok, withDue_tb, count]
      rfl
    · rw [lost, takes (by simp [houseLost, bad, TB.good, config, good]), houseStage_unqualified (s := s.withDue (s.due.erase .house)) bad,
        clockFallback_none (s := (s.withDue (s.due.erase .house)).withTb _)]
      · rfl
      · rcases safe with internal | awaits
        · exact .inl (by simp [internal, TB.good])
        · exact .inr awaits
    · rw [lost, takes (by simp [houseLost, bad, TB.good, config, good]), houseStage_unqualified (s := s.withDue (s.due.erase .house)) bad, withDue_tb,
        clockFallback_falls (s := (s.withDue (s.due.erase .house)).withTb { s.tb with houseCount := 0 }) (by simp [house, TB.good, config]) inUse]
      simp only [withTb_tb, house]
      rfl

end Sys2Proof.Machine
end

section
/-! A key line's change: the judgement of KEY, and the request its edge hands to an owner (R16 to R18). -/

namespace Sys2Proof.Machine

open Sys2Proof

/-- KEY is held as before when a line whose action is not SAFE settles. -/
theorem anyHolds_set {keys : Four KeyLine} {k : Nth} {r : KeyLine} (old : (keys.get k).action ≠ .safe) (new : r.action ≠ .safe) :
    (keys.set k r).toList.any KeyLine.holds = keys.toList.any KeyLine.holds := by
  rw [Bool.eq_iff_iff, anyHolds_iff, anyHolds_iff]
  constructor
  · rintro ⟨n, safe, level⟩
    by_cases same : n = k
    · subst same
      rw [four_get_set] at safe
      exact absurd safe new
    · rw [four_get_set_other _ _ _ _ same] at safe level
      exact ⟨n, safe, level⟩
  · rintro ⟨n, safe, level⟩
    have other : n ≠ k := by
      rintro rfl
      exact old safe
    exact ⟨n, by rw [four_get_set_other _ _ _ _ other]; exact safe, by rw [four_get_set_other _ _ _ _ other]; exact level⟩

/-- How an event closes depends on what CUE and LSW were before it. -/
theorem finish_congr {b c a : State} (cue : b.cue.waiting = c.cue.waiting) (lsw : b.lsw = c.lsw) : finish b a = finish c a := by
  unfold finish gateCheck lowWaterCheck
  rw [cue, lsw]

/-- An event that leaves CUE and LSW alone ends with its marks wiped. -/
theorem finish_alone {b a : State} (cue : a.cue = (clearMarks b).cue) (lsw : a.lsw = b.lsw) : finish b a = clearMarks a :=
  finish_same (by rw [cue]; rfl) (by rw [cue]; rfl) (by rw [lsw]) (by rw [lsw])

/-- A dump does not look at CUE's marks. -/
theorem performDump_clearMarks (s : State) : performDump (clearMarks s) = clearMarks (performDump s) := by
  by_cases frozen : s.dly.state = .frozen
  · rw [performDump_of_frozen frozen, performDump_of_frozen (s := clearMarks s) frozen]
    rfl
  · have told (c : Bool) (u : State) : when c (raise .delayState) (clearMarks u) = clearMarks (when c (raise .delayState) u) := by
      cases c <;> rfl
    have settled (u : State) : settle (clearMarks u) = clearMarks (settle u) :=
      told (!decide ((u.dly.enter u.dly.settled).state = u.dly.state)) (u.withDly (u.dly.enter u.dly.settled))
    rw [performDump_of_run frozen, performDump_of_run (s := clearMarks s) frozen]
    have moved : (clearMarks s).withDly { (clearMarks s).dly with readPos := cellAfter (clearMarks s).dly.readPos (clearMarks s).dly.dumped } =
        clearMarks (s.withDly { s.dly with readPos := cellAfter s.dly.readPos s.dly.dumped }) := rfl
    rw [moved, settled]
    rfl

theorem performDump_lsw (s : State) : (performDump s).lsw = s.lsw ∧ (performDump s).cue = s.cue := by
  by_cases frozen : s.dly.state = .frozen
  · rw [performDump_of_frozen frozen]
    exact ⟨rfl, rfl⟩
  · rw [performDump_of_run frozen]
    have frame := settle_frame (s.withDly { s.dly with readPos := cellAfter s.dly.readPos s.dly.dumped })
    exact ⟨(congrArg State.lsw frame :), (congrArg State.cue frame :)⟩

/-- The entry ON AIR stays so when another is made READY. -/
theorem find_onAir_readied {q : List AlertEntry} {a : AlertEntry} {p : Pair} {f : AlertEntry → AlertEntry}
    (on : q.find? (fun x => decide (x.state = .onAir)) = some a) (other : a.header.pair ≠ p) (ready : ∀ x, (f x).state ≠ .onAir) :
    (q.map fun x => if x.header.pair = p then f x else x).find? (fun x => decide (x.state = .onAir)) = some a := by
  induction q with
  | nil => cases on
  | cons x xs ih =>
    rw [List.find?_cons] at on
    rw [List.map_cons, List.find?_cons]
    by_cases airs : x.state = .onAir
    · simp only [airs, decide_true] at on
      obtain rfl := Option.some.inj on
      simp [other, airs]
    · simp only [airs, decide_false] at on
      have no : (if x.header.pair = p then f x else x).state ≠ .onAir := by
        split
        · exact ready x
        · exact airs
      simp only [no, decide_false]
      exact ih on

/-- A PENDING alert forwarded under an ON AIR one of no lower priority, outside TEST, goes to READY and no further (R139, R142,
R145). -/
theorem forwardEntry_waits {e a : AlertEntry} {cause : ForwardCause} {s : State} (mode : s.air.mode ≠ .test)
    (on : s.alc.onAir = some a) (other : a.header.pair ≠ e.header.pair) (below : e.header.priority ≤ a.header.priority) :
    forwardEntry e cause s = readyEntry e cause s := by
  have report : readyReport (readyEntry e cause s) = readyEntry e cause s := if_neg mode
  have on' : (readyEntry e cause s).alc.onAir = some a := find_onAir_readied on other nofun
  unfold forwardEntry afterReady
  rw [report]
  dsimp only
  rw [on']
  exact if_neg (by omega)

/-- The judgement of KEY does not look at CUE's marks. -/
theorem judgeKey_frame_clearMarks (s : State) :
    (judgeKey s).cue = s.cue ∧ (judgeKey s).lsw = s.lsw :=
  ⟨(congrArg State.cue (judgeKey_frame s) :), (congrArg State.lsw (judgeKey_frame s) :)⟩

/-- A change of a settled line judges KEY, and hands its action over where the edge matches (R16 to R18). -/
theorem keyEdgeTo_of_change {k : Nth} {l : Level} {s : State} (h : ¬ ((s.tb.keys.get k).sampled = true ∧
    (s.tb.keys.get k).settled = l)) : keyEdgeTo k l s =
    let s1 := judgeKey (s.withTb { s.tb with
      keys := s.tb.keys.set k { s.tb.keys.get k with settled := l, sampled := true, differed := false } })
    if (s.tb.keys.get k).sampled && (s.tb.keys.get k).edge.acts l then keyAction (s.tb.keys.get k).action s1 else s1 := if_neg h

/-- Settles O21. -/
theorem keyLineEdgesActOnce : Obligations.KeyLineEdgesActOnce := by
  intro k l s clock r held settled
  have row : exec (.keyLineEdge k l) s = .next (event (keyEdgeTo k l) (s.withDue (s.due.erase (.keyEdge k)))) :=
    congrArg Host.Outcome.next (directRow_event clock)
  have otherLevel_ne (x : Level) : otherLevel x ≠ x := by cases x <;> exact nofun
  -- the event with its change, the start of it being the settled state with its marks wiped
  have change (h : ¬ (r.sampled = true ∧ r.settled = l)) : exec (.keyLineEdge k l) s = .next (finish settled
      (if r.sampled && r.edge.acts l then keyAction r.action (judgeKey (clearMarks settled)) else judgeKey (clearMarks settled))) := by
    rw [row]
    unfold event
    rw [keyEdgeTo_of_change (s := clearMarks (s.withDue (s.due.erase (.keyEdge k)))) h, finish_congr (c := settled) rfl rfl]
    rfl
  refine ⟨fun sampled same => ?_, fun sampled differs acts action keeps => ?_, fun quiet => ?_⟩
  · have nothing : keyEdgeTo k l (clearMarks (s.withDue (s.due.erase (.keyEdge k)))) =
        clearMarks (s.withDue (s.due.erase (.keyEdge k))) := if_pos ⟨sampled, same⟩
    rw [row, event_nothing nothing]
  · have changes : ¬ (r.sampled = true ∧ r.settled = l) := fun h => otherLevel_ne l (differs.symm.trans h.2)
    have still : judgeKey (clearMarks settled) = clearMarks settled := judgeKey_same
      ((anyHolds_set (r := { r with settled := l, sampled := true, differed := false }) action action).trans keeps)
    have acted := change changes
    rw [sampled, acts, still] at acted
    replace acted : exec (.keyLineEdge k l) s = .next (finish settled (keyAction r.action (clearMarks settled))) := acted
    refine ⟨fun a => ?_, fun a => ?_, fun a bypass => ?_, fun a moves arrives => ?_, fun a arrives => ?_, fun a empty => ?_,
      fun e o a head mode on other below => ?_⟩
    · rw [acted, a]
      exact congrArg _ (finish_alone rfl rfl)
    · rw [acted, a]
      exact congrArg _ (finish_alone rfl rfl)
    · have dump : keyDump (clearMarks settled) = logEntry .dump .none (.number 0) (clearMarks settled) := by
        unfold keyDump
        rw [show (clearMarks settled).dly.state = .run .bypass from bypass]
      rw [acted, a]
      show Host.Outcome.next (finish settled (keyDump (clearMarks settled))) = _
      rw [dump]
      exact congrArg _ (finish_alone rfl rfl)
    · have own : ownerDump settled = (performDump settled, ⟨.ok, beBytes 2 settled.dly.dumped⟩) := by
        unfold ownerDump
        split
        · exact absurd ‹_› moves
        · rfl
      have dump : keyDump (clearMarks settled) = clearMarks (performDump settled) := by
        rw [← performDump_clearMarks]
        unfold keyDump
        split
        · exact absurd ‹_› moves
        · rfl
      refine ⟨_, _, exec_answers rfl rfl (by simp) nofun (by simp) arrives own, ?_⟩
      rw [acted, a]
      show Host.Outcome.next (finish settled (keyDump (clearMarks settled))) = _
      obtain ⟨lsw, cue⟩ := performDump_lsw settled
      rw [dump, finish_alone (a := clearMarks (performDump settled)) (by simp only [clearMarks, withCue_cue, cue]) lsw,
        clearMarks_clearMarks]
    · refine ⟨_, _, exec_answers rfl rfl (by simp) nofun (by simp) arrives rfl, ?_⟩
      rw [acted, a]
      rfl
    · have none_ : keyForward (clearMarks settled) = clearMarks settled := by
        unfold keyForward
        rw [show (clearMarks settled).alc.pendingHead = none from empty]
      rw [acted, a]
      show Host.Outcome.next (finish settled (keyForward (clearMarks settled))) = _
      rw [none_]
      exact congrArg _ (finish_alone rfl rfl)
    · have forward : keyForward (clearMarks settled) = readyEntry e .key (clearMarks settled) := by
        unfold keyForward
        rw [show (clearMarks settled).alc.pendingHead = some e from head]
        exact forwardEntry_waits mode on other below
      rw [acted, a]
      show Host.Outcome.next (finish settled (keyForward (clearMarks settled))) = _
      rw [forward]
      exact congrArg _ (finish_alone rfl rfl)
  · have changes : ¬ (r.sampled = true ∧ r.settled = l) := by
      rintro ⟨sampled, same⟩
      rcases quiet with new | ⟨differs, -⟩
      · rw [sampled] at new
        cases new
      · exact otherLevel_ne l (differs.symm.trans same)
    have judged : exec (.keyLineEdge k l) s = .next (clearMarks (judgeKey (clearMarks settled))) := by
      obtain ⟨cue, lsw⟩ := judgeKey_frame_clearMarks (clearMarks settled)
      have same : (if r.sampled && r.edge.acts l then keyAction r.action (judgeKey (clearMarks settled))
          else judgeKey (clearMarks settled)) = judgeKey (clearMarks settled) := by
        rcases quiet with new | ⟨-, no | safe⟩
        · rw [new]; rfl
        · rw [no, Bool.and_false]; rfl
        · split
          · rw [safe]; rfl
          · rfl
      rw [change changes, same, finish_alone cue lsw]
    refine ⟨_, judged, ?_, fun same => ?_, fun agree => ?_, ?_⟩
    · show (judgeKey (clearMarks settled)).tb.keyHeld = true ↔ ∃ n, ((judgeKey (clearMarks settled)).tb.keys.get n).action = _ ∧
        ((judgeKey (clearMarks settled)).tb.keys.get n).settled = ((judgeKey (clearMarks settled)).tb.keys.get n).active
      rw [judgeKey_held]
      exact anyHolds_iff _
    · have still : judgeKey (clearMarks settled) = clearMarks settled := by
        refine judgeKey_same ?_
        have now : (judgeKey (clearMarks settled)).tb.keyHeld = _ := congrArg TB.keyHeld (judgeKey_held (clearMarks settled))
        exact now.symm.trans same
      rw [still, clearMarks_clearMarks]
    · obtain ⟨-, flag, on, off⟩ := judgeKey_logged (s := clearMarks settled) agree
      refine ⟨?_, on, off, flag⟩
      show (judgeKey (clearMarks settled)).out.reasons = { s.out.reasons with key := (judgeKey (clearMarks settled)).tb.keyHeld }
      rw [judgeKey_reasons (s := clearMarks settled) agree, judgeKey_held]
      rfl
    · have frame := judgeKey_frame (clearMarks settled)
      exact (congrArg (fun u : State => { clearMarks u with tb := { s.tb with keys := settled.tb.keys } }) frame :)

end Sys2Proof.Machine
end

section
/-! The readings: what each replies (R19, R49, R79, R104, R125, R149, R150, R170, R171, R186, R191, R196). -/

namespace Sys2Proof.Machine

open Sys2Proof

/-! ### A reading's reply -/

/-- A reading is permitted on every port, and changes nothing but the reply. -/
theorem exec_reads {i : Instr} {p : PortId} {code : Nat} {ps : List Byte} {s : State} {x : Reply} (free : (s.port p).Free)
    (handed : s.pi.handed = []) (clock : .clockSet ∉ s.due) (h : i.request = some ⟨p, code, ps⟩)
    (c : portsOf code = some [.a, .b, .c]) (fits : ps.length ≤ 62) (n : ∀ q, i ≠ .portReset q)
    (own : ownerAct i s = (s, x)) : exec i s = .next (replyTo p code x s) :=
  exec_answers h c fits n (by cases p <;> simp) ⟨by rw [handed]; rfl, free, clock⟩ own

theorem partBytes_length (part : Option Byte) : (partBytes part).length ≤ 1 := by
  cases part <;> simp [partBytes]

/-- The parts of a reading (R196; log 7). -/
theorem paged_eq (part : Option Byte) (v : List Byte) :
    let total := (v.length + 58) / 59
    let k := (part.map (·.toNat)).getD 0
    paged part v = if v.length ≤ 61 then (if k = 0 then ⟨.ok, v⟩ else ⟨.badValue, []⟩)
      else if total ≤ k then ⟨.badValue, []⟩
      else ⟨.ok, BitVec.ofNat 8 k :: BitVec.ofNat 8 total :: (v.drop (59 * k)).take 59⟩ := by
  unfold paged
  dsimp only
  generalize (part.map (·.toNat)).getD 0 = k
  by_cases small : v.length ≤ 61
  · simp only [small, if_true]
    by_cases first : k = 0
    · subst first
      rfl
    · rw [if_pos (by omega), if_neg first]
  · simp only [small, if_false]
    rfl

theorem flatMap_singletons {α : Type} (f : α → Byte) (xs : List α) : xs.flatMap (fun x => [f x]) = xs.map f := by
  induction xs with
  | nil => rfl
  | cons x xs ih => simp [List.flatMap_cons, ih]

/-! ### The values of each block -/

theorem counted_bytes (cs : List Byte) : counted_ (fun c => [c]) cs = byte cs.length :: cs := by
  unfold counted_
  rw [flatMap_singletons, List.map_id']

theorem slotLine_eq (l : Option Nth) : slotLine l = match l with | none => 0 | some l => byte l.number := by
  cases l <;> rfl

/-- What an optional value is sent as depends on its bytes alone. -/
theorem optional_congr {α : Type} {f g : α → List Byte} (h : ∀ x, f x = g x) : optional f = optional g := by
  rw [funext h]

theorem outstandingBytes_none {s : State} (h : s.lnk.outstanding = none) : outstandingBytes s = [1] := by
  unfold outstandingBytes
  rw [h]
  rfl

theorem outstandingBytes_some {s : State} {o : Outstanding} {q : QueuedCommand} {behind : List QueuedCommand}
    (h : s.lnk.outstanding = some o) (queue : s.lnk.queue = q :: behind) : outstandingBytes s =
      [0, byte q.command.place, byte q.command.value, byte o.number] ++ optional (fun n => [byte n]) o.firstSeq ++
        [byte (o.since + 100 - s.boundaryNo)] := by
  unfold outstandingBytes
  rw [h, queue]
  rfl

theorem remaining_eq (d : DLY) : d.remaining =
    (let distance := if d.delay < d.target then d.target - d.delay else d.delay - d.target
     if d.stepCount ≤ distance * d.ratio then distance * d.ratio - d.stepCount else 0) := by
  unfold DLY.remaining
  dsimp only
  have distance : d.target - d.delay + (d.delay - d.target) = if d.delay < d.target then d.target - d.delay else d.delay - d.target := by
    split <;> omega
  rw [distance]
  generalize (if d.delay < d.target then d.target - d.delay else d.delay - d.target) * d.ratio = n
  split <;> omega

/-! ### READ CUE -/

/-- The place after a named entry, with the entries that follow it (R58, R79). -/
theorem placeAfter_of_split {x : CUE} {before rest : List CueEntry} {e : CueEntry} {n : Nat} (list : x.list = before ++ e :: rest)
    (some_ : n ≠ 0) (named : e.serial = n) (first : ∀ q ∈ before, q.serial ≠ n) : x.placeAfter n = some (before.length + 1) := by
  unfold CUE.placeAfter
  rw [if_neg some_, list, List.findIdx?_append, List.findIdx?_eq_none_iff.2 (by simpa using first), List.findIdx?_cons]
  simp [named]

theorem placeAfter_missing {x : CUE} {n : Nat} (some_ : n ≠ 0) (missing : ∀ e ∈ x.list, e.serial ≠ n) : x.placeAfter n = none := by
  unfold CUE.placeAfter
  rw [if_neg some_, List.findIdx?_eq_none_iff.2 (by simpa using missing)]
  rfl

theorem serialBytes_eq (e : Option CueEntry) : serialBytes e = match e with | none => [0, 0] | some e => beBytes 2 e.serial := by
  cases e <;> rfl

/-- The bits of READ CUE's flags (R79; log 8). -/
theorem cueFlags_eq (held armed further : Bool) : flagBit held 0 ||| flagBit armed 1 ||| flagBit further 2 =
    byte ((if held then 1 else 0) + (if armed then 2 else 0) + (if further then 4 else 0)) := by
  cases held <;> cases armed <;> cases further <;> decide

/-- The byte of an entry's timing: a HARD time reached in bit 7, a join end that follows in bit 6 (R79; log 8). -/
theorem timingByte_eq (e : CueEntry) : e.timingByte = byte (e.timing.place + (if e.timeReached then 128 else 0) +
    (if e.endTime.isSome then 64 else 0)) := by
  unfold CueEntry.timingByte
  generalize e.endTime.isSome = ends
  generalize e.timeReached = reached
  cases e.timing <;> cases reached <;> cases ends <;> simp only [Timing.place] <;> decide

theorem onAir_iff (e : CueEntry) : e.onAir = true ↔ e.state = .playing ∨ e.state = .fading ∨ e.state = .suspended :=
  decide_eq_true_iff

/-! ### READ ALERT TABLES -/

theorem insertByCode_perm (r : EventCode × EventAction) (xs : List (EventCode × EventAction)) :
    (insertByCode r xs).Perm (r :: xs) := by
  induction xs with
  | nil => exact .refl _
  | cons x rest ih =>
    unfold insertByCode
    split
    · exact .refl _
    · exact (ih.cons x).trans (.swap r x rest)

/-- An inserted record keeps a table in the order of its codes (R150). -/
theorem insertByCode_sorted {r : EventCode × EventAction} {xs : List (EventCode × EventAction)}
    (h : xs.Pairwise fun a b => a.1.rank ≤ b.1.rank) : (insertByCode r xs).Pairwise fun a b => a.1.rank ≤ b.1.rank := by
  induction xs with
  | nil => exact List.pairwise_singleton _ _
  | cons x rest ih =>
    obtain ⟨first, others⟩ := List.pairwise_cons.1 h
    unfold insertByCode
    split
    · rename_i less
      refine List.pairwise_cons.2 ⟨fun y mem => ?_, h⟩
      rcases List.mem_cons.1 mem with rfl | mem
      · omega
      · have := first y mem
        omega
    · rename_i notLess
      refine List.pairwise_cons.2 ⟨fun y mem => ?_, ih others⟩
      rcases List.mem_cons.1 ((insertByCode_perm r rest).subset mem) with rfl | mem
      · omega
      · exact first y mem

theorem sortedEvents_spec (x : ALC) :
    x.sortedEvents.Perm x.events ∧ x.sortedEvents.Pairwise fun a b => a.1.rank ≤ b.1.rank := by
  unfold ALC.sortedEvents
  induction x.events with
  | nil => exact ⟨.refl _, .nil⟩
  | cons r rest ih => exact ⟨(insertByCode_perm r _).trans (ih.1.cons r), insertByCode_sorted ih.2⟩

theorem tablePage_of_le {α : Type} {start : Byte} (f : α → List Byte) (xs : List α) (h : start.toNat ≤ 31) :
    tablePage start f xs = ⟨.ok, start :: ((xs.drop start.toNat).take 14).flatMap f⟩ := if_neg (by omega)

theorem tablePage_outside {α : Type} {start : Byte} (f : α → List Byte) (xs : List α) (h : 31 < start.toNat) :
    tablePage start f xs = ⟨.badValue, []⟩ := if_pos h

/-! ### READ LOG -/

/-- The entries from a place on, oldest first, as a page takes them (R191). -/
theorem reverse_take (xs : List LogEntry) (back : Nat) (h : back < xs.length) :
    (xs.take (back + 1)).reverse = xs.reverse.drop (xs.length - 1 - back) := by
  rw [List.reverse_take]
  congr 1
  omega

/-- What READ LOG returns of a log that holds entries, and whether some were overwritten (R191). -/
theorem readLog_spec {l : LOG} {newest : LogEntry} {older : List LogEntry} (start count : Nat) (h : l.entries = newest :: older) :
    let held := older.length + 1
    let back := if start ≤ newest.serial then newest.serial - start else newest.serial + 4294967295 - start
    (start = 0 → l.page start count = l.entries.reverse.take (min count 2) ∧ (l.first start).map (·.2) = some false) ∧
    (start ≠ 0 → back < held → l.page start count = (l.entries.reverse.drop (held - 1 - back)).take (min count 2) ∧
      (l.first start).map (·.2) = some false) ∧
    (start ≠ 0 → held ≤ back → back < 2147483648 → l.page start count = l.entries.reverse.take (min count 2) ∧
      (l.first start).map (·.2) = some true) ∧
    (start ≠ 0 → held ≤ back → 2147483648 ≤ back → l.page start count = [] ∧ l.first start = none) := by
  intro held back
  have size : l.entries.length = held := by rw [h]; rfl
  have all : (l.entries.take (held - 1 + 1)).reverse = l.entries.reverse := by
    rw [← size, List.take_of_length_le (by have : held = older.length + 1 := rfl; omega)]
  have first : l.first start = if start = 0 then some (held - 1, false) else if back < held then some (back, false)
      else if back < 2147483648 then some (held - 1, true) else none := by
    unfold LOG.first
    rw [h]
    rfl
  refine ⟨fun zero => ?_, fun some_ within => ?_, fun some_ gone near => ?_, fun some_ gone ahead => ?_⟩
  · have found : l.first start = some (held - 1, false) := by rw [first, if_pos zero]
    refine ⟨?_, by rw [found]; rfl⟩
    unfold LOG.page
    simp only [found, all]
  · have found : l.first start = some (back, false) := by rw [first, if_neg some_, if_pos within]
    refine ⟨?_, by rw [found]; rfl⟩
    unfold LOG.page
    simp only [found]
    rw [reverse_take _ _ (by rw [size]; exact within), size]
  · have found : l.first start = some (held - 1, true) := by rw [first, if_neg some_, if_neg (by omega), if_pos near]
    refine ⟨?_, by rw [found]; rfl⟩
    unfold LOG.page
    simp only [found, all]
  · have found : l.first start = none := by rw [first, if_neg some_, if_neg (by omega), if_neg (by omega)]
    refine ⟨?_, found⟩
    unfold LOG.page
    simp only [found]

/-! ### All readings -/

/-- The values of READ TIMEBASE (R19). -/
theorem timebaseValues_eq (s : State) : timebaseValues s =
    (let t := s.tb
     let house := decide (200 ≤ t.houseCount);
      [byte t.source.place] ++ optional (fun c => [byte (ClockSource.place c)]) t.pendingSource ++
      [0, yesNo house, yesNo (decide (t.link = .up))] ++ beBytes 4 t.clock ++ [yesNo t.clockSet, yesNo t.pendingTime.isSome] ++
      ([t.keys.get .n1, t.keys.get .n2, t.keys.get .n3, t.keys.get .n4].flatMap fun k =>
        [byte k.action.place, byte k.edge.place, byte (Level.place k.active), byte (Level.place k.settled)]) ++
      [yesNo t.keyHeld]) := rfl

/-- The values of READ AIR (R49). -/
theorem airValues_eq (s : State) : airValues s = (let a := s.air;
      [byte a.mode.place] ++ (selectedSource s).bytes ++ optional Source.bytes a.chainSource ++
      [byte a.chain.place, byte a.maxDepth, byte a.stack.length] ++
      (a.stack.flatMap fun r => [byte r.number, byte r.kind.place] ++ r.before.bytes ++
        optional (fun e : Nat × Nat => beBytes 2 e.1 ++ beBytes 3 e.2) r.suspended ++
        byte r.parked.length :: (r.parked.flatMap fun l => [byte l.1.number, byte l.2.place]) ++
        optional (fun d => [byte (RunState.place d)]) r.delayBefore ++
        optional (fun e : Nat × Nat => beBytes 2 e.1 ++ beBytes 4 e.2) r.late) ++
      a.free.map byte) := rfl

/-- The values of READ OUTPUT (R170). -/
theorem outputValues_eq (s : State) : outputValues s = (let o := s.out;
      [yesNo o.reasons.key, yesNo o.reasons.port, yesNo o.reasons.silence, yesNo o.reasons.test, yesNo o.reasons.resumeLost,
       yesNo s.tb.keyHeld, yesNo o.alertFlag] ++ optional Pair.bytes o.alertId ++
      [BitVec.ofInt 8 (-(o.threshold : Int))] ++ beBytes 2 o.silenceTime ++ beBytes 2 o.restoreTime ++ [yesNo o.failover] ++
      beBytes 2 o.quietRun ++ beBytes 2 o.soundRun ++ [yesNo o.deadAir] ++ optional Origin.bytes o.origin ++
      optional (fun e : Nat × Long => beBytes 2 e.1 ++ longBytes e.2) o.entry ++
      [Nth.n1, .n2, .n3, .n4].map (fun l => yesNo (o.lines.get l)) ++
      beBytes 4 o.entryRun ++ beBytes 4 o.carriedRun ++ [yesNo o.carrying]) := rfl

/-- The values of READ LINES (R104). -/
theorem lineValues_eq (s : State) : lineValues s =
    (let w := s.lsw
     let holds (l : Option Nth) : Byte := byte ((l.map Nth.number).getD 0);
     ([Nth.n1, .n2, .n3, .n4].flatMap fun l => let r := w.lines.get l
        [byte r.state.place] ++ optional (fun s => [byte (Slot.place s)]) (w.slotOf l) ++
        optional (fun cs : List Byte => byte cs.length :: cs) r.note ++ optional (beBytes 4) r.waiting ++
        optional (fun c : Nat × Nat => beBytes 4 c.1 ++ [byte c.2]) r.onAir ++ [yesNo r.state.offHook] ++
        optional (fun l => [byte (Level.place l)]) r.ring ++ optional (fun l => [byte (Level.place l)]) r.loop) ++
      byte w.queue.length :: w.queue.map (fun l => byte l.number) ++
      [holds w.slotA, holds w.slotB, yesNo w.dropOnDump, yesNo w.liveCalls] ++
      [Nth.n1, .n2, .n3, .n4].map fun l => byte (w.ringEdges.get l).place) := by
  have queue : counted_ (fun l => [byte (Nth.number l)]) s.lsw.queue =
      byte s.lsw.queue.length :: s.lsw.queue.map (fun l => byte l.number) := by
    unfold counted_
    rw [flatMap_singletons]
  have bytes : lineBytes s.lsw = fun l => let r := s.lsw.lines.get l
      [byte r.state.place] ++ optional (fun s => [byte (Slot.place s)]) (s.lsw.slotOf l) ++
      optional (fun cs : List Byte => byte cs.length :: cs) r.note ++ optional (beBytes 4) r.waiting ++
      optional (fun c : Nat × Nat => beBytes 4 c.1 ++ [byte c.2]) r.onAir ++ [yesNo r.state.offHook] ++
      optional (fun l => [byte (Level.place l)]) r.ring ++ optional (fun l => [byte (Level.place l)]) r.loop := by
    funext l
    unfold lineBytes
    rw [optional_congr counted_bytes]
    rfl
  unfold lineValues
  dsimp only
  rw [queue, bytes]
  rfl

/-- The values of READ SITE (R186). -/
theorem siteValues_eq (s : State) : siteValues s =
    (let z := s.site;
     [byte z.state.place] ++ optional (fun n => [byte n]) z.power ++ [byte z.stepBeforeLow] ++
      (z.resources.flatMap fun r => [byte (r.slot.getD 255), yesNo r.keepInLow] ++
        optional (fun cs : List Byte => byte cs.length :: cs) r.label ++ [yesNo r.commanded, byte r.reported.place]) ++
      [byte (if z.slotLength = 0 then 0 else if z.slotLength = 200 then 1 else if z.slotLength = 400 then 2 else 3),
       byte z.fullStep, byte z.lowStep, yesNo z.restorePrevious, yesNo z.sequentialOff] ++
      beBytes 4 z.lowTime ++ beBytes 4 z.fullTime ++ [yesNo z.windowEnabled] ++
      optional (fun m => [byte (SiteMode.place m)]) z.lastMode ++ optional (fun n => [byte n]) z.reportedStep ++
      optional (fun st : Stage => [byte st.kind.place, byte (if st.kind = .power then st.step else st.slot.getD 255),
        byte st.toPut.length, byte st.awaiting.length] ++ beBytes 2 st.age) z.stage ++ [yesNo z.pendingWake]) := by
  have bytes : Resource.bytes = fun r => [byte (r.slot.getD 255), yesNo r.keepInLow] ++
      optional (fun cs : List Byte => byte cs.length :: cs) r.label ++ [yesNo r.commanded, byte r.reported.place] := by
    funext r
    unfold Resource.bytes
    rw [optional_congr counted_bytes]
  unfold siteValues
  rw [bytes]
  rfl

/-- The summary of READ ALERTS (R149). -/
theorem alertSummary_eq (x : ALC) : alertSummary x =
    (let q := x.queue
     let count (st : AlertState) : Byte := byte (q.filter fun e => decide (e.state = st)).length
     let head (st : AlertState) : Option AlertEntry := q.find? fun e => decide (e.state = st)
     [byte q.length, count .pending, count .ready, yesNo x.chainOpen, if x.go then 0 else 1] ++
      optional (fun e : AlertEntry => e.header.pair.bytes ++ beBytes 2 e.played) (head .onAir) ++
      optional (fun e : AlertEntry => e.header.pair.bytes) (head .ready) ++
      optional (fun e : AlertEntry => e.header.pair.bytes) (head .pending)) := by
  have pair (e : Option AlertEntry) : optional Pair.bytes (pairOf e) = optional (fun e : AlertEntry => e.header.pair.bytes) e := by
    cases e <;> rfl
  have go : levelByte (if x.go then .high else .low) = if x.go then 0 else 1 := by cases x.go <;> rfl
  unfold alertSummary
  rw [pair, pair, go]
  rfl

/-- A reading finds its port free, nothing at an owner and no SET CLOCK left due. -/
def ReadsOn (p : PortId) (s : State) : Prop := (s.port p).Free ∧ s.pi.handed = [] ∧ .clockSet ∉ s.due

theorem partBytes_fits (part : Option Byte) : (partBytes part).length ≤ 62 := (partBytes_length part).trans (by omega)

/-- The answer to a reading whose values may take several parts. -/
def pagedAnswer (p : PortId) (code : Nat) (part : Option Byte) (s : State) (v : List Byte) : Next :=
  .next (replyTo p code (paged part v) s)

theorem exec_readTimebase {p : PortId} {part : Option Byte} {s : State} (on : ReadsOn p s) :
    exec (.readTimebase p part) s = pagedAnswer p 8 part s (timebaseValues s) :=
  exec_reads on.1 on.2.1 on.2.2 rfl rfl (partBytes_fits part) nofun rfl

theorem exec_readAir {p : PortId} {part : Option Byte} {s : State} (on : ReadsOn p s) :
    exec (.readAir p part) s = pagedAnswer p 16 part s (airValues s) :=
  exec_reads on.1 on.2.1 on.2.2 rfl rfl (partBytes_fits part) nofun rfl

theorem exec_readLines {p : PortId} {part : Option Byte} {s : State} (on : ReadsOn p s) :
    exec (.readLines p part) s = pagedAnswer p 40 part s (lineValues s) :=
  exec_reads on.1 on.2.1 on.2.2 rfl rfl (partBytes_fits part) nofun rfl

theorem exec_readOutput {p : PortId} {part : Option Byte} {s : State} (on : ReadsOn p s) :
    exec (.readOutput p part) s = pagedAnswer p 80 part s (outputValues s) :=
  exec_reads on.1 on.2.1 on.2.2 rfl rfl (partBytes_fits part) nofun rfl

theorem exec_readLink {p : PortId} {part : Option Byte} {s : State} (on : ReadsOn p s) :
    exec (.readLink p part) s = pagedAnswer p 88 part s (linkValues s) :=
  exec_reads on.1 on.2.1 on.2.2 rfl rfl (partBytes_fits part) nofun rfl

theorem exec_readSite {p : PortId} {part : Option Byte} {s : State} (on : ReadsOn p s) :
    exec (.readSite p part) s = pagedAnswer p 96 part s (siteValues s) :=
  exec_reads on.1 on.2.1 on.2.2 rfl rfl (partBytes_fits part) nofun rfl

theorem exec_readDelay {p : PortId} {s : State} (on : ReadsOn p s) :
    exec (.readDelay p) s = .next (replyTo p 56 ⟨.ok, delayValues s⟩ s) :=
  exec_reads on.1 on.2.1 on.2.2 rfl rfl (by simp) nofun rfl

theorem exec_readCue {p : PortId} {start : Half} {s : State} {r : Reply} (on : ReadsOn p s)
    (own : ownerReadCue start s = (s, r)) : exec (.readCue p start) s = .next (replyTo p 24 r s) :=
  exec_reads on.1 on.2.1 on.2.2 rfl rfl (by simp [halfBytes]) nofun own

theorem exec_readAlerts {p : PortId} {x : Byte} {part : Option Byte} {s : State} {r : Reply} (on : ReadsOn p s)
    (own : ownerReadAlerts x part s = (s, r)) : exec (.readAlerts p x part) s = .next (replyTo p 64 r s) :=
  exec_reads on.1 on.2.1 on.2.2 rfl rfl (Nat.succ_le_of_lt ((partBytes_length part).trans_lt (by omega))) nofun own

theorem exec_readAlertTables {p : PortId} {x y : Byte} {s : State} {r : Reply} (on : ReadsOn p s)
    (own : ownerReadAlertTables x y s = (s, r)) : exec (.readAlertTables p x y) s = .next (replyTo p 65 r s) :=
  exec_reads on.1 on.2.1 on.2.2 rfl rfl (by simp) nofun own

theorem exec_readLog {p : PortId} {start : Long} {n : Byte} {s : State} {r : Reply} (on : ReadsOn p s)
    (own : ownerReadLog start n s = (s, r)) : exec (.readLog p start n) s = .next (replyTo p 112 r s) :=
  exec_reads on.1 on.2.1 on.2.2 rfl rfl (by simp [longBytes]) nofun own

/-- READ CUE from a place that is there (R79). -/
theorem readCue_from {start : Half} {k : Nat} {rest : List CueEntry} {s : State}
    (place : s.cue.placeAfter start.toNat = some k) (from_ : s.cue.list.drop k = rest) :
    ownerReadCue start s = (s, ⟨.ok, [byte s.cue.list.length] ++ serialBytes s.cue.playing ++ serialBytes s.cue.fading ++
      serialBytes s.cue.cued ++ serialBytes (s.cue.inState .cuedLate) ++
      [byte ((if s.cue.held then 1 else 0) + (if s.cue.armed then 2 else 0) + (if 2 < rest.length then 4 else 0)),
       byte s.cue.waiting, byte s.cue.threshold] ++ beBytes 2 s.cue.counter ++
      (rest.take 2).flatMap CueEntry.bytes⟩) := by
  unfold ownerReadCue
  rw [place]
  dsimp only
  rw [from_]
  unfold cueSummary
  rw [cueFlags_eq]
  simp only [decide_eq_true_iff]

/-- What follows the kind's own fields in an entry's bytes (R79; log 8). -/
theorem cueEntry_bytes (e : CueEntry) : e.bytes = beBytes 2 e.serial ++ [byte e.channelPlace] ++
    (match e.kind with
      | .item _ len _ _ => beBytes 3 (len.getD 0) ++ beBytes 2 (e.fade.getD 0)
      | .join _ len => beBytes 3 len
      | .stop => []) ++
    [byte (e.timing.place + (if e.timeReached then 128 else 0) + (if e.endTime.isSome then 64 else 0))] ++
    present (beBytes 4) e.timing.time ++ [byte (16 * e.policyPlace + e.state.place)] ++ longBytes e.logRef ++
    (if e.state = .playing ∨ e.state = .fading ∨ e.state = .suspended then beBytes 3 e.elapsed else []) ++
    present (beBytes 4) e.endTime := by
  unfold CueEntry.bytes
  rw [timingByte_eq]
  simp only [onAir_iff] <;> rfl

/-- What follows an entry's timing byte but for its join end (R79; log 8). -/
def CueEntry.tail (e : CueEntry) (policy : Nat) : List Byte :=
  present (beBytes 4) e.timing.time ++ [byte (16 * policy + e.state.place)] ++ longBytes e.logRef ++
    (if e.state = .playing ∨ e.state = .fading ∨ e.state = .suspended then beBytes 3 e.elapsed else [])

/-- The place of an entry's timing, with bit 7 for a HARD time reached (log 8). -/
def CueEntry.timed (e : CueEntry) : Nat := e.timing.place + if e.timeReached then 128 else 0

theorem item_bytes {e : CueEntry} {ch : Nth} {len : Option Nat} {g : Segue} {pol : Policy} (kind : e.kind = .item ch len g pol) :
    e.bytes = beBytes 2 e.serial ++ [byte ch.place] ++ beBytes 3 (len.getD 0) ++ beBytes 2 (e.fade.getD 0) ++ [byte e.timed] ++
      e.tail pol.place := by
  rw [cueEntry_bytes]
  simp [CueEntry.channelPlace, CueEntry.policyPlace, CueEntry.endTime, CueEntry.feed, kind, present, CueEntry.tail, CueEntry.timed]

theorem join_bytes {e : CueEntry} {f : Feed} {len : Nat} (kind : e.kind = .join f len) :
    e.bytes = beBytes 2 e.serial ++ [byte f.code] ++ beBytes 3 len ++
      [byte (e.timed + if e.joinEnd.isSome then 64 else 0)] ++ e.tail 3 ++ present (beBytes 4) e.joinEnd := by
  rw [cueEntry_bytes]
  simp [CueEntry.channelPlace, CueEntry.policyPlace, CueEntry.endTime, CueEntry.feed, kind, CueEntry.tail, CueEntry.timed]

theorem stop_bytes {e : CueEntry} (kind : e.kind = .stop) :
    e.bytes = beBytes 2 e.serial ++ [255] ++ [byte e.timed] ++ e.tail 4 := by
  rw [cueEntry_bytes]
  simp [CueEntry.channelPlace, CueEntry.policyPlace, CueEntry.endTime, CueEntry.feed, kind, present, CueEntry.tail, CueEntry.timed]
  rfl

/-- READ LOG of a count that is allowed (R191). -/
theorem readLog_gives {start : Long} {n : Byte} {s : State} {page : List LogEntry} {gap : Bool} (least : 1 ≤ n.toNat)
    (most : n.toNat ≤ 8) (pages : s.log.page start.toNat n.toNat = page)
    (gaps : ((s.log.first start.toNat).map (·.2)).getD false = gap) : ownerReadLog start n s =
      (s, ⟨.ok, byte (page.length + if gap then 128 else 0) :: (beBytes 4 ((s.log.entries.head?.map (·.serial)).getD 0) ++
        beBytes 2 s.log.entries.length ++ page.flatMap LogEntry.bytes)⟩) := by
  unfold ownerReadLog
  rw [if_neg (by omega)]
  dsimp only
  rw [pages, gaps]

theorem exec_readLink_none {p : PortId} {part : Option Byte} {s : State} (on : ReadsOn p s) (h : s.lnk.outstanding = none) :
    exec (.readLink p part) s = pagedAnswer p 88 part s
      ([byte (linkPlace s.lnk.state), byte s.lnk.good] ++ beBytes 2 s.lnk.missing ++ optional (fun n => [byte n]) s.lnk.lastSent ++
        optional (fun n => [byte n]) s.lnk.lastEcho ++ [1] ++
        byte s.lnk.queue.length :: (s.lnk.queue.flatMap fun q => [byte q.command.place, byte q.command.value]) ++
        [byte s.lnk.nextNumber] ++
        optional (fun f : ReturnFrame => [byte f.mode.place] ++ f.resources.map (fun r => byte (Reported.place r)) ++
          [byte f.power, yesNo f.fill]) s.lnk.delivered ++ [yesNo s.lnk.siteFill]) := by
  rw [exec_readLink on]
  unfold linkValues LNK.behind
  dsimp only
  rw [outstandingBytes_none h, h]
  rfl

theorem exec_readLink_some {p : PortId} {part : Option Byte} {s : State} {o : Outstanding} {q : QueuedCommand}
    {behind : List QueuedCommand} (on : ReadsOn p s) (h : s.lnk.outstanding = some o) (queue : s.lnk.queue = q :: behind) :
    exec (.readLink p part) s = pagedAnswer p 88 part s
      ([byte (linkPlace s.lnk.state), byte s.lnk.good] ++ beBytes 2 s.lnk.missing ++ optional (fun n => [byte n]) s.lnk.lastSent ++
        optional (fun n => [byte n]) s.lnk.lastEcho ++
        ([0, byte q.command.place, byte q.command.value, byte o.number] ++ optional (fun n => [byte n]) o.firstSeq ++
          [byte (o.since + 100 - s.boundaryNo)]) ++
        byte behind.length :: (behind.flatMap fun q => [byte q.command.place, byte q.command.value]) ++
        [byte s.lnk.nextNumber] ++
        optional (fun f : ReturnFrame => [byte f.mode.place] ++ f.resources.map (fun r => byte (Reported.place r)) ++
          [byte f.power, yesNo f.fill]) s.lnk.delivered ++ [yesNo s.lnk.siteFill]) := by
  rw [exec_readLink on]
  unfold linkValues LNK.behind
  dsimp only
  rw [outstandingBytes_some h queue, h, queue]
  rfl

/-- Settles O60. -/
theorem readingsReplyTheState : Obligations.ReadingsReplyTheState := by
  intro p part x y n start from_ s free handed clock
  have on : ReadsOn p s := ⟨free, handed, clock⟩
  have answer {code : Nat} {v w : List Byte} (h : v = w) : pagedAnswer p code part s v = pagedAnswer p code part s w := by rw [h]
  refine ⟨paged_eq part, (exec_readTimebase on).trans (answer (timebaseValues_eq s)),
    (exec_readAir on).trans (answer (airValues_eq s)), ?_,
    (exec_readOutput on).trans (answer (outputValues_eq s)),
    ⟨exec_readLink_none on, fun o q behind => exec_readLink_some on⟩,
    (exec_readSite on).trans (answer (siteValues_eq s)), ?_, fun some_ missing => exec_readCue on ?_, ?_, fun e => ?_,
    fun beyond => exec_readAlerts on (if_pos beyond), fun empty within => exec_readAlerts on ?_,
    ⟨fun zero => exec_readAlerts on ?_, fun e least within found => exec_readAlerts on ?_⟩,
    fun zero => exec_readAlertTables on ?_, fun events within => ?_, fun paged outside => exec_readAlertTables on ?_,
    fun times => exec_readAlertTables on ?_, fun duplicates within => exec_readAlertTables on ?_,
    fun beyond => exec_readAlertTables on ?_, fun bad => exec_readLog on (if_pos (by omega)), fun least within => ?_⟩
  · intro w slot holds
    have same : holds = slotLine := by funext l; cases l <;> rfl
    have lines := (exec_readLines on).trans (answer (lineValues_eq s))
    show exec _ s = _
    rw [same]
    exact lines
  · have delay {v : List Byte} (h : delayValues s = v) : exec (.readDelay p) s = .next (replyTo p 56 ⟨.ok, v⟩ s) := by
      rw [exec_readDelay on, h]
    refine ⟨fun st => delay ?_, fun st => delay ?_, fun st => delay ?_, fun st => delay ?_, fun st => delay ?_⟩
    all_goals
      unfold delayValues
      dsimp only
      rw [st]
    · rfl
    · rw [remaining_eq]; rfl
    · rfl
    · rw [remaining_eq]; rfl
    · rfl
  · unfold ownerReadCue
    rw [placeAfter_missing some_ missing]
    rfl
  · intro serial cue
    have same : serial = serialBytes := by funext e; cases e <;> rfl
    have gives {k : Nat} {rest : List CueEntry} (place : s.cue.placeAfter start.toNat = some k)
        (from_ : s.cue.list.drop k = rest) : cue rest := by
      show exec _ s = _
      rw [same]
      exact exec_readCue on (readCue_from place from_)
    refine ⟨fun head => gives (k := 0) (if_pos head) rfl, fun before e rest list some_ named first =>
      gives (placeAfter_of_split list some_ named first) (by simp [list])⟩
  · intro tail timing reached
    have time : e.timed = timing := by
      show e.timing.place + _ = (match e.timing with | .none => 0 | .hard _ => if e.timeReached then 129 else 1 | .breakIn _ => 2)
      cases h : e.timing <;> cases r : e.timeReached <;> simp [Timing.place, h, r] at reached ⊢
    have tails (policy : Nat) : e.tail policy = tail policy := by
      show present (beBytes 4) e.timing.time ++ _ ++ _ ++ _ =
        (match e.timing with | .none => [] | .hard t => beBytes 4 t | .breakIn t => beBytes 4 t) ++ _ ++ _ ++ _
      cases e.timing <;> rfl
    refine ⟨fun ch len g pol kind => ?_, fun f len kind => ?_, fun kind => ?_⟩
    · rw [item_bytes kind, time, tails]
      unfold CueEntry.fade
      rw [kind]
      cases g <;> rfl
    · rw [join_bytes kind, time, tails]
      cases e.joinEnd <;> rfl
    · rw [stop_bytes kind, time, tails]
  · unfold ownerReadAlerts
    rw [if_neg (by omega), if_neg (by omega), List.getElem?_eq_none (by omega)] <;> rfl
  · unfold ownerReadAlerts
    rw [if_neg (by omega), if_pos zero, alertSummary_eq]
  · unfold ownerReadAlerts
    rw [if_neg (by omega), if_neg (by omega), found, alertSummary_eq]
    simp only [AlertEntry.bytes, Header.bytes, counted_, List.append_assoc, List.cons_append]
  · unfold ownerReadAlertTables
    simp only [zero] <;> rfl
  · obtain ⟨perm, sorted⟩ := sortedEvents_spec s.alc
    refine ⟨s.alc.sortedEvents, perm, sorted, exec_readAlertTables on ?_⟩
    unfold ownerReadAlertTables
    simp only [events]
    exact congrArg (Prod.mk s) (tablePage_of_le _ _ within)
  · unfold ownerReadAlertTables
    rcases paged with h | h
    · simp only [h]
      exact congrArg (Prod.mk s) (tablePage_outside _ _ outside)
    · simp only [h]
      exact congrArg (Prod.mk s) (tablePage_outside _ _ outside)
  · unfold ownerReadAlertTables
    simp only [times]
    rfl
  · unfold ownerReadAlertTables
    simp only [duplicates]
    exact congrArg (Prod.mk s) (tablePage_of_le _ _ within)
  · unfold ownerReadAlertTables
    split
    all_goals first | omega | rfl
  · have gives {page : List LogEntry} {gap : Bool} (pages : s.log.page from_.toNat n.toNat = page)
        (gaps : ((s.log.first from_.toNat).map (·.2)).getD false = gap) :=
      exec_readLog on (readLog_gives least within pages gaps)
    refine ⟨fun empty => ?_, fun newest older entries => ?_⟩
    · have none_ : s.log.first from_.toNat = none := by unfold LOG.first; rw [empty]
      refine (gives (page := []) (gap := false) (by unfold LOG.page; rw [none_]) (by rw [none_]; rfl)).trans ?_
      rw [empty]
      rfl
    · obtain ⟨zero, inside, overwritten, ahead⟩ := readLog_spec (l := s.log) from_.toNat n.toNat entries
      have size : s.log.entries.length = older.length + 1 := by rw [entries]; rfl
      have head : (s.log.entries.head?.map (·.serial)).getD 0 = newest.serial := by rw [entries]; rfl
      refine ⟨fun h => ?_, fun h w => ?_, fun h g w => ?_, fun h g w => ?_⟩
      · obtain ⟨pages, gap⟩ := zero h
        exact (gives pages (gap := false) (by rw [gap]; rfl)).trans (by rw [size, head]; rfl)
      · obtain ⟨pages, gap⟩ := inside h w
        exact (gives pages (gap := false) (by rw [gap]; rfl)).trans (by rw [size, head]; rfl)
      · obtain ⟨pages, gap⟩ := overwritten h g w
        exact (gives pages (gap := true) (by rw [gap]; rfl)).trans (by rw [size, head]; rfl)
      · obtain ⟨pages, gap⟩ := ahead h g w
        exact (gives pages (gap := false) (by rw [gap]; rfl)).trans (by rw [size, head]; rfl)

end Sys2Proof.Machine
end

section
/-! Return frames, the carrying report, and LINK RESTART (R161, R163, R165, section 10.6). -/

namespace Sys2Proof.Machine

open Sys2Proof

/-! ### Return frames -/

/-- A list whose every item has a value has the list of them. -/
theorem mapM_of_some {α β : Type} {f : α → Option β} {g : α → β} (xs : List α) (h : ∀ x ∈ xs, f x = some (g x)) :
    xs.mapM f = some (xs.map g) := by
  induction xs with
  | nil => rfl
  | cons x xs ih =>
    rw [List.mapM_cons, h x (List.mem_cons_self ..), ih fun y mem => h y (List.mem_cons_of_mem _ mem)]
    rfl

/-- A list with an item that has none has none. -/
theorem mapM_of_none {α β : Type} {f : α → Option β} {xs : List α} {x : α} (mem : x ∈ xs) (h : f x = none) :
    xs.mapM f = none := by
  induction xs with
  | nil => cases mem
  | cons y ys ih =>
    rw [List.mapM_cons]
    rcases List.mem_cons.1 mem with rfl | mem
    · rw [h]
      rfl
    · rw [ih mem]
      cases f y <;> rfl

theorem half_toNat (x y : Byte) : (half x y).toNat = x.toNat * 256 + y.toNat := by
  unfold half
  rw [BitVec.toNat_append, Nat.shiftLeft_eq, Nat.mul_comm, ← Nat.two_pow_add_eq_or_of_lt y.isLt]

/-- The two bits of a resource in bytes 2 and 3 of a return frame (section 10.6). -/
theorem resource_bits (r1 r2 : Byte) (r : Nat) (small : r < 8) :
    (half r1 r2).toNat / 4 ^ r % 4 = (if r < 4 then r2.toNat / 4 ^ r else r1.toNat / 4 ^ (r - 4)) % 4 := by
  rw [half_toNat]
  have h1 := r1.isLt
  have h2 := r2.isLt
  obtain rfl | rfl | rfl | rfl | rfl | rfl | rfl | rfl : r = 0 ∨ r = 1 ∨ r = 2 ∨ r = 3 ∨ r = 4 ∨ r = 5 ∨ r = 6 ∨ r = 7 := by omega
  all_goals
    norm_num
    omega

theorem reportedOf_of_le {n : Nat} (h : n ≤ 2) : reportedOf n = some ([Reported.off, .on, .fault].getD n .off) := by
  obtain rfl | rfl | rfl : n = 0 ∨ n = 1 ∨ n = 2 := by omega
  all_goals rfl

theorem reportedOf_outside {n : Nat} (h : 2 < n) : reportedOf n = none := by
  unfold reportedOf
  split <;> first | omega | rfl

theorem siteModeOf_of_le {n : Nat} (h : n ≤ 3) : siteModeOf n = some ([SiteMode.off, .full, .low, .fault].getD n .off) := by
  obtain rfl | rfl | rfl | rfl : n = 0 ∨ n = 1 ∨ n = 2 ∨ n = 3 := by omega
  all_goals rfl

theorem siteModeOf_outside {n : Nat} (h : 3 < n) : siteModeOf n = none := by
  unfold siteModeOf
  split <;> first | omega | rfl

/-- Bits 4 and 5 of the acknowledgement byte are clear when it says so by its number. -/
theorem ack_bits (ack : Byte) : (ack.toNat / 16 % 4 = 0 ↔ ack.getLsbD 4 = false ∧ ack.getLsbD 5 = false) ∧
    (ack.getLsbD 7 = true ↔ ¬ ack.toNat < 128) ∧ (!ack.getLsbD 6) = decide (ack.toNat / 64 % 2 = 0) := by
  have small := ack.isLt
  simp only [← BitVec.testBit_toNat, Nat.testBit_eq_decide_div_mod_eq, decide_eq_true_iff, decide_eq_false_iff_not]
  refine ⟨by omega, by omega, ?_⟩
  rw [← decide_not]
  exact decide_eq_decide.2 (by omega)

/-- The code of a resource in bytes 2 and 3 of a return frame. -/
def resourceCode (r1 r2 : Byte) (r : Nat) : Nat := (if r < 4 then r2.toNat / 4 ^ r else r1.toNat / 4 ^ (r - 4)) % 4

/-- A return frame's bytes are good: its check is correct and its fields are in range (R163). -/
def GoodBytes (echo mode r1 r2 power ack site c1 c2 : Byte) : Prop :=
  half c1 c2 = crc [echo, mode, r1, r2, power, ack, site] ∧ mode.toNat ≤ 3 ∧ (∀ r < 8, resourceCode r1 r2 r ≤ 2) ∧
    power.toNat ≤ 15 ∧ ack.getLsbD 4 = false ∧ ack.getLsbD 5 = false ∧ site.toNat ≤ 1

theorem resourcesOf_of_codes {r1 r2 : Byte} (h : ∀ r < 8, resourceCode r1 r2 r ≤ 2) : resourcesOf (half r1 r2) =
    some ((List.range 8).map fun r => [Reported.off, .on, .fault].getD (resourceCode r1 r2 r) .off) := by
  refine mapM_of_some _ fun r mem => ?_
  have small := List.mem_range.1 mem
  rw [resource_bits r1 r2 r small]
  exact reportedOf_of_le (h r small)

theorem resourcesOf_outside {r1 r2 : Byte} {r : Nat} (small : r < 8) (h : 2 < resourceCode r1 r2 r) :
    resourcesOf (half r1 r2) = none := by
  refine mapM_of_none (List.mem_range.2 small) ?_
  rw [resource_bits r1 r2 r small]
  exact reportedOf_outside h

/-- What good bytes say (R163, section 10.6). -/
theorem ofBytes_of_good {echo mode r1 r2 power ack site c1 c2 : Byte} (h : GoodBytes echo mode r1 r2 power ack site c1 c2) :
    ReturnFrame.ofBytes [echo, mode, r1, r2, power, ack, site, c1, c2] = some {
      echo := echo.toNat, mode := [SiteMode.off, .full, .low, .fault].getD mode.toNat .off
      resources := (List.range 8).map fun r => [Reported.off, .on, .fault].getD (resourceCode r1 r2 r) .off
      power := power.toNat
      ack := if ack.getLsbD 7 = true then some (ack.toNat % 16, !ack.getLsbD 6) else none
      fill := decide (site.toNat = 1) } := by
  obtain ⟨check, modes, codes, powers, b4, b5, sites⟩ := h
  obtain ⟨clean, present, done⟩ := ack_bits ack
  unfold ReturnFrame.ofBytes
  dsimp only
  rw [if_pos ⟨check.symm, powers, sites, clean.2 ⟨b4, b5⟩⟩, siteModeOf_of_le modes, resourcesOf_of_codes codes]
  simp only [present, done, ite_not]

/-- Other bytes are no return frame (R163). -/
theorem ofBytes_of_bad {echo mode r1 r2 power ack site c1 c2 : Byte} (h : ¬ GoodBytes echo mode r1 r2 power ack site c1 c2) :
    ReturnFrame.ofBytes [echo, mode, r1, r2, power, ack, site, c1, c2] = none := by
  unfold ReturnFrame.ofBytes
  dsimp only
  split
  · rename_i fields
    obtain ⟨check, powers, sites, clean⟩ := fields
    obtain ⟨b4, b5⟩ := (ack_bits ack).1.1 clean
    by_cases modes : mode.toNat ≤ 3
    · have codes : ¬ ∀ r < 8, resourceCode r1 r2 r ≤ 2 := fun codes => h ⟨check.symm, modes, codes, powers, b4, b5, sites⟩
      push Not at codes
      obtain ⟨r, small, outside⟩ := codes
      rw [resourcesOf_outside small outside]
      cases siteModeOf mode.toNat <;> rfl
    · rw [siteModeOf_outside (by omega)]
  · rfl

theorem ofBytes_length {bytes : List Byte} (h : bytes.length ≠ 9) : ReturnFrame.ofBytes bytes = none := by
  unfold ReturnFrame.ofBytes
  split
  · simp at h
  · rfl

/-- A frame that arrives is the period's unless one has come (R163). -/
theorem returnFrame_eq (bytes : List Byte) (s : State) :
    (∀ f, ReturnFrame.ofBytes bytes = some f → s.lnk.period = none →
      returnFrame bytes s = s.withLnk { s.lnk with period := some f }) ∧
    (ReturnFrame.ofBytes bytes = none ∨ s.lnk.period ≠ none → returnFrame bytes s = s) := by
  refine ⟨fun f good first => ?_, fun bad => ?_⟩
  · unfold returnFrame
    rw [good, first]
  · unfold returnFrame
    rcases bad with bad | later
    · rw [bad]
    · split
      · exact absurd ‹s.lnk.period = none› later
      · rfl

/-! ### The link goes DOWN -/

/-- The link as it stands once LINK RESTART has reported DOWN (R164, R165). -/
def wentDown (s : State) : State :=
  raise .linkState (logEntry .linkState .none (.link s.lnk.state .down) { s with
    lnk := { s.lnk with state := .down, good := 0, missing := 0 } })

/-- The report of it to TB and OUT (R8, R161). -/
def toldDown (s : State) : State := reportCarrying (linkToTb .down (wentDown s))

/-- LINK RESTART in DOWN clears the counts (R165). -/
theorem restart_down {s : State} (h : s.lnk.state = .down) :
    linkGoes .down (s.withLnk { s.lnk with good := 0, missing := 0 }) = s.withLnk { s.lnk with good := 0, missing := 0 } :=
  if_pos h.symm

/-- In any other state the outstanding command fails once the link is DOWN (R165, R169). -/
theorem restart_goes {s : State} (h : s.lnk.state ≠ .down) :
    linkGoes .down (s.withLnk { s.lnk with good := 0, missing := 0 }) = failOutstanding .link (toldDown s) := if_neg (Ne.symm h)

/-- With a source that is good without the link, TB only takes the report (R8, R11). -/
theorem toldDown_of_good {s : State} (notLink : s.tb.source ≠ .link) (good : s.tb.good s.tb.source = true) : toldDown s =
    raise .linkState (logEntry .linkState .none (.link s.lnk.state .down) { s with
      lnk := { s.lnk with state := .down, good := 0, missing := 0 }, tb := { s.tb with link := .down }
      due := s.due ++ [.carrying .down s.lnk.siteFill] }) := by
  have still : ((wentDown s).withTb { s.tb with link := .down }).tb.good s.tb.source = true := by
    cases source : s.tb.source with
    | link => exact absurd source notLink
    | internal => rfl
    | house =>
      rw [source] at good
      exact good
  unfold toldDown linkToTb
  rw [show (wentDown s).tb = s.tb from rfl,
    clockFallback_none (s := (wentDown s).withTb { s.tb with link := .down }) (.inl still)]
  rfl

/-- With LINK as the source TB falls back to INTERNAL (R11; log 52). -/
theorem toldDown_of_link {s : State} (source : s.tb.source = .link) (inUse : s.tb.toInternal = false) : toldDown s =
    (raise .clock (logEntry .clockFallback .none (.source .link) ((wentDown s).withTb { s.tb with
      link := .down, source := .internal, pendingSource := none }))).withDue (s.due ++ [.carrying .down s.lnk.siteFill]) := by
  have bad : ((wentDown s).withTb { s.tb with link := .down }).tb.good s.tb.source = false := by
    rw [source]
    rfl
  unfold toldDown linkToTb
  rw [show (wentDown s).tb = s.tb from rfl,
    clockFallback_falls (s := (wentDown s).withTb { s.tb with link := .down }) bad inUse]
  simp only [withTb_tb, source]
  rfl

theorem failOutstanding_of_none {s : State} (r : FailReason) (h : s.lnk.outstanding = none) : failOutstanding r s = s := by
  unfold failOutstanding
  rw [h]

theorem failOutstanding_of_some {s : State} {o : Outstanding} {q : QueuedCommand} {rest : List QueuedCommand} (r : FailReason)
    (h : s.lnk.outstanding = some o) (queue : s.lnk.queue = q :: rest) : failOutstanding r s =
    headLeaves q (.failed r) (raise .siteState (logEntry .siteCommandFailed q.command.subject (.command q.command r) s)) := by
  unfold failOutstanding
  rw [h, queue]

/-- With the link DOWN no command becomes outstanding (R168). -/
theorem considerOutstanding_of_down {s : State} (h : s.lnk.state = .down) : considerOutstanding s = s := by
  refine if_neg fun can => ?_
  rw [h] at can
  obtain ⟨-, -, up | degraded⟩ := can
  · cases up
  · cases degraded

/-- The head leaves with no stage held: SITE does nothing (R169). -/
theorem headLeaves_of_no_stage {s : State} {q : QueuedCommand} (outcome : Left) (stage : s.site.stage = none)
    (down : s.lnk.state = .down) : headLeaves q outcome s =
    s.withLnk { s.lnk with queue := s.lnk.queue.drop 1, outstanding := none } := by
  unfold headLeaves commandLeft
  rw [show (s.withLnk { s.lnk with queue := s.lnk.queue.drop 1, outstanding := none }).site.stage = none from stage]
  exact considerOutstanding_of_down (s := s.withLnk _) down

/-- The head fails by the link and its stage, held, puts it at the queue's end again (R169, R177). -/
theorem headLeaves_link {s : State} {q : QueuedCommand} {rest : List QueuedCommand} {st : Stage} (queue : s.lnk.queue = q :: rest)
    (stage : s.site.stage = some st) (own : st.id = q.stage) (put : st.toPut = []) (room : rest.length < 8)
    (down : s.lnk.state = .down) : headLeaves q (.failed .link) s = { s with
      lnk := { s.lnk with queue := rest ++ [q], outstanding := none }
      site := { s.site with stage := some { st with awaiting := st.awaiting.erase q.command ++ [q.command] } } } := by
  generalize hu : (s.withLnk { s.lnk with queue := s.lnk.queue.drop 1, outstanding := none }) = u
  have left : commandLeft q (.failed .link) u = checkStage (putCommands (u.withSite { u.site with
      stage := some { st with awaiting := st.awaiting.erase q.command, toPut := [q.command] } })) := by
    unfold commandLeft
    rw [show u.site.stage = some st by rw [← hu]; exact stage]
    dsimp only
    rw [if_neg (by simp [own]), put]
    rfl
  have again : (⟨q.command, st.id⟩ : QueuedCommand) = q := by rw [own]
  have puts : putCommands (u.withSite { u.site with
      stage := some { st with awaiting := st.awaiting.erase q.command, toPut := [q.command] } }) = { s with
      lnk := { s.lnk with queue := rest ++ [q], outstanding := none }
      site := { s.site with stage := some { st with awaiting := st.awaiting.erase q.command ++ [q.command] } } } := by
    have free : 0 < Config.siteCommands - rest.length := by
      have : Config.siteCommands = 8 := rfl
      omega
    have took : [q.command].take (Config.siteCommands - rest.length) = [q.command] := List.take_of_length_le free
    have dropped : [q.command].drop (Config.siteCommands - rest.length) = [] := List.drop_of_length_le free
    unfold putCommands
    rw [← hu]
    simp only [withSite_site, withSite_lnk, withLnk_lnk, queue, List.drop_one, List.tail_cons, took, dropped, List.map_cons,
      List.map_nil, again]
    rw [considerOutstanding_of_down]
    · obtain ⟨id, kind, slot, step, toPut, awaiting, age, begun, commands, prior⟩ := st
      dsimp only at put
      subst put
      rfl
    · exact down
  unfold headLeaves
  rw [hu, left, puts, checkStage_of_unconfirmed rfl (confirmed_of_awaiting (by simp))]
  exact considerOutstanding_of_down down

theorem gains_logEntry (k : LogKind) (x : Subject) (d : Detail) (s : State) : GainsNotices s (logEntry k x d s) :=
  gains_raise .logNew (s.withLog _)

/-- An entry's notice sets its bit on a port whose init pin is high (R194). -/
theorem entry_bit (k : Notice) {c : LogKind} {x : Subject} {d : Detail} {s u : State} {p : PortId} (same : u.pi = s.pi)
    (high : (s.port p).init = .high) : ((raise k (logEntry c x d u)).port p).init = .high ∧
      ((raise k (logEntry c x d u)).port p).flags.getLsbD k.bit = true := by
  have start := (((gains_of_pi same).trans (gains_logEntry c x d u)) p high).1
  exact ⟨(gains_raise k _ p start).1, raised_bit k start⟩

/-- A second entry's notice sets its bit too, and the first stands (R194). -/
theorem entry_bits (l : Notice) {c : LogKind} {x : Subject} {d : Detail} {s u : State} {p : PortId} {n : Nat} (same : u.pi = s.pi)
    (first : (s.port p).init = .high ∧ (s.port p).flags.getLsbD n = true) :
    ((raise l (logEntry c x d u)).port p).flags.getLsbD n = true ∧
      ((raise l (logEntry c x d u)).port p).flags.getLsbD l.bit = true := by
  have gains := ((gains_of_pi same).trans (gains_logEntry c x d u)).trans (gains_raise l _)
  exact ⟨(gains p first.1).2 n first.2, (entry_bit l same first.1).2⟩

/-- A restart outside DOWN with a command out and a source that is good without the link: the state it comes to, up to SITE's
part (R165, R169). -/
theorem restart_fails {s : State} {o : Outstanding} {q : QueuedCommand} {rest : List QueuedCommand} (up : s.lnk.state ≠ .down)
    (notLink : s.tb.source ≠ .link) (good : s.tb.good s.tb.source = true) (out : s.lnk.outstanding = some o)
    (queue : s.lnk.queue = q :: rest) : ∃ u,
      linkGoes .down (s.withLnk { s.lnk with good := 0, missing := 0 }) = headLeaves q (.failed .link) u ∧
      u.lnk = { s.lnk with state := .down, good := 0, missing := 0 } ∧ u.site = s.site ∧
      u.log = (s.log.append (stamp s) .linkState .none (.link s.lnk.state .down)).append (stamp s) .siteCommandFailed
        q.command.subject (.command q.command .link) ∧
      (∀ p, (s.port p).init = .high → (u.port p).flags.getLsbD 11 = true ∧ (u.port p).flags.getLsbD 12 = true) ∧
      u.tb = { s.tb with link := .down } ∧ u.due = s.due ++ [.carrying .down s.lnk.siteFill] ∧
      { u with lnk := s.lnk, log := s.log, due := s.due, pi := s.pi, tb := s.tb } = s := by
  have goes := restart_goes up
  rw [toldDown_of_good notLink good, failOutstanding_of_some .link (o := o) (by exact out) (by exact queue)] at goes
  refine ⟨_, goes, rfl, rfl, rfl, fun p high => ?_, rfl, rfl, rfl⟩
  exact entry_bits .siteState rfl (entry_bit .linkState rfl high)

/-- LINK RESTART answers OK and the link goes DOWN (R165). -/
theorem exec_linkRestart {s : State} (a : Arrives (.linkRestart .b) .b s) : exec (.linkRestart .b) s =
    .next (replyTo .b 89 ⟨.ok, []⟩ (linkGoes .down (s.withLnk { s.lnk with good := 0, missing := 0 }))) :=
  exec_answers rfl rfl (by simp) nofun (by simp) a rfl

/-- The check takes one more byte, most significant bit first (section 10.6). -/
theorem crc_concat (bs : List Byte) (x : Byte) : crc (bs ++ [x]) =
    [7, 6, 5, 4, 3, 2, 1, 0].foldl (fun (r : Half) i =>
      if r.getLsbD 15 = x.getLsbD i then r <<< 1 else (r <<< 1) ^^^ 0x1021#16) (crc bs) := by
  have bit (r : Half) (b : Bool) : crcBit r b = if r.getLsbD 15 = b then r <<< 1 else (r <<< 1) ^^^ 0x1021#16 := by
    unfold crcBit
    rw [BitVec.msb_eq_getLsbD_last]
  unfold crc
  rw [List.foldl_append]
  simp only [List.foldl_cons, List.foldl_nil, crcByte, bit]

/-- The site's modes stand in the order of their codes. -/
theorem siteMode_place {n : Nat} (h : n ≤ 3) : ([SiteMode.off, .full, .low, .fault].getD n .off).place = n := by
  obtain rfl | rfl | rfl | rfl : n = 0 ∨ n = 1 ∨ n = 2 ∨ n = 3 := by omega
  all_goals rfl

/-- The carrying report that is due is OUT's (R161). -/
theorem exec_carryingReport_due {s : State} {l : LinkState} {fill : Bool} (due : s.due = [.carrying l fill]) :
    exec .carryingReport s = .next { s with
      due := [], out := { s.out with carrying := decide (l = .up ∨ l = .degraded) && !fill } } := by
  have takes : takeOne .carrying s = { s with
      due := [], out := { s.out with carrying := decide (l = .up ∨ l = .degraded) && !fill } } := by
    have taken := takeOne_of_mem (.carrying l fill) s (by simp [due]) (by simp [due])
    rw [due, List.erase_cons_head] at taken
    exact taken
  have has : s.hasDue .carrying = true := by
    unfold State.hasDue
    rw [due]
    rfl
  show Host.Outcome.next (if s.hasDue .carrying then takeOne .carrying s else carryingReport s.lnk.state s.lnk.siteFill s) = _
  rw [if_pos has, takes]

/-- With none due OUT takes the link's state as it stands (R161). -/
theorem exec_carryingReport_none {s : State} (due : s.due = []) : exec .carryingReport s = .next { s with
    out := { s.out with carrying := decide (s.lnk.state = .up ∨ s.lnk.state = .degraded) && !s.lnk.siteFill } } := by
  have none_ : s.hasDue .carrying = false := by
    unfold State.hasDue
    rw [due]
    rfl
  show Host.Outcome.next (if s.hasDue .carrying then takeOne .carrying s else carryingReport s.lnk.state s.lnk.siteFill s) = _
  rw [none_]
  rfl

/-- What a frame of good bytes holds (R163). -/
theorem ofBytes_some {echo mode r1 r2 power ack site c1 c2 : Byte} {f : ReturnFrame}
    (h : ReturnFrame.ofBytes [echo, mode, r1, r2, power, ack, site, c1, c2] = some f) :
    half c1 c2 = crc [echo, mode, r1, r2, power, ack, site] ∧ f.echo = echo.toNat ∧ f.mode.place = mode.toNat ∧
      f.power = power.toNat ∧ f.power ≤ 15 ∧ (f.fill = true ↔ site.toNat = 1) ∧ (f.ack = none ↔ ack.toNat < 128) ∧
      f.resources.length = 8 := by
  have good : GoodBytes echo mode r1 r2 power ack site c1 c2 := by
    by_contra bad
    rw [ofBytes_of_bad bad] at h
    cases h
  rw [ofBytes_of_good good] at h
  cases h
  obtain ⟨check, modes, -, powers, -⟩ := good
  refine ⟨check, rfl, siteMode_place modes, rfl, powers, decide_eq_true_iff, ?_, rfl⟩
  have present := (ack_bits ack).2.1
  dsimp only
  split
  · exact ⟨nofun, fun low => absurd low (present.1 ‹_›)⟩
  · exact ⟨fun _ => not_not.1 fun high => ‹¬ _› (present.2 high), fun _ => rfl⟩

/-- LINK RESTART with a source that is good without the link, each clause apart (R165, R169). -/
theorem restart_keepsSource {s : State} (a : Arrives (.linkRestart .b) .b s) (notLink : s.tb.source ≠ .link)
    (good : s.tb.good s.tb.source = true) :
    (s.lnk.state ≠ .down → s.lnk.outstanding = none → exec (.linkRestart .b) s =
      .next (replyTo .b 89 ⟨.ok, []⟩ (raise .linkState (logEntry .linkState .none (.link s.lnk.state .down) { s with
        lnk := { s.lnk with state := .down, good := 0, missing := 0 }, tb := { s.tb with link := .down }
        due := s.due ++ [.carrying .down s.lnk.siteFill] })))) ∧
    (∀ o q rest, s.lnk.state ≠ .down → s.lnk.outstanding = some o → s.lnk.queue = q :: rest → s.site.stage = none →
      ∃ t, exec (.linkRestart .b) s = .next (replyTo .b 89 ⟨.ok, []⟩ t) ∧
        t.lnk = { s.lnk with state := .down, good := 0, missing := 0, queue := rest, outstanding := none } ∧
        t.log = (s.log.append (stamp s) .linkState .none (.link s.lnk.state .down)).append (stamp s) .siteCommandFailed
          q.command.subject (.command q.command .link) ∧
        t.due = s.due ++ [.carrying .down s.lnk.siteFill] ∧
        { t with lnk := s.lnk, log := s.log, due := s.due, pi := s.pi, tb := s.tb } = s) ∧
    (∀ o q rest st, s.lnk.state ≠ .down → s.lnk.outstanding = some o → s.lnk.queue = q :: rest → s.site.stage = some st →
      st.id = q.stage → st.toPut = [] → rest.length < 8 →
      ∃ t, exec (.linkRestart .b) s = .next (replyTo .b 89 ⟨.ok, []⟩ t) ∧
        t.lnk = { s.lnk with state := .down, good := 0, missing := 0, queue := rest ++ [q], outstanding := none } ∧
        t.site = { s.site with stage := some { st with awaiting := st.awaiting.erase q.command ++ [q.command] } } ∧
        t.log = (s.log.append (stamp s) .linkState .none (.link s.lnk.state .down)).append (stamp s) .siteCommandFailed
          q.command.subject (.command q.command .link) ∧
        (∀ p, (s.port p).init = .high → (t.port p).flags.getLsbD 11 = true ∧ (t.port p).flags.getLsbD 12 = true) ∧
        t.tb = { s.tb with link := .down } ∧ t.due = s.due ++ [.carrying .down s.lnk.siteFill] ∧
        { t with lnk := s.lnk, site := s.site, log := s.log, due := s.due, pi := s.pi, tb := s.tb } = s) := by
  refine ⟨fun up none_ => ?_, fun o q rest up out queue idle => ?_, fun o q rest st up out queue stage own put room => ?_⟩
  · rw [exec_linkRestart a, restart_goes up, toldDown_of_good notLink good]
    exact congrArg (fun t => Host.Outcome.next (replyTo .b 89 ⟨.ok, []⟩ t)) (failOutstanding_of_none _ none_)
  · obtain ⟨u, goes, lnk, site, log, -, -, due, aside⟩ := restart_fails up notLink good out queue
    have left := headLeaves_of_no_stage (q := q) (.failed .link) (show u.site.stage = none by rw [site, idle])
      (show u.lnk.state = .down by rw [lnk])
    rw [exec_linkRestart a, goes, left]
    refine ⟨_, rfl, ?_, log, due, aside⟩
    rw [withLnk_lnk, lnk, queue]
    rfl
  · obtain ⟨u, goes, lnk, site, log, flags, tb, due, aside⟩ := restart_fails up notLink good out queue
    have left := headLeaves_link (show u.lnk.queue = q :: rest by rw [lnk]; exact queue)
      (show u.site.stage = some st by rw [site]; exact stage) own put room (show u.lnk.state = .down by rw [lnk])
    rw [exec_linkRestart a, goes, left]
    refine ⟨_, rfl, ?_, ?_, log, flags, tb, due, ?_⟩
    · dsimp only
      rw [lnk]
    · dsimp only
      rw [site]
    · rw [← site]
      exact aside

/-- LINK RESTART with LINK as the source in use: TB falls back to INTERNAL after the link's entry (R11, R165; log 52). -/
theorem restart_fallsBack {s : State} (a : Arrives (.linkRestart .b) .b s) (source : s.tb.source = .link)
    (inUse : s.tb.toInternal = false) (up : s.lnk.state ≠ .down) (none_ : s.lnk.outstanding = none) :
    ∃ t, exec (.linkRestart .b) s = .next (replyTo .b 89 ⟨.ok, []⟩ t) ∧
      t.lnk = { s.lnk with state := .down, good := 0, missing := 0 } ∧
      t.tb = { s.tb with link := .down, source := .internal, pendingSource := none } ∧
      t.log = (s.log.append (stamp s) .linkState .none (.link s.lnk.state .down)).append (stamp s) .clockFallback .none
        (.source .link) ∧
      (∀ p, (s.port p).init = .high → (t.port p).flags.getLsbD 11 = true ∧ (t.port p).flags.getLsbD 13 = true) ∧
      t.due = s.due ++ [.carrying .down s.lnk.siteFill] ∧
      { t with lnk := s.lnk, log := s.log, due := s.due, pi := s.pi, tb := s.tb } = s := by
  refine ⟨toldDown s, ?_, ?_, ?_, ?_, fun p high => ?_, ?_, ?_⟩
  · have still : (toldDown s).lnk.outstanding = none := by
      rw [toldDown_of_link source inUse]
      exact none_
    rw [exec_linkRestart a, restart_goes up, failOutstanding_of_none _ still]
  all_goals rw [toldDown_of_link source inUse]
  · rfl
  · rfl
  · rfl
  · exact entry_bits .clock (u := (wentDown s).withTb _) rfl (entry_bit .linkState rfl high)
  · rfl
  · rfl

/-- Settles O55: the bytes by what good and bad ones give, the reports by OUT's event, and LINK RESTART by the case of the link's
state, the outstanding command and its stage. -/
theorem framesReportsAndRestarts : Obligations.FramesReportsAndRestarts := by
  refine fun bytes f l fill s => ⟨refusedOff_portB s (fun _ => rfl) rfl (by simp), ?_, ⟨rfl, crc_concat⟩, ?_,
    ofBytes_length, fun good first => ?_, fun bad => ?_, exec_carryingReport_due, exec_carryingReport_none,
    fun a notLink good => ?_, restart_fallsBack⟩
  · rintro echo mode r1 r2 power ack site c1 c2 rfl is
    exact ofBytes_some is
  · rintro echo mode r1 r2 power ack site c1 c2 rfl
    exact ⟨ofBytes_of_good, ofBytes_of_bad⟩
  · exact congrArg Host.Outcome.next ((returnFrame_eq bytes s).1 f good first)
  · exact congrArg Host.Outcome.next ((returnFrame_eq bytes s).2 bad)
  · obtain ⟨none_, idle, held⟩ := restart_keepsSource a notLink good
    refine ⟨fun down => ?_, none_, idle, held⟩
    rw [exec_linkRestart a, restart_down down]
    rfl

end Sys2Proof.Machine
end

section
/-! The link at a boundary: the frame LNK forms and the judgement of the period (R162 to R169, R174, R175, R178, R183). -/

namespace Sys2Proof.Machine

open Sys2Proof

/-! ### What LNK's event hands over -/

/-- What an operation leaves due beside a report to OUT was due before it. -/
def OnlyReports (s t : State) : Prop := ∀ e ∈ t.due, e.kind = .carrying ∨ e ∈ s.due

theorem onlyReports_refl (s : State) : OnlyReports s s := fun _ mem => .inr mem

theorem onlyReports_of_due {s0 s t : State} (h : OnlyReports s0 s) (due : t.due = s.due) : OnlyReports s0 t :=
  fun e mem => h e (due ▸ mem)

theorem onlyReports_reportCarrying {s0 s : State} (h : OnlyReports s0 s) : OnlyReports s0 (reportCarrying s) := fun e mem => by
  rcases List.mem_append.1 (show e ∈ s.due ++ [Due.carrying s.lnk.state s.lnk.siteFill] from mem) with old | new
  · exact h e old
  · rw [List.mem_singleton.1 new]
    exact .inl rfl

theorem onlyReports_considerOutstanding {s0 s : State} (h : OnlyReports s0 s) : OnlyReports s0 (considerOutstanding s) := by
  rw [considerOutstanding_eq]
  exact onlyReports_of_due h rfl

theorem onlyReports_beginStage {s0 s : State} (k : StageKind) (slot : Option Nat) (n : Nat) (cs : List SiteCommand)
    (h : OnlyReports s0 s) : OnlyReports s0 (beginStage k slot n cs s) := by
  rw [beginStage_eq]
  exact onlyReports_of_due h rfl

theorem onlyReports_siteChange {s0 s : State} (n : SiteState) (c : SiteCause) (h : OnlyReports s0 s) :
    OnlyReports s0 (siteChange n c s) := onlyReports_of_due h rfl

theorem onlyReports_completeSequence {s0 s : State} (h : OnlyReports s0 s) : OnlyReports s0 (completeSequence s) := by
  have done : OnlyReports s0 (s.withSite { s.site with stage := none }) := onlyReports_of_due h rfl
  unfold completeSequence
  dsimp only
  split
  · split
    · exact onlyReports_beginStage _ _ _ _ (onlyReports_siteChange _ _ (onlyReports_of_due (onlyReports_siteChange .low .complete done) rfl))
    · exact onlyReports_siteChange _ _ done
  · exact onlyReports_siteChange _ _ (onlyReports_of_due done rfl)
  · exact onlyReports_siteChange _ _ done
  · exact onlyReports_siteChange _ _ done
  · exact done

theorem onlyReports_advance {s0 s : State} (st : Stage) (h : OnlyReports s0 s) : OnlyReports s0 (advance st s) := by
  have stage (k : StageKind) (slot : Option Nat) (n : Nat) (cs : List SiteCommand) := onlyReports_beginStage k slot n cs h
  unfold advance
  split
  · split
    · exact stage _ _ _ _
    · exact stage _ _ _ _
  · split
    · exact stage _ _ _ _
    · exact onlyReports_completeSequence h
  · have powered : OnlyReports s0 (s.withSite { s.site with power := some st.step }) := onlyReports_of_due h rfl
    dsimp only
    split
    · exact onlyReports_beginStage _ _ _ _ powered
    · exact onlyReports_completeSequence powered
  · exact onlyReports_completeSequence h

theorem onlyReports_checkStage {s0 s : State} (h : OnlyReports s0 s) : OnlyReports s0 (checkStage s) := by
  unfold checkStage
  generalize 32 = n
  induction n generalizing s with
  | zero => exact h
  | succ n ih =>
    unfold runStages
    split
    · exact h
    · split
      · exact ih (onlyReports_advance _ h)
      · exact h

theorem onlyReports_putCommands {s0 s : State} (h : OnlyReports s0 s) : OnlyReports s0 (putCommands s) := by
  unfold putCommands
  split
  · exact h
  · exact onlyReports_considerOutstanding (onlyReports_of_due h rfl)

theorem onlyReports_siteFault {s0 s : State} (c : SiteCause) (h : OnlyReports s0 s) : OnlyReports s0 (siteFault c s) := by
  have abandoned : OnlyReports s0 (abandonStage s) := by
    unfold abandonStage
    split <;> exact onlyReports_of_due h rfl
  unfold siteFault
  dsimp only
  refine onlyReports_siteChange _ _ ?_
  unfold when
  split <;> exact onlyReports_of_due abandoned rfl

theorem onlyReports_newFault {s0 s : State} (c : SiteCause) (h : OnlyReports s0 s) : OnlyReports s0 (newFault s c) := by
  unfold newFault
  split
  · exact h
  · exact onlyReports_siteChange _ _ h
  · exact onlyReports_siteFault c h

theorem onlyReports_siteDelivery {s0 s : State} (f : ReturnFrame) (h : OnlyReports s0 s) : OnlyReports s0 (siteDelivery f s) := by
  have faults (cs : List SiteCause) {u : State} (k : OnlyReports s0 u) : OnlyReports s0 (cs.foldl newFault u) := by
    induction cs generalizing u with
    | nil => exact k
    | cons c cs ih => exact ih (onlyReports_newFault c k)
  unfold siteDelivery
  dsimp only
  refine onlyReports_checkStage (faults _ ?_)
  split <;> exact onlyReports_of_due h rfl

theorem onlyReports_commandLeft {s0 s : State} (q : QueuedCommand) (o : Left) (h : OnlyReports s0 s) :
    OnlyReports s0 (commandLeft q o s) := by
  have check {u : State} (k : OnlyReports s0 u) := onlyReports_checkStage (onlyReports_putCommands k)
  unfold commandLeft
  split
  · exact h
  · split
    · exact check h
    · dsimp only
      split
      · exact check (onlyReports_of_due h rfl)
      · exact check (onlyReports_of_due h rfl)
      · exact onlyReports_siteFault _ h
      · exact onlyReports_siteFault _ h

theorem onlyReports_headLeaves {s0 s : State} (q : QueuedCommand) (o : Left) (h : OnlyReports s0 s) :
    OnlyReports s0 (headLeaves q o s) :=
  onlyReports_considerOutstanding (onlyReports_commandLeft q o (onlyReports_of_due h rfl))

theorem onlyReports_failOutstanding {s0 s : State} (r : FailReason) (h : OnlyReports s0 s) :
    OnlyReports s0 (failOutstanding r s) := by
  unfold failOutstanding
  split
  · exact onlyReports_headLeaves _ _ (onlyReports_of_due h rfl)
  · exact h

theorem onlyReports_linkGoes {s0 s : State} (l : LinkState) (h : OnlyReports s0 s) : OnlyReports s0 (linkGoes l s) := by
  have told {u : State} (k : OnlyReports s0 u) : OnlyReports s0 (reportCarrying (linkToTb l u)) :=
    onlyReports_reportCarrying (onlyReports_of_due k (congrArg State.due (clockFallback_frame _).1 :))
  unfold linkGoes
  split
  · exact h
  · have went := told (u := raise .linkState (logEntry .linkState .none (.link s.lnk.state l)
      (s.withLnk { s.lnk with state := l }))) (onlyReports_of_due h rfl)
    dsimp only
    split
    · exact onlyReports_failOutstanding _ went
    · exact onlyReports_considerOutstanding went
    · exact went

theorem onlyReports_deliver {s0 s : State} (f : ReturnFrame) (h : OnlyReports s0 s) : OnlyReports s0 (deliver f s) := by
  have ack {u : State} (k : OnlyReports s0 u) : OnlyReports s0 (takeAck f u) := by
    unfold takeAck
    split
    · exact onlyReports_headLeaves _ _ k
    · exact onlyReports_failOutstanding _ k
    · exact k
  have fill {u : State} (k : OnlyReports s0 u) : OnlyReports s0 (takeSiteFill f u) := by
    unfold takeSiteFill
    split
    · exact k
    · exact onlyReports_reportCarrying (onlyReports_of_due k rfl)
  exact ack (fill (onlyReports_siteDelivery f (onlyReports_of_due h rfl)))

/-- LNK's event at a boundary leaves nothing new due but reports to OUT (R161). -/
theorem onlyReports_linkStage (s : State) : OnlyReports s (linkStage s) := by
  have went := onlyReports_linkGoes (formFrame s).lnk.judgement
    (onlyReports_of_due (t := (formFrame s).withLnk { (formFrame s).lnk.counted with judged := none }) (onlyReports_refl s) rfl)
  have overdue {u : State} (k : OnlyReports s u) : OnlyReports s (when (commandOverdue u) (failOutstanding .timeout) u) := by
    unfold when
    split
    · exact onlyReports_failOutstanding _ k
    · exact k
  unfold linkStage judgePeriod
  dsimp only
  refine overdue ?_
  split
  · split
    · exact onlyReports_deliver _ went
    · exact went
  · exact went

/-- A boundary that takes LNK's event first. -/
theorem boundary_link {i : PeriodInput} {later : List DueKind} {s : State} (due : s.due = [])
    (others : ∀ k, k ≠ .link → k ∈ later) : exec (.blockBoundary i [.link] later) s =
      .next (linkStage ((atBoundary i s).withDue ((atBoundary i s).due.erase .link))) := by
  refine congrArg Host.Outcome.next (boundary_takes (d := .link) due others rfl (by simp [stageEvents]) fun e mem same => ?_)
  rcases onlyReports_linkStage _ e mem with carrying | old
  · exact absurd (same.symm.trans carrying) nofun
  · exact old

end Sys2Proof.Machine
end

section
/-! The link at a boundary, case by case. -/

namespace Sys2Proof.Machine

open Sys2Proof

/-! ### The period's count and the link's new state -/

/-- The state in which LNK has formed its frame and counted the period just ended (R162, R164). -/
def periodCounted (s : State) : State := (formFrame s).withLnk { (formFrame s).lnk.counted with judged := none }

/-- The outstanding command once the boundary's frame is formed (R168). -/
def carried (s : State) (o : Outstanding) : Outstanding :=
  if o.since < s.boundaryNo ∧ o.firstSeq.isNone then { o with firstSeq := some s.lnk.nextSeq } else o

theorem periodCounted_missing {s : State} (judged : s.lnk.judged = none) : periodCounted s = s.withLnk { s.lnk with
    frame := some (forwardFrame s), lastSent := some s.lnk.nextSeq, nextSeq := (s.lnk.nextSeq + 1) % 256
    outstanding := s.lnk.outstanding.map (carried s), good := 0, missing := min 400 (s.lnk.missing + 1), judged := none } := by
  unfold periodCounted LNK.counted
  rw [show (formFrame s).lnk.judged = none from judged]
  rfl

theorem periodCounted_good {s : State} {f : ReturnFrame} (judged : s.lnk.judged = some f) : periodCounted s = s.withLnk { s.lnk with
    frame := some (forwardFrame s), lastSent := some s.lnk.nextSeq, nextSeq := (s.lnk.nextSeq + 1) % 256
    outstanding := s.lnk.outstanding.map (carried s), good := min 8 (s.lnk.good + 1), missing := 0, lastEcho := some f.echo
    judged := none } := by
  unfold periodCounted LNK.counted
  rw [show (formFrame s).lnk.judged = some f from judged]
  rfl

theorem judgement_missing {x : LNK} (judged : x.judged = none) :
    x.judgement = nextLink x.state false 0 (min 400 (x.missing + 1)) := by
  unfold LNK.judgement LNK.counted
  rw [judged]
  rfl

theorem judgement_good {x : LNK} {f : ReturnFrame} (judged : x.judged = some f) :
    x.judgement = nextLink x.state true (min 8 (x.good + 1)) 0 := by
  unfold LNK.judgement LNK.counted
  rw [judged]
  rfl

theorem judgement_formFrame (s : State) : (formFrame s).lnk.judgement = s.lnk.judgement := by
  unfold LNK.judgement LNK.counted
  rw [show (formFrame s).lnk.judged = s.lnk.judged from rfl]
  cases s.lnk.judged <;> rfl

/-- What LNK does last at a boundary: a command out too long fails (R169). -/
def overdueLast (s : State) : State := when (commandOverdue s) (failOutstanding .timeout) s

/-- A period without a good frame (R164). -/
theorem linkStage_missing {s : State} (judged : s.lnk.judged = none) :
    linkStage s = overdueLast (linkGoes s.lnk.judgement (periodCounted s)) := by
  unfold linkStage judgePeriod
  rw [judgement_formFrame, show (formFrame s).lnk.judged = none from judged]
  rfl

/-- A good period in UP or DEGRADED (R166). -/
theorem linkStage_delivers {s : State} {f : ReturnFrame} (judged : s.lnk.judged = some f)
    (new : s.lnk.judgement = .up ∨ s.lnk.judgement = .degraded) :
    linkStage s = overdueLast (deliver f (linkGoes s.lnk.judgement (periodCounted s))) := by
  unfold linkStage judgePeriod
  rw [judgement_formFrame, show (formFrame s).lnk.judged = some f from judged]
  dsimp only
  rw [if_pos new]
  rfl

/-- A good period in another state is not delivered (R166). -/
theorem linkStage_undelivered {s : State} {f : ReturnFrame} (judged : s.lnk.judged = some f)
    (new : ¬ (s.lnk.judgement = .up ∨ s.lnk.judgement = .degraded)) :
    linkStage s = overdueLast (linkGoes s.lnk.judgement (periodCounted s)) := by
  unfold linkStage judgePeriod
  rw [judgement_formFrame, show (formFrame s).lnk.judged = some f from judged]
  dsimp only
  rw [if_neg new]
  rfl

theorem overdueLast_of_none {s : State} (h : s.lnk.outstanding = none) : overdueLast s = s := by
  unfold overdueLast commandOverdue
  rw [h]
  rfl

theorem overdueLast_early {s : State} {o : Outstanding} (h : s.lnk.outstanding = some o) (early : s.boundaryNo < o.since + 100) :
    overdueLast s = s := by
  unfold overdueLast commandOverdue
  rw [h]
  dsimp only
  rw [decide_eq_false (show ¬ o.since + Config.commandTimeout ≤ s.boundaryNo from not_le.2 early), when_false]

theorem overdueLast_late {s : State} {o : Outstanding} (h : s.lnk.outstanding = some o) (late : o.since + 100 ≤ s.boundaryNo) :
    overdueLast s = failOutstanding .timeout s := by
  unfold overdueLast commandOverdue
  rw [h]
  dsimp only
  rw [decide_eq_true (show o.since + Config.commandTimeout ≤ s.boundaryNo from late)]
  rfl

theorem linkGoes_same {s : State} {new : LinkState} (h : s.lnk.state = new) : linkGoes new s = s := if_pos h.symm

/-- The entry and the notice of the link's new state (R164). -/
def wentTo (new : LinkState) (s : State) : State :=
  raise .linkState (logEntry .linkState .none (.link s.lnk.state new) (s.withLnk { s.lnk with state := new }))

/-- TB and OUT are told of it (R8, R161). -/
def toldOf (new : LinkState) (s : State) : State := reportCarrying (linkToTb new (wentTo new s))

theorem linkGoes_down {s : State} (h : s.lnk.state ≠ .down) : linkGoes .down s = failOutstanding .link (toldOf .down s) :=
  if_neg (Ne.symm h)

theorem linkGoes_up {s : State} (h : s.lnk.state ≠ .up) : linkGoes .up s = considerOutstanding (toldOf .up s) := if_neg (Ne.symm h)

theorem linkGoes_degraded {s : State} (h : s.lnk.state ≠ .degraded) : linkGoes .degraded s = toldOf .degraded s :=
  if_neg (Ne.symm h)

theorem linkGoes_syncing {s : State} (h : s.lnk.state ≠ .syncing) : linkGoes .syncing s = toldOf .syncing s := if_neg (Ne.symm h)

/-- With INTERNAL in use TB only takes the report (R8). -/
theorem toldOf_internal {s : State} (source : s.tb.source = .internal) (new : LinkState) : toldOf new s =
    raise .linkState (logEntry .linkState .none (.link s.lnk.state new) { s with
      lnk := { s.lnk with state := new }, tb := { s.tb with link := new }
      due := s.due ++ [.carrying new s.lnk.siteFill] }) := by
  have good : ((wentTo new s).withTb { s.tb with link := new }).tb.good s.tb.source = true := by
    rw [source]
    rfl
  unfold toldOf linkToTb
  rw [show (wentTo new s).tb = s.tb from rfl, clockFallback_none (s := (wentTo new s).withTb { s.tb with link := new }) (.inl good)]
  rfl

/-- With LINK in use, a link that is not UP makes TB fall back to INTERNAL (R11). -/
theorem toldOf_link {s : State} {new : LinkState} (source : s.tb.source = .link) (inUse : s.tb.toInternal = false)
    (lost : new ≠ .up) : toldOf new s =
    raise .clock (logEntry .clockFallback .none (.source .link) (raise .linkState (logEntry .linkState .none
      (.link s.lnk.state new) { s with
        lnk := { s.lnk with state := new }
        tb := { s.tb with link := new, source := .internal, pendingSource := none }
        due := s.due ++ [.carrying new s.lnk.siteFill] }))) := by
  have bad : ((wentTo new s).withTb { s.tb with link := new }).tb.good s.tb.source = false := by
    rw [source]
    exact decide_eq_false lost
  unfold toldOf linkToTb
  rw [show (wentTo new s).tb = s.tb from rfl,
    clockFallback_falls (s := (wentTo new s).withTb { s.tb with link := new }) bad inUse]
  simp only [withTb_tb, source]
  rfl

theorem considerOutstanding_of_empty {s : State} (h : s.lnk.queue = []) : considerOutstanding s = s := if_neg fun can => can.2.1 h

/-! ### The last command of the queue leaves it -/

/-- With no stage held (R168). -/
theorem headLeaves_last_idle {s : State} {q : QueuedCommand} (outcome : Left) (queue : s.lnk.queue = [q])
    (stage : s.site.stage = none) : headLeaves q outcome s = s.withLnk { s.lnk with queue := [], outstanding := none } := by
  unfold headLeaves commandLeft
  rw [show (s.withLnk { s.lnk with queue := s.lnk.queue.drop 1, outstanding := none }).site.stage = none from stage]
  dsimp only
  rw [queue]
  exact considerOutstanding_of_empty rfl

/-- Done, with its stage held and not confirmed by it (R178). -/
theorem headLeaves_last_done {s : State} {q : QueuedCommand} {st : Stage} (queue : s.lnk.queue = [q])
    (stage : s.site.stage = some st) (own : st.id = q.stage) (put : st.toPut = [])
    (kind : st.kind = .power) (other : s.site.reportedStep ≠ some st.step) :
    headLeaves q .done s = { s with
      lnk := { s.lnk with queue := [], outstanding := none }
      site := { s.site with stage := some { st with awaiting := st.awaiting.erase q.command } } } := by
  have puts : putCommands { s with
      lnk := { s.lnk with queue := [], outstanding := none }
      site := { s.site with stage := some { st with awaiting := st.awaiting.erase q.command } } } = { s with
      lnk := { s.lnk with queue := [], outstanding := none }
      site := { s.site with stage := some { st with awaiting := st.awaiting.erase q.command } } } := by
    unfold putCommands
    dsimp only
    rw [put]
    simp only [List.take_nil, List.drop_nil, List.append_nil, List.map_nil]
    rw [considerOutstanding_of_empty rfl]
    rw [← put]
    rfl
  have check := checkStage_of_unconfirmed (s := { s with
      lnk := { s.lnk with queue := [], outstanding := none }
      site := { s.site with stage := some { st with awaiting := st.awaiting.erase q.command } } }) rfl (by
    unfold SITE.confirmed
    simp [kind, other])
  unfold headLeaves commandLeft
  rw [show (s.withLnk { s.lnk with queue := s.lnk.queue.drop 1, outstanding := none }).site.stage = some st from stage]
  dsimp only
  rw [if_neg (by simp [own]), queue]
  exact (congrArg considerOutstanding ((congrArg checkStage puts).trans check)).trans (considerOutstanding_of_empty rfl)

/-- SITE goes to FAULT with nothing queued and nothing to put (R183). -/
theorem siteFault_idle {s : State} (cause : SiteCause) (queue : s.lnk.queue = []) (out : s.lnk.outstanding = none)
    (stage : ∀ st, s.site.stage = some st → st.toPut = []) (wake : s.site.pendingWake = false) :
    siteFault cause s = siteChange .fault cause (s.withSite { s.site with stage := none }) := by
  have asleep : { ({ s.site with stage := none } : SITE) with pendingWake := false } = { s.site with stage := none } := by
    rw [← wake]
  unfold siteFault
  rw [abandonStage_idle queue out stage]
  dsimp only
  rw [show (s.withSite { s.site with stage := none }).site.pendingWake = false from wake, when_false]
  exact congrArg (fun x => siteChange .fault cause (s.withSite x)) asleep

/-- Refused or timed out, with its stage held (R178, R183). -/
theorem headLeaves_last_fault {s : State} {q : QueuedCommand} {st : Stage} {r : FailReason} {cause : SiteCause}
    (kind : (r = .timeout ∧ cause = .commandTimeout) ∨ (r = .refused ∧ cause = .commandRefused)) (queue : s.lnk.queue = [q])
    (stage : s.site.stage = some st) (own : st.id = q.stage) (put : st.toPut = []) (wake : s.site.pendingWake = false) :
    headLeaves q (.failed r) s = siteChange .fault cause { s with
      lnk := { s.lnk with queue := [], outstanding := none }, site := { s.site with stage := none } } := by
  have fault := siteFault_idle (s := s.withLnk { s.lnk with queue := [], outstanding := none }) cause rfl rfl
    (fun x h => by
      cases stage.symm.trans h
      exact put) wake
  have left : commandLeft q (.failed r) (s.withLnk { s.lnk with queue := [], outstanding := none }) =
      siteFault cause (s.withLnk { s.lnk with queue := [], outstanding := none }) := by
    unfold commandLeft
    rw [show (s.withLnk { s.lnk with queue := [], outstanding := none }).site.stage = some st from stage]
    dsimp only
    rw [if_neg (by simp [own])]
    rcases kind with ⟨rfl, rfl⟩ | ⟨rfl, rfl⟩ <;> rfl
  unfold headLeaves
  rw [queue]
  exact (congrArg considerOutstanding (left.trans fault)).trans (considerOutstanding_of_empty rfl)

end Sys2Proof.Machine
end

section
/-! The link at a boundary: a link that comes up, acknowledgements, timeouts and the forward frame (R162 to R169, R174, R175). -/

namespace Sys2Proof.Machine

open Sys2Proof

/-! ### The link's rows -/

theorem exec_linkUp {s : State} (due : s.due = [.link]) (goes : s.lnk.judgement = .up) (was : s.lnk.state ≠ .up) :
    exec .linkUp s = .next (linkStage (s.withDue [])) :=
  congrArg Host.Outcome.next (stageRow_of_one (d := .link) due nofun (decide_eq_true ⟨goes, was⟩))

theorem exec_linkDegraded {s : State} (due : s.due = [.link]) (goes : s.lnk.judgement = .degraded) (was : s.lnk.state ≠ .degraded) :
    exec .linkDegraded s = .next (linkStage (s.withDue [])) :=
  congrArg Host.Outcome.next (stageRow_of_one (d := .link) due nofun (decide_eq_true ⟨goes, was⟩))

theorem exec_linkDown {s : State} (due : s.due = [.link]) (goes : s.lnk.judgement = .down) (was : s.lnk.state ≠ .down) :
    exec .linkDown s = .next (linkStage (s.withDue [])) :=
  congrArg Host.Outcome.next (stageRow_of_one (d := .link) due nofun (decide_eq_true ⟨goes, was⟩))

theorem exec_commandTimeout {s : State} {o : Outstanding} (due : s.due = [.link]) (judged : s.lnk.judged = none)
    (out : s.lnk.outstanding = some o) (late : o.since + 100 ≤ s.boundaryNo) :
    exec .commandTimeout s = .next (linkStage (s.withDue [])) := by
  refine congrArg Host.Outcome.next (stageRow_of_one (d := .link) due nofun ?_)
  unfold timeoutDue commandOverdue
  rw [judged, out]
  exact (Bool.and_true _).trans (decide_eq_true late)

/-- What LNK sends at a boundary, as the row before it finds the frame's parts (R162). -/
theorem linkStage_sends (s : State) : (linkStage s).lnk.lastSent = some s.lnk.nextSeq ∧
    (linkStage s).lnk.nextSeq = (s.lnk.nextSeq + 1) % 256 ∧ (linkStage s).lnk.frame.map (·.seq) = some s.lnk.nextSeq ∧
    (linkStage s).lnk.frame.map (·.audio) = some s.audio.prev.air.audio ∧
    (linkStage s).lnk.frame.map (·.content) = some s.audio.prev.air.tag.origin.content := by
  obtain ⟨frame, last, next⟩ := linkStage_sent s
  rw [frame]
  exact ⟨last, next, rfl, rfl, rfl⟩

/-- The notice of the link's new state (R164, R194). -/
theorem wentTo_bit (new : LinkState) {s t : State} {p : PortId} (same : t.pi = (wentTo new s).pi)
    (high : (s.port p).init = .high) : (t.port p).init = .high ∧ (t.port p).flags.getLsbD 11 = true := by
  unfold State.port
  rw [same]
  exact entry_bit .linkState (s := s) rfl high

/-- With the clock's notice after it (R11, R194). -/
theorem fallback_bits (new : LinkState) {s t : State} {p : PortId}
    (same : t.pi = (raise .clock (logEntry .clockFallback .none (.source .link) (wentTo new s))).pi)
    (high : (s.port p).init = .high) : (t.port p).flags.getLsbD 11 = true ∧ (t.port p).flags.getLsbD 13 = true := by
  unfold State.port
  rw [same]
  exact entry_bits .clock (s := wentTo new s) rfl (wentTo_bit new rfl high)

/-! ### The link comes UP -/

/-- The state in which a good period has made the link UP and its frame goes to SITE (R164, R166). -/
def wentUp (f : ReturnFrame) (s : State) : State :=
  raise .linkState (logEntry .linkState .none (.link s.lnk.state .up) { s with
    lnk := { s.lnk with
      frame := some (forwardFrame s), lastSent := some s.lnk.nextSeq, nextSeq := (s.lnk.nextSeq + 1) % 256
      outstanding := none, good := min 8 (s.lnk.good + 1), missing := 0, lastEcho := some f.echo, judged := none
      state := .up, delivered := some f }
    tb := { s.tb with link := .up }, due := s.due ++ [.carrying .up s.lnk.siteFill] })

theorem judgement_up {x : LNK} {f : ReturnFrame} (judged : x.judged = some f) (was : x.state = .syncing ∨ x.state = .degraded)
    (good : x.good = 7) : x.judgement = .up := by
  rw [judgement_good judged, good]
  rcases was with h | h <;> rw [h] <;> rfl

/-- The delivery that follows, with nothing queued and the site fill as it was (R166). -/
theorem linkStage_comes_up {s t : State} {f : ReturnFrame} (judged : s.lnk.judged = some f)
    (was : s.lnk.state = .syncing ∨ s.lnk.state = .degraded) (good : s.lnk.good = 7) (out : s.lnk.outstanding = none)
    (queue : s.lnk.queue = []) (source : s.tb.source = .internal) (delivery : siteDelivery f (wentUp f s) = t)
    (fill : f.fill = t.lnk.siteFill) (idle : t.lnk.outstanding = none) : linkStage s = t := by
  have goes := judgement_up judged was good
  have counts := periodCounted_good judged
  rw [out] at counts
  have started : (periodCounted s).lnk.state ≠ .up := by
    rw [counts]
    rcases was with h | h <;> (rw [withLnk_lnk, h]; nofun)
  have went : linkGoes .up (periodCounted s) = toldOf .up (periodCounted s) := by
    rw [linkGoes_up started, considerOutstanding_of_empty]
    rw [toldOf_internal (by rw [counts]; exact source), counts]
    exact queue
  have sends : (linkGoes .up (periodCounted s)).withLnk
      { (linkGoes .up (periodCounted s)).lnk with delivered := some f } = wentUp f s := by
    rw [went, toldOf_internal (by rw [counts]; exact source), counts]
    rfl
  have none_ : accepted t.lnk f = none := by
    unfold accepted
    rw [idle]
  have delivered : deliver f (linkGoes .up (periodCounted s)) = t := by
    unfold deliver
    dsimp only
    rw [sends, delivery]
    rw [show takeSiteFill f t = t from if_pos fill]
    unfold takeAck
    rw [none_]
  rw [linkStage_delivers judged (.inl goes), goes, delivered, overdueLast_of_none idle]

theorem wentUp_high {f : ReturnFrame} {s : State} {p : PortId} (high : (s.port p).init = .high) :
    ((wentUp f s).port p).init = .high ∧ ((wentUp f s).port p).flags.getLsbD 11 = true := entry_bit .linkState rfl high

/-- A record's resource whose commanded value an adoption sets (R174). -/
theorem resource_map (x : SITE) (g : Resource → Resource) {r : Nat} (small : r < x.resources.length) :
    ({ x with resources := x.resources.map g } : SITE).resource r = g (x.resource r) := by
  unfold SITE.resource
  simp [List.getD_eq_getElem?_getD, List.getElem?_eq_getElem small]

/-- A delivery to an unknown site without a new fault adopts it (R174). -/
theorem siteDelivery_adopts {s : State} {f : ReturnFrame} (unknown : s.site.state = .unknown) (stage : s.site.stage = none)
    (no : newFaults s.site f = []) : siteDelivery f s = adopt f (s.withSite (s.site.record f)) := by
  unfold siteDelivery
  dsimp only
  rw [no, if_pos unknown]
  exact checkStage_of_none stage

/-- A delivery to a known site, no stage held, with one new fault or none (R175). -/
theorem siteDelivery_idle {s : State} {f : ReturnFrame} (known : s.site.state ≠ .unknown) (stage : s.site.stage = none)
    (no : newFaults s.site f = []) : siteDelivery f s = s.withSite (s.site.record f) := by
  unfold siteDelivery
  dsimp only
  rw [no, if_neg known]
  exact checkStage_of_none stage

theorem newFault_live {s : State} (cause : SiteCause) (off : s.site.state ≠ .off) (queue : s.lnk.queue = [])
    (out : s.lnk.outstanding = none) (stage : s.site.stage = none) (wake : s.site.pendingWake = false) :
    newFault s cause = siteChange .fault cause s := by
  have bare : s.withSite { s.site with stage := none } = s := by
    rw [← stage]
    rfl
  unfold newFault
  split
  · exact absurd ‹s.site.state = .off› off
  · rfl
  · rw [siteFault_idle cause queue out (fun st h => by rw [stage] at h; cases h) wake, bare]

theorem siteDelivery_faults {s : State} {f : ReturnFrame} {cause : SiteCause} (known : s.site.state ≠ .unknown)
    (stage : s.site.stage = none) (one : newFaults s.site f = [cause]) (queue : s.lnk.queue = []) (out : s.lnk.outstanding = none)
    (wake : s.site.pendingWake = false) : siteDelivery f s =
      if s.site.state = .off then s.withSite (s.site.record f) else siteChange .fault cause (s.withSite (s.site.record f)) := by
  unfold siteDelivery
  dsimp only
  rw [one, if_neg known]
  show checkStage (newFault (s.withSite (s.site.record f)) cause) = _
  by_cases off : s.site.state = .off
  · rw [if_pos off]
    have same : newFault (s.withSite (s.site.record f)) cause = s.withSite (s.site.record f) := by
      unfold newFault
      rw [show (s.withSite (s.site.record f)).site.state = .off from off]
    rw [same]
    exact checkStage_of_none stage
  · rw [if_neg off, newFault_live (s := s.withSite (s.site.record f)) cause off queue out stage wake]
    exact checkStage_of_none stage

/-- One resource newly reports FAULT (R175). -/
theorem newFaults_resource {x : SITE} {f : ReturnFrame} {r : Nat} (small : r < 8) (fault : f.resources.getD r .off = .fault)
    (alone : ∀ q, q ≠ r → f.resources.getD q .off ≠ .fault) (was : (x.resource r).reported ≠ .fault) (mode : f.mode ≠ .fault) :
    newFaults x f = [.resourceFault r] := by
  have which : (List.range 8).filter (fun q =>
      decide (f.resources.getD q .off = .fault) && !decide ((x.resource q).reported = .fault)) = [r] := by
    have same : ∀ q ∈ List.range 8, (decide (f.resources.getD q .off = .fault) && !decide ((x.resource q).reported = .fault)) =
        decide (q = r) := fun q _ => by
      by_cases h : q = r
      · subst h
        rw [decide_eq_true fault, decide_eq_false was, decide_eq_true rfl]
        rfl
      · rw [decide_eq_false (alone q h), decide_eq_false h]
        rfl
    rw [List.filter_congr same]
    exact (by decide : ∀ r < 8, (List.range 8).filter (fun q => decide (q = r)) = [r]) r small
  unfold newFaults
  rw [which]
  cases x.lastMode with
  | none => rfl
  | some m =>
    dsimp only
    rw [if_neg fun h => mode h.2]
    rfl

/-- The site mode newly reports FAULT (R175). -/
theorem newFaults_mode {x : SITE} {f : ReturnFrame} {m : SiteMode} (resources : ∀ r, f.resources.getD r .off ≠ .fault)
    (mode : f.mode = .fault) (last : x.lastMode = some m) (was : m ≠ .fault) : newFaults x f = [.siteFault] := by
  have none_ : (List.range 8).filter (fun q =>
      decide (f.resources.getD q .off = .fault) && !decide ((x.resource q).reported = .fault)) = [] := by
    rw [List.filter_eq_nil_iff]
    intro q _
    rw [decide_eq_false (resources q), Bool.false_and]
    exact Bool.false_ne_true
  unfold newFaults
  rw [none_, last]
  exact if_pos ⟨was, mode⟩

/-- The first delivery has no mode to compare with (R175; log 20). -/
theorem newFaults_first {x : SITE} {f : ReturnFrame} (resources : ∀ r, f.resources.getD r .off ≠ .fault)
    (last : x.lastMode = none) : newFaults x f = [] := by
  unfold newFaults
  rw [last, List.append_nil, List.map_eq_nil_iff, List.filter_eq_nil_iff]
  intro q _
  rw [decide_eq_false (resources q), Bool.false_and]
  exact Bool.false_ne_true

/-! ### Acknowledgements and timeouts (R168, R169, R178, R183) -/

theorem carried_of_sent {s : State} {o : Outstanding} {x : Nat} (sent : o.firstSeq = some x) : carried s o = o := by
  unfold carried
  rw [sent]
  exact if_neg fun h => absurd h.2 nofun

theorem carried_since (s : State) (o : Outstanding) : (carried s o).since = o.since := by
  unfold carried
  split <;> rfl

theorem accepted_of_number {x : LNK} {f : ReturnFrame} {o : Outstanding} {n : Nat} {done : Bool} (out : x.outstanding = some o)
    (first : o.firstSeq = some n) (ack : f.ack = some (o.number, done)) (near : (f.echo + 256 - n) % 256 ≤ 127) :
    accepted x f = some done := by
  unfold accepted
  rw [out, ack]
  dsimp only
  rw [first]
  exact if_pos ⟨rfl, near⟩

theorem accepted_of_other {x : LNK} {f : ReturnFrame} {o : Outstanding} {m : Nat} {done : Bool} (out : x.outstanding = some o)
    (ack : f.ack = some (m, done)) (other : m ≠ o.number) : accepted x f = none := by
  unfold accepted
  rw [out, ack]
  dsimp only
  split
  · exact if_neg fun h => other h.1
  · rfl

/-- The state in which a good period in UP has been recorded by SITE, its stage standing (R166, R175). -/
def frameRecorded (f : ReturnFrame) (s : State) : State := { s with
  lnk := { s.lnk with
    frame := some (forwardFrame s), lastSent := some s.lnk.nextSeq, nextSeq := (s.lnk.nextSeq + 1) % 256
    good := min 8 (s.lnk.good + 1), missing := 0, lastEcho := some f.echo, judged := none, delivered := some f }
  site := s.site.record f }

/-- A good period in UP with a command out that has been sent: SITE's stage waits, and the acknowledgement is taken (R168). -/
theorem linkStage_hears {s : State} {f : ReturnFrame} {o : Outstanding} {n : Nat} {st : Stage} (up : s.lnk.state = .up)
    (judged : s.lnk.judged = some f) (fill : f.fill = s.lnk.siteFill) (out : s.lnk.outstanding = some o)
    (first : o.firstSeq = some n) (known : s.site.state ≠ .unknown) (stage : s.site.stage = some st) (waits : st.awaiting ≠ [])
    (resources : ∀ r, f.resources.getD r .off ≠ .fault) (mode : f.mode ≠ .fault) :
    linkStage s = overdueLast (takeAck f (frameRecorded f s)) := by
  have goes : s.lnk.judgement = .up := by
    rw [judgement_good judged, up]
    rfl
  have counts := periodCounted_good judged
  rw [out, Option.map_some, carried_of_sent first, ← out] at counts
  have stays : linkGoes .up (periodCounted s) = periodCounted s := linkGoes_same (by rw [counts]; exact up)
  have delivery : siteDelivery f ((periodCounted s).withLnk { (periodCounted s).lnk with delivered := some f }) = frameRecorded f s := by
    rw [siteDelivery_known (by rw [counts]; exact known) resources mode, counts]
    exact checkStage_of_unconfirmed (st := st) stage (confirmed_of_awaiting waits)
  have delivered : deliver f (periodCounted s) = takeAck f (frameRecorded f s) := by
    unfold deliver
    dsimp only
    rw [delivery, show takeSiteFill f (frameRecorded f s) = frameRecorded f s from if_pos fill]
  rw [linkStage_delivers judged (.inl goes), goes, stays, delivered]

theorem takeAck_none {s : State} {f : ReturnFrame} (h : accepted s.lnk f = none) : takeAck f s = s := by
  unfold takeAck
  rw [h]

theorem takeAck_done {s : State} {f : ReturnFrame} {q : QueuedCommand} {rest : List QueuedCommand}
    (h : accepted s.lnk f = some true) (queue : s.lnk.queue = q :: rest) : takeAck f s = headLeaves q .done s := by
  unfold takeAck
  rw [h, queue]

theorem takeAck_refused {s : State} {f : ReturnFrame} (h : accepted s.lnk f = some false) :
    takeAck f s = failOutstanding .refused s := by
  unfold takeAck
  rw [h]

/-- The outstanding command fails: the entry and the notice, SITE's part still to come (R169). -/
def failed (q : QueuedCommand) (r : FailReason) (s : State) : State :=
  raise .siteState (logEntry .siteCommandFailed q.command.subject (.command q.command r) s)

/-- The notice of the failure (R169, R194). -/
theorem failed_bit {q : QueuedCommand} {r : FailReason} {s t : State} {p : PortId} (same : t.pi = (failed q r s).pi)
    (high : (s.port p).init = .high) : (t.port p).init = .high ∧ (t.port p).flags.getLsbD 12 = true := by
  unfold State.port
  rw [same]
  exact entry_bit .siteState (s := s) rfl high

/-- A command in UP that has been out too long fails at a boundary without a good frame (R169). -/
theorem linkStage_times_out {s : State} {o : Outstanding} {q : QueuedCommand} (up : s.lnk.state = .up) (judged : s.lnk.judged = none)
    (missing : s.lnk.missing < 9) (out : s.lnk.outstanding = some o) (queue : s.lnk.queue = [q])
    (late : o.since + 100 ≤ s.boundaryNo) :
    linkStage s = headLeaves q (.failed .timeout) (failed q .timeout (periodCounted s)) := by
  have goes : s.lnk.judgement = .up := by
    rw [judgement_missing judged, up]
    exact if_neg (by omega)
  have counts := periodCounted_missing judged
  rw [out, Option.map_some] at counts
  have out' : (periodCounted s).lnk.outstanding = some (carried s o) := by rw [counts]; rfl
  rw [linkStage_missing judged, goes, linkGoes_same (by rw [counts]; exact up),
    overdueLast_late out' (by rw [carried_since, counts]; exact late),
    failOutstanding_of_some .timeout out' (rest := []) (by rw [counts]; exact queue)]
  rfl

/-! ### The clauses of the link's states -/

/-- The link goes to a state and no more than that happens beside LNK's own counts (R164). -/
def LinkGoes (new : LinkState) (s t : State) : Prop :=
  t.lnk.state = new ∧ t.tb.link = new ∧
  t.due = [.carrying new s.lnk.siteFill] ∧ t.log = s.log.append (stamp s) .linkState .none (.link s.lnk.state new) ∧
  (∀ p, (s.port p).init = .high → (t.port p).flags.getLsbD 11 = true) ∧
  t.out = s.out ∧ t.air = s.air ∧ t.cue = s.cue ∧ t.alc = s.alc ∧ t.site.state = s.site.state

/-- The eighth good period makes the link UP, and its frame is delivered to a site without a fault (R164, R166, R175). -/
theorem linkUp_delivers {s : State} {f : ReturnFrame} (due : s.due = [.link]) (stage : s.site.stage = none)
    (known : s.site.state ≠ .unknown) (source : s.tb.source = .internal) (out : s.lnk.outstanding = none)
    (queue : s.lnk.queue = []) (judged : s.lnk.judged = some f) (was : s.lnk.state = .syncing ∨ s.lnk.state = .degraded)
    (good : s.lnk.good = 7) (fill : f.fill = s.lnk.siteFill) (resources : ∀ r, f.resources.getD r .off ≠ .fault)
    (mode : f.mode ≠ .fault) : ∃ t, exec .linkUp s = .next t ∧ LinkGoes .up s t ∧ t = linkStage (s.withDue []) ∧
      t.lnk.good = 8 ∧ t.lnk.missing = 0 ∧ t.lnk.lastEcho = some f.echo ∧ t.lnk.delivered = some f ∧
      t.site.lastMode = some f.mode ∧ t.site.reportedStep = some f.power ∧
      (∀ r < 8, s.site.resources.length = 8 → f.resources.length = 8 →
        (t.site.resource r).reported = f.resources.getD r .off ∧
        (t.site.resource r).commanded = (s.site.resource r).commanded) := by
  have run : linkStage (s.withDue []) = (wentUp f (s.withDue [])).withSite (s.site.record f) :=
    linkStage_comes_up (s := s.withDue []) judged was good out queue source
      (siteDelivery_idle (s := wentUp f (s.withDue [])) known stage (newFaults_of_none resources mode)) fill rfl
  have up : s.lnk.state ≠ .up := by rcases was with h | h <;> (rw [h]; nofun)
  refine ⟨_, exec_linkUp due (judgement_up judged was good) up, ?_, rfl, ?_⟩
  all_goals rw [run]
  · exact ⟨rfl, rfl, rfl, rfl, fun p high => (wentUp_high (s := s.withDue []) high).2, rfl, rfl, rfl, rfl, rfl⟩
  · refine ⟨?_, rfl, rfl, rfl, rfl, rfl, fun r small len len' => ?_⟩
    · show min 8 (s.lnk.good + 1) = 8
      omega
    · rw [show ((wentUp f (s.withDue [])).withSite (s.site.record f)).site = s.site.record f from rfl, record_resource len len' small]
      exact ⟨rfl, rfl⟩

/-- The tenth missing period in UP makes the link DEGRADED (R164). -/
theorem linkDegraded_goes {s : State} (due : s.due = [.link]) (out : s.lnk.outstanding = none) (judged : s.lnk.judged = none)
    (was : s.lnk.state = .up) (missing : s.lnk.missing = 9) :
    exec .linkDegraded s = .next (linkStage (s.withDue [])) ∧
    linkStage (s.withDue []) = toldOf .degraded (periodCounted (s.withDue [])) := by
  have goes : s.lnk.judgement = .degraded := by
    rw [judgement_missing judged, was, missing]
    rfl
  have counts := periodCounted_missing (s := s.withDue []) judged
  have went : linkGoes .degraded (periodCounted (s.withDue [])) = toldOf .degraded (periodCounted (s.withDue [])) := by
    refine linkGoes_degraded ?_
    rw [counts]
    show s.lnk.state ≠ .degraded
    rw [was]
    nofun
  refine ⟨exec_linkDegraded due goes (by rw [was]; nofun), ?_⟩
  rw [linkStage_missing (s := s.withDue []) judged, show (s.withDue []).lnk.judgement = .degraded from goes, went]
  refine overdueLast_of_none ?_
  have same : (toldOf .degraded (periodCounted (s.withDue []))).lnk.outstanding = (periodCounted (s.withDue [])).lnk.outstanding :=
    (congrArg LNK.outstanding (linkToTb_lnk .degraded (wentTo .degraded (periodCounted (s.withDue [])))) :)
  rw [same, counts]
  show s.lnk.outstanding.map _ = none
  rw [out]
  rfl

theorem linkDegraded_internal {s : State} (due : s.due = [.link]) (source : s.tb.source = .internal)
    (out : s.lnk.outstanding = none) (judged : s.lnk.judged = none) (was : s.lnk.state = .up) (missing : s.lnk.missing = 9) :
    ∃ t, exec .linkDegraded s = .next t ∧ LinkGoes .degraded s t ∧ t = linkStage (s.withDue []) ∧ t.lnk.good = 0 ∧
      t.lnk.missing = 10 ∧ t.site = s.site := by
  obtain ⟨run, told⟩ := linkDegraded_goes due out judged was missing
  have counts := periodCounted_missing (s := s.withDue []) judged
  rw [toldOf_internal (by rw [counts]; exact source), counts] at told
  refine ⟨_, run, ?_, rfl, ?_⟩
  all_goals rw [told]
  · exact ⟨rfl, rfl, rfl, rfl, fun p high => (wentTo_bit .degraded (s := s) rfl high).2, rfl, rfl, rfl, rfl, rfl⟩
  · refine ⟨rfl, ?_, rfl⟩
    show min 400 (s.lnk.missing + 1) = 10
    omega

/-- With LINK in use TB falls back (R11; log 52). -/
theorem linkDegraded_link {s : State} (due : s.due = [.link]) (judged : s.lnk.judged = none) (was : s.lnk.state = .up)
    (missing : s.lnk.missing = 9) (out : s.lnk.outstanding = none) (source : s.tb.source = .link) (inUse : s.tb.toInternal = false) :
    ∃ t, exec .linkDegraded s = .next t ∧ t.lnk.state = .degraded ∧
      t.tb = { s.tb with link := .degraded, source := .internal, pendingSource := none } ∧
      t.log = (s.log.append (stamp s) .linkState .none (.link .up .degraded)).append (stamp s) .clockFallback .none
        (.source .link) ∧
      (∀ p, (s.port p).init = .high → (t.port p).flags.getLsbD 11 = true ∧ (t.port p).flags.getLsbD 13 = true) ∧
      t.out = s.out ∧ t.site = s.site := by
  obtain ⟨run, told⟩ := linkDegraded_goes due out judged was missing
  have counts := periodCounted_missing (s := s.withDue []) judged
  rw [toldOf_link (by rw [counts]; exact source) (by rw [counts]; exact inUse) (show LinkState.degraded ≠ .up from nofun), counts] at told
  refine ⟨_, run, ?_⟩
  rw [told]
  refine ⟨rfl, rfl, ?_, fun p high => ?_, rfl, rfl⟩
  · rw [← was]
    rfl
  · exact fallback_bits .degraded (s := s) rfl high

/-- A missing period in SYNCING, and the 400th in DEGRADED, make the link DOWN (R164). -/
theorem linkDown_goes {s : State} (due : s.due = [.link]) (source : s.tb.source = .internal) (out : s.lnk.outstanding = none)
    (judged : s.lnk.judged = none) (was : s.lnk.state = .syncing ∨ (s.lnk.state = .degraded ∧ s.lnk.missing = 399)) :
    ∃ t, exec .linkDown s = .next t ∧ LinkGoes .down s t ∧ t = linkStage (s.withDue []) ∧ t.lnk.good = 0 ∧
      t.lnk.queue = s.lnk.queue ∧ t.site = s.site := by
  have goes : s.lnk.judgement = .down := by
    rw [judgement_missing judged]
    rcases was with h | ⟨h, missing⟩
    · rw [h]
      rfl
    · rw [h, missing]
      rfl
  have notDown : s.lnk.state ≠ .down := by rcases was with h | ⟨h, -⟩ <;> (rw [h]; nofun)
  have counts := periodCounted_missing (s := s.withDue []) judged
  have told := toldOf_internal (s := periodCounted (s.withDue [])) (by rw [counts]; exact source) .down
  rw [counts] at told
  rw [show (s.withDue []).lnk.outstanding = none from out] at counts told
  have run : linkStage (s.withDue []) = toldOf .down (periodCounted (s.withDue [])) := by
    rw [linkStage_missing (s := s.withDue []) judged, show (s.withDue []).lnk.judgement = .down from goes,
      linkGoes_down (by rw [counts]; exact notDown), counts, told, failOutstanding_of_none _ rfl, overdueLast_of_none rfl]
  refine ⟨_, exec_linkDown due goes notDown, ?_, rfl, ?_⟩
  all_goals rw [run, counts, told]
  · exact ⟨rfl, rfl, rfl, rfl, fun p high => (wentTo_bit .down (s := s) rfl high).2, rfl, rfl, rfl, rfl, rfl⟩
  · exact ⟨rfl, rfl, rfl⟩

/-- A command out for 100 boundaries fails, no stage being held (R169). -/
theorem commandTimeout_idle {s : State} {o : Outstanding} {q : QueuedCommand} (due : s.due = [.link]) (stage : s.site.stage = none)
    (out : s.lnk.outstanding = some o) (queue : s.lnk.queue = [q]) (judged : s.lnk.judged = none) (up : s.lnk.state = .up)
    (missing : s.lnk.missing < 9) (late : o.since + 100 ≤ s.boundaryNo) :
    ∃ t, exec .commandTimeout s = .next t ∧ t = linkStage (s.withDue []) ∧ t.lnk.state = .up ∧
      t.lnk.queue = [] ∧ t.lnk.outstanding = none ∧ t.lnk.missing = s.lnk.missing + 1 ∧
      t.log = s.log.append (stamp s) .siteCommandFailed q.command.subject (.command q.command .timeout) ∧
      (∀ p, (s.port p).init = .high → (t.port p).flags.getLsbD 12 = true) ∧
      t.tb = s.tb ∧ t.out = s.out ∧ t.site = s.site := by
  have run := linkStage_times_out (s := s.withDue []) up judged missing out queue late
  have counts := periodCounted_missing (s := s.withDue []) judged
  rw [counts] at run
  rw [headLeaves_last_idle (.failed .timeout) (s := failed q .timeout _) (by exact queue) (by exact stage)] at run
  refine ⟨_, exec_commandTimeout due judged out late, rfl, ?_⟩
  rw [run]
  refine ⟨up, rfl, rfl, ?_, rfl, fun p high => (failed_bit (q := q) (r := .timeout) (s := s) rfl high).2, rfl, rfl, rfl⟩
  show min 400 (s.lnk.missing + 1) = _
  omega

/-- With its stage held the site goes to FAULT (R169, R178, R183; log 54). -/
theorem commandTimeout_faults {s : State} {o : Outstanding} {q : QueuedCommand} {st : Stage} (due : s.due = [.link])
    (judged : s.lnk.judged = none) (up : s.lnk.state = .up) (missing : s.lnk.missing < 9) (out : s.lnk.outstanding = some o)
    (queue : s.lnk.queue = [q]) (late : o.since + 100 ≤ s.boundaryNo) (state : s.site.state = .starting)
    (stage : s.site.stage = some st) (own : st.id = q.stage) (put : st.toPut = []) (wake : s.site.pendingWake = false) :
    ∃ t, exec .commandTimeout s = .next t ∧ t.lnk.queue = [] ∧ t.lnk.outstanding = none ∧ t.site.state = .fault ∧
      t.site.stage = none ∧
      t.log = (s.log.append (stamp s) .siteCommandFailed q.command.subject (.command q.command .timeout)).append (stamp s)
        .siteState .none (.site .starting .fault .commandTimeout) := by
  have run := linkStage_times_out (s := s.withDue []) up judged missing out queue late
  have counts := periodCounted_missing (s := s.withDue []) judged
  rw [counts] at run
  rw [headLeaves_last_fault (s := failed q .timeout _) (.inl ⟨rfl, rfl⟩) (by exact queue) (by exact stage) own put
    (by exact wake)] at run
  refine ⟨_, exec_commandTimeout due judged out late, ?_⟩
  rw [run]
  refine ⟨rfl, rfl, rfl, rfl, ?_⟩
  rw [← state]
  rfl

end Sys2Proof.Machine
end

section
/-! The link at a boundary: what a link that comes up delivers, acknowledgements at a boundary, and the frame's bytes. -/

namespace Sys2Proof.Machine

open Sys2Proof

/-! ### The site unknown, and new faults (R174, R175) -/

/-- The recorded contents of a delivery that a link coming up makes. -/
def DeliveryRecorded (f : ReturnFrame) (s t : State) : Prop :=
  exec .linkUp s = .next t ∧ t.site.lastMode = some f.mode ∧ t.site.reportedStep = some f.power ∧
  (∀ r < 8, (t.site.resource r).reported = f.resources.getD r .off) ∧ t.lnk.state = .up ∧ t.lnk.queue = []

/-- What a link coming up from SYNCING does, given what SITE makes of the delivery. -/
theorem linkUp_records {s t : State} {f : ReturnFrame} (due : s.due = [.link]) (source : s.tb.source = .internal)
    (judged : s.lnk.judged = some f) (was : s.lnk.state = .syncing) (good : s.lnk.good = 7) (out : s.lnk.outstanding = none)
    (queue : s.lnk.queue = []) (fill : f.fill = s.lnk.siteFill) (delivery : siteDelivery f (wentUp f (s.withDue [])) = t)
    (lnk : t.lnk = (wentUp f (s.withDue [])).lnk) (mode : t.site.lastMode = some f.mode)
    (step : t.site.reportedStep = some f.power) (resources : ∀ r < 8, (t.site.resource r).reported = f.resources.getD r .off) :
    DeliveryRecorded f s t := by
  refine ⟨?_, mode, step, resources, by rw [lnk]; rfl, by rw [lnk]; exact queue⟩
  rw [exec_linkUp due (judgement_up judged (.inl was) good) (by rw [was]; nofun)]
  exact congrArg Host.Outcome.next (linkStage_comes_up (s := s.withDue []) judged (.inl was) good out queue source delivery
    (by rw [lnk]; exact fill) (by rw [lnk]; rfl))

/-- The first delivery to an unknown site is adopted (R174; log 20). -/
theorem linkUp_adopts {s : State} {f : ReturnFrame} (due : s.due = [.link]) (stage : s.site.stage = none)
    (source : s.tb.source = .internal) (judged : s.lnk.judged = some f) (was : s.lnk.state = .syncing) (good : s.lnk.good = 7)
    (out : s.lnk.outstanding = none) (queue : s.lnk.queue = []) (fill : f.fill = s.lnk.siteFill)
    (len : s.site.resources.length = 8) (len' : f.resources.length = 8) (unknown : s.site.state = .unknown)
    (first : s.site.lastMode = none) (resources : ∀ r, f.resources.getD r .off ≠ .fault) :
    ∃ t, DeliveryRecorded f s t ∧ t.site.state = f.mode.adopted ∧ t.site.power = some f.power ∧
      t.site.stepBeforeLow = (if f.mode = .low then s.site.fullStep else s.site.stepBeforeLow) ∧
      (∀ r < 8, (t.site.resource r).commanded = decide (f.resources.getD r .off = .on)) ∧
      t.log = (s.log.append (stamp s) .linkState .none (.link .syncing .up)).append (stamp s) .siteState .none
        (.site .unknown f.mode.adopted .adopted) ∧
      ∀ p, (s.port p).init = .high → (t.port p).flags.getLsbD 12 = true := by
  have adopts := siteDelivery_adopts (s := wentUp f (s.withDue [])) unknown stage (newFaults_first resources first)
  have each (r : Nat) (small : r < 8) : (adopt f ((wentUp f (s.withDue [])).withSite (s.site.record f))).site.resource r =
      { s.site.resource r with
        reported := f.resources.getD r .off, commanded := decide (f.resources.getD r .off = .on) } := by
    refine (resource_map (s.site.record f) (fun r => { r with commanded := decide (r.reported = .on) })
      (by rw [record_length len len']; exact small)).trans ?_
    rw [record_resource len len' small]
  refine ⟨_, linkUp_records due source judged was good out queue fill adopts rfl rfl rfl fun r small => ?_, rfl, rfl, rfl,
    fun r small => ?_, ?_, fun p high => ?_⟩
  · exact congrArg Resource.reported (each r small)
  · exact congrArg Resource.commanded (each r small)
  · rw [← was, ← unknown]
    rfl
  · exact siteChange_flag _ _ (wentUp_high (f := f) (s := s.withDue []) high).1

/-- A new fault in a delivery to a site that is not OFF makes it FAULT; one to a site that is OFF is only recorded (R175). -/
theorem linkUp_faults {s : State} {f : ReturnFrame} {cause : SiteCause} (due : s.due = [.link]) (stage : s.site.stage = none)
    (source : s.tb.source = .internal) (judged : s.lnk.judged = some f) (was : s.lnk.state = .syncing) (good : s.lnk.good = 7)
    (out : s.lnk.outstanding = none) (queue : s.lnk.queue = []) (fill : f.fill = s.lnk.siteFill)
    (len : s.site.resources.length = 8) (len' : f.resources.length = 8) (wake : s.site.pendingWake = false)
    (one : newFaults s.site f = [cause]) :
    (s.site.state = .off → ∃ t, DeliveryRecorded f s t ∧ t.site.state = .off ∧
      t.log = s.log.append (stamp s) .linkState .none (.link .syncing .up)) ∧
    (s.site.state ≠ .off → s.site.state ≠ .unknown → ∃ t, DeliveryRecorded f s t ∧ t.site.state = .fault ∧
      t.log = (s.log.append (stamp s) .linkState .none (.link .syncing .up)).append (stamp s) .siteState .none
        (.site s.site.state .fault cause) ∧
      ∀ p, (s.port p).init = .high → (t.port p).flags.getLsbD 12 = true) := by
  have each (r : Nat) (small : r < 8) : ((s.site.record f).resource r).reported = f.resources.getD r .off := by
    rw [record_resource len len' small]
  have faults (known : s.site.state ≠ .unknown) :=
    siteDelivery_faults (s := wentUp f (s.withDue [])) known stage one queue rfl wake
  refine ⟨fun off => ?_, fun live known => ?_⟩
  · have delivery := faults (by rw [off]; nofun)
    rw [if_pos (show (wentUp f (s.withDue [])).site.state = .off from off)] at delivery
    refine ⟨_, linkUp_records due source judged was good out queue fill delivery rfl rfl rfl each, off, ?_⟩
    rw [← was]
    rfl
  · have delivery := faults known
    rw [if_neg (show (wentUp f (s.withDue [])).site.state ≠ .off from live)] at delivery
    refine ⟨_, linkUp_records due source judged was good out queue fill delivery rfl rfl rfl each, rfl, ?_, fun p high => ?_⟩
    · rw [← was]
      rfl
    · exact siteChange_flag _ _ (wentUp_high (f := f) (s := s.withDue []) high).1

/-! ### Acknowledgements at a boundary -/

/-- The state in which LNK's event is taken at a boundary that takes it first, no SET CLOCK pending. -/
def beforeLink (i : PeriodInput) (s : State) : State := (latch i s).withDue ((latch i s).due.erase .link)

theorem boundary_link_sampled {i : PeriodInput} {later : List DueKind} {s : State} (due : s.due = [])
    (others : ∀ k, k ≠ .link → k ∈ later) (keys : KeysSampled s) (clock : s.tb.pendingTime = none) :
    exec (.blockBoundary i [.link] later) s = .next (linkStage (beforeLink i s)) := by
  rw [boundary_link due others, atBoundary_of_sampled due keys clock]
  rfl

theorem stamp_beforeLink (i : PeriodInput) {s : State} (due : s.due = []) (clock : s.tb.pendingTime = none) :
    stamp (beforeLink i s) = if s.tb.clockSet then some (if s.tb.clock = 17279999 then 0 else s.tb.clock + 1) else none := by
  have stamped := stamp_clockFirst_latch i due clock
  rw [clockFirst_of_not (clockSet_not_mem_latch i due clock), clockAfter_eq] at stamped
  exact stamped

/-- A good period in UP with a command out that SITE's POWER stage awaits, by the acknowledgement it brings (R168, R178, R183). -/
theorem linkStage_acknowledges {s : State} {f : ReturnFrame} {o : Outstanding} {q : QueuedCommand} {st : Stage} {x : Nat}
    (up : s.lnk.state = .up) (judged : s.lnk.judged = some f) (fill : f.fill = s.lnk.siteFill) (queue : s.lnk.queue = [q])
    (out : s.lnk.outstanding = some o) (first : o.firstSeq = some x) (near : (f.echo + 256 - x) % 256 ≤ 127)
    (state : s.site.state = .starting) (stage : s.site.stage = some st) (own : st.id = q.stage) (put : st.toPut = [])
    (awaiting : st.awaiting = [q.command]) (kind : st.kind = .power) (step : f.power ≠ st.step)
    (wake : s.site.pendingWake = false) (resources : ∀ r, f.resources.getD r .off ≠ .fault) (mode : f.mode ≠ .fault) :
    (f.ack = some (o.number, true) → (linkStage s).lnk.queue = [] ∧ (linkStage s).lnk.outstanding = none ∧
      (linkStage s).site.state = .starting ∧ (linkStage s).site.stage = some { st with awaiting := [] } ∧
      (linkStage s).log = s.log) ∧
    (f.ack = some (o.number, false) → (linkStage s).lnk.queue = [] ∧ (linkStage s).lnk.outstanding = none ∧
      (linkStage s).site.state = .fault ∧ (linkStage s).site.stage = none ∧
      (linkStage s).log = (s.log.append (stamp s) .siteCommandFailed q.command.subject (.command q.command .refused)).append
        (stamp s) .siteState .none (.site .starting .fault .commandRefused)) ∧
    (∀ n done, f.ack = some (n, done) → n ≠ o.number → s.boundaryNo < o.since + 100 →
      (linkStage s).lnk.queue = [q] ∧ (linkStage s).lnk.outstanding = some o ∧ (linkStage s).site.stage = some st ∧
      (linkStage s).log = s.log) := by
  have hears := linkStage_hears up judged fill out first (by rw [state]; nofun) stage (by rw [awaiting]; nofun) resources mode
  have out' : (frameRecorded f s).lnk.outstanding = some o := out
  refine ⟨fun ack => ?_, fun ack => ?_, fun n done ack other early => ?_⟩
  · have left := headLeaves_last_done (s := frameRecorded f s) queue stage own put kind
      (show some f.power ≠ some st.step from fun h => step (Option.some.inj h))
    rw [hears, takeAck_done (accepted_of_number out' first ack near) queue, left, overdueLast_of_none rfl, awaiting,
      List.erase_cons_head]
    exact ⟨rfl, rfl, state, rfl, rfl⟩
  · have left := headLeaves_last_fault (s := failed q .refused (frameRecorded f s)) (.inr ⟨rfl, rfl⟩) queue stage own put wake
    have fails : failOutstanding .refused (frameRecorded f s) = _ := (failOutstanding_of_some .refused out' queue).trans left
    rw [hears, takeAck_refused (accepted_of_number out' first ack near), fails, overdueLast_of_none rfl]
    refine ⟨rfl, rfl, rfl, rfl, ?_⟩
    rw [← state]
    rfl
  · rw [hears, takeAck_none (accepted_of_other out' ack other), overdueLast_early out' early]
    exact ⟨queue, out, stage, rfl⟩

/-- A good period in DOWN makes the link SYNCING, and it is not delivered (R164, R166). -/
theorem linkStage_syncs {s : State} {f : ReturnFrame} (down : s.lnk.state = .down) (judged : s.lnk.judged = some f)
    (source : s.tb.source = .internal) (out : s.lnk.outstanding = none) : linkStage s =
    raise .linkState (logEntry .linkState .none (.link s.lnk.state .syncing) { s with
      lnk := { s.lnk with
        frame := some (forwardFrame s), lastSent := some s.lnk.nextSeq, nextSeq := (s.lnk.nextSeq + 1) % 256, outstanding := none
        good := min 8 (s.lnk.good + 1), missing := 0, lastEcho := some f.echo, judged := none, state := .syncing }
      tb := { s.tb with link := .syncing }, due := s.due ++ [.carrying .syncing s.lnk.siteFill] }) := by
  have goes : s.lnk.judgement = .syncing := by
    rw [judgement_good judged, down]
    rfl
  have counts := periodCounted_good judged
  rw [out] at counts
  have told := toldOf_internal (s := periodCounted s) (by rw [counts]; exact source) .syncing
  have went : linkGoes .syncing (periodCounted s) = toldOf .syncing (periodCounted s) := by
    refine linkGoes_syncing ?_
    rw [counts]
    show s.lnk.state ≠ .syncing
    rw [down]
    nofun
  rw [linkStage_undelivered judged (by rw [goes]; nofun), goes, went, told, counts]
  exact overdueLast_of_none rfl

/-! ### The frame's bytes (section 10.6) -/

theorem ridingCommand_iff (s : State) (n : Nat) (c : SiteCommand) : ridingCommand s = some (n, c) ↔
    ∃ o q rest, s.lnk.outstanding = some o ∧ s.lnk.queue = q :: rest ∧ o.since < s.boundaryNo ∧ o.number = n ∧ q.command = c := by
  unfold ridingCommand
  cases out : s.lnk.outstanding with
  | none => simp
  | some o =>
    cases queue : s.lnk.queue with
    | nil => simp
    | cons q rest =>
      dsimp only
      split
      · simp_all
      · simp_all

/-- Bytes 0 to 1444 of a frame by its parts (section 10.6). -/
def frameBytes (seq : Nat) (kind : Byte) (unit : List Byte) (a : Audio) : List Byte :=
  [BitVec.ofNat 8 seq, kind] ++ unit ++ a.flatMap fun x => beBytes 3 x.left.toNat ++ beBytes 3 x.right.toNat

theorem frameBody_eq (seq : Nat) (k : Content) (c : Option (Nat × SiteCommand)) (a : Audio) :
    frameBody seq k c a = frameBytes seq (byte k.place) (commandUnit c) a := by
  unfold frameBody frameBytes
  simp only [triBytes_eq]
  rfl

/-- A frame whose check is formed over its body (R162). -/
theorem forwardFrame_bytes (s : State) : (forwardFrame s).check =
      crc (frameBytes s.lnk.nextSeq (byte (forwardFrame s).content.place) (commandUnit (forwardFrame s).command) (forwardFrame s).audio) ∧
    (forwardFrame s).bytes =
      frameBytes s.lnk.nextSeq (byte (forwardFrame s).content.place) (commandUnit (forwardFrame s).command) (forwardFrame s).audio ++
        beBytes 2 (forwardFrame s).check.toNat := by
  refine ⟨congrArg crc (frameBody_eq ..), ?_⟩
  unfold ForwardFrame.bytes
  rw [frameBody_eq, halfBytes_eq]
  rfl

/-- The content kind's byte by the origin (R5). -/
theorem content_byte {o : Origin} {kind : Byte} (alert : o = .alert → kind = 1) (fill : o = .programme .fill → kind = 2)
    (programme : ∀ source, source ≠ .fill → o = .programme source → kind = 0) : byte o.content.place = kind := by
  cases o with
  | alert => exact (alert rfl).symm
  | programme source =>
    by_cases h : source = .fill
    · subst h
      exact (fill rfl).symm
    · rw [programme source h rfl]
      cases source <;> first | rfl | exact absurd rfl h

/-- The link's states by the period, INTERNAL in use and no stage held (R164, R169). -/
theorem link_states {s : State} (due : s.due = [.link]) (stage : s.site.stage = none) (known : s.site.state ≠ .unknown)
    (source : s.tb.source = .internal) :
    let sent (x : LNK) : Prop := x.lastSent = some s.lnk.nextSeq ∧ x.nextSeq = (s.lnk.nextSeq + 1) % 256 ∧
      x.frame.map (·.seq) = some s.lnk.nextSeq ∧ x.frame.map (·.audio) = some s.audio.prev.air.audio ∧
      x.frame.map (·.content) = some s.audio.prev.air.tag.origin.content
    (∀ f, s.lnk.outstanding = none → s.lnk.queue = [] → s.lnk.judged = some f →
      s.lnk.state = .syncing ∨ s.lnk.state = .degraded → s.lnk.good = 7 → f.fill = s.lnk.siteFill →
      (∀ r, f.resources.getD r .off ≠ .fault) → f.mode ≠ .fault →
      ∃ t, exec .linkUp s = .next t ∧ LinkGoes .up s t ∧ sent t.lnk ∧ t.lnk.good = 8 ∧ t.lnk.missing = 0 ∧
        t.lnk.lastEcho = some f.echo ∧ t.lnk.delivered = some f ∧ t.site.lastMode = some f.mode ∧
        t.site.reportedStep = some f.power ∧
        (∀ r < 8, s.site.resources.length = 8 → f.resources.length = 8 →
          (t.site.resource r).reported = f.resources.getD r .off ∧
          (t.site.resource r).commanded = (s.site.resource r).commanded)) ∧
    (s.lnk.outstanding = none → s.lnk.queue = [] → s.lnk.judged = none → s.lnk.state = .up → s.lnk.missing = 9 →
      ∃ t, exec .linkDegraded s = .next t ∧ LinkGoes .degraded s t ∧ sent t.lnk ∧ t.lnk.good = 0 ∧ t.lnk.missing = 10 ∧
        t.site = s.site) ∧
    (s.lnk.outstanding = none → s.lnk.judged = none →
      s.lnk.state = .syncing ∨ (s.lnk.state = .degraded ∧ s.lnk.missing = 399) →
      ∃ t, exec .linkDown s = .next t ∧ LinkGoes .down s t ∧ sent t.lnk ∧ t.lnk.good = 0 ∧ t.lnk.queue = s.lnk.queue ∧
        t.site = s.site) ∧
    (∀ o q, s.lnk.outstanding = some o → s.lnk.queue = [q] → s.lnk.judged = none → s.lnk.state = .up → s.lnk.missing < 9 →
      o.since + 100 ≤ s.boundaryNo → ∃ t, exec .commandTimeout s = .next t ∧ sent t.lnk ∧ t.lnk.state = .up ∧
        t.lnk.queue = [] ∧ t.lnk.outstanding = none ∧ t.lnk.missing = s.lnk.missing + 1 ∧
        t.log = s.log.append (stamp s) .siteCommandFailed q.command.subject (.command q.command .timeout) ∧
        (∀ p, (s.port p).init = .high → (t.port p).flags.getLsbD 12 = true) ∧
        t.tb = s.tb ∧ t.out = s.out ∧ t.site = s.site) := by
  intro sent
  have sends : sent (linkStage (s.withDue [])).lnk := linkStage_sends (s.withDue [])
  refine ⟨fun f out queue judged was good fill resources mode => ?_, fun out _ judged was missing => ?_,
    fun out judged was => ?_, fun o q out queue judged up missing late => ?_⟩
  · obtain ⟨t, run, goes, rfl, rest⟩ :=
      linkUp_delivers due stage known source out queue judged was good fill resources mode
    exact ⟨_, run, goes, sends, rest⟩
  · obtain ⟨t, run, goes, rfl, rest⟩ := linkDegraded_internal due source out judged was missing
    exact ⟨_, run, goes, sends, rest⟩
  · obtain ⟨t, run, goes, rfl, rest⟩ := linkDown_goes due source out judged was
    exact ⟨_, run, goes, sends, rest⟩
  · obtain ⟨t, run, rfl, rest⟩ := commandTimeout_idle due stage out queue judged up missing late
    exact ⟨_, run, sends, rest⟩

/-- The forward frame of a boundary that takes LNK's event first (R162, R168, section 10.6). -/
theorem boundary_frame {i : PeriodInput} {later : List DueKind} {s : State} (due : s.due = [])
    (others : ∀ k, k ≠ .link → k ∈ later) :
    let air := s.audio.cur.air
    let riding (n : Nat) (c : SiteCommand) : Prop := ∃ o q rest, s.lnk.outstanding = some o ∧ s.lnk.queue = q :: rest ∧
      o.since < s.boundaryNo + 1 ∧ o.number = n ∧ q.command = c
    ∃ t f, exec (.blockBoundary i [.link] later) s = .next t ∧ t.lnk.frame = some f ∧ f.seq = s.lnk.nextSeq ∧
      t.lnk.lastSent = some s.lnk.nextSeq ∧ t.lnk.nextSeq = (s.lnk.nextSeq + 1) % 256 ∧ f.audio = air.audio ∧
      (∀ n c, f.command = some (n, c) ↔ riding n c) ∧
      ∀ kind : Byte, (air.tag.origin = .alert → kind = 1) → (air.tag.origin = .programme .fill → kind = 2) →
        (∀ source, source ≠ .fill → air.tag.origin = .programme source → kind = 0) →
        f.check = crc (frameBytes s.lnk.nextSeq kind (commandUnit f.command) air.audio) ∧
          f.bytes = frameBytes s.lnk.nextSeq kind (commandUnit f.command) air.audio ++
            beBytes 2 (crc (frameBytes s.lnk.nextSeq kind (commandUnit f.command) air.audio)).toNat := by
  intro air riding
  generalize hu : (atBoundary i s).withDue ((atBoundary i s).due.erase .link) = u
  have frame := atBoundary_frame i s
  have lnk : u.lnk = { s.lnk with judged := s.lnk.period, period := none } := by rw [← hu]; exact (congrArg State.lnk frame :)
  have prev : u.audio.prev = s.audio.cur := by rw [← hu]; exact (congrArg (fun v : State => v.audio.prev) frame :)
  have no : u.boundaryNo = s.boundaryNo + 1 := by rw [← hu]; exact (congrArg State.boundaryNo frame :)
  have seq : u.lnk.nextSeq = s.lnk.nextSeq := by rw [lnk]
  have audio : u.audio.prev.air = air := by rw [prev]
  obtain ⟨formed, last, next⟩ := linkStage_sent u
  obtain ⟨check, bytes⟩ := forwardFrame_bytes u
  refine ⟨linkStage u, forwardFrame u, by rw [boundary_link due others, hu], formed, seq, by rw [last, seq], by rw [next, seq],
    congrArg Block.audio audio, fun n c => ?_, fun kind alert fill programme => ?_⟩
  · refine (ridingCommand_iff u n c).trans ?_
    rw [lnk, no]
  · have place : byte (forwardFrame u).content.place = kind := by
      show byte u.audio.prev.air.tag.origin.content.place = kind
      rw [audio]
      exact content_byte alert fill programme
    rw [place, show (forwardFrame u).audio = air.audio from congrArg Block.audio audio, seq] at check bytes
    exact ⟨check, check ▸ bytes⟩

/-- Settles O56: LNK's event is the frame it forms and the judgement of the period, by the state the judgement goes to, the
acknowledgement it brings and what SITE makes of the delivery. -/
theorem theLinkChangesState : Obligations.TheLinkChangesState := by
  refine ⟨fun s due stage known source => link_states due stage known source,
    fun f s due stage source judged was good out queue fill len len' => ?_,
    fun i later f o q st x s due others keys clock up period fill queue out first near state stage own put awaiting kind step wake
      resources mode => ?_,
    fun i later f s due others keys clock source down period out => ?_,
    fun o q st s due judged up missing out queue late state stage own put wake =>
      commandTimeout_faults due judged up missing out queue late state stage own put wake,
    fun s due judged was missing out source inUse => linkDegraded_link due judged was missing out source inUse,
    fun i later s due others => ?_⟩
  · intro up recorded faulted
    have faults {cause : SiteCause} (wake : s.site.pendingWake = false) (one : newFaults s.site f = [cause]) :=
      linkUp_faults due stage source judged was good out queue fill len len' wake one
    refine ⟨fun unknown firstMode resources => ?_, fun r small fault alone before mode wake => ?_,
      fun m resources mode last before wake live known => ?_⟩
    · intro new
      have adopted : new = f.mode.adopted := by cases h : f.mode <;> simp only [new, h] <;> rfl
      obtain ⟨t, rec_, rest⟩ := linkUp_adopts due stage source judged was good out queue fill len len' unknown firstMode resources
      rw [← adopted] at rest
      exact ⟨t, rec_, rest⟩
    · obtain ⟨off, live⟩ := faults wake (newFaults_resource small fault alone before mode)
      exact ⟨off, live⟩
    · exact (faults wake (newFaults_mode resources mode last before)).2 live known
  · intro time
    have run := boundary_link_sampled (i := i) due others keys clock
    have stamped := stamp_beforeLink i due clock
    obtain ⟨done, refused, other⟩ := linkStage_acknowledges (s := beforeLink i s) up period fill queue out first near state stage own
      put awaiting kind step wake resources mode
    rw [stamped] at refused
    exact ⟨fun ack => ⟨_, run, done ack⟩, fun ack => ⟨_, run, refused ack⟩,
      fun n d ack differs early => ⟨_, run, other n d ack differs early⟩⟩
  · intro time
    have stamped := stamp_beforeLink i due clock
    have internal : (beforeLink i s).tb.source = .internal := by
      show (if s.tb.toInternal then ClockSource.internal else s.tb.source) = .internal
      rw [source, ite_self]
    have run := linkStage_syncs (s := beforeLink i s) down period internal out
    refine ⟨_, boundary_link_sampled due others keys clock, ?_⟩
    rw [run]
    refine ⟨rfl, rfl, rfl, rfl, rfl, rfl, rfl, rfl, List.mem_append_right _ (List.mem_singleton_self _), ?_, fun p high => ?_, rfl,
      rfl⟩
    · show _ = s.log.append time .linkState .none _
      rw [← down, show time = stamp (beforeLink i s) from stamped.symm]
      rfl
    · refine (wentTo_bit .syncing (s := beforeLink i s) rfl ?_).2
      exact (latch_port i s p).symm ▸ (tick_init _).trans high
  · intro air riding unit body
    obtain ⟨t, f, run, frame, seq, last, next, audio, rides, bytes⟩ := boundary_frame (i := i) due others
    refine ⟨t, f, run, frame, seq, last, next, audio, rides, fun kind alert fill programme => ?_⟩
    intro sent
    have sends := bytes kind alert fill programme
    refine ⟨fun none_ => ?_, fun n r h => ?_, fun n r h => ?_, fun n step h => ?_⟩
    · rw [none_] at sends
      exact sends
    all_goals
      rw [(rides _ _).2 h] at sends
      exact sends

end Sys2Proof.Machine
end

section
/-! CUE's operations as equations, and how an owner's event closes (R54 to R73, R78, R103, R142). -/

namespace Sys2Proof.Machine

open Sys2Proof

/-! ### Ports that are only notified -/

/-- No pin moves and no notice flag is lost. -/
def Notified (s t : State) : Prop :=
  ∀ p, (t.port p).init = (s.port p).init ∧ ∀ n, (s.port p).flags.getLsbD n = true → (t.port p).flags.getLsbD n = true

theorem notified_of_pi {s t : State} (h : t.pi = s.pi) : Notified s t := fun p => by
  unfold State.port
  rw [h]
  exact ⟨rfl, fun _ set => set⟩

theorem Notified.trans {s t u : State} (h : Notified s t) (k : Notified t u) : Notified s u :=
  fun p => ⟨(k p).1.trans (h p).1, fun n set => (k p).2 n ((h p).2 n set)⟩

theorem notified_raise (k : Notice) (s : State) : Notified s (raise k s) := fun p => by
  rw [raise_port]
  unfold Port.raise
  split
  · exact ⟨rfl, fun n set => by simp [set]⟩
  · exact ⟨rfl, fun _ set => set⟩

theorem notified_logEntry (k : LogKind) (x : Subject) (d : Detail) (s : State) : Notified s (logEntry k x d s) :=
  notified_raise .logNew (s.withLog _)

/-- A notice raised in the course of an event is set at its end, the pin being high then (R194). -/
theorem Notified.bit {k : Notice} {s t : State} (h : Notified (raise k s) t) {p : PortId} (high : (t.port p).init = .high) :
    (t.port p).flags.getLsbD k.bit = true := by
  have start : (s.port p).init = .high := (notified_raise k s p).1.symm.trans ((h p).1.symm.trans high)
  exact (h p).2 _ (raised_bit k start)

theorem Notified.high {s t : State} (h : Notified s t) {p : PortId} (high : (s.port p).init = .high) :
    (t.port p).init = .high := (h p).1.trans high

/-! ### Run lines (R61) -/

theorem cue_dropLine_get (x : CUE) (e : CueEntry) (c : Nth) :
    (x.dropLine e).run.get c = if e.player = some c then (x.run.get c).drop else x.run.get c := by
  unfold CUE.dropLine
  cases h : e.player with
  | none => rw [if_neg nofun]
  | some d =>
    by_cases same : c = d
    · subst same
      rw [if_pos rfl]
      exact four_get_modify ..
    · rw [if_neg fun eq => same (Option.some.inj eq).symm]
      exact four_get_set_other _ _ _ _ same

theorem cue_raiseLine_get (x : CUE) (e : CueEntry) (now : Nat) (c : Nth) :
    (x.raiseLine e now).run.get c = if e.player = some c then (x.run.get c).rise now else x.run.get c := by
  unfold CUE.raiseLine
  cases h : e.player with
  | none => rw [if_neg nofun]
  | some d =>
    by_cases same : c = d
    · subst same
      rw [if_pos rfl]
      exact four_get_modify ..
    · rw [if_neg fun eq => same (Option.some.inj eq).symm]
      exact four_get_set_other _ _ _ _ same

theorem raiseLine_eq (x : CUE) (e : CueEntry) (now : Nat) : x.raiseLine e now = { x with run := (x.raiseLine e now).run } := by
  unfold CUE.raiseLine
  cases e.player <;> rfl

/-! ### An entry leaves (R55) -/

/-- CUE without an entry. -/
def CUE.without (x : CUE) (e : CueEntry) : CUE := { x with list := x.list.filter fun y => !decide (y.serial = e.serial) }

/-- An entry that has not started leaves without a notice. -/
theorem leave_waits {e : CueEntry} {s : State} (h : e.state = .waiting ∨ e.state = .cued) :
    leave e s = s.withCue (s.cue.without e) := by
  unfold leave CueEntry.onAir
  rcases h with h | h <;> (rw [h]; rfl)

/-- An entry on air leaves: its run line falls and ENTRY ENDED is raised. -/
theorem leave_onAir {e : CueEntry} {s : State} (h : e.state = .playing ∨ e.state = .fading) :
    leave e s = raise .entryEnded (s.withCue ((s.cue.without e).dropLine e)) := by
  unfold leave CueEntry.onAir
  rcases h with h | h <;> (rw [h]; rfl)

theorem leave_suspended {e : CueEntry} {s : State} (h : e.state = .suspended) :
    leave e s = raise .entryEnded (s.withCue (s.cue.without e)) := by
  unfold leave CueEntry.onAir
  rw [h]
  rfl

theorem leave_cuedLate {e : CueEntry} {s : State} (h : e.state = .cuedLate) :
    leave e s = clearLate e.serial (s.withCue (s.cue.without e)) := by
  unfold leave CueEntry.onAir
  rw [h]
  rfl

/-! ### The CUED entry (R56, R67) -/

/-- What of an entry the choice of the CUED one leaves. -/
theorem recue_identity (x : CUE) : x.recue.list.map CueEntry.identity = x.list.map CueEntry.identity := by
  unfold CUE.recue
  simp only [List.map_map]
  refine List.map_congr_left fun e _ => ?_
  show CueEntry.identity (if _ then _ else e) = _
  split <;> rfl

theorem recue_of_none_waits {x : CUE} (h : ∀ e ∈ x.list, e.waits = false) : x.recue = x := by
  have same : x.list.map (fun e => if e.waits then { e with
      state := if (x.list.find? CueEntry.cueable).map (·.serial) = some e.serial then .cued else .waiting } else e) = x.list :=
    (List.map_congr_left fun e mem => by rw [h e mem]; rfl).trans (List.map_id _)
  unfold CUE.recue
  exact congrArg (fun l => { x with list := l }) same

/-- The choice of the CUED entry passes no STOP over. -/
def CUE.Settles (x : CUE) (mode : Mode) : Prop :=
  ∀ e, x.recue.cued = some e → e.kind ≠ .stop ∨ mode ≠ .unattended ∨ x.cued.map (·.serial) = some e.serial

theorem recueLoop_settles {s : State} (n : Nat) (h : s.cue.Settles s.air.mode) :
    recueLoop (n + 1) s = (s.withCue s.cue.recue, false) := by
  unfold recueLoop
  dsimp only
  split
  · rename_i e cued
    refine if_neg fun ⟨stop, mode, other⟩ => ?_
    rcases h e cued with h | h | h
    · exact h stop
    · exact h mode
    · exact other h
  · rfl

theorem recue_settles {s : State} (h : s.cue.Settles s.air.mode) : recue s = s.withCue s.cue.recue :=
  congrArg Prod.fst (recueLoop_settles 64 h)

theorem settles_of_mode {x : CUE} {mode : Mode} (h : mode ≠ .unattended) : x.Settles mode := fun _ _ => .inr (.inl h)

theorem settles_of_no_stop {x : CUE} {mode : Mode} (h : ∀ e ∈ x.list, e.kind ≠ .stop) : x.Settles mode := by
  intro e cued
  have mem : e ∈ x.recue.list := List.mem_of_find?_eq_some cued
  obtain ⟨y, hy, rfl⟩ := List.mem_map.1 mem
  refine .inl ?_
  have kind : (if y.waits then { y with
      state := if (x.list.find? CueEntry.cueable).map (·.serial) = some y.serial then CueState.cued else .waiting } else y).kind = y.kind := by
    split <;> rfl
  exact fun stop => h y hy (kind.symm.trans stop)

theorem settles_of_none_waits {x : CUE} {mode : Mode} (h : ∀ e ∈ x.list, e.waits = false) : x.Settles mode := by
  intro e cued
  rw [recue_of_none_waits h] at cued
  have state : e.state = .cued := by simpa using List.find?_some cued
  have waits := h e (List.mem_of_find?_eq_some cued)
  rw [CueEntry.waits, state] at waits
  cases waits

/-- Nothing waits: the choice of the CUED entry changes nothing. -/
theorem recue_still {s : State} (h : ∀ e ∈ s.cue.list, e.waits = false) : recue s = s := by
  rw [recue_settles (settles_of_none_waits h), recue_of_none_waits h]
  rfl

theorem cued_of_none_waits {x : CUE} (h : ∀ e ∈ x.list, e.waits = false) : x.cued = none := by
  refine List.find?_eq_none.2 fun e mem => ?_
  have waits := h e mem
  unfold CueEntry.waits at waits
  simp only [decide_eq_false_iff_not, not_or] at waits
  simpa using waits.2

theorem passStops_of_no_cued {s : State} (h : s.cue.cued = none) : passStops s = s := by
  unfold passStops
  rw [h]

theorem passStops_of_mode {s : State} (h : s.air.mode ≠ .unattended) : passStops s = s := by
  unfold passStops
  split
  · exact if_neg fun k => h k.2
  · rfl

theorem passStops_of_kind {s : State} (h : ∀ e, s.cue.cued = some e → e.kind ≠ .stop) : passStops s = s := by
  unfold passStops
  split
  · rename_i e cued
    exact if_neg fun k => h e cued k.1
  · rfl

/-- A CUED STOP is passed over in UNATTENDED (R67). -/
theorem passStops_passes {s : State} {e : CueEntry} (cued : s.cue.cued = some e) (stop : e.kind = .stop)
    (mode : s.air.mode = .unattended) : passStops s = recue (leaveSkipped .stopPassed e s) := by
  unfold passStops
  rw [cued]
  exact if_pos ⟨stop, mode⟩

/-! ### Starts (R61, R62, R66, R71) -/

/-- CUE with an entry PLAYING. -/
def CUE.play (x : CUE) (e : CueEntry) (elapsed : Nat) (joinEnd : Option Nat) (now : Nat) : CUE :=
  { (x.modify e.serial fun y => { y with state := .playing, elapsed := elapsed, joinEnd := joinEnd, begun := now }).raiseLine e now with
    started := true }

theorem setPlaying_eq {n : Nat} {e : CueEntry} {s : State} (elapsed : Nat) (joinEnd : Option Nat) (h : s.cue.find n = some e) :
    setPlaying n elapsed joinEnd s = raise .entryStarted (s.withCue (s.cue.play e elapsed joinEnd s.boundaryNo)) := by
  have serial : e.serial = n := by simpa using List.find?_some h
  subst serial
  unfold setPlaying
  rw [h]
  rfl

theorem play_list (x : CUE) (e : CueEntry) (elapsed : Nat) (joinEnd : Option Nat) (now : Nat) :
    (x.play e elapsed joinEnd now).list = x.list.map fun y => if y.serial = e.serial then
      { y with state := .playing, elapsed := elapsed, joinEnd := joinEnd, begun := now } else y :=
  cue_raiseLine_list _ _ _

theorem play_get (x : CUE) (e : CueEntry) (elapsed : Nat) (joinEnd : Option Nat) (now : Nat) (c : Nth) :
    (x.play e elapsed joinEnd now).run.get c = if e.player = some c then (x.run.get c).rise now else x.run.get c :=
  cue_raiseLine_get _ _ _ _

theorem play_frame (x : CUE) (e : CueEntry) (elapsed : Nat) (joinEnd : Option Nat) (now : Nat) :
    { x.play e elapsed joinEnd now with list := x.list, run := x.run, started := x.started } = x := by
  unfold CUE.play
  rw [raiseLine_eq]
  rfl

/-- No idle start in LIVE (R66). -/
theorem considerIdle_live {s : State} (h : s.air.mode = .live) : considerIdle s = s := by
  unfold considerIdle
  rw [passStops_of_mode (by rw [h]; nofun)]
  refine if_neg fun k => ?_
  rw [h] at k
  cases k.1

/-- No idle start with nothing CUED (R66). -/
theorem considerIdle_of_no_cued {s : State} (h : s.cue.cued = none) : considerIdle s = s := by
  unfold considerIdle
  rw [passStops_of_no_cued h]
  dsimp only
  rw [h]
  exact ite_self _

/-- No idle start while an entry plays or the sequence is held (R66, R70). -/
theorem considerIdle_busy {s : State} (pass : passStops s = s) (busy : s.cue.playing ≠ none ∨ s.cue.held = true) :
    considerIdle s = s := by
  unfold considerIdle
  rw [pass]
  refine if_neg fun k => ?_
  obtain ⟨-, idle, free⟩ := k
  rcases busy with h | h
  · exact h (Option.isNone_iff_eq_none.1 idle)
  · rw [h] at free
    cases free

/-- A CUED entry that the sequence may not start stays CUED (R63, R66). -/
theorem considerIdle_unstartable {s : State} {e : CueEntry} (pass : passStops s = s) (cued : s.cue.cued = some e)
    (no : e.startable = false) : considerIdle s = s := by
  unfold considerIdle
  rw [pass]
  dsimp only
  rw [cued]
  dsimp only
  rw [no]
  exact ite_self _

/-- The idle start (R66). -/
theorem considerIdle_starts {s : State} {e : CueEntry} (pass : passStops s = s) (mode : s.air.mode ≠ .live)
    (idle : s.cue.playing = none) (free : s.cue.held = false) (cued : s.cue.cued = some e) (yes : e.startable = true) :
    considerIdle s = recue (startEntry e s) := by
  have auto : s.air.mode.automatic = true := by
    cases h : s.air.mode with
    | live => exact absurd h mode
    | _ => rfl
  unfold considerIdle
  rw [pass]
  dsimp only
  rw [if_pos ⟨auto, by rw [idle]; rfl, by rw [free]; rfl⟩, cued]
  exact if_pos yes

theorem settleList_eq {s : State} (h : s.cue.Settles s.air.mode) :
    settleList true s = considerIdle (s.withCue s.cue.recue) := by
  unfold settleList
  rw [recueLoop_settles 64 h]
  rfl

/-- The sequence is released with the stack empty and no chain on air (R73). -/
theorem considerRelease_eq {s : State} (chain : s.air.chain = .none) (idle : s.cue.cued = none) : considerRelease s =
    s.withCue { s.cue with held := if s.air.stack = [] then false else s.cue.held } := by
  unfold considerRelease
  cases stack : s.air.stack with
  | nil =>
    rw [if_pos ⟨rfl, chain⟩, if_pos rfl]
    exact considerIdle_of_no_cued idle
  | cons r rest =>
    rw [if_neg fun h => absurd h.1 nofun, if_neg nofun]
    rfl

/-! ### The end of an event -/

/-- The state an event closes with, whatever its owner has left (R78, R103): the low-water notice and the gate's report. -/
structure Closes (b a u : State) : Prop where
  frame : { u with cue := a.cue, due := a.due, pi := a.pi } = a
  cue : { u.cue with armed := a.cue.armed } =
    { a.cue with started := false, run := a.cue.run.map fun r => { r with fell := false } }
  due : u.due = if a.lsw.anyIn .air = b.lsw.anyIn .air ∧ a.lsw.liveCalls = b.lsw.liveCalls then a.due
    else a.due ++ [.gateReport (a.lsw.anyIn .air) a.lsw.liveCalls]
  notified : Notified a u

/-- An event in which no entry started, or with no alert READY, closes so (R142). -/
theorem closes_finish (b : State) {a : State} (quiet : a.cue.started = true → a.alc.readyHead = none) :
    Closes b a (finish b a) := by
  have air : when a.cue.started considerAir a = a := by
    cases st : a.cue.started with
    | false => rfl
    | true => exact considerAir_of_no_head (quiet st)
  have low : Notified a (lowWaterCheck b a) := by
    unfold lowWaterCheck
    dsimp only
    split
    · exact (notified_of_pi rfl).trans (notified_raise _ _)
    · split <;> exact notified_of_pi rfl
  obtain ⟨m, q, checked⟩ := lowWaterCheck_eq b a
  have fin : finish b a = clearMarks (gateCheck b (lowWaterCheck b a)) := by
    unfold finish
    rw [air]
  have gate : gateCheck b (lowWaterCheck b a) = (lowWaterCheck b a).withDue
      (if a.lsw.anyIn .air = b.lsw.anyIn .air ∧ a.lsw.liveCalls = b.lsw.liveCalls then a.due
        else a.due ++ [.gateReport (a.lsw.anyIn .air) a.lsw.liveCalls]) := by
    unfold gateCheck
    rw [checked]
    dsimp only [withPi_lsw, withCue_lsw]
    by_cases same : a.lsw.anyIn .air = b.lsw.anyIn .air ∧ a.lsw.liveCalls = b.lsw.liveCalls
    · rw [if_pos same]
      exact (if_pos same).trans rfl
    · rw [if_neg same]
      exact (if_neg same).trans rfl
  rw [fin, gate]
  refine ⟨?_, ?_, rfl, low.trans (notified_of_pi rfl)⟩
  · rw [checked]
    rfl
  · rw [checked]
    rfl

namespace Closes

variable {b a u : State}

theorem list (h : Closes b a u) : u.cue.list = a.cue.list := (congrArg CUE.list h.cue :)
theorem held (h : Closes b a u) : u.cue.held = a.cue.held := (congrArg CUE.held h.cue :)
theorem counter (h : Closes b a u) : u.cue.counter = a.cue.counter := (congrArg CUE.counter h.cue :)
theorem run (h : Closes b a u) : u.cue.run = a.cue.run.map fun r => { r with fell := false } := (congrArg CUE.run h.cue :)
theorem air (h : Closes b a u) : u.air = a.air := (congrArg State.air h.frame :)
theorem log (h : Closes b a u) : u.log = a.log := (congrArg State.log h.frame :)
theorem lsw (h : Closes b a u) : u.lsw = a.lsw := (congrArg State.lsw h.frame :)

theorem get (h : Closes b a u) (c : Nth) : u.cue.run.get c = { a.cue.run.get c with fell := false } := by
  rw [h.run]
  exact four_get_map ..

theorem high (h : Closes b a u) (c : Nth) : (u.cue.run.get c).high = (a.cue.run.get c).high := by rw [h.get]
theorem riseAfter (h : Closes b a u) (c : Nth) : (u.cue.run.get c).riseAfter = (a.cue.run.get c).riseAfter := by rw [h.get]

/-- With LSW as it stood no report of the gate is made. -/
theorem due_same (h : Closes b a u) (same : a.lsw = b.lsw) : u.due = a.due := by
  rw [h.due, if_pos ⟨by rw [same], by rw [same]⟩]

theorem frame_same (h : Closes b a u) (same : a.lsw = b.lsw) : { u with cue := a.cue, pi := a.pi } = a := by
  conv_rhs => rw [← h.frame]
  rw [h.due_same same]

/-- An event that left all but CUE and the ports as they stood closes with no more than that. -/
theorem frame_of (h : Closes b a u) {s : State} (same : a.lsw = b.lsw) (left : { a with cue := s.cue, pi := s.pi } = s) :
    { u with cue := s.cue, pi := s.pi } = s :=
  (congrArg (fun v : State => { v with cue := s.cue, pi := s.pi }) (h.frame_same same) :).trans left

end Closes

end Sys2Proof.Machine
end

section
/-! What a record gives back at its pop and what its withdrawal ends: the parked lines (R101, R102). -/

namespace Sys2Proof.Machine

open Sys2Proof

/-! ### Parked lines go to HOLD -/

theorem waits_waits (r : Line) (st : LineState) : (r.waits st).waits st = r.waits st := rfl

/-- The lines of a list go to HOLD, one after the other. -/
theorem foldl_holdParked_get (ls : List Nth) (s : State) (l : Nth) : (ls.foldl holdParked s).lsw.lines.get l =
    if l ∈ ls then (s.lsw.lines.get l).waits .hold else s.lsw.lines.get l := by
  induction ls generalizing s with
  | nil => rfl
  | cons m ls ih =>
    rw [List.foldl_cons, ih]
    have first : (holdParked s m).lsw.lines.get l =
        if l = m then (s.lsw.lines.get l).waits .hold else s.lsw.lines.get l := by
      by_cases same : l = m
      · subst same
        rw [if_pos rfl]
        exact modify_get ..
      · rw [if_neg same]
        exact modify_get_other _ _ same
    rw [first]
    by_cases same : l = m
    · subst same
      simp [waits_waits]
    · simp [same]

theorem foldl_holdParked_frame (ls : List Nth) (s : State) : { ls.foldl holdParked s with lsw := s.lsw, pi := s.pi } = s ∧
    { (ls.foldl holdParked s).lsw with lines := s.lsw.lines, slotA := s.lsw.slotA, slotB := s.lsw.slotB, queue := s.lsw.queue } =
      s.lsw ∧ Notified s (ls.foldl holdParked s) := by
  induction ls generalizing s with
  | nil => exact ⟨rfl, rfl, notified_of_pi rfl⟩
  | cons m ls ih =>
    obtain ⟨frame, lsw, notes⟩ := ih (holdParked s m)
    rw [List.foldl_cons]
    exact ⟨(congrArg (fun v : State => { v with lsw := s.lsw, pi := s.pi }) frame :),
      (congrArg (fun x : LSW => { x with lines := s.lsw.lines, slotA := s.lsw.slotA, slotB := s.lsw.slotB, queue := s.lsw.queue }) lsw :),
      ((notified_of_pi rfl).trans (notified_raise .lineChange (s.withLsw _))).trans notes⟩

/-- A line that went to HOLD has no slot and no place in the queue (R84, R85). -/
def LSW.Holds (x : LSW) (l : Nth) : Prop := x.slotA ≠ some l ∧ x.slotB ≠ some l ∧ l ∉ x.queue

theorem holds_holdParked (s : State) (l : Nth) : (holdParked s l).lsw.Holds l := by
  refine ⟨?_, ?_, ?_⟩
  · show (if s.lsw.slotA = some l then none else s.lsw.slotA) ≠ some l
    split
    · nofun
    · assumption
  · show (if s.lsw.slotB = some l then none else s.lsw.slotB) ≠ some l
    split
    · nofun
    · assumption
  · show l ∉ s.lsw.queue.filter fun m => !decide (m = l)
    simp

theorem holds_kept {s : State} {l : Nth} (m : Nth) (h : s.lsw.Holds l) : (holdParked s m).lsw.Holds l := by
  obtain ⟨a, b, q⟩ := h
  refine ⟨?_, ?_, fun mem => q (List.mem_filter.1 mem).1⟩
  · show (if s.lsw.slotA = some m then none else s.lsw.slotA) ≠ some l
    split
    · nofun
    · exact a
  · show (if s.lsw.slotB = some m then none else s.lsw.slotB) ≠ some l
    split
    · nofun
    · exact b

theorem foldl_holdParked_holds {ls : List Nth} {s : State} {l : Nth} (h : l ∈ ls ∨ s.lsw.Holds l) :
    (ls.foldl holdParked s).lsw.Holds l := by
  induction ls generalizing s with
  | nil => exact h.resolve_left nofun
  | cons m ls ih =>
    rw [List.foldl_cons]
    refine ih ?_
    rcases h with mem | held
    · rcases List.mem_cons.1 mem with rfl | mem
      · exact .inr (holds_holdParked s l)
      · exact .inl mem
    · exact .inr (holds_kept m held)

theorem foldl_holdParked_raises {ls : List Nth} {s t : State} (any : ls ≠ []) (h : Notified (ls.foldl holdParked s) t)
    {p : PortId} (high : (t.port p).init = .high) : (t.port p).flags.getLsbD 5 = true := by
  cases ls with
  | nil => exact absurd rfl any
  | cons m ls =>
    have first : Notified (raise .lineChange (s.withLsw ((s.lsw.release m).modify m (·.waits .hold)))) t :=
      (foldl_holdParked_frame ls (holdParked s m)).2.2.trans h
    exact first.bit high

/-- Parked lines that go to HOLD leave AIR as it is. -/
theorem foldl_holdParked_air {ls : List Nth} {s : State} (parked : ∀ l ∈ ls, s.line l ≠ .air) :
    (ls.foldl holdParked s).lsw.anyIn .air = s.lsw.anyIn .air := by
  refine anyIn_congr fun l => ?_
  rw [foldl_holdParked_get]
  by_cases mem : l ∈ ls
  · rw [if_pos mem]
    exact iff_of_false nofun (parked l mem)
  · rw [if_neg mem]

/-! ### Parked lines return to their slots -/

/-- What a slot holds. -/
def LSW.slot (x : LSW) : Slot → Option Nth
  | .a => x.slotA
  | .b => x.slotB

/-- A line as it comes back to AIR (R102). -/
def Line.returned (r : Line) : Line := { r with state := .air, waiting := none, onAir := some (r.onAir.getD (0, 0)) }

theorem toAir_slot (x : LSW) (l : Nth) (sl : Slot) : (x.toAir l sl).slot sl = some l := by cases sl <;> rfl

theorem toAir_slot_other {x : LSW} {l m : Nth} {sl sm : Slot} (slot : sm ≠ sl) (line : m ≠ l) (h : x.slot sm = some m) :
    (x.toAir l sl).slot sm = some m := by
  have kept : (x.release l).slot sm = some m := by
    cases sm
    · show (if x.slotA = some l then none else x.slotA) = some m
      rw [show x.slotA = some m from h, if_neg fun eq => line (Option.some.inj eq)]
    · show (if x.slotB = some l then none else x.slotB) = some m
      rw [show x.slotB = some m from h, if_neg fun eq => line (Option.some.inj eq)]
  cases sl <;> cases sm <;> first | exact absurd rfl slot | exact kept

/-- The lines of a list go to AIR, one after the other. -/
def airLines (ps : List (Nth × Slot)) (s : State) : State := ps.foldl (fun s p => linesChange (s.lsw.toAir p.1 p.2) s) s

theorem airLines_cons (p : Nth × Slot) (ps : List (Nth × Slot)) (s : State) :
    airLines (p :: ps) s = airLines ps (linesChange (s.lsw.toAir p.1 p.2) s) := rfl

theorem airLines_get (ps : List (Nth × Slot)) (s : State) (l : Nth) : (airLines ps s).lsw.lines.get l =
    if l ∈ ps.map (·.1) then (s.lsw.lines.get l).returned else s.lsw.lines.get l := by
  induction ps generalizing s with
  | nil => rfl
  | cons p ps ih =>
    rw [airLines_cons, ih]
    have first : (linesChange (s.lsw.toAir p.1 p.2) s).lsw.lines.get l =
        if l = p.1 then (s.lsw.lines.get l).returned else s.lsw.lines.get l := by
      by_cases same : l = p.1
      · rw [if_pos same, same]
        exact (modify_get ..).trans (by cases p.2 <;> rfl)
      · rw [if_neg same]
        exact (modify_get_other _ _ same).trans (by cases p.2 <;> rfl)
    rw [first]
    by_cases same : l = p.1
    · simp [same, Line.returned]
    · rw [if_neg same]
      exact if_congr (by simp only [List.map_cons, List.mem_cons, same, false_or]) rfl rfl

theorem airLines_slot_kept {ps : List (Nth × Slot)} {s : State} {m : Nth} {sm : Slot}
    (others : ∀ p ∈ ps, p.1 ≠ m ∧ p.2 ≠ sm) (h : s.lsw.slot sm = some m) : (airLines ps s).lsw.slot sm = some m := by
  induction ps generalizing s with
  | nil => exact h
  | cons p ps ih =>
    obtain ⟨line, slot⟩ := others p List.mem_cons_self
    rw [airLines_cons]
    exact ih (fun q mem => others q (List.mem_cons_of_mem _ mem)) (toAir_slot_other slot.symm line.symm h)

/-- Distinct lines of distinct slots are each in their own (R102). -/
theorem airLines_slot {ps : List (Nth × Slot)} (s : State) (lines : (ps.map (·.1)).Nodup) (slots : (ps.map (·.2)).Nodup)
    {p : Nth × Slot} (mem : p ∈ ps) : (airLines ps s).lsw.slot p.2 = some p.1 := by
  induction ps generalizing s with
  | nil => cases mem
  | cons q ps ih =>
    obtain ⟨line, lines⟩ := List.nodup_cons.1 lines
    obtain ⟨slot, slots⟩ := List.nodup_cons.1 slots
    rw [airLines_cons]
    rcases List.mem_cons.1 mem with rfl | mem
    · refine airLines_slot_kept (fun x hx => ⟨fun eq => line (List.mem_map.2 ⟨x, hx, eq⟩),
        fun eq => slot (List.mem_map.2 ⟨x, hx, eq⟩)⟩) (toAir_slot ..)
    · exact ih _ lines slots mem

theorem airLines_frame (ps : List (Nth × Slot)) (s : State) : { airLines ps s with lsw := s.lsw, pi := s.pi } = s ∧
    (airLines ps s).lsw.liveCalls = s.lsw.liveCalls ∧ Notified s (airLines ps s) := by
  induction ps generalizing s with
  | nil => exact ⟨rfl, rfl, notified_of_pi rfl⟩
  | cons p ps ih =>
    obtain ⟨frame, live, notes⟩ := ih (linesChange (s.lsw.toAir p.1 p.2) s)
    rw [airLines_cons]
    refine ⟨(congrArg (fun v : State => { v with lsw := s.lsw, pi := s.pi }) frame :), live.trans ?_,
      ((notified_of_pi rfl).trans (notified_raise .lineChange (s.withLsw _))).trans notes⟩
    show (s.lsw.toAir p.1 p.2).liveCalls = _
    cases p.2 <;> rfl

theorem airLines_raises {ps : List (Nth × Slot)} {s t : State} (any : ps ≠ []) (h : Notified (airLines ps s) t) {p : PortId}
    (high : (t.port p).init = .high) : (t.port p).flags.getLsbD 5 = true := by
  cases ps with
  | nil => exact absurd rfl any
  | cons q ps =>
    have first : Notified (raise .lineChange (s.withLsw (s.lsw.toAir q.1 q.2))) t :=
      (airLines_frame ps (linesChange (s.lsw.toAir q.1 q.2) s)).2.2.trans h
    exact first.bit high

/-- In BYPASS without live calls the parked lines go to HOLD (R102). -/
theorem foldl_returnLine_hold {ps : List (Nth × Slot)} {s : State} (bypass : s.dly.state = .run .bypass)
    (live : s.lsw.liveCalls = false) : ps.foldl returnLine s = (ps.map (·.1)).foldl holdParked s := by
  induction ps generalizing s with
  | nil => rfl
  | cons p ps ih =>
    have first : returnLine s p = holdParked s p.1 := if_pos ⟨bypass, by rw [live]; rfl⟩
    rw [List.foldl_cons, first]
    exact ih (s := holdParked s p.1) bypass live

/-- Otherwise they return to their slots. -/
theorem foldl_returnLine_air {ps : List (Nth × Slot)} {s : State} (h : s.dly.state ≠ .run .bypass ∨ s.lsw.liveCalls = true) :
    ps.foldl returnLine s = airLines ps s := by
  induction ps generalizing s with
  | nil => rfl
  | cons p ps ih =>
    have first : returnLine s p = linesChange (s.lsw.toAir p.1 p.2) s := by
      refine if_neg fun ⟨bypass, off⟩ => ?_
      rcases h with h | h
      · exact h bypass
      · rw [h] at off
        cases off
    rw [List.foldl_cons, first, airLines_cons]
    refine ih (h.imp id fun live => ?_)
    show (s.lsw.toAir p.1 p.2).liveCalls = true
    cases p.2 <;> exact live

theorem foldl_returnLine_frame (ps : List (Nth × Slot)) (s : State) : { ps.foldl returnLine s with lsw := s.lsw, pi := s.pi } = s ∧
    Notified s (ps.foldl returnLine s) := by
  by_cases h : s.dly.state = .run .bypass ∧ s.lsw.liveCalls = false
  · rw [foldl_returnLine_hold h.1 h.2]
    obtain ⟨frame, -, notes⟩ := foldl_holdParked_frame (ps.map (·.1)) s
    exact ⟨frame, notes⟩
  · rw [foldl_returnLine_air (by rw [not_and_or] at h; simpa using h)]
    obtain ⟨frame, -, notes⟩ := airLines_frame ps s
    exact ⟨frame, notes⟩

end Sys2Proof.Machine
end

section
/-! The entry a record gives back (R37, R39, R71, R72). -/

namespace Sys2Proof.Machine

open Sys2Proof

/-- A notice is raised in the course of an operation, and the ports are only notified. -/
def Raises (k : Notice) (s t : State) : Prop :=
  Notified s t ∧ ∀ u, Notified t u → ∀ p, (u.port p).init = .high → (u.port p).flags.getLsbD k.bit = true

theorem raises_raise (k : Notice) {s u : State} (h : Notified s u) : Raises k s (raise k u) :=
  ⟨h.trans (notified_raise k u), fun _ later _ high => later.bit high⟩

theorem Raises.then {k : Notice} {s t u : State} (h : Raises k s t) (later : Notified t u) : Raises k s u :=
  ⟨h.1.trans later, fun v after p high => h.2 v (later.trans after) p high⟩

/-- What a suspended entry's return leaves: it is CUE's operation, with the log and a report beside (R37, R39, R71, R72). -/
structure Restores (w z : State) (e : CueEntry) (left : List CueEntry) (bit : Notice) (logs : LOG → LOG) (more : List Due) :
    Prop where
  frame : { z with cue := w.cue, log := w.log, due := w.due, pi := w.pi } = w
  cue : { z.cue with list := w.cue.list, run := w.cue.run, started := w.cue.started } = w.cue
  list : z.cue.list = left
  cued : z.cue.cued = none
  run : ∀ ch, e.player = some ch → left ≠ [] → (z.cue.run.get ch).high = (w.cue.run.get ch).riseAfter.isNone
  log : z.log = logs w.log
  due : z.due = w.due ++ more
  raises : Raises bit w z

theorem find_singleton {x : CUE} {e : CueEntry} (list : x.list = [e]) : x.find e.serial = some e := by
  unfold CUE.find
  rw [list]
  simp

theorem without_singleton {x : CUE} {e : CueEntry} (list : x.list = [e]) : (x.without e).list = [] := by
  unfold CUE.without
  rw [list]
  simp

theorem play_singleton {x : CUE} {e : CueEntry} (list : x.list = [e]) (elapsed : Nat) (joinEnd : Option Nat) (now : Nat) :
    (x.play e elapsed joinEnd now).list = [{ e with state := .playing, elapsed := elapsed, joinEnd := joinEnd, begun := now }] := by
  rw [play_list, list]
  simp

/-- A suspended entry plays on, with the count it is given (R71, R72). -/
theorem restores_plays {w : State} {e : CueEntry} (list : w.cue.list = [e]) (fell : ∀ c, (w.cue.run.get c).fell = false)
    {k el : Nat} (eq : resumeEntry e.serial el w = setPlaying e.serial k e.joinEnd w) :
    Restores w (restoreEntry (some (e.serial, el)) w) e [{ e with state := .playing, elapsed := k, begun := w.boundaryNo }]
      .entryStarted id [] := by
  have plays := setPlaying_eq k e.joinEnd (find_singleton list)
  have stays : ((setPlaying e.serial k e.joinEnd w).cue.find e.serial).isNone = false := by
    rw [plays]
    show ((w.cue.play e k e.joinEnd w.boundaryNo).find e.serial).isNone = false
    unfold CUE.find
    rw [play_singleton list]
    simp
  have run : restoreEntry (some (e.serial, el)) w = raise .entryStarted (w.withCue (w.cue.play e k e.joinEnd w.boundaryNo)) := by
    unfold restoreEntry
    dsimp only
    rw [eq, stays, Bool.and_false, when_false, plays]
  rw [run]
  refine ⟨rfl, play_frame .., play_singleton list .., ?_, fun ch player _ => ?_, rfl, (List.append_nil _).symm,
    raises_raise .entryStarted (notified_of_pi rfl)⟩
  · show (w.cue.play e k e.joinEnd w.boundaryNo).cued = none
    unfold CUE.cued CUE.inState
    rw [play_singleton list]
    rfl
  · show ((w.cue.play e k e.joinEnd w.boundaryNo).run.get ch).high = _
    rw [play_get, if_pos player, RunLine.rise, fell ch]
    rfl

theorem restores_resume {w : State} {e : CueEntry} {ch : Nth} {len : Option Nat} {g : Segue} (el : Nat) (list : w.cue.list = [e])
    (kind : e.kind = .item ch len g .resume) (fell : ∀ c, (w.cue.run.get c).fell = false) :
    Restores w (restoreEntry (some (e.serial, el)) w) e [{ e with state := .playing, elapsed := el, begun := w.boundaryNo }]
      .entryStarted id [] := by
  refine restores_plays list fell ?_
  unfold resumeEntry
  rw [find_singleton list]
  dsimp only
  rw [kind]

theorem restores_restart {w : State} {e : CueEntry} {ch : Nth} {len : Option Nat} {g : Segue} (el : Nat) (list : w.cue.list = [e])
    (kind : e.kind = .item ch len g .restart) (fell : ∀ c, (w.cue.run.get c).fell = false) :
    Restores w (restoreEntry (some (e.serial, el)) w) e [{ e with state := .playing, elapsed := 0, begun := w.boundaryNo }]
      .entryStarted id [] := by
  refine restores_plays list fell ?_
  unfold resumeEntry
  rw [find_singleton list]
  dsimp only
  rw [kind]

theorem restores_rejoin {w : State} {e : CueEntry} {f : Feed} {len stop : Nat} (el : Nat) (list : w.cue.list = [e])
    (kind : e.kind = .join f len) (joinEnd : e.joinEnd = some stop) (fell : ∀ c, (w.cue.run.get c).fell = false)
    (left : 1 ≤ blocksFrom w.tb.clock stop) (within : blocksFrom w.tb.clock stop ≤ len) :
    Restores w (restoreEntry (some (e.serial, el)) w) e
      [{ e with state := .playing, elapsed := len - blocksFrom w.tb.clock stop, begun := w.boundaryNo }] .entryStarted id [] := by
  refine restores_plays list fell ?_
  unfold resumeEntry
  rw [find_singleton list]
  dsimp only
  rw [kind]
  dsimp only
  rw [joinEnd]
  exact if_pos ⟨left, within⟩

theorem leave_singleton_none_waits {w : State} {e : CueEntry} (list : w.cue.list = [e]) :
    ∀ y ∈ (w.cue.without e).list, y.waits = false := by
  rw [without_singleton list]
  nofun

/-- SKIP ends the entry (R71). -/
theorem restores_skip {w : State} {e : CueEntry} {ch : Nth} {len : Option Nat} {g : Segue} (el : Nat) (list : w.cue.list = [e])
    (state : e.state = .suspended) (kind : e.kind = .item ch len g .skip) :
    Restores w (restoreEntry (some (e.serial, el)) w) e [] .entryEnded
      (fun log => log.append (stamp w) .itemSkipped (.cue e.serial) (.skipped .policy)) [] := by
  have item : w.cue.isJoin e.serial = false := by
    unfold CUE.isJoin
    rw [find_singleton list]
    show e.feed.isSome = false
    unfold CueEntry.feed
    rw [kind]
    rfl
  have run : restoreEntry (some (e.serial, el)) w =
      logEntry .itemSkipped (.cue e.serial) (.skipped .policy) (raise .entryEnded (w.withCue (w.cue.without e))) := by
    have ended : resumeEntry e.serial el w =
        logEntry .itemSkipped (.cue e.serial) (.skipped .policy) (raise .entryEnded (w.withCue (w.cue.without e))) := by
      unfold resumeEntry
      rw [find_singleton list]
      dsimp only
      rw [kind]
      dsimp only
      unfold leaveSkipped
      rw [leave_suspended state]
      exact recue_still (leave_singleton_none_waits list)
    unfold restoreEntry
    dsimp only
    rw [item, Bool.false_and, when_false, ended]
  rw [run]
  refine ⟨rfl, rfl, without_singleton list, cued_of_none_waits (leave_singleton_none_waits list), fun _ _ any => absurd rfl any, rfl,
    (List.append_nil _).symm, (raises_raise (u := w.withCue (w.cue.without e)) .entryEnded (notified_of_pi rfl)).then (notified_logEntry _ _ _ _)⟩

/-- A JOIN whose join end has passed ends as DONE; for a BREAK-IN below that is a release of its own (R39, R72). -/
theorem restores_over {w : State} {e : CueEntry} {f : Feed} {len stop : Nat} (el : Nat) (list : w.cue.list = [e])
    (state : e.state = .suspended) (kind : e.kind = .join f len) (joinEnd : e.joinEnd = some stop)
    (past : blocksFrom w.tb.clock stop = 0 ∨ len < blocksFrom w.tb.clock stop) {more : List Due}
    (below : (more = [] ∧ ∀ x, w.air.stack.head? = some x → x.kind ≠ .breakIn) ∨
      ∃ x deeper, w.air.stack = x :: deeper ∧ x.kind = .breakIn ∧ more = [.joinEnd x.number e.serial]) :
    Restores w (restoreEntry (some (e.serial, el)) w) e [] .entryEnded id more := by
  have join : w.cue.isJoin e.serial = true := by
    unfold CUE.isJoin
    rw [find_singleton list]
    show e.feed.isSome = true
    unfold CueEntry.feed
    rw [kind]
    rfl
  have ended : resumeEntry e.serial el w = raise .entryEnded (w.withCue (w.cue.without e)) := by
    unfold resumeEntry
    rw [find_singleton list]
    dsimp only
    rw [kind]
    dsimp only
    rw [joinEnd, Option.getD_some, if_neg (by omega), leave_suspended state]
    exact recue_still (leave_singleton_none_waits list)
  have gone : ((raise .entryEnded (w.withCue (w.cue.without e))).cue.find e.serial).isNone = true := by
    show ((w.cue.without e).find e.serial).isNone = true
    unfold CUE.find
    rw [without_singleton list]
    rfl
  have run : restoreEntry (some (e.serial, el)) w = reportJoinEnd e.serial (raise .entryEnded (w.withCue (w.cue.without e))) := by
    unfold restoreEntry
    dsimp only
    rw [ended, gone, join]
    rfl
  have reports : reportJoinEnd e.serial (raise .entryEnded (w.withCue (w.cue.without e))) =
      (raise .entryEnded (w.withCue (w.cue.without e))).withDue (w.due ++ more) := by
    unfold reportJoinEnd
    rw [show (raise .entryEnded (w.withCue (w.cue.without e))).air = w.air from rfl]
    rcases below with ⟨rfl, other⟩ | ⟨x, deeper, stack, breakIn, rfl⟩
    · have still : (raise .entryEnded (w.withCue (w.cue.without e))).withDue (w.due ++ []) =
          raise .entryEnded (w.withCue (w.cue.without e)) := by
        rw [List.append_nil]
        rfl
      rw [still]
      cases stack : w.air.stack with
      | nil => rfl
      | cons x deeper => exact if_neg (other x (by rw [stack]; rfl))
    · rw [stack]
      exact if_pos breakIn
  rw [run, reports]
  exact ⟨rfl, rfl, without_singleton list, cued_of_none_waits (leave_singleton_none_waits list), fun _ _ any => absurd rfl any, rfl,
    rfl, (raises_raise .entryEnded (notified_of_pi rfl)).then (notified_of_pi rfl)⟩

end Sys2Proof.Machine
end

section
/-! The pop of a record and its withdrawal (R36, R37, R40, R41, R44). -/

namespace Sys2Proof.Machine

open Sys2Proof

/-! ### The pop (R37) -/

/-- The top record leaves the stack for the free list (R28). -/
theorem free_top {x : AIR} {r : ContextRecord} {rest : List ContextRecord} (stack : x.stack = r :: rest)
    (distinct : ∀ y ∈ rest, y.number ≠ r.number) : x.free_ r.number = { x with stack := rest, free := r.number :: x.free } := by
  have kept : (r :: rest).filter (fun y => !decide (y.number = r.number)) = rest := by
    rw [List.filter_cons_of_neg (by simp), List.filter_eq_self]
    intro y mem
    simp [distinct y mem]
  unfold AIR.free_
  rw [stack, kept]

/-- The state in which a popped record's entry comes back: the record has left the stack. -/
def unstacked (r : ContextRecord) (rest : List ContextRecord) (s : State) : State :=
  s.withAir { s.air with stack := rest, free := r.number :: s.air.free }

/-- The entry that ends a preemption is the log's alone. -/
theorem logPreemptionEnd_frame (k : RecordKind) (n : Nat) (s : State) :
    { logPreemptionEnd k n s with log := s.log, pi := s.pi } = s ∧ Notified s (logPreemptionEnd k n s) := by
  cases k
  · exact ⟨rfl, notified_of_pi rfl⟩
  · exact ⟨rfl, notified_logEntry _ _ _ _⟩
  · exact ⟨rfl, notified_logEntry _ _ _ _⟩

theorem logPreemptionEnd_log (k : RecordKind) (n : Nat) {s u : State} (tb : u.tb = s.tb) :
    (logPreemptionEnd k n u).log = (logPreemptionEnd k n (s.withLog u.log)).log := by
  have same : stamp u = stamp (s.withLog u.log) := by
    unfold stamp
    rw [tb]
    rfl
  cases k
  · rfl
  · exact congrArg (fun x => u.log.append x .joinEnd (.cue n) (.number 0)) same
  · exact congrArg (fun x => u.log.append x .liveInsertEnd .none (.number 0)) same

/-- What the pop of the top record leaves, the entry that comes back standing in `z` (R37, R73). -/
structure Pops (r : ContextRecord) (rest : List ContextRecord) (n : Nat) (v z a : State) : Prop where
  air : a.air = { v.air with stack := rest, free := r.number :: v.air.free }
  cue : { a.cue with held := z.cue.held } = z.cue
  held : a.cue.held = if rest = [] then false else z.cue.held
  log : a.log = (logPreemptionEnd r.kind n (v.withLog z.log)).log
  due : a.due = z.due
  lsw : a.lsw = (r.parked.foldl returnLine z).lsw
  notified : Notified (r.parked.foldl returnLine z) a
  frame : { a with air := v.air, cue := v.cue, lsw := v.lsw, due := v.due, log := v.log, pi := v.pi } = v

theorem popRecord_pops {r : ContextRecord} {rest : List ContextRecord} {v z : State} (n : Nat) (stack : v.air.stack = r :: rest)
    (distinct : ∀ x ∈ rest, x.number ≠ r.number) (chain : v.air.chain = .none)
    (restored : restoreEntry r.suspended (unstacked r rest v) = z)
    (frame : { z with cue := v.cue, log := v.log, due := v.due, pi := v.pi } = unstacked r rest v) (cued : z.cue.cued = none) :
    Pops r rest n v z (popRecord r n v) := by
  obtain ⟨lines, notes⟩ := foldl_returnLine_frame r.parked z
  obtain ⟨ends, logs⟩ := logPreemptionEnd_frame r.kind n (r.parked.foldl returnLine z)
  generalize hy : r.parked.foldl returnLine z = y at *
  generalize hx : logPreemptionEnd r.kind n y = x at *
  have air : x.air = { v.air with stack := rest, free := r.number :: v.air.free } :=
    (congrArg State.air ends :).trans ((congrArg State.air lines :).trans (congrArg State.air frame :))
  have cue : x.cue = z.cue := (congrArg State.cue ends :).trans (congrArg State.cue lines :)
  have run : popRecord r n v = x.withCue { x.cue with held := if rest = [] then false else x.cue.held } := by
    have released := considerRelease_eq (s := x) (by rw [air]; exact chain) (by rw [cue]; exact cued)
    rw [air] at released
    unfold popRecord
    rw [free_top stack distinct, show restoreEntry r.suspended (v.withAir _) = z from restored]
    dsimp only
    rw [hy, hx, released]
  rw [run]
  refine ⟨air, ?_, ?_, ?_, ?_, ?_, ?_, ?_⟩
  · rw [withCue_cue, cue]
  · rw [withCue_cue, cue]
  · have tb : y.tb = v.tb := (congrArg State.tb lines :).trans (congrArg State.tb frame :)
    have log : y.log = z.log := (congrArg State.log lines :)
    rw [withCue_log, ← hx, logPreemptionEnd_log r.kind n tb, log]
  · exact (congrArg State.due ends :).trans (congrArg State.due lines :)
  · rw [hy]
    exact (congrArg State.lsw ends :)
  · rw [hy]
    exact logs.trans (notified_of_pi rfl)
  · exact (congrArg (fun u : State => { u with
        air := v.air, cue := v.cue, lsw := v.lsw, due := v.due, log := v.log, pi := v.pi }) ends :).trans
      ((congrArg (fun u : State => { u with
        air := v.air, cue := v.cue, lsw := v.lsw, due := v.due, log := v.log, pi := v.pi }) lines :).trans
      (congrArg (fun u : State => { u with
        air := v.air, cue := v.cue, lsw := v.lsw, due := v.due, log := v.log, pi := v.pi }) frame :))

theorem restoreEntry_none (s : State) : restoreEntry none s = s := rfl

/-- An event that pops a record: what it does before is `v`, what it leaves when it closes is `u`. -/
structure PopEvent (r : ContextRecord) (rest : List ContextRecord) (n : Nat) (b v : State) : Prop where
  stack : v.air.stack = r :: rest
  distinct : ∀ x ∈ rest, x.number ≠ r.number
  chain : v.air.chain = .none
  lsw : b.lsw = v.lsw
  fell : ∀ c, (v.cue.run.get c).fell = false

/-- What such an event leaves. -/
structure Popped (r : ContextRecord) (rest : List ContextRecord) (n : Nat) (v z u : State) : Prop where
  air : u.air = { v.air with stack := rest, free := r.number :: v.air.free }
  list : u.cue.list = z.cue.list
  held : u.cue.held = if rest = [] then false else z.cue.held
  high : ∀ c, (u.cue.run.get c).high = (z.cue.run.get c).high
  riseAfter : ∀ c, (u.cue.run.get c).riseAfter = (z.cue.run.get c).riseAfter
  log : u.log = (logPreemptionEnd r.kind n (v.withLog z.log)).log
  due : u.due = if (r.parked.foldl returnLine z).lsw.anyIn .air = v.lsw.anyIn .air ∧
      (r.parked.foldl returnLine z).lsw.liveCalls = v.lsw.liveCalls then z.due
    else z.due ++ [.gateReport ((r.parked.foldl returnLine z).lsw.anyIn .air) (r.parked.foldl returnLine z).lsw.liveCalls]
  lsw : u.lsw = (r.parked.foldl returnLine z).lsw
  notified : Notified (r.parked.foldl returnLine z) u
  frame : { u with air := v.air, cue := v.cue, lsw := v.lsw, due := v.due, log := v.log, pi := v.pi } = v

theorem PopEvent.closes {r : ContextRecord} {rest : List ContextRecord} {n : Nat} {b v z : State} (h : PopEvent r rest n b v)
    (restored : restoreEntry r.suspended (unstacked r rest v) = z)
    (frame : { z with cue := v.cue, log := v.log, due := v.due, pi := v.pi } = unstacked r rest v) (cued : z.cue.cued = none)
    (quiet : z.cue.started = true → v.alc.readyHead = none) : Popped r rest n v z (finish b (popRecord r n v)) := by
  have pops := popRecord_pops n h.stack h.distinct h.chain restored frame cued
  generalize popRecord r n v = a at pops
  have alc : a.alc = v.alc := (congrArg State.alc pops.frame :)
  have closes := closes_finish b (a := a) fun st => by
    rw [alc]
    exact quiet ((show a.cue.started = z.cue.started from (congrArg CUE.started pops.cue :)) ▸ st)
  generalize finish b a = u at closes
  refine ⟨closes.air.trans pops.air, closes.list.trans (congrArg CUE.list pops.cue :), closes.held.trans pops.held, fun c => ?_,
    fun c => ?_, closes.log.trans pops.log, ?_, closes.lsw.trans pops.lsw, pops.notified.trans closes.notified, ?_⟩
  · rw [closes.high]
    exact (congrArg (fun x : CUE => (x.run.get c).high) pops.cue :)
  · rw [closes.riseAfter]
    exact (congrArg (fun x : CUE => (x.run.get c).riseAfter) pops.cue :)
  · rw [closes.due, h.lsw, pops.lsw, pops.due]
  · exact (congrArg (fun w : State => { w with
      air := v.air, cue := v.cue, lsw := v.lsw, due := v.due, log := v.log, pi := v.pi }) closes.frame :).trans pops.frame

/-- With no line parked LSW stands. -/
theorem Popped.lsw_same {r : ContextRecord} {rest : List ContextRecord} {n : Nat} {v z u : State} (h : Popped r rest n v z u)
    (parked : r.parked = []) (lsw : z.lsw = v.lsw) : u.lsw = v.lsw ∧ u.due = z.due := by
  have due := h.due
  rw [parked] at due
  refine ⟨by rw [h.lsw, parked]; exact lsw, due.trans (if_pos ?_)⟩
  rw [List.foldl_nil, lsw]
  exact ⟨rfl, rfl⟩

/-- The record gives nothing back: no entry, no caller. -/
theorem PopEvent.bare {r : ContextRecord} {rest : List ContextRecord} {n : Nat} {b v : State} (h : PopEvent r rest n b v)
    (suspended : r.suspended = none) (cued : v.cue.cued = none) (started : v.cue.started = false) :
    Popped r rest n v (unstacked r rest v) (finish b (popRecord r n v)) :=
  h.closes (by rw [suspended]; rfl) rfl cued fun st => by
    rw [show (unstacked r rest v).cue.started = false from started] at st
    cases st

/-- An event that pops a record gives back what the record saved, whatever the rest of its outcome (R37, R71 to R73, R102). -/
theorem PopEvent.givesBack {r : ContextRecord} {rest : List ContextRecord} {n : Nat} {b v s : State} (h : PopEvent r rest n b v)
    {list : List CueEntry} {bypass : Prop} {before after : LOG → LOG} {due : List Due} {leaves : State → Prop}
    (list_ : v.cue.list = list) (held : v.cue.held = s.cue.held)
    (rise : ∀ c, (v.cue.run.get c).riseAfter = (s.cue.run.get c).riseAfter) (lsw : v.lsw = s.lsw) (tb : v.tb = s.tb)
    (no : v.boundaryNo = s.boundaryNo) (log : v.log = before s.log)
    (ends : ∀ l, (logPreemptionEnd r.kind n (v.withLog l)).log = after l) (due_ : v.due = due)
    (delay : v.dly.state = .run .bypass ↔ bypass) (ready : v.alc.readyHead = none)
    (leaves_ : (finish b (popRecord r n v)).air = { v.air with stack := rest, free := r.number :: v.air.free } →
      { finish b (popRecord r n v) with air := v.air, cue := v.cue, lsw := v.lsw, due := v.due, log := v.log, pi := v.pi } = v →
      Notified v (finish b (popRecord r n v)) → leaves (finish b (popRecord r n v))) :
    GivesBack r rest list bypass before after due s leaves := by
  have stamps : stamp (unstacked r rest v) = stamp s := by
    unfold stamp
    rw [← tb]
    rfl
  unfold GivesBack
  intro back again
  have again_ (e : CueEntry) (k : Nat) : again e k = { e with state := .playing, elapsed := k, begun := v.boundaryNo } := by rw [no]
  have restored {e : CueEntry} {el : Nat} {left : List CueEntry} {bit : Notice} {logs : LOG → LOG} {more : List Due}
      (suspended : r.suspended = some (e.serial, el))
      (z : Restores (unstacked r rest v) (restoreEntry (some (e.serial, el)) (unstacked r rest v)) e left bit logs more) :
      Popped r rest n v (restoreEntry (some (e.serial, el)) (unstacked r rest v)) (finish b (popRecord r n v)) :=
    h.closes (by rw [suspended]) z.frame z.cued fun _ => ready
  have fell : ∀ c, ((unstacked r rest v).cue.run.get c).fell = false := h.fell
  refine ⟨fun e el suspended parked single state => ?_, fun x any lines slots parked none_ which => ?_⟩
  · intro entry
    have list' : (unstacked r rest v).cue.list = [e] := list_.trans single
    have comes {left : List CueEntry} {bit : Notice} {logs : LOG → LOG} {more : List Due}
        (z : Restores (unstacked r rest v) (restoreEntry (some (e.serial, el)) (unstacked r rest v)) e left bit logs more) :
        entry left bit.bit logs more := by
      have popped := restored suspended z
      obtain ⟨lswSame, dueSame⟩ := popped.lsw_same parked (congrArg State.lsw z.frame :)
      have whole : Notified v (finish b (popRecord r n v)) :=
        (z.raises.1.trans (foldl_returnLine_frame r.parked _).2).trans popped.notified
      refine ⟨_, ⟨leaves_ popped.air popped.frame whole, popped.list.trans z.list, ?_, ?_, ?_, fun p high => ?_⟩, lswSame.trans lsw,
        fun ch player some_ => ?_⟩
      · rw [popped.log, ends, z.log]
        exact congrArg (fun l => after (logs l)) log
      · rw [dueSame, z.due]
        exact congrArg (· ++ more) due_
      · rw [popped.held, (congrArg CUE.held z.cue : _ = _)]
        exact congrArg (fun h => if rest = [] then false else h) held
      · have notes := popped.notified
        rw [parked] at notes
        exact z.raises.2 _ notes p high
      · rw [popped.high, z.run ch player some_]
        exact congrArg Option.isNone (rise ch)
    refine ⟨fun ch len g kind => ?_, fun ch len g kind => ?_, fun ch len g kind => ?_, fun f len stop kind joinEnd => ?_⟩
    · rw [again_]
      exact comes (restores_resume el list' kind fell)
    · rw [again_]
      exact comes (restores_restart el list' kind fell)
    · have z := restores_skip el list' state kind
      rw [stamps] at z
      exact comes z
    · intro left
      have left_ : left = blocksFrom (unstacked r rest v).tb.clock stop := by
        show _ = blocksFrom v.tb.clock stop
        rw [tb]
        rfl
      refine ⟨fun one within => ?_, fun past => ⟨fun other => ?_, fun below deeper stack breakIn => ?_⟩⟩
      · rw [again_, left_]
        rw [left_] at one within
        exact comes (restores_rejoin el list' kind joinEnd fell one within)
      · rw [left_] at past
        exact comes (restores_over el list' state kind joinEnd past (.inl ⟨rfl, other⟩))
      · rw [left_] at past
        exact comes (restores_over el list' state kind joinEnd past (.inr ⟨below, deeper, stack, breakIn, rfl⟩))
  · intro returned
    obtain ⟨z, rs, frame, zlist, zcued, zheld, zlog, zdue, znotes⟩ : ∃ z, restoreEntry r.suspended (unstacked r rest v) = z ∧
        { z with cue := v.cue, log := v.log, due := v.due, pi := v.pi } = unstacked r rest v ∧ z.cue.list = x ∧
        z.cue.cued = none ∧ z.cue.held = v.cue.held ∧ z.log = v.log ∧ z.due = v.due ∧ Notified v z := by
      rcases which with ⟨suspended, empty, rfl⟩ | ⟨e, el, ch, len, g, suspended, single, state, kind, rfl⟩
      · have none' : v.cue.list = [] := list_.trans empty
        refine ⟨unstacked r rest v, by rw [suspended]; rfl, rfl, none', ?_, rfl, rfl, rfl, notified_of_pi rfl⟩
        exact cued_of_none_waits (x := v.cue) (by rw [none']; nofun)
      · have z := restores_resume el (show (unstacked r rest v).cue.list = [e] from list_.trans single) kind fell
        refine ⟨_, by rw [suspended], z.frame, by rw [again_]; exact z.list, z.cued, (congrArg CUE.held z.cue :), z.log, ?_, z.raises.1⟩
        exact z.due.trans (List.append_nil _)
    have popped := h.closes rs frame zcued fun _ => ready
    have zlsw : z.lsw = s.lsw := ((congrArg State.lsw frame :) : z.lsw = v.lsw).trans lsw
    have zdly : z.dly = v.dly := (congrArg State.dly frame :)
    have backs {more : List Due} (moreDue : (finish b (popRecord r n v)).due = v.due ++ more)
        (bit : ∀ p, ((finish b (popRecord r n v)).port p).init = .high →
          ((finish b (popRecord r n v)).port p).flags.getLsbD 5 = true) :
        back x 5 id more (finish b (popRecord r n v)) := by
      have whole : Notified v (finish b (popRecord r n v)) :=
        (znotes.trans (foldl_returnLine_frame r.parked z).2).trans popped.notified
      refine ⟨leaves_ popped.air popped.frame whole, popped.list.trans zlist, ?_, by rw [moreDue, due_], ?_, bit⟩
      · rw [popped.log, ends, zlog, log]
        rfl
      · rw [popped.held, zheld, held]
    refine ⟨fun stays live => ?_, fun goes => ?_⟩
    · have lines_ := foldl_returnLine_hold (ps := r.parked) (s := z) (by rw [zdly]; exact delay.2 stays) (by rw [zlsw]; exact live)
      have any' : r.parked.map (·.1) ≠ [] := by simpa using any
      have onLine : ∀ l ∈ r.parked.map (·.1), z.line l ≠ .air := fun l mem => by
        obtain ⟨p, inside, rfl⟩ := List.mem_map.1 mem
        have here : z.line p.1 = .parked := by
          unfold State.line
          rw [zlsw]
          exact parked p inside
        rw [here]
        nofun
      obtain ⟨-, rest_, -⟩ := foldl_holdParked_frame (r.parked.map (·.1)) z
      have due' := popped.due
      have notes := popped.notified
      have lswEq := popped.lsw
      rw [lines_] at due' notes lswEq
      rw [foldl_holdParked_air onLine, if_pos ⟨by rw [zlsw, lsw], by rw [(congrArg LSW.liveCalls rest_ :), zlsw, lsw]⟩, zdue] at due'
      refine ⟨_, ⟨backs (due'.trans (List.append_nil _).symm) fun p high => foldl_holdParked_raises any' notes high,
        fun p mem => ?_, fun l out => ?_⟩, fun p mem => ?_⟩
      · rw [lswEq, foldl_holdParked_get, if_pos (List.mem_map_of_mem mem), zlsw]
        rfl
      · rw [lswEq, foldl_holdParked_get, if_neg out, zlsw]
      · rw [lswEq]
        exact foldl_holdParked_holds (.inl (List.mem_map_of_mem mem))
    · have lines_ := foldl_returnLine_air (ps := r.parked) (s := z) (by
        rw [zdly, zlsw]
        exact goes.imp (fun no bypass => no (delay.1 bypass)) id)
      obtain ⟨-, live, -⟩ := airLines_frame r.parked z
      obtain ⟨p0, mem0⟩ := List.exists_mem_of_ne_nil _ any
      have onAir : (airLines r.parked z).lsw.anyIn .air = true :=
        anyIn_of_get p0.1 (by rw [airLines_get, if_pos (List.mem_map_of_mem mem0)]; rfl)
      have due' := popped.due
      have notes := popped.notified
      have lswEq := popped.lsw
      rw [lines_] at due' notes lswEq
      rw [onAir, live, zlsw, lsw, none_, if_neg (by simp), zdue] at due'
      refine ⟨_, ⟨backs due' fun p high => airLines_raises any notes high, fun p mem => ?_, fun l out => ?_⟩, fun p mem => ?_⟩
      · rw [lswEq, airLines_get, if_pos (List.mem_map_of_mem mem), zlsw]
        rfl
      · rw [lswEq, airLines_get, if_neg out, zlsw]
      · have slot := airLines_slot z lines slots mem
        rw [← lswEq] at slot
        exact ⟨fun a => by rw [a] at slot; exact slot, fun a => by rw [a] at slot; exact slot⟩

end Sys2Proof.Machine
end

section
/-! The withdrawal of the top record while a chain without a record holds the air (R36, R41, R44). -/

namespace Sys2Proof.Machine

open Sys2Proof

/-- The suspended entry of a record that is withdrawn leaves, nothing else standing in the list (R36, R44). -/
structure Lost (w z : State) (log : LOG → LOG) (more : List Due) : Prop where
  frame : { z with cue := w.cue, log := w.log, due := w.due, pi := w.pi } = w
  cue : { z.cue with list := w.cue.list } = w.cue
  list : z.cue.list = []
  logged : z.log = log w.log
  due : z.due = w.due ++ more
  notified : Notified w z

theorem endSuspended_none {w : State} (list : w.cue.list = []) : Lost w (endSuspended none w) id [] :=
  ⟨rfl, rfl, list, rfl, (List.append_nil _).symm, notified_of_pi rfl⟩

theorem endSuspended_some {w : State} {e : CueEntry} (el : Nat) (list : w.cue.list = [e]) (state : e.state = .suspended)
    {more : List Due}
    (below : (more = [] ∧ (e.feed = none ∨ ∀ x, w.air.stack.head? = some x → x.kind ≠ .breakIn)) ∨
      ∃ f x deeper, e.feed = some f ∧ w.air.stack = x :: deeper ∧ x.kind = .breakIn ∧ more = [.withdrawal x.number e.serial]) :
    Lost w (endSuspended (some (e.serial, el)) w)
      (fun log => log.append (stamp w) .itemSkipped (.cue e.serial) (.skipped .noContext)) more ∧
    Raises .entryEnded w (endSuspended (some (e.serial, el)) w) := by
  generalize hz : logEntry .itemSkipped (.cue e.serial) (.skipped .noContext) (raise .entryEnded (w.withCue (w.cue.without e))) = z
  have left : recue (leaveSkipped .noContext e w) = z := by
    unfold leaveSkipped
    rw [leave_suspended state, hz]
    refine recue_still ?_
    rw [← hz]
    exact leave_singleton_none_waits list
  have run : endSuspended (some (e.serial, el)) w = z.withDue (w.due ++ more) := by
    have found : ((some (e.serial, el)).bind fun p : Nat × Nat => w.cue.find p.1) = some e := find_singleton list
    unfold endSuspended
    rw [found]
    dsimp only
    rw [left, show z.air = w.air by rw [← hz]; rfl]
    have still : z.withDue (w.due ++ []) = z := by
      rw [List.append_nil, ← hz]
      rfl
    rcases below with ⟨rfl, other⟩ | ⟨f, x, deeper, feed, stack, breakIn, rfl⟩
    · rw [still]
      cases feed : e.feed with
      | none => rfl
      | some f =>
        cases stack : w.air.stack with
        | nil => rfl
        | cons x deeper =>
          refine if_neg ?_
          rcases other with other | other
          · rw [feed] at other
            cases other
          · exact other x (by rw [stack]; rfl)
    · rw [feed, stack]
      refine (if_pos breakIn).trans ?_
      rw [← hz]
      rfl
  have raises : Raises .entryEnded w z := by
    rw [← hz]
    exact (raises_raise (u := w.withCue (w.cue.without e)) .entryEnded (notified_of_pi rfl)).then (notified_logEntry _ _ _ _)
  rw [run]
  refine ⟨⟨?_, ?_, ?_, ?_, rfl, raises.1.trans (notified_of_pi rfl)⟩, raises.then (notified_of_pi rfl)⟩
  · rw [← hz]
    rfl
  · rw [← hz]
    rfl
  · rw [← hz]
    exact without_singleton list
  · rw [← hz]
    rfl

/-- An event that withdraws the top record ends what the record saved (R36, R41, R44). -/
theorem withdraws_of_event {r : ContextRecord} {rest : List ContextRecord} {n : Nat} {b v s : State} {ended : LOG → LOG}
    {due : List Due} {leaves : State → Prop} (stack : v.air.stack = r :: rest) (distinct : ∀ x ∈ rest, x.number ≠ r.number)
    (frame : { v with cue := s.cue, due := s.due, pi := s.pi } = s) (list_ : v.cue.list = s.cue.list) (held : v.cue.held = s.cue.held)
    (started : v.cue.started = false) (lsw : b.lsw = s.lsw) (due_ : v.due = due)
    (ends : ∀ l, (logPreemptionEnd r.kind n (v.withLog l)).log = ended l)
    (leaves_ : leaves (finish b (withdrawTop r n v))) : Withdraws r rest ended due s leaves := by
  have vlsw : v.lsw = s.lsw := (congrArg State.lsw frame :)
  have vair : v.air = s.air := (congrArg State.air frame :)
  have vlog : v.log = s.log := (congrArg State.log frame :)
  have vtb : v.tb = s.tb := (congrArg State.tb frame :)
  have stamps : stamp (unstacked r rest v) = stamp s := by
    unfold stamp
    rw [← vtb]
    rfl
  unfold Withdraws
  intro withdrawn parked
  have closes {z : State} {log : LOG → LOG} {more : List Due} (hz : endSuspended r.suspended (unstacked r rest v) = z)
      (lost : Lost (unstacked r rest v) z log more) : withdrawn (log s.log) more (finish b (withdrawTop r n v)) ∧
      Notified z (finish b (withdrawTop r n v)) := by
    generalize hls : r.parked.map (·.1) = ls
    obtain ⟨lines, rest_, notes⟩ := foldl_holdParked_frame ls z
    have zlsw : z.lsw = s.lsw := ((congrArg State.lsw lost.frame :) : z.lsw = v.lsw).trans vlsw
    have lineGet := foldl_holdParked_get ls z
    have holds {l : Nth} (mem : l ∈ ls) : (ls.foldl holdParked z).lsw.Holds l := foldl_holdParked_holds (.inl mem)
    have bits {t : State} (any : ls ≠ []) (h : Notified (ls.foldl holdParked z) t) {p : PortId} (high : (t.port p).init = .high) :=
      foldl_holdParked_raises any h high
    have air_ : (ls.foldl holdParked z).lsw.anyIn .air = z.lsw.anyIn .air := foldl_holdParked_air fun l mem => by
      rw [← hls] at mem
      obtain ⟨p, inside, rfl⟩ := List.mem_map.1 mem
      have here : z.line p.1 = .parked := by
        unfold State.line
        rw [zlsw]
        exact parked p inside
      rw [here]
      nofun
    generalize hy : ls.foldl holdParked z = y at *
    obtain ⟨logged, logs⟩ := logPreemptionEnd_frame r.kind n y
    have run : withdrawTop r n v = logPreemptionEnd r.kind n y := by
      unfold withdrawTop
      rw [free_top stack distinct, show endSuspended r.suspended (v.withAir _) = z from hz, hls]
      dsimp only
      rw [hy]
    have logEq : (logPreemptionEnd r.kind n y).log = ended (log s.log) := by
      have tb : y.tb = v.tb := (congrArg State.tb lines :).trans (congrArg State.tb lost.frame :)
      rw [logPreemptionEnd_log r.kind n tb, ends, show y.log = z.log from (congrArg State.log lines :), lost.logged]
      exact congrArg (fun l => ended (log l)) vlog
    rw [run]
    generalize logPreemptionEnd r.kind n y = x at logged logs logEq run
    have xcue : x.cue = z.cue := (congrArg State.cue logged :).trans (congrArg State.cue lines :)
    have closed := closes_finish b (a := x) fun st => by
      rw [xcue, show z.cue.started = v.cue.started from (congrArg CUE.started lost.cue :), started] at st
      cases st
    have xlsw : x.lsw = y.lsw := (congrArg State.lsw logged :)
    have left := leaves_
    rw [run] at left
    generalize finish b x = u at closed left
    refine ⟨⟨left, ?_, ?_, ?_, ?_, ?_, ?_, fun l mem => ?_, fun l out => ?_, fun any p high => ?_, ?_⟩, ?_⟩
    · rw [closed.air, ← vair]
      exact (congrArg State.air logged :).trans ((congrArg State.air lines :).trans (congrArg State.air lost.frame :))
    · rw [closed.list, xcue, lost.list]
    · rw [closed.held, xcue, ← held]
      exact (congrArg CUE.held lost.cue :)
    · rw [closed.log, logEq]
    · have stays : y.lsw.liveCalls = z.lsw.liveCalls := (congrArg LSW.liveCalls rest_ :)
      rw [closed.due, xlsw, air_, stays, zlsw, lsw, if_pos ⟨rfl, rfl⟩]
      refine (congrArg State.due logged :).trans ((congrArg State.due lines :).trans (lost.due.trans ?_))
      exact congrArg (· ++ more) due_
    · rw [closed.lsw, xlsw, ← zlsw]
      exact rest_
    · have mem' : l ∈ ls := by rw [← hls]; exact mem
      rw [closed.lsw, xlsw]
      refine ⟨?_, holds mem'⟩
      rw [lineGet, if_pos mem', zlsw]
      rfl
    · rw [closed.lsw, xlsw, lineGet, if_neg (by rw [← hls]; exact out), zlsw]
    · exact bits (by rw [← hls]; simpa using any) (logs.trans closed.notified) high
    · refine Eq.trans ?_ frame
      refine (congrArg (fun w : State => { w with
        air := s.air, cue := s.cue, lsw := s.lsw, due := s.due, log := s.log, pi := s.pi }) closed.frame :).trans ?_
      refine (congrArg (fun w : State => { w with
        air := s.air, cue := s.cue, lsw := s.lsw, due := s.due, log := s.log, pi := s.pi }) logged :).trans ?_
      refine (congrArg (fun w : State => { w with
        air := s.air, cue := s.cue, lsw := s.lsw, due := s.due, log := s.log, pi := s.pi }) lines :).trans ?_
      refine (congrArg (fun w : State => { w with
        air := s.air, cue := s.cue, lsw := s.lsw, due := s.due, log := s.log, pi := s.pi }) lost.frame :).trans ?_
      rw [← vair, ← vlsw, ← vlog]
      rfl
    · exact notes.trans (logs.trans closed.notified)
  refine ⟨fun suspended empty => ?_, fun e el suspended single state => ?_⟩
  · exact ⟨_, (closes rfl (by rw [suspended]; exact endSuspended_none (list_.trans empty))).1⟩
  · intro log skipped
    have list' : (unstacked r rest v).cue.list = [e] := list_.trans single
    have lose {more : List Due}
        (below : (more = [] ∧ (e.feed = none ∨ ∀ x, rest.head? = some x → x.kind ≠ .breakIn)) ∨
          ∃ f x deeper, e.feed = some f ∧ rest = x :: deeper ∧ x.kind = .breakIn ∧ more = [.withdrawal x.number e.serial]) :
        skipped more := by
      obtain ⟨lost, raises⟩ := endSuspended_some (w := unstacked r rest v) el list' state below
      rw [stamps] at lost
      obtain ⟨done, notes⟩ := closes (by rw [suspended]) lost
      exact ⟨_, done, fun p high => raises.2 _ notes p high⟩
    exact ⟨fun other => lose (.inl ⟨rfl, other⟩), fun f below deeper feed stack breakIn =>
      lose (.inr ⟨f, below, deeper, feed, stack, breakIn, rfl⟩)⟩

/-! ### A record ends (R36, R40, R41, R44) -/

theorem endRecord_top {r : ContextRecord} {rest : List ContextRecord} {v : State} (n : Nat) (stack : v.air.stack = r :: rest) :
    endRecord r.number n v = if v.air.chain = .withoutContext then withdrawTop r n v else popRecord r n v := by
  have found : (r :: rest).find? (fun x => decide (x.number = r.number)) = some r := List.find?_cons_of_pos (by simp)
  unfold endRecord
  rw [stack, found]
  dsimp only
  rw [if_neg (by simp)]

theorem insertRecord_top {x : AIR} {r : ContextRecord} {rest : List ContextRecord} (stack : x.stack = r :: rest)
    (kind : r.kind = .liveInsert) : x.insertRecord = some r := by
  unfold AIR.insertRecord
  rw [stack]
  exact List.find?_cons_of_pos (by simp [kind])

theorem endLiveInsert_top {r : ContextRecord} {rest : List ContextRecord} {v : State} (stack : v.air.stack = r :: rest)
    (kind : r.kind = .liveInsert) : endLiveInsert v =
      if v.air.chain = .withoutContext then withdrawTop r 0 v else popRecord r 0 v := by
  unfold endLiveInsert
  rw [insertRecord_top stack kind]
  exact endRecord_top 0 stack

/-- A live insert below other records is withdrawn: the record above it takes what it saved (R40; log 55). -/
theorem endLiveInsert_below {top rest : List ContextRecord} {above r : ContextRecord} {v : State}
    (stack : v.air.stack = top ++ above :: r :: rest) (kind : r.kind = .liveInsert)
    (others : ∀ x ∈ top ++ [above], x.kind ≠ .liveInsert ∧ x.number ≠ r.number) : endLiveInsert v =
    logEntry .liveInsertEnd .none (.number 0) (v.withAir { v.air with
      stack := top ++ { above with before := r.before, suspended := r.suspended, parked := above.parked ++ r.parked } :: rest
      free := r.number :: v.air.free }) := by
  have split_ : v.air.stack = (top ++ [above]) ++ r :: rest := by rw [stack]; simp
  have insert_ : v.air.insertRecord = some r := by
    unfold AIR.insertRecord
    have none_ : (top ++ [above]).find? (fun x => decide (x.kind = .liveInsert)) = none :=
      List.find?_eq_none.2 fun x mem => by simpa using (others x mem).1
    rw [split_, List.find?_append, none_, Option.none_or]
    exact List.find?_cons_of_pos (by simp [kind])
  have found : v.air.stack.find? (fun x => decide (x.number = r.number)) = some r := by
    have none_ : (top ++ [above]).find? (fun x => decide (x.number = r.number)) = none :=
      List.find?_eq_none.2 fun x mem => by simpa using (others x mem).2
    rw [split_, List.find?_append, none_, Option.none_or]
    exact List.find?_cons_of_pos (by simp)
  have notTop : v.air.stack.head?.map (·.number) ≠ some r.number := by
    rw [stack]
    cases top with
    | nil => simpa using (others above (by simp)).2
    | cons x top => simpa using (others x (by simp)).2
  have takes (top : List ContextRecord) (others : ∀ x ∈ top ++ [above], x.kind ≠ .liveInsert ∧ x.number ≠ r.number) :
      withdrawRecord.take r (top ++ above :: r :: rest) =
        top ++ { above with before := r.before, suspended := r.suspended, parked := above.parked ++ r.parked } :: rest := by
    induction top with
    | nil =>
      show withdrawRecord.take r (above :: r :: rest) = _
      unfold withdrawRecord.take
      exact if_pos rfl
    | cons x top ih =>
      have later := ih fun y mem => others y (List.mem_cons_of_mem _ mem)
      cases top with
      | nil =>
        show withdrawRecord.take r (x :: above :: r :: rest) = _
        unfold withdrawRecord.take
        refine (if_neg (others above (by simp)).2).trans ?_
        exact congrArg (x :: ·) later
      | cons y top =>
        show withdrawRecord.take r (x :: y :: (top ++ above :: r :: rest)) = _
        unfold withdrawRecord.take
        refine (if_neg (others y (by simp)).2).trans ?_
        exact congrArg (x :: ·) later
  unfold endLiveInsert
  rw [insert_]
  dsimp only
  unfold endRecord
  rw [found]
  dsimp only
  rw [if_pos notTop]
  unfold withdrawRecord
  rw [stack, takes top others, kind]
  rfl

end Sys2Proof.Machine
end

section
/-! LIVE INSERT END and the ends of joins: records are released (R36, R37, R39 to R41, R44). -/

namespace Sys2Proof.Machine

open Sys2Proof

/-- The pop of a record that gives nothing back, as one equation (R37, R73). -/
theorem popRecord_bare {r : ContextRecord} {rest : List ContextRecord} {v : State} (n : Nat) (stack : v.air.stack = r :: rest)
    (distinct : ∀ x ∈ rest, x.number ≠ r.number) (chain : v.air.chain = .none) (suspended : r.suspended = none)
    (parked : r.parked = []) (cued : v.cue.cued = none) : popRecord r n v = logPreemptionEnd r.kind n { v with
      air := { v.air with stack := rest, free := r.number :: v.air.free }
      cue := { v.cue with held := if rest = [] then false else v.cue.held } } := by
  have frame := (logPreemptionEnd_frame r.kind n (unstacked r rest v)).1
  have air : (logPreemptionEnd r.kind n (unstacked r rest v)).air = (unstacked r rest v).air := (congrArg State.air frame :)
  have cue : (logPreemptionEnd r.kind n (unstacked r rest v)).cue = v.cue := (congrArg State.cue frame :)
  have released := considerRelease_eq (s := logPreemptionEnd r.kind n (unstacked r rest v)) (by rw [air]; exact chain)
    (by rw [cue]; exact cued)
  unfold popRecord
  rw [free_top stack distinct, suspended, parked]
  refine released.trans ?_
  rw [air, cue]
  cases r.kind <;> rfl

/-- The withdrawal of such a record (R44). -/
theorem withdrawTop_bare {r : ContextRecord} {rest : List ContextRecord} {v : State} (n : Nat) (stack : v.air.stack = r :: rest)
    (distinct : ∀ x ∈ rest, x.number ≠ r.number) (suspended : r.suspended = none) (parked : r.parked = []) :
    withdrawTop r n v = logPreemptionEnd r.kind n (unstacked r rest v) := by
  unfold withdrawTop
  rw [free_top stack distinct, suspended, parked]
  rfl

/-- An event whose owner leaves CUE's list, CUE's marks and LSW as they stood closes at once. -/
theorem finish_marks {b a : State} (started : a.cue.started = false) (list : a.cue.list = b.cue.list) (lsw : a.lsw = b.lsw) :
    finish b a = clearMarks a :=
  finish_same started (by unfold CUE.waiting; rw [list]) (by rw [lsw]) (by rw [lsw])

/-! ### LIVE INSERT END -/

theorem exec_liveInsertEnd {s : State} (a : Arrives (.liveInsertEnd .b) .b s) : exec (.liveInsertEnd .b) s =
    if s.air.insertRecord.isNone then .next (replyTo .b 20 ⟨.wrongState, []⟩ (clearMarks s))
    else .next (replyTo .b 20 ⟨.ok, []⟩ (finish s (endLiveInsert (clearMarks s)))) := by
  have own : ownerAct (.liveInsertEnd .b) s = if s.air.insertRecord.isNone then (clearMarks s, ⟨.wrongState, []⟩)
      else (finish s (endLiveInsert (clearMarks s)), ⟨.ok, []⟩) := by
    show eventReply liveInsertEnd s = _
    cases h : s.air.insertRecord.isNone with
    | true => exact eventReply_refused (if_pos h)
    | false => exact eventReply_taken (if_neg (by rw [show (clearMarks s).air = s.air from rfl, h]; nofun))
  rw [exec_portB (.liveInsertEnd .b) rfl rfl (by simp) a, own]
  split <;> rfl

theorem exec_liveInsertEnd_top {s : State} {r : ContextRecord} {rest : List ContextRecord} (a : Arrives (.liveInsertEnd .b) .b s)
    (stack : s.air.stack = r :: rest) (kind : r.kind = .liveInsert) : exec (.liveInsertEnd .b) s =
      .next (replyTo .b 20 ⟨.ok, []⟩ (finish s (if s.air.chain = .withoutContext then withdrawTop r 0 (clearMarks s)
        else popRecord r 0 (clearMarks s)))) := by
  rw [exec_liveInsertEnd a, insertRecord_top stack kind, endLiveInsert_top (v := clearMarks s) stack kind]
  rfl

theorem clearMarks_get (s : State) (c : Nth) : (clearMarks s).cue.run.get c = { s.cue.run.get c with fell := false } :=
  four_get_map ..

/-- An event that begins by popping the top record. -/
theorem popEvent_of_top {s : State} {r : ContextRecord} {rest : List ContextRecord} (n : Nat) (stack : s.air.stack = r :: rest)
    (distinct : ∀ x ∈ rest, x.number ≠ r.number) (chain : s.air.chain = .none) : PopEvent r rest n s (clearMarks s) :=
  ⟨stack, distinct, chain, rfl, fun c => by rw [clearMarks_get]⟩

/-- Such an event gives back what the record saved. -/
theorem top_givesBack {s : State} {r : ContextRecord} {rest : List ContextRecord} {n : Nat} {after : LOG → LOG}
    {leaves : State → Prop} (stack : s.air.stack = r :: rest) (distinct : ∀ x ∈ rest, x.number ≠ r.number)
    (chain : s.air.chain = .none) (ready : s.alc.readyHead = none)
    (ends : ∀ l, (logPreemptionEnd r.kind n ((clearMarks s).withLog l)).log = after l)
    (leaves_ : ∀ t, t = finish s (popRecord r n (clearMarks s)) →
      t.air = { s.air with stack := rest, free := r.number :: s.air.free } →
      { t with air := s.air, cue := s.cue, lsw := s.lsw, due := s.due, log := s.log, pi := s.pi } = s → Notified s t → leaves t) :
    GivesBack r rest s.cue.list (s.dly.state = .run .bypass) id after s.due s leaves :=
  (popEvent_of_top n stack distinct chain).givesBack (s := s) rfl rfl (fun c => by rw [clearMarks_get]) rfl rfl rfl rfl ends rfl
    Iff.rfl ready fun air frame notes =>
      leaves_ _ rfl air (congrArg (fun v : State => { v with cue := s.cue }) frame :) notes

theorem ends_liveInsert {r : ContextRecord} {v s : State} (kind : r.kind = .liveInsert) (tb : v.tb = s.tb) (l : LOG) :
    (logPreemptionEnd r.kind 0 (v.withLog l)).log = l.append (stamp s) .liveInsertEnd .none (.number 0) := by
  have same : stamp (v.withLog l) = stamp s := by
    unfold stamp
    rw [← tb]
    rfl
  rw [kind, ← same]
  rfl

theorem ends_breakIn {r : ContextRecord} {v s : State} (n : Nat) (kind : r.kind = .breakIn) (tb : v.tb = s.tb) (l : LOG) :
    (logPreemptionEnd r.kind n (v.withLog l)).log = l.append (stamp s) .joinEnd (.cue n) (.number 0) := by
  have same : stamp (v.withLog l) = stamp s := by
    unfold stamp
    rw [← tb]
    rfl
  rw [kind, ← same]
  rfl

theorem ends_alert {r : ContextRecord} {v : State} (n : Nat) (kind : r.kind = .alert) (l : LOG) :
    (logPreemptionEnd r.kind n (v.withLog l)).log = l := by
  rw [kind]
  rfl

/-! ### The rows of the ends of joins -/

theorem takeDue_joinReleased {r : ContextRecord} {rest : List ContextRecord} {n : Nat} {s : State} (stack : s.air.stack = r :: rest)
    (kind : r.kind = .breakIn) : event (joinReleased r.number n) s =
      finish s (if s.air.chain = .withoutContext then withdrawTop r n (clearMarks s) else popRecord r n (clearMarks s)) := by
  have here : (clearMarks s).air.stack.any (fun x => decide (x.number = r.number ∧ x.kind = .breakIn)) = true := by
    rw [show (clearMarks s).air.stack = r :: rest from stack]
    simp [kind]
  unfold event joinReleased
  rw [here]
  exact congrArg (finish s) (endRecord_top (v := clearMarks s) n stack)

theorem exec_joinEndRelease {r : ContextRecord} {rest : List ContextRecord} {n : Nat} {s : State} (stack : s.air.stack = r :: rest)
    (kind : r.kind = .breakIn) (due : s.due = [.joinEnd r.number n]) : exec .joinEndRelease s = .next (finish (s.withDue [])
      (if s.air.chain = .withoutContext then withdrawTop r n (clearMarks (s.withDue []))
        else popRecord r n (clearMarks (s.withDue [])))) := by
  have taken := takeOne_of_mem (.joinEnd r.number n) s (by simp [due]) (by simp [due])
  rw [due, List.erase_cons_head] at taken
  refine congrArg Host.Outcome.next ?_
  rw [clockFirst_of_not (by simp [due])]
  exact taken.trans (takeDue_joinReleased (s := s.withDue []) stack kind)

theorem exec_withdrawal {r : ContextRecord} {rest : List ContextRecord} {n : Nat} {s : State} (stack : s.air.stack = r :: rest)
    (kind : r.kind = .breakIn) (due : s.due = [.withdrawal r.number n]) : exec .withdrawalWithoutRecord s =
      .next (finish (s.withDue []) (if s.air.chain = .withoutContext then withdrawTop r n (clearMarks (s.withDue []))
        else popRecord r n (clearMarks (s.withDue [])))) := by
  have taken := takeOne_of_mem (.withdrawal r.number n) s (by simp [due]) (by simp [due])
  rw [due, List.erase_cons_head] at taken
  refine congrArg Host.Outcome.next ?_
  rw [clockFirst_of_not (by simp [due])]
  exact taken.trans (takeDue_joinReleased (s := s.withDue []) stack kind)

/-! ### The clauses of LIVE INSERT END -/

theorem liveInsertEnd_bare {s : State} {r : ContextRecord} {rest : List ContextRecord} (a : Arrives (.liveInsertEnd .b) .b s)
    (stack : s.air.stack = r :: rest) (kind : r.kind = .liveInsert) (suspended : r.suspended = none) (parked : r.parked = [])
    (chain : s.air.chain = .none) (distinct : ∀ x ∈ rest, x.number ≠ r.number) (list : s.cue.list = []) :
    exec (.liveInsertEnd .b) s = .next (replyTo .b 20 ⟨.ok, []⟩ (clearMarks (logEntry .liveInsertEnd .none (.number 0)
      { s with air := { s.air with stack := rest, free := r.number :: s.air.free }
               cue := { s.cue with held := if rest = [] then false else s.cue.held } }))) := by
  have cued : (clearMarks s).cue.cued = none := cued_of_none_waits (by rw [show (clearMarks s).cue.list = [] from list]; nofun)
  have pops := popRecord_bare (v := clearMarks s) 0 stack distinct chain suspended parked cued
  rw [kind] at pops
  rw [exec_liveInsertEnd_top a stack kind, if_neg (by rw [chain]; nofun), pops]
  exact congrArg (fun t => Host.Outcome.next (replyTo .b 20 ⟨.ok, []⟩ t)) (finish_marks rfl rfl rfl)

/-- Below another record the insert is withdrawn (R40; log 55). -/
theorem liveInsertEnd_below {s : State} {above r : ContextRecord} {rest : List ContextRecord} (a : Arrives (.liveInsertEnd .b) .b s)
    (stack : s.air.stack = above :: r :: rest) (kind : r.kind = .liveInsert) (other : above.kind ≠ .liveInsert)
    (distinct : above.number ≠ r.number) : exec (.liveInsertEnd .b) s = .next (replyTo .b 20 ⟨.ok, []⟩ (clearMarks
      (logEntry .liveInsertEnd .none (.number 0) { s with air := { s.air with
        stack := { above with before := r.before, suspended := r.suspended, parked := above.parked ++ r.parked } :: rest
        free := r.number :: s.air.free } }))) := by
  have insert_ : s.air.insertRecord.isNone = false := by
    unfold AIR.insertRecord
    rw [stack, List.find?_cons_of_neg (by simpa using other), List.find?_cons_of_pos (by simp [kind])]
    rfl
  have ends := endLiveInsert_below (top := []) (v := clearMarks s) stack kind (by simpa using ⟨other, distinct⟩)
  rw [exec_liveInsertEnd a, insert_, ends]
  exact congrArg (fun t => Host.Outcome.next (replyTo .b 20 ⟨.ok, []⟩ t)) (finish_marks rfl rfl rfl)

/-- The record's one entry comes back (R71, R72, R73). -/
theorem liveInsertEnd_entry {s : State} {r : ContextRecord} {rest : List ContextRecord} {e : CueEntry} {el : Nat}
    (a : Arrives (.liveInsertEnd .b) .b s) (stack : s.air.stack = r :: rest) (kind : r.kind = .liveInsert)
    (suspended : r.suspended = some (e.serial, el)) (parked : r.parked = []) (chain : s.air.chain = .none)
    (distinct : ∀ x ∈ rest, x.number ≠ r.number) (list : s.cue.list = [e]) (state : e.state = .suspended)
    (ready : s.alc.readyHead = none) :
    let ended (list : List CueEntry) (bit : Nat) (log : LOG) (due : List Due) : Prop :=
      ∃ t, exec (.liveInsertEnd .b) s = .next (replyTo .b 20 ⟨.ok, []⟩ t) ∧ t.cue.list = list ∧
        (∀ p, (s.port p).init = .high → (t.port p).flags.getLsbD bit = true) ∧
        t.log = log.append (stamp s) .liveInsertEnd .none (.number 0) ∧ t.due = due ∧
        t.air = { s.air with stack := rest, free := r.number :: s.air.free } ∧
        t.cue.held = (if rest = [] then false else s.cue.held) ∧
        (∀ ch, e.player = some ch → list ≠ [] → (t.cue.run.get ch).high = (s.cue.run.get ch).riseAfter.isNone) ∧
        { t with air := s.air, cue := s.cue, due := s.due, log := s.log, pi := s.pi } = s
    let again (elapsed : Nat) : CueEntry := { e with state := .playing, elapsed := elapsed, begun := s.boundaryNo }
    (∀ ch len g, e.kind = .item ch len g .resume → ended [again el] 0 s.log s.due) ∧
    (∀ ch len g, e.kind = .item ch len g .restart → ended [again 0] 0 s.log s.due) ∧
    (∀ ch len g, e.kind = .item ch len g .skip →
      ended [] 1 (s.log.append (stamp s) .itemSkipped (.cue e.serial) (.skipped .policy)) s.due) ∧
    (∀ f len stop, e.kind = .join f len → e.joinEnd = some stop →
      let left := (stop + 17280000 - s.tb.clock) % 17280000
      (1 ≤ left → left ≤ len → ended [again (len - left)] 0 s.log s.due) ∧
      (left = 0 ∨ len < left → (rest = [] → ended [] 1 s.log s.due) ∧
        ∀ below deeper, rest = below :: deeper → below.kind = .breakIn →
          ended [] 1 s.log (s.due ++ [.joinEnd below.number e.serial]))) := by
  intro ended again
  have run : exec (.liveInsertEnd .b) s = .next (replyTo .b 20 ⟨.ok, []⟩ (finish s (popRecord r 0 (clearMarks s)))) := by
    rw [exec_liveInsertEnd_top a stack kind, if_neg (by rw [chain]; nofun)]
  have gives := top_givesBack (leaves := fun t => exec (.liveInsertEnd .b) s = .next (replyTo .b 20 ⟨.ok, []⟩ t) ∧
      t.air = { s.air with stack := rest, free := r.number :: s.air.free } ∧
      { t with air := s.air, cue := s.cue, lsw := s.lsw, due := s.due, log := s.log, pi := s.pi } = s ∧ Notified s t)
    stack distinct chain ready (ends_liveInsert kind rfl) fun t eq air frame notes => ⟨eq ▸ run, air, frame, notes⟩
  obtain ⟨resume, restart, skip, join⟩ := gives.1 e el suspended parked list state
  have up {x : List CueEntry} {bit : Nat} {log : LOG → LOG} {more due : List Due} (sum : s.due ++ more = due)
      (h : ∃ t, ((exec (.liveInsertEnd .b) s = .next (replyTo .b 20 ⟨.ok, []⟩ t) ∧
          t.air = { s.air with stack := rest, free := r.number :: s.air.free } ∧
          { t with air := s.air, cue := s.cue, lsw := s.lsw, due := s.due, log := s.log, pi := s.pi } = s ∧ Notified s t) ∧
          t.cue.list = x ∧ t.log = (log s.log).append (stamp s) .liveInsertEnd .none (.number 0) ∧ t.due = s.due ++ more ∧
          t.cue.held = (if rest = [] then false else s.cue.held) ∧
          ∀ p, (t.port p).init = .high → (t.port p).flags.getLsbD bit = true) ∧ t.lsw = s.lsw ∧
        ∀ ch, e.player = some ch → x ≠ [] → (t.cue.run.get ch).high = (s.cue.run.get ch).riseAfter.isNone) :
      ended x bit (log s.log) due := by
    obtain ⟨t, ⟨⟨next, air, frame, notes⟩, list, log, due, held, bits⟩, lsw, high⟩ := h
    refine ⟨t, next, list, fun p up => bits p (notes.high up), log, due.trans sum, air, held, high, ?_⟩
    rw [← lsw] at frame
    exact frame
  refine ⟨fun ch len g kind => up (log := id) (List.append_nil _) (resume ch len g kind),
    fun ch len g kind => up (log := id) (List.append_nil _) (restart ch len g kind),
    fun ch len g kind => up (log := fun l => l.append (stamp s) .itemSkipped (.cue e.serial) (.skipped .policy)) (List.append_nil _)
      (skip ch len g kind), fun f len stop kind end_ => ?_⟩
  obtain ⟨back, done⟩ := join f len stop kind end_
  refine ⟨fun one within => up (log := id) (List.append_nil _) (back one within), fun past => ⟨fun empty => ?_,
    fun below deeper stack breakIn => up (log := id) rfl ((done past).2 below deeper stack breakIn)⟩⟩
  refine up (log := id) (List.append_nil _) ((done past).1 fun below head => ?_)
  rw [empty] at head
  cases head

/-- The record's one line comes back (R102). -/
theorem liveInsertEnd_line {s : State} {r : ContextRecord} {rest : List ContextRecord} {l : Nth} {slot : Slot}
    (a : Arrives (.liveInsertEnd .b) .b s) (stack : s.air.stack = r :: rest) (kind : r.kind = .liveInsert)
    (suspended : r.suspended = none) (parked : r.parked = [(l, slot)]) (chain : s.air.chain = .none)
    (distinct : ∀ x ∈ rest, x.number ≠ r.number) (list : s.cue.list = []) (line : s.line l = .parked)
    (none_ : s.lsw.anyIn .air = false) :
    ∃ t, exec (.liveInsertEnd .b) s = .next (replyTo .b 20 ⟨.ok, []⟩ t) ∧
      t.air = { s.air with stack := rest, free := r.number :: s.air.free } ∧
      t.log = s.log.append (stamp s) .liveInsertEnd .none (.number 0) ∧
      (∀ m, m ≠ l → t.lsw.lines.get m = s.lsw.lines.get m) ∧
      (∀ p, (s.port p).init = .high → (t.port p).flags.getLsbD 5 = true) ∧
      (s.dly.state ≠ .run .bypass ∨ s.lsw.liveCalls = true →
        t.lsw.lines.get l = { s.lsw.lines.get l with
          state := .air, waiting := none, onAir := some ((s.lsw.lines.get l).onAir.getD (0, 0)) } ∧
        (slot = .a → t.lsw.slotA = some l) ∧ (slot = .b → t.lsw.slotB = some l) ∧
        t.due = s.due ++ [.gateReport true s.lsw.liveCalls]) ∧
      (s.dly.state = .run .bypass → s.lsw.liveCalls = false → t.due = s.due ∧
        t.lsw = { s.lsw with
          queue := s.lsw.queue.filter fun m => !decide (m = l)
          slotA := if s.lsw.slotA = some l then none else s.lsw.slotA
          slotB := if s.lsw.slotB = some l then none else s.lsw.slotB
          lines := s.lsw.lines.set l { s.lsw.lines.get l with state := .hold, waiting := some 0 } }) ∧
      { t with air := s.air, cue := s.cue, lsw := s.lsw, due := s.due, log := s.log, pi := s.pi } = s := by
  have run : exec (.liveInsertEnd .b) s = .next (replyTo .b 20 ⟨.ok, []⟩ (finish s (popRecord r 0 (clearMarks s)))) := by
    rw [exec_liveInsertEnd_top a stack kind, if_neg (by rw [chain]; nofun)]
  have cued : (clearMarks s).cue.cued = none := cued_of_none_waits (by rw [show (clearMarks s).cue.list = [] from list]; nofun)
  have popped := (popEvent_of_top 0 stack distinct chain).bare suspended cued rfl
  generalize finish s (popRecord r 0 (clearMarks s)) = t at run popped
  generalize hz : unstacked r rest (clearMarks s) = z at popped
  have zlsw : z.lsw = s.lsw := by rw [← hz]; rfl
  have zdly : z.dly = s.dly := by rw [← hz]; rfl
  have zdue : z.due = s.due := by rw [← hz]; rfl
  have zpi : Notified s z := notified_of_pi (by rw [← hz]; rfl)
  have folded : r.parked.foldl returnLine z = returnLine z (l, slot) := by rw [parked]; rfl
  have lsw := popped.lsw
  have due := popped.due
  have notes := popped.notified
  rw [folded] at lsw due notes
  rw [zdue, show (clearMarks s).lsw = s.lsw from rfl] at due
  have log : t.log = s.log.append (stamp s) .liveInsertEnd .none (.number 0) := by
    rw [popped.log, ends_liveInsert (v := clearMarks s) (s := s) kind rfl, ← hz]
    rfl
  have frame : { t with air := s.air, cue := s.cue, lsw := s.lsw, due := s.due, log := s.log, pi := s.pi } = s :=
    (congrArg (fun v : State => { v with cue := s.cue }) popped.frame :)
  by_cases holds : s.dly.state = .run .bypass ∧ s.lsw.liveCalls = false
  · have goes : returnLine z (l, slot) = holdParked z l := if_pos ⟨by rw [zdly]; exact holds.1, by rw [zlsw, holds.2]; rfl⟩
    have air : (holdParked z l).lsw.anyIn .air = s.lsw.anyIn .air := by
      have same := foldl_holdParked_air (ls := [l]) (s := z) fun m mem => by
        rw [List.mem_singleton.1 mem]
        unfold State.line
        rw [zlsw, show (s.lsw.lines.get l).state = .parked from line]
        nofun
      rw [zlsw] at same
      exact same
    rw [goes] at lsw due notes
    have explicit : t.lsw = ((s.lsw.release l).modify l (·.waits .hold)) := by
      rw [lsw, ← zlsw]
      rfl
    rw [air, if_pos ⟨rfl, by rw [← zlsw]; rfl⟩] at due
    refine ⟨t, run, popped.air, log, fun m other => ?_, fun p high => ?_, fun stays => ?_, fun _ _ => ⟨due, explicit⟩, frame⟩
    · rw [explicit]
      exact modify_get_other _ _ other
    · have raised : Notified (raise .lineChange (z.withLsw _)) t := notes
      exact raised.bit (((zpi.trans (notified_of_pi rfl)).trans ((notified_raise .lineChange (z.withLsw _)).trans raised)).high high)
    · rcases stays with no | live
      · exact absurd holds.1 no
      · rw [holds.2] at live
        cases live
  · have goes : returnLine z (l, slot) = linesChange (z.lsw.toAir l slot) z := by
      refine if_neg fun both => holds ⟨by rw [← zdly]; exact both.1, ?_⟩
      rw [← zlsw]
      simpa using both.2
    rw [goes] at lsw due notes
    have explicit : t.lsw = s.lsw.toAir l slot := by
      rw [lsw, ← zlsw]
      rfl
    rw [show (linesChange (z.lsw.toAir l slot) z).lsw = s.lsw.toAir l slot by rw [← zlsw]; rfl, toAir_anyIn, none_,
      toAir_liveCalls, if_neg (by simp)] at due
    refine ⟨t, run, popped.air, log, fun m other => ?_, fun p high => ?_, fun _ => ?_, fun bypass off => absurd ⟨bypass, off⟩ holds,
      frame⟩
    · rw [explicit]
      exact toAir_get_other _ _ other
    · have raised : Notified (raise .lineChange (z.withLsw (z.lsw.toAir l slot))) t := notes
      exact raised.bit (((zpi.trans (notified_of_pi rfl)).trans ((notified_raise .lineChange (z.withLsw _)).trans raised)).high high)
    · have held := toAir_slot s.lsw l slot
      rw [← explicit] at held
      refine ⟨by rw [explicit]; exact toAir_get .., fun a => ?_, fun b => ?_, due⟩
      · rw [a] at held
        exact held
      · rw [b] at held
        exact held

/-- Settles O25: LIVE INSERT END and the ends of joins by what the pop, the withdrawal and the withdrawal without a record leave. -/
theorem recordsAreReleased : Obligations.RecordsAreReleased := by
  refine ⟨fun s => ⟨refusedOff_portB s (fun _ => rfl) rfl (by simp), fun a => ⟨fun none_ => ?_, ?_, ?_, ?_, ?_, ?_⟩⟩, ?_, ?_⟩
  · rw [exec_liveInsertEnd a, none_]
    rfl
  · exact fun r rest stack kind suspended parked chain distinct list =>
      liveInsertEnd_bare a stack kind suspended parked chain distinct list
  · exact fun above r rest stack kind other distinct => liveInsertEnd_below a stack kind other distinct
  · exact fun r rest e el stack kind suspended parked chain distinct list state ready =>
      liveInsertEnd_entry a stack kind suspended parked chain distinct list state ready
  · exact fun r rest l slot stack kind suspended parked chain distinct list line none_ =>
      liveInsertEnd_line a stack kind suspended parked chain distinct list line none_
  · intro r rest stack kind chain distinct
    refine withdraws_of_event (n := 0) (b := s) (v := clearMarks s) stack distinct rfl rfl rfl rfl rfl rfl (ends_liveInsert kind rfl) ?_
    rw [exec_liveInsertEnd_top a stack kind, if_pos chain]
  · intro r rest n s stack kind distinct joinEnd
    refine ⟨fun due chain ready => ?_, fun due chain => ?_⟩
    · have gives := (popEvent_of_top (s := s.withDue []) n stack distinct chain).givesBack (s := s) (list := s.cue.list)
        (bypass := s.dly.state = .run .bypass) (before := id) (after := joinEnd) (due := [])
        (leaves := fun t => exec .joinEndRelease s = .next t ∧
          t.air = { s.air with stack := rest, free := r.number :: s.air.free } ∧
          { t with air := s.air, cue := s.cue, lsw := s.lsw, due := s.due, log := s.log, pi := s.pi } = s) rfl rfl
        (fun c => by rw [clearMarks_get]; rfl) rfl rfl rfl rfl (ends_breakIn n kind rfl) rfl Iff.rfl ready
        fun air frame _ => ⟨?_, air, (congrArg (fun v : State => { v with cue := s.cue, due := s.due }) frame :)⟩
      · exact gives
      · rw [exec_joinEndRelease stack kind due, if_neg (by rw [chain]; nofun)]
    · refine withdraws_of_event (n := n) (b := s.withDue []) (v := clearMarks (s.withDue [])) stack distinct rfl rfl rfl rfl rfl rfl
        (ends_breakIn n kind rfl) ?_
      rw [exec_withdrawal stack kind due, if_pos chain]
  · intro r rest n s stack kind suspended parked distinct list
    have cued : (clearMarks (s.withDue [])).cue.cued = none :=
      cued_of_none_waits (by rw [show (clearMarks (s.withDue [])).cue.list = [] from list]; nofun)
    refine ⟨fun due chain => ?_, fun due chain => ?_⟩
    · have pops := popRecord_bare (v := clearMarks (s.withDue [])) n stack distinct chain suspended parked cued
      rw [kind] at pops
      rw [exec_joinEndRelease stack kind due, if_neg (by rw [chain]; nofun), pops]
      exact congrArg Host.Outcome.next (finish_marks rfl rfl rfl)
    · have gone := withdrawTop_bare (v := clearMarks (s.withDue [])) n stack distinct suspended parked
      rw [kind] at gone
      rw [exec_withdrawal stack kind due, if_pos chain, gone]
      exact congrArg Host.Outcome.next (finish_marks rfl rfl rfl)

end Sys2Proof.Machine
end

section
/-! LIVE INSERT (R31, R34, R35, R70, R101). -/

namespace Sys2Proof.Machine

open Sys2Proof

/-- A suspension with nothing FADING suspends the PLAYING entry (R70). -/
theorem suspend_playing {s : State} {p : CueEntry} (fading : s.cue.fading = none) (h : s.cue.playing = some p) : suspend s =
    s.withCue { (s.cue.modify p.serial fun e => { e with state := .suspended }).dropLine p with held := true } := by
  have still : endFading s = s := by
    unfold endFading
    rw [fading]
  unfold suspend
  rw [still]
  dsimp only
  rw [h]

/-- A push touches AIR, CUE, the lines in AIR and PI alone (R31, R35). -/
theorem push_frame (k : RecordKind) (s : State) : { push k s with cue := s.cue, pi := s.pi } = { s with
    air := { s.air with stack := newRecord k s :: s.air.stack, free := s.air.free.drop 1 }
    lsw := s.lsw.parkedAir } := by
  obtain ⟨l, r, q, suspended⟩ := suspend_eq (s.withAir { s.air with
    stack := newRecord k s :: s.air.stack, free := s.air.free.drop 1 })
  unfold push
  obtain ⟨q', parked⟩ := parkLines_eq (suspend (s.withAir { s.air with
    stack := newRecord k s :: s.air.stack, free := s.air.free.drop 1 }))
  rw [parked, suspended]
  rfl

/-- CUE after a push is CUE suspended. -/
theorem push_cue (k : RecordKind) (s : State) : (push k s).cue = (suspend s).cue := by
  unfold push
  obtain ⟨q, parked⟩ := parkLines_eq (suspend (s.withAir { s.air with
    stack := newRecord k s :: s.air.stack, free := s.air.free.drop 1 }))
  rw [parked]
  exact suspend_cue (s := s) rfl

theorem suspend_held (s : State) : (suspend s).cue.held = true ∧ (suspend s).cue.started = s.cue.started := by
  obtain ⟨l, r, q, suspended⟩ := suspend_eq s
  rw [suspended]
  exact ⟨rfl, rfl⟩

/-- Settles O24: the checks in R34's order, then a push and its log entry. -/
theorem liveInsertPushesARecord : Obligations.LiveInsertPushesARecord := by
  refine fun s => ⟨refusedOff_portB s (fun _ => rfl) rfl (by simp), fun a => ?_⟩
  have run {t : State} {x : Reply} (own : eventReply liveInsert s = (t, x)) :
      exec (.liveInsert .b) s = .next (replyTo .b 19 x t) := exec_answers rfl rfl (by simp) nofun (by simp) a own
  have auto (mode : s.air.mode = .auto ∨ s.air.mode = .unattended) : ¬ (s.air.mode = .live ∨ s.air.mode = .test) := by
    rcases mode with h | h <;> rw [h] <;> simp
  have free (chain : s.air.chain = .none) : ¬ s.air.chain ≠ .none := not_not_intro chain
  have bare (insert_ : s.air.insertRecord = none) : ¬ s.air.insertRecord.isSome = true := by rw [insert_]; nofun
  refine ⟨fun mode => run (eventReply_refused (if_pos mode)), fun mode busy => ?_, fun mode chain insert_ full => ?_,
    fun mode chain insert_ room fading => ?_⟩
  · refine run (eventReply_refused ((if_neg (auto mode)).trans ?_))
    by_cases chain : s.air.chain = .none
    · exact (if_neg (free chain)).trans (if_pos (busy.resolve_left (free chain)))
    · exact if_pos chain
  · have none_ : (!s.air.hasRoom) = true := by simpa [AIR.hasRoom] using full
    exact run (eventReply_refused ((if_neg (auto mode)).trans ((if_neg (free chain)).trans
      ((if_neg (bare insert_)).trans (if_pos none_)))))
  · have some_ : ¬ (!s.air.hasRoom) = true := by simpa [AIR.hasRoom] using room
    have frame := push_frame .liveInsert (clearMarks s)
    have cue := push_cue .liveInsert (clearMarks s)
    obtain ⟨held, started⟩ := suspend_held (clearMarks s)
    have closed := closes_finish s (a := logEntry .liveInsertStart .none (.number 0) (push .liveInsert (clearMarks s))) fun st => by
      rw [show (logEntry .liveInsertStart .none (.number 0) (push .liveInsert (clearMarks s))).cue = (suspend (clearMarks s)).cue
        from cue, started] at st
      cases st
    have taken : exec (.liveInsert .b) s = .next (replyTo .b 19 ⟨.ok, []⟩
        (finish s (logEntry .liveInsertStart .none (.number 0) (push .liveInsert (clearMarks s))))) :=
      run (eventReply_taken ((if_neg (auto mode)).trans ((if_neg (free chain)).trans
        ((if_neg (bare insert_)).trans (if_neg some_)))))
    refine ⟨_, taken, ?_⟩
    clear taken
    generalize push .liveInsert (clearMarks s) = a at frame cue closed
    generalize finish s (logEntry .liveInsertStart .none (.number 0) a) = u at closed
    have air : u.air = { s.air with stack := newRecord .liveInsert (clearMarks s) :: s.air.stack, free := s.air.free.drop 1 } :=
      closed.air.trans (congrArg State.air frame :)
    have lsw : u.lsw = s.lsw.parkedAir := closed.lsw.trans (congrArg State.lsw frame :)
    have list : u.cue.list = (suspend (clearMarks s)).cue.list := closed.list.trans (congrArg CUE.list cue)
    have rest {α : Type} {f : State → α} (all : ∀ v : State, f { v with
        air := s.air, cue := s.cue, lsw := s.lsw, log := s.log, due := s.due, pi := s.pi } = f v) : f u = f s := by
      have left : { u with air := s.air, cue := s.cue, lsw := s.lsw, log := s.log, due := s.due, pi := s.pi } = s := by
        refine (congrArg (fun v : State => { v with
          air := s.air, cue := s.cue, lsw := s.lsw, log := s.log, due := s.due, pi := s.pi }) closed.frame :).trans ?_
        exact (congrArg (fun v : State => { v with
          air := s.air, cue := s.cue, lsw := s.lsw, log := s.log, due := s.due, pi := s.pi }) frame :)
      rw [← all u, left]
    refine ⟨⟨newRecord .liveInsert (clearMarks s), by rw [air], rfl, rfl, rfl, rfl, rfl, rfl, rfl⟩, by rw [air], by rw [air],
      by rw [air]; exact chain, ?_, fun e playing => ?_, fun l h => ?_, fun l h => ?_, ?_, rest fun _ => rfl, rest fun _ => rfl,
      rest fun _ => rfl, rest fun _ => rfl, rest fun _ => rfl, rest fun _ => rfl⟩
    · rw [closed.held]
      exact (congrArg CUE.held cue).trans held
    · rw [list, suspend_playing (s := clearMarks s) fading playing]
      show _ ∈ (((clearMarks s).cue.modify e.serial _).dropLine e).list
      rw [dropLine_eq]
      exact List.mem_map.2 ⟨e, List.mem_of_find?_eq_some playing, if_pos rfl⟩
    · show (u.lsw.lines.get l).state = .parked
      rw [lsw, parkedAir_line]
      exact (congrArg Line.state (if_pos h)).trans rfl
    · rw [lsw, parkedAir_line]
      exact if_neg h
    · obtain ⟨-, e, more, entries, kind⟩ := LOG.newest_append (l := a.log) (k := .liveInsertStart) (d := .number 0) (stamp a)
        .none rfl
      have log : u.log = a.log.append (stamp a) .liveInsertStart .none (.number 0) := closed.log
      rw [log, entries]
      exact congrArg some kind

end Sys2Proof.Machine
end

section
/-! The list after an entry has left, and the choice of the CUED entry on a list that is known (R55, R56, R66). -/

namespace Sys2Proof.Machine

open Sys2Proof

/-- An entry as it stands when another is CUED (R56). -/
def CueEntry.demoted (y : CueEntry) : CueEntry := if y.waits then { y with state := .waiting } else y

/-- The first entry that may be CUED is, with no other waiting before it (R56). -/
theorem recue_list {x : CUE} {before after : List CueEntry} {e : CueEntry} (list : x.list = before ++ e :: after)
    (quiet : ∀ y ∈ before, y.waits = false) (able : e.cueable = true) (others : ∀ y ∈ after, y.serial ≠ e.serial) :
    x.recue.list = before ++ { e with state := .cued } :: after.map CueEntry.demoted := by
  have waits : e.waits = true := (Bool.and_eq_true_iff.1 able).1
  have first : x.list.find? CueEntry.cueable = some e := by
    rw [list, List.find?_append, List.find?_eq_none.2 fun y mem => by simp [CueEntry.cueable, quiet y mem], Option.none_or]
    exact List.find?_cons_of_pos able
  show x.list.map _ = _
  rw [first, list, List.map_append, List.map_cons]
  refine congrArg₂ (· ++ ·) ?_ (congrArg₂ (· :: ·) ?_ ?_)
  · exact (List.map_congr_left fun y mem => if_neg (by rw [quiet y mem]; nofun)).trans (List.map_id _)
  · exact (if_pos waits).trans (by simp)
  · refine List.map_congr_left fun y mem => ?_
    unfold CueEntry.demoted
    split
    · rw [if_neg (by simpa using (others y mem).symm)]
    · rfl

/-- Alone on the list, an entry that may be CUED is (R56). -/
theorem recue_alone {x : CUE} {e : CueEntry} (list : x.list = [e]) (able : e.cueable = true) :
    x.recue = { x with list := [{ e with state := .cued }] } :=
  congrArg (fun l => ({ x with list := l } : CUE)) (recue_list (before := []) (after := []) list (List.forall_mem_nil _) able
    (List.forall_mem_nil _))

/-- A CUED entry that is alone in waiting stays as it is (R56). -/
theorem recue_keeps {x : CUE} {before after : List CueEntry} {e : CueEntry} (list : x.list = before ++ e :: after)
    (quiet : ∀ y ∈ before, y.waits = false) (able : e.cueable = true) (state : e.state = .cued)
    (still : ∀ y ∈ after, y.serial ≠ e.serial ∧ (y.waits = true → y.state = .waiting)) : x.recue = x := by
  have same : x.recue.list = x.list := by
    rw [recue_list list quiet able fun y mem => (still y mem).1, list, ← state]
    refine congrArg (before ++ e :: ·) ((List.map_congr_left fun y mem => ?_).trans (List.map_id _))
    unfold CueEntry.demoted
    split
    · rename_i waits
      rw [← (still y mem).2 waits]
      rfl
    · rfl
  have frame : x.recue = { x with list := x.recue.list } := rfl
  rw [frame, same]

/-- In LIVE the list is settled by the choice of the CUED entry alone (R56, R66). -/
theorem settleList_live {s : State} (h : s.air.mode = .live) : settleList true s = s.withCue s.cue.recue := by
  rw [settleList_eq (settles_of_mode (by rw [h]; nofun))]
  exact considerIdle_live (s := s.withCue s.cue.recue) h

/-- So it is while an entry plays (R66). -/
theorem settleList_playing {s : State} (mode : s.air.mode ≠ .unattended) (playing : s.cue.recue.playing ≠ none) :
    settleList true s = s.withCue s.cue.recue := by
  rw [settleList_eq (settles_of_mode mode)]
  exact considerIdle_busy (s := s.withCue s.cue.recue) (passStops_of_mode mode) (.inl playing)

/-- The choice of the CUED entry moves no entry that has started. -/
theorem recue_playing (x : CUE) : x.recue.playing = x.playing := by
  unfold CUE.playing CUE.inState CUE.recue
  dsimp only
  rw [List.find?_map]
  have same (e : CueEntry) : ((fun e : CueEntry => decide (e.state = .playing)) ∘ fun e => if e.waits then { e with
      state := if (x.list.find? CueEntry.cueable).map (·.serial) = some e.serial then .cued else .waiting } else e) e =
      decide (e.state = .playing) := by
    show decide (CueEntry.state (if _ then _ else _) = _) = _
    split
    · rename_i waits
      have other : e.state ≠ .playing := fun playing => by
        rw [CueEntry.waits, playing] at waits
        cases waits
      rw [decide_eq_false other]
      split <;> rfl
    · rfl
  rw [funext same]
  cases found : x.list.find? fun e => decide (e.state = .playing) with
  | none => rfl
  | some e =>
    have playing : e.state = .playing := by simpa using List.find?_some found
    exact congrArg some (if_neg (by rw [CueEntry.waits, playing]; nofun))

/-- Alone on the list, an entry that the sequence may start does so when an automatic mode settles it (R56, R63, R66). -/
theorem settleList_starts {s : State} {e : CueEntry} (list : s.cue.list = [e]) (waits : e.waits = true)
    (able : e.startable = true) (mode : s.air.mode ≠ .live) (held : s.cue.held = false) : settleList true s =
      raise .entryStarted (s.withCue (({ s.cue with list := [{ e with state := .cued }] } : CUE).play { e with state := .cued } 0
        (joinEndAt e s) s.boundaryNo)) := by
  have stop : e.kind ≠ .stop := fun stop => by
    rw [CueEntry.startable, stop] at able
    cases able
  have breaksIn : e.breaksIn = false := by
    unfold CueEntry.startable at able
    unfold CueEntry.breaksIn
    split
    · rename_i time
      rw [time] at able
      revert able
      cases e.kind <;> nofun
    · rfl
  have chosen := recue_alone list (by rw [CueEntry.cueable, waits, breaksIn]; rfl)
  rw [settleList_eq (settles_of_no_stop fun y mem => by rw [list, List.mem_singleton] at mem; rwa [mem]), chosen]
  generalize hw : s.withCue { s.cue with list := [{ e with state := .cued }] } = w
  have wlist : w.cue.list = [{ e with state := .cued }] := by rw [← hw]; rfl
  have cued : w.cue.cued = some { e with state := .cued } := by
    unfold CUE.cued CUE.inState
    rw [wlist]
    rfl
  have idle : w.cue.playing = none := by
    unfold CUE.playing CUE.inState
    rw [wlist]
    rfl
  have pass : passStops w = w := passStops_of_kind fun y found => by
    rw [cued] at found
    rw [← Option.some.inj found]
    exact stop
  rw [considerIdle_starts pass (by rw [← hw]; exact mode) idle (by rw [← hw]; exact held) cued able]
  have started : startEntry { e with state := .cued } w = raise .entryStarted (w.withCue (w.cue.play { e with state := .cued } 0
      (joinEndAt { e with state := .cued } w) w.boundaryNo)) :=
    setPlaying_eq (e := { e with state := .cued }) _ _ (find_singleton wlist)
  rw [started, recue_still]
  · rw [← hw]
    rfl
  · intro y mem
    have mem' : y ∈ (w.cue.play { e with state := .cued } 0 (joinEndAt { e with state := .cued } w) w.boundaryNo).list := mem
    rw [play_singleton wlist, List.mem_singleton] at mem'
    rw [mem']
    rfl

theorem endFading_none {s : State} (h : s.cue.fading = none) : endFading s = s := by
  unfold endFading
  rw [h]

/-- An event that left all but CUE, the log and the ports as they stood closes with no more than that. -/
theorem Closes.frame_log {b a u : State} (h : Closes b a u) {s : State} (same : a.lsw = b.lsw)
    (left : { a with cue := s.cue, log := s.log, pi := s.pi } = s) : { u with cue := s.cue, log := s.log, pi := s.pi } = s :=
  (congrArg (fun v : State => { v with cue := s.cue, log := s.log, pi := s.pi }) (h.frame_same same) :).trans left

theorem Closes.frame_air {b a u : State} (h : Closes b a u) {s : State} (same : a.lsw = b.lsw)
    (left : { a with air := s.air, cue := s.cue, log := s.log, pi := s.pi } = s) :
    { u with air := s.air, cue := s.cue, log := s.log, pi := s.pi } = s :=
  (congrArg (fun v : State => { v with air := s.air, cue := s.cue, log := s.log, pi := s.pi }) (h.frame_same same) :).trans left

/-- A notice raised before the close of an event stands at its end (R191). -/
theorem Closes.bit {b a u : State} (h : Closes b a u) {k : Notice} {s v : State} (start : s.pi = v.pi)
    (raised : Notified (raise k v) a) {q : PortId} (high : (s.port q).init = .high) : (u.port q).flags.getLsbD k.bit = true := by
  have all : Notified s u := ((notified_of_pi start.symm).trans (notified_raise k v)).trans (raised.trans h.notified)
  exact (raised.trans h.notified).bit (all.high high)

/-- Out of a hold the end of the PLAYING entry settles the list (R66). -/
theorem afterPlaying_free {s : State} (e : CueEntry) (h : s.cue.held = false) : afterPlaying e s = settleList true s :=
  if_neg (by rw [h]; nofun)

/-- In a hold it is the end of the BREAK-IN at the top (R36). -/
theorem afterPlaying_breakIn {s : State} {r : ContextRecord} {rest : List ContextRecord} (e : CueEntry) (held : s.cue.held = true)
    (none_ : ∀ y ∈ s.cue.list, y.waits = false) (stack : s.air.stack = r :: rest) (kind : r.kind = .breakIn)
    (chain : s.air.chain = .none) : afterPlaying e s = popRecord r e.serial s := by
  unfold afterPlaying
  rw [if_pos held, recue_still none_, passStops_of_no_cued (cued_of_none_waits none_)]
  dsimp only
  rw [stack]
  dsimp only
  rw [if_pos kind, endRecord_top e.serial stack]
  exact if_neg (by rw [chain]; nofun)

/-- How an event closes in which the one entry of the list has started (R61, R62). -/
theorem closes_start (b v : State) {c : CUE} {e : CueEntry} (elapsed : Nat) (joinEnd : Option Nat) (now : Nat)
    (list : c.list = [e]) (ready : v.alc.readyHead = none) :
    let a := raise .entryStarted (v.withCue (c.play e elapsed joinEnd now))
    Closes b a (finish b a) ∧
    (finish b a).cue.list = [{ e with state := .playing, elapsed := elapsed, joinEnd := joinEnd, begun := now }] ∧
    (∀ ch, ((finish b a).cue.run.get ch).high =
      if e.player = some ch then ((c.run.get ch).rise now).high else (c.run.get ch).high) ∧
    (finish b a).cue.counter = c.counter := by
  have closed := closes_finish b (a := raise .entryStarted (v.withCue (c.play e elapsed joinEnd now))) fun _ => ready
  refine ⟨closed, closed.list.trans (play_singleton list ..), fun ch => ?_, closed.counter.trans ?_⟩
  · rw [closed.high]
    show ((c.play e elapsed joinEnd now).run.get ch).high = _
    rw [play_get]
    split <;> rfl
  · exact (congrArg CUE.counter (play_frame c e elapsed joinEnd now) :)

/-- A run line that did not fall in the event rises unless a rise is awaited (R61; log 41). -/
theorem rise_high {r : RunLine} (now : Nat) (fell : r.fell = false) : (r.rise now).high = r.riseAfter.isNone := by
  rw [RunLine.rise, fell]
  rfl

end Sys2Proof.Machine
end

section
/-! DELETE and SKIP (R47, R55, R59, R60). -/

namespace Sys2Proof.Machine

open Sys2Proof

theorem delete_leaves {n : Half} {s : State} {e : CueEntry} (find_ : s.cue.find n.toNat = some e) (off : e.onAir = false) :
    delete n s = (settleList true (leave e s), ⟨.ok, []⟩) := by
  unfold delete
  rw [find_]
  exact if_neg (by rw [off]; nofun)

theorem skip_leaves {n : Half} {s : State} {e : CueEntry} (find_ : s.cue.find n.toNat = some e) (suspended : e.state ≠ .suspended)
    (playing : e.state ≠ .playing) : skip n s = (settleList true (leaveSkipped .request e s), ⟨.ok, []⟩) := by
  unfold skip
  rw [find_]
  dsimp only
  split
  · exact absurd ‹_› suspended
  · exact absurd ‹_› playing
  · rfl

theorem skip_plays {n : Half} {s : State} {e : CueEntry} (find_ : s.cue.find n.toNat = some e) (playing : e.state = .playing) :
    skip n s = (afterPlaying e (leaveSkipped .request e (endFading s)), ⟨.ok, []⟩) := by
  unfold skip
  rw [find_]
  dsimp only
  rw [playing]
  rfl

theorem clearMarks_run_map (s : State) : ((clearMarks s).cue.run.map fun r => { r with fell := false }) = (clearMarks s).cue.run := rfl

/-- What DELETE and SKIP of an entry that has not started leave in LIVE (R55, R59, R60). -/
theorem settled_live {s a : State} {e : CueEntry} (b : State) (mode : a.air.mode = .live)
    (cue : a.cue = (clearMarks s).cue.without e) :
    Closes b (a.withCue a.cue.recue) (finish b (settleList true a)) ∧
    (finish b (settleList true a)).cue.list.map CueEntry.identity =
      (s.cue.list.filter fun x => !decide (x.serial = e.serial)).map CueEntry.identity ∧
    (finish b (settleList true a)).cue.run = (clearMarks s).cue.run := by
  have closed := closes_finish b (a := a.withCue a.cue.recue) fun st => by
    rw [show (a.withCue a.cue.recue).cue = a.cue.recue from rfl, cue] at st
    cases st
  rw [settleList_live mode]
  refine ⟨closed, ?_, ?_⟩
  · rw [closed.list]
    refine (recue_identity a.cue).trans ?_
    rw [cue]
    rfl
  · rw [closed.run]
    show (a.cue.run.map _) = _
    rw [cue]
    rfl

/-- An entry on air leaves the list by request (R55, R60). -/
theorem leaveSkipped_onAir {e : CueEntry} {s : State} (h : e.state = .playing ∨ e.state = .fading) :
    leaveSkipped .request e (clearMarks s) = logEntry .itemSkipped (.cue e.serial) (.skipped .request)
      (raise .entryEnded ((clearMarks s).withCue (((clearMarks s).cue.without e).dropLine e))) := by
  unfold leaveSkipped
  rw [leave_onAir h]

/-- What SKIP of an entry on air leaves when nothing starts after it (R55, R60, R61). -/
theorem skipped_onAir {s : State} {e : CueEntry} (onAir : e.state = .playing ∨ e.state = .fading)
    (still : settleList true (leaveSkipped .request e (clearMarks s)) = (leaveSkipped .request e (clearMarks s)).withCue
      (((clearMarks s).cue.without e).dropLine e).recue) :
    let u := finish s (settleList true (leaveSkipped .request e (clearMarks s)))
    (∀ q, (s.port q).init = .high → (u.port q).flags.getLsbD 1 = true) ∧
    u.cue.list.map CueEntry.identity = (s.cue.list.filter fun x => !decide (x.serial = e.serial)).map CueEntry.identity ∧
    (∀ c, (u.cue.run.get c).high = (if e.player = some c then false else (s.cue.run.get c).high)) ∧
    u.log = s.log.append (stamp s) .itemSkipped (.cue e.serial) (.skipped .request) ∧
    { u with cue := s.cue, log := s.log, pi := s.pi } = s := by
  rw [still, leaveSkipped_onAir onAir]
  have list : (((clearMarks s).cue.without e).dropLine e).list = s.cue.list.filter fun x => !decide (x.serial = e.serial) := by
    rw [dropLine_eq]
    rfl
  have started : (((clearMarks s).cue.without e).dropLine e).started = false := by
    rw [dropLine_eq]
    rfl
  have run (c : Nth) := dropLine_high ((clearMarks s).cue.without e) e c
  generalize hx : ((clearMarks s).cue.without e).dropLine e = x at list started run
  have closed := closes_finish s (a := (logEntry .itemSkipped (.cue e.serial) (.skipped .request)
    (raise .entryEnded ((clearMarks s).withCue x))).withCue x.recue) fun st =>
      absurd (started.symm.trans st) nofun
  have notes : Notified (raise .entryEnded ((clearMarks s).withCue x)) ((logEntry .itemSkipped (.cue e.serial) (.skipped .request)
      (raise .entryEnded ((clearMarks s).withCue x))).withCue x.recue) :=
    (notified_logEntry .itemSkipped (.cue e.serial) (.skipped .request) _).trans (notified_of_pi rfl)
  refine ⟨fun q high => closed.bit rfl notes high, ?_, fun c => ?_, closed.log, closed.frame_log rfl rfl⟩
  · rw [closed.list]
    refine (recue_identity x).trans ?_
    rw [list]
  · rw [closed.high]
    refine (run c).trans (if_congr Iff.rfl rfl ?_)
    show ((clearMarks s).cue.run.get c).high = _
    rw [clearMarks_get]

/-- In AUTO the CUED item that is left alone starts (R60, R61, R66). -/
theorem skipped_starts {s : State} {e x : CueEntry} {d : Nth} {m : Option Nat} {h : Segue} {qol : Policy}
    (list : s.cue.list = [e, x]) (other : x.serial ≠ e.serial) (playing : e.state = .playing) (state : x.state = .cued)
    (kind : x.kind = .item d m h qol) (timing : x.timing = .none) (channel : e.player ≠ some d) (mode : s.air.mode = .auto)
    (held : s.cue.held = false) (ready : s.alc.readyHead = none) :
    let u := finish s (settleList true (leaveSkipped .request e (clearMarks s)))
    (∀ q, (s.port q).init = .high → (u.port q).flags.getLsbD 1 = true ∧ (u.port q).flags.getLsbD 0 = true) ∧
    u.cue.list = [{ x with state := .playing, elapsed := 0, joinEnd := none, begun := s.boundaryNo }] ∧
    (∀ c, e.player = some c → (u.cue.run.get c).high = false) ∧ (u.cue.run.get d).high = (s.cue.run.get d).riseAfter.isNone ∧
    u.log = s.log.append (stamp s) .itemSkipped (.cue e.serial) (.skipped .request) ∧
    { u with cue := s.cue, log := s.log, pi := s.pi } = s := by
  rw [leaveSkipped_onAir (.inl playing)]
  have left : (((clearMarks s).cue.without e).dropLine e).list = [x] := by
    rw [dropLine_eq]
    show s.cue.list.filter _ = _
    rw [list]
    simp [other]
  have kept : (((clearMarks s).cue.without e).dropLine e).held = false := by
    rw [dropLine_eq]
    exact held
  have run (c : Nth) := cue_dropLine_get ((clearMarks s).cue.without e) e c
  generalize hy : ((clearMarks s).cue.without e).dropLine e = y at left kept run
  have join : joinEndAt x (logEntry .itemSkipped (.cue e.serial) (.skipped .request)
      (raise .entryEnded ((clearMarks s).withCue y))) = none := by
    unfold joinEndAt
    rw [kind]
  have starts := settleList_starts (s := logEntry .itemSkipped (.cue e.serial) (.skipped .request)
    (raise .entryEnded ((clearMarks s).withCue y))) (e := x) left (by rw [CueEntry.waits, state]; rfl)
    (by rw [CueEntry.startable, kind, timing]) (by show s.air.mode ≠ .live; rw [mode]; nofun) kept
  have start : settleList true (logEntry .itemSkipped (.cue e.serial) (.skipped .request)
      (raise .entryEnded ((clearMarks s).withCue y))) = raise .entryStarted ((logEntry .itemSkipped (.cue e.serial)
        (.skipped .request) (raise .entryEnded ((clearMarks s).withCue y))).withCue (y.play x 0 none s.boundaryNo)) := by
    have cued : ({ x with state := .cued } : CueEntry) = x := by rw [← state]
    rw [starts, join, cued]
    exact congrArg (fun z : CUE => raise .entryStarted ((logEntry .itemSkipped (.cue e.serial) (.skipped .request)
      (raise .entryEnded ((clearMarks s).withCue y))).withCue (z.play x 0 none s.boundaryNo)))
      (show ({ y with list := [x] } : CUE) = y by rw [← left])
  rw [start]
  obtain ⟨closed, list', high, -⟩ := closes_start s (logEntry .itemSkipped (.cue e.serial) (.skipped .request)
    (raise .entryEnded ((clearMarks s).withCue y))) (c := y) (e := x) 0 none s.boundaryNo left ready
  have notes : Notified (raise .entryEnded ((clearMarks s).withCue y)) (raise .entryStarted ((logEntry .itemSkipped (.cue e.serial)
      (.skipped .request) (raise .entryEnded ((clearMarks s).withCue y))).withCue (y.play x 0 none s.boundaryNo))) :=
    ((notified_logEntry .itemSkipped (.cue e.serial) (.skipped .request) _).trans (notified_of_pi rfl)).trans
      (notified_raise .entryStarted (State.withCue _ _))
  refine ⟨fun q up => ⟨closed.bit rfl notes up, ?_⟩, list', fun c player => ?_, ?_, closed.log, closed.frame_log rfl rfl⟩
  · have all : Notified s (finish s _) := (notified_of_pi rfl).trans ((notified_raise .entryEnded ((clearMarks s).withCue y)).trans
      (notes.trans closed.notified))
    exact closed.notified.bit (all.high up)
  · have not_ : x.player ≠ some c := fun eq => channel (by rw [player, ← eq, CueEntry.player, kind])
    refine (high c).trans ((if_neg not_).trans ?_)
    rw [run, if_pos player]
    rfl
  · refine (high d).trans ((if_pos (by rw [CueEntry.player, kind])).trans ?_)
    have line : y.run.get d = { s.cue.run.get d with fell := false } := by
      rw [run, if_neg channel]
      exact clearMarks_get s d
    rw [rise_high _ (by rw [line]), line]

/-- SKIP of the JOIN of a BREAK-IN gives the record back (R36, R37, R60). -/
theorem skipped_breakIn {s : State} {e : CueEntry} {f : Feed} {len : Nat} {r : ContextRecord} {rest : List ContextRecord}
    (list : s.cue.list = [e]) (playing : e.state = .playing) (kind : e.kind = .join f len) (held : s.cue.held = true)
    (stack : s.air.stack = r :: rest) (breakIn : r.kind = .breakIn) (suspended : r.suspended = none) (parked : r.parked = [])
    (chain : s.air.chain = .none) (distinct : ∀ x ∈ rest, x.number ≠ r.number) :
    let u := finish s (afterPlaying e (leaveSkipped .request e (clearMarks s)))
    (∀ q, (s.port q).init = .high → (u.port q).flags.getLsbD 1 = true) ∧ u.cue.list = [] ∧
    u.cue.held = (if rest = [] then false else true) ∧ u.air = { s.air with stack := rest, free := r.number :: s.air.free } ∧
    u.log = (s.log.append (stamp s) .itemSkipped (.cue e.serial) (.skipped .request)).append (stamp s) .joinEnd
      (.cue e.serial) (.number 0) ∧
    { u with air := s.air, cue := s.cue, log := s.log, pi := s.pi } = s := by
  have line : ((clearMarks s).cue.without e).dropLine e = (clearMarks s).cue.without e := by
    unfold CUE.dropLine CueEntry.player
    rw [kind]
  have left : ((clearMarks s).cue.without e).list = [] := without_singleton (x := (clearMarks s).cue) list
  rw [leaveSkipped_onAir (.inl playing), line]
  generalize hw : logEntry .itemSkipped (.cue e.serial) (.skipped .request)
    (raise .entryEnded ((clearMarks s).withCue ((clearMarks s).cue.without e))) = w
  have wlist : w.cue.list = [] := by rw [← hw]; exact left
  have wheld : w.cue.held = true := by rw [← hw]; exact held
  have wstack : w.air.stack = r :: rest := by rw [← hw]; exact stack
  have wchain : w.air.chain = .none := by rw [← hw]; exact chain
  have none_ : ∀ y ∈ w.cue.list, y.waits = false := by rw [wlist]; nofun
  have after : afterPlaying e w = logEntry .joinEnd (.cue e.serial) (.number 0) { w with
      air := { w.air with stack := rest, free := r.number :: w.air.free }
      cue := { w.cue with held := if rest = [] then false else w.cue.held } } := by
    rw [afterPlaying_breakIn e wheld none_ wstack breakIn wchain,
      popRecord_bare e.serial wstack distinct wchain suspended parked (cued_of_none_waits none_), breakIn]
    rfl
  rw [after]
  have closed := closes_finish s (a := logEntry .joinEnd (.cue e.serial) (.number 0) { w with
      air := { w.air with stack := rest, free := r.number :: w.air.free }
      cue := { w.cue with held := if rest = [] then false else w.cue.held } }) fun st => by
    rw [← hw] at st
    cases st
  have notes : Notified (raise .entryEnded ((clearMarks s).withCue ((clearMarks s).cue.without e)))
      (logEntry .joinEnd (.cue e.serial) (.number 0) { w with
        air := { w.air with stack := rest, free := r.number :: w.air.free }
        cue := { w.cue with held := if rest = [] then false else w.cue.held } }) := by
    refine ((notified_logEntry .itemSkipped (.cue e.serial) (.skipped .request) _).trans ?_).trans
      (notified_logEntry .joinEnd (.cue e.serial) (.number 0) { w with
        air := { w.air with stack := rest, free := r.number :: w.air.free }
        cue := { w.cue with held := if rest = [] then false else w.cue.held } })
    rw [hw]
    exact notified_of_pi rfl
  refine ⟨fun q high => closed.bit rfl notes high, closed.list.trans wlist, closed.held.trans ?_, closed.air.trans ?_,
    closed.log.trans ?_, closed.frame_air ?_ ?_⟩
  · show (if rest = [] then false else w.cue.held) = _
    rw [wheld]
  all_goals
    rw [← hw]
    rfl

/-- Settles O27: each case of DELETE and SKIP by what is left of the list and by what comes after it. -/
theorem deleteAndSkipRemoveAnEntry : Obligations.DeleteAndSkipRemoveAnEntry := by
  refine fun p n s => ⟨refusedOff_portsOf s (fun _ => rfl) rfl (by simp [halfBytes]) nofun, refusedOff_portsOf s (fun _ => rfl)
    rfl (by simp [halfBytes]) nofun, fun on ad as => ?_⟩
  have mem : p ∈ [PortId.a, PortId.b] := by simpa using on
  have del {t : State} {x : Reply} (own : eventReply (delete n) s = (t, x)) :
      exec (.delete p n) s = .next (replyTo p 27 x t) := exec_answers rfl rfl (by simp [halfBytes]) nofun mem ad own
  have ski {t : State} {x : Reply} (own : eventReply (skip n) s = (t, x)) :
      exec (.skip p n) s = .next (replyTo p 28 x t) := exec_answers rfl rfl (by simp [halfBytes]) nofun mem as own
  refine ⟨fun find_ => ⟨del (eventReply_refused ?_), ski (eventReply_refused ?_)⟩, fun e find_ state => del (eventReply_refused ?_),
    fun e find_ state => ski (eventReply_refused ?_), fun e find_ state live => ⟨?_, ?_⟩, fun e find_ state live => ?_, ?_⟩
  · unfold delete
    rw [show (clearMarks s).cue.find n.toNat = none from find_]
  · unfold skip
    rw [show (clearMarks s).cue.find n.toNat = none from find_]
  · unfold delete
    rw [show (clearMarks s).cue.find n.toNat = some e from find_]
    exact if_pos (by rcases state with h | h | h <;> simp [CueEntry.onAir, h])
  · unfold skip
    rw [show (clearMarks s).cue.find n.toNat = some e from find_]
    dsimp only
    rw [state]
  · have off : e.onAir = false := by rcases state with h | h <;> simp [CueEntry.onAir, h]
    have own := eventReply_taken (delete_leaves (s := clearMarks s) find_ off)
    obtain ⟨closed, list, run⟩ := settled_live (a := leave e (clearMarks s)) s (e := e) (by rw [leave_waits state]; exact live)
      (by rw [leave_waits state]; rfl)
    rw [leave_waits state] at closed list run own
    exact ⟨_, del own, list, run, closed.frame_of rfl rfl⟩
  · have other : e.state ≠ .suspended ∧ e.state ≠ .playing := by rcases state with h | h <;> simp [h]
    have own := eventReply_taken (skip_leaves (s := clearMarks s) find_ other.1 other.2)
    unfold leaveSkipped at own
    rw [leave_waits state] at own
    obtain ⟨closed, list, run⟩ := settled_live (a := logEntry .itemSkipped (.cue e.serial) (.skipped .request)
      ((clearMarks s).withCue ((clearMarks s).cue.without e))) s (e := e) live rfl
    exact ⟨_, ski own, list, closed.log, run, closed.frame_log rfl rfl⟩
  · intro forget gone
    refine ⟨?_, ?_⟩
    · have own := eventReply_taken (delete_leaves (s := clearMarks s) find_ (by simp [CueEntry.onAir, state]))
      rw [leave_cuedLate state] at own
      obtain ⟨closed, list, -⟩ := settled_live (a := clearLate e.serial ((clearMarks s).withCue ((clearMarks s).cue.without e))) s
        (e := e) live rfl
      exact ⟨_, del own, ⟨closed.air, list⟩,
        (congrArg (fun v : State => { v with air := s.air, cue := s.cue, pi := s.pi }) (closed.frame_same rfl) :)⟩
    · have own := eventReply_taken (skip_leaves (s := clearMarks s) find_ (by simp [state]) (by simp [state]))
      unfold leaveSkipped at own
      rw [leave_cuedLate state] at own
      obtain ⟨closed, list, -⟩ := settled_live (a := logEntry .itemSkipped (.cue e.serial) (.skipped .request)
        (clearLate e.serial ((clearMarks s).withCue ((clearMarks s).cue.without e)))) s (e := e) live rfl
      exact ⟨_, ski own, ⟨closed.air, list⟩, closed.log, closed.frame_air rfl rfl⟩
  · have fading_none {e x : CueEntry} (list : s.cue.list = [e, x]) (a : e.state ≠ .fading) (b : x.state ≠ .fading) :
        (clearMarks s).cue.fading = none := by
      show s.cue.list.find? _ = none
      rw [list]
      simp [a, b]
    refine ⟨fun e find_ state => ?_, fun e x c d len m g h pol qol list serial other playing kind state kindX timing channels mode
      held ready => ?_, fun e feed len r rest list serial playing kind held stack breakIn suspended parked chain distinct => ?_⟩
    · have onAir : e.state = .playing ∨ e.state = .fading := state.symm.imp And.left And.left
      have still : settleList true (leaveSkipped .request e (clearMarks s)) =
          (leaveSkipped .request e (clearMarks s)).withCue (((clearMarks s).cue.without e).dropLine e).recue := by
        rw [leaveSkipped_onAir onAir]
        rcases state with ⟨-, live | ⟨auto, q, playing, other⟩⟩ | ⟨-, live, -⟩
        · exact settleList_live live
        · refine settleList_playing (by show s.air.mode ≠ _; rw [auto]; nofun) ?_
          show (((clearMarks s).cue.without e).dropLine e).recue.playing ≠ none
          rw [recue_playing, dropLine_eq]
          show (s.cue.list.filter _).find? _ ≠ none
          have found : s.cue.list.find? _ = some q := playing
          have state : q.state = .playing := by simpa using List.find?_some found
          intro none_
          have no := List.find?_eq_none.1 none_ q (List.mem_filter.2 ⟨List.mem_of_find?_eq_some found, by simpa using other⟩)
          exact no (by simpa using state)
        · exact settleList_live live
      have done := skipped_onAir onAir still
      have own : eventReply (skip n) s = (finish s (settleList true (leaveSkipped .request e (clearMarks s))), ⟨.ok, []⟩) := by
        rcases state with ⟨fading, -⟩ | ⟨playing, -, held, fading⟩
        · exact eventReply_taken (skip_leaves (s := clearMarks s) find_ (by simp [fading]) (by simp [fading]))
        · have own := eventReply_taken (skip_plays (s := clearMarks s) find_ playing)
          rw [endFading_none (s := clearMarks s) fading, afterPlaying_free e] at own
          · exact own
          · rw [leaveSkipped_onAir (.inl playing), dropLine_eq]
            exact held
      obtain ⟨bits, list, high, log, frame⟩ := done
      exact ⟨_, ⟨ski own, bits⟩, list, high, log, frame⟩
    · have find_ : (clearMarks s).cue.find n.toNat = some e := by
        show s.cue.list.find? _ = _
        rw [list]
        simp [serial]
      have own := eventReply_taken (skip_plays find_ playing)
      rw [endFading_none (fading_none list (by rw [playing]; nofun) (by rw [state]; nofun))] at own
      have after : afterPlaying e (leaveSkipped .request e (clearMarks s)) =
          settleList true (leaveSkipped .request e (clearMarks s)) := by
        rw [leaveSkipped_onAir (.inl playing), dropLine_eq]
        exact afterPlaying_free e held
      rw [after] at own
      obtain ⟨bits, list', low, high, log, frame⟩ := skipped_starts list other playing state kindX timing
        (by rw [CueEntry.player, kind]; simpa using channels) mode held ready
      exact ⟨_, ⟨ski own, fun q up => (bits q up).1⟩, list', low c (by rw [CueEntry.player, kind]), high, fun q up => (bits q up).2, log,
        frame⟩
    · have find_ : (clearMarks s).cue.find n.toNat = some e := by
        show s.cue.list.find? _ = _
        rw [list]
        simp [serial]
      have none_ : (clearMarks s).cue.fading = none := by
        show s.cue.list.find? _ = none
        rw [list]
        simp [playing]
      have own := eventReply_taken (skip_plays find_ playing)
      rw [endFading_none none_] at own
      obtain ⟨bits, list', held', air, log, frame⟩ := skipped_breakIn list playing kind held stack breakIn suspended parked chain
        distinct
      exact ⟨_, ⟨ski own, bits⟩, list', held', air, log, frame⟩

end Sys2Proof.Machine
end

section
/-! Starts and STOPs passed over on a list that is known (R61, R64, R66, R67, R68). -/

namespace Sys2Proof.Machine

open Sys2Proof

/-- An entry starts, and nothing else on the list waits (R56, R62). -/
theorem recue_start {s : State} {e : CueEntry} (find_ : s.cue.find e.serial = some e)
    (others : ∀ y ∈ s.cue.list, y.serial ≠ e.serial → y.waits = false) : recue (startEntry e s) =
      raise .entryStarted (s.withCue (s.cue.play e 0 (joinEndAt e s) s.boundaryNo)) := by
  have started : startEntry e s = raise .entryStarted (s.withCue (s.cue.play e 0 (joinEndAt e s) s.boundaryNo)) :=
    setPlaying_eq _ _ find_
  rw [started]
  refine recue_still fun y mem => ?_
  have mem' : y ∈ (s.cue.play e 0 (joinEndAt e s) s.boundaryNo).list := mem
  rw [play_list] at mem'
  obtain ⟨z, hz, rfl⟩ := List.mem_map.1 mem'
  split
  · rfl
  · exact others z hz ‹_›

theorem recue_start_singleton {s : State} {e : CueEntry} (list : s.cue.list = [e]) : recue (startEntry e s) =
    raise .entryStarted (s.withCue (s.cue.play e 0 (joinEndAt e s) s.boundaryNo)) :=
  recue_start (find_singleton list) fun y mem other => by
    rw [list, List.mem_singleton] at mem
    exact absurd (congrArg CueEntry.serial mem) other

theorem joinEndAt_item {e : CueEntry} {ch : Nth} {len : Option Nat} {g : Segue} {pol : Policy} (s : State)
    (kind : e.kind = .item ch len g pol) : joinEndAt e s = none := by
  unfold joinEndAt
  rw [kind]

theorem joinEndAt_join {e : CueEntry} {f : Feed} {len : Nat} (s : State) (kind : e.kind = .join f len) :
    joinEndAt e s = some ((s.tb.clock + len) % 17280000) := by
  unfold joinEndAt
  rw [kind]
  rfl

theorem player_item {e : CueEntry} {ch : Nth} {len : Option Nat} {g : Segue} {pol : Policy} (kind : e.kind = .item ch len g pol) :
    e.player = some ch := by
  rw [CueEntry.player, kind]

theorem player_join {e : CueEntry} {f : Feed} {len : Nat} (kind : e.kind = .join f len) : e.player = none := by
  rw [CueEntry.player, kind]

theorem startable_item {e : CueEntry} {ch : Nth} {len : Option Nat} {g : Segue} {pol : Policy} (kind : e.kind = .item ch len g pol)
    (timing : e.timing = .none) : e.startable = true := by
  rw [CueEntry.startable, kind, timing]

/-- How an event closes in which one item's line has fallen and the item that is left alone starts (R61; log 41). -/
theorem closes_handover (b v : State) {c d : Nth} {e : CueEntry} {r : Nth → RunLine} (joinEnd : Option Nat) (now : Nat)
    (list : v.cue.list = [e]) (player : e.player = some d)
    (lines : ∀ k, v.cue.run.get k = if k = c then (r k).drop else r k) (fell : ∀ k, (r k).fell = false)
    (ready : v.alc.readyHead = none) :
    let a := raise .entryStarted (v.withCue (v.cue.play e 0 joinEnd now))
    let u := finish b a
    Closes b a u ∧ u.cue.list = [{ e with state := .playing, elapsed := 0, joinEnd := joinEnd, begun := now }] ∧
    (c ≠ d → (u.cue.run.get c).high = false ∧ (u.cue.run.get d).high = (r d).riseAfter.isNone) ∧
    (c = d → (r c).high = true → (u.cue.run.get c).high = false ∧ (u.cue.run.get c).riseAfter = some now) ∧
    (c = d → (r c).high = false →
      (u.cue.run.get c).high = (r c).riseAfter.isNone ∧ (u.cue.run.get c).riseAfter = (r c).riseAfter) := by
  obtain ⟨closed, list', -, -⟩ := closes_start b v (c := v.cue) 0 joinEnd now list ready
  have get (k : Nth) : (v.cue.play e 0 joinEnd now).run.get k =
      if d = k then (if k = c then (r k).drop else r k).rise now else if k = c then (r k).drop else r k := by
    rw [play_get, player, lines]
    exact if_congr ⟨Option.some.inj, congrArg some⟩ rfl rfl
  refine ⟨closed, list', fun other => ⟨?_, ?_⟩, ?_, ?_⟩
  · rw [closed.high]
    refine (congrArg RunLine.high (get c)).trans ?_
    rw [if_neg (Ne.symm other), if_pos rfl]
    rfl
  · rw [closed.high]
    refine (congrArg RunLine.high (get d)).trans ?_
    rw [if_pos rfl, if_neg (Ne.symm other), rise_high now (fell d)]
  · rintro rfl high
    have rose : (v.cue.play e 0 joinEnd now).run.get c = (r c).drop.rise now := by rw [get, if_pos rfl, if_pos rfl]
    have held : (r c).drop.fell = true := by simp [RunLine.drop, high]
    rw [closed.high, closed.riseAfter]
    refine ⟨(congrArg RunLine.high rose).trans ?_, (congrArg RunLine.riseAfter rose).trans ?_⟩
    · rw [RunLine.rise, if_pos held]
    · rw [RunLine.rise, if_pos held]
  · rintro rfl low
    have rose : (v.cue.play e 0 joinEnd now).run.get c = (r c).drop.rise now := by rw [get, if_pos rfl, if_pos rfl]
    have held : (r c).drop.fell = false := by simp [RunLine.drop, low, fell]
    rw [closed.high, closed.riseAfter]
    refine ⟨(congrArg RunLine.high rose).trans (rise_high now held), (congrArg RunLine.riseAfter rose).trans ?_⟩
    rw [RunLine.rise, held]
    rfl

/-- The lines after an item has left (R55, R61). -/
theorem without_line {x : CUE} {q : CueEntry} {c : Nth} (player : q.player = some c) (k : Nth) :
    ((x.without q).dropLine q).run.get k = if k = c then (x.run.get k).drop else x.run.get k := by
  rw [cue_dropLine_get, player]
  exact if_congr ⟨fun h => (Option.some.inj h).symm, fun h => congrArg some h.symm⟩ rfl rfl

/-- The first of the list leaves it, the serials differing (R53, R55). -/
theorem without_head {x : CUE} {q : CueEntry} {rest : List CueEntry} (list : x.list = q :: rest)
    (others : ∀ y ∈ rest, y.serial ≠ q.serial) : (x.without q).list = rest := by
  show x.list.filter _ = _
  rw [list, List.filter_cons_of_neg (by simp)]
  exact List.filter_eq_self.2 fun y mem => by simpa using others y mem

/-! ### STOPs (R67) -/

/-- A STOP that becomes CUED in UNATTENDED leaves at once, nothing waiting after it (R67). -/
theorem recueLoop_passes {s : State} {z : CueEntry} (n : Nat) (cued : s.cue.recue.cued = some z) (stop : z.kind = .stop)
    (mode : s.air.mode = .unattended) (fresh : s.cue.cued = none) (rest : ∀ y ∈ (s.cue.recue.without z).list, y.waits = false) :
    recueLoop (n + 2) s = (leaveSkipped .stopPassed z (s.withCue s.cue.recue), true) := by
  have state : z.state = .cued := by simpa using List.find?_some cued
  have gone : (leaveSkipped .stopPassed z (s.withCue s.cue.recue)).cue = s.cue.recue.without z := by
    unfold leaveSkipped
    rw [leave_waits (.inr state)]
    rfl
  have still := recueLoop_settles (s := leaveSkipped .stopPassed z (s.withCue s.cue.recue)) n
    (settles_of_none_waits (by rw [gone]; exact rest))
  rw [show (leaveSkipped .stopPassed z (s.withCue s.cue.recue)).cue.recue = (leaveSkipped .stopPassed z (s.withCue s.cue.recue)).cue
    from recue_of_none_waits (by rw [gone]; exact rest)] at still
  unfold recueLoop
  dsimp only
  rw [show (s.withCue s.cue.recue).cue.cued = some z from cued]
  dsimp only
  rw [if_pos ⟨stop, mode, by rw [fresh]; nofun⟩, still]
  rfl

/-- A STOP that is CUED leaves it, and the item after it is CUED (R56, R67). -/
theorem passStops_next {s : State} {before : List CueEntry} {z e : CueEntry} (list : s.cue.list = before ++ [z, e])
    (quiet : ∀ y ∈ before, y.waits = false ∧ y.serial ≠ z.serial ∧ y.kind ≠ .stop) (state : z.state = .cued) (stop : z.kind = .stop)
    (mode : s.air.mode = .unattended) (other : e.serial ≠ z.serial) (able : e.cueable = true) (kind : e.kind ≠ .stop) :
    passStops s = logEntry .itemSkipped (.cue z.serial) (.skipped .stopPassed)
      (s.withCue { s.cue with list := before ++ [{ e with state := .cued }] }) := by
  have cued : s.cue.cued = some z := by
    show s.cue.list.find? _ = _
    rw [list, List.find?_append, List.find?_eq_none.2 fun y mem => ?_, Option.none_or]
    · exact List.find?_cons_of_pos (by simpa using state)
    · have waits := (quiet y mem).1
      unfold CueEntry.waits at waits
      simp only [decide_eq_false_iff_not, not_or] at waits
      simpa using waits.2
  have left : (s.cue.without z).list = before ++ [e] := by
    show s.cue.list.filter _ = _
    rw [list, List.filter_append, List.filter_eq_self.2 fun y mem => by simpa using (quiet y mem).2.1]
    simp [other]
  have chosen : (s.cue.without z).recue = { s.cue with list := before ++ [{ e with state := .cued }] } := by
    have list' := recue_list left (fun y mem => (quiet y mem).1) able (List.forall_mem_nil _)
    show { s.cue with list := (s.cue.without z).recue.list } = _
    rw [list']
    rfl
  have settled : recue (leaveSkipped .stopPassed z s) = (leaveSkipped .stopPassed z s).withCue (s.cue.without z).recue := by
    unfold leaveSkipped
    rw [leave_waits (.inr state)]
    refine recue_settles (settles_of_no_stop fun y mem => ?_)
    have mem' : y ∈ (s.cue.without z).list := mem
    rw [left, List.mem_append, List.mem_singleton] at mem'
    rcases mem' with mem' | rfl
    · exact (quiet y mem').2.2
    · exact kind
  rw [passStops_passes cued stop mode, settled, chosen]
  unfold leaveSkipped
  rw [leave_waits (.inr state)]
  rfl

/-- The idle start after a STOP was passed over is the idle start of what it left (R66, R67). -/
theorem considerIdle_pass {s : State} (pass : passStops (passStops s) = passStops s) :
    considerIdle s = considerIdle (passStops s) := by
  unfold considerIdle
  rw [pass]

theorem passStops_start_state {s w : State} (h : passStops s = w) (kind : ∀ y ∈ w.cue.list, y.kind ≠ .stop) :
    considerIdle s = considerIdle w := by
  have again : passStops w = w := passStops_of_kind fun y cued => kind y (List.mem_of_find?_eq_some cued)
  rw [considerIdle_pass (by rw [h, again]), h]

/-- The idle start of the one entry of the list (R66). -/
theorem considerIdle_singleton {s : State} {e : CueEntry} (list : s.cue.list = [e]) (state : e.state = .cued)
    (able : e.startable = true) (mode : s.air.mode ≠ .live) (held : s.cue.held = false) : considerIdle s =
      raise .entryStarted (s.withCue (s.cue.play e 0 (joinEndAt e s) s.boundaryNo)) := by
  have stop : e.kind ≠ .stop := fun stop => by
    rw [CueEntry.startable, stop] at able
    cases able
  have cued : s.cue.cued = some e := by
    show s.cue.list.find? _ = _
    rw [list]
    simp [state]
  have idle : s.cue.playing = none := by
    show s.cue.list.find? _ = none
    rw [list]
    simp [state]
  rw [considerIdle_starts (passStops_of_kind fun y found => ?_) mode idle held cued able, recue_start_singleton list]
  rw [cued] at found
  rw [← Option.some.inj found]
  exact stop

end Sys2Proof.Machine
end

section
/-! TAKE and ITEM END (R54, R61, R62, R64, R66 to R69, R72). -/

namespace Sys2Proof.Machine

open Sys2Proof

/-- TAKE takes the CUED entry that it names or leaves to the list (R68). -/
theorem take_takes {expected : Option Half} {s : State} {e : CueEntry} (held : s.cue.held = false) (cued : s.cue.cued = some e)
    (named : ∀ n, expected = some n → n.toNat = e.serial) : take expected s = (takeEntry e s, ⟨.ok, []⟩) := by
  unfold take
  rw [if_neg (by rw [held]; nofun), cued]
  cases expected with
  | none => rfl
  | some n => exact if_pos (named n rfl).symm

/-- The one CUED ITEM or JOIN starts (R61, R62, R72). -/
theorem takeEntry_starts {s : State} {e : CueEntry} (list : s.cue.list = [e]) (state : e.state = .cued) (kind : e.kind ≠ .stop) :
    takeEntry e s = raise .entryStarted (s.withCue (s.cue.play e 0 (joinEndAt e s) s.boundaryNo)) := by
  have fading : s.cue.fading = none := by
    show s.cue.list.find? _ = none
    rw [list]
    simp [state]
  have playing : s.cue.playing = none := by
    show s.cue.list.find? _ = none
    rw [list]
    simp [state]
  unfold takeEntry
  rw [if_neg kind, endFading_none fading]
  dsimp only
  rw [playing]
  exact recue_start_singleton list

/-- A PLAYING entry ends and the CUED one starts (R61, R68). -/
theorem takeEntry_replaces {s : State} {q e : CueEntry} (list : s.cue.list = [q, e]) (other : q.serial ≠ e.serial)
    (playing : q.state = .playing) (state : e.state = .cued) (kind : e.kind ≠ .stop) : takeEntry e s =
      raise .entryStarted ((leave q s).withCue (((s.cue.without q).dropLine q).play e 0 (joinEndAt e s) s.boundaryNo)) := by
  have fading : s.cue.fading = none := by
    show s.cue.list.find? _ = none
    rw [list]
    simp [state, playing]
  have plays : s.cue.playing = some q := by
    show s.cue.list.find? _ = some q
    rw [list]
    simp [playing]
  have left : ((s.cue.without q).dropLine q).list = [e] := by
    rw [cue_dropLine_list]
    exact without_head list (by simpa using other.symm)
  unfold takeEntry
  rw [if_neg kind, endFading_none fading]
  dsimp only
  rw [plays]
  dsimp only
  rw [leave_onAir (.inl playing)]
  exact recue_start_singleton (s := raise .entryEnded (s.withCue ((s.cue.without q).dropLine q))) left

/-! ### Segues (R64) -/

theorem automatic_of_ne_live {m : Mode} (h : m ≠ .live) : m.automatic = true := by
  cases m with
  | live => exact absurd rfl h
  | _ => rfl

/-- The PLAYING entry comes to its segue point with an item CUED that the sequence may start (R63, R64). -/
theorem reachSegue_goes {s : State} {q e : CueEntry} (fading : s.cue.fading = none) (pass : passStops s = s)
    (cued : s.cue.cued = some e) (able : e.startable = true) (mode : s.air.mode ≠ .live) (held : s.cue.held = false) :
    reachSegue q s = segueTo q e s := by
  unfold reachSegue
  rw [endFading_none fading]
  dsimp only
  rw [if_pos (automatic_of_ne_live mode), pass, cued, held]
  exact if_pos able

/-- A cut: the outgoing entry leaves as DONE and the incoming one starts (R64). -/
theorem segueTo_cut {s : State} {q e : CueEntry} (list : s.cue.list = [q, e]) (other : q.serial ≠ e.serial)
    (playing : q.state = .playing) (fading : s.cue.fading = none) (cut : crossfades q e = false) : segueTo q e s =
      raise .entryStarted ((leave q s).withCue (((s.cue.without q).dropLine q).play e 0 (joinEndAt e s) s.boundaryNo)) := by
  have left : ((s.cue.without q).dropLine q).list = [e] := by
    rw [cue_dropLine_list]
    exact without_head list (by simpa using other.symm)
  unfold segueTo
  rw [endFading_none fading]
  dsimp only
  rw [cut, leave_onAir (.inl playing)]
  exact recue_start_singleton (s := raise .entryEnded (s.withCue ((s.cue.without q).dropLine q))) left

/-- A crossfade: the outgoing item goes on as FADING and the incoming one starts (R64). -/
theorem segueTo_fade {s : State} {q e : CueEntry} (list : s.cue.list = [q, e]) (other : q.serial ≠ e.serial)
    (fading : s.cue.fading = none) (fade : crossfades q e = true) : segueTo q e s = raise .entryStarted (s.withCue
      ({ s.cue with list := [{ q with state := .fading }, e] }.play e 0 (joinEndAt e s) s.boundaryNo)) := by
  have changed : s.cue.modify q.serial (fun y => { y with state := .fading }) =
      { s.cue with list := [{ q with state := .fading }, e] } := by
    unfold CUE.modify
    rw [list]
    simp [other.symm]
  unfold segueTo
  rw [endFading_none fading]
  dsimp only
  rw [fade, changed]
  refine recue_start (s := s.withCue { s.cue with list := [{ q with state := .fading }, e] }) ?_ fun y mem not_ => ?_
  · show List.find? _ [{ q with state := .fading }, e] = some e
    rw [List.find?_cons_of_neg (by simpa using other)]
    exact List.find?_cons_of_pos (by simp)
  · have mem' : y ∈ [{ q with state := .fading }, e] := mem
    simp only [List.mem_cons, List.not_mem_nil, or_false] at mem'
    rcases mem' with rfl | rfl
    · rfl
    · exact absurd rfl not_

/-- CUE's look-ups on a list of one entry that plays and one that is CUED. -/
theorem pair_states {x : CUE} {q e : CueEntry} (list : x.list = [q, e]) (playing : q.state = .playing) (state : e.state = .cued) :
    x.fading = none ∧ x.playing = some q ∧ x.cued = some e := by
  refine ⟨?_, ?_, ?_⟩
  · show x.list.find? _ = none
    rw [list]
    simp [playing, state]
  · show x.list.find? _ = some q
    rw [list]
    simp [playing]
  · show x.list.find? _ = some e
    rw [list]
    simp [playing, state]

theorem passStops_pair {s : State} {q e : CueEntry} (list : s.cue.list = [q, e]) (playing : q.state = .playing)
    (state : e.state = .cued) (kind : e.kind ≠ .stop) : passStops s = s :=
  passStops_of_kind fun y cued => by
    rw [(pair_states list playing state).2.2] at cued
    rwa [← Option.some.inj cued]

/-- At the segue point of an item with CUT, or with FADE into its own channel (R64). -/
theorem reachSegue_cut {s : State} {q e : CueEntry} (list : s.cue.list = [q, e]) (other : q.serial ≠ e.serial)
    (playing : q.state = .playing) (state : e.state = .cued) (able : e.startable = true) (kind : e.kind ≠ .stop)
    (mode : s.air.mode ≠ .live) (held : s.cue.held = false) (cut : crossfades q e = false) : reachSegue q s =
      raise .entryStarted ((leave q s).withCue (((s.cue.without q).dropLine q).play e 0 (joinEndAt e s) s.boundaryNo)) := by
  obtain ⟨fading, -, cued⟩ := pair_states list playing state
  rw [reachSegue_goes fading (passStops_pair list playing state kind) cued able mode held]
  exact segueTo_cut list other playing fading cut

/-- At the segue point of an item with FADE (R64). -/
theorem reachSegue_fade {s : State} {q e : CueEntry} (list : s.cue.list = [q, e]) (other : q.serial ≠ e.serial)
    (playing : q.state = .playing) (state : e.state = .cued) (able : e.startable = true) (kind : e.kind ≠ .stop)
    (mode : s.air.mode ≠ .live) (held : s.cue.held = false) (fade : crossfades q e = true) : reachSegue q s =
      raise .entryStarted (s.withCue ({ s.cue with list := [{ q with state := .fading }, e] }.play e 0 (joinEndAt e s) s.boundaryNo)) := by
  obtain ⟨fading, -, cued⟩ := pair_states list playing state
  rw [reachSegue_goes fading (passStops_pair list playing state kind) cued able mode held]
  exact segueTo_fade list other fading fade

/-- In UNATTENDED a CUED STOP is passed over at the segue point, and the item after it starts (R64, R67). -/
theorem reachSegue_stop {s : State} {q z e : CueEntry} {c : Nth} {len : Option Nat} {g : Segue} {pol : Policy}
    (list : s.cue.list = [q, z, e]) (serials : [q.serial, z.serial, e.serial].Nodup) (playing : q.state = .playing)
    (kindQ : q.kind = .item c len g pol) (state : z.state = .cued) (stop : z.kind = .stop) (waiting : e.waits = true)
    (timing : e.timing = .none) (kind : e.kind ≠ .stop) (mode : s.air.mode = .unattended) (held : s.cue.held = false)
    (cut : crossfades q e = false) : ∃ v : State, reachSegue q s =
        raise .entryStarted (v.withCue (v.cue.play { e with state := .cued } 0 (joinEndAt e s) s.boundaryNo)) ∧
      { v with cue := s.cue, log := s.log, pi := s.pi } = s ∧ v.cue.list = [{ e with state := .cued }] ∧
      (∀ k, v.cue.run.get k = if k = c then (s.cue.run.get k).drop else s.cue.run.get k) ∧
      v.log = s.log.append (stamp s) .itemSkipped (.cue z.serial) (.skipped .stopPassed) := by
  simp only [List.nodup_cons, List.mem_cons, List.not_mem_nil, or_false, not_or, List.nodup_nil, not_false_eq_true, and_true] at serials
  obtain ⟨⟨qz, qe⟩, ze⟩ := serials
  have cueable : e.cueable = true := by
    rw [CueEntry.cueable, waiting, CueEntry.breaksIn, timing]
    rfl
  have able : e.startable = true := by
    rw [CueEntry.startable, timing]
    cases h : e.kind with
    | stop => exact absurd h kind
    | _ => rfl
  have pass := passStops_next (before := [q]) list (fun y mem => by
    rw [List.mem_singleton.1 mem]
    exact ⟨by rw [CueEntry.waits, playing]; rfl, qz, by rw [kindQ]; nofun⟩) state stop mode (Ne.symm ze) cueable kind
  generalize hw : logEntry .itemSkipped (.cue z.serial) (.skipped .stopPassed)
    (s.withCue { s.cue with list := [q] ++ [{ e with state := .cued }] }) = w at pass
  have wlist : w.cue.list = [q, { e with state := .cued }] := by rw [← hw]; rfl
  have left : ((w.cue.without q).dropLine q).list = [{ e with state := .cued }] := by
    rw [cue_dropLine_list]
    exact without_head wlist (by simpa using Ne.symm qe)
  obtain ⟨wfading, -, wcued⟩ := pair_states wlist playing rfl
  have fading : s.cue.fading = none := by
    show s.cue.list.find? _ = none
    have waits : e.state ≠ .fading := fun h => by
      rw [CueEntry.waits, h] at waiting
      cases waiting
    rw [list]
    simp [playing, state, waits]
  have goes : reachSegue q s = segueTo q { e with state := .cued } w := by
    unfold reachSegue
    rw [endFading_none fading]
    dsimp only
    rw [if_pos (automatic_of_ne_live (by rw [mode]; nofun)), pass, wcued, show w.cue.held = false by rw [← hw]; exact held]
    exact if_pos able
  refine ⟨raise .entryEnded (w.withCue ((w.cue.without q).dropLine q)), ?_, ?_, left, fun k => ?_, ?_⟩
  · rw [goes, segueTo_cut wlist qe playing wfading cut, leave_onAir (.inl playing)]
    rw [← hw]
    rfl
  · rw [← hw]
    rfl
  · refine (without_line (player_item kindQ) k).trans ?_
    rw [← hw]
    rfl
  · rw [← hw]
    rfl

theorem crossfades_cut {q e : CueEntry} {c : Nth} {len : Option Nat} {pol : Policy} (kind : q.kind = .item c len .cut pol) :
    crossfades q e = false := by
  rw [crossfades, CueEntry.fade, kind]
  rfl

theorem crossfades_fade {q e : CueEntry} {c : Nth} {len : Option Nat} {f : Nat} {pol : Policy} (kind : q.kind = .item c len (.fade f) pol)
    (other : e.player ≠ some c) : crossfades q e = true := by
  rw [crossfades, CueEntry.fade, player_item kind, kind]
  simpa using Ne.symm other

end Sys2Proof.Machine
end

section
/-! ITEM END, and the events in which items start and end (R54, R61, R62, R64, R66 to R69, R72). -/

namespace Sys2Proof.Machine

open Sys2Proof

/-- A notice raised in the course of an event stands at its end, the pin having been high before it (R191, R194). -/
theorem Closes.raised {b a u : State} (h : Closes b a u) {k : Notice} {s v : State} (before : Notified s v)
    (raised : Notified (raise k v) a) {q : PortId} (high : (s.port q).init = .high) : (u.port q).flags.getLsbD k.bit = true :=
  (raised.trans h.notified).bit ((before.trans ((notified_raise k v).trans (raised.trans h.notified))).high high)

/-- With nothing that waits the list settles as it is (R56). -/
theorem settleList_still {s : State} (h : ∀ y ∈ s.cue.list, y.waits = false) : settleList true s = s := by
  rw [settleList_eq (settles_of_none_waits h), recue_of_none_waits h]
  exact considerIdle_of_no_cued (cued_of_none_waits h)

/-- ITEM END of an item that plays (R69). -/
theorem itemEnd_ends {n : Half} {s : State} {q : CueEntry} {c : Nth} {len : Option Nat} {g : Segue} {pol : Policy}
    (find_ : s.cue.find n.toNat = some q) (playing : q.state = .playing) (kind : q.kind = .item c len g pol) :
    itemEnd n s = ((if len.isSome then endPlaying q s else itemEnds q s), ⟨.ok, []⟩) := by
  unfold itemEnd
  rw [find_]
  dsimp only
  rw [if_neg (by rw [playing, CueEntry.feed, kind]; simp), CueEntry.length, kind]
  dsimp only
  split <;> rfl

/-- The one entry of the list ends in LIVE (R54, R62). -/
theorem endPlaying_live {s : State} {q : CueEntry} (list : s.cue.list = [q]) (playing : q.state = .playing)
    (held : s.cue.held = false) : endPlaying q s = raise .entryEnded (s.withCue ((s.cue.without q).dropLine q)) := by
  have fading : s.cue.fading = none := by
    show s.cue.list.find? _ = none
    rw [list]
    simp [playing]
  have gone : ((s.cue.without q).dropLine q).list = [] := by
    rw [cue_dropLine_list]
    exact without_singleton list
  have kept : ((s.cue.without q).dropLine q).held = false := by
    rw [dropLine_eq]
    exact held
  unfold endPlaying
  rw [endFading_none fading, leave_onAir (.inl playing), afterPlaying_free q kept]
  refine settleList_still fun y mem => ?_
  have mem' : y ∈ ((s.cue.without q).dropLine q).list := mem
  rw [gone] at mem'
  cases mem'

/-- In LIVE there is no segue: an open-length item ends where it stands (R64, R69). -/
theorem itemEnds_live {s : State} {q : CueEntry} (list : s.cue.list = [q]) (playing : q.state = .playing)
    (mode : s.air.mode = .live) : itemEnds q s = endPlaying q s := by
  have fading : s.cue.fading = none := by
    show s.cue.list.find? _ = none
    rw [list]
    simp [playing]
  have stays : reachSegue q s = s := by
    unfold reachSegue
    rw [endFading_none fading]
    exact if_neg (by rw [mode]; nofun)
  unfold itemEnds
  dsimp only
  rw [stays, find_singleton list]
  exact if_pos playing

/-- How an event closes in which the one item of the list has ended (R61, R62). -/
theorem closes_ended (b v : State) {q : CueEntry} {c : Nth} (list : v.cue.list = [q]) (player : q.player = some c)
    (started : v.cue.started = false) :
    let a := raise .entryEnded (v.withCue ((v.cue.without q).dropLine q))
    Closes b a (finish b a) ∧ (finish b a).cue.list = [] ∧ ((finish b a).cue.run.get c).high = false ∧
    ∀ k, k ≠ c → ((finish b a).cue.run.get k).high = (v.cue.run.get k).high := by
  have closed := closes_finish b (a := raise .entryEnded (v.withCue ((v.cue.without q).dropLine q))) fun st => by
    rw [show (raise .entryEnded (v.withCue ((v.cue.without q).dropLine q))).cue = (v.cue.without q).dropLine q from rfl,
      dropLine_eq] at st
    exact absurd (started.symm.trans st) nofun
  have high (k : Nth) : ((finish b (raise .entryEnded (v.withCue ((v.cue.without q).dropLine q)))).cue.run.get k).high =
      if q.player = some k then false else (v.cue.run.get k).high := by
    rw [closed.high]
    exact dropLine_high (v.cue.without q) q k
  refine ⟨closed, closed.list.trans ?_, ?_, fun k other => ?_⟩
  · exact (cue_dropLine_list _ _).trans (without_singleton list)
  · rw [high, if_pos player]
  · rw [high, if_neg (by rw [player]; simpa using other.symm)]

/-- An open-length item that gave way at its segue point has ended (R69). -/
theorem itemEnds_gone {s v : State} {x : CUE} {q e : CueEntry} {elapsed now : Nat} {joinEnd : Option Nat}
    (goes : reachSegue q s = raise .entryStarted (v.withCue (x.play e elapsed joinEnd now))) (list : x.list = [e])
    (other : e.serial ≠ q.serial) : itemEnds q s = raise .entryStarted (v.withCue (x.play e elapsed joinEnd now)) := by
  have gone : (raise .entryStarted (v.withCue (x.play e elapsed joinEnd now))).cue.find q.serial = none := by
    show (x.play e elapsed joinEnd now).list.find? _ = none
    rw [play_singleton list]
    simp [other]
  unfold itemEnds
  dsimp only
  rw [goes, gone]

/-- ITEM END with a cut gives way to the CUED item, by the idle start or by the segue (R64, R66, R69). -/
theorem itemEnd_cuts {s : State} {q e : CueEntry} {c : Nth} {len : Option Nat} {g : Segue} {pol : Policy} (list : s.cue.list = [q, e])
    (other : q.serial ≠ e.serial) (playing : q.state = .playing) (kind : q.kind = .item c len g pol) (state : e.state = .cued)
    (able : e.startable = true) (stop : e.kind ≠ .stop) (mode : s.air.mode ≠ .live) (held : s.cue.held = false)
    (cut : len ≠ none ∨ g = .cut) : (if len.isSome then endPlaying q s else itemEnds q s) =
      raise .entryStarted ((leave q s).withCue (((s.cue.without q).dropLine q).play e 0 (joinEndAt e s) s.boundaryNo)) := by
  have left : ((s.cue.without q).dropLine q).list = [e] := by
    rw [cue_dropLine_list]
    exact without_head list (by simpa using other.symm)
  cases len with
  | some l =>
    rw [Option.isSome_some, if_pos rfl]
    have kept : ((s.cue.without q).dropLine q).held = false := by
      rw [dropLine_eq]
      exact held
    have same : ({ (s.cue.without q).dropLine q with list := [{ e with state := .cued }] } : CUE) = (s.cue.without q).dropLine q := by
      rw [← state, ← left]
    unfold endPlaying
    rw [endFading_none (pair_states list playing state).1, leave_onAir (.inl playing), afterPlaying_free q kept,
      settleList_starts (s := raise .entryEnded (s.withCue ((s.cue.without q).dropLine q))) (e := e) left (by rw [CueEntry.waits, state]; rfl) able mode kept]
    have cued : ({ e with state := .cued } : CueEntry) = e := by rw [← state]
    rw [cued] at same ⊢
    exact congrArg (fun z : CUE => raise .entryStarted ((raise .entryEnded (s.withCue ((s.cue.without q).dropLine q))).withCue
      (z.play e 0 (joinEndAt e s) s.boundaryNo))) same
  | none =>
    rw [if_neg nofun]
    have goes := reachSegue_cut list other playing state able stop mode held
      (crossfades_cut (by rw [kind, cut.resolve_left (not_not_intro rfl)]))
    exact itemEnds_gone goes left other.symm

/-- In UNATTENDED ITEM END passes over the STOP that is CUED, and the item after it starts (R64, R66, R67, R69). -/
theorem itemEnd_passes {s : State} {q z e : CueEntry} {c : Nth} {len : Option Nat} {g : Segue} {pol : Policy}
    (list : s.cue.list = [q, z, e]) (serials : [q.serial, z.serial, e.serial].Nodup) (playing : q.state = .playing)
    (kind : q.kind = .item c len g pol) (state : z.state = .cued) (stop : z.kind = .stop) (timingZ : z.timing = .none)
    (waiting : e.state = .waiting) (timing : e.timing = .none) (kindE : e.kind ≠ .stop) (mode : s.air.mode = .unattended)
    (held : s.cue.held = false) (cut : len ≠ none ∨ g = .cut) :
    ∃ v : State, (if len.isSome then endPlaying q s else itemEnds q s) =
        raise .entryStarted (v.withCue (v.cue.play { e with state := .cued } 0 (joinEndAt e s) s.boundaryNo)) ∧
      { v with cue := s.cue, log := s.log, pi := s.pi } = s ∧ v.cue.list = [{ e with state := .cued }] ∧
      (∀ k, v.cue.run.get k = if k = c then (s.cue.run.get k).drop else s.cue.run.get k) ∧
      v.log = s.log.append (stamp s) .itemSkipped (.cue z.serial) (.skipped .stopPassed) := by
  have player : q.player = some c := player_item kind
  cases len with
  | some l =>
    rw [Option.isSome_some, if_pos rfl]
    have distinct := serials
    simp only [List.nodup_cons, List.mem_cons, List.not_mem_nil, or_false, not_or, List.nodup_nil, not_false_eq_true, and_true]
      at distinct
    obtain ⟨⟨qz, qe⟩, ze⟩ := distinct
    have fading : s.cue.fading = none := by
      show s.cue.list.find? _ = none
      rw [list]
      simp [playing, state, waiting]
    have left : ((s.cue.without q).dropLine q).list = [z, e] := by
      rw [cue_dropLine_list]
      refine without_head list fun y mem => ?_
      simp only [List.mem_cons, List.not_mem_nil, or_false] at mem
      rcases mem with rfl | rfl
      · exact Ne.symm qz
      · exact Ne.symm qe
    have kept : ((s.cue.without q).dropLine q).held = false := by
      rw [dropLine_eq]
      exact held
    have lines := without_line (x := s.cue) player
    generalize hx : (s.cue.without q).dropLine q = x at left kept lines
    have chosen : x.recue = x := recue_keeps (before := []) left (List.forall_mem_nil _)
      (by rw [CueEntry.cueable, CueEntry.waits, state, CueEntry.breaksIn, timingZ]; rfl) state
      fun y mem => by
        rw [List.mem_singleton.1 mem]
        exact ⟨Ne.symm ze, fun _ => waiting⟩
    have cued : x.cued = some z := by
      show x.list.find? _ = _
      rw [left]
      exact List.find?_cons_of_pos (by simpa using state)
    have settles : x.Settles .unattended := fun y found => by
      rw [chosen, cued] at found
      rw [cued, ← Option.some.inj found]
      exact .inr (.inr rfl)
    have settled : settleList true (raise .entryEnded (s.withCue x)) = considerIdle (raise .entryEnded (s.withCue x)) := by
      rw [settleList_eq (s := raise .entryEnded (s.withCue x)) (by show x.Settles s.air.mode; rw [mode]; exact settles)]
      exact congrArg considerIdle (congrArg (raise .entryEnded (s.withCue x)).withCue chosen)
    have pass := passStops_next (s := raise .entryEnded (s.withCue x)) (before := []) left (List.forall_mem_nil _) state stop mode (Ne.symm ze)
      (by rw [CueEntry.cueable, CueEntry.waits, waiting, CueEntry.breaksIn, timing]; rfl) kindE
    unfold endPlaying
    rw [endFading_none fading, leave_onAir (.inl playing), hx,
      afterPlaying_free (s := raise .entryEnded (s.withCue x)) q kept, settled,
      passStops_start_state pass fun y mem => by rw [List.mem_singleton.1 mem]; exact kindE]
    refine ⟨_, considerIdle_singleton (e := { e with state := .cued }) rfl rfl ?_ (by show s.air.mode ≠ .live; rw [mode]; nofun)
      kept, rfl, rfl, lines, rfl⟩
    rw [CueEntry.startable, timing]
    cases h : e.kind with
    | stop => exact absurd h kindE
    | _ => rfl
  | none =>
    have cut' : g = .cut := cut.resolve_left (not_not_intro rfl)
    rw [Option.isSome_none, if_neg nofun]
    obtain ⟨v, goes, frame, left, lines, log⟩ := reachSegue_stop list serials playing kind state stop
      (by rw [CueEntry.waits, waiting]; rfl) timing kindE mode held (crossfades_cut (by rw [kind, cut']))
    simp only [List.nodup_cons, List.mem_cons, List.not_mem_nil, or_false, not_or] at serials
    obtain ⟨⟨-, qe⟩, -⟩ := serials
    exact ⟨v, itemEnds_gone goes left (Ne.symm qe), frame, left, lines, log⟩

end Sys2Proof.Machine
end

section
/-! The clauses of TAKE and ITEM END (R54, R61, R62, R64, R66 to R69, R72). -/

namespace Sys2Proof.Machine

open Sys2Proof

variable {s : State}

theorem clearMarks_lines {e : CueEntry} {c : Nth} (player : e.player = some c) (k : Nth) :
    (((clearMarks s).cue.without e).dropLine e).run.get k =
      if k = c then ({ s.cue.run.get k with fell := false } : RunLine).drop else { s.cue.run.get k with fell := false } := by
  rw [without_line player, clearMarks_get]

/-- The one CUED entry is taken (R61, R62, R72). -/
theorem take_starts {e : CueEntry} (list : s.cue.list = [e]) (state : e.state = .cued) (kind : e.kind ≠ .stop)
    (ready : s.alc.readyHead = none) :
    let u := finish s (takeEntry e (clearMarks s))
    u.cue.list = [{ e with state := .playing, elapsed := 0, joinEnd := joinEndAt e s, begun := s.boundaryNo }] ∧
    (∀ c, (u.cue.run.get c).high = if e.player = some c then (s.cue.run.get c).riseAfter.isNone else (s.cue.run.get c).high) ∧
    (∀ q, (s.port q).init = .high → (u.port q).flags.getLsbD 0 = true) ∧ { u with cue := s.cue, pi := s.pi } = s := by
  have taken := takeEntry_starts (s := clearMarks s) list state kind
  obtain ⟨closed, list', high, -⟩ := closes_start s (clearMarks s) (c := (clearMarks s).cue) 0 (joinEndAt e (clearMarks s))
    s.boundaryNo list ready
  rw [taken]
  refine ⟨list', fun c => (high c).trans ?_, fun q up => closed.bit (k := .entryStarted) (v := (clearMarks s).withCue _) rfl
    (fun _ => ⟨rfl, fun _ h => h⟩) up, closed.frame_of rfl rfl⟩
  rw [clearMarks_get]
  exact if_congr Iff.rfl (rise_high _ rfl) rfl

/-- A STOP that is taken leaves as DONE (R68). -/
theorem take_stop {e : CueEntry} (list : s.cue.list = [e]) (state : e.state = .cued) (stop : e.kind = .stop) :
    let u := finish s (takeEntry e (clearMarks s))
    u.cue.list = [] ∧ { u with cue := s.cue, pi := s.pi } = s := by
  have gone : ((clearMarks s).cue.without e).list = [] := without_singleton (x := (clearMarks s).cue) list
  have taken : takeEntry e (clearMarks s) = (clearMarks s).withCue ((clearMarks s).cue.without e) := by
    unfold takeEntry
    rw [if_pos stop, leave_waits (.inr state)]
    refine settleList_still fun y mem => ?_
    have mem' : y ∈ ((clearMarks s).cue.without e).list := mem
    rw [gone] at mem'
    cases mem'
  rw [taken]
  have closed := closes_finish s (a := (clearMarks s).withCue ((clearMarks s).cue.without e)) fun st => by cases st
  exact ⟨closed.list.trans gone, closed.frame_of rfl rfl⟩

/-- The run lines when one item gives way to another (R61; log 41). -/
def HandsOver (c d : Nth) (s u : State) : Prop :=
  (c ≠ d → (u.cue.run.get c).high = false ∧ (u.cue.run.get d).high = (s.cue.run.get d).riseAfter.isNone) ∧
  (c = d → (s.cue.run.get c).high = true → (u.cue.run.get c).high = false ∧ (u.cue.run.get c).riseAfter = some s.boundaryNo) ∧
  (c = d → (s.cue.run.get c).high = false → (u.cue.run.get c).high = (s.cue.run.get c).riseAfter.isNone ∧
    (u.cue.run.get c).riseAfter = (s.cue.run.get c).riseAfter)

/-- A cut in an event of CUE alone: one item ends and another starts (R61, R62, R64). -/
theorem cut_closes {q e : CueEntry} {c d : Nth} {joinEnd : Option Nat} (list : s.cue.list = [q, e]) (other : q.serial ≠ e.serial)
    (playing : q.state = .playing) (playerQ : q.player = some c) (player : e.player = some d) (ready : s.alc.readyHead = none) :
    let u := finish s (raise .entryStarted ((leave q (clearMarks s)).withCue
      ((((clearMarks s).cue.without q).dropLine q).play e 0 joinEnd s.boundaryNo)))
    u.cue.list = [{ e with state := .playing, elapsed := 0, joinEnd := joinEnd, begun := s.boundaryNo }] ∧ HandsOver c d s u ∧
    (∀ x, (s.port x).init = .high → (u.port x).flags.getLsbD 0 = true ∧ (u.port x).flags.getLsbD 1 = true) ∧
    { u with cue := s.cue, pi := s.pi } = s := by
  have left : (((clearMarks s).cue.without q).dropLine q).list = [e] := by
    rw [cue_dropLine_list]
    exact without_head (x := (clearMarks s).cue) list (by simpa using other.symm)
  rw [leave_onAir (.inl playing)]
  have lines := clearMarks_lines (s := s) playerQ
  generalize ((clearMarks s).cue.without q).dropLine q = x at left lines
  obtain ⟨closed, list', moves⟩ := closes_handover s (raise .entryEnded ((clearMarks s).withCue x)) joinEnd s.boundaryNo left
    player lines (fun _ => rfl) ready
  refine ⟨list', moves, fun p up => ⟨?_, ?_⟩, closed.frame_of rfl rfl⟩
  · exact closed.raised (k := .entryStarted) (v := (raise .entryEnded ((clearMarks s).withCue x)).withCue _)
      ((notified_of_pi rfl).trans (notified_raise .entryEnded ((clearMarks s).withCue x))) (fun _ => ⟨rfl, fun _ h => h⟩) up
  · exact closed.bit (k := .entryEnded) (v := (clearMarks s).withCue x) rfl
      ((notified_of_pi rfl).trans (notified_raise .entryStarted (State.withCue _ _))) up

/-- A crossfade in an event of CUE alone (R61, R62, R64). -/
theorem fade_closes {q e : CueEntry} {d : Nth} {joinEnd : Option Nat} (other : q.serial ≠ e.serial)
    (player : e.player = some d) (ready : s.alc.readyHead = none) :
    let u := finish s (raise .entryStarted ((clearMarks s).withCue (({ (clearMarks s).cue with
      list := [{ q with state := .fading }, e] } : CUE).play e 0 joinEnd s.boundaryNo)))
    u.cue.list = [{ q with state := .fading },
      { e with state := .playing, elapsed := 0, joinEnd := joinEnd, begun := s.boundaryNo }] ∧
    (∀ c, (u.cue.run.get c).high = if c = d then (s.cue.run.get c).riseAfter.isNone else (s.cue.run.get c).high) ∧
    (∀ x, (s.port x).init = .high → (u.port x).flags.getLsbD 0 = true) ∧ { u with cue := s.cue, pi := s.pi } = s := by
  have closed := closes_finish s (a := raise .entryStarted ((clearMarks s).withCue (({ (clearMarks s).cue with
      list := [{ q with state := .fading }, e] } : CUE).play e 0 joinEnd s.boundaryNo))) fun _ => ready
  refine ⟨closed.list.trans ?_, fun c => ?_, fun x up => closed.bit (k := .entryStarted) (v := (clearMarks s).withCue _) rfl
    (fun _ => ⟨rfl, fun _ h => h⟩) up, closed.frame_of rfl rfl⟩
  · refine (play_list _ e 0 joinEnd s.boundaryNo).trans ?_
    simp [other]
  · rw [closed.high]
    refine (congrArg RunLine.high (play_get _ e 0 joinEnd s.boundaryNo c)).trans ?_
    rw [player]
    show (if some d = some c then ((clearMarks s).cue.run.get c).rise s.boundaryNo else (clearMarks s).cue.run.get c).high = _
    rw [clearMarks_get]
    by_cases same : c = d
    · rw [if_pos same, if_pos (congrArg some same.symm), rise_high _ rfl]
    · rw [if_neg same, if_neg fun eq => same (Option.some.inj eq).symm]

end Sys2Proof.Machine
end

section
/-! TAKE and ITEM END settled. -/

namespace Sys2Proof.Machine

open Sys2Proof

/-- An open-length item that fades goes on as FADING (R64, R69). -/
theorem itemEnds_fades {s : State} {x : CUE} {q e : CueEntry} {elapsed now : Nat} {joinEnd : Option Nat}
    (goes : reachSegue q s = raise .entryStarted (s.withCue (({ x with list := [{ q with state := .fading }, e] } : CUE).play e
      elapsed joinEnd now))) (other : q.serial ≠ e.serial) : itemEnds q s = raise .entryStarted (s.withCue
      (({ x with list := [{ q with state := .fading }, e] } : CUE).play e elapsed joinEnd now)) := by
  have goesOn : (raise .entryStarted (s.withCue (({ x with list := [{ q with state := .fading }, e] } : CUE).play e
      elapsed joinEnd now))).cue.find q.serial = some { q with state := .fading } := by
    show (CUE.play _ e elapsed joinEnd now).list.find? _ = _
    rw [play_list]
    simp [other]
  unfold itemEnds
  dsimp only
  rw [goes, goesOn]
  exact if_neg nofun

theorem take_request (p : PortId) (expected : Option Half) :
    (Instr.take p expected).request = some ⟨p, 29, (expected.map halfBytes).getD []⟩ := by
  cases expected <;> rfl

theorem take_fits (expected : Option Half) : ((expected.map halfBytes).getD []).length ≤ 62 := by
  cases expected <;> simp [halfBytes]

/-- Settles O28: TAKE by the checks of R68 and what starts, ITEM END by what the end leads to. -/
theorem takeStartsAndItemEndEnds : Obligations.TakeStartsAndItemEndEnds := by
  refine ⟨fun p expected s => ⟨refusedOff_portsOf s (take_request · expected) rfl (take_fits expected) nofun,
    fun on a => ?_⟩, fun n s => ⟨refusedOff_portsOf s (fun _ => rfl) rfl (by simp [halfBytes]) nofun, fun a => ?_⟩⟩
  · have mem : p ∈ [PortId.a, PortId.b] := by simpa using on
    have run {t : State} {x : Reply} (own : eventReply (take expected) s = (t, x)) :
        exec (.take p expected) s = .next (replyTo p 29 x t) :=
      exec_answers (take_request p expected) rfl (take_fits expected) nofun mem a own
    have takes {e : CueEntry} (held : s.cue.held = false) (cued : s.cue.cued = some e)
        (named : ∀ n, expected = some n → n.toNat = e.serial) :=
      run (eventReply_taken (take_takes (s := clearMarks s) held cued named))
    have only {e : CueEntry} (list : s.cue.list = [e]) (state : e.state = .cued) : s.cue.cued = some e := by
      show s.cue.list.find? _ = _
      rw [list]
      simp [state]
    refine ⟨fun held => run (eventReply_refused (if_pos held)), fun held none_ any => run (eventReply_refused ?_),
      fun n held named stale => run (eventReply_refused ?_), fun e ch len g pol held list state kind named ready => ?_,
      fun e held list state named => ⟨fun stop => ?_, fun f len kind ready => ?_⟩,
      fun q e c d len m g h pol qol held list other playing kindQ state kind named ready => ?_⟩
    · unfold take
      rw [if_neg (by rw [show (clearMarks s).cue.held = s.cue.held from rfl, held]; nofun),
        show (clearMarks s).cue.cued = none from none_, any]
    · unfold take
      rw [if_neg (by rw [show (clearMarks s).cue.held = s.cue.held from rfl, held]; nofun),
        show (clearMarks s).cue.cued = s.cue.cued from rfl, named]
      cases cued : s.cue.cued with
      | none => rfl
      | some e => exact if_neg (stale e cued)
    · obtain ⟨list', high, bits, frame⟩ := take_starts list state (by rw [kind]; nofun) ready
      rw [joinEndAt_item s kind] at list'
      refine ⟨_, takes held (only list state) named, list', (high ch).trans (if_pos (player_item kind)), fun c other => ?_, bits, frame⟩
      exact (high c).trans (if_neg fun eq => other (Option.some.inj (eq.symm.trans (player_item kind))))
    · exact ⟨_, takes held (only list state) named, take_stop list state stop⟩
    · obtain ⟨list', high, bits, frame⟩ := take_starts list state (by rw [kind]; nofun) ready
      rw [joinEndAt_join s kind] at list'
      refine ⟨_, takes held (only list state) named, list', fun c => (high c).trans (if_neg ?_), bits, frame⟩
      rw [player_join kind]
      nofun
    · have done := cut_closes (joinEnd := none) list other playing (player_item kindQ) (player_item kind) ready
      have taken := takeEntry_replaces (s := clearMarks s) list other playing state (by rw [kind]; nofun)
      rw [joinEndAt_item _ kind] at taken
      have own := takes held (pair_states list playing state).2.2 named
      rw [taken] at own
      obtain ⟨list', ⟨apart, again, low⟩, bits, frame⟩ := done
      exact ⟨_, own, list', apart, again, low, bits, frame⟩
  · have run {t : State} {x : Reply} (own : eventReply (itemEnd n) s = (t, x)) :
        exec (.itemEnd .a n) s = .next (replyTo .a 30 x t) := exec_answers rfl rfl (by simp [halfBytes]) nofun (by simp) a own
    have found {q : CueEntry} {rest : List CueEntry} (list : s.cue.list = q :: rest) (serial : q.serial = n.toNat) :
        s.cue.find n.toNat = some q := by
      show s.cue.list.find? _ = _
      rw [list]
      exact List.find?_cons_of_pos (by simpa using serial)
    have ends {q : CueEntry} {c : Nth} {len : Option Nat} {g : Segue} {pol : Policy} (find_ : s.cue.find n.toNat = some q)
        (playing : q.state = .playing) (kind : q.kind = .item c len g pol) :=
      run (eventReply_taken (itemEnd_ends (s := clearMarks s) find_ playing kind))
    refine ⟨fun find_ => run (eventReply_refused ?_), fun e find_ no => run (eventReply_refused ?_),
      fun e ch len g pol list serial playing kind mode held => ?_,
      fun q e c d len m g h pol qol list serial other playing kindQ state kind timing channels mode held ready => ?_,
      fun q z e c d len m g h pol qol list serial serials playing kindQ state stop timingZ waiting kind timing channels cut mode held
        ready => ?_⟩
    · unfold itemEnd
      rw [show (clearMarks s).cue.find n.toNat = none from find_]
    · unfold itemEnd
      rw [show (clearMarks s).cue.find n.toNat = some e from find_]
      exact if_pos no
    · have own := ends (found list serial) playing kind
      have same : (if len.isSome then endPlaying e (clearMarks s) else itemEnds e (clearMarks s)) = endPlaying e (clearMarks s) := by
        rw [itemEnds_live (s := clearMarks s) list playing mode, ite_self]
      rw [same, endPlaying_live (s := clearMarks s) list playing held] at own
      obtain ⟨closed, list', low, others⟩ := closes_ended s (clearMarks s) list (player_item kind) rfl
      refine ⟨_, own, list', low, fun c other => ?_, fun q up => ?_, closed.frame_of rfl rfl⟩
      · rw [others c other, clearMarks_get]
      · exact closed.raised (k := .entryEnded) (v := (clearMarks s).withCue _) (notified_of_pi rfl) (fun _ => ⟨rfl, fun _ h => h⟩) up
    · have own := ends (found list serial) playing kindQ
      have cut (no : len ≠ none ∨ g = .cut) : ∃ u, exec (.itemEnd .a n) s = .next (replyTo .a 30 ⟨.ok, []⟩ u) ∧
          u.cue.list = [{ e with state := .playing, elapsed := 0, joinEnd := none, begun := s.boundaryNo }] ∧ HandsOver c d s u ∧
          (∀ x, (s.port x).init = .high → (u.port x).flags.getLsbD 0 = true ∧ (u.port x).flags.getLsbD 1 = true) ∧
          { u with cue := s.cue, pi := s.pi } = s := by
        rw [itemEnd_cuts (s := clearMarks s) list (Ne.symm other) playing kindQ state (startable_item kind timing)
          (by rw [kind]; nofun) (by show s.air.mode ≠ .live; rw [mode]; nofun) held no, joinEndAt_item _ kind] at own
        exact ⟨_, own, cut_closes list (Ne.symm other) playing (player_item kindQ) (player_item kind) ready⟩
      by_cases no : len ≠ none ∨ g = .cut
      · obtain ⟨u, own, list', ⟨apart, -, -⟩, bits, frame⟩ := cut no
        obtain ⟨low, high⟩ := apart channels
        refine ⟨u, own, high, fun x up => (bits x up).1, frame, fun _ => ⟨list', low, fun x up => (bits x up).2⟩, fun f open_ fade => ?_⟩
        rcases no with no | no
        · exact absurd open_ no
        · rw [fade] at no
          cases no
      · rw [not_or, not_not] at no
        obtain ⟨open_, no⟩ := no
        cases fade : g with
        | cut => exact absurd fade no
        | fade f =>
          subst fade open_
          have fades := reachSegue_fade (s := clearMarks s) list (Ne.symm other) playing state (startable_item kind timing)
            (by rw [kind]; nofun) (by show s.air.mode ≠ .live; rw [mode]; nofun) held
            (crossfades_fade kindQ (by rw [player_item kind]; simpa using Ne.symm channels))
          rw [joinEndAt_item _ kind] at fades
          rw [Option.isSome_none, if_neg nofun, itemEnds_fades fades (Ne.symm other)] at own
          obtain ⟨list', high, bits, frame⟩ := fade_closes (q := q) (joinEnd := none) (Ne.symm other) (player_item kind) ready
          exact ⟨_, own, (high d).trans (if_pos rfl), bits, frame, fun no' => no'.elim (absurd rfl) nofun,
            fun _ _ _ => ⟨list', (high c).trans (if_neg channels)⟩⟩
    · obtain ⟨v, passes, frame, left, lines, log⟩ := itemEnd_passes (s := clearMarks s) list
        (by rw [list] at serials; exact serials) playing kindQ state stop timingZ
        waiting timing (by rw [kind]; nofun) mode held cut
      have own := ends (found list serial) playing kindQ
      have alc : v.alc = s.alc := (congrArg State.alc frame :)
      obtain ⟨closed, list', moves, -, -⟩ := closes_handover s v (e := { e with state := .cued }) (joinEndAt e (clearMarks s))
        s.boundaryNo left (player_item kind) lines (fun k => by rw [clearMarks_get]) (by rw [alc]; exact ready)
      rw [passes] at own
      rw [joinEndAt_item _ kind] at own list' moves closed
      obtain ⟨low, high⟩ := moves channels
      refine ⟨_, own, list', low, high.trans (by rw [clearMarks_get]), closed.log.trans log, closed.frame_log ?_ ?_⟩
      · exact (congrArg State.lsw frame :)
      · exact (congrArg (fun v : State => { v with cue := s.cue }) frame :)

end Sys2Proof.Machine
end

section
/-! The fields of an entry and its serial (R52, R53, R57, section 10.6). -/

namespace Sys2Proof.Machine

open Sys2Proof

/-! ### The decoders of an entry's fields, each by what it accepts -/

theorem timeOf_eq_some {t : Long} {n : Nat} : timeOf t = some n ↔ t.toNat < 17280000 ∧ n = t.toNat := by
  unfold timeOf
  show (if t.toNat < 17280000 then some t.toNat else none) = some n ↔ _
  split <;> simp_all [eq_comm]

theorem lengthOf_eq_some {l : Long} {n : Nat} : lengthOf l = some n ↔ (1 ≤ l.toNat ∧ l.toNat ≤ 1440000) ∧ n = l.toNat := by
  unfold lengthOf
  show (if 1 ≤ l.toNat ∧ l.toNat ≤ 1440000 then some l.toNat else none) = some n ↔ _
  split
  · rename_i h
    simp [h, eq_comm]
  · rename_i h
    simp [h]

theorem itemLengthOf_eq_some {l : Long} {x : Option Nat} : itemLengthOf l = some x ↔
    (l.toNat = 0 ∧ x = none) ∨ (1 ≤ l.toNat ∧ l.toNat ≤ 1440000 ∧ x = some l.toNat) := by
  unfold itemLengthOf
  by_cases zero : l.toNat = 0
  · rw [if_pos zero]
    simp [zero, eq_comm]
  · rw [if_neg zero]
    simp only [Option.map_eq_some_iff, lengthOf_eq_some, zero, false_and, false_or]
    constructor
    · rintro ⟨n, ⟨⟨low, high⟩, rfl⟩, rfl⟩
      exact ⟨low, high, rfl⟩
    · rintro ⟨low, high, rfl⟩
      exact ⟨_, ⟨⟨low, high⟩, rfl⟩, rfl⟩

theorem playerOf_eq (b : Byte) : playerOf b = [Nth.n1, .n2, .n3, .n4][b.toNat]? := by
  unfold playerOf
  rcases h : b.toNat with _ | _ | _ | _ | n <;> rfl

theorem policyOf_eq (b : Byte) : policyOf b = [Policy.resume, .restart, .skip][b.toNat]? := by
  unfold policyOf
  rcases h : b.toNat with _ | _ | _ | n <;> rfl

theorem feedOf_eq_some {b : Byte} {x : Feed} : feedOf b = some x ↔ (b.toNat = 4 ∧ x = .netA) ∨ (b.toNat = 5 ∧ x = .netB) := by
  unfold feedOf
  split
  · simp [*, eq_comm]
  · simp [*, eq_comm]
  · rename_i four five
    exact iff_of_false nofun fun h => h.elim (fun h => four h.1) fun h => five h.1

theorem segueOf_eq_some {b : Byte} {f : Half} {g : Segue} : segueOf b f = some g ↔ (b.toNat = 0 ∧ g = .cut) ∨
    (b.toNat = 1 ∧ 1 ≤ f.toNat ∧ f.toNat ≤ 400 ∧ g = .fade f.toNat) := by
  unfold segueOf
  split
  · simp [*, eq_comm]
  · split
    · simp [*, eq_comm]
    · rename_i h
      simp only [*, reduceCtorEq, false_iff]
      rintro (⟨no, -⟩ | ⟨-, low, high, -⟩)
      · cases no
      · exact h ⟨low, high⟩
  · rename_i zero one
    exact iff_of_false nofun fun h => h.elim (fun h => zero h.1) fun h => one h.1

theorem fadeFits_iff {len : Option Nat} {g : Segue} : fadeFits len g = true ↔ ∀ l f, len = some l → g = .fade f → f < l := by
  cases len <;> cases g <;> simp [fadeFits]

/-! ### The kind and the timing -/

theorem cueKindOf_item {f : EntryFields} (h : f.kind.toNat = 0) (k : CueKind) : cueKindOf f = some k ↔
    ∃ ch len g pol, k = .item ch len g pol ∧ playerOf f.channel = some ch ∧ itemLengthOf f.length = some len ∧
      segueOf f.segue f.fade = some g ∧ policyOf f.policy = some pol ∧ fadeFits len g = true := by
  unfold cueKindOf
  rw [h]
  cases playerOf f.channel with
  | none => simp
  | some ch =>
    cases itemLengthOf f.length with
    | none => simp
    | some len =>
      cases segueOf f.segue f.fade with
      | none => simp
      | some g =>
        cases policyOf f.policy with
        | none => simp
        | some pol =>
          by_cases fits : fadeFits len g = true
          · refine (iff_of_eq (congrArg (· = some k) (if_pos fits))).trans ?_
            refine ⟨fun eq => ⟨ch, len, g, pol, (Option.some.inj eq).symm, rfl, rfl, rfl, rfl, fits⟩, ?_⟩
            rintro ⟨_, _, _, _, rfl, eq₁, eq₂, eq₃, eq₄, -⟩
            cases eq₁
            cases eq₂
            cases eq₃
            cases eq₄
            rfl
          · refine (iff_of_eq (congrArg (· = some k) (if_neg fits))).trans ?_
            simp [fits]

theorem cueKindOf_join {f : EntryFields} (h : f.kind.toNat = 1) (k : CueKind) : cueKindOf f = some k ↔
    ∃ feed len, k = .join feed len ∧ feedOf f.channel = some feed ∧ lengthOf f.length = some len := by
  unfold cueKindOf
  rw [h]
  cases feedOf f.channel with
  | none => simp
  | some feed =>
    cases lengthOf f.length with
    | none => simp
    | some len => simp [eq_comm]

theorem cueKindOf_stop {f : EntryFields} (h : f.kind.toNat = 2) (k : CueKind) : cueKindOf f = some k ↔ k = .stop := by
  unfold cueKindOf
  rw [h]
  simp [eq_comm]

theorem cueKindOf_other {f : EntryFields} (h : 2 < f.kind.toNat) : cueKindOf f = none := by
  unfold cueKindOf
  split
  · omega
  · omega
  · omega
  · rfl

/-- The kinds by their fields (R52, R57). -/
theorem cueKindOf_iff (f : EntryFields) (k : CueKind) : cueKindOf f = some k ↔
    (f.kind.toNat = 0 ∧ ∃ ch len g pol, k = .item ch len g pol ∧ [Nth.n1, .n2, .n3, .n4][f.channel.toNat]? = some ch ∧
      ((f.length.toNat = 0 ∧ len = none) ∨ (1 ≤ f.length.toNat ∧ f.length.toNat ≤ 1440000 ∧ len = some f.length.toNat)) ∧
      ((f.segue.toNat = 0 ∧ g = .cut) ∨ (f.segue.toNat = 1 ∧ 1 ≤ f.fade.toNat ∧ f.fade.toNat ≤ 400 ∧ g = .fade f.fade.toNat ∧
        ∀ l, len = some l → f.fade.toNat < l)) ∧
      [Policy.resume, .restart, .skip][f.policy.toNat]? = some pol) ∨
    (f.kind.toNat = 1 ∧ 1 ≤ f.length.toNat ∧ f.length.toNat ≤ 1440000 ∧
      ((f.channel.toNat = 4 ∧ k = .join .netA f.length.toNat) ∨ (f.channel.toNat = 5 ∧ k = .join .netB f.length.toNat))) ∨
    (f.kind.toNat = 2 ∧ k = .stop) := by
  have kinds : f.kind.toNat = 0 ∨ f.kind.toNat = 1 ∨ f.kind.toNat = 2 ∨ 2 < f.kind.toNat := by omega
  rcases kinds with h | h | h | h
  · rw [cueKindOf_item h]
    simp only [h, true_and, false_and, or_false, OfNat.zero_ne_ofNat, playerOf_eq, policyOf_eq,
      itemLengthOf_eq_some, segueOf_eq_some, fadeFits_iff, zero_ne_one]
    refine exists_congr fun ch => exists_congr fun len => exists_congr fun g => exists_congr fun pol => ?_
    constructor
    · rintro ⟨rfl, player, length, segue, policy, fits⟩
      refine ⟨rfl, player, length, segue.imp id ?_, policy⟩
      rintro ⟨one, low, high, rfl⟩
      exact ⟨one, low, high, rfl, fun l eq => fits l _ eq rfl⟩
    · rintro ⟨rfl, player, length, segue, policy⟩
      refine ⟨rfl, player, length, segue.imp id fun ⟨one, low, high, eq, _⟩ => ⟨one, low, high, eq⟩, policy, fun l f' eq fade => ?_⟩
      rcases segue with ⟨-, cut⟩ | ⟨-, -, -, fade', fits⟩
      · rw [cut] at fade
        cases fade
      · rw [fade'] at fade
        cases fade
        exact fits l eq
  · rw [cueKindOf_join h]
    simp only [h, true_and, one_ne_zero, false_and, false_or, OfNat.one_ne_ofNat, or_false, feedOf_eq_some, lengthOf_eq_some]
    constructor
    · rintro ⟨feed, len, rfl, ⟨four, rfl⟩ | ⟨five, rfl⟩, ⟨low, high⟩, rfl⟩
      · exact ⟨low, high, .inl ⟨four, rfl⟩⟩
      · exact ⟨low, high, .inr ⟨five, rfl⟩⟩
    · rintro ⟨low, high, ⟨four, rfl⟩ | ⟨five, rfl⟩⟩
      · exact ⟨_, _, rfl, .inl ⟨four, rfl⟩, ⟨low, high⟩, rfl⟩
      · exact ⟨_, _, rfl, .inr ⟨five, rfl⟩, ⟨low, high⟩, rfl⟩
  · rw [cueKindOf_stop h]
    simp [h]
  · rw [cueKindOf_other h]
    simp only [reduceCtorEq, false_iff]
    omega

/-- The timings by their fields (R52, R57). -/
theorem timingOf_iff (k : CueKind) (f : EntryFields) (t : Timing) : timingOf k f = some t ↔
    (f.timing.toNat = 0 ∧ t = .none) ∨
    (f.timing.toNat = 1 ∧ k ≠ .stop ∧ f.time.toNat < 17280000 ∧ t = .hard f.time.toNat) ∨
    (f.timing.toNat = 2 ∧ (∃ feed len, k = .join feed len) ∧ f.time.toNat < 17280000 ∧ t = .breakIn f.time.toNat) := by
  have times {c : Nat → Timing} : (timeOf f.time).map c = some t ↔ f.time.toNat < 17280000 ∧ t = c f.time.toNat := by
    simp only [Option.map_eq_some_iff, timeOf_eq_some]
    constructor
    · rintro ⟨n, ⟨low, rfl⟩, rfl⟩
      exact ⟨low, rfl⟩
    · rintro ⟨low, rfl⟩
      exact ⟨_, ⟨low, rfl⟩, rfl⟩
  have codes : f.timing.toNat = 0 ∨ f.timing.toNat = 1 ∨ f.timing.toNat = 2 ∨ 2 < f.timing.toNat := by omega
  unfold timingOf
  rcases codes with h | h | h | h
  · simp [h, eq_comm]
  · rw [h]
    cases k with
    | stop => simp
    | item => exact times.trans (by simp)
    | join => exact times.trans (by simp)
  · rw [h]
    cases k with
    | stop => simp
    | item => simp
    | join => exact times.trans (by simp)
  · obtain ⟨m, more⟩ : ∃ m, f.timing.toNat = m + 3 := ⟨_, (Nat.sub_add_cancel h).symm⟩
    rw [more]
    cases k <;> simp

/-! ### Serials -/

/-- The search goes over serials of the list to the one it finds (R53). -/
theorem freeSerial_steps (x : CUE) (k n : Nat) : ∃ j, x.freeSerial k n = serialAfter^[j] n ∧ j ≤ k ∧
    ∀ i < j, (x.find (serialAfter^[i] n)).isSome = true := by
  induction k generalizing n with
  | zero => exact ⟨0, rfl, le_rfl, nofun⟩
  | succ k ih =>
    unfold CUE.freeSerial
    split
    · rename_i found
      obtain ⟨j, eq, le, all⟩ := ih (serialAfter n)
      refine ⟨j + 1, eq, by omega, fun i lt => ?_⟩
      cases i with
      | zero => exact found
      | succ i => exact all i (by omega)
    · exact ⟨0, rfl, Nat.zero_le _, nofun⟩

theorem find_isSome_iff (x : CUE) (n : Nat) : (x.find n).isSome = true ↔ ∃ e ∈ x.list, e.serial = n := by
  unfold CUE.find
  rw [List.find?_isSome]
  simp

/-- With at most 64 entries the serial found is none of the list's (R53). -/
theorem nextSerial_fresh {x : CUE} (low : 1 ≤ x.counter) (high : x.counter ≤ 65535) (few : x.list.length ≤ 64) :
    (x.find x.nextSerial).isSome = false := by
  refine Bool.eq_false_iff.2 fun found => ?_
  have all := (freeSerial_spec x 65 x.counter ⟨low, high⟩).2 found
  have sub : ((List.range 65).map fun j => serialAfter^[j] x.counter) ⊆ x.list.map (·.serial) := by
    intro n mem
    obtain ⟨j, hj, rfl⟩ := List.mem_map.1 mem
    obtain ⟨e, here, eq⟩ := (find_isSome_iff x _).1 (all j (List.mem_range.1 hj))
    exact List.mem_map.2 ⟨e, here, eq⟩
  have distinct : ((List.range 65).map fun j => serialAfter^[j] x.counter).Nodup := by
    refine List.Nodup.map_on (fun i hi j hj eq => ?_) List.nodup_range
    rw [List.mem_range] at hi hj
    rw [serialAfter_iterate _ _ ⟨low, high⟩ (by omega), serialAfter_iterate _ _ ⟨low, high⟩ (by omega)] at eq
    split at eq <;> split at eq <;> omega
  have fits := (distinct.subperm sub).length_le
  rw [List.length_map, List.length_range, List.length_map] at fits
  omega

/-- The serial of a new entry is the first from the counter on that the list does not hold (R53). -/
theorem nextSerial_first {x : CUE} (low : 1 ≤ x.counter) (high : x.counter ≤ 65535) (few : x.list.length ≤ 64) :
    let from_ (j : Nat) : Nat := (x.counter - 1 + j) % 65535 + 1
    ∃ k, x.nextSerial = from_ k ∧ (∀ e ∈ x.list, e.serial ≠ from_ k) ∧ ∀ j < k, ∃ e ∈ x.list, e.serial = from_ j := by
  intro from_
  obtain ⟨k, eq, le, all⟩ := freeSerial_steps x 65 x.counter
  have same (j : Nat) (hj : j ≤ 65) : serialAfter^[j] x.counter = from_ j := by
    rw [serialAfter_iterate _ _ ⟨low, high⟩ (by omega)]
    show _ = (x.counter - 1 + j) % 65535 + 1
    split <;> omega
  have next : x.nextSerial = from_ k := by rw [← same k le]; exact eq
  refine ⟨k, next, fun e mem found => ?_, fun j lt => ?_⟩
  · have fresh := nextSerial_fresh low high few
    rw [(find_isSome_iff x _).2 ⟨e, mem, found.trans next.symm⟩] at fresh
    cases fresh
  · rw [← same j (by omega)]
    exact (find_isSome_iff x _).1 (all j lt)

end Sys2Proof.Machine
end

section
/-! APPEND and INSERT (R53, R57, R58, R66, R67). -/

namespace Sys2Proof.Machine

open Sys2Proof

theorem insertIdx_prefix {α : Type} (xs ys : List α) (a : α) : (xs ++ ys).insertIdx xs.length a = xs ++ a :: ys := by
  induction xs with
  | nil => exact List.insertIdx_zero
  | cons x xs ih =>
    rw [List.cons_append, List.length_cons, List.insertIdx_succ_cons, ih]
    rfl

/-- The fields of an entry that R57 accepts. -/
theorem fields_accepted {f : EntryFields} {k : CueKind} {t : Timing} (kind : cueKindOf f = some k) (timing : timingOf k f = some t) :
    ((cueKindOf f).bind fun k => (timingOf k f).map fun t => (k, t)) = some (k, t) := by
  rw [kind, Option.bind_some, timing]
  rfl

theorem fields_refused {f : EntryFields}
    (h : 2 < f.kind.toNat ∨ cueKindOf f = none ∨ (∃ k, cueKindOf f = some k ∧ timingOf k f = none)) :
    ((cueKindOf f).bind fun k => (timingOf k f).map fun t => (k, t)) = none := by
  rcases h with h | h | ⟨k, kind, timing⟩
  · rw [cueKindOf_other h, Option.bind_none]
  · rw [h, Option.bind_none]
  · rw [kind, Option.bind_some, timing]
    rfl

theorem append_refused {f : EntryFields} (s : State)
    (h : ((cueKindOf f).bind fun k => (timingOf k f).map fun t => (k, t)) = none) : append f s = refuse .badValue s := by
  unfold append
  rw [h]

theorem insert_refused {f : EntryFields} (n : Half) (s : State)
    (h : ((cueKindOf f).bind fun k => (timingOf k f).map fun t => (k, t)) = none) : insert n f s = refuse .badValue s := by
  unfold insert
  rw [h]

theorem append_checked {f : EntryFields} {k : CueKind} {t : Timing} (s : State)
    (h : ((cueKindOf f).bind fun k => (timingOf k f).map fun t => (k, t)) = some (k, t)) : append f s =
      if 64 ≤ s.cue.list.length then refuse .full s else addEntry s.cue.list.length k t f.logRef s := by
  unfold append
  rw [h]
  rfl

theorem insert_full {f : EntryFields} {k : CueKind} {t : Timing} (n : Half) {s : State}
    (h : ((cueKindOf f).bind fun k => (timingOf k f).map fun t => (k, t)) = some (k, t)) (full : 64 ≤ s.cue.list.length) :
    insert n f s = refuse .full s := by
  unfold insert
  rw [h]
  exact if_pos full

theorem insert_placed {f : EntryFields} {k : CueKind} {t : Timing} {n : Half} {s : State} {place : Nat}
    (h : ((cueKindOf f).bind fun k => (timingOf k f).map fun t => (k, t)) = some (k, t)) (room : s.cue.list.length < 64)
    (at_ : s.cue.placeAfter n.toNat = some place) : insert n f s = addEntry place k t f.logRef s := by
  unfold insert
  rw [h]
  refine (if_neg (Nat.not_le.2 room)).trans ?_
  rw [at_]

theorem insert_unplaced {f : EntryFields} {k : CueKind} {t : Timing} {n : Half} {s : State}
    (h : ((cueKindOf f).bind fun k => (timingOf k f).map fun t => (k, t)) = some (k, t)) (room : s.cue.list.length < 64)
    (at_ : s.cue.placeAfter n.toNat = none) : insert n f s = refuse .notFound s := by
  unfold insert
  rw [h]
  refine (if_neg (Nat.not_le.2 room)).trans ?_
  rw [at_]

/-! ### An entry is added -/

/-- CUE with a new entry at a place (R53). -/
def CUE.add (x : CUE) (place : Nat) (e : CueEntry) : CUE :=
  { x with list := x.list.insertIdx place e, counter := serialAfter e.serial }

theorem addEntry_eq (place : Nat) (k : CueKind) (t : Timing) (ref : Long) (s : State) : addEntry place k t ref s =
    (settleList true (s.withCue (s.cue.add place (newEntry s.cue.nextSerial k t ref s.boundaryNo))),
      ⟨.ok, beBytes 2 s.cue.nextSerial⟩) := rfl

/-- In LIVE an entry is added at its place, and nothing starts (R56, R57, R66). -/
theorem added_live {s : State} {place : Nat} {e : CueEntry} {before after : List CueEntry} (mode : s.air.mode = .live)
    (list : s.cue.list = before ++ after) (at_ : before.length = place) :
    let u := finish s (settleList true ((clearMarks s).withCue ((clearMarks s).cue.add place e)))
    u.cue.list.map CueEntry.identity = before.map CueEntry.identity ++ e.identity :: after.map CueEntry.identity ∧
    u.cue.counter = serialAfter e.serial ∧ { u with cue := s.cue, pi := s.pi } = s := by
  rw [settleList_live (s := (clearMarks s).withCue ((clearMarks s).cue.add place e)) mode]
  have closed := closes_finish s (a := (clearMarks s).withCue ((clearMarks s).cue.add place e).recue) fun st => by cases st
  refine ⟨?_, closed.counter, closed.frame_of rfl rfl⟩
  refine (congrArg (List.map CueEntry.identity) closed.list).trans ((recue_identity _).trans ?_)
  show (s.cue.list.insertIdx place e).map _ = _
  rw [list, ← at_, insertIdx_prefix, List.map_append, List.map_cons]

/-- On an empty list a new entry that the sequence may start does so in an automatic mode (R66). -/
theorem added_starts {s : State} {e : CueEntry} (list : s.cue.list = []) (waits : e.waits = true) (able : e.startable = true)
    (mode : s.air.mode ≠ .live) (held : s.cue.held = false) (ready : s.alc.readyHead = none) :
    let u := finish s (settleList true ((clearMarks s).withCue ((clearMarks s).cue.add 0 e)))
    u.cue.list = [{ e with state := .playing, elapsed := 0, joinEnd := joinEndAt e s, begun := s.boundaryNo }] ∧
    u.cue.counter = serialAfter e.serial ∧
    (∀ c, (u.cue.run.get c).high = if e.player = some c then (s.cue.run.get c).riseAfter.isNone else (s.cue.run.get c).high) ∧
    (∀ q, (s.port q).init = .high → (u.port q).flags.getLsbD 0 = true) ∧ { u with cue := s.cue, pi := s.pi } = s := by
  have one : ((clearMarks s).cue.add 0 e).list = [e] := by
    show s.cue.list.insertIdx 0 e = _
    rw [list]
    rfl
  rw [settleList_starts (s := (clearMarks s).withCue ((clearMarks s).cue.add 0 e)) one waits able mode held]
  obtain ⟨closed, list', high, counter⟩ := closes_start s ((clearMarks s).withCue ((clearMarks s).cue.add 0 e))
    (c := { (clearMarks s).cue.add 0 e with list := [{ e with state := .cued }] }) (e := { e with state := .cued }) 0
    (joinEndAt e s) s.boundaryNo rfl ready
  refine ⟨list', counter, fun c => (high c).trans ?_, fun q up => closed.bit (k := .entryStarted)
    (v := ((clearMarks s).withCue ((clearMarks s).cue.add 0 e)).withCue _) rfl (fun _ => ⟨rfl, fun _ h => h⟩) up,
    closed.frame_of rfl rfl⟩
  show (if e.player = some c then (((clearMarks s).cue.run.get c).rise s.boundaryNo).high
    else ((clearMarks s).cue.run.get c).high) = _
  rw [clearMarks_get]
  exact if_congr Iff.rfl (rise_high _ rfl) rfl

/-- The state in which a new entry on an empty list waits (R56). -/
def Timing.awaits : Timing → CueState
  | .breakIn _ => .waiting
  | _ => .cued

/-- On an empty list the choice of the CUED entry looks at the new one alone (R56). -/
theorem recue_added {x : CUE} {e : CueEntry} (list : x.list = [e]) (state : e.state = .waiting) :
    x.recue = { x with list := [{ e with state := e.timing.awaits }] } := by
  have waits : e.waits = true := by rw [CueEntry.waits, state]; rfl
  show { x with list := x.recue.list } = _
  refine congrArg (fun l => ({ x with list := l } : CUE)) ?_
  cases breaksIn : e.breaksIn with
  | true =>
    have none_ : x.list.find? CueEntry.cueable = none := by
      rw [list]
      simp [CueEntry.cueable, breaksIn]
    have timing : e.timing.awaits = .waiting := by
      unfold CueEntry.breaksIn at breaksIn
      split at breaksIn
      · rename_i time
        rw [time]
        rfl
      · cases breaksIn
    show x.list.map _ = _
    rw [none_, list, timing]
    simp [waits]
  | false =>
    have timing : e.timing.awaits = .cued := by
      unfold CueEntry.breaksIn at breaksIn
      cases h : e.timing with
      | breakIn => rw [h] at breaksIn; cases breaksIn
      | _ => rfl
    rw [recue_alone list (by rw [CueEntry.cueable, waits, breaksIn]; rfl), timing]

/-- On an empty list a new entry that the sequence may not start waits (R56, R63, R66). -/
theorem added_waits {s : State} {e : CueEntry} (list : s.cue.list = []) (state : e.state = .waiting) (late : e.timeReached = false)
    (fits : e.kind = .stop → e.timing = .none)
    (stays : (e.kind = .stop ∧ s.air.mode ≠ .unattended) ∨ (∃ x, e.timing = .hard x) ∨ (∃ x, e.timing = .breakIn x) ∨
      (e.kind ≠ .stop ∧ s.cue.held = true)) :
    let u := finish s (settleList true ((clearMarks s).withCue ((clearMarks s).cue.add 0 e)))
    u.cue.counter = serialAfter e.serial ∧ (∀ c, (u.cue.run.get c).high = (s.cue.run.get c).high) ∧
    u.cue.list = [{ e with state := e.timing.awaits }] ∧ { u with cue := s.cue, pi := s.pi } = s := by
  have one : ((clearMarks s).cue.add 0 e).list = [e] := by
    show s.cue.list.insertIdx 0 e = _
    rw [list]
    rfl
  have noStop : e.kind ≠ .stop ∨ s.air.mode ≠ .unattended := by
    rcases stays with ⟨-, mode⟩ | ⟨x, time⟩ | ⟨x, time⟩ | ⟨kind, -⟩
    · exact .inr mode
    · exact .inl fun stop => by rw [fits stop] at time; cases time
    · exact .inl fun stop => by rw [fits stop] at time; cases time
    · exact .inl kind
  have settles : ((clearMarks s).cue.add 0 e).Settles s.air.mode := by
    rcases noStop with kind | mode
    · exact settles_of_no_stop fun y mem => by rw [one, List.mem_singleton] at mem; rwa [mem]
    · exact settles_of_mode mode
  have eq : settleList true ((clearMarks s).withCue ((clearMarks s).cue.add 0 e)) =
      considerIdle ((clearMarks s).withCue ((clearMarks s).cue.add 0 e).recue) :=
    settleList_eq (s := (clearMarks s).withCue ((clearMarks s).cue.add 0 e)) settles
  rw [recue_added one state] at eq
  generalize hw : (clearMarks s).withCue { (clearMarks s).cue.add 0 e with list := [{ e with state := e.timing.awaits }] } = w at eq
  have wlist : w.cue.list = [{ e with state := e.timing.awaits }] := by rw [← hw]; rfl
  have pass : passStops w = w := by
    rcases noStop with kind | mode
    · exact passStops_of_kind fun y cued => by
        have mem := List.mem_of_find?_eq_some cued
        rw [wlist, List.mem_singleton] at mem
        rwa [mem]
    · exact passStops_of_mode (by rw [← hw]; exact mode)
  have cued (h : e.timing.awaits = .cued) : w.cue.cued = some { e with state := e.timing.awaits } := by
    show w.cue.list.find? _ = _
    rw [wlist]
    exact List.find?_cons_of_pos (by simpa using h)
  have still : considerIdle w = w := by
    rcases stays with ⟨stop, -⟩ | ⟨x, time⟩ | ⟨x, time⟩ | ⟨-, held⟩
    · exact considerIdle_unstartable pass (cued (by rw [fits stop]; rfl)) (by rw [CueEntry.startable, stop])
    · refine considerIdle_unstartable pass (cued (by rw [time]; rfl)) ?_
      unfold CueEntry.startable
      rw [time]
      cases e.kind <;> first | rfl | exact late
    · refine considerIdle_of_no_cued ?_
      show w.cue.list.find? _ = none
      rw [wlist, time]
      rfl
    · exact considerIdle_busy pass (.inr (by rw [← hw]; exact held))
  rw [eq, still]
  have closed := closes_finish s (a := w) fun st => by
    rw [← hw] at st
    cases st
  refine ⟨closed.counter.trans (by rw [← hw]; rfl), fun c => (closed.high c).trans ?_, closed.list.trans wlist,
    closed.frame_of (by rw [← hw]; rfl) (by rw [← hw]; rfl)⟩
  rw [← hw]
  show ((clearMarks s).cue.run.get c).high = _
  rw [clearMarks_get]

/-- On an empty list a new STOP is passed over in UNATTENDED (R67). -/
theorem added_passed {s : State} {e : CueEntry} (list : s.cue.list = []) (state : e.state = .waiting) (stop : e.kind = .stop)
    (timing : e.timing = .none) (mode : s.air.mode = .unattended) :
    let u := finish s (settleList true ((clearMarks s).withCue ((clearMarks s).cue.add 0 e)))
    u.cue.counter = serialAfter e.serial ∧ u.cue.list = [] ∧
    u.log = s.log.append (stamp s) .itemSkipped (.cue e.serial) (.skipped .stopPassed) ∧
    { u with cue := s.cue, log := s.log, pi := s.pi } = s := by
  have one : ((clearMarks s).cue.add 0 e).list = [e] := by
    show s.cue.list.insertIdx 0 e = _
    rw [list]
    rfl
  have chosen := recue_added one state
  rw [show e.timing.awaits = .cued by rw [timing]; rfl] at chosen
  generalize hx : (clearMarks s).cue.add 0 e = x at one chosen
  have cued : x.recue.cued = some { e with state := .cued } := by
    show x.recue.list.find? _ = _
    rw [chosen]
    exact List.find?_cons_of_pos (by simp)
  have gone : (x.recue.without { e with state := .cued }).list = [] := without_singleton (by rw [chosen])
  have fresh : x.cued = none := by
    show x.list.find? _ = _
    rw [one]
    simp [state]
  have passes := recueLoop_passes (s := (clearMarks s).withCue x) 63 cued stop mode fresh (by
    rw [show ((clearMarks s).withCue x).cue.recue = x.recue from rfl, gone]
    exact List.forall_mem_nil _)
  unfold leaveSkipped at passes
  rw [leave_waits (e := { e with state := .cued }) (.inr rfl)] at passes
  have settled : settleList true ((clearMarks s).withCue x) = logEntry .itemSkipped (.cue e.serial) (.skipped .stopPassed)
      (((clearMarks s).withCue x.recue).withCue (x.recue.without { e with state := .cued })) := by
    unfold settleList
    rw [passes]
    refine considerIdle_of_no_cued (cued_of_none_waits fun y mem => ?_)
    have mem' : y ∈ (x.recue.without { e with state := .cued }).list := mem
    rw [gone] at mem'
    cases mem'
  rw [settled]
  have closed := closes_finish s (a := logEntry .itemSkipped (.cue e.serial) (.skipped .stopPassed)
    (((clearMarks s).withCue x.recue).withCue (x.recue.without { e with state := .cued }))) fun st => by
      rw [← hx] at st
      cases st
  exact ⟨closed.counter.trans (by rw [← hx]; rfl), closed.list.trans gone, closed.log, closed.frame_log rfl rfl⟩

end Sys2Proof.Machine
end

section
/-! APPEND and INSERT settled. -/

namespace Sys2Proof.Machine

open Sys2Proof

theorem serialAfter_eq (n : Nat) : serialAfter n = if n = 65535 then 1 else n + 1 := rfl

/-- Settles O26: the decoders by their fields, the serial by the search, and the two requests by what is added and what it leads to. -/
theorem appendAndInsertAddAnEntry : Obligations.AppendAndInsertAddAnEntry := by
  refine fun p anchor f s => ⟨refusedOff_portsOf s (fun _ => rfl) rfl (by simp [EntryFields.bytes, longBytes, halfBytes]) nofun,
    refusedOff_portsOf s (fun _ => rfl) rfl (by simp [EntryFields.bytes, longBytes, halfBytes]) nofun, cueKindOf_iff f,
    fun k t => timingOf_iff k f t, nextSerial_first, fun on aa ai => ?_⟩
  have mem : p ∈ [PortId.a, PortId.b] := by simpa using on
  have app {t : State} {x : Reply} (own : eventReply (append f) s = (t, x)) :
      exec (.append p f) s = .next (replyTo p 25 x t) :=
    exec_answers rfl rfl (by simp [EntryFields.bytes, longBytes, halfBytes]) nofun mem aa own
  have ins {t : State} {x : Reply} (own : eventReply (insert anchor f) s = (t, x)) :
      exec (.insert p anchor f) s = .next (replyTo p 26 x t) :=
    exec_answers rfl rfl (by simp [EntryFields.bytes, longBytes, halfBytes]) nofun mem ai own
  refine ⟨fun no => ⟨app (eventReply_refused (append_refused _ (fields_refused no))),
    ins (eventReply_refused (insert_refused anchor _ (fields_refused no)))⟩, fun k t kind timing => ?_⟩
  have fields := fields_accepted kind timing
  have appends (room : s.cue.list.length < 64) :=
    app (eventReply_taken (((append_checked (clearMarks s) fields).trans (if_neg (Nat.not_le.2 room))).trans (addEntry_eq ..)))
  have inserts (room : s.cue.list.length < 64) {place : Nat} (at_ : s.cue.placeAfter anchor.toNat = some place) :=
    ins (eventReply_taken ((insert_placed (s := clearMarks s) fields room at_).trans (addEntry_eq ..)))
  refine ⟨fun full => ⟨app (eventReply_refused ((append_checked _ fields).trans (if_pos full))),
    ins (eventReply_refused (insert_full anchor fields full))⟩, fun room mode => ?_, fun empty => ?_, fun room some_ all => ?_,
    fun room zero mode => ?_, fun before e after room mode list serial some_ first => ?_⟩
  · obtain ⟨list, counter, frame⟩ := added_live (e := newEntry s.cue.nextSerial k t f.logRef s.boundaryNo) mode
      (List.append_nil s.cue.list).symm rfl
    exact ⟨_, appends room, list, counter, frame⟩
  · intro added appended starts
    have fits (stop : k = .stop) : t = .none := by
      rcases (timingOf_iff k f t).1 timing with ⟨-, none_⟩ | ⟨-, other, -⟩ | ⟨-, ⟨feed, len, join⟩, -⟩
      · exact none_
      · exact absurd stop other
      · rw [join] at stop
        cases stop
    have appends := appends (by rw [empty]; simp)
    rw [show (clearMarks s).cue.list.length = 0 by rw [show (clearMarks s).cue.list = [] from empty]; rfl] at appends
    refine ⟨fun mode held time ready => ⟨fun ch len g pol item => ?_, fun feed len join => ?_⟩, fun mode stays => ?_,
      fun mode stop => ?_⟩
    · obtain ⟨list, counter, high, bits, frame⟩ := added_starts (e := added) empty rfl (startable_item item time) mode held ready
      rw [joinEndAt_item s item] at list
      refine ⟨_, ⟨⟨appends, counter⟩, list, bits, frame⟩, (high ch).trans (if_pos (player_item item)), fun c other => ?_⟩
      exact (high c).trans (if_neg fun eq => other (Option.some.inj (eq.symm.trans (player_item item))))
    · have able : added.startable = true := by
        have kind : added.kind = .join feed len := join
        have timing : added.timing = .none := time
        rw [CueEntry.startable, kind, timing]
      obtain ⟨list, counter, high, bits, frame⟩ := added_starts (e := added) empty rfl able mode held ready
      rw [joinEndAt_join s (e := added) join] at list
      refine ⟨_, ⟨⟨appends, counter⟩, list, bits, frame⟩, fun c => (high c).trans (if_neg ?_)⟩
      rw [player_join (e := added) join]
      nofun
    · obtain ⟨counter, high, list, frame⟩ := added_waits (e := added) empty rfl rfl fits stays
      refine ⟨_, ⟨appends, counter⟩, high, list.trans ?_, frame⟩
      show [{ added with state := t.awaits }] = _
      cases t <;> rfl
    · obtain ⟨counter, list, log, frame⟩ := added_passed (e := added) empty rfl stop (fits stop) mode
      exact ⟨_, ⟨appends, counter⟩, list, log, frame⟩
  · exact ins (eventReply_refused (insert_unplaced (s := clearMarks s) fields room (placeAfter_missing some_ all)))
  · obtain ⟨list, counter, frame⟩ := added_live (e := newEntry s.cue.nextSerial k t f.logRef s.boundaryNo) (before := []) mode rfl rfl
    exact ⟨_, inserts room (by unfold CUE.placeAfter; exact if_pos zero), list, counter, frame⟩
  · have place := placeAfter_of_split list some_ serial first
    obtain ⟨list', counter, frame⟩ := added_live (e := newEntry s.cue.nextSerial k t f.logRef s.boundaryNo)
      (place := before.length + 1) (before := before ++ [e]) (after := after) mode (by rw [list]; simp) (by simp)
    exact ⟨_, inserts room place, list', counter, frame⟩

end Sys2Proof.Machine
end

section
/-! CUE's counts at a boundary (R54, R61 to R65). -/

namespace Sys2Proof.Machine

open Sys2Proof

/-- What reads neither CUE nor the ports is at the end of an event as before its close. -/
theorem Closes.over {α : Type} {b a u : State} (h : Closes b a u) (same : a.lsw = b.lsw) (F : State → α)
    (blind : ∀ v : State, F { v with cue := a.cue, pi := a.pi } = F v) : F u = F a :=
  (blind u).symm.trans (congrArg F (h.frame_same same))

/-! ### The counts -/

/-- An entry on air that did not begin at this boundary has gone on by one block (R54). -/
def CueEntry.tick (now : Nat) (e : CueEntry) : CueEntry :=
  if (e.state = .playing ∨ e.state = .fading) ∧ e.begun < now then { e with elapsed := e.elapsed + 1 } else e

theorem tick_of {now : Nat} {e : CueEntry} (onAir : e.state = .playing ∨ e.state = .fading) (begun : e.begun < now) :
    e.tick now = { e with elapsed := e.elapsed + 1 } := if_pos ⟨onAir, begun⟩

theorem tick_still {now : Nat} {e : CueEntry} (playing : e.state ≠ .playing) (fading : e.state ≠ .fading) : e.tick now = e :=
  if_neg fun h => h.1.elim playing fading

theorem tick_serial (now : Nat) (e : CueEntry) : (e.tick now).serial = e.serial := by
  unfold CueEntry.tick
  split <;> rfl

theorem tick_cueState (now : Nat) (e : CueEntry) : (e.tick now).state = e.state := by
  unfold CueEntry.tick
  split <;> rfl

theorem tick_kind (now : Nat) (e : CueEntry) : (e.tick now).kind = e.kind := by
  unfold CueEntry.tick
  split <;> rfl

/-- The counts touch the list and the run lines alone. -/
theorem counted_eq (s : State) : counted s = s.withCue { s.cue with
    list := s.cue.list.map (CueEntry.tick s.boundaryNo), run := (delayedRises s).cue.run } := rfl

/-- A delayed rise (R61). -/
theorem delayedRises_get (s : State) (c : Nth) : (delayedRises s).cue.run.get c =
    if (s.cue.run.get c).due s.boundaryNo then
      { s.cue.run.get c with high := (s.cue.run.get c).high || s.cue.sounding c, riseAfter := none }
    else s.cue.run.get c := four_get_mapIdx ..

theorem delayedRises_calm {s : State} {c : Nth} (h : (s.cue.run.get c).riseAfter = none) :
    (delayedRises s).cue.run.get c = s.cue.run.get c := by
  rw [delayedRises_get, if_neg]
  unfold RunLine.due
  rw [h]
  nofun

/-! ### What the counts lead to -/

/-- The end of a crossfade apart, CUE's event goes by what stands after it (log 14). -/
theorem cueCounts_from {s v : State} (fade : (if fadeOver (counted s) = true then recue (endFading (counted s)) else counted s) = v) :
    cueCounts s = if atLimit v = true then onPlaying itemEnds v
      else if atLength (if atSegue v = true then onPlaying reachSegue v else v) = true
        then onPlaying endPlaying (if atSegue v = true then onPlaying reachSegue v else v)
        else if atSegue v = true then onPlaying reachSegue v else v := by
  rw [← fade]
  rfl

theorem counted_of_no_fade {s : State} (fade : fadeOver (counted s) = false) :
    (if fadeOver (counted s) = true then recue (endFading (counted s)) else counted s) = counted s := by
  rw [fade]
  rfl

theorem onPlaying_some {f : CueEntry → State → State} {s : State} {p : CueEntry} (h : s.cue.playing = some p) :
    onPlaying f s = f p s := by
  unfold onPlaying
  rw [h]

/-- The PLAYING entry comes to its segue point, and what it leaves has not come to its length (R63, R64). -/
theorem cueCounts_segue {s v : State} {p : CueEntry} (playing : (counted s).cue.playing = some p) (fade : fadeOver (counted s) = false)
    (limit : atLimit (counted s) = false) (point : atSegue (counted s) = true) (goes : reachSegue p (counted s) = v)
    (still : atLength v = false) : cueCounts s = v := by
  rw [cueCounts_from (counted_of_no_fade fade), onPlaying_some (f := reachSegue) playing, goes]
  simp only [limit, point, still, Bool.false_eq_true, if_false, if_true]

/-- The PLAYING entry has come to its length, its segue point, if it was there, having led to nothing (R62). -/
theorem cueCounts_length {s : State} {p : CueEntry} (playing : (counted s).cue.playing = some p) (fade : fadeOver (counted s) = false)
    (limit : atLimit (counted s) = false) (stays : reachSegue p (counted s) = counted s) (length : atLength (counted s) = true) :
    cueCounts s = endPlaying p (counted s) := by
  rw [cueCounts_from (counted_of_no_fade fade), onPlaying_some (f := reachSegue) playing, stays, ite_self, onPlaying_some (f := endPlaying) playing]
  simp only [limit, length, Bool.false_eq_true, if_false, if_true]

/-- The open-length item has come to its limit (R62). -/
theorem cueCounts_limit {s : State} {p : CueEntry} (playing : (counted s).cue.playing = some p) (fade : fadeOver (counted s) = false)
    (limit : atLimit (counted s) = true) : cueCounts s = itemEnds p (counted s) := by
  rw [cueCounts_from (counted_of_no_fade fade), if_pos limit, onPlaying_some playing]

/-- Nothing has come to an end but a crossfade (R65). -/
theorem cueCounts_still {s v : State} (fade : (if fadeOver (counted s) = true then recue (endFading (counted s)) else counted s) = v)
    (limit : atLimit v = false) (point : atSegue v = false) (length : atLength v = false) : cueCounts s = v := by
  rw [cueCounts_from fade]
  simp only [limit, point, length, Bool.false_eq_true, if_false]

/-! ### The occasions, read off the PLAYING entry -/

theorem fadeOver_none {s : State} (h : s.cue.fading = none) : fadeOver s = false := by
  unfold fadeOver
  rw [h]
  split
  · rename_i no
    cases no
  · rfl

theorem atLimit_item {s : State} {p : CueEntry} {c : Nth} {len : Option Nat} {g : Segue} {pol : Policy}
    (playing : s.cue.playing = some p) (kind : p.kind = .item c len g pol) :
    atLimit s = (len.isNone && decide (1440000 ≤ p.elapsed)) := by
  unfold atLimit
  rw [playing]
  dsimp only
  rw [CueEntry.length, CueEntry.player, kind, Option.isSome_some, Bool.and_true]
  rfl

theorem atLimit_join {s : State} {p : CueEntry} {f : Feed} {len : Nat} (playing : s.cue.playing = some p)
    (kind : p.kind = .join f len) : atLimit s = false := by
  unfold atLimit
  rw [playing]
  dsimp only
  rw [CueEntry.length, kind]
  rfl

theorem atLength_iff {s : State} {p : CueEntry} (playing : s.cue.playing = some p) :
    atLength s = true ↔ ∃ l, p.length = some l ∧ l ≤ p.elapsed := by
  unfold atLength
  rw [playing, Option.any_eq_true]
  simp

theorem atLength_none {s : State} (h : s.cue.playing = none) : atLength s = false := by
  unfold atLength
  rw [h]

theorem atSegue_iff {s : State} {p : CueEntry} (playing : s.cue.playing = some p) :
    atSegue s = true ↔ p.seguePoint = some p.elapsed ∧ p.begun < s.boundaryNo := by
  unfold atSegue
  rw [playing, decide_eq_true_eq]

theorem length_item {e : CueEntry} {c : Nth} {len : Option Nat} {g : Segue} {pol : Policy} (kind : e.kind = .item c len g pol) :
    e.length = len := by
  rw [CueEntry.length, kind]

theorem length_join {e : CueEntry} {f : Feed} {len : Nat} (kind : e.kind = .join f len) : e.length = some len := by
  rw [CueEntry.length, kind]

theorem seguePoint_fade {e : CueEntry} {c : Nth} {l f : Nat} {pol : Policy} (kind : e.kind = .item c (some l) (.fade f) pol) :
    e.seguePoint = some (l - f) := by
  rw [CueEntry.seguePoint, length_item kind, CueEntry.fade, kind]
  rfl

theorem seguePoint_cut {e : CueEntry} {c : Nth} {l : Nat} {pol : Policy} (kind : e.kind = .item c (some l) .cut pol) :
    e.seguePoint = some l := by
  rw [CueEntry.seguePoint, length_item kind, CueEntry.fade, kind]
  rfl

/-- With no entry CUED and none FADING a segue point leads to nothing (R64). -/
theorem reachSegue_nothing {s : State} (p : CueEntry) (fading : s.cue.fading = none) (cued : s.cue.cued = none) :
    reachSegue p s = s := by
  unfold reachSegue
  rw [endFading_none fading]
  dsimp only
  rw [passStops_of_no_cued cued, cued]
  exact ite_self _

/-- Nor in LIVE (R64). -/
theorem reachSegue_live {s : State} (p : CueEntry) (fading : s.cue.fading = none) (mode : s.air.mode = .live) :
    reachSegue p s = s := by
  unfold reachSegue
  rw [endFading_none fading]
  exact if_neg (by rw [mode]; nofun)

/-! ### The rows -/

/-- The state in which CUE counts at a boundary: its event alone was due. -/
def counting (s : State) : State := counted (clearMarks (s.withDue []))

theorem counting_list (s : State) : (counting s).cue.list = s.cue.list.map (CueEntry.tick s.boundaryNo) := rfl

theorem counting_line {s : State} {c : Nth} (h : (s.cue.run.get c).riseAfter = none) :
    (counting s).cue.run.get c = { s.cue.run.get c with fell := false } := by
  have calm : ((clearMarks (s.withDue [])).cue.run.get c).riseAfter = none := by
    rw [clearMarks_get]
    exact h
  refine (delayedRises_calm calm).trans ?_
  rw [clearMarks_get]
  rfl

theorem playing_congr {s t : State} (h : s.cue.list = t.cue.list) : s.cue.playing = t.cue.playing := by
  unfold CUE.playing CUE.inState
  rw [h]

theorem fading_congr {s t : State} (h : s.cue.list = t.cue.list) : s.cue.fading = t.cue.fading := by
  unfold CUE.fading CUE.inState
  rw [h]

/-- A row of CUE's counts takes its event when its occasion arises (log 14). -/
theorem countsRow {s : State} {occasion : State → Bool} (due : s.due = [.cueCounts]) (h : afterCounts occasion s = true) :
    stageRow .cueCounts (afterCounts occasion) s = finish (s.withDue []) (cueCounts (clearMarks (s.withDue []))) :=
  stageRow_of_one (d := .cueCounts) due nofun h

theorem exec_entryLengthEnd {s : State} (due : s.due = [.cueCounts]) (h : atLength (counting s) = true) :
    exec .entryLengthEnd s = .next (finish (s.withDue []) (cueCounts (clearMarks (s.withDue [])))) := by
  refine congrArg Host.Outcome.next (countsRow due ?_)
  unfold afterCounts
  have same : (counted s).cue.playing = (counting s).cue.playing := playing_congr rfl
  unfold atLength at h ⊢
  rw [same]
  exact h

theorem exec_openLengthLimit {s : State} (due : s.due = [.cueCounts]) (h : atLimit (counting s) = true) :
    exec .openLengthLimit s = .next (finish (s.withDue []) (cueCounts (clearMarks (s.withDue [])))) := by
  refine congrArg Host.Outcome.next (countsRow due ?_)
  unfold afterCounts
  have same : (counted s).cue.playing = (counting s).cue.playing := playing_congr rfl
  unfold atLimit at h ⊢
  rw [same]
  exact h

theorem exec_seguePoint {s : State} (due : s.due = [.cueCounts]) (h : atSegue (counting s) = true) :
    exec .seguePoint s = .next (finish (s.withDue []) (cueCounts (clearMarks (s.withDue [])))) := by
  refine congrArg Host.Outcome.next (countsRow due ?_)
  unfold afterCounts
  have same : (counted s).cue.playing = (counting s).cue.playing := playing_congr rfl
  unfold atSegue at h ⊢
  rw [same]
  exact h

theorem exec_crossfadeEnd {s : State} (due : s.due = [.cueCounts]) (h : fadeOver (counting s) = true) :
    exec .crossfadeEnd s = .next (finish (s.withDue []) (cueCounts (clearMarks (s.withDue [])))) := by
  refine congrArg Host.Outcome.next (countsRow due ?_)
  unfold afterCounts
  have playing : (counted s).cue.playing = (counting s).cue.playing := playing_congr rfl
  have fading : (counted s).cue.fading = (counting s).cue.fading := fading_congr rfl
  unfold fadeOver at h ⊢
  rw [playing, fading]
  exact h

theorem exec_runLineDelayedRise {s : State} {c : Nth} (due : s.due = [.cueCounts]) (h : (s.cue.run.get c).due s.boundaryNo = true) :
    exec .runLineDelayedRise s = .next (finish (s.withDue []) (cueCounts (clearMarks (s.withDue [])))) := by
  refine congrArg Host.Outcome.next (stageRow_of_one (d := .cueCounts) due nofun (List.any_eq_true.2 ⟨s.cue.run.get c, ?_, h⟩))
  cases c <;> simp [Four.toList, Four.get]

end Sys2Proof.Machine
end

section
/-! Ends and segues at a boundary (R54, R61 to R65, R67). -/

namespace Sys2Proof.Machine

open Sys2Proof

variable {s : State}

/-! ### One entry that comes to its length -/

theorem singleton_states {x : CUE} {e : CueEntry} (list : x.list = [e]) (playing : e.state = .playing) :
    x.playing = some e ∧ x.fading = none ∧ x.cued = none := by
  refine ⟨?_, ?_, ?_⟩
  · show x.list.find? _ = _
    rw [list]
    exact List.find?_cons_of_pos (by simpa using playing)
  · show x.list.find? _ = _
    rw [list]
    simp [playing]
  · show x.list.find? _ = _
    rw [list]
    simp [playing]

theorem counting_singleton {e : CueEntry} (list : s.cue.list = [e]) (playing : e.state = .playing) (begun : e.begun < s.boundaryNo) :
    (counting s).cue.list = [{ e with elapsed := e.elapsed + 1 }] := by
  rw [counting_list, list, List.map_singleton, tick_of (.inl playing) begun]

/-- In LIVE the one item of the list ends at its length or at its limit (R62). -/
theorem counts_end {e : CueEntry} {c : Nth} {len : Option Nat} {g : Segue} {pol : Policy} (list : s.cue.list = [e])
    (playing : e.state = .playing) (kind : e.kind = .item c len g pol) (begun : e.begun < s.boundaryNo) (mode : s.air.mode = .live)
    (held : s.cue.held = false)
    (reached : (∃ l, len = some l ∧ e.elapsed + 1 = l) ∨ (len = none ∧ e.elapsed + 1 = 1440000)) :
    let u := finish (s.withDue []) (cueCounts (clearMarks (s.withDue [])))
    (len ≠ none → atLength (counting s) = true) ∧ (len = none → atLimit (counting s) = true) ∧ u.cue.list = [] ∧
    (u.cue.run.get c).high = false ∧ { u with cue := s.cue, pi := s.pi, due := s.due } = s := by
  have wlist := counting_singleton list playing begun
  obtain ⟨plays, fading, -⟩ := singleton_states wlist playing
  have wmode : (counting s).air.mode = .live := mode
  have limit := atLimit_item (s := counting s) plays kind
  have stays := reachSegue_live { e with elapsed := e.elapsed + 1 } fading wmode
  have length (l : Nat) (some_ : len = some l) (eq : e.elapsed + 1 = l) : atLength (counting s) = true :=
    (atLength_iff plays).2 ⟨l, (length_item kind).trans some_, eq.ge⟩
  have full (none_ : len = none) (eq : e.elapsed + 1 = 1440000) : atLimit (counting s) = true := by
    rw [limit, none_]
    exact decide_eq_true eq.ge
  have ends : cueCounts (clearMarks (s.withDue [])) = endPlaying { e with elapsed := e.elapsed + 1 } (counting s) := by
    rcases reached with ⟨l, some_, eq⟩ | ⟨none_, eq⟩
    · exact cueCounts_length plays (fadeOver_none fading) (by rw [show atLimit (counted _) = atLimit (counting s) from rfl, limit, some_]; rfl)
        stays (length l some_ eq)
    · refine (cueCounts_limit plays (fadeOver_none fading) (full none_ eq)).trans ?_
      exact itemEnds_live wlist playing wmode
  rw [ends, endPlaying_live wlist playing held]
  obtain ⟨closed, list', low, -⟩ := closes_ended (s.withDue []) (counting s) wlist (player_item kind) rfl
  refine ⟨fun some_ => ?_, fun none_ => ?_, list', low, ?_⟩
  · rcases reached with ⟨l, eq, at_⟩ | ⟨none_, -⟩
    · exact length l eq at_
    · exact absurd none_ some_
  · rcases reached with ⟨l, eq, -⟩ | ⟨-, at_⟩
    · rw [eq] at none_
      cases none_
    · exact full none_ at_
  · exact closed.over rfl (fun v : State => { v with cue := s.cue, pi := s.pi, due := s.due }) fun _ => rfl

/-! ### The JOIN of a BREAK-IN (R36, R37, R72) -/

/-- The states of the other entries, none of which waits or sounds. -/
def Calm (others : List CueEntry) : Prop := others = [] ∨ ∃ e, others = [e] ∧ e.state = .suspended

theorem Calm.quiet {others : List CueEntry} (h : Calm others) {e : CueEntry} (mem : e ∈ others) : e.state = .suspended := by
  rcases h with rfl | ⟨x, rfl, state⟩
  · cases mem
  · rwa [List.mem_singleton.1 mem]

/-- What a record gives back is said of lists that are calm alone. -/
theorem givesBack_of_calm {r : ContextRecord} {rest : List ContextRecord} {list : List CueEntry} {bypass : Prop}
    {before after : LOG → LOG} {due : List Due} {s : State} {leaves : State → Prop}
    (h : Calm list → GivesBack r rest list bypass before after due s leaves) :
    GivesBack r rest list bypass before after due s leaves := by
  refine ⟨fun e el suspended parked single state => (h (.inr ⟨e, single, state⟩)).1 e el suspended parked single state,
    fun x any lines slots parked none_ which => ?_⟩
  refine (h ?_).2 x any lines slots parked none_ which
  rcases which with ⟨-, empty, -⟩ | ⟨e, el, ch, len, g, -, single, state, -⟩
  · exact .inl empty
  · exact .inr ⟨e, single, state⟩

/-- The state after the JOIN of a BREAK-IN has left the list. -/
theorem counts_joinEnds {j : CueEntry} {others : List CueEntry} {f : Feed} {len : Nat} {r : ContextRecord}
    {rest : List ContextRecord} (list : s.cue.list = j :: others ∨ s.cue.list = others ++ [j]) (calm : Calm others)
    (serials : ∀ e ∈ others, e.serial ≠ j.serial) (playing : j.state = .playing) (kind : j.kind = .join f len)
    (begun : j.begun < s.boundaryNo) (length : j.elapsed + 1 = len) (held : s.cue.held = true) (stack : s.air.stack = r :: rest)
    (breakIn : r.kind = .breakIn) (chain : s.air.chain = .none) :
    let v := raise .entryEnded ((counting s).withCue { (counting s).cue with list := others })
    atLength (counting s) = true ∧ cueCounts (clearMarks (s.withDue [])) = popRecord r j.serial v := by
  intro v
  generalize hj : ({ j with elapsed := j.elapsed + 1 } : CueEntry) = j'
  have plays : j'.state = .playing := by rw [← hj]; exact playing
  have kind' : j'.kind = .join f len := by rw [← hj]; exact kind
  have serial : j'.serial = j.serial := by rw [← hj]
  have elapsed : j'.elapsed = len := by rw [← hj]; exact length
  have still : others.map (CueEntry.tick s.boundaryNo) = others :=
    (List.map_congr_left fun e mem => tick_still (by rw [calm.quiet mem]; nofun) (by rw [calm.quiet mem]; nofun)).trans (List.map_id _)
  have wlist : (counting s).cue.list = j' :: others ∨ (counting s).cue.list = others ++ [j'] := by
    rw [counting_list]
    rcases list with list | list
    · left
      rw [list, List.map_cons, still, tick_of (.inl playing) begun, hj]
    · right
      rw [list, List.map_append, still, List.map_singleton, tick_of (.inl playing) begun, hj]
  have mem (e : CueEntry) : e ∈ (counting s).cue.list ↔ e = j' ∨ e ∈ others := by
    rcases wlist with wlist | wlist <;> rw [wlist] <;> simp [or_comm]
  have isPlaying : (counting s).cue.playing = some j' := by
    show (counting s).cue.list.find? _ = _
    rcases wlist with wlist | wlist
    · rw [wlist]
      exact List.find?_cons_of_pos (by simpa using plays)
    · rw [wlist, List.find?_append, List.find?_eq_none.2 fun e mem => by simp [calm.quiet mem], Option.none_or]
      exact List.find?_cons_of_pos (by simpa using plays)
  have fading : (counting s).cue.fading = none := List.find?_eq_none.2 fun e h => by
    rcases (mem e).1 h with rfl | h
    · simp [plays]
    · simp [calm.quiet h]
  have cued : (counting s).cue.cued = none := List.find?_eq_none.2 fun e h => by
    rcases (mem e).1 h with rfl | h
    · simp [plays]
    · simp [calm.quiet h]
  have atEnd : atLength (counting s) = true := (atLength_iff isPlaying).2 ⟨len, length_join kind', elapsed.ge⟩
  have counts : cueCounts (clearMarks (s.withDue [])) = endPlaying j' (counting s) :=
    cueCounts_length isPlaying (fadeOver_none fading) (atLimit_join isPlaying kind') (reachSegue_nothing j' fading cued) atEnd
  have gone : ((counting s).cue.without j').dropLine j' = { (counting s).cue with list := others } := by
    have left : (counting s).cue.list.filter (fun y => !decide (y.serial = j'.serial)) = others := by
      have keeps : others.filter (fun y => !decide (y.serial = j'.serial)) = others :=
        List.filter_eq_self.2 fun e mem => by simpa [serial] using serials e mem
      rcases wlist with wlist | wlist
      · rw [wlist, List.filter_cons_of_neg (by simp), keeps]
      · rw [wlist, List.filter_append, keeps]
        simp
    unfold CUE.dropLine
    rw [player_join kind']
    unfold CUE.without
    rw [left]
  refine ⟨atEnd, ?_⟩
  rw [counts, ← serial]
  unfold endPlaying
  rw [endFading_none fading, leave_onAir (.inl plays), gone]
  refine afterPlaying_breakIn j' held (fun e mem => ?_) stack breakIn chain
  rw [CueEntry.waits, calm.quiet (others := others) mem]
  rfl

end Sys2Proof.Machine
end

section
/-! The clauses of ends and segues at a boundary (R36, R37, R54, R61 to R65, R67, R72). -/

namespace Sys2Proof.Machine

open Sys2Proof

variable {s : State}

/-- A cut in any event: one item ends and another starts (R61, R62, R64). -/
theorem closes_cut (b w : State) {q e : CueEntry} {c d : Nth} {r : Nth → RunLine} (joinEnd : Option Nat) (now : Nat)
    (list : w.cue.list = [q, e]) (other : q.serial ≠ e.serial) (playing : q.state = .playing) (playerQ : q.player = some c)
    (player : e.player = some d) (lines : ∀ k, w.cue.run.get k = r k) (fell : ∀ k, (r k).fell = false)
    (ready : w.alc.readyHead = none) :
    let x := (w.cue.without q).dropLine q
    let a := raise .entryStarted ((leave q w).withCue (x.play e 0 joinEnd now))
    let u := finish b a
    Closes b a u ∧ u.cue.list = [{ e with state := .playing, elapsed := 0, joinEnd := joinEnd, begun := now }] ∧
    (c ≠ d → (u.cue.run.get c).high = false ∧ (u.cue.run.get d).high = (r d).riseAfter.isNone) ∧
    (c = d → (r c).high = true → (u.cue.run.get c).high = false ∧ (u.cue.run.get c).riseAfter = some now) ∧
    (w.lsw = b.lsw → ∀ F : State → State, (∀ v x q, F { v with cue := x, pi := q } = F v) → F u = F w) := by
  intro x
  have left : x.list = [e] := by
    rw [show x.list = (w.cue.without q).list from cue_dropLine_list _ _]
    exact without_head list (by simpa using other.symm)
  have moved (k : Nth) : x.run.get k = if k = c then (r k).drop else r k := by rw [without_line playerQ, lines]
  obtain ⟨closed, list', apart, again, -⟩ := closes_handover b (raise .entryEnded (w.withCue x)) joinEnd now left player moved fell
    ready
  rw [leave_onAir (.inl playing)]
  exact ⟨closed, list', apart, again, fun same F blind => (closed.over same F fun v => blind v _ _).trans (blind w _ _)⟩

/-! ### The counts at a segue point -/

/-- A PLAYING item and a CUED one at the first's segue point (R63). -/
theorem counting_pair {e n : CueEntry} (list : s.cue.list = [e, n]) (playing : e.state = .playing) (begun : e.begun < s.boundaryNo)
    (state : n.state = .cued) : (counting s).cue.list = [{ e with elapsed := e.elapsed + 1 }, n] := by
  rw [counting_list, list, List.map_cons, List.map_singleton, tick_of (.inl playing) begun,
    tick_still (by rw [state]; nofun) (by rw [state]; nofun)]

/-- An item that has just started has not come to its length. -/
theorem atLength_started {v : State} {e : CueEntry} {d : Nth} {m : Option Nat} {g : Segue} {pol : Policy}
    (playing : v.cue.playing = some e) (kind : e.kind = .item d m g pol) (elapsed : e.elapsed = 0) (long : ∀ x, m = some x → 1 ≤ x) :
    atLength v = false := by
  refine Bool.eq_false_iff.2 fun at_ => ?_
  obtain ⟨l, length, le⟩ := (atLength_iff playing).1 at_
  rw [length_item kind] at length
  have := long l length
  omega

/-- CUE's event at the segue point of an item, the outcome of the segue given (R63, R64). -/
theorem counts_segue {e n : CueEntry} {c d : Nth} {l : Nat} {h : Segue} {m : Option Nat} {g : Segue} {pol qol : Policy} {v : State}
    {started : CueEntry} (list : ∃ rest, (counting s).cue.list = { e with elapsed := e.elapsed + 1 } :: rest ∧
      ∀ y ∈ rest, y.state = .cued ∨ y.state = .waiting)
    (playing : e.state = .playing) (kind : e.kind = .item c (some l) h pol) (begun : e.begun < s.boundaryNo)
    (point : e.seguePoint = some (e.elapsed + 1)) (goes : reachSegue { e with elapsed := e.elapsed + 1 } (counting s) = v)
    (plays : v.cue.playing = some started) (kindN : n.kind = .item d m g qol) (isN : started.kind = n.kind)
    (elapsed : started.elapsed = 0) (long : ∀ x, m = some x → 1 ≤ x) :
    atSegue (counting s) = true ∧ cueCounts (clearMarks (s.withDue [])) = v := by
  obtain ⟨rest, wlist, waits⟩ := list
  have isPlaying : (counting s).cue.playing = some { e with elapsed := e.elapsed + 1 } := by
    show (counting s).cue.list.find? _ = _
    rw [wlist]
    exact List.find?_cons_of_pos (by simpa using playing)
  have fading : (counting s).cue.fading = none := List.find?_eq_none.2 fun y mem => by
    rw [wlist] at mem
    rcases List.mem_cons.1 mem with rfl | mem
    · simp [playing]
    · rcases waits y mem with state | state <;> simp [state]
  have here : atSegue (counting s) = true := (atSegue_iff isPlaying).2 ⟨point, begun⟩
  refine ⟨here, cueCounts_segue isPlaying (fadeOver_none fading) ?_ here goes ?_⟩
  · exact (atLimit_item isPlaying kind).trans rfl
  · exact atLength_started plays (isN.trans kindN) elapsed long

theorem playing_of_play {x : CUE} {e : CueEntry} {elapsed now : Nat} {joinEnd : Option Nat} (list : x.list = [e]) :
    (x.play e elapsed joinEnd now).playing =
      some { e with state := .playing, elapsed := elapsed, joinEnd := joinEnd, begun := now } := by
  unfold CUE.playing CUE.inState
  rw [play_singleton list]
  rfl

/-- The segue by a cut at a boundary (R61 to R64). -/
theorem counts_cut {e n : CueEntry} {c d : Nth} {l : Nat} {h : Segue} {m : Option Nat} {g : Segue} {pol qol : Policy}
    (list : s.cue.list = [e, n]) (other : e.serial ≠ n.serial) (playing : e.state = .playing)
    (kind : e.kind = .item c (some l) h pol) (begun : e.begun < s.boundaryNo) (point : e.seguePoint = some (e.elapsed + 1))
    (state : n.state = .cued) (kindN : n.kind = .item d m g qol) (timing : n.timing = .none) (long : ∀ x, m = some x → 1 ≤ x)
    (mode : s.air.mode ≠ .live) (held : s.cue.held = false) (ready : s.alc.readyHead = none)
    (calm : ∀ k, (s.cue.run.get k).riseAfter = none) (cut : crossfades { e with elapsed := e.elapsed + 1 } n = false) :
    let u := finish (s.withDue []) (cueCounts (clearMarks (s.withDue [])))
    atSegue (counting s) = true ∧ u.cue.list = [{ n with state := .playing, elapsed := 0, joinEnd := none, begun := s.boundaryNo }] ∧
    (c ≠ d → (u.cue.run.get c).high = false ∧ (u.cue.run.get d).high = true) ∧
    (c = d → (s.cue.run.get c).high = true → (u.cue.run.get c).high = false ∧ (u.cue.run.get c).riseAfter = some s.boundaryNo) ∧
    { u with cue := s.cue, pi := s.pi, due := s.due } = s := by
  have wlist := counting_pair list playing begun state
  have goes := reachSegue_cut (s := counting s) wlist other playing state (startable_item kindN timing) (by rw [kindN]; nofun) mode held
    cut
  rw [joinEndAt_item _ kindN] at goes
  have left : (((counting s).cue.without { e with elapsed := e.elapsed + 1 }).dropLine { e with elapsed := e.elapsed + 1 }).list =
      [n] := by
    rw [cue_dropLine_list]
    exact without_head wlist (by simpa using other.symm)
  obtain ⟨here, counts⟩ := counts_segue (n := n) ⟨[n], wlist, fun y mem => .inl (by rwa [List.mem_singleton.1 mem])⟩ playing kind begun
    point goes (playing_of_play left) kindN rfl rfl long
  obtain ⟨-, list', apart, again, rest⟩ := closes_cut (s.withDue []) (counting s) none s.boundaryNo wlist other playing
    (player_item (e := { e with elapsed := e.elapsed + 1 }) kind) (player_item kindN) (fun k => counting_line (calm k)) (fun _ => rfl)
    ready
  rw [counts]
  refine ⟨here, list', fun ne => ?_, again, ?_⟩
  · obtain ⟨low, high⟩ := apart ne
    exact ⟨low, high.trans (by rw [calm]; rfl)⟩
  · exact rest rfl (fun v : State => { v with cue := s.cue, pi := s.pi, due := s.due }) fun _ _ _ => rfl

/-- The segue by a crossfade at a boundary (R61 to R64). -/
theorem counts_fade {e n : CueEntry} {c d : Nth} {l f : Nat} {m : Option Nat} {g : Segue} {pol qol : Policy}
    (list : s.cue.list = [e, n]) (other : e.serial ≠ n.serial) (playing : e.state = .playing)
    (kind : e.kind = .item c (some l) (.fade f) pol) (begun : e.begun < s.boundaryNo) (point : e.elapsed + 1 = l - f)
    (state : n.state = .cued) (kindN : n.kind = .item d m g qol) (timing : n.timing = .none) (long : ∀ x, m = some x → 1 ≤ x)
    (mode : s.air.mode ≠ .live) (held : s.cue.held = false) (ready : s.alc.readyHead = none)
    (calm : ∀ k, (s.cue.run.get k).riseAfter = none) (channels : c ≠ d) :
    let u := finish (s.withDue []) (cueCounts (clearMarks (s.withDue [])))
    atSegue (counting s) = true ∧
    u.cue.list = [{ e with state := .fading, elapsed := l - f },
      { n with state := .playing, elapsed := 0, joinEnd := none, begun := s.boundaryNo }] ∧
    (u.cue.run.get c).high = (s.cue.run.get c).high ∧ (u.cue.run.get d).high = true ∧
    { u with cue := s.cue, pi := s.pi, due := s.due } = s := by
  have wlist := counting_pair list playing begun state
  have fade : crossfades { e with elapsed := e.elapsed + 1 } n = true :=
    crossfades_fade (q := { e with elapsed := e.elapsed + 1 }) kind (by rw [player_item kindN]; simpa using channels.symm)
  have goes := reachSegue_fade (s := counting s) wlist other playing state (startable_item kindN timing) (by rw [kindN]; nofun) mode held
    fade
  rw [joinEndAt_item _ kindN] at goes
  generalize hx : ({ (counting s).cue with list := [{ e with elapsed := e.elapsed + 1, state := .fading }, n] } : CUE) = x at goes
  have xlist : (x.play n 0 none (counting s).boundaryNo).list = [{ e with elapsed := e.elapsed + 1, state := .fading },
      { n with state := .playing, elapsed := 0, joinEnd := none, begun := s.boundaryNo }] := by
    rw [play_list, ← hx]
    simp only [List.map_cons, List.map_nil, other, if_false, if_true]
    rfl
  obtain ⟨here, counts⟩ := counts_segue (n := n) (started := { n with state := .playing, elapsed := 0, joinEnd := none, begun := s.boundaryNo })
    ⟨[n], wlist, fun y mem => .inl (by rwa [List.mem_singleton.1 mem])⟩ playing kind begun
    (by rw [seguePoint_fade kind, point]) goes
    (by show (x.play n 0 none (counting s).boundaryNo).list.find? _ = _; rw [xlist]; simp) kindN rfl rfl long
  have closed := closes_finish (s.withDue []) (a := raise .entryStarted ((counting s).withCue (x.play n 0 none (counting s).boundaryNo)))
    fun _ => ready
  have line (k : Nth) : (x.play n 0 none (counting s).boundaryNo).run.get k =
      if k = d then ({ s.cue.run.get k with fell := false } : RunLine).rise s.boundaryNo else { s.cue.run.get k with fell := false } := by
    rw [play_get, player_item kindN, ← hx]
    show (if some d = some k then ((counting s).cue.run.get k).rise _ else (counting s).cue.run.get k) = _
    rw [counting_line (calm k)]
    exact if_congr ⟨fun h => (Option.some.inj h).symm, fun h => congrArg some h.symm⟩ rfl rfl
  rw [counts]
  refine ⟨here, closed.list.trans (xlist.trans ?_), (closed.high c).trans ?_, (closed.high d).trans ?_, ?_⟩
  · rw [← point]
  · refine (congrArg RunLine.high (line c)).trans ?_
    rw [if_neg channels]
  · refine (congrArg RunLine.high (line d)).trans ?_
    rw [if_pos rfl, rise_high _ rfl, calm]
    rfl
  · exact closed.over rfl (fun v : State => { v with cue := s.cue, pi := s.pi, due := s.due }) fun _ => rfl

end Sys2Proof.Machine
end

section
/-! A STOP before or after the item that a segue starts, in UNATTENDED (R64, R67). -/

namespace Sys2Proof.Machine

open Sys2Proof

/-- The segue has passed over the STOP and started the item, whichever came first. -/
structure PassesStop (s : State) (z e : CueEntry) (c d : Nth) (v : State) : Prop where
  list : v.cue.list = [{ e with state := .playing, elapsed := 0, joinEnd := none, begun := s.boundaryNo }]
  run : ∀ k, v.cue.run.get k = if k = d then (if k = c then (s.cue.run.get k).drop else s.cue.run.get k).rise s.boundaryNo
    else if k = c then (s.cue.run.get k).drop else s.cue.run.get k
  log : v.log = s.log.append (stamp s) .itemSkipped (.cue z.serial) (.skipped .stopPassed)
  frame : { v with cue := s.cue, log := s.log, pi := s.pi } = s

theorem passesStop_before {s : State} {q z e : CueEntry} {c d : Nth} {len : Option Nat} {g h : Segue} {m : Option Nat}
    {pol qol : Policy} (list : s.cue.list = [q, z, e]) (serials : [q.serial, z.serial, e.serial].Nodup) (playing : q.state = .playing)
    (kindQ : q.kind = .item c len g pol) (state : z.state = .cued) (stop : z.kind = .stop) (waiting : e.state = .waiting)
    (timing : e.timing = .none) (kind : e.kind = .item d m h qol) (mode : s.air.mode = .unattended) (held : s.cue.held = false)
    (cut : crossfades q e = false) : PassesStop s z e c d (reachSegue q s) := by
  obtain ⟨v, goes, frame, left, lines, log⟩ := reachSegue_stop list serials playing kindQ state stop
    (by rw [CueEntry.waits, waiting]; rfl) timing (by rw [kind]; nofun) mode held cut
  rw [joinEndAt_item s kind] at goes
  rw [goes]
  refine ⟨play_singleton left 0 none s.boundaryNo, fun k => ?_, log, frame⟩
  refine (play_get v.cue { e with state := .cued } 0 none s.boundaryNo k).trans ?_
  rw [lines, player_item (e := { e with state := .cued }) kind]
  exact if_congr ⟨fun h => (Option.some.inj h).symm, fun h => congrArg some h.symm⟩ rfl rfl

theorem passesStop_after {s : State} {q e z : CueEntry} {c d : Nth} {len : Option Nat} {g h : Segue} {m : Option Nat}
    {pol qol : Policy} (list : s.cue.list = [q, e, z]) (serials : [q.serial, z.serial, e.serial].Nodup) (playing : q.state = .playing)
    (kindQ : q.kind = .item c len g pol) (state : e.state = .cued) (timing : e.timing = .none) (kind : e.kind = .item d m h qol)
    (waiting : z.state = .waiting) (stop : z.kind = .stop) (timingZ : z.timing = .none) (mode : s.air.mode = .unattended)
    (held : s.cue.held = false) (cut : crossfades q e = false) : PassesStop s z e c d (reachSegue q s) := by
  simp only [List.nodup_cons, List.mem_cons, List.not_mem_nil, or_false, not_or, List.nodup_nil, not_false_eq_true, and_true]
    at serials
  obtain ⟨⟨qz, qe⟩, ze⟩ := serials
  have kindE : e.kind ≠ .stop := by rw [kind]; nofun
  have fading : s.cue.fading = none := by
    show s.cue.list.find? _ = none
    rw [list]
    simp [playing, state, waiting]
  have cued : s.cue.cued = some e := by
    show s.cue.list.find? _ = _
    rw [list]
    simp [playing, state]
  have pass : passStops s = s := passStops_of_kind fun y found => by
    rw [cued] at found
    rwa [← Option.some.inj found]
  have left : ((s.cue.without q).dropLine q).list = [e, z] := by
    rw [cue_dropLine_list]
    refine without_head list fun y mem => ?_
    simp only [List.mem_cons, List.not_mem_nil, or_false] at mem
    rcases mem with rfl | rfl
    · exact Ne.symm qe
    · exact Ne.symm qz
  have lines := without_line (x := s.cue) (player_item kindQ)
  rw [reachSegue_goes fading pass cued (startable_item kind timing) (by rw [mode]; nofun) held]
  unfold segueTo
  rw [endFading_none fading]
  dsimp only
  rw [cut, leave_onAir (.inl playing)]
  generalize hx : (s.cue.without q).dropLine q = x at left lines
  have starts : startEntry e (raise .entryEnded (s.withCue x)) = raise .entryStarted ((raise .entryEnded (s.withCue x)).withCue
      (x.play e 0 none s.boundaryNo)) := by
    have find_ : (raise .entryEnded (s.withCue x)).cue.find e.serial = some e := by
      show x.list.find? _ = _
      rw [left]
      exact List.find?_cons_of_pos (by simp)
    refine (setPlaying_eq 0 (joinEndAt e (raise .entryEnded (s.withCue x))) find_).trans ?_
    rw [joinEndAt_item _ kind]
    rfl
  generalize hy : x.play e 0 none s.boundaryNo = y at starts
  have ylist : y.list = [{ e with state := .playing, elapsed := 0, joinEnd := none, begun := s.boundaryNo }, z] := by
    rw [← hy, play_list, left]
    simp [ze]
  have chosen : y.recue.list = [{ e with state := .playing, elapsed := 0, joinEnd := none, begun := s.boundaryNo },
      { z with state := .cued }] := recue_list (x := y)
        (before := [{ e with state := .playing, elapsed := 0, joinEnd := none, begun := s.boundaryNo }]) (after := []) ylist
        (fun w mem => by rw [List.mem_singleton.1 mem]; rfl)
        (by rw [CueEntry.cueable, CueEntry.waits, waiting, CueEntry.breaksIn, timingZ]; rfl) (List.forall_mem_nil _)
  have gone : (y.recue.without { z with state := .cued }).list =
      [{ e with state := .playing, elapsed := 0, joinEnd := none, begun := s.boundaryNo }] := by
    show y.recue.list.filter _ = _
    rw [chosen]
    simp [Ne.symm ze]
  have passes := recueLoop_passes (s := raise .entryStarted ((raise .entryEnded (s.withCue x)).withCue y))
    (z := { z with state := .cued }) 63 (by show y.recue.list.find? _ = _; rw [chosen]; simp) stop mode
    (by show y.list.find? _ = _; rw [ylist]; simp [waiting])
    (fun w mem => by
      have mem' : w ∈ (y.recue.without { z with state := .cued }).list := mem
      rw [gone, List.mem_singleton] at mem'
      rw [mem']
      rfl)
  have settled : recue (raise .entryStarted ((raise .entryEnded (s.withCue x)).withCue y)) =
      logEntry .itemSkipped (.cue z.serial) (.skipped .stopPassed)
        ((raise .entryStarted ((raise .entryEnded (s.withCue x)).withCue y)).withCue (y.recue.without { z with state := .cued })) := by
    unfold recue
    rw [passes]
    unfold leaveSkipped
    rw [leave_waits (e := { z with state := .cued }) (.inr rfl)]
    rfl
  rw [if_neg nofun, starts, settled]
  refine ⟨gone, fun k => ?_, rfl, rfl⟩
  show y.run.get k = _
  rw [← hy, play_get, player_item kind, lines]
  exact if_congr ⟨fun h => (Option.some.inj h).symm, fun h => congrArg some h.symm⟩ rfl rfl

/-- How a boundary's counts close after such a segue. -/
theorem counts_passed {s : State} {e z n : CueEntry} {c d : Nth} {l : Nat} {m : Option Nat} {g : Segue} {pol qol : Policy}
    (list : (s.cue.list = [e, z, n] ∧ z.state = .cued ∧ n.state = .waiting) ∨
      (s.cue.list = [e, n, z] ∧ n.state = .cued ∧ z.state = .waiting)) (serials : [e.serial, z.serial, n.serial].Nodup)
    (channels : c ≠ d) (playing : e.state = .playing) (kind : e.kind = .item c (some l) .cut pol) (begun : e.begun < s.boundaryNo)
    (point : e.elapsed + 1 = l) (stop : z.kind = .stop) (timingZ : z.timing = .none) (kindN : n.kind = .item d m g qol)
    (timing : n.timing = .none) (long : ∀ x, m = some x → 1 ≤ x) (mode : s.air.mode = .unattended) (held : s.cue.held = false)
    (ready : s.alc.readyHead = none) (calm : ∀ k, (s.cue.run.get k).riseAfter = none) :
    let u := finish (s.withDue []) (cueCounts (clearMarks (s.withDue [])))
    atSegue (counting s) = true ∧ u.cue.list = [{ n with state := .playing, elapsed := 0, joinEnd := none, begun := s.boundaryNo }] ∧
    (u.cue.run.get c).high = false ∧ (u.cue.run.get d).high = true ∧
    u.log = s.log.append (stamp s) .itemSkipped (.cue z.serial) (.skipped .stopPassed) ∧
    { u with cue := s.cue, log := s.log, pi := s.pi, due := s.due } = s := by
  have cut : crossfades { e with elapsed := e.elapsed + 1 } n = false := crossfades_cut (q := { e with elapsed := e.elapsed + 1 }) kind
  have still {y : CueEntry} (state : y.state = .cued ∨ y.state = .waiting) : y.tick s.boundaryNo = y := by
    rcases state with state | state <;> exact tick_still (by rw [state]; nofun) (by rw [state]; nofun)
  have passes : PassesStop (counting s) z n c d (reachSegue { e with elapsed := e.elapsed + 1 } (counting s)) ∧
      ∃ rest, (counting s).cue.list = { e with elapsed := e.elapsed + 1 } :: rest ∧ ∀ y ∈ rest, y.state = .cued ∨ y.state = .waiting := by
    rcases list with ⟨list, cued, waiting⟩ | ⟨list, cued, waiting⟩
    · have wlist : (counting s).cue.list = [{ e with elapsed := e.elapsed + 1 }, z, n] := by
        rw [counting_list, list]
        simp only [List.map_cons, List.map_nil]
        rw [tick_of (.inl playing) begun, still (.inl cued), still (.inr waiting)]
      exact ⟨passesStop_before wlist serials playing kind cued stop waiting timing kindN mode held cut, _, wlist, by
        simp [cued, waiting]⟩
    · have wlist : (counting s).cue.list = [{ e with elapsed := e.elapsed + 1 }, n, z] := by
        rw [counting_list, list]
        simp only [List.map_cons, List.map_nil]
        rw [tick_of (.inl playing) begun, still (.inl cued), still (.inr waiting)]
      exact ⟨passesStop_after wlist serials playing kind cued timing kindN waiting stop timingZ mode held cut, _, wlist, by
        simp [cued, waiting]⟩
  obtain ⟨passed, waits⟩ := passes
  generalize hv : reachSegue { e with elapsed := e.elapsed + 1 } (counting s) = v at passed
  have plays : v.cue.playing = some { n with state := .playing, elapsed := 0, joinEnd := none, begun := s.boundaryNo } := by
    show v.cue.list.find? _ = _
    rw [passed.list]
    rfl
  obtain ⟨here, counts⟩ := counts_segue (n := n) waits playing kind begun (by rw [seguePoint_cut kind, point]) hv plays kindN rfl rfl
    long
  have alc : v.alc = s.alc := (congrArg State.alc passed.frame :)
  have lsw : v.lsw = s.lsw := (congrArg State.lsw passed.frame :)
  have closed := closes_finish (s.withDue []) (a := v) fun _ => by rw [alc]; exact ready
  rw [counts]
  refine ⟨here, closed.list.trans passed.list, (closed.high c).trans ?_, (closed.high d).trans ?_, closed.log.trans passed.log, ?_⟩
  · rw [passed.run, if_neg channels, if_pos rfl]
    rfl
  · rw [passed.run, if_pos rfl, if_neg channels.symm, counting_line (calm d), rise_high _ rfl, calm]
    rfl
  · refine (closed.over lsw (fun v : State => { v with cue := s.cue, log := s.log, pi := s.pi, due := s.due }) fun _ => rfl).trans ?_
    exact (congrArg (fun v : State => { v with cue := s.cue, due := s.due }) passed.frame :)

end Sys2Proof.Machine
end

section
/-! The ends, the segues and the run lines of a boundary settled (R36, R37, R54, R61 to R65, R67, R72). -/

namespace Sys2Proof.Machine

open Sys2Proof

/-- The counts touch CUE alone. -/
theorem counting_frame (s : State) : { counting s with cue := s.cue, due := s.due, pi := s.pi } = s := rfl

theorem raise_withCue_frame {w s : State} (k : Notice) (x : CUE)
    (h : { w with cue := s.cue, due := s.due, pi := s.pi } = s) :
    { raise k (w.withCue x) with cue := s.cue, due := s.due, pi := s.pi } = s := h

/-- How an event closes in which the BREAK-IN on top has ended, its record having saved nothing (R36, R37). -/
theorem closes_breakIn_bare {s v : State} {n : Nat} {r : ContextRecord} {rest : List ContextRecord}
    (stack : s.air.stack = r :: rest) (breakIn : r.kind = .breakIn) (suspended : r.suspended = none) (parked : r.parked = [])
    (chain : s.air.chain = .none) (distinct : ∀ x ∈ rest, x.number ≠ r.number)
    (left : { v with cue := s.cue, due := s.due, pi := s.pi } = s) (list : v.cue.list = []) (held : v.cue.held = true)
    (started : v.cue.started = false) (line : ∀ c, (v.cue.run.get c).high = (s.cue.run.get c).high) (notes : Raises .entryEnded s v) :
    let u := finish (s.withDue []) (popRecord r n v)
    u.cue.list = [] ∧ u.cue.held = (if rest = [] then false else true) ∧
      u.air = { s.air with stack := rest, free := r.number :: s.air.free } ∧
      u.log = s.log.append (stamp s) .joinEnd (.cue n) (.number 0) ∧
      (∀ q, (s.port q).init = .high → (u.port q).flags.getLsbD 1 = true) ∧
      (∀ c, (u.cue.run.get c).high = (s.cue.run.get c).high) ∧
      { u with air := s.air, cue := s.cue, log := s.log, pi := s.pi, due := s.due } = s := by
  have air : v.air = s.air := (congrArg State.air left :)
  have pops := popRecord_bare (v := v) n (by rw [air, stack]) distinct (by rw [air, chain]) suspended parked
    (cued_of_none_waits (by rw [list]; exact List.forall_mem_nil _))
  rw [breakIn] at pops
  rw [pops]
  clear pops
  have lsw : v.lsw = s.lsw := (congrArg State.lsw left :)
  have log : v.log = s.log := (congrArg State.log left :)
  have tb : v.tb = s.tb := (congrArg State.tb left :)
  have stamps : stamp v = stamp s := by
    unfold stamp
    rw [tb]
  show (finish _ (logEntry .joinEnd (.cue n) (.number 0) _)).cue.list = [] ∧ _
  generalize hw : ({ v with air := { v.air with stack := rest, free := r.number :: v.air.free }
                            cue := { v.cue with held := if rest = [] then false else v.cue.held } } : State) = w
  have closed := closes_finish (s.withDue []) (a := logEntry .joinEnd (.cue n) (.number 0) w) fun st => by
    rw [← hw] at st
    exact absurd (started.symm.trans st) nofun
  have wlsw : (logEntry .joinEnd (.cue n) (.number 0) w).lsw = s.lsw := by
    rw [← hw]
    exact lsw
  have wpi : Notified v w := notified_of_pi (by rw [← hw])
  refine ⟨closed.list.trans ?_, closed.held.trans ?_, closed.air.trans ?_, closed.log.trans ?_, fun q up => ?_,
    fun c => (closed.high c).trans ?_, ?_⟩
  · rw [← hw]
    exact list
  · rw [← hw]
    show (if rest = [] then false else v.cue.held) = _
    rw [held]
  · rw [← hw, ← air]
    rfl
  · rw [← hw, ← log, ← stamps]
    rfl
  · have later := (wpi.trans (notified_logEntry .joinEnd (.cue n) (.number 0) w)).trans closed.notified
    exact notes.2 _ later q ((notes.1.trans later).high up)
  · rw [← hw]
    exact line c
  · refine (closed.over wlsw (fun x : State => { x with
      air := s.air, cue := s.cue, log := s.log, pi := s.pi, due := s.due }) fun _ => rfl).trans ?_
    rw [← hw]
    exact (congrArg (fun x : State => { x with air := s.air, log := s.log }) left :)

/-- The JOIN of a BREAK-IN reaches its length, its record having saved nothing (R36, R37). -/
theorem counts_breakIn_bare {s : State} {e : CueEntry} {f : Feed} {len : Nat} {r : ContextRecord} {rest : List ContextRecord}
    (due : s.due = [.cueCounts]) (list : s.cue.list = [e]) (playing : e.state = .playing) (kind : e.kind = .join f len)
    (begun : e.begun < s.boundaryNo) (length : e.elapsed + 1 = len) (held : s.cue.held = true) (stack : s.air.stack = r :: rest)
    (breakIn : r.kind = .breakIn) (suspended : r.suspended = none) (parked : r.parked = []) (chain : s.air.chain = .none)
    (distinct : ∀ x ∈ rest, x.number ≠ r.number) (calm : ∀ c, (s.cue.run.get c).riseAfter = none) :
    ∃ u, exec .entryLengthEnd s = .next u ∧ u.cue.list = [] ∧ u.cue.held = (if rest = [] then false else true) ∧
      u.air = { s.air with stack := rest, free := r.number :: s.air.free } ∧
      u.log = s.log.append (stamp s) .joinEnd (.cue e.serial) (.number 0) ∧
      (∀ q, (s.port q).init = .high → (u.port q).flags.getLsbD 1 = true) ∧
      (∀ c, (u.cue.run.get c).high = (s.cue.run.get c).high) ∧
      { u with air := s.air, cue := s.cue, log := s.log, pi := s.pi, due := s.due } = s := by
  obtain ⟨here, counts⟩ := counts_joinEnds (others := []) (.inl list) (.inl rfl) (List.forall_mem_nil _) playing kind begun length held stack breakIn
    chain
  have run := exec_entryLengthEnd due here
  rw [counts] at run
  refine ⟨_, run, closes_breakIn_bare stack breakIn suspended parked chain distinct
    (raise_withCue_frame .entryEnded _ (counting_frame s)) rfl held rfl (fun c => ?_)
    (raises_raise .entryEnded (notified_of_pi rfl))⟩
  exact (congrArg RunLine.high (counting_line (calm c))).trans rfl

/-- It gives back what its record saved (R36, R37, R71, R72, R102). -/
theorem counts_breakIn_givesBack {s : State} {j : CueEntry} {others : List CueEntry} {f : Feed} {len : Nat} {r : ContextRecord}
    {rest : List ContextRecord} (due : s.due = [.cueCounts]) (list : s.cue.list = j :: others ∨ s.cue.list = others ++ [j])
    (serials : ∀ e ∈ others, e.serial ≠ j.serial) (playing : j.state = .playing) (kind : j.kind = .join f len)
    (begun : j.begun < s.boundaryNo) (length : j.elapsed + 1 = len) (held : s.cue.held = true) (stack : s.air.stack = r :: rest)
    (breakIn : r.kind = .breakIn) (chain : s.air.chain = .none) (distinct : ∀ x ∈ rest, x.number ≠ r.number)
    (calm : ∀ c, (s.cue.run.get c).riseAfter = none) (ready : s.alc.readyHead = none) :
    GivesBack r rest others (s.dly.state = .run .bypass) id
      (fun log => log.append (stamp s) .joinEnd (.cue j.serial) (.number 0)) [] s
      fun t => exec .entryLengthEnd s = .next t ∧ t.air = { s.air with stack := rest, free := r.number :: s.air.free } ∧
        { t with air := s.air, cue := s.cue, lsw := s.lsw, due := s.due, log := s.log, pi := s.pi } = s := by
  refine givesBack_of_calm fun quiet => ?_
  obtain ⟨here, counts⟩ := counts_joinEnds list quiet serials playing kind begun length held stack breakIn chain
  have run := exec_entryLengthEnd due here
  rw [counts] at run
  have line (c : Nth) : (raise .entryEnded ((counting s).withCue { (counting s).cue with list := others })).cue.run.get c =
      { s.cue.run.get c with fell := false } := counting_line (calm c)
  generalize hv : raise .entryEnded ((counting s).withCue { (counting s).cue with list := others }) = v at run line
  have pops : PopEvent r rest j.serial (s.withDue []) v := by
    refine ⟨?_, distinct, ?_, ?_, fun c => by rw [line]⟩
    · rw [← hv]
      exact stack
    · rw [← hv]
      exact chain
    · rw [← hv]
      rfl
  have left : { v with cue := s.cue, due := s.due, pi := s.pi } = s := by
    rw [← hv]
    exact raise_withCue_frame .entryEnded _ (counting_frame s)
  have list' : v.cue.list = others := by rw [← hv]; rfl
  have held' : v.cue.held = s.cue.held := by rw [← hv]; rfl
  have due' : v.due = [] := by rw [← hv]; rfl
  have lsw : v.lsw = s.lsw := (congrArg State.lsw left :)
  have tb : v.tb = s.tb := (congrArg State.tb left :)
  have no : v.boundaryNo = s.boundaryNo := (congrArg State.boundaryNo left :)
  have log : v.log = s.log := (congrArg State.log left :)
  have dly : v.dly = s.dly := (congrArg State.dly left :)
  have alc : v.alc = s.alc := (congrArg State.alc left :)
  have air : v.air = s.air := (congrArg State.air left :)
  refine pops.givesBack list' held' (fun c => by rw [line]) lsw tb no log (ends_breakIn j.serial breakIn tb) due' (by rw [dly])
    (by rw [alc]; exact ready) fun air' frame _ => ⟨run, by rw [← air]; exact air', ?_⟩
  refine Eq.trans ?_ left
  exact (congrArg (fun w : State => { w with air := s.air, cue := s.cue, lsw := s.lsw, due := s.due, log := s.log, pi := s.pi }) frame :).trans
    (by rw [← air, ← lsw, ← log])

/-- Settles O30: each end and each segue by CUE's event for its counts. -/
theorem entriesEndAndSegue : Obligations.EntriesEndAndSegue := by
  refine ⟨fun e ch len g pol s due list playing kind begun mode held _ => ⟨fun l some_ at_ => ?_, fun none_ at_ => ?_⟩,
    fun e f len r rest s due list playing kind begun length held stack breakIn suspended parked chain distinct calm => ?_,
    fun j others f len r rest s due list serials playing kind begun length held stack breakIn chain distinct calm ready => ?_,
    fun e n c d l f m g pol qol s due list other playing kind begun _ _ point state kindN timing long mode held ready calm => ?_,
    fun e n c d l m g pol qol s due list other channels playing kind begun point state kindN timing long mode held ready calm => ?_,
    fun e z n c d l m g pol qol s due list serials channels playing kind begun point stop timingZ kindN timing long mode held ready
      calm => ?_⟩
  · obtain ⟨here, -, list', low, frame⟩ := counts_end list playing kind begun mode held (.inl ⟨l, some_, at_⟩)
    exact ⟨_, exec_entryLengthEnd due (here (by rw [some_]; nofun)), list', low, frame⟩
  · obtain ⟨-, here, list', low, frame⟩ := counts_end list playing kind begun mode held (.inr ⟨none_, at_⟩)
    exact ⟨_, exec_openLengthLimit due (here none_), list', low, frame⟩
  · exact counts_breakIn_bare due list playing kind begun length held stack breakIn suspended parked chain distinct calm
  · exact counts_breakIn_givesBack due list serials playing kind begun length held stack breakIn chain distinct calm ready
  · have live : s.air.mode ≠ .live := by rw [mode]; nofun
    by_cases channels : c = d
    · have cut : crossfades { e with elapsed := e.elapsed + 1 } n = false := by
        rw [crossfades, player_item (e := { e with elapsed := e.elapsed + 1 }) kind, player_item kindN, channels]
        simp
      obtain ⟨here, list', -, again, frame⟩ := counts_cut list other playing kind begun (by rw [seguePoint_fade kind, point]) state
        kindN timing long live held ready calm cut
      exact ⟨_, exec_seguePoint due here, frame, fun no => absurd channels no, fun same => ⟨list', again same⟩⟩
    · obtain ⟨here, list', lineC, lineD, frame⟩ := counts_fade list other playing kind begun point state kindN timing long live held ready
        calm channels
      exact ⟨_, exec_seguePoint due here, frame, fun _ => ⟨list', lineC, lineD⟩, fun same => absurd same channels⟩
  · obtain ⟨here, list', apart, -, frame⟩ := counts_cut list other playing kind begun (by rw [seguePoint_cut kind, point]) state kindN
      timing long (by rw [mode]; nofun) held ready calm (crossfades_cut (q := { e with elapsed := e.elapsed + 1 }) kind)
    obtain ⟨low, high⟩ := apart channels
    exact ⟨_, exec_seguePoint due here, list', low, high, frame⟩
  · obtain ⟨here, list', low, high, log, frame⟩ := counts_passed list serials channels playing kind begun point stop timingZ kindN timing
      long mode held ready calm
    exact ⟨_, exec_seguePoint due here, list', low, high, log, frame⟩

/-! ### Crossfades end, and run lines rise (R61, R65) -/

/-- At the boundary after a fade's last the FADING entry ends (R65). -/
theorem counts_fadeOver {s : State} {o p : CueEntry} {c d : Nth} {l m : Option Nat} {g : Segue} {f : Nat} {pol qol : Policy}
    (list : s.cue.list = [o, p]) (other : o.serial ≠ p.serial) (channels : c ≠ d) (calm : ∀ k, (s.cue.run.get k).riseAfter = none)
    (fading : o.state = .fading) (kindO : o.kind = .item c l (.fade f) pol) (playing : p.state = .playing)
    (kind : p.kind = .item d m g qol) (begun : p.begun < s.boundaryNo) (elapsed : p.elapsed = f) (open_ : m = none)
    (short : p.elapsed + 1 < 1440000) :
    let u := finish (s.withDue []) (cueCounts (clearMarks (s.withDue [])))
    fadeOver (counting s) = true ∧ u.cue.list = [{ p with elapsed := f + 1 }] ∧ (u.cue.run.get c).high = false ∧
    (u.cue.run.get d).high = (s.cue.run.get d).high ∧ { u with cue := s.cue, pi := s.pi, due := s.due } = s := by
  have wlist : (counting s).cue.list = [o.tick s.boundaryNo, { p with elapsed := p.elapsed + 1 }] := by
    rw [counting_list, list]
    simp only [List.map_cons, List.map_nil]
    rw [tick_of (.inl playing) begun]
  generalize ho : o.tick s.boundaryNo = o' at wlist
  have stateO : o'.state = .fading := by rw [← ho, tick_cueState, fading]
  have kindO' : o'.kind = .item c l (.fade f) pol := by rw [← ho, tick_kind, kindO]
  have serialO : o'.serial = o.serial := by rw [← ho, tick_serial]
  have isPlaying : (counting s).cue.playing = some { p with elapsed := p.elapsed + 1 } := by
    show (counting s).cue.list.find? _ = _
    rw [wlist]
    simp [stateO, playing]
  have isFading : (counting s).cue.fading = some o' := by
    show (counting s).cue.list.find? _ = _
    rw [wlist]
    simp [stateO]
  have over_ : fadeOver (counting s) = true := by
    unfold fadeOver
    rw [isPlaying, isFading]
    refine decide_eq_true ?_
    rw [CueEntry.fade, kindO']
    show f < p.elapsed + 1
    omega
  have left : (((counting s).cue.without o').dropLine o').list = [{ p with elapsed := p.elapsed + 1 }] := by
    rw [cue_dropLine_list]
    exact without_head wlist (by simpa [serialO] using other.symm)
  generalize hx : ((counting s).cue.without o').dropLine o' = x at left
  have ended : recue (endFading (counting s)) = raise .entryEnded ((counting s).withCue x) := by
    unfold endFading
    rw [isFading]
    dsimp only
    rw [leave_onAir (.inr stateO), hx]
    refine recue_still fun y mem => ?_
    have mem' : y ∈ x.list := mem
    rw [left, List.mem_singleton] at mem'
    rw [mem', CueEntry.waits, playing]
    rfl
  have plays : (raise .entryEnded ((counting s).withCue x)).cue.playing = some { p with elapsed := p.elapsed + 1 } := by
    show x.list.find? _ = _
    rw [left]
    exact List.find?_cons_of_pos (by simpa using playing)
  have noLength : ({ p with elapsed := p.elapsed + 1 } : CueEntry).length = none := (length_item kind).trans open_
  have counts : cueCounts (clearMarks (s.withDue [])) = raise .entryEnded ((counting s).withCue x) := by
    refine cueCounts_still ((if_pos over_).trans ended) ?_ ?_ ?_
    · rw [atLimit_item plays kind, open_]
      exact decide_eq_false (by show ¬ 1440000 ≤ p.elapsed + 1; omega)
    · refine Bool.eq_false_iff.2 fun at_ => ?_
      have point := ((atSegue_iff plays).1 at_).1
      rw [CueEntry.seguePoint, noLength] at point
      cases point
    · refine Bool.eq_false_iff.2 fun at_ => ?_
      obtain ⟨n, length, -⟩ := (atLength_iff plays).1 at_
      rw [noLength] at length
      cases length
  have closed := closes_finish (s.withDue []) (a := raise .entryEnded ((counting s).withCue x)) fun st => by
    have st' : x.started = true := st
    rw [← hx, dropLine_eq] at st'
    cases st'
  have line (k : Nth) : x.run.get k = if k = c then ({ s.cue.run.get k with fell := false } : RunLine).drop
      else { s.cue.run.get k with fell := false } := by
    rw [← hx, without_line (player_item kindO'), counting_line (calm k)]
  rw [counts]
  refine ⟨over_, closed.list.trans (left.trans (by rw [elapsed])), (closed.high c).trans ?_, (closed.high d).trans ?_,
    closed.over rfl (fun v : State => { v with cue := s.cue, pi := s.pi, due := s.due }) fun _ => rfl⟩
  · exact (congrArg RunLine.high (line c)).trans (congrArg RunLine.high (if_pos rfl))
  · exact (congrArg RunLine.high ((line d).trans (if_neg channels.symm))).trans rfl

/-- A run line that was held low rises at the next boundary (R61). -/
theorem counts_rise {s : State} {p : CueEntry} {c : Nth} {m : Option Nat} {g : Segue} {pol : Policy} {b : Nat}
    (list : s.cue.list = [p]) (playing : p.state = .playing) (kind : p.kind = .item c m g pol) (open_ : m = none)
    (begun : p.begun < s.boundaryNo) (short : p.elapsed + 1 < 1440000) (awaited : (s.cue.run.get c).riseAfter = some b)
    (past : b < s.boundaryNo) :
    let u := finish (s.withDue []) (cueCounts (clearMarks (s.withDue [])))
    (s.cue.run.get c).due s.boundaryNo = true ∧ u.cue.list = [{ p with elapsed := p.elapsed + 1 }] ∧ (u.cue.run.get c).high = true ∧
    (u.cue.run.get c).riseAfter = none ∧ { u with cue := s.cue, pi := s.pi, due := s.due } = s := by
  have wlist := counting_singleton list playing begun
  obtain ⟨plays, fading, -⟩ := singleton_states wlist playing
  have noLength : ({ p with elapsed := p.elapsed + 1 } : CueEntry).length = none := (length_item kind).trans open_
  have counts : cueCounts (clearMarks (s.withDue [])) = counting s := by
    refine cueCounts_still (if_neg (by rw [show fadeOver (counted _) = fadeOver (counting s) from rfl, fadeOver_none fading]; nofun)) ?_ ?_ ?_
    · rw [atLimit_item plays kind, open_]
      exact decide_eq_false (by show ¬ 1440000 ≤ p.elapsed + 1; omega)
    · refine Bool.eq_false_iff.2 fun at_ => ?_
      have point := ((atSegue_iff plays).1 at_).1
      rw [CueEntry.seguePoint, noLength] at point
      cases point
    · refine Bool.eq_false_iff.2 fun at_ => ?_
      obtain ⟨n, length, -⟩ := (atLength_iff plays).1 at_
      rw [noLength] at length
      cases length
  have closed := closes_finish (s.withDue []) (a := counting s) fun st => by cases st
  have rises : (s.cue.run.get c).due s.boundaryNo = true := by
    unfold RunLine.due
    rw [awaited]
    exact decide_eq_true past
  have sounding : (clearMarks (s.withDue [])).cue.sounding c = true := by
    unfold CUE.sounding
    rw [show (clearMarks (s.withDue [])).cue.list = [p] from list]
    simp [player_item kind, playing]
  have line : (counting s).cue.run.get c = { s.cue.run.get c with fell := false, high := true, riseAfter := none } := by
    refine (delayedRises_get (clearMarks (s.withDue [])) c).trans ?_
    rw [sounding, clearMarks_get]
    exact (if_pos rises).trans (by rw [Bool.or_true])
  rw [counts]
  refine ⟨rises, closed.list.trans wlist, (closed.high c).trans (by rw [line]), (closed.riseAfter c).trans (by rw [line]),
    closed.over rfl (fun v : State => { v with cue := s.cue, pi := s.pi, due := s.due }) fun _ => rfl⟩

/-- Settles O31: CUE's event for its counts at the end of a fade and at a delayed rise. -/
theorem crossfadesEndAndRunLinesRise : Obligations.CrossfadesEndAndRunLinesRise := by
  refine fun s due mode held => ⟨fun o p c d l m g f pol qol list other channels calm fading kindO playing kind begun elapsed open_
    short => ?_, fun p c m g pol b list playing kind open_ begun short awaited past => ?_⟩
  · obtain ⟨here, list', low, same, frame⟩ := counts_fadeOver list other channels calm fading kindO playing kind begun elapsed open_
      short
    exact ⟨_, exec_crossfadeEnd due here, list', low, same, frame⟩
  · obtain ⟨here, list', high, none_, frame⟩ := counts_rise list playing kind open_ begun short awaited past
    exact ⟨_, exec_runLineDelayedRise due here, list', high, none_, frame⟩

end Sys2Proof.Machine
end

section
/-! The times that fall due at a boundary: which do, and what the hard ones lead to (R74, R75, R77). -/

namespace Sys2Proof.Machine

open Sys2Proof

/-! ### The rows -/

theorem takeBefore_times {s : State} (due : s.due = [.cueTimes]) : takeBefore .cueTimes s = s := by
  unfold takeBefore
  rw [if_neg nofun, clockFirst_of_not (by simp [due])]
  refine takeOne_of_not _ _ fun d mem => ?_
  rw [due, List.mem_singleton] at mem
  rw [mem]
  nofun

theorem exec_hardTimeDue {s : State} (due : s.due = [.cueTimes]) (h : ((dueEntries s).any fun e => !e.breaksIn) = true) :
    exec .hardTimeDue s = .next (finish (s.withDue []) (cueTimes (clearMarks (s.withDue [])))) :=
  congrArg Host.Outcome.next (stageRow_of_one (d := .cueTimes) due nofun h)

theorem exec_breakInDue {s : State} (due : s.due = [.cueTimes]) (h : (dueEntries s).any CueEntry.breaksIn = true) :
    exec .breakInDue s = .next (finish (s.withDue []) (cueTimes (clearMarks (s.withDue [])))) :=
  congrArg Host.Outcome.next (stageRow_of_one (d := .cueTimes) due nofun h)

/-- With no time due neither row has an occasion. -/
theorem exec_nothingDue {s : State} (due : s.due = [.cueTimes]) (none_ : dueEntries s = []) :
    exec .hardTimeDue s = .next s ∧ exec .breakInDue s = .next s :=
  ⟨congrArg Host.Outcome.next (stageRow_of_no_occasion (by rw [takeBefore_times due, none_]; rfl)),
    congrArg Host.Outcome.next (stageRow_of_no_occasion (by rw [takeBefore_times due, none_]; rfl))⟩

/-! ### Which times fall due (R74, R77) -/

/-- A time falls due for an entry at this boundary. -/
def CueEntry.isDue (s : State) (e : CueEntry) : Bool := decide (e.added < s.boundaryNo) && e.compared.any fun t => cueTimeDue s t

theorem dueEntries_eq (s : State) : dueEntries s = s.cue.list.filter (CueEntry.isDue s) := rfl

theorem isDue_hard {s : State} {e : CueEntry} {t : Nat} (waits : e.waits = true) (timing : e.timing = .hard t)
    (late : e.timeReached = false) (added : e.added < s.boundaryNo) : e.isDue s = cueTimeDue s t := by
  unfold CueEntry.isDue CueEntry.compared
  rw [waits, timing, late, decide_eq_true added]
  rfl

theorem isDue_breakIn {s : State} {e : CueEntry} {t : Nat} (waits : e.waits = true) (timing : e.timing = .breakIn t)
    (added : e.added < s.boundaryNo) : e.isDue s = cueTimeDue s t := by
  unfold CueEntry.isDue CueEntry.compared
  rw [waits, timing, decide_eq_true added]
  rfl

theorem isDue_untimed {s : State} {e : CueEntry} (timing : e.timing = .none) : e.isDue s = false := by
  unfold CueEntry.isDue CueEntry.compared
  rw [timing]
  cases e.waits <;> exact Bool.and_false _

theorem isDue_started {s : State} {e : CueEntry} (waits : e.waits = false) : e.isDue s = false := by
  unfold CueEntry.isDue CueEntry.compared
  rw [waits]
  exact Bool.and_false _

/-- Without a setting the time that falls due is the air clock's (R74). -/
theorem cueTimeDue_clock {s : State} (set_ : s.tb.clockSet = true) (report : s.tb.report = none) :
    cueTimeDue s s.tb.clock = true := by
  unfold cueTimeDue
  rw [set_, report]
  exact decide_eq_true rfl

theorem stamp_set {s : State} (set_ : s.tb.clockSet = true) : stamp s = some s.tb.clock := by
  unfold stamp
  rw [set_]
  rfl

/-- The first of the times due is taken, the others missed (R75, R76). -/
theorem cueTimes_takes {s : State} {e : CueEntry} {others : List CueEntry} (due : dueEntries s = e :: others)
    (jump : s.tb.report.any ClockReport.jump = false) : cueTimes s = takeDueEntry e (others.foldl (miss .sameTime) s) := by
  unfold cueTimes
  rw [due]
  exact if_neg (by rw [jump]; nofun)

/-- A jump of the clock has all of them missed (R77). -/
theorem cueTimes_jumps {s : State} {e : CueEntry} {others : List CueEntry} (due : dueEntries s = e :: others)
    (jump : s.tb.report.any ClockReport.jump = true) :
    cueTimes s = settleList false ((e :: others).foldl (miss .clockJump) s) := by
  unfold cueTimes
  rw [due]
  exact if_pos jump

theorem takeDueEntry_hard {e : CueEntry} {t : Nat} (s : State) (timing : e.timing = .hard t) : takeDueEntry e s = hardTimeDue e s := by
  unfold takeDueEntry
  rw [timing]

/-! ### An entry is missed (R74 to R77) -/

theorem miss_waits {e : CueEntry} {s : State} (c : MissCause) (state : e.state = .waiting ∨ e.state = .cued) : miss c s e =
    raise .hardTime (logEntry .itemMissed (.cue e.serial) (.missed c) (s.withCue (s.cue.without e))) := by
  unfold miss leaveMissed
  rw [leave_waits state]

/-- With nothing that waits the list settles as it is. -/
theorem settleList_false_still {s : State} (h : ∀ y ∈ s.cue.list, y.waits = false) : settleList false s = s := by
  unfold settleList
  rw [recueLoop_settles 64 (settles_of_none_waits h), recue_of_none_waits h]
  rfl

/-- How an event closes in which the one entry of the list has been missed. -/
theorem closes_missed (b : State) {v : State} {e : CueEntry} (c : MissCause) (list : v.cue.list = [e])
    (state : e.state = .waiting ∨ e.state = .cued) (started : v.cue.started = false) :
    let a := raise .hardTime (logEntry .itemMissed (.cue e.serial) (.missed c) (v.withCue (v.cue.without e)))
    settleList false (miss c v e) = a ∧ Closes b a (finish b (settleList false (miss c v e))) ∧
    (finish b (settleList false (miss c v e))).cue.list = [] ∧
    (finish b (settleList false (miss c v e))).log = v.log.append (stamp v) .itemMissed (.cue e.serial) (.missed c) := by
  have gone : (v.cue.without e).list = [] := without_singleton list
  have settled : settleList false (miss c v e) =
      raise .hardTime (logEntry .itemMissed (.cue e.serial) (.missed c) (v.withCue (v.cue.without e))) := by
    rw [miss_waits c state]
    refine settleList_false_still fun y mem => ?_
    have mem' : y ∈ (v.cue.without e).list := mem
    rw [gone] at mem'
    cases mem'
  have closed := closes_finish b
    (a := raise .hardTime (logEntry .itemMissed (.cue e.serial) (.missed c) (v.withCue (v.cue.without e)))) fun st =>
      absurd (started.symm.trans st) nofun
  rw [settled]
  exact ⟨rfl, closed, closed.list.trans gone, closed.log⟩

/-! ### A hard time (R75) -/

/-- In an automatic mode with the sequence held a hard time is missed. -/
theorem hardTimeDue_held {e : CueEntry} {s : State} (mode : s.air.mode ≠ .live) (held : s.cue.held = true) :
    hardTimeDue e s = settleList false (miss .held s e) := by
  unfold hardTimeDue
  exact if_pos ⟨automatic_of_ne_live mode, held⟩

theorem recue_frame (x : CUE) : x.recue = { x with list := x.recue.list } := rfl

/-- In LIVE its entry is marked, and what stood before it has left. -/
theorem hardTimeDue_live {e : CueEntry} {s v : State} (mode : s.air.mode = .live)
    (passed : (passedOver e s.cue.list).foldl (fun s x => leaveSkipped .hardTime x s) s = v) (vmode : v.air.mode = .live)
    (list : v.cue.list = [e]) (waits : e.waits = true) (breaksIn : e.breaksIn = false) : hardTimeDue e s =
      raise .hardTime (v.withCue { v.cue with list := [{ e with state := .cued, timeReached := true }] }) := by
  have marked : (v.cue.modify e.serial fun x => { x with timeReached := true }) =
      { v.cue with list := [{ e with timeReached := true }] } := by
    unfold CUE.modify
    rw [list]
    simp
  have chosen : ({ v.cue with list := [{ e with timeReached := true }] } : CUE).recue =
      { v.cue with list := [{ e with state := .cued, timeReached := true }] } :=
    recue_alone (x := { v.cue with list := [{ e with timeReached := true }] }) rfl (by
      show (CueEntry.waits e && !CueEntry.breaksIn e) = true
      rw [waits, breaksIn]
      rfl)
  have settled : recue (v.withCue { v.cue with list := [{ e with timeReached := true }] }) =
      v.withCue { v.cue with list := [{ e with state := .cued, timeReached := true }] } := by
    rw [recue_settles (settles_of_mode (by show v.air.mode ≠ _; rw [vmode]; nofun))]
    exact congrArg v.withCue chosen
  unfold hardTimeDue
  rw [if_neg (by rw [mode]; nofun)]
  dsimp only
  rw [if_neg (by rw [mode]; nofun), passed, marked, settled]

/-- In an automatic mode with nothing PLAYING it starts. -/
theorem hardTimeDue_starts {e : CueEntry} {s v : State} (mode : s.air.mode ≠ .live) (held : s.cue.held = false)
    (passed : (passedOver e s.cue.list).foldl (fun s x => leaveSkipped .hardTime x s) s = v)
    (list : v.cue.list = [e]) (waits : e.waits = true) : hardTimeDue e s =
      raise .entryStarted (v.withCue (v.cue.play e 0 (joinEndAt e v) v.boundaryNo)) := by
  have idle : v.cue.playing = none := by
    show v.cue.list.find? _ = none
    have other : e.state ≠ .playing := fun h => by
      rw [CueEntry.waits, h] at waits
      cases waits
    rw [list]
    simp [other]
  unfold hardTimeDue
  rw [if_neg (by rw [held]; exact fun h => absurd h.2 nofun)]
  dsimp only
  rw [if_pos (automatic_of_ne_live mode), passed, idle]
  exact recue_start_singleton list

/-- With an entry PLAYING it takes over from it. -/
theorem hardTimeDue_segues {e q : CueEntry} {s v : State} (mode : s.air.mode ≠ .live) (held : s.cue.held = false)
    (passed : (passedOver e s.cue.list).foldl (fun s x => leaveSkipped .hardTime x s) s = v)
    (playing : v.cue.playing = some q) : hardTimeDue e s = segueTo q e v := by
  unfold hardTimeDue
  rw [if_neg (by rw [held]; exact fun h => absurd h.2 nofun)]
  dsimp only
  rw [if_pos (automatic_of_ne_live mode), passed, playing]

/-! ### What stands before a hard time (R75) -/

theorem passedOver_prefix {before : List CueEntry} {e : CueEntry} (serials : ∀ x ∈ before, x.serial ≠ e.serial)
    (rest : List CueEntry) : passedOver e (before ++ e :: rest) = before.filter CueEntry.cueable := by
  unfold passedOver
  have first : (before ++ e :: rest).takeWhile (fun x => !decide (x.serial = e.serial)) = before := by
    rw [List.takeWhile_append_of_pos (by simpa using serials), List.takeWhile_cons_of_neg (by simp), List.append_nil]
  rw [first]

theorem leaveSkipped_waits (c : SkipCause) {x : CueEntry} {v : State} (waits : x.state = .waiting ∨ x.state = .cued) :
    leaveSkipped c x v = logEntry .itemSkipped (.cue x.serial) (.skipped c) (v.withCue (v.cue.without x)) := by
  unfold leaveSkipped
  rw [leave_waits waits]

/-- The entries of a list leave one after the other as SKIPPED, HARD TIME. -/
theorem foldl_skips (before : List CueEntry) {v : State} (waits : ∀ x ∈ before, x.state = .waiting ∨ x.state = .cued) :
    let u := before.foldl (fun s x => leaveSkipped .hardTime x s) v
    u.log = before.foldl (fun log x => log.append (stamp v) .itemSkipped (.cue x.serial) (.skipped .hardTime)) v.log ∧
    { u with cue := v.cue, log := v.log, pi := v.pi } = v ∧
    u.cue = { v.cue with list := v.cue.list.filter fun y => !decide (y.serial ∈ before.map (·.serial)) } := by
  induction before generalizing v with
  | nil =>
    refine ⟨rfl, rfl, ?_⟩
    have all : v.cue.list.filter (fun y => !decide (y.serial ∈ ([] : List CueEntry).map (·.serial))) = v.cue.list :=
      List.filter_eq_self.2 fun y _ => by simp
    rw [all]
    rfl
  | cons x before ih =>
    obtain ⟨log, frame, cue⟩ := ih (v := logEntry .itemSkipped (.cue x.serial) (.skipped .hardTime) (v.withCue (v.cue.without x)))
      fun y mem => waits y (List.mem_cons_of_mem _ mem)
    rw [List.foldl_cons, leaveSkipped_waits .hardTime (waits x List.mem_cons_self)]
    refine ⟨log, (congrArg (fun w : State => { w with cue := v.cue, log := v.log, pi := v.pi }) frame :), cue.trans ?_⟩
    have lists : (v.cue.without x).list.filter (fun y => !decide (y.serial ∈ before.map (·.serial))) =
        v.cue.list.filter (fun y => !decide (y.serial ∈ (x :: before).map (·.serial))) := by
      show (v.cue.list.filter fun y => !decide (y.serial = x.serial)).filter
        (fun y => !decide (y.serial ∈ before.map (·.serial))) = _
      rw [List.filter_filter]
      refine List.filter_congr fun y _ => ?_
      simp only [List.map_cons, List.mem_cons, Bool.decide_or, Bool.not_or]
      exact Bool.and_comm _ _
    exact congrArg (fun l => ({ v.cue with list := l } : CUE)) lists

theorem foldl_skips_notified (before : List CueEntry) {v : State} (waits : ∀ x ∈ before, x.state = .waiting ∨ x.state = .cued) :
    Notified v (before.foldl (fun s x => leaveSkipped .hardTime x s) v) := by
  induction before generalizing v with
  | nil => exact notified_of_pi rfl
  | cons x before ih =>
    rw [List.foldl_cons, leaveSkipped_waits .hardTime (waits x List.mem_cons_self)]
    exact ((notified_of_pi rfl).trans (notified_logEntry .itemSkipped (.cue x.serial) (.skipped .hardTime)
      (v.withCue (v.cue.without x)))).trans (ih fun y mem => waits y (List.mem_cons_of_mem _ mem))

end Sys2Proof.Machine
end

section
/-! BREAK-INs that fall due (R31, R33, R44, R47, R72, R76). -/

namespace Sys2Proof.Machine

open Sys2Proof

theorem takeDueEntry_breakIn {e : CueEntry} {t len : Nat} {f : Feed} (s : State) (timing : e.timing = .breakIn t)
    (kind : e.kind = .join f len) : takeDueEntry e s = breakInDue e len t s := by
  unfold takeDueEntry
  rw [timing, length_join kind]

theorem blocksFrom_self (t : Nat) : blocksFrom t t = 0 := by
  unfold blocksFrom
  show (t + 17280000 - t) % 17280000 = 0
  omega

/-- A BREAK-IN that AIR refuses is missed, with STACK FULL (R33, R44, R47, R76). -/
theorem breakInDue_refused {e : CueEntry} {len : Nat} {s : State} (long : 1 ≤ len)
    (no : (s.air.chain = .none ∧ s.air.maxDepth ≤ s.air.stack.length) ∨ s.air.chain = .withoutContext ∨
      (s.air.chain = .withContext ∧ ∃ r rest, s.air.stack = r :: rest ∧ r.late ≠ none)) :
    breakInDue e len s.tb.clock s = settleList false (miss .stackFull (logStackFull (.cue e.serial) s) e) := by
  unfold breakInDue
  dsimp only
  rw [blocksFrom_self, if_neg (by omega)]
  rcases no with ⟨chain, full⟩ | chain | ⟨chain, r, rest, stack, late⟩
  · rw [chain]
    exact if_neg (by simpa [AIR.hasRoom] using full)
  · rw [chain]
  · rw [chain, stack]
    exact if_pos (Option.isSome_iff_ne_none.2 late)

/-- While a chain with its record holds the air it is held in the record (R47). -/
theorem breakInDue_late {e : CueEntry} {len : Nat} {s : State} {r : ContextRecord} {rest : List ContextRecord}
    (long : 1 ≤ len) (chain : s.air.chain = .withContext) (stack : s.air.stack = r :: rest)
    (late : r.late = none) (list : s.cue.list = [e]) : breakInDue e len s.tb.clock s =
      (s.withAir { s.air with stack := { r with late := some (e.serial, s.tb.clock) } :: rest }).withCue
        { s.cue with list := [{ e with state := .cuedLate }] } := by
  have marked : (s.cue.modify e.serial fun x => { x with state := .cuedLate }) =
      { s.cue with list := [{ e with state := .cuedLate }] } := by
    unfold CUE.modify
    rw [list]
    simp
  unfold breakInDue
  dsimp only
  rw [blocksFrom_self, if_neg (by omega), chain, stack]
  dsimp only
  rw [if_neg (by rw [late]; nofun), ← chain]
  refine (congrArg recue (congrArg (s.withAir { s.air with stack := { r with late := some (e.serial, s.tb.clock) } :: rest }).withCue
    marked)).trans (recue_still fun y mem => ?_)
  have mem' : y ∈ [({ e with state := .cuedLate } : CueEntry)] := mem
  rw [List.mem_singleton.1 mem']
  rfl

/-- With nothing on air a suspension holds the sequence alone (R70). -/
theorem suspend_idle {s : State} (fading : s.cue.fading = none) (playing : s.cue.playing = none) :
    suspend s = s.withCue { s.cue with held := true } := by
  unfold suspend
  rw [endFading_none fading]
  dsimp only
  rw [playing]

/-- With room on the stack it is given a record and starts at once (R31, R72, R76). -/
theorem breakInDue_starts {e : CueEntry} {len : Nat} {s : State} (long : 1 ≤ len)
    (chain : s.air.chain = .none) (room : s.air.stack.length < s.air.maxDepth) (list : s.cue.list = [e]) (state : e.state = .waiting) :
    breakInDue e len s.tb.clock s = logEntry .joinStart (.cue e.serial) (.number len)
      (raise .entryStarted ((push .breakIn s).withCue (({ s.cue with held := true } : CUE).play e 0
        (some ((s.tb.clock + len) % 17280000)) s.boundaryNo))) := by
  have fading : s.cue.fading = none := by
    show s.cue.list.find? _ = none
    rw [list]
    simp [state]
  have playing : s.cue.playing = none := by
    show s.cue.list.find? _ = none
    rw [list]
    simp [state]
  have cue : (push .breakIn s).cue = { s.cue with held := true } := by rw [push_cue, suspend_idle fading playing]; rfl
  have no : (push .breakIn s).boundaryNo = s.boundaryNo := (congrArg State.boundaryNo (push_frame .breakIn s) :)
  have starts : setPlaying e.serial 0 (some ((s.tb.clock + len) % 17280000)) (push .breakIn s) = raise .entryStarted
      ((push .breakIn s).withCue (({ s.cue with held := true } : CUE).play e 0 (some ((s.tb.clock + len) % 17280000)) s.boundaryNo)) := by
    have find_ : (push .breakIn s).cue.find e.serial = some e := by
      rw [cue]
      exact find_singleton (x := { s.cue with held := true }) list
    rw [setPlaying_eq 0 _ find_, cue, no]
  have settled : recue (setPlaying e.serial 0 (some ((s.tb.clock + len) % 17280000)) (push .breakIn s)) =
      setPlaying e.serial 0 (some ((s.tb.clock + len) % 17280000)) (push .breakIn s) := by
    rw [starts]
    refine recue_still fun y mem => ?_
    have mem' : y ∈ (({ s.cue with held := true } : CUE).play e 0 (some ((s.tb.clock + len) % 17280000)) s.boundaryNo).list := mem
    rw [play_singleton (x := { s.cue with held := true }) list, List.mem_singleton] at mem'
    rw [mem']
    rfl
  have has : s.air.hasRoom = true := by simpa [AIR.hasRoom] using room
  unfold breakInDue
  dsimp only
  rw [blocksFrom_self, if_neg (by omega), chain]
  dsimp only
  rw [if_pos has]
  exact congrArg (logEntry .joinStart (.cue e.serial) (.number len)) (settled.trans starts)

end Sys2Proof.Machine
end

section
/-! The clauses of the times that fall due (R14, R31, R33, R44, R47, R72, R74 to R77). -/

namespace Sys2Proof.Machine

open Sys2Proof

variable {s : State}

/-- An entry at whose hard time nothing stands before it is marked in LIVE (R75). -/
theorem times_reached {e : CueEntry} {t : Nat} (due : s.due = [.cueTimes]) (list : s.cue.list = [e]) (state : e.state = .cued)
    (timing : e.timing = .hard t) (here : dueEntries s = [e]) (jump : s.tb.report.any ClockReport.jump = false)
    (mode : s.air.mode = .live) : ∃ u, exec .hardTimeDue s = .next u ∧ u.cue.list = [{ e with timeReached := true }] ∧
      (∀ q, (s.port q).init = .high → (u.port q).flags.getLsbD 3 = true) ∧ { u with cue := s.cue, pi := s.pi, due := s.due } = s := by
  have breaksIn : e.breaksIn = false := by rw [CueEntry.breaksIn, timing]
  have passed : (passedOver e (clearMarks (s.withDue [])).cue.list).foldl (fun s x => leaveSkipped .hardTime x s)
      (clearMarks (s.withDue [])) = clearMarks (s.withDue []) := by
    rw [show (clearMarks (s.withDue [])).cue.list = [] ++ e :: [] from list, passedOver_prefix (List.forall_mem_nil _)]
    rfl
  have event_ := (cueTimes_takes (s := clearMarks (s.withDue [])) here jump).trans
    ((takeDueEntry_hard (clearMarks (s.withDue [])) timing).trans
      (hardTimeDue_live (s := clearMarks (s.withDue [])) mode passed mode list (by rw [CueEntry.waits, state]; rfl) breaksIn))
  have closed := closes_finish (s.withDue []) (a := raise .hardTime ((clearMarks (s.withDue [])).withCue
    { (clearMarks (s.withDue [])).cue with list := [{ e with state := .cued, timeReached := true }] })) fun st => by cases st
  refine ⟨_, (exec_hardTimeDue due (by rw [here]; simp [breaksIn])).trans
    (congrArg (fun a => Host.Outcome.next (finish (s.withDue []) a)) event_), closed.list.trans ?_, fun q up => ?_, ?_⟩
  · show [_] = _
    rw [← state]
  · exact closed.raised (s := s) (k := .hardTime) (v := (clearMarks (s.withDue [])).withCue
      { (clearMarks (s.withDue [])).cue with list := [{ e with state := .cued, timeReached := true }] }) (notified_of_pi rfl)
      (fun _ => ⟨rfl, fun _ h => h⟩) up
  · exact closed.over rfl (fun v : State => { v with cue := s.cue, pi := s.pi, due := s.due }) fun _ => rfl

/-- The one entry of the list is missed at its time (R75, R77). -/
theorem times_missed {e : CueEntry} {c : MissCause} (due : s.due = [.cueTimes]) (list : s.cue.list = [e])
    (state : e.state = .waiting ∨ e.state = .cued) (breaksIn : e.breaksIn = false) (here : dueEntries s = [e])
    (set_ : s.tb.clockSet = true)
    (missed : cueTimes (clearMarks (s.withDue [])) = settleList false (miss c (clearMarks (s.withDue [])) e)) :
    ∃ u, exec .hardTimeDue s = .next u ∧ u.cue.list = [] ∧
      (∀ q, (s.port q).init = .high → (u.port q).flags.getLsbD 3 = true) ∧
      u.log = s.log.append (some s.tb.clock) .itemMissed (.cue e.serial) (.missed c) ∧
      { u with cue := s.cue, log := s.log, pi := s.pi, due := s.due } = s := by
  obtain ⟨settled, closed, list', log⟩ := closes_missed (s.withDue []) (v := clearMarks (s.withDue [])) c list state rfl
  refine ⟨_, (exec_hardTimeDue due (by rw [here]; simp [breaksIn])).trans
    (congrArg (fun a => Host.Outcome.next (finish (s.withDue []) a)) missed), list', fun q up => ?_, log.trans ?_, ?_⟩
  · exact closed.raised (s := s) (k := .hardTime) (v := logEntry .itemMissed (.cue e.serial) (.missed c)
      ((clearMarks (s.withDue [])).withCue ((clearMarks (s.withDue [])).cue.without e)))
      ((notified_of_pi rfl).trans (notified_logEntry .itemMissed (.cue e.serial) (.missed c) _)) (fun _ => ⟨rfl, fun _ h => h⟩) up
  · rw [show stamp (clearMarks (s.withDue [])) = stamp s from rfl, stamp_set set_]
    rfl
  · exact closed.over rfl (fun v : State => { v with cue := s.cue, log := s.log, pi := s.pi, due := s.due }) fun _ => rfl

end Sys2Proof.Machine
end

section
/-! Further clauses of the times that fall due (R31, R33, R44, R47, R64, R72, R75, R76). -/

namespace Sys2Proof.Machine

open Sys2Proof

variable {s : State}

/-- Of two entries that fall due together the second is missed, the first marked in LIVE (R75). -/
theorem times_together {e f : CueEntry} (due : s.due = [.cueTimes]) (list : s.cue.list = [e, f]) (other : e.serial ≠ f.serial)
    (stateE : e.state = .cued) (stateF : f.state = .waiting) (timingE : e.timing = .hard s.tb.clock)
    (here : dueEntries s = [e, f]) (set_ : s.tb.clockSet = true) (report : s.tb.report = none) (mode : s.air.mode = .live) :
    ∃ u, exec .hardTimeDue s = .next u ∧ u.cue.list = [{ e with timeReached := true }] ∧
      (∀ q, (s.port q).init = .high → (u.port q).flags.getLsbD 3 = true) ∧
      u.log = s.log.append (some s.tb.clock) .itemMissed (.cue f.serial) (.missed .sameTime) ∧
      { u with cue := s.cue, log := s.log, pi := s.pi, due := s.due } = s := by
  have breaksIn : e.breaksIn = false := by rw [CueEntry.breaksIn, timingE]
  have left : ((clearMarks (s.withDue [])).cue.without f).list = [e] := by
    show s.cue.list.filter _ = _
    rw [list]
    simp [other]
  have missed := miss_waits (s := clearMarks (s.withDue [])) .sameTime (.inl stateF)
  have notes : Notified s (raise .hardTime (logEntry .itemMissed (.cue f.serial) (.missed .sameTime)
      ((clearMarks (s.withDue [])).withCue ((clearMarks (s.withDue [])).cue.without f)))) :=
    ((notified_of_pi rfl).trans (notified_logEntry .itemMissed (.cue f.serial) (.missed .sameTime) _)).trans
      (notified_raise .hardTime (logEntry .itemMissed (.cue f.serial) (.missed .sameTime)
        ((clearMarks (s.withDue [])).withCue ((clearMarks (s.withDue [])).cue.without f))))
  have jump : (clearMarks (s.withDue [])).tb.report.any ClockReport.jump = false := by
    rw [show (clearMarks (s.withDue [])).tb.report = none from report]
    rfl
  have event_ := cueTimes_takes (s := clearMarks (s.withDue [])) here jump
  rw [List.foldl_cons, List.foldl_nil, missed] at event_
  have frame : { raise .hardTime (logEntry .itemMissed (.cue f.serial) (.missed .sameTime)
      ((clearMarks (s.withDue [])).withCue ((clearMarks (s.withDue [])).cue.without f))) with
      cue := s.cue, log := s.log, due := s.due, pi := s.pi } = s := rfl
  have log : (raise .hardTime (logEntry .itemMissed (.cue f.serial) (.missed .sameTime)
      ((clearMarks (s.withDue [])).withCue ((clearMarks (s.withDue [])).cue.without f)))).log =
      s.log.append (stamp s) .itemMissed (.cue f.serial) (.missed .sameTime) := rfl
  have cue : (raise .hardTime (logEntry .itemMissed (.cue f.serial) (.missed .sameTime)
      ((clearMarks (s.withDue [])).withCue ((clearMarks (s.withDue [])).cue.without f)))).cue =
      (clearMarks (s.withDue [])).cue.without f := rfl
  generalize raise .hardTime (logEntry .itemMissed (.cue f.serial) (.missed .sameTime)
    ((clearMarks (s.withDue [])).withCue ((clearMarks (s.withDue [])).cue.without f))) = v at event_ notes frame log cue
  have vmode : v.air.mode = .live := (congrArg (fun w : State => w.air.mode) frame :).trans mode
  have vlist : v.cue.list = [e] := by rw [cue, left]
  have passed : (passedOver e v.cue.list).foldl (fun s x => leaveSkipped .hardTime x s) v = v := by
    rw [show v.cue.list = [] ++ e :: [] from vlist, passedOver_prefix (List.forall_mem_nil _)]
    rfl
  rw [takeDueEntry_hard v timingE,
    hardTimeDue_live vmode passed vmode vlist (by rw [CueEntry.waits, stateE]; rfl) breaksIn] at event_
  have closed := closes_finish (s.withDue []) (a := raise .hardTime (v.withCue { v.cue with
    list := [{ e with state := .cued, timeReached := true }] })) fun st => by
      have st' : v.cue.started = true := st
      rw [cue] at st'
      cases st'
  have lsw : v.lsw = s.lsw := (congrArg State.lsw frame :)
  refine ⟨_, (exec_hardTimeDue due (by rw [here]; simp [breaksIn])).trans
    (congrArg (fun a => Host.Outcome.next (finish (s.withDue []) a)) event_), closed.list.trans ?_, fun q up => ?_,
    closed.log.trans (log.trans (by rw [stamp_set set_])), ?_⟩
  · show [_] = _
    rw [← stateE]
  · exact closed.raised (s := s) (k := .hardTime) (v := v.withCue { v.cue with
      list := [{ e with state := .cued, timeReached := true }] }) (notes.trans (notified_of_pi rfl)) (fun _ => ⟨rfl, fun _ h => h⟩) up
  · refine (closed.over lsw (fun v : State => { v with cue := s.cue, log := s.log, pi := s.pi, due := s.due }) fun _ => rfl).trans ?_
    exact frame

/-! ### BREAK-INs -/

/-- A BREAK-IN that is refused is missed with STACK FULL (R33, R44, R47, R76). -/
theorem times_refused {e : CueEntry} {f : Feed} {len : Nat} (due : s.due = [.cueTimes]) (list : s.cue.list = [e])
    (state : e.state = .waiting) (kind : e.kind = .join f len) (timing : e.timing = .breakIn s.tb.clock) (long : 1 ≤ len)
    (here : dueEntries s = [e]) (set_ : s.tb.clockSet = true) (report : s.tb.report = none)
    (no : (s.air.chain = .none ∧ s.air.maxDepth ≤ s.air.stack.length) ∨ s.air.chain = .withoutContext ∨
      (s.air.chain = .withContext ∧ ∃ r rest, s.air.stack = r :: rest ∧ r.late ≠ none)) :
    ∃ u, exec .breakInDue s = .next u ∧ u.cue.list = [] ∧
      u.log = (s.log.append (some s.tb.clock) .stackFull (.cue e.serial) (.number s.air.stack.length)).append
        (some s.tb.clock) .itemMissed (.cue e.serial) (.missed .stackFull) ∧
      (∀ q, (s.port q).init = .high → (u.port q).flags.getLsbD 3 = true) ∧
      u.air = s.air ∧ u.tb = s.tb ∧ u.dly = s.dly ∧ u.lsw = s.lsw ∧ u.alc = s.alc ∧ u.out = s.out ∧ u.site = s.site := by
  have breaksIn : e.breaksIn = true := by rw [CueEntry.breaksIn, timing]
  have jump : (clearMarks (s.withDue [])).tb.report.any ClockReport.jump = false := by
    rw [show (clearMarks (s.withDue [])).tb.report = none from report]
    rfl
  have event_ := (cueTimes_takes (s := clearMarks (s.withDue [])) here jump).trans
    ((takeDueEntry_breakIn (clearMarks (s.withDue [])) timing kind).trans
      (breakInDue_refused (s := clearMarks (s.withDue [])) long no))
  have notes : Notified s (logStackFull (.cue e.serial) (clearMarks (s.withDue []))) :=
    (notified_of_pi rfl).trans (notified_logEntry .stackFull (.cue e.serial) _ (clearMarks (s.withDue [])))
  have log : (logStackFull (.cue e.serial) (clearMarks (s.withDue []))).log =
      s.log.append (stamp s) .stackFull (.cue e.serial) (.number s.air.stack.length) := rfl
  have stamps : stamp (logStackFull (.cue e.serial) (clearMarks (s.withDue []))) = stamp s := rfl
  have frame : { logStackFull (.cue e.serial) (clearMarks (s.withDue [])) with
      cue := s.cue, log := s.log, due := s.due, pi := s.pi } = s := rfl
  have list' : (logStackFull (.cue e.serial) (clearMarks (s.withDue []))).cue.list = [e] := list
  have started : (logStackFull (.cue e.serial) (clearMarks (s.withDue []))).cue.started = false := rfl
  generalize logStackFull (.cue e.serial) (clearMarks (s.withDue [])) = v at event_ notes log stamps frame list' started
  obtain ⟨settled, closed, gone, logged⟩ := closes_missed (s.withDue []) .stackFull list' (.inl state) started
  have lsw : v.lsw = s.lsw := (congrArg State.lsw frame :)
  have rest {α : Type} (F : State → α) (blind : ∀ w : State, F { w with cue := s.cue, log := s.log, due := s.due, pi := s.pi } = F w) :
      F (finish (s.withDue []) (settleList false (miss .stackFull v e))) = F s := by
    have same := closed.over lsw (fun w : State => { w with cue := s.cue, log := s.log, due := s.due, pi := s.pi }) fun _ => rfl
    rw [← blind, same]
    exact congrArg F frame
  refine ⟨_, (exec_breakInDue due (by rw [here]; simp [breaksIn])).trans
    (congrArg (fun a => Host.Outcome.next (finish (s.withDue []) a)) event_), gone, ?_, fun q up => ?_, rest _ fun _ => rfl,
    rest _ fun _ => rfl, rest _ fun _ => rfl, rest _ fun _ => rfl, rest _ fun _ => rfl, rest _ fun _ => rfl, rest _ fun _ => rfl⟩
  · rw [logged, log, stamps, stamp_set set_]
  · exact closed.raised (s := s) (k := .hardTime) (v := logEntry .itemMissed (.cue e.serial) (.missed .stackFull)
      (v.withCue (v.cue.without e))) ((notes.trans (notified_of_pi rfl)).trans (notified_logEntry .itemMissed (.cue e.serial)
        (.missed .stackFull) (v.withCue (v.cue.without e)))) (fun _ => ⟨rfl, fun _ h => h⟩) up

/-- With room on the stack it is given a record and starts at once (R31, R72, R76). -/
theorem times_breakIn {e : CueEntry} {f : Feed} {len : Nat} (due : s.due = [.cueTimes]) (list : s.cue.list = [e])
    (state : e.state = .waiting) (kind : e.kind = .join f len) (timing : e.timing = .breakIn s.tb.clock) (long : 1 ≤ len)
    (here : dueEntries s = [e]) (set_ : s.tb.clockSet = true) (report : s.tb.report = none) (ready : s.alc.readyHead = none)
    (chain : s.air.chain = .none) (room : s.air.stack.length < s.air.maxDepth) :
    ∃ u, exec .breakInDue s = .next u ∧
      u.cue.list = [{ e with state := .playing, elapsed := 0, joinEnd := some ((s.tb.clock + len) % 17280000)
                             begun := s.boundaryNo }] ∧
      u.cue.held = true ∧ u.log = s.log.append (some s.tb.clock) .joinStart (.cue e.serial) (.number len) ∧
      (∃ r, u.air.stack = r :: s.air.stack ∧ r.kind = .breakIn ∧ r.number = s.air.free.headD 1 ∧ r.suspended = none ∧
        r.parked = s.lsw.airPairs ∧ r.late = none) ∧
      (∀ l, s.line l = .air → u.line l = .parked) ∧
      u.tb = s.tb ∧ u.dly = s.dly ∧ u.alc = s.alc ∧ u.out = s.out ∧ u.lnk = s.lnk ∧ u.site = s.site := by
  have breaksIn : e.breaksIn = true := by rw [CueEntry.breaksIn, timing]
  have jump : (clearMarks (s.withDue [])).tb.report.any ClockReport.jump = false := by
    rw [show (clearMarks (s.withDue [])).tb.report = none from report]
    rfl
  have playing : s.cue.playing = none := by
    show s.cue.list.find? _ = none
    rw [list]
    simp [state]
  have event_ := (cueTimes_takes (s := clearMarks (s.withDue [])) here jump).trans
    ((takeDueEntry_breakIn (clearMarks (s.withDue [])) timing kind).trans
      (breakInDue_starts (s := clearMarks (s.withDue [])) long chain room list state))
  have frame := push_frame .breakIn (clearMarks (s.withDue []))
  generalize push .breakIn (clearMarks (s.withDue [])) = v at event_ frame
  generalize hx : ({ (clearMarks (s.withDue [])).cue with held := true } : CUE) = x at event_
  have xlist : x.list = [e] := by rw [← hx]; exact list
  have xheld : x.held = true := by rw [← hx]
  have alc : v.alc = s.alc := (congrArg State.alc frame :)
  have stamps : stamp v = stamp s := by
    unfold stamp
    rw [show v.tb = s.tb from (congrArg State.tb frame :)]
  have log : v.log = s.log := (congrArg State.log frame :)
  have closed := closes_finish (s.withDue []) (a := logEntry .joinStart (.cue e.serial) (.number len) (raise .entryStarted
    (v.withCue (x.play e 0 (some ((s.tb.clock + len) % 17280000)) s.boundaryNo)))) fun _ => by
      show v.alc.readyHead = none
      rw [alc]
      exact ready
  have air : v.air = { s.air with stack := newRecord .breakIn (clearMarks (s.withDue [])) :: s.air.stack
                                  free := s.air.free.drop 1 } := (congrArg State.air frame :)
  have lsw : v.lsw = s.lsw.parkedAir := (congrArg State.lsw frame :)
  have rest {α : Type} (F : State → α) (blind : ∀ w : State, F { w with
      air := s.air, cue := s.cue, lsw := s.lsw, log := s.log, due := s.due, pi := s.pi } = F w) :
      F (finish (s.withDue []) (logEntry .joinStart (.cue e.serial) (.number len) (raise .entryStarted
        (v.withCue (x.play e 0 (some ((s.tb.clock + len) % 17280000)) s.boundaryNo))))) = F s := by
    have same := (congrArg (fun w : State => { w with
      air := s.air, cue := s.cue, lsw := s.lsw, log := s.log, due := s.due, pi := s.pi }) closed.frame :)
    have left := (congrArg (fun w : State => { w with
      air := s.air, cue := s.cue, lsw := s.lsw, log := s.log, due := s.due, pi := s.pi }) frame :)
    rw [← blind]
    exact congrArg F (same.trans left)
  refine ⟨_, (exec_breakInDue due (by rw [here]; simp [breaksIn])).trans
    (congrArg (fun a => Host.Outcome.next (finish (s.withDue []) a)) event_), closed.list.trans (play_singleton xlist ..),
    closed.held.trans ?_, closed.log.trans ?_, ⟨newRecord .breakIn (clearMarks (s.withDue [])), ?_, rfl, rfl, ?_, rfl, rfl⟩,
    fun l line => ?_, rest _ fun _ => rfl, rest _ fun _ => rfl, rest _ fun _ => rfl, rest _ fun _ => rfl, rest _ fun _ => rfl,
    rest _ fun _ => rfl⟩
  · exact (congrArg CUE.held (play_frame x e 0 (some ((s.tb.clock + len) % 17280000)) s.boundaryNo) :).trans xheld
  · show v.log.append (stamp v) _ _ _ = _
    rw [stamps, log, stamp_set set_]
  · exact congrArg AIR.stack (closed.air.trans air)
  · show s.cue.playing.map _ = none
    rw [playing]
    rfl
  · refine (congrArg (fun x : LSW => (x.lines.get l).state) (closed.lsw.trans lsw)).trans ?_
    rw [parkedAir_line]
    exact (congrArg Line.state (if_pos line)).trans rfl

/-- While a chain with its record holds the air it waits in that record (R47). -/
theorem times_late {e : CueEntry} {f : Feed} {len : Nat} {r : ContextRecord} {rest : List ContextRecord}
    (due : s.due = [.cueTimes]) (list : s.cue.list = [e]) (kind : e.kind = .join f len)
    (timing : e.timing = .breakIn s.tb.clock) (long : 1 ≤ len) (here : dueEntries s = [e]) (report : s.tb.report = none)
    (chain : s.air.chain = .withContext) (stack : s.air.stack = r :: rest) (late : r.late = none) :
    ∃ u, exec .breakInDue s = .next u ∧ u.cue.list = [{ e with state := .cuedLate }] ∧
      u.air = { s.air with stack := { r with late := some (e.serial, s.tb.clock) } :: rest } ∧
      { u with air := s.air, cue := s.cue, pi := s.pi, due := s.due } = s := by
  have breaksIn : e.breaksIn = true := by rw [CueEntry.breaksIn, timing]
  have jump : (clearMarks (s.withDue [])).tb.report.any ClockReport.jump = false := by
    rw [show (clearMarks (s.withDue [])).tb.report = none from report]
    rfl
  have event_ := (cueTimes_takes (s := clearMarks (s.withDue [])) here jump).trans
    ((takeDueEntry_breakIn (clearMarks (s.withDue [])) timing kind).trans
      (breakInDue_late (s := clearMarks (s.withDue [])) long chain stack late list))
  have closed := closes_finish (s.withDue []) (a := ((clearMarks (s.withDue [])).withAir { s.air with
    stack := { r with late := some (e.serial, s.tb.clock) } :: rest }).withCue { (clearMarks (s.withDue [])).cue with
      list := [{ e with state := .cuedLate }] }) fun st => by cases st
  exact ⟨_, (exec_breakInDue due (by rw [here]; simp [breaksIn])).trans
    (congrArg (fun a => Host.Outcome.next (finish (s.withDue []) a)) event_), closed.list, closed.air,
    closed.over rfl (fun v : State => { v with air := s.air, cue := s.cue, pi := s.pi, due := s.due }) fun _ => rfl⟩

/-! ### What stands before a hard time -/

/-- The untimed entries before a hard one have left when it takes their place (R75). -/
structure Skipped (before : List CueEntry) (s v : State) : Prop where
  log : v.log = before.foldl (fun log x => log.append (stamp s) .itemSkipped (.cue x.serial) (.skipped .hardTime)) s.log
  frame : { v with cue := s.cue, log := s.log, due := s.due, pi := s.pi } = s
  started : v.cue.started = false
  held : v.cue.held = s.cue.held
  line : ∀ c, v.cue.run.get c = { s.cue.run.get c with fell := false }
  notes : Notified s v

theorem skipped_before {before : List CueEntry} {e : CueEntry} (front : List CueEntry)
    (list : s.cue.list = front ++ (before ++ [e])) (serials : (s.cue.list.map (·.serial)).Nodup)
    (sounding : ∀ x ∈ front, x.waits = false)
    (waits : ∀ x ∈ before, (x.state = .cued ∨ x.state = .waiting) ∧ x.timing = .none) :
    ∃ v, (passedOver e (clearMarks (s.withDue [])).cue.list).foldl (fun s x => leaveSkipped .hardTime x s)
        (clearMarks (s.withDue [])) = v ∧ Skipped before s v ∧ v.cue.list = front ++ [e] := by
  rw [list, List.map_append, List.map_append, List.nodup_append] at serials
  obtain ⟨-, tail, apart⟩ := serials
  rw [List.nodup_append] at tail
  obtain ⟨-, -, last⟩ := tail
  have notE : ∀ x ∈ front ++ before, x.serial ≠ e.serial := fun x mem => by
    rcases List.mem_append.1 mem with mem | mem
    · exact apart _ (List.mem_map.2 ⟨x, mem, rfl⟩) _ (by simp)
    · exact last _ (List.mem_map.2 ⟨x, mem, rfl⟩) _ (by simp)
  have passed : passedOver e (clearMarks (s.withDue [])).cue.list = before := by
    rw [show (clearMarks (s.withDue [])).cue.list = (front ++ before) ++ e :: [] from list.trans (List.append_assoc ..).symm,
      passedOver_prefix notE, List.filter_append, List.filter_eq_nil_iff.2 fun x mem => by simp [CueEntry.cueable, sounding x mem],
      List.nil_append]
    refine List.filter_eq_self.2 fun x mem => ?_
    obtain ⟨state, timing⟩ := waits x mem
    rw [CueEntry.cueable, CueEntry.breaksIn, timing, CueEntry.waits]
    simpa [or_comm] using state
  obtain ⟨log, frame, cue⟩ := foldl_skips before (v := clearMarks (s.withDue [])) fun x mem => (waits x mem).1.symm
  rw [passed]
  refine ⟨_, rfl, ⟨log, (congrArg (fun w : State => { w with cue := s.cue, due := s.due }) frame :), ?_, ?_, fun c => ?_,
    (notified_of_pi rfl).trans (foldl_skips_notified before fun x mem => (waits x mem).1.symm)⟩, ?_⟩
  · exact (congrArg CUE.started cue :)
  · exact (congrArg CUE.held cue :)
  · exact (congrArg (fun x : CUE => x.run.get c) cue).trans (clearMarks_get (s.withDue []) c)
  · refine (congrArg CUE.list cue).trans ?_
    show s.cue.list.filter _ = _
    rw [list, List.filter_append, List.filter_append, List.filter_eq_self.2 fun x mem => ?_, List.filter_eq_nil_iff.2 fun x mem => ?_,
      List.nil_append, List.filter_cons_of_pos, List.filter_nil]
    · simpa using fun y mem eq => last _ (List.mem_map.2 ⟨y, mem, rfl⟩) _ (by simp) eq
    · simpa using ⟨x, mem, rfl⟩
    · simpa using fun y here eq => apart _ (List.mem_map.2 ⟨x, mem, rfl⟩) _ (List.mem_append_left _ (List.mem_map.2 ⟨y, here, rfl⟩))
        eq.symm

end Sys2Proof.Machine
end

section
/-! An entry whose hard time is the air clock, with what stands before it (R75). -/

namespace Sys2Proof.Machine

open Sys2Proof

variable {s : State} {e : CueEntry}

/-- At this boundary the hard time of an entry is the air clock, and no setting is reported. -/
structure AtItsTime (s : State) (e : CueEntry) : Prop where
  due : s.due = [.cueTimes]
  waits : e.waits = true
  timing : e.timing = .hard s.tb.clock
  late : e.timeReached = false
  added : e.added < s.boundaryNo
  clockSet : s.tb.clockSet = true
  report : s.tb.report = none

theorem dueEntries_last {front : List CueEntry} (list : s.cue.list = front ++ [e]) (quiet : ∀ x ∈ front, x.isDue s = false)
    (due : e.isDue s = true) : dueEntries s = [e] := by
  rw [dueEntries_eq, list, List.filter_append, List.filter_eq_nil_iff.2 fun x mem => by simp [quiet x mem], List.nil_append]
  exact List.filter_cons_of_pos due

theorem AtItsTime.isDue (h : AtItsTime s e) : e.isDue s = true :=
  (isDue_hard h.waits h.timing h.late h.added).trans (cueTimeDue_clock h.clockSet h.report)

theorem AtItsTime.row {front : List CueEntry} (h : AtItsTime s e) (list : s.cue.list = front ++ [e])
    (quiet : ∀ x ∈ front, x.isDue s = false) :
    exec .hardTimeDue s = .next (finish (s.withDue []) (hardTimeDue e (clearMarks (s.withDue [])))) := by
  have here := dueEntries_last list quiet h.isDue
  have jump : (clearMarks (s.withDue [])).tb.report.any ClockReport.jump = false := by
    rw [show (clearMarks (s.withDue [])).tb.report = none from h.report]
    rfl
  rw [exec_hardTimeDue h.due (by rw [here]; simp [CueEntry.breaksIn, h.timing]),
    cueTimes_takes (s := clearMarks (s.withDue [])) here jump, takeDueEntry_hard _ h.timing, List.foldl_nil]

/-- The row has been taken, and beyond CUE and what the ports have to read it has logged the entries that were passed over. -/
def PassesOver (before : List CueEntry) (s u : State) : Prop :=
  exec .hardTimeDue s = .next u ∧
  u.log = before.foldl (fun log x => log.append (some s.tb.clock) .itemSkipped (.cue x.serial) (.skipped .hardTime)) s.log ∧
  { u with cue := s.cue, log := s.log, pi := s.pi, due := s.due } = s

/-- What is left of the state's other parts when the entries before it have gone and the event changes CUE alone. -/
theorem Skipped.passesOver {before : List CueEntry} {v u : State} (skipped : Skipped before s v)
    (set_ : s.tb.clockSet = true) (row : exec .hardTimeDue s = .next u)
    (same : { u with cue := s.cue, pi := s.pi, due := s.due } = { v with cue := s.cue, pi := s.pi, due := s.due }) :
    PassesOver before s u := by
  refine ⟨row, (congrArg State.log same).trans (skipped.log.trans ?_), ?_⟩
  · rw [stamp_set set_]
  · exact (congrArg (fun w : State => { w with log := s.log }) same).trans skipped.frame

theorem Skipped.lsw_same {before : List CueEntry} {v : State} (skipped : Skipped before s v) : v.lsw = s.lsw :=
  (congrArg State.lsw skipped.frame :)

theorem Skipped.mode_same {before : List CueEntry} {v : State} (skipped : Skipped before s v) : v.air.mode = s.air.mode :=
  (congrArg (fun w : State => w.air.mode) skipped.frame :)

theorem Skipped.ready {before : List CueEntry} {v : State} (skipped : Skipped before s v) : v.alc.readyHead = s.alc.readyHead :=
  (congrArg (fun w : State => w.alc.readyHead) skipped.frame :)

theorem Skipped.boundary {before : List CueEntry} {v : State} (skipped : Skipped before s v) : v.boundaryNo = s.boundaryNo :=
  (congrArg State.boundaryNo skipped.frame :)

variable {before : List CueEntry}

theorem untimed_quiet (waits : ∀ x ∈ before, (x.state = .cued ∨ x.state = .waiting) ∧ x.timing = .none) :
    ∀ x ∈ before, x.isDue s = false := fun x mem => isDue_untimed (waits x mem).2

/-- In an automatic mode the entry starts and those before it are SKIPPED (R75). -/
theorem times_starts {ch : Nth} {m : Option Nat} {g : Segue} {pol : Policy} (h : AtItsTime s e)
    (list : s.cue.list = before ++ [e]) (serials : (s.cue.list.map (·.serial)).Nodup)
    (waits : ∀ x ∈ before, (x.state = .cued ∨ x.state = .waiting) ∧ x.timing = .none) (kind : e.kind = .item ch m g pol)
    (mode : s.air.mode ≠ .live) (held : s.cue.held = false) (ready : s.alc.readyHead = none) :
    ∃ u, PassesOver before s u ∧
      u.cue.list = [{ e with state := .playing, elapsed := 0, joinEnd := none, begun := s.boundaryNo }] ∧
      (u.cue.run.get ch).high = (s.cue.run.get ch).riseAfter.isNone := by
  obtain ⟨v, passed, skipped, left⟩ := skipped_before (e := e) [] list serials (List.forall_mem_nil _) waits
  have event_ := hardTimeDue_starts (s := clearMarks (s.withDue [])) mode held passed left h.waits
  rw [joinEndAt_item v kind, skipped.boundary] at event_
  obtain ⟨closed, list', high, -⟩ := closes_start (s.withDue []) v 0 none s.boundaryNo left (skipped.ready.trans ready)
  refine ⟨_, skipped.passesOver h.clockSet ((h.row list (untimed_quiet waits)).trans
    (congrArg (fun a => Host.Outcome.next (finish (s.withDue []) a)) event_)) ?_, list', ?_⟩
  · exact closed.over skipped.lsw_same (fun w : State => { w with cue := s.cue, pi := s.pi, due := s.due }) fun _ => rfl
  · rw [high, if_pos (player_item kind), skipped.line, rise_high _ rfl]

/-- In LIVE the entry is CUED with its time marked, and those before it are SKIPPED (R75). -/
theorem times_cues (h : AtItsTime s e) (list : s.cue.list = before ++ [e]) (serials : (s.cue.list.map (·.serial)).Nodup)
    (waits : ∀ x ∈ before, (x.state = .cued ∨ x.state = .waiting) ∧ x.timing = .none) (mode : s.air.mode = .live) :
    ∃ u, PassesOver before s u ∧ u.cue.list = [{ e with state := .cued, timeReached := true }] ∧
      ∀ q, (s.port q).init = .high → (u.port q).flags.getLsbD 3 = true := by
  obtain ⟨v, passed, skipped, left⟩ := skipped_before (e := e) [] list serials (List.forall_mem_nil _) waits
  have event_ := hardTimeDue_live (s := clearMarks (s.withDue [])) mode passed (skipped.mode_same.trans mode) left h.waits
    (by rw [CueEntry.breaksIn, h.timing])
  have closed := closes_finish (s.withDue []) (a := raise .hardTime (v.withCue { v.cue with
    list := [{ e with state := .cued, timeReached := true }] })) fun st => absurd (skipped.started.symm.trans st) nofun
  refine ⟨_, skipped.passesOver h.clockSet ((h.row list (untimed_quiet waits)).trans
    (congrArg (fun a => Host.Outcome.next (finish (s.withDue []) a)) event_)) ?_, closed.list, fun q up => ?_⟩
  · exact closed.over skipped.lsw_same (fun w : State => { w with cue := s.cue, pi := s.pi, due := s.due }) fun _ => rfl
  · exact closed.raised (s := s) (k := .hardTime) (v := v.withCue { v.cue with
      list := [{ e with state := .cued, timeReached := true }] }) skipped.notes (fun _ => ⟨rfl, fun _ h => h⟩) up

/-- How an event closes in which an item goes on as FADING and another starts (R61, R62, R64). -/
theorem closes_fade (b v : State) {q : CueEntry} {d : Nth} (joinEnd : Option Nat) (now : Nat) (other : q.serial ≠ e.serial)
    (player : e.player = some d) (ready : v.alc.readyHead = none) :
    let a := raise .entryStarted (v.withCue (({ v.cue with list := [{ q with state := .fading }, e] } : CUE).play e 0 joinEnd now))
    Closes b a (finish b a) ∧
    (finish b a).cue.list = [{ q with state := .fading }, { e with state := .playing, elapsed := 0, joinEnd := joinEnd, begun := now }] ∧
    ∀ c, ((finish b a).cue.run.get c).high = if c = d then ((v.cue.run.get c).rise now).high else (v.cue.run.get c).high := by
  have closed := closes_finish b (a := raise .entryStarted (v.withCue (({ v.cue with
    list := [{ q with state := .fading }, e] } : CUE).play e 0 joinEnd now))) fun _ => ready
  refine ⟨closed, closed.list.trans ((play_list _ e 0 joinEnd now).trans (by simp [other])), fun c => ?_⟩
  rw [closed.high]
  refine (congrArg RunLine.high (play_get _ e 0 joinEnd now c)).trans ?_
  rw [player]
  by_cases same : c = d
  · rw [if_pos same, if_pos (congrArg some same.symm)]
  · rw [if_neg same, if_neg fun eq => same (Option.some.inj eq).symm]

/-- A PLAYING item segues into the entry and those before it are SKIPPED (R64, R75). -/
theorem times_segues {q : CueEntry} {c ch : Nth} {l m : Option Nat} {k g : Segue} {qol pol : Policy} (h : AtItsTime s e)
    (list : s.cue.list = q :: (before ++ [e])) (serials : (s.cue.list.map (·.serial)).Nodup)
    (waits : ∀ x ∈ before, (x.state = .cued ∨ x.state = .waiting) ∧ x.timing = .none) (playing : q.state = .playing)
    (kindQ : q.kind = .item c l k qol) (kind : e.kind = .item ch m g pol) (apart : c ≠ ch) (mode : s.air.mode ≠ .live)
    (held : s.cue.held = false) (ready : s.alc.readyHead = none) :
    ∃ u, PassesOver before s u ∧ (u.cue.run.get ch).high = (s.cue.run.get ch).riseAfter.isNone ∧
      (k = .cut → u.cue.list = [{ e with state := .playing, elapsed := 0, joinEnd := none, begun := s.boundaryNo }] ∧
        (u.cue.run.get c).high = false) ∧
      (∀ f, k = .fade f → u.cue.list = [{ q with state := .fading },
          { e with state := .playing, elapsed := 0, joinEnd := none, begun := s.boundaryNo }] ∧
        (u.cue.run.get c).high = (s.cue.run.get c).high) := by
  have waitsQ : q.waits = false := by rw [CueEntry.waits, playing]; rfl
  obtain ⟨v, passed, skipped, left⟩ := skipped_before (e := e) [q] list serials
    (fun x mem => by rwa [List.mem_singleton.1 mem]) waits
  have left' : v.cue.list = [q, e] := left
  have other : q.serial ≠ e.serial := by
    rw [list, List.map_cons, List.nodup_cons] at serials
    exact fun same => serials.1 (by simp [same])
  have onAir : v.cue.playing = some q ∧ v.cue.fading = none := by
    have waiting := h.waits
    unfold CueEntry.waits at waiting
    simp only [decide_eq_true_eq] at waiting
    refine ⟨?_, ?_⟩
    · show v.cue.list.find? _ = _
      rw [left']
      exact List.find?_cons_of_pos (by simpa using playing)
    · show v.cue.list.find? _ = none
      rw [left']
      rcases waiting with state | state <;> simp [playing, state]
  have row := (h.row (front := q :: before) list fun x mem => by
    rcases List.mem_cons.1 mem with rfl | mem
    · exact isDue_started waitsQ
    · exact isDue_untimed (waits x mem).2).trans
      (congrArg (fun a => Host.Outcome.next (finish (s.withDue []) a))
        (hardTimeDue_segues (s := clearMarks (s.withDue [])) mode held passed onAir.1))
  cases k with
  | cut =>
    rw [segueTo_cut left' other playing onAir.2 (crossfades_cut kindQ), joinEndAt_item v kind, skipped.boundary] at row
    obtain ⟨closed, list', ends, -, same⟩ := closes_cut (s.withDue []) v none s.boundaryNo left' other playing (player_item kindQ)
      (player_item kind) skipped.line (fun _ => rfl) (skipped.ready.trans ready)
    exact ⟨_, skipped.passesOver h.clockSet row (same skipped.lsw_same
      (fun w : State => { w with cue := s.cue, pi := s.pi, due := s.due }) fun _ _ _ => rfl), (ends apart).2,
      fun _ => ⟨list', (ends apart).1⟩, nofun⟩
  | fade f =>
    rw [segueTo_fade left' other onAir.2 (crossfades_fade kindQ fun eq => apart (Option.some.inj
      ((player_item kind).symm.trans eq)).symm), joinEndAt_item v kind, skipped.boundary] at row
    obtain ⟨closed, list', high⟩ := closes_fade (s.withDue []) v none s.boundaryNo other (player_item kind)
      (skipped.ready.trans ready)
    refine ⟨_, skipped.passesOver h.clockSet row (closed.over skipped.lsw_same
      (fun w : State => { w with cue := s.cue, pi := s.pi, due := s.due }) fun _ => rfl), ?_, nofun, fun _ _ => ⟨list', ?_⟩⟩
    · rw [high, if_pos rfl, skipped.line, rise_high _ rfl]
    · rw [high, if_neg apart, skipped.line]

end Sys2Proof.Machine
end

section
/-! Times that fall due settled. -/

namespace Sys2Proof.Machine

open Sys2Proof

/-- What a clock change makes due (R14, R77). -/
theorem cueTimeDue_report {s : State} {r : ClockReport} (set_ : s.tb.clockSet = true) (report : s.tb.report = some r) (t : Nat) :
    cueTimeDue s t = if !r.wasSet then decide (t = r.new) else r.forward && r.passes t := by
  unfold cueTimeDue
  rw [set_, report, Bool.true_and]

/-- A list of one entry whose time does not fall due. -/
theorem nothingDue_singleton {s : State} {e : CueEntry} (list : s.cue.list = [e]) (quiet : e.isDue s = false) :
    dueEntries s = [] := by
  rw [dueEntries_eq, list]
  exact List.filter_cons_of_neg (by simp [quiet])

/-- The hard time of an entry at a change of the clock (R14, R77). -/
theorem times_report {s : State} {e : CueEntry} {x : Nat} {r : ClockReport} (due : s.due = [.cueTimes]) (list : s.cue.list = [e])
    (state : e.state = .cued) (timing : e.timing = .hard x) (late : e.timeReached = false) (added : e.added < s.boundaryNo)
    (set_ : s.tb.clockSet = true) (report : s.tb.report = some r) (mode : s.air.mode = .live) :
    let reached : Prop := ∃ u, exec .hardTimeDue s = .next u ∧ u.cue.list = [{ e with timeReached := true }] ∧
      (∀ q, (s.port q).init = .high → (u.port q).flags.getLsbD 3 = true) ∧ { u with cue := s.cue, pi := s.pi, due := s.due } = s
    (r.wasSet = false → (x = r.new → reached) ∧ (x ≠ r.new → exec .hardTimeDue s = .next s)) ∧
    (r.wasSet = true → 1 ≤ blocksFrom r.old x → blocksFrom r.old x ≤ r.step → (r.step ≤ 200 → reached) ∧
      (201 ≤ r.step → r.step ≤ 8640000 → ∃ u, exec .hardTimeDue s = .next u ∧ u.cue.list = [] ∧
        (∀ q, (s.port q).init = .high → (u.port q).flags.getLsbD 3 = true) ∧
        u.log = s.log.append (some s.tb.clock) .itemMissed (.cue e.serial) (.missed .clockJump) ∧
        { u with cue := s.cue, log := s.log, pi := s.pi, due := s.due } = s)) ∧
    (r.wasSet = true → r.step = 0 ∨ 8640000 < r.step ∨ blocksFrom r.old x = 0 ∨ r.step < blocksFrom r.old x →
      exec .hardTimeDue s = .next s) := by
  intro reached
  have waits : e.waits = true := by rw [CueEntry.waits, state]; rfl
  have isDue : e.isDue s = if !r.wasSet then decide (x = r.new) else r.forward && r.passes x :=
    (isDue_hard waits timing late added).trans (cueTimeDue_report set_ report x)
  have here (h : e.isDue s = true) : dueEntries s = [e] := dueEntries_last (front := []) list (List.forall_mem_nil _) h
  have quiet (h : e.isDue s = false) : exec .hardTimeDue s = .next s := (exec_nothingDue due (nothingDue_singleton list h)).1
  have jumps : s.tb.report.any ClockReport.jump = r.jump := by rw [report]; rfl
  have forward : r.forward = decide (1 ≤ r.step ∧ r.step ≤ 8640000) := rfl
  have passes : r.passes x = decide (1 ≤ blocksFrom r.old x ∧ blocksFrom r.old x ≤ r.step) := rfl
  have jump : r.jump = (r.wasSet && r.forward && decide (200 < r.step)) := rfl
  rw [forward] at isDue jump
  rw [passes] at isDue
  rw [jump] at jumps
  clear forward passes jump
  generalize r.step = step at *
  generalize blocksFrom r.old x = after at *
  refine ⟨fun first => ?_, fun again from_ to_ => ?_, fun again out => ?_⟩
  · rw [first] at isDue jumps
    exact ⟨fun same => times_reached due list state timing (here (isDue.trans (decide_eq_true same))) jumps mode,
      fun other => quiet (isDue.trans (decide_eq_false other))⟩
  · have goes (h : step ≤ 8640000) : e.isDue s = true := by rw [isDue, again]; simp [from_, to_, h, Nat.le_trans from_ to_]
    refine ⟨fun short => times_reached due list state timing (here (goes (by omega))) ?_ mode, fun long within => ?_⟩
    · rw [jumps, decide_eq_false (Nat.not_lt.2 short), Bool.and_false]
    · have jumped : s.tb.report.any ClockReport.jump = true := by
        rw [jumps, again, decide_eq_true ⟨Nat.le_trans from_ to_, within⟩, decide_eq_true (Nat.lt_of_succ_le long)]
        rfl
      have event_ := cueTimes_jumps (s := clearMarks (s.withDue [])) (here (goes within)) jumped
      rw [List.foldl_cons, List.foldl_nil] at event_
      exact times_missed due list (.inr state) (by rw [CueEntry.breaksIn, timing]) (here (goes within)) set_ event_
  · refine quiet (isDue.trans ?_)
    rw [again]
    show (decide _ && decide _) = false
    rw [Bool.and_eq_false_iff, decide_eq_false_iff_not, decide_eq_false_iff_not]
    omega

/-- Settles O32: each clause is the row's one event, read off the entries whose times fall due. -/
theorem timesFallDue : Obligations.TimesFallDue := by
  unfold Obligations.TimesFallDue
  refine ⟨?_, ?_, ?_, ?_, ?_, ?_⟩
  · intro e ch m g pol s due list state kind timing late added set_ report ready
    have waits : e.waits = true := by rw [CueEntry.waits, state]; rfl
    have now : AtItsTime s e := ⟨due, waits, timing, late, added, set_, report⟩
    have here := dueEntries_last (front := []) list (List.forall_mem_nil _) now.isDue
    have jump : s.tb.report.any ClockReport.jump = false := by rw [report]; rfl
    refine ⟨times_reached due list state timing here jump, fun mode held => ?_, fun mode held => ?_⟩
    · obtain ⟨u, ⟨row, log, frame⟩, rest⟩ := times_starts (before := []) now list (by rw [list]; simp) (List.forall_mem_nil _) kind
        (by rw [mode]; nofun) held ready
      have log' : u.log = s.log := log
      refine ⟨u, row, rest.1, rest.2, ?_⟩
      rw [← log'] at frame
      exact frame
    · exact times_missed due list (.inr state) (by rw [CueEntry.breaksIn, timing]) here set_
        ((cueTimes_takes (s := clearMarks (s.withDue [])) here jump).trans ((takeDueEntry_hard _ timing).trans
          (hardTimeDue_held (s := clearMarks (s.withDue [])) (by show s.air.mode ≠ _; rw [mode]; nofun) held)))
  · intro e f c d m o g h pol qol s due list other stateE stateF _ _ timingE timingF lateE lateF addedE addedF set_ report mode
    have dueAt {y : CueEntry} (waits : y.waits = true) (timing : y.timing = .hard s.tb.clock) (late : y.timeReached = false)
        (added : y.added < s.boundaryNo) : y.isDue s = true := (AtItsTime.mk due waits timing late added set_ report).isDue
    refine times_together due list other stateE stateF timingE ?_ set_ report mode
    rw [dueEntries_eq, list]
    refine List.filter_eq_self.2 fun y mem => ?_
    simp only [List.mem_cons, List.not_mem_nil, or_false] at mem
    rcases mem with rfl | rfl
    · exact dueAt (by rw [CueEntry.waits, stateE]; rfl) timingE lateE addedE
    · exact dueAt (by rw [CueEntry.waits, stateF]; rfl) timingF lateF addedF
  · intro e ch m g pol x r s due list state _ timing late added set_ report mode
    exact times_report due list state timing late added set_ report mode
  · intro e f len s due list state kind timing _ long added set_ report ready missed
    have here : dueEntries s = [e] := dueEntries_last (front := []) list (List.forall_mem_nil _)
      ((isDue_breakIn (by rw [CueEntry.waits, state]; rfl) timing added).trans (cueTimeDue_clock set_ report))
    have refused := times_refused due list state kind timing long here set_ report
    exact ⟨times_breakIn due list state kind timing long here set_ report ready, fun chain full => refused (.inl ⟨chain, full⟩),
      fun chain => refused (.inr (.inl chain)), fun r rest chain stack =>
        ⟨fun late => refused (.inr (.inr ⟨chain, r, rest, stack, late⟩)),
          times_late due list kind timing long here report chain stack⟩⟩
  · intro s due recent
    refine exec_nothingDue due (List.filter_eq_nil_iff.2 fun e mem => ?_)
    rw [decide_eq_false (Nat.not_lt.2 (recent e mem)), Bool.false_and]
    nofun
  · intro before e ch m g pol s due serials waits state kind timing late added set_ report ready starts skips
    have now : AtItsTime s e := ⟨due, by rw [CueEntry.waits, state]; rfl, timing, late, added, set_, report⟩
    exact ⟨fun list => ⟨fun mode held => times_starts now list serials waits kind mode held ready,
      fun mode => times_cues now list serials waits mode⟩,
      fun q c l h qol list playing kindQ apart mode held =>
        times_segues now list serials waits playing kindQ kind apart mode held ready⟩

end Sys2Proof.Machine
end

section
/-! The end of an alert chain (R37, R45, R123, R146, R147). -/

namespace Sys2Proof.Machine

open Sys2Proof

/-! ### DLY's return -/

/-- An unfreeze returns DLY to the state before the freeze, or settles it afresh (R123). -/
theorem unfreeze_frozen {before : RunState} {s : State} (frozen : s.dly.state = .frozen) :
    unfreeze before s = raise .delayState (s.withDly (s.dly.returned before)) := by
  have goes : (if s.dly.recompute then s.dly.unfrozen else before) = s.dly.returnsTo before := by
    unfold DLY.returnsTo
    cases s.dly.recompute
    · rfl
    · rw [if_pos rfl, if_neg nofun]
      rfl
  have fresh (r : RunState) : s.dly.enter r = { s.dly with state := .run r, stepCount := 0 } := by
    unfold DLY.enter
    rw [if_neg (by rw [frozen]; nofun)]
  unfold unfreeze
  rw [goes, fresh]
  exact dlyBecomes_of_other (by rw [frozen]; nofun)

/-! ### The chain is over -/

/-- The state in which what a chain's record saved is given back: ALC has closed the chain, DLY and OUT have been told. -/
def unchained (before : RunState) (w : State) : State :=
  chainOver (raise .delayState ((w.withAlc { w.alc with chainOpen := false }).withDly (w.dly.returned before)))

theorem chainGoesOn_ends {w : State} (ready : w.alc.readyHead = none) :
    chainGoesOn w = endChain (w.withAlc { w.alc with chainOpen := false }) := by
  unfold chainGoesOn
  rw [ready]

/-- A chain that ends gives its record back (R37). -/
theorem chainGoesOn_pops {w : State} {r : ContextRecord} {rest : List ContextRecord} (ready : w.alc.readyHead = none)
    (chain : w.air.chain = .withContext) (stack : w.air.stack = r :: rest) (late : r.late = none) (frozen : w.dly.state = .frozen) :
    chainGoesOn w = popRecord r 0 (unchained (r.delayBefore.getD .bypass) w) := by
  rw [chainGoesOn_ends ready]
  unfold endChain
  rw [show (w.withAlc { w.alc with chainOpen := false }).air.chain = .withContext from chain,
    show (w.withAlc { w.alc with chainOpen := false }).air.stack = r :: rest from stack]
  dsimp only
  rw [late]
  dsimp only
  rw [unfreeze_frozen (s := w.withAlc { w.alc with chainOpen := false }) frozen]
  rfl

/-- An event's course up to where its alert has left the air: `before` is what it has logged, `due` what is left
due, `queue` the alerts that are left; beyond ALC and the ports all else stands as the event found it in `s`. -/
structure AirLeft (queue : List AlertEntry) (before : LOG → LOG) (due : List Due) (s w : State) : Prop where
  alc : w.alc = { s.alc with queue := queue, go := false, goRiseAfter := none }
  cue : w.cue = (clearMarks s).cue
  log : w.log = before s.log
  due : w.due = due
  frame : { w with alc := s.alc, cue := s.cue, log := s.log, due := s.due, pi := s.pi } = s

variable {before : LOG → LOG} {due : List Due} {r : ContextRecord} {rest : List ContextRecord} {s w : State}

theorem AirLeft.queue {queue : List AlertEntry} (h : AirLeft queue before due s w) : w.alc.queue = queue := by rw [h.alc]

theorem AirLeft.go {queue : List AlertEntry} (h : AirLeft queue before due s w) : w.alc.go = false := by rw [h.alc]

theorem AirLeft.ready (h : AirLeft [] before due s w) : w.alc.readyHead = none := by
  unfold ALC.readyHead
  rw [h.queue]
  rfl

theorem AirLeft.air {queue : List AlertEntry} (h : AirLeft queue before due s w) : w.air = s.air := (congrArg State.air h.frame :)
theorem AirLeft.dly {queue : List AlertEntry} (h : AirLeft queue before due s w) : w.dly = s.dly := (congrArg State.dly h.frame :)
theorem AirLeft.out {queue : List AlertEntry} (h : AirLeft queue before due s w) : w.out = s.out := (congrArg State.out h.frame :)
theorem AirLeft.lsw {queue : List AlertEntry} (h : AirLeft queue before due s w) : w.lsw = s.lsw := (congrArg State.lsw h.frame :)
theorem AirLeft.tb {queue : List AlertEntry} (h : AirLeft queue before due s w) : w.tb = s.tb := (congrArg State.tb h.frame :)

theorem AirLeft.pops (h : AirLeft [] before due s w) (top : ChainOnTop r rest s) :
    chainGoesOn w = popRecord r 0 (unchained (r.delayBefore.getD .bypass) w) := by
  obtain ⟨chain, stack, -, -, late, frozen⟩ := top
  rw [← h.air] at chain stack
  rw [← h.dly] at frozen
  exact chainGoesOn_pops h.ready chain stack late frozen

theorem AirLeft.popEvent {b : State} (h : AirLeft [] before due s w) (top : ChainOnTop r rest s) (lsw : b.lsw = s.lsw) :
    PopEvent r rest 0 b (unchained (r.delayBefore.getD .bypass) w) := by
  obtain ⟨-, stack, -, distinct, -, -⟩ := top
  refine ⟨(congrArg AIR.stack h.air).trans stack, distinct, rfl, lsw.trans h.lsw.symm, fun c => ?_⟩
  show (w.cue.run.get c).fell = false
  rw [h.cue, clearMarks_get]

/-- What an event leaves that ends a chain and pops its record `r` (R37, R147). -/
theorem AirLeft.chainOver {u : State} (h : AirLeft [] before due s w)
    (air : u.air = { (unchained (r.delayBefore.getD .bypass) w).air with stack := rest, free := r.number :: s.air.free })
    (frame : { u with air := w.air, cue := w.cue, lsw := w.lsw, due := w.due, log := w.log, pi := w.pi } =
      { unchained (r.delayBefore.getD .bypass) w with
        air := w.air, cue := w.cue, lsw := w.lsw, due := w.due, log := w.log, pi := w.pi }) : ChainOver r rest s u := by
  have alc : u.alc = { w.alc with chainOpen := false } := (congrArg State.alc frame :)
  have same {α : Type} (F : State → α)
      (blind : ∀ v : State, F { v with
        alc := s.alc, air := s.air, cue := s.cue, dly := s.dly, lsw := s.lsw, out := s.out, due := s.due, log := s.log, pi := s.pi } = F v) :
      F u = F s := by
    rw [← blind u, ← blind s]
    refine congrArg F ?_
    refine (congrArg (fun v : State => { v with
      alc := s.alc, air := s.air, cue := s.cue, dly := s.dly, lsw := s.lsw, out := s.out, due := s.due, log := s.log
      pi := s.pi }) frame :).trans ?_
    exact (congrArg (fun v : State => { v with
      air := s.air, cue := s.cue, dly := s.dly, lsw := s.lsw, out := s.out, due := s.due, log := s.log, pi := s.pi }) h.frame :)
  refine ⟨by rw [alc]; exact h.queue, by rw [alc], by rw [alc]; exact h.go, ?_, ?_, ?_, same _ fun _ => rfl, same _ fun _ => rfl,
    same _ fun _ => rfl, same _ fun _ => rfl⟩
  · rw [air, ← h.air]
    rfl
  · rw [← h.dly]
    exact (congrArg State.dly frame :)
  · rw [← h.out]
    exact (congrArg State.out frame :)

/-- The end of a chain gives back what its record saved (R37, R71, R72, R102). -/
theorem AirLeft.givesBack {b : State} {leaves : State → Prop} (h : AirLeft [] before due s w) (top : ChainOnTop r rest s)
    (lsw : b.lsw = s.lsw) (leaves_ : ChainOver r rest s (finish b (chainGoesOn w)) → leaves (finish b (chainGoesOn w))) :
    GivesBack r rest s.cue.list (s.dly.returnsTo (r.delayBefore.getD .bypass) = .bypass) before id due s leaves := by
  have pops := h.popEvent top lsw
  rw [h.pops top] at leaves_
  refine pops.givesBack (v := unchained (r.delayBefore.getD .bypass) w) (congrArg CUE.list h.cue :) (congrArg CUE.held h.cue :)
    (fun c => ?_) h.lsw h.tb (congrArg State.boundaryNo h.frame :) h.log (ends_alert 0 top.2.2.1) h.due ?_ h.ready
    fun air frame _ => leaves_ (h.chainOver (air.trans ?_) ?_)
  · show (w.cue.run.get c).riseAfter = _
    rw [h.cue, clearMarks_get]
  · rw [← h.dly]
    exact ⟨fun eq => DelayState.run.inj eq, fun eq => congrArg DelayState.run eq⟩
  · rw [← h.air]
    rfl
  · exact (congrArg (fun v : State => { v with air := w.air, pi := w.pi }) frame :)

/-- A record that saved nothing gives nothing back (R37, R73). -/
theorem AirLeft.givenBack {b : State} (h : AirLeft [] before due s w) (alone : ChainAlone r s) (lsw : b.lsw = s.lsw) :
    ChainGivenBack r s (finish b (chainGoesOn w)) ∧ (finish b (chainGoesOn w)).log = before s.log := by
  obtain ⟨top, suspended, parked, list⟩ := alone
  have list' : w.cue.list = [] := (congrArg CUE.list h.cue).trans list
  have popped := (h.popEvent top lsw).bare suspended (cued_of_none_waits (by
    show ∀ y ∈ w.cue.list, _
    rw [list']
    exact List.forall_mem_nil _)) (congrArg CUE.started h.cue)
  rw [h.pops top]
  obtain ⟨lswSame, -⟩ := popped.lsw_same parked rfl
  refine ⟨⟨h.chainOver (popped.air.trans ?_) ?_, popped.held, popped.list.trans list', lswSame.trans h.lsw⟩,
    popped.log.trans ((ends_alert 0 top.2.2.1 _).trans h.log)⟩
  · rw [← h.air]
    rfl
  · exact (congrArg (fun v : State => { v with air := w.air, pi := w.pi }) popped.frame :)

/-! ### An airing ends -/

theorem endAiring_eq (e : AlertEntry) (k : LogKind) (d : Detail) (w : State) : endAiring e k d w =
    raise .alertState (logEntry k (.alert e.header.pair) d (w.withAlc { w.alc with
      queue := w.alc.queue.filter fun x => !decide (x.header.pair = e.header.pair), go := false, goRiseAfter := none })) := rfl

/-- The alert on air leaves it. -/
theorem airLeft_of_endAiring {v : State} {e : AlertEntry} {queue others : List AlertEntry} (k : LogKind) (d : Detail)
    (alc : v.alc = { s.alc with queue := queue, go := v.alc.go, goRiseAfter := v.alc.goRiseAfter })
    (left : queue.filter (fun x => !decide (x.header.pair = e.header.pair)) = others)
    (cue : v.cue = (clearMarks s).cue) (log : v.log = s.log) (due_ : v.due = due)
    (frame : { v with alc := s.alc, cue := s.cue, due := s.due, pi := s.pi } = s) :
    AirLeft others (fun log => log.append (stamp s) k (.alert e.header.pair) d) due s (endAiring e k d v) := by
  have tb : v.tb = s.tb := (congrArg State.tb frame :)
  have stamps : stamp v = stamp s := by
    unfold stamp
    rw [tb]
  refine ⟨?_, cue, ?_, due_, (congrArg (fun u : State => { u with log := s.log }) frame :)⟩
  · show ({ v.alc with queue := v.alc.queue.filter _, go := false, goRiseAfter := none } : ALC) = _
    rw [alc, left]
  · show v.log.append (stamp v) _ _ _ = _
    rw [stamps, log]

theorem filter_alone (e : AlertEntry) : [e].filter (fun x => !decide (x.header.pair = e.header.pair)) = [] :=
  List.filter_cons_of_neg (by simp)

theorem filter_pair {e f : AlertEntry} (other : f.header.pair ≠ e.header.pair) :
    [e, f].filter (fun x => !decide (x.header.pair = e.header.pair)) = [f] := by
  simp [other]

/-- An alert that airs in an event in which another left the air, no wake being asked for (R144). -/
theorem airing_later {w : State} (f : AlertEntry) (wake : w.alc.wake = false) : airing true f w = raise .alertState
    (logEntry .alertOnAir (.alert f.header.pair) (.onAir f.header.priority f.interruptions)
      ((w.withAlc { w.alc.modify f.header.pair (·.airs w.boundaryNo) with goRiseAfter := some w.boundaryNo }).withOut
        { w.out with alertId := some f.header.pair })) := by
  unfold airing
  rw [wake]
  rfl

/-- The chain goes on with the READY head, its go line held low to the next boundary (R145, R147; no wake asked for). -/
theorem chainGoesOn_airs {w : State} {f : AlertEntry} (queue : w.alc.queue = [f]) (ready : f.state = .ready)
    (wake : w.alc.wake = false) : chainGoesOn w = raise .alertState
      (logEntry .alertOnAir (.alert f.header.pair) (.onAir f.header.priority f.interruptions) { w with
        alc := { w.alc with queue := [f.airs w.boundaryNo], goRiseAfter := some w.boundaryNo }
        out := { w.out with alertId := some f.header.pair } }) := by
  have head : w.alc.readyHead = some f := by
    unfold ALC.readyHead
    rw [queue]
    exact List.find?_cons_of_pos (by simpa using ready)
  have aired : w.alc.modify f.header.pair (·.airs w.boundaryNo) = { w.alc with queue := [f.airs w.boundaryNo] } := by
    unfold ALC.modify
    rw [queue]
    simp
  unfold chainGoesOn
  rw [head]
  dsimp only
  rw [airing_later f wake, aired]
  rfl

/-- How the event closes in which it does. -/
theorem AirLeft.airs {b : State} {f : AlertEntry} (h : AirLeft [f] before s.due s w) (lsw : b.lsw = s.lsw)
    (list : b.cue.list = s.cue.list) (ready : f.state = .ready) (wake : s.alc.wake = false) :
    let t := finish b (chainGoesOn w)
    t.alc = { s.alc with
      queue := [{ f with state := .onAir, played := 0, advisory := 0, begun := s.boundaryNo }]
      go := false, goRiseAfter := some s.boundaryNo } ∧
    t.out = { s.out with alertId := some f.header.pair } ∧
    t.log = (before s.log).append (stamp s) .alertOnAir (.alert f.header.pair) (.onAir f.header.priority f.interruptions) ∧
    { t with alc := s.alc, out := s.out, log := s.log, pi := s.pi } = clearMarks s := by
  have no : w.boundaryNo = s.boundaryNo := (congrArg State.boundaryNo h.frame :)
  have stamps : stamp w = stamp s := by
    unfold stamp
    rw [h.tb]
  have cue : (clearMarks w).cue = (clearMarks s).cue := by
    show ({ w.cue with started := false, run := w.cue.run.map _ } : CUE) = _
    rw [h.cue]
    rfl
  have closes := (congrArg (finish b) (chainGoesOn_airs h.queue ready (by rw [h.alc]; exact wake))).trans
    (finish_marks (congrArg CUE.started h.cue :) ((congrArg CUE.list h.cue).trans list.symm) (h.lsw.trans lsw.symm))
  intro t
  rw [show t = _ from closes]
  refine ⟨?_, ?_, ?_, ?_⟩
  · show ({ w.alc with queue := [f.airs w.boundaryNo], goRiseAfter := some w.boundaryNo } : ALC) = _
    rw [h.alc, no]
    rfl
  · show ({ w.out with alertId := some f.header.pair } : OUT) = _
    rw [h.out]
  · show w.log.append (stamp w) _ _ _ = _
    rw [stamps, h.log]
  · refine Eq.trans ?_ (congrArg (fun v : State => { v with cue := (clearMarks s).cue }) h.frame :)
    show ({ w with alc := s.alc, cue := (clearMarks w).cue, out := s.out, log := s.log, pi := s.pi } : State) = _
    rw [cue, ← h.out, ← h.due]

end Sys2Proof.Machine
end

section
/-! Port resets (R42, R148, R199). -/

namespace Sys2Proof.Machine

open Sys2Proof

variable {s : State} {p : PortId}

/-! ### The rows -/

/-- The state a port reset hands to the port's owner: the port empty, its replies at their owners marked. -/
def State.emptied (s : State) (p : PortId) (l : Level) : State :=
  s.withPi { s.pi.set p { init := l, dataOut := (s.port p).dataOut } with handed := discardReplies p s.pi.handed }

theorem resetPort_emptied (clock : .clockSet ∉ s.due) : resetPort p s = portEffect p (s.emptied p (s.port p).init) := by
  unfold resetPort
  rw [clockFirst_of_not clock]
  rfl

theorem exec_portReset (clock : .clockSet ∉ s.due) (takes : (s.port p).TakesBytes) :
    exec (.portReset p) s = .next (portEffect p (s.emptied p .high)) := by
  refine congrArg Host.Outcome.next ((writeWhole_portReset takes clock).trans ?_)
  rw [resetPort_emptied clock, takes.1]

theorem portInit_falls (clock : .clockSet ∉ s.due) (high : (s.port p).init = .high) :
    portInit p .low s = portEffect p (s.emptied p .low) := by
  unfold portInit
  rw [high]
  dsimp only
  refine (resetPort_emptied (s := s.withPort p { s.port p with init := .low }) clock).trans ?_
  cases p <;> rfl

/-- The two ways to a port reset run the same effect (R199). -/
theorem reset_rows {P : Instr → Level → Prop} (clock : .clockSet ∉ s.due)
    (h : ∀ c l, exec c s = .next (portEffect p (s.emptied p l)) → P c l) :
    ((s.port p).TakesBytes → P (.portReset p) .high) ∧ ((s.port p).init = .high → P (.portInit p .low) .low) :=
  ⟨fun takes => h _ _ (exec_portReset clock takes), fun high => h _ _ (congrArg Host.Outcome.next (portInit_falls clock high))⟩

/-- A pin that is given the level it has changes nothing. -/
theorem portInit_same {l : Level} (h : (s.port p).init = l) : portInit p l s = s := by
  have same : s.withPort p { s.port p with init := l } = s := by
    rw [← h]
    cases p <;> rfl
  unfold portInit
  rw [h]
  cases l <;> exact same

/-- The rise of the pin (R199). -/
theorem portInit_rises (low : (s.port p).init = .low) :
    portInit p .high s = s.withPort p { s.port p with init := .high } := by
  unfold portInit
  rw [low]

/-! ### Port B: a live insert ends (R42) -/

/-- An event that changes neither CUE's list nor LSW closes with its marks wiped. -/
theorem event_marks {f : State → State} {a b : State} (acts : f (clearMarks b) = a) (started : a.cue.started = false)
    (list : a.cue.list = b.cue.list) (lsw : a.lsw = b.lsw) : event f b = clearMarks a := by
  unfold event
  rw [acts]
  exact finish_marks started list lsw

theorem resetB_none {l : Level} (none_ : s.air.insertRecord = none) :
    event endLiveInsert (s.emptied .b l) = clearMarks (s.emptied .b l) := by
  refine event_marks (a := clearMarks (s.emptied .b l)) ?_ rfl rfl rfl
  unfold endLiveInsert
  rw [show (clearMarks (s.emptied .b l)).air.insertRecord = none from none_]

theorem resetB_bare {l : Level} {r : ContextRecord} {rest : List ContextRecord} (stack : s.air.stack = r :: rest)
    (kind : r.kind = .liveInsert) (suspended : r.suspended = none) (parked : r.parked = []) (chain : s.air.chain = .none)
    (distinct : ∀ x ∈ rest, x.number ≠ r.number) (list : s.cue.list = []) :
    event endLiveInsert (s.emptied .b l) = clearMarks (logEntry .liveInsertEnd .none (.number 0) { s.emptied .b l with
      air := { s.air with stack := rest, free := r.number :: s.air.free }
      cue := { s.cue with held := if rest = [] then false else s.cue.held } }) := by
  have cued : (clearMarks (s.emptied .b l)).cue.cued = none := cued_of_none_waits (by
    rw [show (clearMarks (s.emptied .b l)).cue.list = [] from list]
    exact List.forall_mem_nil _)
  have pops := popRecord_bare (v := clearMarks (s.emptied .b l)) 0 stack distinct chain suspended parked cued
  rw [kind] at pops
  refine (event_marks ((endLiveInsert_top (v := clearMarks (s.emptied .b l)) stack kind).trans
    ((if_neg (by show ¬ s.air.chain = _; rw [chain]; nofun)).trans pops)) rfl rfl rfl).trans ?_
  rfl

theorem resetB_pops {l : Level} {c : Instr} {r : ContextRecord} {rest : List ContextRecord} (stack : s.air.stack = r :: rest)
    (kind : r.kind = .liveInsert) (distinct : ∀ x ∈ rest, x.number ≠ r.number) (chain : s.air.chain = .none)
    (ready : s.alc.readyHead = none) (run : exec c s = .next (event endLiveInsert (s.emptied .b l))) :
    GivesBack r rest s.cue.list (s.dly.state = .run .bypass) id
      (fun log => log.append (stamp s) .liveInsertEnd .none (.number 0)) s.due s
      fun t => exec c s = .next t ∧ t.air = { s.air with stack := rest, free := r.number :: s.air.free } ∧
        { t with air := s.air, cue := s.cue, lsw := s.lsw, due := s.due, log := s.log, pi := s.pi } = s := by
  have acts : endLiveInsert (clearMarks (s.emptied .b l)) = popRecord r 0 (clearMarks (s.emptied .b l)) :=
    (endLiveInsert_top (v := clearMarks (s.emptied .b l)) stack kind).trans
      (if_neg (by show ¬ s.air.chain = _; rw [chain]; nofun))
  unfold event at run
  rw [acts] at run
  exact (popEvent_of_top (s := s.emptied .b l) 0 stack distinct chain).givesBack (s := s) rfl rfl
    (fun c => by rw [clearMarks_get]; rfl) rfl rfl rfl rfl (ends_liveInsert kind rfl) rfl Iff.rfl ready
    fun air frame _ => ⟨run, air, (congrArg (fun v : State => { v with cue := s.cue, pi := s.pi }) frame :)⟩

theorem resetB_withdraws {l : Level} {c : Instr} {r : ContextRecord} {rest : List ContextRecord} (stack : s.air.stack = r :: rest)
    (kind : r.kind = .liveInsert) (distinct : ∀ x ∈ rest, x.number ≠ r.number) (chain : s.air.chain = .withoutContext)
    (run : exec c s = .next (event endLiveInsert (s.emptied .b l))) :
    Withdraws r rest (fun log => log.append (stamp s) .liveInsertEnd .none (.number 0)) s.due s fun t => exec c s = .next t := by
  have acts : endLiveInsert (clearMarks (s.emptied .b l)) = withdrawTop r 0 (clearMarks (s.emptied .b l)) :=
    (endLiveInsert_top (v := clearMarks (s.emptied .b l)) stack kind).trans (if_pos chain)
  unfold event at run
  rw [acts] at run
  exact withdraws_of_event (n := 0) (b := s.emptied .b l) (v := clearMarks (s.emptied .b l)) stack distinct rfl rfl rfl rfl rfl rfl
    (ends_liveInsert kind rfl) run

theorem resetB_below {l : Level} {top rest : List ContextRecord} {above r : ContextRecord}
    (stack : s.air.stack = top ++ above :: r :: rest) (kind : r.kind = .liveInsert)
    (others : ∀ x ∈ top ++ [above], x.kind ≠ .liveInsert ∧ x.number ≠ r.number) :
    event endLiveInsert (s.emptied .b l) = clearMarks (logEntry .liveInsertEnd .none (.number 0) { s.emptied .b l with
      air := { s.air with
        stack := top ++ { above with before := r.before, suspended := r.suspended, parked := above.parked ++ r.parked } :: rest
        free := r.number :: s.air.free } }) := by
  refine (event_marks (endLiveInsert_below (v := clearMarks (s.emptied .b l)) stack kind others) rfl rfl rfl).trans ?_
  rfl

/-! ### Port C: an alert is cut short (R148) -/

theorem onAir_head {x : ALC} {e : AlertEntry} {others : List AlertEntry} (queue : x.queue = e :: others) (state : e.state = .onAir) :
    x.onAir = some e := by
  unfold ALC.onAir
  rw [queue]
  exact List.find?_cons_of_pos (by simpa using state)

theorem cutShort_none {v : State} (h : v.alc.onAir = none) : cutShort v = v := by
  unfold cutShort
  rw [h]

theorem cutShort_some {v : State} {e : AlertEntry} (h : v.alc.onAir = some e) :
    cutShort v = chainGoesOn (endAiring e .alertEnded (.alertEnd .cutShort) v) := by
  unfold cutShort
  rw [h]
  rfl

/-- The one queued alert is cut short. -/
theorem resetC_left (l : Level) {e : AlertEntry} (queue : s.alc.queue = [e]) :
    AirLeft [] (fun log => log.append (stamp s) .alertEnded (.alert e.header.pair) (.alertEnd .cutShort)) s.due s
      (endAiring e .alertEnded (.alertEnd .cutShort) (clearMarks (s.emptied .c l))) :=
  airLeft_of_endAiring (v := clearMarks (s.emptied .c l)) .alertEnded (.alertEnd .cutShort)
    (queue := [e]) (by rw [← queue]; rfl) (filter_alone e) rfl rfl rfl rfl

theorem resetC_event {l : Level} {e : AlertEntry} {others : List AlertEntry} (queue : s.alc.queue = e :: others)
    (state : e.state = .onAir) : event cutShort (s.emptied .c l) = finish (s.emptied .c l)
      (chainGoesOn (endAiring e .alertEnded (.alertEnd .cutShort) (clearMarks (s.emptied .c l)))) :=
  congrArg (finish (s.emptied .c l)) (cutShort_some (v := clearMarks (s.emptied .c l)) (onAir_head queue state))

/-- A port whose pin is low takes no notice of what its own reset brings about (R199). -/
theorem resetC_flags : ((event cutShort (s.emptied .c .low)).port .c).flags = 0 := by
  obtain ⟨-, raised, ports⟩ := (keeps_portEffect (s0 := s.emptied .c .low) .c (keeps_refl _)).notices
  rw [show (event cutShort (s.emptied .c .low)).port .c = _ from ports .c]
  dsimp only
  exact if_neg (show ¬ Level.low = .high from nofun)

/-- With a READY alert behind it. -/
theorem resetC_leaves (l : Level) {e f : AlertEntry} (queue : s.alc.queue = [e, f]) (other : f.header.pair ≠ e.header.pair) :
    AirLeft [f] (fun log => log.append (stamp s) .alertEnded (.alert e.header.pair) (.alertEnd .cutShort)) s.due s
      (endAiring e .alertEnded (.alertEnd .cutShort) (clearMarks (s.emptied .c l))) :=
  airLeft_of_endAiring (v := clearMarks (s.emptied .c l)) .alertEnded (.alertEnd .cutShort) (queue := [e, f])
    (by rw [← queue]; rfl) (filter_pair other) rfl rfl rfl rfl

end Sys2Proof.Machine
end

section
/-! Port resets settled. -/

namespace Sys2Proof.Machine

open Sys2Proof

/-- Settles O9: a reset by either row is the port's one effect on the emptied port. -/
theorem aPortResetEmptiesThePort : Obligations.APortResetEmptiesThePort := by
  unfold Obligations.APortResetEmptiesThePort
  intro s clock
  refine ⟨exec_portReset clock, fun high => congrArg Host.Outcome.next (portInit_falls clock high), ?_, ?_, ?_, ?_, ?_⟩
  · intro cleared
    refine ⟨fun none_ => reset_rows (P := fun c l => exec c s = .next (clearMarks (cleared l))) clock fun c l run => ?_,
      fun r rest stack kind suspended parked chain distinct list => ?_, fun r rest stack kind distinct => ?_,
      fun top above r rest stack kind others => ?_⟩
    · exact run.trans (congrArg Host.Outcome.next (resetB_none none_))
    · intro ended
      refine reset_rows (P := fun c l => exec c s = .next (ended l)) clock fun c l run => ?_
      exact run.trans (congrArg Host.Outcome.next (resetB_bare stack kind suspended parked chain distinct list))
    · intro ended popped lost
      exact ⟨fun chain ready => reset_rows (P := fun c _ => popped c) clock fun c l run =>
          resetB_pops stack kind distinct chain ready run,
        fun chain => reset_rows (P := fun c _ => lost c) clock fun c l run => resetB_withdraws stack kind distinct chain run⟩
    · intro withdrawn
      refine reset_rows (P := fun c l => exec c s = .next (withdrawn l)) clock fun c l run => ?_
      exact run.trans (congrArg Host.Outcome.next (resetB_below stack kind others))
  · intro cleared
    refine ⟨fun none_ => reset_rows (P := fun c l => exec c s = .next (clearMarks (cleared l))) clock fun c l run => ?_,
      fun e r queue state alone => ?_, fun e r rest queue state top => ?_, fun e f queue onAir ready other wake => ?_⟩
    · have ends := event_marks (b := s.emptied .c l) (cutShort_none (v := clearMarks (s.emptied .c l)) none_) rfl rfl rfl
      exact run.trans (congrArg Host.Outcome.next ends)
    · intro cutShort
      have rows := reset_rows (P := fun c l => ∃ t, exec c s = .next t ∧ cutShort t ∧ (l = .low → (t.port .c).flags = 0)) clock
        fun c l run => ⟨_, run, by
          rw [show portEffect .c (s.emptied .c l) = _ from resetC_event queue state]
          exact (resetC_left l queue).givenBack (b := s.emptied .c l) alone rfl, fun low => by
          subst low
          exact resetC_flags⟩
      refine ⟨fun takes => ?_, fun high => ?_⟩
      · obtain ⟨t, run, cut, -⟩ := rows.1 takes
        exact ⟨t, run, cut⟩
      · obtain ⟨t, run, cut, flags⟩ := rows.2 high
        exact ⟨t, run, cut, flags rfl⟩
    · intro cutShort
      refine reset_rows (P := fun c _ => cutShort c) clock fun c l run => ?_
      refine (resetC_left l queue).givesBack (b := s.emptied .c l) top rfl fun ended => ⟨?_, ended⟩
      exact run.trans (congrArg Host.Outcome.next (resetC_event queue state))
    · intro on
      exact reset_rows (P := fun c _ => ∃ t, exec c s = .next t ∧ on t) clock fun c l run =>
        ⟨_, run.trans (congrArg Host.Outcome.next (resetC_event queue onAir)),
          (resetC_leaves l queue other).airs (b := s.emptied .c l) rfl rfl ready wake⟩
  · exact fun p low => ⟨congrArg Host.Outcome.next (writeWhole_low low), congrArg Host.Outcome.next (portInit_rises low)⟩
  · exact fun p l same => congrArg Host.Outcome.next (portInit_same same)
  · exact fun p high taken => congrArg Host.Outcome.next (writeWhole_occupied high taken)

end Sys2Proof.Machine
end

section
/-! ALC's counts at a boundary (R136 to R138, R144, R146; log 22). -/

namespace Sys2Proof.Machine

open Sys2Proof

variable {s v : State}

/-! ### The row -/

theorem alertRow {occasion : State → Bool} (due : s.due = [.alerts]) (h : occasion s = true) :
    stageRow .alerts occasion s = finish (s.withDue []) (alertStage (clearMarks (s.withDue []))) := by
  exact stageRow_of_one (d := .alerts) due nofun h

/-! ### The counts -/

/-- An alert on air that did not begin at this boundary has been played for one block more (R144). -/
def AlertEntry.played_ (now : Nat) (e : AlertEntry) : AlertEntry :=
  if e.state = .onAir ∧ e.begun < now then { e with played := e.played + 1 } else e

theorem countPlayed_counts (go : v.alc.goRiseAfter = none) :
    countPlayed v = v.withAlc { v.alc with queue := v.alc.queue.map (·.played_ v.boundaryNo) } := by
  unfold countPlayed goRiseDue
  rw [go]
  exact if_neg nofun

theorem countPlayed_rises (go : goRiseDue v = true) (onAir : v.alc.onAir.isSome = true) :
    countPlayed v = v.withAlc { v.alc with go := true, goRiseAfter := none } := by
  unfold countPlayed
  rw [if_pos go, onAir, Bool.or_true]

theorem played_onAir {e : AlertEntry} {now : Nat} (state : e.state = .onAir) (begun : e.begun < now) :
    e.played_ now = { e with played := e.played + 1 } := if_pos ⟨state, begun⟩

theorem played_waits {e : AlertEntry} {now : Nat} (state : e.state ≠ .onAir) : e.played_ now = e := if_neg fun h => state h.1

theorem lengthReached_some {e : AlertEntry} (h : v.alc.onAir = some e) (long : e.header.audioLength ≤ e.played) :
    lengthReached v = some e := by
  unfold lengthReached
  rw [h]
  exact if_pos long

theorem lengthReached_short {e : AlertEntry} (h : v.alc.onAir = some e) (short : e.played < e.header.audioLength) :
    lengthReached v = none := by
  unfold lengthReached
  rw [h]
  exact if_neg (by omega)

theorem lengthReached_none (h : v.alc.onAir = none) : lengthReached v = none := by
  unfold lengthReached
  rw [h]
  rfl

/-- The validities that go down with none ending (R138). -/
theorem countValidity_none (h : ∀ e ∈ v.alc.queue, e.state = .onAir ∨ 1 < e.validity) :
    countValidity v = v.withAlc { v.alc with queue := v.alc.queue.map fun e => { e with validity := e.validity - 1 } } := by
  have quiet : (v.alc.queue.map fun e => ({ e with validity := e.validity - 1 } : AlertEntry)).filter
      (fun e => decide (e.validity = 0 ∧ e.state ≠ .onAir)) = [] := by
    refine List.filter_eq_nil_iff.2 fun e mem => ?_
    obtain ⟨x, inside, rfl⟩ := List.mem_map.1 mem
    rw [decide_eq_true_eq]
    rintro ⟨over_, waits⟩
    exact (h x inside).elim waits fun long => by
      have zero : x.validity - 1 = 0 := over_
      omega
  show List.foldl expire _ (List.filter _ (v.alc.queue.map fun e => ({ e with validity := e.validity - 1 } : AlertEntry))) = _
  rw [quiet]
  rfl

/-- The holds that go down with none ending (R136). -/
theorem countHolds_none (h : ∀ e ∈ v.alc.queue, e.state ≠ .pending) : countHolds v = v := by
  have same : (v.alc.queue.map fun e => if e.state = .pending then { e with hold := e.hold - 1 } else e) = v.alc.queue :=
    (List.map_congr_left fun e mem => if_neg (h e mem)).trans (List.map_id _)
  have quiet : v.alc.queue.filter (fun e => decide (e.state = .pending ∧ e.hold = 0)) = [] :=
    List.filter_eq_nil_iff.2 fun e mem => by simp [h e mem]
  unfold countHolds
  rw [same]
  show List.foldl holdEnds _ (v.alc.queue.filter _) = _
  rw [quiet]
  rfl

/-- The advisory waits where none is awaited (R137). -/
theorem countAdvisory_none (h : ∀ e ∈ v.alc.queue, e.state ≠ .ready) : countAdvisory v = v := by
  have same : (v.alc.queue.map fun e =>
      if e.state = .ready ∧ e.header.priority = 1 then { e with advisory := e.advisory - 1 } else e) = v.alc.queue :=
    (List.map_congr_left fun e mem => if_neg fun both => h e mem both.1).trans (List.map_id _)
  unfold countAdvisory
  rw [same]
  rfl

theorem alertCounts_empty (queue : v.alc.queue = []) : alertCounts v = v := by
  have empty {P : AlertEntry → Prop} : ∀ e ∈ v.alc.queue, P e := by
    rw [queue]
    exact List.forall_mem_nil _
  have valid : countValidity v = v := by
    rw [countValidity_none empty, queue, List.map_nil, ← queue]
    rfl
  unfold alertCounts
  rw [valid, countHolds_none empty, countAdvisory_none empty]

/-! ### The decision on the air -/

theorem decideAir_onAir {before : List Pair} {o : AlertEntry} (onAir : v.alc.onAir = some o)
    (lower : ∀ h, v.alc.readyHead = some h → h.header.priority ≤ o.header.priority) : decideAir before v = v := by
  unfold decideAir
  rw [onAir]
  cases ready : v.alc.readyHead with
  | none =>
    dsimp only
    unfold considerAir
    rw [onAir]
    exact if_neg fun h => absurd h.1 nofun
  | some h => exact if_neg fun both => Nat.not_lt.2 (lower h ready) both.1

theorem decideAir_free {before : List Pair} (onAir : v.alc.onAir = none) : decideAir before v = considerAir v := by
  unfold decideAir
  rw [onAir]

/-- ALC begins a chain with the READY head when it may air (R142). -/
theorem considerAir_begins {e : AlertEntry} (onAir : v.alc.onAir = none) (closed : v.alc.chainOpen = false)
    (ready : v.alc.readyHead = some e) (may : mayAir e v = true) : considerAir v = beginChain e v := by
  unfold considerAir
  rw [onAir, closed, ready]
  exact (if_pos ⟨rfl, rfl⟩).trans (if_pos may)

/-! ### Look-ups in a queue of one -/

theorem readyHead_alone {x : ALC} {e : AlertEntry} (queue : x.queue = [e]) (state : e.state = .ready) : x.readyHead = some e := by
  unfold ALC.readyHead
  rw [queue]
  exact List.find?_cons_of_pos (by simpa using state)

theorem onAir_none {x : ALC} (h : ∀ e ∈ x.queue, e.state ≠ .onAir) : x.onAir = none :=
  List.find?_eq_none.2 fun e mem => by simpa using h e mem

theorem readyHead_none {x : ALC} (h : ∀ e ∈ x.queue, e.state ≠ .ready) : x.readyHead = none :=
  List.find?_eq_none.2 fun e mem => by simpa using h e mem

end Sys2Proof.Machine
end

section
/-! The clauses of ALC's counts (R136 to R138, R142, R144, R146, R147). -/

namespace Sys2Proof.Machine

open Sys2Proof

variable {s w : State}

/-! ### The grant of the air -/

/-- What a chain's first alert leaves is a statement about the state as its event found it, CUE's marks apart. -/
theorem ChainBegun.of_frame {e : AlertEntry} {log : LOG} {due : List Due} {t : State} (h : ChainBegun e log due w t)
    (frame : { w with alc := s.alc, cue := s.cue, log := s.log, due := s.due, pi := s.pi } = s) (cue : w.cue = (clearMarks s).cue)
    (pins : ∀ p, (s.port p).init = .high → (w.port p).init = .high) : ChainBegun e log due s t := by
  have same : w = { s with alc := w.alc, cue := (clearMarks s).cue, log := w.log, due := w.due, pi := w.pi } := by
    rw [← cue]
    exact (congrArg (fun v : State => { v with alc := w.alc, cue := w.cue, log := w.log, due := w.due, pi := w.pi }) frame :)
  obtain ⟨open_, go, onAir, record_, held, cues, lsw, quiet, parks, lines, dly, out, log_, notes, rest⟩ := h
  have pins' := fun p high => notes p (pins p high)
  generalize w.alc = wa at same
  generalize w.log = wl at same
  generalize w.due = wd at same
  generalize w.pi = wp at same
  subst same
  refine ⟨open_, go, onAir, record_, held, fun nd => ?_, lsw, quiet, parks, lines, dly, out, log_, pins', rest⟩
  obtain ⟨whole, list, high⟩ := cues nd
  refine ⟨(congrArg (fun x : CUE => { x with run := s.cue.run }) whole :), list, fun ch => (high ch).trans ?_⟩
  rw [clearMarks_get]
  rfl

/-! ### The event on a short queue -/

variable {v : State}

theorem countPlayed_pair {o e : AlertEntry} (queue : v.alc.queue = [o, e]) (onAir : o.state = .onAir)
    (begun : o.begun < v.boundaryNo) (waits : e.state ≠ .onAir) (go : v.alc.goRiseAfter = none) :
    countPlayed v = v.withAlc { v.alc with queue := [{ o with played := o.played + 1 }, e] } := by
  rw [countPlayed_counts go, queue, List.map_cons, List.map_singleton, played_onAir onAir begun, played_waits waits]

theorem countPlayed_alone {o : AlertEntry} (queue : v.alc.queue = [o]) (onAir : o.state = .onAir)
    (begun : o.begun < v.boundaryNo) (go : v.alc.goRiseAfter = none) :
    countPlayed v = v.withAlc { v.alc with queue := [{ o with played := o.played + 1 }] } := by
  rw [countPlayed_counts go, queue, List.map_singleton, played_onAir onAir begun]

theorem countPlayed_waits {e : AlertEntry} (queue : v.alc.queue = [e]) (waits : e.state ≠ .onAir) (go : v.alc.goRiseAfter = none) :
    countPlayed v = v := by
  rw [countPlayed_counts go, queue, List.map_singleton, played_waits waits, ← queue]
  rfl

theorem countValidity_pair {o e : AlertEntry} (queue : v.alc.queue = [o, e]) (onAir : o.state = .onAir) (valid : 1 < e.validity) :
    countValidity v = v.withAlc { v.alc with
      queue := [{ o with validity := o.validity - 1 }, { e with validity := e.validity - 1 }] } := by
  rw [countValidity_none fun x mem => ?_, queue]
  · rfl
  · rw [queue] at mem
    simp only [List.mem_cons, List.not_mem_nil, or_false] at mem
    rcases mem with rfl | rfl
    · exact .inl onAir
    · exact .inr valid

theorem countValidity_alone {e : AlertEntry} (queue : v.alc.queue = [e]) (stays : e.state = .onAir ∨ 1 < e.validity) :
    countValidity v = v.withAlc { v.alc with queue := [{ e with validity := e.validity - 1 }] } := by
  rw [countValidity_none fun x mem => ?_, queue]
  · rfl
  · rw [queue, List.mem_singleton] at mem
    rwa [mem]

/-- An entry whose validity ends leaves (R138). -/
theorem countValidity_expires {e : AlertEntry} (queue : v.alc.queue = [e]) (waits : e.state ≠ .onAir) (over_ : e.validity ≤ 1) :
    countValidity v = raise .alertState (logEntry .alertExpired (.alert e.header.pair) (.alertState e.state)
      (v.withAlc { v.alc with queue := [] })) := by
  have down : e.validity - 1 = 0 := by omega
  have due : [{ e with validity := e.validity - 1 }].filter (fun e => decide (e.validity = 0 ∧ e.state ≠ .onAir)) =
      [{ e with validity := e.validity - 1 }] := List.filter_cons_of_pos (by simp [down, waits])
  have gone : [{ e with validity := e.validity - 1 }].filter (fun x => !decide (x.header.pair = e.header.pair)) = [] :=
    List.filter_cons_of_neg (by simp)
  unfold countValidity
  rw [queue, List.map_singleton]
  show List.foldl expire _ ([{ e with validity := e.validity - 1 }].filter _) = _
  rw [due]
  show raise .alertState (logEntry .alertExpired (.alert e.header.pair) (.alertState e.state) (v.withAlc { v.alc with
    queue := [{ e with validity := e.validity - 1 }].filter (fun x => !decide (x.header.pair = e.header.pair)) })) = _
  rw [gone]

theorem countAdvisory_pair {o e : AlertEntry} (queue : v.alc.queue = [o, e]) (onAir : o.state = .onAir) :
    countAdvisory v = v.withAlc { v.alc with
      queue := [o, if e.state = .ready ∧ e.header.priority = 1 then { e with advisory := e.advisory - 1 } else e] } := by
  unfold countAdvisory
  rw [queue, List.map_cons, List.map_singleton, if_neg (by rw [onAir]; exact fun h => absurd h.1 nofun)]

theorem countAdvisory_alone {e : AlertEntry} (queue : v.alc.queue = [e]) (ready : e.state = .ready) (one : e.header.priority = 1) :
    countAdvisory v = v.withAlc { v.alc with queue := [{ e with advisory := e.advisory - 1 }] } := by
  unfold countAdvisory
  rw [queue, List.map_singleton, if_pos ⟨ready, one⟩]

/-- A hold that ends behind an alert on air (R136). -/
theorem countHolds_ends {o e : AlertEntry} (queue : v.alc.queue = [o, e]) (onAir : o.state = .onAir) (pending : e.state = .pending)
    (other : o.header.pair ≠ e.header.pair) (hold : e.hold ≤ 1) (mode : v.air.mode ≠ .test) :
    countHolds v = raise .alertState (logEntry .alertForwarded (.alert e.header.pair) (.forwarded .auto) (v.withAlc { v.alc with
      queue := [o, { e with
        state := .ready, hold := 0, advisory := if e.header.priority = 1 then v.alc.advisoryWait else 0 }] })) := by
  have down : e.hold - 1 = 0 := by omega
  have fewer : [o, e].map (fun e => if e.state = .pending then { e with hold := e.hold - 1 } else e) = [o, { e with hold := 0 }] := by
    simp [onAir, pending, down]
  have due : [o, { e with hold := 0 }].filter (fun e => decide (e.state = .pending ∧ e.hold = 0)) = [{ e with hold := 0 }] := by
    simp [onAir, pending]
  have readied : [o, { e with hold := 0 }].map (fun x => if x.header.pair = e.header.pair then x.readied v.alc.advisoryWait else x) =
      [o, { e with state := .ready, hold := 0, advisory := if e.header.priority = 1 then v.alc.advisoryWait else 0 }] := by
    simp [other, AlertEntry.readied]
  unfold countHolds
  rw [queue, fewer]
  show List.foldl holdEnds (v.withAlc { v.alc with queue := [o, { e with hold := 0 }] })
    ([o, { e with hold := 0 }].filter _) = _
  rw [due]
  show readyReport (raise .alertState (logEntry .alertForwarded (.alert e.header.pair) (.forwarded .auto) (v.withAlc { v.alc with
    queue := [o, { e with hold := 0 }].map fun x => if x.header.pair = e.header.pair then x.readied v.alc.advisoryWait else x }))) = _
  rw [readied]
  exact if_neg mode

/-- A hold ends behind an alert on air: no chain begins and none interrupts (R136, R141, R145; log 22). -/
theorem alertStage_hold {o e : AlertEntry} (queue : v.alc.queue = [o, e]) (onAir : o.state = .onAir)
    (begun : o.begun < v.boundaryNo) (short : o.played + 1 < o.header.audioLength) (other : o.header.pair ≠ e.header.pair)
    (pending : e.state = .pending) (hold : e.hold ≤ 1) (valid : 1 < e.validity) (lower : e.header.priority ≤ o.header.priority)
    (go : v.alc.goRiseAfter = none) (mode : v.air.mode ≠ .test) : alertStage v = raise .alertState
      (logEntry .alertForwarded (.alert e.header.pair) (.forwarded .auto) (v.withAlc { v.alc with
        queue := [{ o with played := o.played + 1, validity := o.validity - 1 },
          { e with state := .ready, hold := 0, validity := e.validity - 1
                   advisory := if e.header.priority = 1 then v.alc.advisoryWait - 1 else 0 }] })) := by
  have played := countPlayed_pair queue onAir begun (by rw [pending]; nofun) go
  have valid_ := countValidity_pair (v := v.withAlc { v.alc with queue := [{ o with played := o.played + 1 }, e] }) rfl onAir valid
  have held := countHolds_ends (v := v.withAlc { v.alc with queue := [{ o with played := o.played + 1, validity := o.validity - 1 },
    { e with validity := e.validity - 1 }] }) rfl onAir pending other hold mode
  have waited := countAdvisory_pair (v := raise .alertState (logEntry .alertForwarded (.alert e.header.pair) (.forwarded .auto)
    (v.withAlc { v.alc with queue := [{ o with played := o.played + 1, validity := o.validity - 1 },
      { e with state := .ready, hold := 0, validity := e.validity - 1
               advisory := if e.header.priority = 1 then v.alc.advisoryWait else 0 }] }))) rfl onAir
  have last : (if (AlertState.ready = .ready ∧ e.header.priority = 1) then
      { e with state := .ready, hold := 0, validity := e.validity - 1
               advisory := (if e.header.priority = 1 then v.alc.advisoryWait else 0) - 1 }
      else { e with state := .ready, hold := 0, validity := e.validity - 1
                    advisory := if e.header.priority = 1 then v.alc.advisoryWait else 0 }) =
      ({ e with state := .ready, hold := 0, validity := e.validity - 1
                advisory := if e.header.priority = 1 then v.alc.advisoryWait - 1 else 0 } : AlertEntry) := by
    by_cases one : e.header.priority = 1 <;> simp [one]
  rw [last] at waited
  have counts : alertCounts (countPlayed v) = _ :=
    (congrArg (fun u => countAdvisory (countHolds (countValidity u))) played).trans
      ((congrArg (fun u => countAdvisory (countHolds u)) valid_).trans ((congrArg countAdvisory held).trans waited))
  rw [alertStage_of_none (by rw [played]; exact lengthReached_short (onAir_head rfl onAir) short), counts]
  refine decideAir_onAir (o := { o with played := o.played + 1, validity := o.validity - 1 }) (onAir_head rfl onAir) fun h ready => ?_
  have mem := List.mem_of_find?_eq_some ready
  simp only [withAlc_alc, List.mem_cons, List.not_mem_nil, or_false] at mem
  rcases mem with rfl | rfl
  · exact Nat.le_refl _
  · exact lower

/-- A validity ends and its entry expires (R138). -/
theorem alertStage_expires {e : AlertEntry} (queue : v.alc.queue = [e]) (waits : e.state ≠ .onAir) (over_ : e.validity ≤ 1)
    (go : v.alc.goRiseAfter = none) : alertStage v = raise .alertState
      (logEntry .alertExpired (.alert e.header.pair) (.alertState e.state) (v.withAlc { v.alc with queue := [] })) := by
  have played := countPlayed_waits queue waits go
  have quiet : v.alc.onAir = none := onAir_none fun x mem => by
    rw [queue, List.mem_singleton] at mem
    rwa [mem]
  rw [alertStage_of_none (by rw [played]; exact lengthReached_none quiet), played]
  unfold alertCounts
  rw [countValidity_expires queue waits over_, countHolds_none (List.forall_mem_nil _), countAdvisory_none (List.forall_mem_nil _),
    decideAir_free rfl]
  exact considerAir_of_no_head rfl

/-- The go line rises late (R144). -/
theorem alertStage_go {o : AlertEntry} (queue : v.alc.queue = [o]) (onAir : o.state = .onAir)
    (short : o.played < o.header.audioLength) (go : goRiseDue v = true) : alertStage v = v.withAlc { v.alc with
      queue := [{ o with validity := o.validity - 1 }], go := true, goRiseAfter := none } := by
  have head : v.alc.onAir = some o := onAir_head queue onAir
  have played := countPlayed_rises go (Option.isSome_iff_exists.2 ⟨o, head⟩)
  have valid_ := countValidity_alone (v := v.withAlc { v.alc with go := true, goRiseAfter := none }) queue (.inl onAir)
  have stays : ∀ x ∈ [({ o with validity := o.validity - 1 } : AlertEntry)], x.state = .onAir := fun x mem => by
    rw [List.mem_singleton.1 mem]
    exact onAir
  rw [alertStage_of_none (by rw [played]; exact lengthReached_short head short), played]
  unfold alertCounts
  rw [valid_, countHolds_none fun x mem => by rw [stays x mem]; nofun, countAdvisory_none fun x mem => by rw [stays x mem]; nofun]
  refine decideAir_onAir (o := { o with validity := o.validity - 1 }) (onAir_head rfl onAir) fun h ready => ?_
  rw [List.mem_singleton.1 (List.mem_of_find?_eq_some ready)]

/-- An advisory wait ends and the advisory begins a chain (R137, R142, R143). -/
theorem alertStage_advisory {e : AlertEntry} (queue : v.alc.queue = [e]) (ready : e.state = .ready)
    (one : e.header.priority = 1) (last : e.advisory = 1) (valid : 1 < e.validity) (closed : v.alc.chainOpen = false)
    (go : v.alc.goRiseAfter = none) : alertStage v = beginChain { e with validity := e.validity - 1, advisory := 0 }
      (v.withAlc { v.alc with queue := [{ e with validity := e.validity - 1, advisory := 0 }] }) := by
  have waits : e.state ≠ .onAir := by rw [ready]; nofun
  have played := countPlayed_waits queue waits go
  have quiet : v.alc.onAir = none := onAir_none fun x mem => by
    rw [queue, List.mem_singleton] at mem
    rwa [mem]
  have valid_ := countValidity_alone queue (.inr valid)
  have held := countHolds_none (v := v.withAlc { v.alc with queue := [{ e with validity := e.validity - 1 }] }) fun x mem => by
    rw [List.mem_singleton.1 mem]
    exact fun pending => absurd (ready.symm.trans pending) nofun
  have waited := countAdvisory_alone (v := v.withAlc { v.alc with queue := [{ e with validity := e.validity - 1 }] }) rfl ready one
  have down : e.advisory - 1 = 0 := by omega
  have counts : alertCounts v = v.withAlc { v.alc with queue := [{ e with validity := e.validity - 1, advisory := 0 }] } := by
    unfold alertCounts
    rw [valid_, held, waited]
    dsimp only
    rw [down]
    rfl
  have none_ : (v.withAlc { v.alc with queue := [{ e with validity := e.validity - 1, advisory := 0 }] }).alc.onAir = none :=
    onAir_none fun x mem => by
      rw [List.mem_singleton.1 mem]
      exact waits
  rw [alertStage_of_none (by rw [played]; exact lengthReached_none quiet), played, counts, decideAir_free none_]
  refine considerAir_begins none_ closed (readyHead_alone rfl ready) ?_
  unfold mayAir
  rw [decide_eq_true (p := (0 : Nat) = 0) rfl, Bool.or_true, Bool.true_or]

/-! ### The clauses -/

theorem counts_hold {o e : AlertEntry} (due : s.due = [.alerts]) (queue : s.alc.queue = [o, e]) (onAir : o.state = .onAir)
    (begun : o.begun < s.boundaryNo) (short : o.played + 1 < o.header.audioLength) (other : o.header.pair ≠ e.header.pair)
    (pending : e.state = .pending) (hold : e.hold ≤ 1) (valid : 1 < e.validity) (lower : e.header.priority ≤ o.header.priority)
    (go : s.alc.goRiseAfter = none) (mode : s.air.mode ≠ .test) :
    exec .holdExpiry s = .next (clearMarks (raise .alertState
      (logEntry .alertForwarded (.alert e.header.pair) (.forwarded .auto) { s with
        due := []
        alc := { s.alc with queue := [{ o with played := o.played + 1, validity := o.validity - 1 },
          { e with state := .ready, hold := 0, validity := e.validity - 1
                   advisory := if e.header.priority = 1 then s.alc.advisoryWait - 1 else 0 }] } }))) := by
  have occasion : holdDue s = true := by
    unfold holdDue
    rw [queue]
    simp [pending, hold, valid]
  have stage := alertStage_hold (v := clearMarks (s.withDue [])) queue onAir begun short other pending hold valid lower go mode
  exact congrArg Host.Outcome.next ((alertRow due occasion).trans ((congrArg (finish (s.withDue [])) stage).trans
    (finish_marks rfl rfl rfl)))

theorem counts_expires {e : AlertEntry} (due : s.due = [.alerts]) (queue : s.alc.queue = [e]) (waits : e.state ≠ .onAir)
    (over_ : e.validity ≤ 1) (go : s.alc.goRiseAfter = none) :
    exec .validityExpiry s = .next (clearMarks (raise .alertState
      (logEntry .alertExpired (.alert e.header.pair) (.alertState e.state) { s with
        due := [], alc := { s.alc with queue := [] } }))) := by
  have occasion : validityDue s = true := by
    unfold validityDue
    rw [queue]
    simp [waits, over_]
  have stage := alertStage_expires (v := clearMarks (s.withDue [])) queue waits over_ go
  exact congrArg Host.Outcome.next ((alertRow due occasion).trans ((congrArg (finish (s.withDue [])) stage).trans
    (finish_marks rfl rfl rfl)))

theorem counts_go {o : AlertEntry} (due : s.due = [.alerts]) (queue : s.alc.queue = [o]) (onAir : o.state = .onAir)
    (short : o.played < o.header.audioLength) (go : ∃ b, s.alc.goRiseAfter = some b ∧ b < s.boundaryNo) :
    exec .goLineDelayedRise s = .next (clearMarks { s with
      due := []
      alc := { s.alc with queue := [{ o with validity := o.validity - 1 }], go := true, goRiseAfter := none } }) := by
  have occasion : goRiseDue s = true := by
    obtain ⟨b, some_, late⟩ := go
    unfold goRiseDue
    rw [some_]
    exact decide_eq_true late
  have stage := alertStage_go (v := clearMarks (s.withDue [])) queue onAir short occasion
  exact congrArg Host.Outcome.next ((alertRow due occasion).trans ((congrArg (finish (s.withDue [])) stage).trans
    (finish_marks rfl rfl rfl)))

theorem counts_advisory {e : AlertEntry} (due : s.due = [.alerts]) (queue : s.alc.queue = [e]) (ready : e.state = .ready)
    (one : e.header.priority = 1) (last : e.advisory = 1) (valid : 1 < e.validity) (closed : s.alc.chainOpen = false)
    (room : s.air.stack.length < s.air.maxDepth) (wake : s.alc.wake = false) (go : s.alc.goRiseAfter = none) :
    ∃ t, exec .advisoryWaitExpiry s = .next t ∧ ChainBegun { e with validity := e.validity - 1 } s.log [] s t := by
  have occasion : advisoryDue s = true := by
    unfold advisoryDue
    rw [queue]
    simp [ready, one, last]
  have stage := alertStage_advisory (v := clearMarks (s.withDue [])) queue ready one last valid closed go
  refine ⟨_, congrArg Host.Outcome.next ((alertRow due occasion).trans (congrArg (finish (s.withDue [])) stage)), ?_⟩
  have begun := chainBegun (b := s.withDue []) (e := { e with validity := e.validity - 1, advisory := 0 })
    (x := { e with validity := e.validity - 1, advisory := 0 }) (s := (clearMarks (s.withDue [])).withAlc { s.alc with
      queue := [{ e with validity := e.validity - 1, advisory := 0 }] }) rfl rfl rfl room wake rfl rfl rfl
  exact ChainBegun.of_frame (e := { e with validity := e.validity - 1, advisory := 0 }) begun rfl rfl fun _ high => high

/-- The audio length is reached: the alert leaves the air (R146). -/
theorem counts_length {o : AlertEntry} (due : s.due = [.alerts]) (queue : s.alc.queue = [o]) (onAir : o.state = .onAir)
    (begun : o.begun < s.boundaryNo) (long : o.header.audioLength ≤ o.played + 1) (go : s.alc.goRiseAfter = none) :
    ∃ w, exec .alertLengthReached s = .next (finish (s.withDue []) (chainGoesOn w)) ∧
      AirLeft [] (fun log => log.append (stamp s) .alertEnded (.alert o.header.pair) (.alertEnd .length)) [] s w := by
  have reached {v : State} (alc : v.alc = s.alc) (no : v.boundaryNo = s.boundaryNo) :
      lengthReached (countPlayed v) = some { o with played := o.played + 1 } := by
    rw [countPlayed_alone (by rw [alc]; exact queue) onAir (by rw [no]; exact begun) (by rw [alc]; exact go)]
    exact lengthReached_some (onAir_head rfl onAir) long
  have left : AirLeft [] (fun log => log.append (stamp s) .alertEnded (.alert o.header.pair) (.alertEnd .length)) [] s
      (endAiring { o with played := o.played + 1 } .alertEnded (.alertEnd .length) (countPlayed (clearMarks (s.withDue [])))) := by
    rw [countPlayed_alone (v := clearMarks (s.withDue [])) queue onAir begun go]
    exact airLeft_of_endAiring (v := (clearMarks (s.withDue [])).withAlc { s.alc with
      queue := [{ o with played := o.played + 1 }] }) (e := { o with played := o.played + 1 }) .alertEnded (.alertEnd .length)
      (queue := [{ o with played := o.played + 1 }]) rfl (filter_alone _) rfl rfl rfl rfl
  refine ⟨_, congrArg Host.Outcome.next ((alertRow due ?_).trans (congrArg (finish (s.withDue [])) ?_)), left⟩
  · show (lengthReached (countPlayed s)).isSome = true
    rw [reached rfl rfl]
    rfl
  · rw [alertStage_of_ended (reached (v := clearMarks (s.withDue [])) rfl rfl), alertCounts_empty left.queue]

/-- Settles O51: each clause is ALC's one event of the boundary, read off the queue. -/
theorem alertCountsComeDue : Obligations.AlertCountsComeDue := by
  unfold Obligations.AlertCountsComeDue
  intro e o s due
  refine ⟨fun queue onAir begun short other pending hold valid lower go mode =>
      counts_hold due queue onAir begun short other pending hold valid lower go mode,
    fun queue ready one last valid _ closed _ room wake go => counts_advisory due queue ready one last valid closed room wake go,
    fun queue waits over_ go => counts_expires due queue waits over_ go,
    fun queue onAir short go => counts_go due queue onAir short go,
    fun r queue onAir begun long go alone => ?_, fun r rest queue onAir begun long go top => ?_⟩
  · obtain ⟨w, run, left⟩ := counts_length due queue onAir begun long go
    exact ⟨_, run, left.givenBack (b := s.withDue []) alone rfl⟩
  · obtain ⟨w, run, left⟩ := counts_length due queue onAir begun long go
    exact left.givesBack (b := s.withDue []) top rfl fun ended => ⟨run, ended⟩

end Sys2Proof.Machine
end

section
/-! The chain goes on with a wake asked for, and the end of a chain without a record (R45, R147, R185). -/

namespace Sys2Proof.Machine

open Sys2Proof

variable {before : LOG → LOG} {due : List Due} {s w : State} {queue : List AlertEntry}

/-! ### A wake -/

/-- The state in which an alert that airs after another asks for the wake: ALC and OUT have it. -/
def airingState (f : AlertEntry) (w : State) : State :=
  (w.withAlc { w.alc.modify f.header.pair (·.airs w.boundaryNo) with goRiseAfter := some w.boundaryNo }).withOut
    { w.out with alertId := some f.header.pair }

theorem airing_wakes (f : AlertEntry) (wake : w.alc.wake = true) : airing true f w = raise .alertState
    (logEntry .alertOnAir (.alert f.header.pair) (.onAir f.header.priority f.interruptions) (wakeSite (airingState f w))) := by
  unfold airing
  rw [wake]
  rfl

theorem AirLeft.stamps (h : AirLeft queue before due s w) : stamp w = stamp s := by
  unfold stamp
  rw [h.tb]

/-- A chain that goes on with a READY alert whose airing wakes the site (R147, R185). -/
theorem AirLeft.airsWaking {b y : State} {f : AlertEntry} (h : AirLeft [f] before due s w) (ready : f.state = .ready)
    (wake : s.alc.wake = true) (wakes : wakeSite (airingState f w) = y)
    (frame : { y with site := w.site, lnk := w.lnk, log := w.log, pi := w.pi } =
      { airingState f w with site := w.site, lnk := w.lnk, log := w.log, pi := w.pi }) :
    let t := finish b (chainGoesOn w)
    t.out = { s.out with alertId := some f.header.pair } ∧
    t.log = y.log.append (stamp s) .alertOnAir (.alert f.header.pair) (.onAir f.header.priority f.interruptions) ∧
    t.site = y.site ∧ t.lnk = y.lnk ∧ Notified y t := by
  have goes : chainGoesOn w = raise .alertState
      (logEntry .alertOnAir (.alert f.header.pair) (.onAir f.header.priority f.interruptions) y) := by
    unfold chainGoesOn
    rw [readyHead_alone h.queue ready]
    exact (airing_wakes f (by rw [h.alc]; exact wake)).trans (congrArg (fun v => raise .alertState
      (logEntry .alertOnAir (.alert f.header.pair) (.onAir f.header.priority f.interruptions) v)) wakes)
  have cue : y.cue = w.cue := (congrArg State.cue frame :)
  have out : y.out = { w.out with alertId := some f.header.pair } := (congrArg State.out frame :)
  have tb : y.tb = w.tb := (congrArg State.tb frame :)
  have stamps : stamp y = stamp s := by
    rw [← h.stamps]
    unfold stamp
    rw [tb]
  have started : y.cue.started = false := by rw [cue, h.cue]; rfl
  have closed := closes_finish b (a := raise .alertState
    (logEntry .alertOnAir (.alert f.header.pair) (.onAir f.header.priority f.interruptions) y)) fun st =>
      absurd (started.symm.trans st) nofun
  intro t
  rw [show t = _ from congrArg (finish b) goes]
  have aired : Notified y (raise .alertState
      (logEntry .alertOnAir (.alert f.header.pair) (.onAir f.header.priority f.interruptions) y)) :=
    (notified_logEntry .alertOnAir (.alert f.header.pair) (.onAir f.header.priority f.interruptions) y).trans
      (notified_raise .alertState _)
  refine ⟨?_, closed.log.trans ?_, (congrArg State.site closed.frame :), (congrArg State.lnk closed.frame :),
    aired.trans closed.notified⟩
  · refine (congrArg State.out closed.frame :).trans (out.trans ?_)
    rw [h.out]
  · show y.log.append (stamp y) _ _ _ = _
    rw [stamps]

/-- The site's answer to a wake, by its state (R185). -/
theorem wakeSite_up {v : State} (state : v.site.state = .full ∨ v.site.state = .starting ∨ v.site.state = .raising) :
    wakeSite v = v := by
  unfold wakeSite
  rcases state with state | state | state <;> rw [state]

theorem wakeSite_lowering {v : State} (state : v.site.state = .lowering) :
    wakeSite v = v.withSite { v.site with pendingWake := true } := by
  unfold wakeSite
  rw [state]

theorem wakeSite_notTaken {v : State}
    (state : v.site.state = .unknown ∨ v.site.state = .off ∨ v.site.state = .stopping ∨ v.site.state = .fault) :
    wakeSite v = logEntry .scheduleNotTaken .none (.schedule .wake v.site.state) v := by
  unfold wakeSite
  rcases state with state | state | state | state <;> rw [state] <;> exact congrArg (fun x => logEntry _ _ (.schedule _ x) v) state

/-- A wake in LOW begins to raise the site, the first stage's commands in LNK's empty queue (R177, R182). -/
theorem wakeSite_low {v : State} (state : v.site.state = .low) (queue : v.lnk.queue = [])
    (any : (v.site.those fun r => decide (r.slot = some 0) && !decide (r.reported = .on)).map SiteCommand.on ≠ []) :
    let commands := (v.site.those fun r => decide (r.slot = some 0) && !decide (r.reported = .on)).map SiteCommand.on
    let y := wakeSite v
    y.log = v.log.append (stamp v) .siteState .none (.site .low .raising .wake) ∧ y.site.state = .raising ∧
    (∃ st, y.site.stage = some st ∧ st.kind = .upSlot ∧ st.slot = some 0 ∧ st.awaiting = commands) ∧
    y.lnk.queue.map (·.command) = commands ∧
    (∀ p, (v.port p).init = .high → (y.port p).flags.getLsbD 12 = true) ∧
    { y with site := v.site, lnk := v.lnk, log := v.log, pi := v.pi } = v := by
  have few : ((v.site.those fun r => decide (r.slot = some 0) && !decide (r.reported = .on)).map SiteCommand.on).length ≤ 8 := by
    rw [List.length_map]
    exact filter_range_length_le _
  have commands : upCommands (siteChange .raising .wake v).site 0 =
      (v.site.those fun r => decide (r.slot = some 0) && !decide (r.reported = .on)).map .on := upCommands_raising (by nofun) 0
  have run : wakeSite v = beginStage .upSlot (some 0) 0
      ((v.site.those fun r => decide (r.slot = some 0) && !decide (r.reported = .on)).map .on) (siteChange .raising .wake v) := by
    unfold wakeSite
    rw [state]
    show checkStage (beginStage .upSlot (some 0) 0 (upCommands (siteChange .raising .wake v).site 0) (siteChange .raising .wake v)) = _
    rw [commands]
    exact checkStage_beginStage any (by rw [show (siteChange .raising .wake v).lnk.queue = [] from queue]; decide)
  rw [run]
  generalize (v.site.those fun r => decide (r.slot = some 0) && !decide (r.reported = .on)) = rs at few
  have room : 8 - (siteChange .raising .wake v).lnk.queue.length = 8 := by
    rw [show (siteChange .raising .wake v).lnk.queue = [] from queue]
    rfl
  have whole : (rs.map SiteCommand.on).take (8 - (siteChange .raising .wake v).lnk.queue.length) = rs.map .on := by
    rw [room]
    exact List.take_of_length_le few
  intro cs y
  have eq : y = _ := beginStage_eq .upSlot (some 0) 0 (rs.map .on) (siteChange .raising .wake v)
  refine ⟨?_, ?_, ⟨firstStage .upSlot (some 0) 0 (rs.map .on) (siteChange .raising .wake v), ?_, rfl, rfl, whole⟩, ?_, fun p high => ?_, ?_⟩
  · rw [eq, ← state]
    rfl
  · exact (congrArg SITE.state (congrArg State.site eq)).trans
      (congrArg SITE.state (obey_frame (uniform_on rs) (siteChange .raising .wake v).site) :)
  · rw [eq]
  · rw [eq]
    show ((LNK.considered _ _).queue.map (·.command)) = _
    rw [considered_queue, whole, show (siteChange .raising .wake v).lnk.queue = [] from queue, List.nil_append, List.map_map]
    exact List.map_id _
  · have flag := siteChange_flag .raising .wake high
    unfold State.port at flag ⊢
    rw [show y.pi = (siteChange .raising .wake v).pi from beginStage_pi ..]
    exact flag
  · rw [eq]
    rfl

end Sys2Proof.Machine
end

section
/-! The end of a chain without a record, and of one with a late break-in (R45, R48). -/

namespace Sys2Proof.Machine

open Sys2Proof

variable {before : LOG → LOG} {due : List Due} {s w : State}

/-! ### A chain without a record (R45) -/

theorem safeChange_resumeLost_log (v : State) : (safeChange .resumeLost true v).log =
    if v.out.reasons = {} then v.log.append (stamp v) .safeOn .none (.reason .resumeLost) else v.log := by
  by_cases empty : v.out.reasons = {}
  · rw [if_pos empty, safeChange_first empty]
    rfl
  · rw [if_neg empty]
    by_cases held : v.out.reasons.get .resumeLost = true
    · rw [safeChange_of_get held]
    · rw [safeChange_joins (Bool.eq_false_iff.2 held) empty]
      rfl

theorem notified_safeChange (r : SafeReason) (held : Bool) (v : State) : Notified v (safeChange r held v) := by
  have told (y : SafeSet) : Notified v (withReasons y v) := (notified_of_pi rfl).trans (notified_raise .safeChange _)
  by_cases same : v.out.reasons.get r = held
  · rw [safeChange_of_get same]
    exact notified_of_pi rfl
  · rw [safeChange_of_get_ne same]
    split
    · exact (told _).trans (notified_logEntry _ _ _ _)
    · split
      · exact (told _).trans (notified_logEntry _ _ _ _)
      · exact told _

theorem chainGoesOn_withoutRecord (ready : w.alc.readyHead = none) (chain : w.air.chain = .withoutContext)
    (frozen : w.dly.state = .frozen) (cued : w.cue.cued = none) :
    chainGoesOn w =
      let v := safeChange .resumeLost true (unchained (w.dly.kept.getD .bypass) w)
      let a := logEntry .resumeLost .none (.number w.air.stack.length) (raise .resumeLost v)
      a.withCue { a.cue with held := if w.air.stack = [] then false else w.cue.held } := by
  have ends : chainGoesOn w = endWithoutRecord (w.withAlc { w.alc with chainOpen := false }) := by
    rw [chainGoesOn_ends ready]
    unfold endChain
    rw [show (w.withAlc { w.alc with chainOpen := false }).air.chain = .withoutContext from chain]
  have v' : chainOver (unfreeze ((w.withAlc { w.alc with chainOpen := false }).dly.kept.getD .bypass)
      (w.withAlc { w.alc with chainOpen := false })) = unchained (w.dly.kept.getD .bypass) w := by
    rw [unfreeze_frozen (s := w.withAlc { w.alc with chainOpen := false }) frozen]
    rfl
  have alone := outAlone_safeChange .resumeLost true (unchained (w.dly.kept.getD .bypass) w)
  rw [ends]
  unfold endWithoutRecord
  rw [v']
  dsimp only
  generalize safeChange .resumeLost true (unchained (w.dly.kept.getD .bypass) w) = v at alone
  have air : v.air = (unchained (w.dly.kept.getD .bypass) w).air := alone.air
  have cue : v.cue = w.cue := alone.cue
  have stack : v.air.stack = w.air.stack := by rw [air]; rfl
  rw [stack]
  have released := considerRelease_eq (s := logEntry .resumeLost .none (.number w.air.stack.length) (raise .resumeLost v))
    (by show v.air.chain = .none; rw [air]; rfl) (by show v.cue.cued = none; rw [cue]; exact cued)
  rw [show (logEntry .resumeLost .none (.number w.air.stack.length) (raise .resumeLost v)).air.stack = w.air.stack from stack,
    show (logEntry .resumeLost .none (.number w.air.stack.length) (raise .resumeLost v)).cue.held = w.cue.held by
      show v.cue.held = _; rw [cue]] at released
  exact released

/-- The end of a chain without a record (R45). -/
theorem AirLeft.resumeLost {b : State} (h : AirLeft [] before due s w) (chain : s.air.chain = .withoutContext)
    (frozen : s.dly.state = .frozen) (list : s.cue.list = []) (notes : Notified s w) :
    let t := finish b (chainGoesOn w)
    t.alc.queue = [] ∧ t.alc.chainOpen = false ∧ t.alc.go = false ∧ t.air = { s.air with chain := .none, chainSource := none } ∧
    t.cue.held = (if s.air.stack = [] then false else s.cue.held) ∧ t.dly = s.dly.returned (s.dly.kept.getD .bypass) ∧
    t.audio = s.audio ∧ t.out = { s.out with alertFlag := false, reasons := { s.out.reasons with resumeLost := true } } ∧
    (∀ p, (s.port p).init = .high → (t.port p).flags.getLsbD 14 = true) ∧
    (let lost (log : LOG) : LOG := log.append (stamp s) .resumeLost .none (.number s.air.stack.length)
     (s.out.reasons = {} → t.log = lost ((before s.log).append (stamp s) .safeOn .none (.reason .resumeLost))) ∧
     (s.out.reasons ≠ {} → t.log = lost (before s.log))) ∧
    t.lsw = s.lsw ∧ t.lnk = s.lnk ∧ t.site = s.site ∧ t.tb = s.tb := by
  have cued : w.cue.cued = none := cued_of_none_waits (by
    rw [show w.cue.list = [] from (congrArg CUE.list h.cue).trans list]
    exact List.forall_mem_nil _)
  have goes := chainGoesOn_withoutRecord h.ready (by rw [h.air]; exact chain) (by rw [h.dly]; exact frozen) cued
  have alone := outAlone_safeChange .resumeLost true (unchained (w.dly.kept.getD .bypass) w)
  have out := safeChange_out .resumeLost true (unchained (w.dly.kept.getD .bypass) w)
  have log := safeChange_resumeLost_log (unchained (w.dly.kept.getD .bypass) w)
  have told : Notified s (safeChange .resumeLost true (unchained (w.dly.kept.getD .bypass) w)) :=
    notes.trans ((notified_raise .delayState w).trans (notified_safeChange _ _ _))
  generalize safeChange .resumeLost true (unchained (w.dly.kept.getD .bypass) w) = v at goes alone out log told
  have closed := closes_finish b (a := (logEntry .resumeLost .none (.number w.air.stack.length) (raise .resumeLost v)).withCue
    { v.cue with held := if w.air.stack = [] then false else w.cue.held }) fun st => by
      have st' : v.cue.started = true := st
      rw [alone.cue, show (unchained (w.dly.kept.getD .bypass) w).cue = w.cue from rfl, h.cue] at st'
      cases st'
  intro t
  rw [show t = finish b ((logEntry .resumeLost .none (.number w.air.stack.length) (raise .resumeLost v)).withCue
    { v.cue with held := if w.air.stack = [] then false else w.cue.held }) from congrArg (finish b) goes]
  clear goes
  generalize finish b _ = u at closed
  have stamps : stamp v = stamp s := by
    rw [← h.stamps]
    unfold stamp
    rw [alone.tb]
    rfl
  have same {α : Type} (F : State → α) (blind : ∀ u : State, F { u with
      alc := s.alc, air := s.air, cue := s.cue, dly := s.dly, out := s.out, due := s.due, log := s.log, pi := s.pi } = F u) :
      F v = F s := by
    rw [← blind v, ← blind s]
    refine congrArg F ?_
    exact (congrArg (fun u : State => { u with
      alc := s.alc, air := s.air, cue := s.cue, dly := s.dly, out := s.out, due := s.due, log := s.log, pi := s.pi }) alone :).trans
      (congrArg (fun u : State => { u with air := s.air, dly := s.dly, out := s.out }) h.frame :)
  have alc : v.alc = { w.alc with chainOpen := false } := alone.alc
  refine ⟨?_, ?_, ?_, closed.air.trans ?_, closed.held.trans ?_, ?_, ?_, ?_, fun p high => ?_, ?_, closed.lsw.trans (same State.lsw fun _ => rfl),
    (congrArg State.lnk closed.frame :).trans (same State.lnk fun _ => rfl), (congrArg State.site closed.frame :).trans (same State.site fun _ => rfl),
    (congrArg State.tb closed.frame :).trans (same State.tb fun _ => rfl)⟩
  · rw [show u.alc = v.alc from (congrArg State.alc closed.frame :), alc]
    exact h.queue
  · rw [show u.alc = v.alc from (congrArg State.alc closed.frame :), alc]
  · rw [show u.alc = v.alc from (congrArg State.alc closed.frame :), alc]
    exact h.go
  · rw [← h.air]
    exact alone.air
  · show (if w.air.stack = [] then false else w.cue.held) = _
    rw [h.air, h.cue]
    rfl
  · rw [← h.dly]
    exact (congrArg State.dly closed.frame :).trans alone.dly
  · exact (congrArg State.audio closed.frame :).trans (same State.audio fun _ => rfl)
  · rw [← h.out]
    exact (congrArg State.out closed.frame :).trans out
  · exact closed.raised (s := s) (k := .resumeLost) (v := v) told ((notified_logEntry .resumeLost .none
      (.number w.air.stack.length) (raise .resumeLost v)).trans (notified_of_pi rfl)) high
  · have logged : u.log = v.log.append (stamp s) .resumeLost .none (.number s.air.stack.length) := by
      refine closed.log.trans ?_
      show v.log.append (stamp v) _ _ _ = _
      rw [stamps, h.air]
    have reasons : (unchained (w.dly.kept.getD .bypass) w).out.reasons = s.out.reasons := by
      rw [← h.out]
      rfl
    rw [reasons, show stamp (unchained (w.dly.kept.getD .bypass) w) = stamp s from h.stamps,
      show (unchained (w.dly.kept.getD .bypass) w).log = before s.log from h.log] at log
    refine ⟨fun empty => ?_, fun some_ => ?_⟩
    · rw [logged, log, if_pos empty]
    · rw [logged, log, if_neg some_]

/-! ### A chain whose record holds a late break-in (R48) -/

/-- A chain whose record `r` holds a late break-in, the one entry of the list, in an event that has come to its alert's end. -/
structure LateChain (r : ContextRecord) (rest : List ContextRecord) (j : CueEntry) (f : Feed) (len at_ : Nat) (s : State) : Prop where
  chain : s.air.chain = .withContext
  stack : s.air.stack = r :: rest
  alert : r.kind = .alert
  distinct : ∀ x ∈ rest, x.number ≠ r.number
  late : r.late = some (j.serial, at_)
  suspended : r.suspended = none
  parked : r.parked = []
  list : s.cue.list = [j]
  state : j.state = .cuedLate
  kind : j.kind = .join f len
  frozen : s.dly.state = .frozen

variable {r : ContextRecord} {rest : List ContextRecord} {j : CueEntry} {f : Feed} {len at_ : Nat}

theorem LateChain.goes (l : LateChain r rest j f len at_ s) (h : AirLeft [] before due s w) : chainGoesOn w =
    handOverRecord r j.serial at_ (w.withAlc { w.alc with chainOpen := false }) := by
  rw [chainGoesOn_ends h.ready]
  unfold endChain
  rw [show (w.withAlc { w.alc with chainOpen := false }).air.chain = .withContext by rw [← l.chain, ← h.air]; rfl,
    show (w.withAlc { w.alc with chainOpen := false }).air.stack = r :: rest by rw [← l.stack, ← h.air]; rfl]
  dsimp only
  rw [l.late]

theorem LateChain.unchained_eq (l : LateChain r rest j f len at_ s) (h : AirLeft [] before due s w) :
    Machine.chainOver (unfreeze (r.delayBefore.getD .bypass) (w.withAlc { w.alc with chainOpen := false })) =
      unchained (r.delayBefore.getD .bypass) w := by
  rw [unfreeze_frozen (s := w.withAlc { w.alc with chainOpen := false }) (h.dly.symm ▸ l.frozen)]
  rfl

theorem LateChain.found (l : LateChain r rest j f len at_ s) (h : AirLeft [] before due s w) :
    w.cue.find j.serial = some j :=
  find_singleton (x := w.cue) ((congrArg CUE.list h.cue).trans l.list)

/-- The JOIN starts where the network then is, its record a BREAK-IN's (R48). -/
theorem LateChain.handsOver (l : LateChain r rest j f len at_ s) (h : AirLeft [] before due s w)
    (inside : blocksFrom at_ s.tb.clock < len) : chainGoesOn w =
      logEntry .joinStart (.cue j.serial) (.number (len - blocksFrom at_ s.tb.clock)) (raise .entryStarted
        (((unchained (r.delayBefore.getD .bypass) w).withAir { s.air with chain := .none, chainSource := none
                                                                          stack := { r with kind := .breakIn, delayBefore := none
                                                                                            late := none } :: rest }).withCue
          (w.cue.play j (blocksFrom at_ s.tb.clock) (some ((at_ + len) % 17280000)) s.boundaryNo))) := by
  have clock : (unchained (r.delayBefore.getD .bypass) w).tb.clock = s.tb.clock := congrArg TB.clock h.tb
  have changed : (r :: rest).map (fun x => if x.number = r.number then
      { x with kind := .breakIn, delayBefore := none, late := none } else x) =
      ({ r with kind := .breakIn, delayBefore := none, late := none } : ContextRecord) :: rest := by
    rw [List.map_cons, if_pos rfl]
    exact congrArg (_ :: ·) ((List.map_congr_left fun x mem => if_neg (l.distinct x mem)).trans (List.map_id _))
  have found := l.found h
  rw [l.goes h]
  unfold handOverRecord
  rw [l.unchained_eq h, show (w.withAlc { w.alc with chainOpen := false }).cue.find j.serial = some j from found]
  dsimp only
  rw [clock, length_join l.kind]
  refine (if_pos inside).trans ?_
  have air : (unchained (r.delayBefore.getD .bypass) w).air = { s.air with chain := .none, chainSource := none } := by
    rw [← h.air]
    rfl
  have no : w.boundaryNo = s.boundaryNo := (congrArg State.boundaryNo h.frame :)
  rw [air]
  dsimp only
  rw [l.stack, changed]
  have list : w.cue.list = [j] := (congrArg CUE.list h.cue).trans l.list
  have starts := setPlaying_eq (n := j.serial) (e := j) (s := (unchained (r.delayBefore.getD .bypass) w).withAir { s.air with
    chain := .none, chainSource := none, stack := { r with kind := .breakIn, delayBefore := none, late := none } :: rest })
    (blocksFrom at_ s.tb.clock) (some ((at_ + len) % 17280000)) found
  refine congrArg (logEntry .joinStart (.cue j.serial) (.number (len - blocksFrom at_ s.tb.clock)))
    ((congrArg recue starts).trans ((recue_still fun y mem => ?_).trans ?_))
  · have mem' : y ∈ (w.cue.play j (blocksFrom at_ s.tb.clock) (some ((at_ + len) % 17280000)) w.boundaryNo).list := mem
    rw [play_singleton list, List.mem_singleton] at mem'
    rw [mem']
    rfl
  · rw [← no]
    rfl

/-- AIR's stack once no record holds the late break-in any more (R47). -/
def clearedStack (serial : Nat) (stack : List ContextRecord) : List ContextRecord :=
  stack.map fun x => if (x.late.map fun p => p.1) = some serial then { x with late := none } else x

theorem clearedStack_numbers {serial : Nat} {stack : List ContextRecord} (distinct : ∀ x ∈ stack, x.number ≠ r.number) :
    ∀ x ∈ clearedStack serial stack, x.number ≠ r.number := fun x mem => by
  obtain ⟨y, inside, rfl⟩ := List.mem_map.1 mem
  split <;> exact distinct y inside

/-- The JOIN is over before the network can be taken: it is missed and the record given back (R48). -/
theorem LateChain.misses (l : LateChain r rest j f len at_ s) (h : AirLeft [] before due s w)
    (outside : len ≤ blocksFrom at_ s.tb.clock) : chainGoesOn w =
      let v := raise .hardTime (logEntry .itemMissed (.cue j.serial) (.missed .tooLate)
        (((unchained (r.delayBefore.getD .bypass) w).withCue (w.cue.without j)).withAir { s.air with
          chain := .none, chainSource := none, stack := { r with late := none } :: clearedStack j.serial rest }))
      { v with air := { v.air with stack := clearedStack j.serial rest, free := r.number :: s.air.free }
               cue := { v.cue with held := if clearedStack j.serial rest = [] then false else v.cue.held } } := by
  have clock : (unchained (r.delayBefore.getD .bypass) w).tb.clock = s.tb.clock := congrArg TB.clock h.tb
  have list : w.cue.list = [j] := (congrArg CUE.list h.cue).trans l.list
  have empty : (w.cue.without j).list = [] := without_singleton list
  have found := l.found h
  have air : (unchained (r.delayBefore.getD .bypass) w).air = { s.air with chain := .none, chainSource := none } := by
    rw [← h.air]
    rfl
  have cleared_ : (r :: rest).map (fun x => if (x.late.map fun p => p.1) = some j.serial then { x with late := none } else x) =
      ({ r with late := none } : ContextRecord) :: clearedStack j.serial rest := by
    rw [List.map_cons, if_pos (by rw [l.late]; rfl)]
    rfl
  have missed : recue (leaveMissed .tooLate j (unchained (r.delayBefore.getD .bypass) w)) =
      logEntry .itemMissed (.cue j.serial) (.missed .tooLate)
        (((unchained (r.delayBefore.getD .bypass) w).withCue (w.cue.without j)).withAir { s.air with
          chain := .none, chainSource := none, stack := { r with late := none } :: clearedStack j.serial rest }) := by
    have left : leaveMissed .tooLate j (unchained (r.delayBefore.getD .bypass) w) =
        logEntry .itemMissed (.cue j.serial) (.missed .tooLate)
          (((unchained (r.delayBefore.getD .bypass) w).withCue (w.cue.without j)).withAir { s.air with
            chain := .none, chainSource := none, stack := { r with late := none } :: clearedStack j.serial rest }) := by
      unfold leaveMissed
      rw [leave_cuedLate l.state]
      unfold clearLate
      rw [show ((unchained (r.delayBefore.getD .bypass) w).withCue
        ((unchained (r.delayBefore.getD .bypass) w).cue.without j)).air = _ from air]
      dsimp only
      rw [l.stack, cleared_]
      rfl
    rw [left]
    refine recue_still fun y mem => ?_
    have mem' : y ∈ (w.cue.without j).list := mem
    rw [empty] at mem'
    cases mem'
  rw [l.goes h]
  unfold handOverRecord
  rw [l.unchained_eq h, show (w.withAlc { w.alc with chainOpen := false }).cue.find j.serial = some j from found]
  dsimp only
  rw [clock, length_join l.kind]
  refine (if_neg (Nat.not_lt.2 outside)).trans ?_
  rw [missed]
  generalize hv : raise .hardTime (logEntry .itemMissed (.cue j.serial) (.missed .tooLate)
    (((unchained (r.delayBefore.getD .bypass) w).withCue (w.cue.without j)).withAir { s.air with
      chain := .none, chainSource := none, stack := { r with late := none } :: clearedStack j.serial rest })) = v
  have vair : v.air = { s.air with
      chain := .none, chainSource := none, stack := { r with late := none } :: clearedStack j.serial rest } := by rw [← hv]; rfl
  have vlist : v.cue.list = [] := by rw [← hv]; exact empty
  have pops := popRecord_bare (r := { r with late := none }) (rest := clearedStack j.serial rest) (v := v) j.serial
    (congrArg AIR.stack vair) (clearedStack_numbers l.distinct) (congrArg AIR.chain vair) l.suspended l.parked
    (cued_of_none_waits (by rw [vlist]; exact List.forall_mem_nil _))
  rw [show v.air.free = s.air.free by rw [vair]] at pops
  have ends (x : State) : logPreemptionEnd r.kind j.serial x = x := by
    rw [l.alert]
    rfl
  exact pops.trans (ends _)

/-- What the end of such a chain leaves of the other blocks (R37, R123, R147, R153). -/
def LateBack (r : ContextRecord) (s t : State) : Prop :=
  t.air.chain = .none ∧ t.out = { s.out with alertFlag := false } ∧ t.alc.queue = [] ∧ t.alc.chainOpen = false ∧
  t.dly = s.dly.returned (r.delayBefore.getD .bypass) ∧ t.audio = s.audio ∧ t.lsw = s.lsw ∧ t.site = s.site ∧ t.tb = s.tb

theorem AirLeft.lateBack {u : State} (h : AirLeft [] before due s w) (chain : u.air.chain = .none)
    (frame : { u with air := w.air, cue := w.cue, due := w.due, log := w.log, pi := w.pi } =
      { unchained (r.delayBefore.getD .bypass) w with air := w.air, cue := w.cue, due := w.due, log := w.log, pi := w.pi }) :
    LateBack r s u := by
  have alc : u.alc = { w.alc with chainOpen := false } := (congrArg State.alc frame :)
  have audio : w.audio = s.audio := (congrArg State.audio h.frame :)
  have site : w.site = s.site := (congrArg State.site h.frame :)
  refine ⟨chain, ?_, by rw [alc]; exact h.queue, by rw [alc], ?_, (congrArg State.audio frame :).trans audio,
    (congrArg State.lsw frame :).trans h.lsw, (congrArg State.site frame :).trans site, (congrArg State.tb frame :).trans h.tb⟩
  · rw [← h.out]
    exact (congrArg State.out frame :)
  · rw [← h.dly]
    exact (congrArg State.dly frame :)

theorem LateChain.starts {b : State} (l : LateChain r rest j f len at_ s) (h : AirLeft [] before due s w)
    (inside : blocksFrom at_ s.tb.clock < len) :
    let t := finish b (chainGoesOn w)
    LateBack r s t ∧ t.air.stack = { r with kind := .breakIn, delayBefore := none, late := none } :: rest ∧
    t.air.free = s.air.free ∧
    t.cue.list = [{ j with state := .playing, elapsed := blocksFrom at_ s.tb.clock
                           joinEnd := some ((at_ + len) % 17280000), begun := s.boundaryNo }] ∧
    t.cue.held = s.cue.held ∧
    t.log = (before s.log).append (stamp s) .joinStart (.cue j.serial) (.number (len - blocksFrom at_ s.tb.clock)) := by
  have list : w.cue.list = [j] := (congrArg CUE.list h.cue).trans l.list
  have frame : { logEntry .joinStart (.cue j.serial) (.number (len - blocksFrom at_ s.tb.clock)) (raise .entryStarted
      (((unchained (r.delayBefore.getD .bypass) w).withAir { s.air with
        chain := .none, chainSource := none, stack := { r with kind := .breakIn, delayBefore := none, late := none } :: rest }).withCue
          (w.cue.play j (blocksFrom at_ s.tb.clock) (some ((at_ + len) % 17280000)) s.boundaryNo))) with
      air := w.air, cue := w.cue, due := w.due, log := w.log, pi := w.pi } =
      { unchained (r.delayBefore.getD .bypass) w with air := w.air, cue := w.cue, due := w.due, log := w.log, pi := w.pi } := rfl
  have closed := closes_finish b (a := logEntry .joinStart (.cue j.serial) (.number (len - blocksFrom at_ s.tb.clock))
    (raise .entryStarted (((unchained (r.delayBefore.getD .bypass) w).withAir { s.air with
      chain := .none, chainSource := none, stack := { r with kind := .breakIn, delayBefore := none, late := none } :: rest }).withCue
        (w.cue.play j (blocksFrom at_ s.tb.clock) (some ((at_ + len) % 17280000)) s.boundaryNo)))) fun _ => h.ready
  intro t
  rw [show t = _ from congrArg (finish b) (l.handsOver h inside)]
  generalize finish b _ = u at closed
  refine ⟨h.lateBack (congrArg AIR.chain closed.air) ?_, (congrArg AIR.stack closed.air :), (congrArg AIR.free closed.air :),
    closed.list.trans (play_singleton list ..), closed.held.trans ?_, closed.log.trans ?_⟩
  · exact (congrArg (fun v : State => { v with
      air := w.air, cue := w.cue, due := w.due, log := w.log, pi := w.pi }) closed.frame :).trans frame
  · exact (congrArg CUE.held (play_frame w.cue j _ _ _) :).trans (congrArg CUE.held h.cue :)
  · show w.log.append (stamp w) _ _ _ = _
    rw [h.stamps, h.log]

theorem LateChain.over_ {b : State} (l : LateChain r rest j f len at_ s) (h : AirLeft [] before due s w) (notes : Notified s w)
    (outside : len ≤ blocksFrom at_ s.tb.clock) :
    let t := finish b (chainGoesOn w)
    LateBack r s t ∧ t.air.free = r.number :: s.air.free ∧ t.air.stack.length = rest.length ∧ t.cue.list = [] ∧
    (∀ p, (s.port p).init = .high → (t.port p).flags.getLsbD 3 = true) ∧
    t.log = (before s.log).append (stamp s) .itemMissed (.cue j.serial) (.missed .tooLate) := by
  have empty : (w.cue.without j).list = [] := without_singleton ((congrArg CUE.list h.cue).trans l.list)
  have goes := l.misses h outside
  have told : Notified s (logEntry .itemMissed (.cue j.serial) (.missed .tooLate)
      (((unchained (r.delayBefore.getD .bypass) w).withCue (w.cue.without j)).withAir { s.air with
        chain := .none, chainSource := none, stack := { r with late := none } :: clearedStack j.serial rest })) :=
    (notes.trans ((notified_raise .delayState w).trans (notified_of_pi rfl))).trans (notified_logEntry .itemMissed
      (.cue j.serial) (.missed .tooLate) (((unchained (r.delayBefore.getD .bypass) w).withCue (w.cue.without j)).withAir _))
  have log : (logEntry .itemMissed (.cue j.serial) (.missed .tooLate)
      (((unchained (r.delayBefore.getD .bypass) w).withCue (w.cue.without j)).withAir { s.air with
        chain := .none, chainSource := none, stack := { r with late := none } :: clearedStack j.serial rest })).log =
      (before s.log).append (stamp s) .itemMissed (.cue j.serial) (.missed .tooLate) := by
    show w.log.append (stamp w) _ _ _ = _
    rw [h.stamps, h.log]
  have frame : { logEntry .itemMissed (.cue j.serial) (.missed .tooLate)
      (((unchained (r.delayBefore.getD .bypass) w).withCue (w.cue.without j)).withAir { s.air with
        chain := .none, chainSource := none, stack := { r with late := none } :: clearedStack j.serial rest }) with
      air := w.air, cue := w.cue, due := w.due, log := w.log, pi := w.pi } =
      { unchained (r.delayBefore.getD .bypass) w with air := w.air, cue := w.cue, due := w.due, log := w.log, pi := w.pi } := rfl
  have air : (logEntry .itemMissed (.cue j.serial) (.missed .tooLate)
      (((unchained (r.delayBefore.getD .bypass) w).withCue (w.cue.without j)).withAir { s.air with
        chain := .none, chainSource := none, stack := { r with late := none } :: clearedStack j.serial rest })).air.chain = .none := rfl
  have cue : (logEntry .itemMissed (.cue j.serial) (.missed .tooLate)
      (((unchained (r.delayBefore.getD .bypass) w).withCue (w.cue.without j)).withAir { s.air with
        chain := .none, chainSource := none, stack := { r with late := none } :: clearedStack j.serial rest })).cue =
      w.cue.without j := rfl
  generalize logEntry .itemMissed (.cue j.serial) (.missed .tooLate)
      (((unchained (r.delayBefore.getD .bypass) w).withCue (w.cue.without j)).withAir { s.air with
        chain := .none, chainSource := none, stack := { r with late := none } :: clearedStack j.serial rest }) = v
    at goes told log frame air cue
  have closed := closes_finish b (a := { raise .hardTime v with
    air := { v.air with stack := clearedStack j.serial rest, free := r.number :: s.air.free }
    cue := { v.cue with held := if clearedStack j.serial rest = [] then false else v.cue.held } }) fun st => by
      have st' : v.cue.started = true := st
      rw [cue, show (w.cue.without j).started = w.cue.started from rfl, h.cue] at st'
      cases st'
  intro t
  rw [show t = finish b { raise .hardTime v with
    air := { v.air with stack := clearedStack j.serial rest, free := r.number :: s.air.free }
    cue := { v.cue with held := if clearedStack j.serial rest = [] then false else v.cue.held } } from congrArg (finish b) goes]
  clear goes
  generalize finish b _ = u at closed
  refine ⟨h.lateBack ((congrArg AIR.chain closed.air).trans air) ?_, (congrArg AIR.free closed.air :), ?_, closed.list.trans ?_,
    fun p high => ?_, closed.log.trans log⟩
  · exact (congrArg (fun v : State => { v with
      air := w.air, cue := w.cue, due := w.due, log := w.log, pi := w.pi }) closed.frame :).trans frame
  · rw [show u.air.stack = clearedStack j.serial rest from congrArg AIR.stack closed.air, clearedStack, List.length_map]
  · exact (congrArg CUE.list cue).trans empty
  · exact closed.raised (s := s) (k := .hardTime) (v := v) told (notified_of_pi rfl) high

end Sys2Proof.Machine
end

section
/-! ALERT END (R146, R147). -/

namespace Sys2Proof.Machine

open Sys2Proof

variable {before : LOG → LOG} {due : List Due} {s w : State}

/-- The site's part in a chain that goes on with a wake asked for, by its state (R185). -/
theorem AirLeft.wakes {b : State} {f : AlertEntry} (h : AirLeft [f] before due s w) (ready : f.state = .ready)
    (wake : s.alc.wake = true) (pins : ∀ p, (s.port p).init = .high → (w.port p).init = .high) :
    let t := finish b (chainGoesOn w)
    let airs (log : LOG) : Prop := t.out = { s.out with alertId := some f.header.pair } ∧
      t.log = log.append (stamp s) .alertOnAir (.alert f.header.pair) (.onAir f.header.priority f.interruptions)
    (s.site.state = .full ∨ s.site.state = .starting ∨ s.site.state = .raising →
      airs (before s.log) ∧ t.site = s.site ∧ t.lnk = s.lnk) ∧
    (s.site.state = .lowering → airs (before s.log) ∧ t.site = { s.site with pendingWake := true } ∧ t.lnk = s.lnk) ∧
    (s.site.state = .unknown ∨ s.site.state = .off ∨ s.site.state = .stopping ∨ s.site.state = .fault →
      airs ((before s.log).append (stamp s) .scheduleNotTaken .none (.schedule .wake s.site.state)) ∧ t.site = s.site) ∧
    (s.site.state = .low → s.lnk.queue = [] →
      let commands := (s.site.those fun r => decide (r.slot = some 0) && !decide (r.reported = .on)).map SiteCommand.on
      commands ≠ [] →
      airs ((before s.log).append (stamp s) .siteState .none (.site .low .raising .wake)) ∧ t.site.state = .raising ∧
        (∃ st, t.site.stage = some st ∧ st.kind = .upSlot ∧ st.slot = some 0 ∧ st.awaiting = commands) ∧
        t.lnk.queue.map (·.command) = commands ∧
        ∀ p, (s.port p).init = .high → (t.port p).flags.getLsbD 12 = true) := by
  have site : (airingState f w).site = s.site := (congrArg State.site h.frame :)
  have lnk : (airingState f w).lnk = s.lnk := (congrArg State.lnk h.frame :)
  have log : (airingState f w).log = before s.log := h.log
  have stamps : stamp (airingState f w) = stamp s := h.stamps
  intro t airs
  refine ⟨fun state => ?_, fun state => ?_, fun state => ?_, ?_⟩
  · obtain ⟨out, logged, site', lnk', -⟩ := h.airsWaking (b := b) ready wake (wakeSite_up (by rw [site]; exact state)) rfl
    exact ⟨⟨out, logged.trans (by rw [log])⟩, site'.trans site, lnk'.trans lnk⟩
  · obtain ⟨out, logged, site', lnk', -⟩ := h.airsWaking (b := b) ready wake (wakeSite_lowering (by rw [site]; exact state)) rfl
    refine ⟨⟨out, logged.trans (congrArg (fun x : LOG => x.append _ _ _ _) log)⟩, site'.trans ?_, lnk'.trans lnk⟩
    rw [← site]
    rfl
  · obtain ⟨out, logged, site', -, -⟩ := h.airsWaking (b := b) ready wake (wakeSite_notTaken (by rw [site]; exact state)) rfl
    refine ⟨⟨out, logged.trans (congrArg (fun x : LOG => x.append _ _ _ _) ?_)⟩, site'.trans site⟩
    show (airingState f w).log.append (stamp (airingState f w)) _ _ (.schedule .wake (airingState f w).site.state) = _
    rw [log, stamps, site]
  · intro state queue commands any
    obtain ⟨log', raising, stage, queue', flags, frame⟩ := wakeSite_low (v := airingState f w) (by rw [site]; exact state)
      (by rw [lnk]; exact queue) (by rw [site]; exact any)
    obtain ⟨out, logged, site', lnk', notes⟩ := h.airsWaking (b := b) ready wake (y := wakeSite (airingState f w)) rfl
      (congrArg (fun v : State => { v with site := w.site, lnk := w.lnk, log := w.log, pi := w.pi }) frame :)
    refine ⟨⟨out, logged.trans (congrArg (fun x : LOG => x.append _ _ _ _) ?_)⟩, (congrArg SITE.state site').trans raising, ?_, ?_,
      fun p high => ?_⟩
    · rw [log', log, stamps]
    · obtain ⟨st, is, kind, slot, awaiting⟩ := stage
      rw [site] at awaiting
      exact ⟨st, (congrArg SITE.stage site').trans is, kind, slot, awaiting⟩
    · rw [show t.lnk = _ from lnk', queue', site]
    · exact (notes p).2 _ (flags p (pins p high))

/-! ### The row -/

variable {o n : Half} {e : AlertEntry}

theorem exec_alertEnd_refused {r : Result} (a : Arrives (.alertEnd .c o n) .c s)
    (act : alertEnd o n (clearMarks s) = refuse r (clearMarks s)) :
    exec (.alertEnd .c o n) s = .next (replyTo .c 67 ⟨r, []⟩ (clearMarks s)) :=
  exec_answers rfl rfl (by simp [halfBytes]) nofun (by simp) a (eventReply_refused act)

/-- The event of an ALERT END that is taken. -/
def alertEndEvent (e : AlertEntry) (s : State) : State := endAiring e .alertEnded (.alertEnd .ended) (clearMarks s)

theorem exec_alertEnd_taken (a : Arrives (.alertEnd .c o n) .c s) (onAir : s.alc.onAir = some e) (pair : e.header.pair = ⟨o, n⟩) :
    exec (.alertEnd .c o n) s = .next (replyTo .c 67 ⟨.ok, []⟩ (finish s (chainGoesOn (alertEndEvent e s)))) := by
  refine exec_answers rfl rfl (by simp [halfBytes]) nofun (by simp) a (eventReply_taken ?_)
  unfold alertEnd
  rw [show (clearMarks s).alc.onAir = some e from onAir]
  exact if_pos pair

theorem alertEnd_left {queue others : List AlertEntry} (is : s.alc.queue = queue)
    (left : queue.filter (fun x => !decide (x.header.pair = e.header.pair)) = others) (pair : e.header.pair = ⟨o, n⟩) :
    AirLeft others (fun log => log.append (stamp s) .alertEnded (.alert ⟨o, n⟩) (.alertEnd .ended)) s.due s (alertEndEvent e s) := by
  rw [← pair]
  exact airLeft_of_endAiring (v := clearMarks s) .alertEnded (.alertEnd .ended) (by rw [← is]; rfl) left rfl rfl rfl rfl

theorem alertEnd_notified : Notified s (alertEndEvent e s) :=
  ((notified_of_pi rfl).trans (notified_logEntry .alertEnded (.alert e.header.pair) (.alertEnd .ended) _)).trans
    (notified_raise .alertState _)

end Sys2Proof.Machine
end

section
/-! CANCEL ALERT and FORWARD ALERT (R139, R140, R142). -/

namespace Sys2Proof.Machine

open Sys2Proof

variable {s v : State} {o n : Half} {e : AlertEntry}

/-! ### CANCEL ALERT -/

theorem find_pair {x : ALC} (h : x.find ⟨o, n⟩ = some e) : e.header.pair = ⟨o, n⟩ := by
  simpa using List.find?_some h

/-- With the chain open, or with no READY head that may air, ALC does not take the air (R142). -/
theorem considerAir_still (h : v.alc.chainOpen = true ∨ ∀ x, v.alc.readyHead = some x → mayAir x v = false) : considerAir v = v := by
  unfold considerAir
  rcases h with busy | none_
  · rw [busy]
    exact if_neg fun both => absurd both.2 nofun
  · cases ready : v.alc.readyHead with
    | none => exact ite_self _
    | some x =>
      dsimp only
      rw [none_ x ready]
      exact ite_self _

theorem exec_cancelAlert_refused {r : Result} (a : Arrives (.cancelAlert .b o n) .b s)
    (act : cancelAlert o n (clearMarks s) = refuse r (clearMarks s)) :
    exec (.cancelAlert .b o n) s = .next (replyTo .b 72 ⟨r, []⟩ (clearMarks s)) :=
  exec_answers rfl rfl (by simp [halfBytes]) nofun (by simp) a (eventReply_refused act)

theorem exec_cancelAlert_taken {t : State} (a : Arrives (.cancelAlert .b o n) .b s)
    (act : cancelAlert o n (clearMarks s) = (t, ⟨.ok, []⟩)) :
    exec (.cancelAlert .b o n) s = .next (replyTo .b 72 ⟨.ok, []⟩ (finish s t)) :=
  exec_answers rfl rfl (by simp [halfBytes]) nofun (by simp) a (eventReply_taken act)

/-- An entry that waits leaves the queue. -/
def cancelled (e : AlertEntry) (v : State) : State :=
  raise .alertState (logEntry .alertCancelled (.alert e.header.pair) (.alertState e.state) (v.withAlc { v.alc with
    queue := v.alc.queue.filter fun x => !decide (x.header.pair = e.header.pair) }))

theorem cancelAlert_waits (find_ : v.alc.find ⟨o, n⟩ = some e) (waits : e.state ≠ .onAir) :
    cancelAlert o n v = (considerAir (cancelled e v), ⟨.ok, []⟩) := by
  unfold cancelAlert
  rw [find_]
  exact if_neg waits

theorem cancelAlert_onAir (find_ : v.alc.find ⟨o, n⟩ = some e) (onAir : e.state = .onAir) (other : e.header.priority ≠ 3) :
    cancelAlert o n v = (chainGoesOn (endAiring e .alertCancelled (.alertState .onAir) v), ⟨.ok, []⟩) := by
  unfold cancelAlert
  rw [find_]
  exact (if_pos onAir).trans (if_neg other)

/-- An entry that waits is cancelled in its place (R140). -/
theorem cancelAlert_alone (a : Arrives (.cancelAlert .b o n) .b s) (find_ : s.alc.find ⟨o, n⟩ = some e) (waits : e.state ≠ .onAir)
    (still : s.alc.chainOpen = true ∨ (∀ x ∈ s.alc.queue, x.header.pair ≠ ⟨o, n⟩ → x.state = .ready →
      s.air.mode ≠ .live ∧ x.header.priority = 1 ∧ x.advisory ≠ 0)) : exec (.cancelAlert .b o n) s =
      .next (replyTo .b 72 ⟨.ok, []⟩ (clearMarks (raise .alertState
        (logEntry .alertCancelled (.alert ⟨o, n⟩) (.alertState e.state) { s with alc := { s.alc with
          queue := s.alc.queue.filter fun x => !decide (x.header.pair = ⟨o, n⟩) } })))) := by
  have pair := find_pair find_
  have kept : considerAir (cancelled e (clearMarks s)) = cancelled e (clearMarks s) := by
    refine considerAir_still (still.imp id fun none_ x ready => ?_)
    have mem : x ∈ s.alc.queue.filter (fun y => !decide (y.header.pair = e.header.pair)) := List.mem_of_find?_eq_some ready
    have state : x.state = .ready := by simpa using List.find?_some ready
    rw [List.mem_filter, pair] at mem
    obtain ⟨mode, one, wait⟩ := none_ x mem.1 (by simpa using mem.2) state
    unfold mayAir
    rw [one, decide_eq_false wait, decide_eq_false (p := (cancelled e (clearMarks s)).air.mode = .live) mode]
    rfl
  have run := exec_cancelAlert_taken a ((cancelAlert_waits (v := clearMarks s) find_ waits).trans (congrArg (·, _) kept))
  rw [run, ← pair]
  exact congrArg (fun t => Host.Outcome.next (replyTo .b 72 ⟨.ok, []⟩ t)) (finish_marks rfl rfl rfl)

/-- The READY head airs once the entry before it has been cancelled (R140, R142, R143). -/
theorem cancelAlert_airs {f : AlertEntry} (a : Arrives (.cancelAlert .b o n) .b s) (find_ : s.alc.find ⟨o, n⟩ = some e)
    (queue : s.alc.queue = [e, f]) (waits : e.state ≠ .onAir) (ready : f.state = .ready) (other : f.header.pair ≠ ⟨o, n⟩)
    (may : s.air.mode = .live ∨ 2 ≤ f.header.priority ∨ f.advisory = 0) (closed : s.alc.chainOpen = false)
    (room : s.air.stack.length < s.air.maxDepth) (wake : s.alc.wake = false) :
    ∃ t, exec (.cancelAlert .b o n) s = .next (replyTo .b 72 ⟨.ok, []⟩ t) ∧
      ChainBegun f (s.log.append (stamp s) .alertCancelled (.alert ⟨o, n⟩) (.alertState e.state)) s.due s t := by
  have pair := find_pair find_
  have left : (cancelled e (clearMarks s)).alc.queue = [f] := by
    show s.alc.queue.filter _ = _
    rw [queue]
    exact filter_pair (by rw [pair]; exact other)
  have quiet : (cancelled e (clearMarks s)).alc.onAir = none := onAir_none fun x mem => by
    rw [left, List.mem_singleton] at mem
    rw [mem, ready]
    nofun
  have allowed : mayAir f (cancelled e (clearMarks s)) = true := by
    unfold mayAir
    rcases may with live | high | over_
    · rw [decide_eq_true (p := (cancelled e (clearMarks s)).air.mode = .live) live]
      simp
    · rw [decide_eq_true high]
      simp
    · rw [decide_eq_true over_]
      simp
  have begins := considerAir_begins quiet closed (readyHead_alone left ready) allowed
  refine ⟨_, exec_cancelAlert_taken a ((cancelAlert_waits (v := clearMarks s) find_ waits).trans (congrArg (·, _) begins)), ?_⟩
  have notes : Notified s (cancelled e (clearMarks s)) := ((notified_of_pi rfl).trans (notified_logEntry .alertCancelled
    (.alert e.header.pair) (.alertState e.state) _)).trans (notified_raise .alertState _)
  have begun := chainBegun (b := s) (s := cancelled e (clearMarks s)) left rfl rfl room wake rfl rfl rfl
  rw [← pair]
  exact ChainBegun.of_frame begun rfl rfl fun p high => (notes p).1.trans high

/-! ### FORWARD ALERT -/

variable {named : Option (Half × Half)}

theorem forwardAlert_request (p : PortId) (named : Option (Half × Half)) : (Instr.forwardAlert p named).request =
    some ⟨p, 71, (named.map fun x => halfBytes x.1 ++ halfBytes x.2).getD []⟩ := by
  cases named <;> rfl

theorem forwardAlert_fits (named : Option (Half × Half)) :
    ((named.map fun x => halfBytes x.1 ++ halfBytes x.2).getD []).length ≤ 62 := by
  cases named <;> simp [halfBytes]

theorem exec_forwardAlert {t : State} {x : Reply} (a : Arrives (.forwardAlert .b named) .b s)
    (act : eventReply (forwardAlert named) s = (t, x)) : exec (.forwardAlert .b named) s = .next (replyTo .b 71 x t) :=
  exec_answers (forwardAlert_request .b named) rfl (forwardAlert_fits named) nofun (by simp) a act

/-- The entry that FORWARD ALERT names, or the PENDING head, is sent on (R139). -/
theorem forwardAlert_forwards (given : ∀ p q, named = some (p, q) → v.alc.find ⟨p, q⟩ = some e ∧ e.state = .pending)
    (head : named = none → v.alc.pendingHead = some e) :
    forwardAlert named v = (forwardEntry e .request v, ⟨.ok, e.header.pair.bytes⟩) := by
  unfold forwardAlert
  cases named with
  | none =>
    dsimp only
    rw [head rfl]
  | some x =>
    obtain ⟨find_, pending⟩ := given x.1 x.2 rfl
    dsimp only
    rw [find_]
    exact if_pos pending

end Sys2Proof.Machine
end

section
/-! ALERT END, CANCEL ALERT and FORWARD ALERT settled. -/

namespace Sys2Proof.Machine

open Sys2Proof

/-- Settles O49: by what leaves the air, and by what then takes it. -/
theorem alertsAreEndedCancelledAndForwarded : Obligations.AlertsAreEndedCancelledAndForwarded := by
  unfold Obligations.AlertsAreEndedCancelledAndForwarded
  intro o n named s
  refine ⟨refusedOff_portsOf s (fun _ => rfl) rfl (by simp [halfBytes]) nofun,
    refusedOff_portsOf s (fun _ => rfl) rfl (by simp [halfBytes]) nofun,
    refusedOff_portsOf s (forwardAlert_request · named) rfl (forwardAlert_fits named) nofun,
    fun a => ⟨fun none_ => ?_, fun e onAir other => ?_, fun e r queue state pair alone => ?_,
      fun e r rest queue state pair top => ?_, fun e f queue state ready pair other _ wake => ?_,
      fun e f queue state ready pair other wake => ?_, fun e queue state pair chain frozen list => ?_,
      fun e r rest j f len at_ queue state pair chain stack alert distinct late suspended parked list cued kind frozen => ?_⟩,
    fun a => ⟨fun none_ => ?_, fun e find_ => ⟨fun onAir three => ?_, fun waits still => cancelAlert_alone a find_ waits still,
      fun f queue waits ready other may closed _ room wake => cancelAlert_airs a find_ queue waits ready other may closed room wake,
      fun r onAir other queue alone => ?_⟩⟩,
    fun a => ⟨fun p q is none_ => ?_, fun p q e is find_ other => ?_, fun is none_ => ?_,
      fun e x given head mode onAir other lower => ?_⟩⟩
  · refine exec_alertEnd_refused a ?_
    unfold alertEnd
    rw [show (clearMarks s).alc.onAir = none from none_]
  · refine exec_alertEnd_refused a ?_
    unfold alertEnd
    rw [show (clearMarks s).alc.onAir = some e from onAir]
    exact if_neg other
  · exact ⟨_, exec_alertEnd_taken a (onAir_head queue state) pair, (alertEnd_left queue (filter_alone e) pair).givenBack (b := s) alone rfl⟩
  · exact (alertEnd_left queue (filter_alone e) pair).givesBack (b := s) top rfl fun ended =>
      ⟨exec_alertEnd_taken a (onAir_head queue state) pair, ended⟩
  · exact ⟨_, exec_alertEnd_taken a (onAir_head queue state) pair,
      (alertEnd_left queue (filter_pair (by rw [pair]; exact other)) pair).airs (b := s) rfl rfl ready wake⟩
  · intro ended airs
    have run := exec_alertEnd_taken a (onAir_head queue state) pair
    obtain ⟨up, lowering, off, low⟩ := (alertEnd_left queue (filter_pair (by rw [pair]; exact other)) pair).wakes (b := s) ready wake
      fun p high => (alertEnd_notified p).1.trans high
    refine ⟨fun h => ?_, fun h => ?_, fun h => ?_, ?_⟩
    · obtain ⟨aired, rest⟩ := up h
      exact ⟨_, ⟨run, aired⟩, rest⟩
    · obtain ⟨aired, rest⟩ := lowering h
      exact ⟨_, ⟨run, aired⟩, rest⟩
    · obtain ⟨aired, rest⟩ := off h
      exact ⟨_, ⟨run, aired⟩, rest⟩
    · intro h _ empty _ commands any
      obtain ⟨aired, rest⟩ := low h empty any
      exact ⟨_, ⟨run, aired⟩, rest⟩
  · exact ⟨_, exec_alertEnd_taken a (onAir_head queue state) pair,
      (alertEnd_left queue (filter_alone e) pair).resumeLost (b := s) chain frozen list alertEnd_notified⟩
  · intro gone ended back
    have run := exec_alertEnd_taken a (onAir_head queue state) pair
    have left := alertEnd_left queue (filter_alone e) pair
    have held : LateChain r rest j f len at_ s := ⟨chain, stack, alert, distinct, late, suspended, parked, list, cued, kind, frozen⟩
    refine ⟨fun inside => ?_, fun outside => ?_⟩
    · obtain ⟨back_, rest_⟩ := held.starts (b := s) left inside
      exact ⟨_, ⟨run, back_⟩, rest_⟩
    · obtain ⟨back_, rest_⟩ := held.over_ (b := s) left alertEnd_notified outside
      exact ⟨_, ⟨run, back_⟩, rest_⟩
  · refine exec_cancelAlert_refused a ?_
    unfold cancelAlert
    rw [show (clearMarks s).alc.find ⟨o, n⟩ = none from List.find?_eq_none.2 fun x mem => by simpa using none_ x mem]
  · refine exec_cancelAlert_refused a ?_
    unfold cancelAlert
    rw [show (clearMarks s).alc.find ⟨o, n⟩ = some e from find_]
    exact (if_pos onAir).trans (if_pos three)
  · have left : AirLeft [] (fun log => log.append (stamp s) .alertCancelled (.alert ⟨o, n⟩) (.alertState .onAir)) s.due s
        (endAiring e .alertCancelled (.alertState .onAir) (clearMarks s)) := by
      rw [← find_pair find_]
      exact airLeft_of_endAiring (v := clearMarks s) .alertCancelled (.alertState .onAir) (by rw [← queue]; rfl) (filter_alone e)
        rfl rfl rfl rfl
    exact ⟨_, exec_cancelAlert_taken a (cancelAlert_onAir (v := clearMarks s) find_ onAir other), left.givenBack (b := s) alone rfl⟩
  · subst is
    refine exec_forwardAlert a (eventReply_refused ?_)
    unfold forwardAlert
    dsimp only
    rw [show (clearMarks s).alc.find ⟨p, q⟩ = none from List.find?_eq_none.2 fun x mem => by simpa using none_ x mem]
  · subst is
    refine exec_forwardAlert a (eventReply_refused ?_)
    unfold forwardAlert
    dsimp only
    rw [show (clearMarks s).alc.find ⟨p, q⟩ = some e from find_]
    exact if_neg other
  · subst is
    refine exec_forwardAlert a (eventReply_refused ?_)
    unfold forwardAlert
    dsimp only
    rw [show (clearMarks s).alc.pendingHead = none from none_]
  · have waits : forwardEntry e .request (clearMarks s) = readyEntry e .request (clearMarks s) :=
      forwardEntry_waits (s := clearMarks s) mode onAir other lower
    have act := (forwardAlert_forwards (v := clearMarks s) given head).trans (congrArg (·, _) waits)
    rw [exec_forwardAlert a (eventReply_taken act)]
    exact congrArg (fun t => Host.Outcome.next (replyTo .b 71 ⟨.ok, e.header.pair.bytes⟩ t)) (finish_marks rfl rfl rfl)

end Sys2Proof.Machine
end

section
/-! ALERT HEADER: its fields and its judgement (R127, R128, R132 to R136). -/

namespace Sys2Proof.Machine

open Sys2Proof

variable {s v : State} {h : HeaderFields} {k : Header}

/-! ### The fields -/

theorem headerOf_outside (bad : (∃ c ∈ [h.event1, h.event2, h.event3], c.toNat < 65 ∨ 90 < c.toNat) ∨ h.priority.toNat = 0 ∨
    3 < h.priority.toNat ∨ h.areas = [] ∨ (∃ a ∈ h.areas, 999999 < a.toNat) ∨ h.validity.toNat = 0 ∨ 1440 < h.validity.toNat ∨
    h.audioLength.toNat < 200 ∨ 24000 < h.audioLength.toNat) : headerOf h = none := by
  unfold headerOf
  rcases bad with code | rest
  · rw [eventCodeOf_outside code]
  · cases eventCodeOf h.event1 h.event2 h.event3 with
    | none => rfl
    | some e =>
      refine if_neg ?_
      rintro ⟨one, three, some_, -, areas, valid, day, long, most⟩
      rcases rest with bad | bad | bad | ⟨a, mem, far⟩ | bad | bad | bad | bad
      · omega
      · omega
      · rw [bad] at some_
        exact absurd some_ (by simp)
      · have near : a.toNat ≤ 999999 := by simpa [areaInRange] using List.all_eq_true.1 areas a mem
        omega
      all_goals omega

theorem header_fits (few : h.areas.length ≤ 16) : h.bytes.length ≤ 62 := by
  have codes := triListBytes_length h.areas
  simp only [HeaderFields.bytes, halfBytes, List.length_append, List.length_cons, List.length_nil]
  omega

theorem exec_alertHeader {t : State} {x : Reply} (few : h.areas.length ≤ 16) (a : Arrives (.alertHeader .c h) .c s)
    (act : alertHeader h (clearMarks s) = (t, x)) : exec (.alertHeader .c h) s = .next (replyTo .c 66 x (finish s t)) :=
  exec_answers rfl rfl (header_fits few) nofun (by simp) a (eventReply_taken act)

theorem alertHeader_header (is : headerOf h = some k) (v : State) : alertHeader h v = takeHeader k v := by
  unfold alertHeader
  rw [is]

/-! ### The judgement (R132) -/

/-- A header whose pair ALC does not know. -/
structure Fresh (k : Header) (x : ALC) : Prop where
  unknown : k.pair ∉ x.known
  absent : ∀ e ∈ x.queue, e.header.pair ≠ k.pair

theorem takeHeader_duplicate (old : k.pair ∈ v.alc.known ∨ ∃ x ∈ v.alc.queue, x.header.pair = k.pair) :
    takeHeader k v = (logEntry .alertDuplicate (.alert k.pair) (.number 0) v, ⟨.duplicate, []⟩) := by
  refine if_pos (old.imp id fun ⟨x, mem, pair⟩ => ?_)
  rw [ALC.find, List.find?_isSome]
  exact ⟨x, mem, decide_eq_true pair⟩

theorem takeHeader_judged (fresh : Fresh k v.alc) : takeHeader k v = match judge k v with
    | .filtered =>
      (logAlert .alertFiltered k.pair (.event k.event) (v.withAlc (v.alc.recordKnown k.pair)), ⟨.ok, [byte 0]⟩)
    | .ignored =>
      (logAlert .alertIgnored k.pair (.event k.event) (v.withAlc (v.alc.recordKnown k.pair)), ⟨.ok, [byte 1]⟩)
    | .enters st noHold =>
      if v.alc.queue.length < Config.alertEntries then (acceptAlert k st noHold v, queuedReply st none)
      else match v.alc.displaceable k.priority with
        | some e => (acceptAlert k st noHold (displace e k v), queuedReply st (some e.header.pair))
        | none => (logAlert .alertRefusedFull k.pair (.number k.priority) v, ⟨.full, []⟩) := by
  have none_ : (v.alc.find k.pair).isSome = false := by
    rw [Bool.eq_false_iff, ne_eq, ALC.find, List.find?_isSome]
    rintro ⟨x, mem, pair⟩
    exact fresh.absent x mem (of_decide_eq_true pair)
  exact if_neg fun old => old.elim fresh.unknown fun found => by
    rw [none_] at found
    cases found

theorem areas_any_iff : k.areas.any (fun a => decide (a ∈ v.alc.areas)) = true ↔ ∃ a ∈ k.areas, a ∈ v.alc.areas := by
  simp

theorem judge_filtered (low : k.priority ≠ 3) (other : ¬ ∃ a ∈ k.areas, a ∈ v.alc.areas) : judge k v = .filtered := by
  have none_ : k.areas.any (fun a => decide (a ∈ v.alc.areas)) = false := Bool.eq_false_iff.2 fun any => other (areas_any_iff.1 any)
  unfold judge
  rw [if_neg low, none_]
  rfl

theorem judge_matched (low : k.priority ≠ 3) (matched : ∃ a ∈ k.areas, a ∈ v.alc.areas) : judge k v =
    match v.alc.actionFor k.event with
    | .ignore => .ignored
    | .forward => .enters .ready false
    | .hold => if holdTime v = 0 then .enters .ready true else .enters .pending false := by
  unfold judge
  rw [if_neg low, areas_any_iff.2 matched]
  rfl

/-- An alert that goes to READY on its arrival without a hold (R132). -/
def GoesReady (k : Header) (x : ALC) : Prop :=
  k.priority = 3 ∨ (k.priority = 2 ∧ (∃ a ∈ k.areas, a ∈ x.areas) ∧ x.actionFor k.event = .forward)

theorem judge_ready (goes : GoesReady k v.alc) : judge k v = .enters .ready false := by
  rcases goes with three | ⟨two, matched, forward⟩
  · exact if_pos three
  · rw [judge_matched (by omega) matched, forward]

theorem judge_hold (low : k.priority ≠ 3) (matched : ∃ a ∈ k.areas, a ∈ v.alc.areas) (hold : v.alc.actionFor k.event = .hold)
    (time : 1 ≤ holdTime v) : judge k v = .enters .pending false := by
  rw [judge_matched low matched, hold]
  exact if_neg (by omega)

theorem judge_enters (goes : k.priority = 3 ∨ ((∃ a ∈ k.areas, a ∈ v.alc.areas) ∧ v.alc.actionFor k.event ≠ .ignore)) :
    ∃ st noHold, judge k v = .enters st noHold := by
  by_cases three : k.priority = 3
  · exact ⟨_, _, if_pos three⟩
  · obtain ⟨matched, acts⟩ := goes.resolve_left three
    rw [judge_matched three matched]
    cases action : v.alc.actionFor k.event with
    | ignore => exact absurd action acts
    | forward => exact ⟨_, _, rfl⟩
    | hold =>
      dsimp only
      split
      · exact ⟨_, _, rfl⟩
      · exact ⟨_, _, rfl⟩

theorem takeHeader_enters {st : AlertState} {noHold : Bool} (fresh : Fresh k v.alc) (enters : judge k v = .enters st noHold)
    (room : v.alc.queue.length < 8) : takeHeader k v = (acceptAlert k st noHold v, queuedReply st none) := by
  rw [takeHeader_judged fresh, enters]
  exact if_pos room

theorem takeHeader_full (fresh : Fresh k v.alc)
    (goes : k.priority = 3 ∨ ((∃ a ∈ k.areas, a ∈ v.alc.areas) ∧ v.alc.actionFor k.event ≠ .ignore))
    (full : v.alc.queue.length = 8) (higher : ∀ x ∈ v.alc.queue, x.state ≠ .onAir → k.priority ≤ x.header.priority) :
    takeHeader k v = (logEntry .alertRefusedFull (.alert k.pair) (.number k.priority) v, ⟨.full, []⟩) := by
  obtain ⟨st, noHold, enters⟩ := judge_enters goes
  have none_ : v.alc.displaceable k.priority = none := by
    unfold ALC.displaceable
    cases last : (v.alc.queue.filter fun e => !decide (e.state = .onAir)).getLast? with
    | none => rfl
    | some x =>
      have mem := List.mem_of_getLast? last
      rw [List.mem_filter] at mem
      exact if_neg (Nat.not_lt.2 (higher x mem.1 (by simpa using mem.2)))
  rw [takeHeader_judged fresh, enters]
  dsimp only
  rw [if_neg (by rw [full]; decide), none_]
  rfl

theorem takeHeader_displaces {st : AlertState} {noHold : Bool} {x : AlertEntry} (fresh : Fresh k v.alc)
    (enters : judge k v = .enters st noHold) (full : v.alc.queue.length = 8)
    (last : (v.alc.queue.filter fun y => !decide (y.state = .onAir)).getLast? = some x) (lower : x.header.priority < k.priority) :
    takeHeader k v = (acceptAlert k st noHold (displace x k v), queuedReply st (some x.header.pair)) := by
  have some_ : v.alc.displaceable k.priority = some x := by
    unfold ALC.displaceable
    rw [last]
    exact if_pos lower
  rw [takeHeader_judged fresh, enters]
  dsimp only
  rw [if_neg (by rw [full]; decide), some_]

/-! ### An alert is accepted (R134) -/

/-- The entry an alert is queued as. -/
def arrivalEntry (k : Header) (x : ALC) (st : AlertState) : AlertEntry :=
  { header := k, state := st, arrival := x.nextArrival, validity := k.validity * 12000 }

/-- ALC with an alert queued and its pair known (R128, R134). -/
def queuedIn (e : AlertEntry) (x : ALC) : ALC :=
  { x with known := (if x.known.length < 32 then x.known else x.known.drop 1) ++ [e.header.pair]
           nextArrival := x.nextArrival + 1, queue := place e x.queue }

/-- The state in which an alert has been received. -/
def received (e : AlertEntry) (v : State) : State :=
  raise .alertArrived (logEntry .alertReceived (.alert e.header.pair) (.received e.header.priority e.state)
    (v.withAlc (queuedIn e v.alc)))

theorem acceptAlert_pending (k : Header) (v : State) : acceptAlert k .pending false v =
    received { arrivalEntry k v.alc .pending with hold := holdTime v } v := rfl

theorem acceptAlert_ready (high : k.priority ≠ 1) (v : State) : acceptAlert k .ready false v =
    afterReady (arrivalEntry k v.alc .ready) (received (arrivalEntry k v.alc .ready) v) := by
  have entry : acceptedEntry k .ready v = arrivalEntry k v.alc .ready := by
    show AlertEntry.readied _ _ = _
    unfold AlertEntry.readied
    rw [if_neg high]
    rfl
  unfold acceptAlert
  rw [entry]
  rfl

/-- An alert held in a queue with room (R132 to R136). -/
theorem takeHeader_held (fresh : Fresh k v.alc) (low : k.priority ≠ 3) (matched : ∃ a ∈ k.areas, a ∈ v.alc.areas)
    (hold : v.alc.actionFor k.event = .hold) (time : 1 ≤ holdTime v) (room : v.alc.queue.length < 8) :
    takeHeader k v = (received { arrivalEntry k v.alc .pending with hold := holdTime v } v, ⟨.ok, [2, 1]⟩) := by
  rw [takeHeader_enters fresh (judge_hold low matched hold time) room, acceptAlert_pending]
  rfl

end Sys2Proof.Machine
end

section
/-! An alert that is accepted takes the air (R23, R24, R134, R141 to R145). -/

namespace Sys2Proof.Machine

open Sys2Proof

variable {s v m : State} {e o : AlertEntry}

/-! ### The first alert of a chain -/

theorem Keeps.notified {s t : State} (h : Keeps s t) : Notified s t := by
  obtain ⟨-, raised, ports⟩ := h.notices
  intro p
  rw [ports p]
  refine ⟨rfl, fun n set => ?_⟩
  show (if (s.port p).init = .high then (s.port p).flags ||| raised else (s.port p).flags).getLsbD n = true
  split
  · rw [BitVec.getLsbD_or, set, Bool.true_or]
  · exact set

theorem place_nil (e : AlertEntry) : place e [] = [e] := rfl

theorem place_above (higher : o.header.priority < e.header.priority) : place e [o] = [e, o] := by
  unfold place
  simp [Nat.not_le.2 higher]

/-- An alert in READY takes a free air when its priority lets it (R142). -/
theorem considerAir_alone (queue : m.alc.queue = [e]) (ready : e.state = .ready) (high : 2 ≤ e.header.priority)
    (closed : m.alc.chainOpen = false) : considerAir m = beginChain e m := by
  refine considerAir_begins (onAir_none fun x mem => ?_) closed (readyHead_alone queue ready) ?_
  · rw [queue, List.mem_singleton] at mem
    rw [mem, ready]
    nofun
  · unfold mayAir
    rw [decide_eq_true high]
    simp

/-- How the event closes that gives the air to the one queued alert, a record being free. -/
theorem begins_closes {b : State} (queue : m.alc.queue = [e]) (ready : e.state = .ready) (high : 2 ≤ e.header.priority)
    (closed : m.alc.chainOpen = false) (room : m.air.stack.length < m.air.maxDepth) (wake : m.alc.wake = false)
    (started : m.cue.started = false) (lsw : b.lsw = m.lsw) (waiting : b.cue.waiting = m.cue.waiting) :
    let t := finish b (considerAir m)
    ChainBegun e m.log m.due m t ∧ t.alc.known = m.alc.known ∧ Notified m t := by
  have kept : Keeps m (finish b (considerAir m)) := keeps_finish _ (keeps_considerAir (keeps_refl m))
  intro t
  have begins := considerAir_alone queue ready high closed
  have begun := chainBegun (b := b) queue rfl rfl room wake started lsw waiting
  rw [← begins] at begun
  refine ⟨begun, ?_, kept.notified⟩
  have eq := beginChain_eq queue rfl room wake
  obtain ⟨l, r, q, suspended⟩ := suspend_eq m
  have quiet : (beginChain e m).cue.started = false := by
    rw [eq, suspended]
    exact started
  have closed_ := closes_finish b (a := beginChain e m) fun st => absurd (quiet.symm.trans st) nofun
  rw [show t = finish b (beginChain e m) from congrArg (finish b) begins]
  refine (congrArg (fun u : State => u.alc.known) closed_.frame :).trans ?_
  rw [eq]

/-! ### The arrival outside TEST -/

theorem received_frame (e : AlertEntry) (v : State) :
    { received e v with alc := v.alc, log := v.log, pi := v.pi } = v := rfl

theorem received_notified (e : AlertEntry) (v : State) : Notified v (received e v) :=
  ((notified_of_pi rfl : Notified v (v.withAlc (queuedIn e v.alc))).trans (notified_logEntry .alertReceived
    (.alert e.header.pair) (.received e.header.priority e.state) (v.withAlc (queuedIn e v.alc)))).trans
      (notified_raise .alertArrived _)

theorem received_raises {t : State} (h : Notified (received e v) t) {p : PortId} (high : (v.port p).init = .high) :
    (t.port p).flags.getLsbD 8 = true :=
  (show Notified (raise .alertArrived _) t from h).bit (((received_notified e v).trans h).high high)

theorem afterReady_free (mode : m.air.mode ≠ .test) (onAir : m.alc.onAir = none) : afterReady e m = considerAir m := by
  have report : readyReport m = m := if_neg mode
  unfold afterReady
  rw [report]
  dsimp only
  rw [onAir]

/-! ### The arrival in TEST (R23, R24) -/

theorem afterReady_test (mode : m.air.mode = .test) (onAir : m.alc.onAir = none) :
    afterReady e m = considerAir (raise .alertState (changeMode .live true m)) := by
  have report : readyReport m = raise .alertState (changeMode .live true m) := if_pos mode
  have alc : (raise .alertState (changeMode .live true m)).alc = m.alc := (outAlone_changeMode .live true m).alc
  unfold afterReady
  rw [report]
  dsimp only
  rw [alc, onAir]

/-- What leaving TEST logs of OUT's reasons (R154). -/
theorem testReason_log (mode : m.air.mode = .test) : (testReason .live m).log =
    if m.out.reasons.test = true ∧ { m.out.reasons with test := false } = ({} : SafeSet) then
      m.log.append (stamp m) .safeOff .none (.reason .test) else m.log := by
  have run : testReason .live m = safeChange .test false (m.withAir { m.air with mode := .live }) := by
    unfold testReason
    rw [decide_eq_true (p := m.air.mode = .test ∧ Mode.live ≠ .test) ⟨mode, nofun⟩]
    rfl
  rw [run]
  have same : (m.withAir { m.air with mode := .live }).out.reasons.get .test = m.out.reasons.test := rfl
  by_cases held : m.out.reasons.test = true
  · have held_ := same.trans held
    by_cases empty : { m.out.reasons with test := false } = ({} : SafeSet)
    · rw [if_pos ⟨held, empty⟩, safeChange_last ((SafeSet.set_false_eq_empty_iff held_).1 empty)]
      rfl
    · rw [if_neg fun both => empty both.2,
        safeChange_leaves held_ fun only => empty ((SafeSet.set_false_eq_empty_iff held_).2 only)]
      rfl
  · rw [if_neg fun both => held both.1, safeChange_of_get (same.trans (Bool.eq_false_iff.2 held))]
    rfl

/-- A forced change to LIVE whose judgement of SILENCE changes nothing (R23, R157). -/
theorem changeMode_test_log (silence : m.out.reasons.silence = (m.out.deadAir && m.out.failover)) :
    (changeMode .live true m).log = (testReason .live m).log.append (stamp m) .modeChange .none (.mode .live true) := by
  have alone := outAlone_testReason .live m
  have out := testReason_out .live m
  have stamps : stamp (testReason .live m) = stamp m := by
    unfold stamp
    rw [alone.tb]
    rfl
  have same : (logEntry .modeChange .none (.mode .live true) (testReason .live m)).out.reasons.get .silence =
      ((logEntry .modeChange .none (.mode .live true) (testReason .live m)).out.deadAir &&
        ((logEntry .modeChange .none (.mode .live true) (testReason .live m)).out.failover ||
          decide ((logEntry .modeChange .none (.mode .live true) (testReason .live m)).air.mode = .unattended))) := by
    have air : (testReason .live m).air.mode = .live := congrArg AIR.mode alone.air
    show (testReason .live m).out.reasons.silence = ((testReason .live m).out.deadAir && ((testReason .live m).out.failover ||
      decide ((testReason .live m).air.mode = .unattended)))
    rw [air, out, silence]
    simp
  rw [changeMode_eq]
  have still : judgeSilence (logEntry .modeChange .none (.mode .live true) (testReason .live m)) =
      logEntry .modeChange .none (.mode .live true) (testReason .live m) := safeChange_of_get same
  rw [still, ← stamps]
  rfl

/-! ### An interruption (R145) -/

/-- The entry of an interrupted alert. -/
def AlertEntry.interrupted (o : AlertEntry) : AlertEntry :=
  { o with state := .ready, played := 0, advisory := 0, interruptions := min 255 (o.interruptions + 1) }

/-- ALC with its alert on air interrupted. -/
def ALC.interrupts (o : AlertEntry) (x : ALC) : ALC :=
  { x with go := false, goRiseAfter := none
           queue := x.queue.map fun y => if y.header.pair = o.header.pair then y.interrupted else y }

/-- The state in which an alert has been interrupted, before the next one airs. -/
def interruptedBy (e o : AlertEntry) (m : State) : State :=
  raise .alertState (logEntry .alertInterrupted (.alert o.header.pair) (.pair e.header.pair)
    (m.withAlc (m.alc.interrupts o)))

theorem interrupt_eq (stays : o.validity ≠ 0) : interrupt e o m = airing true e (interruptedBy e o m) := by
  unfold interrupt
  dsimp only
  rw [if_neg stays]
  rfl

theorem interrupts_alone (queue : m.alc.queue = [e, o]) (other : o.header.pair ≠ e.header.pair) :
    ((m.alc.interrupts o).modify e.header.pair (·.airs m.boundaryNo)).queue = [e.airs m.boundaryNo, o.interrupted] := by
  show (m.alc.queue.map _).map _ = _
  rw [queue, List.map_cons, List.map_singleton, if_neg (Ne.symm other), if_pos rfl, List.map_cons, List.map_singleton,
    if_pos rfl, if_neg (show o.interrupted.header.pair ≠ e.header.pair from other)]

/-- The state in which the alert that interrupted airs. -/
def interruptedAiring (e o : AlertEntry) (m : State) : State :=
  raise .alertState (logEntry .alertOnAir (.alert e.header.pair) (.onAir e.header.priority e.interruptions)
    ((interruptedBy e o m).withAlc { m.alc with
      go := false, goRiseAfter := some m.boundaryNo, queue := [e.airs m.boundaryNo, o.interrupted] }
      |>.withOut { m.out with alertId := some e.header.pair }))

/-- An alert that enters READY above the one on air interrupts it. -/
theorem afterReady_interrupts (mode : m.air.mode ≠ .test) (queue : m.alc.queue = [e, o]) (ready : e.state = .ready)
    (onAir : o.state = .onAir) (other : o.header.pair ≠ e.header.pair) (higher : o.header.priority < e.header.priority)
    (stays : o.validity ≠ 0) (wake : m.alc.wake = false) : afterReady e m = interruptedAiring e o m := by
  have report : readyReport m = m := if_neg mode
  have head : m.alc.onAir = some o := by
    unfold ALC.onAir
    rw [queue, List.find?_cons_of_neg (by simp [ready])]
    exact List.find?_cons_of_pos (by simpa using onAir)
  have goes : afterReady e m = interrupt e o m := by
    unfold afterReady
    rw [report]
    dsimp only
    rw [head]
    exact if_pos higher
  have sleeps : (interruptedBy e o m).alc.wake = false := wake
  unfold interruptedAiring
  rw [goes, interrupt_eq stays, airing_later (w := interruptedBy e o m) e sleeps, ← interrupts_alone queue other]
  rfl

end Sys2Proof.Machine
end

section
/-! The replies of ALERT HEADER that give no air (R132 to R136). -/

namespace Sys2Proof.Machine

open Sys2Proof

variable {s t v : State} {h : HeaderFields} {k : Header} {x : Reply}

theorem exec_alertHeader_taken (few : h.areas.length ≤ 16) (a : Arrives (.alertHeader .c h) .c s) (is : headerOf h = some k)
    (taken : takeHeader k (clearMarks s) = (t, x)) : exec (.alertHeader .c h) s = .next (replyTo .c 66 x (finish s t)) :=
  exec_alertHeader few a ((alertHeader_header is _).trans taken)

theorem exec_alertHeader_still (few : h.areas.length ≤ 16) (a : Arrives (.alertHeader .c h) .c s) (is : headerOf h = some k)
    (taken : takeHeader k (clearMarks s) = (t, x)) (cue : t.cue = (clearMarks s).cue) (lsw : t.lsw = s.lsw)
    (same : clearMarks t = clearMarks v) : exec (.alertHeader .c h) s = .next (replyTo .c 66 x (clearMarks v)) := by
  rw [exec_alertHeader_taken few a is taken, finish_marks (by rw [cue]; rfl) (by rw [cue]; rfl) lsw, same]

theorem holdTime_eq (v : State) : holdTime v =
    if v.air.mode = .live then v.alc.liveHold else if v.air.mode = .unattended then 0 else v.alc.autoHold := by
  unfold holdTime
  cases v.air.mode <;> rfl

/-- An alert to be held that displaces one (R133). -/
theorem takeHeader_displaces_held {y : AlertEntry} (fresh : Fresh k v.alc) (low : k.priority ≠ 3)
    (matched : ∃ a ∈ k.areas, a ∈ v.alc.areas) (hold : v.alc.actionFor k.event = .hold) (time : 1 ≤ holdTime v)
    (full : v.alc.queue.length = 8) (last : (v.alc.queue.filter fun z => !decide (z.state = .onAir)).getLast? = some y)
    (lower : y.header.priority < k.priority) : takeHeader k v =
      (received { arrivalEntry k v.alc .pending with hold := holdTime v } (displace y k v),
        ⟨.ok, [2, 0] ++ y.header.pair.bytes⟩) := by
  rw [takeHeader_displaces fresh (judge_hold low matched hold time) full last lower, acceptAlert_pending]
  rfl

/-! ### The clauses -/

section
variable (few : h.areas.length ≤ 16) (a : Arrives (.alertHeader .c h) .c s) (is : headerOf h = some k)
include few a is

theorem alertHeader_duplicate (old : k.pair ∈ s.alc.known ∨ ∃ x ∈ s.alc.queue, x.header.pair = k.pair) :
    exec (.alertHeader .c h) s =
      .next (replyTo .c 66 ⟨.duplicate, []⟩ (clearMarks (logEntry .alertDuplicate (.alert k.pair) (.number 0) s))) :=
  exec_alertHeader_still few a is (takeHeader_duplicate (v := clearMarks s) old) rfl rfl rfl

variable (fresh : Fresh k s.alc)
include fresh

theorem alertHeader_filtered (low : k.priority ≠ 3) (other : ¬ ∃ a ∈ k.areas, a ∈ s.alc.areas) :
    exec (.alertHeader .c h) s = .next (replyTo .c 66 ⟨.ok, [0]⟩ (clearMarks
      (logEntry .alertFiltered (.alert k.pair) (.event k.event) (s.withAlc (s.alc.recordKnown k.pair))))) := by
  have taken := takeHeader_judged (v := clearMarks s) fresh
  rw [judge_filtered (v := clearMarks s) low other] at taken
  exact exec_alertHeader_still few a is taken rfl rfl rfl

theorem alertHeader_ignored (low : k.priority ≠ 3) (matched : ∃ a ∈ k.areas, a ∈ s.alc.areas)
    (ignore : s.alc.actionFor k.event = .ignore) :
    exec (.alertHeader .c h) s = .next (replyTo .c 66 ⟨.ok, [1]⟩ (clearMarks
      (logEntry .alertIgnored (.alert k.pair) (.event k.event) (s.withAlc (s.alc.recordKnown k.pair))))) := by
  have taken := takeHeader_judged (v := clearMarks s) fresh
  rw [judge_matched (v := clearMarks s) low matched, show (clearMarks s).alc.actionFor k.event = .ignore from ignore] at taken
  exact exec_alertHeader_still few a is taken rfl rfl rfl

theorem alertHeader_full (goes : k.priority = 3 ∨ ((∃ a ∈ k.areas, a ∈ s.alc.areas) ∧ s.alc.actionFor k.event ≠ .ignore))
    (full : s.alc.queue.length = 8) (higher : ∀ x ∈ s.alc.queue, x.state ≠ .onAir → k.priority ≤ x.header.priority) :
    exec (.alertHeader .c h) s = .next (replyTo .c 66 ⟨.full, []⟩ (clearMarks
      (logEntry .alertRefusedFull (.alert k.pair) (.number k.priority) s))) :=
  exec_alertHeader_still few a is (takeHeader_full (v := clearMarks s) fresh goes full higher) rfl rfl rfl

theorem alertHeader_held (low : k.priority ≠ 3) (matched : ∃ a ∈ k.areas, a ∈ s.alc.areas)
    (hold : s.alc.actionFor k.event = .hold) (time : 1 ≤ holdTime s) (room : s.alc.queue.length < 8) :
    exec (.alertHeader .c h) s = .next (replyTo .c 66 ⟨.ok, [2, 1]⟩ (clearMarks
      (received { arrivalEntry k s.alc .pending with hold := holdTime s } s))) :=
  exec_alertHeader_still few a is (takeHeader_held (v := clearMarks s) fresh low matched hold time room) rfl rfl rfl

theorem alertHeader_displaces {y : AlertEntry} (low : k.priority ≠ 3) (matched : ∃ a ∈ k.areas, a ∈ s.alc.areas)
    (hold : s.alc.actionFor k.event = .hold) (time : 1 ≤ holdTime s) (full : s.alc.queue.length = 8)
    (last : (s.alc.queue.filter fun z => !decide (z.state = .onAir)).getLast? = some y) (lower : y.header.priority < k.priority) :
    exec (.alertHeader .c h) s = .next (replyTo .c 66 ⟨.ok, [2, 0] ++ y.header.pair.bytes⟩ (clearMarks
      (received { arrivalEntry k s.alc .pending with hold := holdTime s } (displace y k s)))) :=
  exec_alertHeader_still few a is
    (takeHeader_displaces_held (v := clearMarks s) fresh low matched hold time full last lower) rfl rfl rfl

end

end Sys2Proof.Machine
end

section
/-! An arriving alert takes a free air (R23, R24, R141 to R143). -/

namespace Sys2Proof.Machine

open Sys2Proof

variable {s v m : State} {e : AlertEntry} {h : HeaderFields} {k : Header}

theorem changeMode_notified (new : Mode) (forced : Bool) (v : State) : Notified v (changeMode new forced v) :=
  (keeps_changeMode new forced (keeps_refl v)).notified

/-- An alert that goes to READY on its arrival (R132, R134). -/
theorem alertHeader_ready (few : h.areas.length ≤ 16) (a : Arrives (.alertHeader .c h) .c s) (is : headerOf h = some k)
    (fresh : Fresh k s.alc) (goes : GoesReady k s.alc) (room : s.alc.queue.length < 8) : exec (.alertHeader .c h) s =
      .next (replyTo .c 66 ⟨.ok, [3, 1]⟩ (finish s (afterReady (arrivalEntry k s.alc .ready)
        (received (arrivalEntry k s.alc .ready) (clearMarks s))))) := by
  have high : k.priority ≠ 1 := by
    rcases goes with three | two
    · omega
    · have := two.1
      omega
  refine exec_alertHeader_taken few a is ?_
  rw [takeHeader_enters (v := clearMarks s) fresh (judge_ready (v := clearMarks s) goes) room, acceptAlert_ready high]
  rfl

/-! ### The air outside TEST -/

theorem received_queue (queue : s.alc.queue = []) : (received e (clearMarks s)).alc.queue = [e] := by
  show place e s.alc.queue = [e]
  rw [queue, place_nil]

theorem received_free (queue : s.alc.queue = []) (ready : e.state = .ready) : (received e (clearMarks s)).alc.onAir = none :=
  onAir_none fun x mem => by
    rw [received_queue queue, List.mem_singleton] at mem
    rw [mem, ready]
    nofun

/-- The grant that no call to TEST precedes. -/
theorem ready_begins (ready : e.state = .ready) (high : 2 ≤ e.header.priority) (queue : s.alc.queue = [])
    (closed : s.alc.chainOpen = false) (room : s.air.stack.length < s.air.maxDepth) (wake : s.alc.wake = false)
    (mode : s.air.mode ≠ .test) :
    let t := finish s (afterReady e (received e (clearMarks s)))
    ChainBegun e (received e s).log s.due s t ∧ t.alc.known = (queuedIn e s.alc).known ∧
      Notified (received e (clearMarks s)) t := by
  have queued := received_queue (e := e) queue
  have free := received_free queue ready
  intro t
  have airs : t = finish s (considerAir (received e (clearMarks s))) :=
    congrArg (finish s) (afterReady_free (m := received e (clearMarks s)) mode free)
  obtain ⟨begun, known, notes⟩ :=
    begins_closes (b := s) (m := received e (clearMarks s)) queued ready high closed room wake rfl rfl rfl
  rw [← airs] at begun known notes
  exact ⟨begun.of_frame rfl rfl fun p high => (received_notified e (clearMarks s)).high high, known, notes⟩

/-! ### The air in TEST -/

/-- The state in which an alert's arrival has ended TEST (R23, R24). -/
def leftTest (v : State) : State := raise .alertState (changeMode .live true v)

theorem leftTest_alone (v : State) : OutAlone (v.withAir { v.air with mode := .live }) (leftTest v) :=
  (outAlone_changeMode .live true v).trans rfl

theorem leftTest_notified (v : State) : Notified v (leftTest v) :=
  (changeMode_notified .live true v).trans (notified_raise .alertState _)

theorem leftTest_out (mode : v.air.mode = .test) : (leftTest v).out = { v.out with
    reasons := { v.out.reasons with test := false, silence := v.out.deadAir && v.out.failover } } := by
  have attended : (v.out.failover || decide (Mode.live = .unattended)) = v.out.failover := Bool.or_false _
  refine (changeMode_out .live true v).trans ?_
  rw [mode, attended]
  rfl

/-- What ends TEST logs (R23, R154). -/
theorem leftTest_log (mode : v.air.mode = .test) (silence : v.out.reasons.silence = (v.out.deadAir && v.out.failover)) :
    (leftTest v).log = (if v.out.reasons.test = true ∧ { v.out.reasons with test := false } = ({} : SafeSet) then
      v.log.append (stamp v) .safeOff .none (.reason .test) else v.log).append (stamp v) .modeChange .none (.mode .live true) := by
  rw [← testReason_log mode]
  exact changeMode_test_log silence

/-- The grant in TEST: the mode is left first. -/
theorem ready_begins_test (ready : e.state = .ready) (high : 2 ≤ e.header.priority) (queue : s.alc.queue = [])
    (closed : s.alc.chainOpen = false) (room : s.air.stack.length < s.air.maxDepth) (wake : s.alc.wake = false)
    (mode : s.air.mode = .test) :
    let m := leftTest (received e (clearMarks s))
    let t := finish s (afterReady e (received e (clearMarks s)))
    ChainBegun e m.log m.due m t ∧ t.alc.known = (queuedIn e s.alc).known ∧ Notified (received e (clearMarks s)) t := by
  intro m t
  have alone : OutAlone _ m := leftTest_alone (received e (clearMarks s))
  have told : Notified _ m := leftTest_notified (received e (clearMarks s))
  have alc : m.alc = queuedIn e s.alc := alone.alc
  have air : m.air = { s.air with mode := .live } := alone.air
  have cue : m.cue = (clearMarks s).cue := alone.cue
  have lsw : m.lsw = s.lsw := alone.lsw
  have queued := received_queue (e := e) queue
  have free := received_free queue ready
  have airs : t = finish s (considerAir m) :=
    congrArg (finish s) (afterReady_test (m := received e (clearMarks s)) mode free)
  clear_value m
  clear_value t
  obtain ⟨begun, known, notes⟩ := begins_closes (b := s) (m := m) (by rw [alc]; exact queued) ready high (by rw [alc]; exact closed)
    (by rw [air]; exact room) (by rw [alc]; exact wake) (by rw [cue]; rfl) lsw.symm (by rw [cue]; rfl)
  rw [← airs] at begun known notes
  exact ⟨begun, known.trans (by rw [alc]), told.trans notes⟩

end Sys2Proof.Machine
end

section
/-! What an arrival in TEST leaves (R23, R24). -/

namespace Sys2Proof.Machine

open Sys2Proof

variable {s t v m : State} {e o : AlertEntry} {h : HeaderFields} {k : Header}

/-! ### The air in TEST -/

/-- OUT's reasons when TEST is left. -/
def withoutTest (x : SafeSet) : SafeSet := { x with test := false }

/-- AIR in LIVE, and OUT without the reason TEST. -/
def intoLive (s : State) : State :=
  { s with air := { s.air with mode := .live }, out := { s.out with reasons := withoutTest s.out.reasons } }

/-- With the SILENCE reason as the failover has it, the arrival in TEST left no more than the mode and its reason. -/
theorem leftTest_frame (mode : s.air.mode = .test) (silence : s.out.reasons.silence = (s.out.deadAir && s.out.failover)) :
    let m := leftTest (received e (clearMarks s))
    { m with alc := s.alc, cue := s.cue, log := s.log, due := s.due, pi := s.pi } = intoLive s := by
  intro m
  have out : m.out = (intoLive s).out := by
    refine (leftTest_out (v := received e (clearMarks s)) mode).trans ?_
    show { s.out with reasons := { s.out.reasons with test := false, silence := s.out.deadAir && s.out.failover } } = _
    rw [← silence]
    rfl
  have alone : OutAlone _ m := leftTest_alone (received e (clearMarks s))
  clear_value m
  have frame := congrArg (fun u : State => { u with
    alc := s.alc, cue := s.cue, log := s.log, due := s.due, pi := s.pi, out := (intoLive s).out }) alone
  refine Eq.trans ?_ frame
  rw [← out]

theorem leftTest_begun (mode : s.air.mode = .test) (begun : ChainBegun e (leftTest (received e (clearMarks s))).log
      (leftTest (received e (clearMarks s))).due (leftTest (received e (clearMarks s))) t) :
    t.air.mode = .live ∧ t.out.reasons.test = false ∧ t.out.alertFlag = true ∧ t.out.alertId = some e.header.pair ∧
      t.alc.chainOpen = true ∧ t.alc.go = true := by
  have alone : OutAlone _ (leftTest (received e (clearMarks s))) := leftTest_alone (received e (clearMarks s))
  have out := leftTest_out (v := received e (clearMarks s)) mode
  have air : (leftTest (received e (clearMarks s))).air = { s.air with mode := .live } := alone.air
  generalize leftTest (received e (clearMarks s)) = m at begun air out
  obtain ⟨open_, go, -, ⟨r, record, -⟩, -, -, -, -, -, -, -, out_, -⟩ := begun
  refine ⟨?_, ?_, ?_, ?_, open_, go⟩
  · rw [record, air]
  · rw [out_, out]
  · rw [out_]
  · rw [out_]

/-- What the whole grant in TEST is (R23, R24, R143). -/
theorem leftTest_begun_whole (mode : s.air.mode = .test)
    (silence : s.out.reasons.silence = (s.out.deadAir && s.out.failover))
    (begun : ChainBegun e (leftTest (received e (clearMarks s))).log (leftTest (received e (clearMarks s))).due
      (leftTest (received e (clearMarks s))) t) :
    ChainBegun e ((if s.out.reasons.test = true ∧ withoutTest s.out.reasons = {} then
      (received e s).log.append (stamp s) .safeOff .none (.reason .test) else (received e s).log).append (stamp s) .modeChange .none
        (.mode .live true)) s.due (intoLive s) t := by
  have frame := leftTest_frame (e := e) mode silence
  have log := leftTest_log (v := received e (clearMarks s)) mode silence
  have told := leftTest_notified (received e (clearMarks s))
  have alone : OutAlone _ (leftTest (received e (clearMarks s))) := leftTest_alone (received e (clearMarks s))
  have due : (leftTest (received e (clearMarks s))).due = s.due := alone.due
  have cue : (leftTest (received e (clearMarks s))).cue = (clearMarks (intoLive s)).cue := alone.cue
  dsimp only at frame
  generalize leftTest (received e (clearMarks s)) = m at begun frame log told due cue
  rw [log, due] at begun
  exact begun.of_frame (s := intoLive s) frame cue fun p high => told.high ((received_notified e (clearMarks s)).high high)

end Sys2Proof.Machine
end

section
/-! An arriving alert interrupts the one on air (R145). -/

namespace Sys2Proof.Machine

open Sys2Proof

variable {s t v m : State} {e o : AlertEntry} {h : HeaderFields} {k : Header}

theorem interruptedBy_notified (e o : AlertEntry) (m : State) : Notified m (interruptedBy e o m) :=
  ((notified_of_pi rfl : Notified m (m.withAlc (m.alc.interrupts o))).trans (notified_logEntry .alertInterrupted
    (.alert o.header.pair) (.pair e.header.pair) (m.withAlc (m.alc.interrupts o)))).trans (notified_raise .alertState _)

/-- What an interruption leaves. -/
theorem interruptedAiring_alc (e o : AlertEntry) (m : State) : (interruptedAiring e o m).alc = { m.alc with
    go := false, goRiseAfter := some m.boundaryNo, queue := [e.airs m.boundaryNo, o.interrupted] } := rfl

theorem interruptedAiring_out (e o : AlertEntry) (m : State) :
    (interruptedAiring e o m).out = { m.out with alertId := some e.header.pair } := rfl

theorem interruptedAiring_log (e o : AlertEntry) (m : State) : (interruptedAiring e o m).log =
    (m.log.append (stamp m) .alertInterrupted (.alert o.header.pair) (.pair e.header.pair)).append (stamp m) .alertOnAir
      (.alert e.header.pair) (.onAir e.header.priority e.interruptions) := rfl

theorem interruptedAiring_frame (e o : AlertEntry) (m : State) :
    { interruptedAiring e o m with alc := m.alc, out := m.out, log := m.log, pi := m.pi } = m := rfl

/-- The interruption tells every port of the alert's state. -/
theorem interruptedAiring_notified (e o : AlertEntry) (m : State) :
    ∃ u, Notified m u ∧ interruptedAiring e o m = raise .alertState u := by
  have first := interruptedBy_notified e o m
  unfold interruptedAiring
  generalize interruptedBy e o m = u at first
  have logged (x : Subject) (d : Detail) (w : State) (same : w.pi = u.pi) : Notified m (logEntry .alertOnAir x d w) :=
    (first.trans (notified_of_pi same)).trans (notified_logEntry .alertOnAir x d w)
  refine ⟨_, ?_, rfl⟩
  exact logged _ _ _ rfl

/-- The event that interrupts ends as it stands. -/
theorem ready_interrupts (ready : e.state = .ready) (queue : s.alc.queue = [o]) (onAir : o.state = .onAir)
    (other : o.header.pair ≠ e.header.pair) (higher : o.header.priority < e.header.priority) (stays : 1 ≤ o.validity)
    (mode : s.air.mode ≠ .test) (wake : s.alc.wake = false) : finish s (afterReady e (received e (clearMarks s))) =
      clearMarks (interruptedAiring e o (received e (clearMarks s))) := by
  have queued : (received e (clearMarks s)).alc.queue = [e, o] := by
    show place e s.alc.queue = [e, o]
    rw [queue, place_above higher]
  rw [afterReady_interrupts (m := received e (clearMarks s)) mode queued ready onAir other higher (by omega) wake]
  have frame := interruptedAiring_frame e o (received e (clearMarks s))
  generalize interruptedAiring e o (received e (clearMarks s)) = u at frame
  have cue : u.cue = (clearMarks s).cue := (congrArg State.cue frame :)
  have lsw : u.lsw = s.lsw := (congrArg State.lsw frame :)
  exact finish_marks (by rw [cue]; rfl) (by rw [cue]; rfl) lsw

section
variable (few : h.areas.length ≤ 16) (a : Arrives (.alertHeader .c h) .c s) (is : headerOf h = some k)
  (fresh : Fresh k s.alc) (goes : GoesReady k s.alc)
include few a is fresh goes

theorem alertHeader_interrupts (queue : s.alc.queue = [o]) (onAir : o.state = .onAir) (higher : o.header.priority < k.priority)
    (stays : 1 ≤ o.validity) (mode : s.air.mode ≠ .test) (wake : s.alc.wake = false) :
    exec (.alertHeader .c h) s = .next (replyTo .c 66 ⟨.ok, [3, 1]⟩ (clearMarks
      (interruptedAiring (arrivalEntry k s.alc .ready) o (received (arrivalEntry k s.alc .ready) (clearMarks s))))) := by
  have other : o.header.pair ≠ k.pair := fresh.absent o (by rw [queue]; exact List.mem_singleton_self o)
  rw [alertHeader_ready few a is fresh goes (by rw [queue]; exact Nat.lt_of_sub_eq_succ rfl),
    ready_interrupts (e := arrivalEntry k s.alc .ready) rfl queue onAir other higher stays mode wake]

end

/-- What the event that interrupts leaves. -/
theorem received_interrupted (e o : AlertEntry) (s : State) :
    let t := clearMarks (interruptedAiring e o (received e (clearMarks s)))
    t.alc = { queuedIn e s.alc with
      go := false, goRiseAfter := some s.boundaryNo, queue := [e.airs s.boundaryNo, o.interrupted] } ∧
    t.out = { s.out with alertId := some e.header.pair } ∧
    t.log = ((received e s).log.append (stamp s) .alertInterrupted (.alert o.header.pair) (.pair e.header.pair)).append (stamp s)
      .alertOnAir (.alert e.header.pair) (.onAir e.header.priority e.interruptions) ∧
    (∀ p, (s.port p).init = .high → (t.port p).flags.getLsbD 9 = true) ∧
    { t with alc := s.alc, out := s.out, log := s.log, pi := s.pi } = clearMarks s := by
  have alc := interruptedAiring_alc e o (received e (clearMarks s))
  have out := interruptedAiring_out e o (received e (clearMarks s))
  have log := interruptedAiring_log e o (received e (clearMarks s))
  have frame := interruptedAiring_frame e o (received e (clearMarks s))
  obtain ⟨u, told, raised⟩ := interruptedAiring_notified e o (received e (clearMarks s))
  have arrived := received_notified e (clearMarks s)
  intro t
  refine ⟨alc, out, log, fun p high => ?_, (congrArg (fun w : State => clearMarks { w with
    alc := s.alc, out := s.out, log := s.log, pi := s.pi }) frame :)⟩
  have marks : t.pi = (raise .alertState u).pi := congrArg State.pi raised
  have last : Notified (raise .alertState u) t := notified_of_pi marks
  exact last.bit (((arrived.trans told).trans ((notified_raise .alertState u).trans last)).high high)

end Sys2Proof.Machine
end

section
/-! The air without a record: R32, R43, R44, R70, R101, R121. -/

namespace Sys2Proof.Machine

open Sys2Proof

variable {s m v c : State} {e : AlertEntry} {j : CueEntry} {list : List CueEntry} {log : LOG} {due : List Due}

/-! ### CUE's part (R44, R70) -/

/-- CUE's list is as it shall be and held, and nothing but the log and the duties moved with it. -/
structure CueHeld (list : List CueEntry) (log : LOG) (due : List Due) (v c : State) : Prop where
  list : c.cue.list = list
  held : c.cue.held = true
  quiet : c.cue.started = v.cue.started
  log : c.log = log
  due : c.due = due
  frame : { c with cue := v.cue, log := v.log, due := v.due, pi := v.pi } = v

theorem endNoContext_empty (empty : v.cue.list = []) :
    CueHeld [] v.log v.due v (endNoContext (reportJoinLost v)) := by
  have playing : v.cue.playing = none := by
    unfold CUE.playing CUE.inState
    rw [empty]
    rfl
  have fading : v.cue.fading = none := by
    unfold CUE.fading CUE.inState
    rw [empty]
    rfl
  have report : reportJoinLost v = v := by
    unfold reportJoinLost
    rw [playing]
    cases v.air.stack <;> rfl
  have goes : endNoContext v = holdSequence v := by
    unfold endNoContext
    rw [endFading_none fading]
    dsimp only
    rw [playing]
    exact recue_still (s := holdSequence v) (by rw [show (holdSequence v).cue.list = [] from empty]; exact List.forall_mem_nil _)
  rw [report, goes]
  exact ⟨empty, rfl, rfl, rfl, rfl, rfl⟩

/-- The JOIN of a break-in ends with no place to return to, which its record is told of (R44). -/
theorem endNoContext_join {r : ContextRecord} {rest : List ContextRecord} {f : Feed} {len : Nat} (stack : v.air.stack = r :: rest)
    (breakIn : r.kind = .breakIn) (alone : v.cue.list = [j]) (state : j.state = .playing) (kind : j.kind = .join f len) :
    CueHeld [] (v.log.append (stamp v) .itemSkipped (.cue j.serial) (.skipped .noContext))
      (v.due ++ [.withdrawal r.number j.serial]) v (endNoContext (reportJoinLost v)) := by
  have playing : v.cue.playing = some j := by
    unfold CUE.playing CUE.inState
    rw [alone]
    exact List.find?_cons_of_pos (by simpa using state)
  have fading : v.cue.fading = none := by
    unfold CUE.fading CUE.inState
    rw [alone]
    exact List.find?_eq_none.2 fun x mem => by
      rw [List.mem_singleton.1 mem, state]
      nofun
  have feed : j.feed.isSome = true := by
    unfold CueEntry.feed
    rw [kind]
    rfl
  have report : reportJoinLost v = handOver (.withdrawal r.number j.serial) v := by
    unfold reportJoinLost
    rw [stack, playing]
    exact if_pos ⟨breakIn, feed⟩
  have empty : (v.cue.without j).list = [] := without_singleton alone
  have still : j.player = none := player_join kind
  have dropped : (v.cue.without j).dropLine j = v.cue.without j := by
    unfold CUE.dropLine
    rw [still]
  have goes : endNoContext (handOver (.withdrawal r.number j.serial) v) =
      holdSequence (leaveSkipped .noContext j (handOver (.withdrawal r.number j.serial) v)) := by
    have none_ : (holdSequence (leaveSkipped .noContext j (handOver (.withdrawal r.number j.serial) v))).cue.list = [] := by
      unfold leaveSkipped
      rw [leave_onAir (.inl state)]
      show ((v.cue.without j).dropLine j).list = []
      rw [dropped, empty]
    unfold endNoContext
    rw [endFading_none (s := handOver (.withdrawal r.number j.serial) v) fading]
    dsimp only
    rw [show (handOver (.withdrawal r.number j.serial) v).cue.playing = some j from playing]
    dsimp only
    rw [recue_still (by rw [none_]; exact List.forall_mem_nil _),
      passStops_of_no_cued (cued_of_none_waits (by rw [none_]; exact List.forall_mem_nil _))]
  rw [report, goes]
  unfold leaveSkipped
  rw [leave_onAir (.inl state)]
  show CueHeld [] _ _ v (holdSequence (logEntry _ _ _ (raise .entryEnded
    ((handOver (.withdrawal r.number j.serial) v).withCue ((v.cue.without j).dropLine j)))))
  rw [dropped]
  exact ⟨empty, rfl, rfl, rfl, rfl, rfl⟩

/-! ### LSW's and DLY's part (R101, R121) -/

/-- LSW after a grant without a record: every line in AIR in HOLD, the slots free. -/
def LSW.heldAir (x : LSW) : LSW :=
  if x.anyIn .air then
    { x with slotA := none, slotB := none, lines := x.lines.map fun r => if r.state = .air then r.waits .hold else r }
  else x

theorem heldAir_line {x : LSW} {l : Nth} (air : (x.lines.get l).state = .air) :
    x.heldAir.lines.get l = (x.lines.get l).waits .hold := by
  have any : x.anyIn .air = true := by
    simp only [LSW.anyIn, List.any_eq_true, decide_eq_true_eq]
    exact ⟨x.lines.get l, by cases l <;> simp [Four.toList, Four.get], air⟩
  unfold LSW.heldAir
  rw [if_pos any]
  exact (four_get_map ..).trans (if_pos air)

theorem heldAir_still {x : LSW} (none_ : x.anyIn .air = false) : x.heldAir = x := if_neg (by rw [none_]; nofun)

/-- Holding touches LSW and PI alone. -/
theorem holdLines_eq (v : State) : ∃ q, holdLines v = (v.withLsw v.lsw.heldAir).withPi q := by
  unfold holdLines emptyAir LSW.heldAir
  split
  · exact ⟨_, rfl⟩
  · exact ⟨v.pi, rfl⟩

theorem when_raise_eq (yes : Bool) (k : Notice) (v : State) : ∃ q, when yes (raise k) v = v.withPi q := by
  cases yes with
  | false => exact ⟨v.pi, rfl⟩
  | true => exact ⟨_, rfl⟩

/-- A freeze that keeps the run state touches DLY and PI alone. -/
theorem freezeKept_eq (v : State) : ∃ q, freeze true v =
    (v.withDly { v.dly with state := .frozen, recompute := false, kept := some v.dly.runState }).withPi q :=
  when_raise_eq _ _ _

/-! ### The grant (R32, R43) -/

/-- The grant without a record, from CUE's part on. -/
theorem grantAlert_full {pair : Pair} (full : m.air.maxDepth ≤ m.air.stack.length) : grantAlert pair m =
    logStackFull (.alert pair) (alertHolds true (freeze true (holdLines (endNoContext
      (reportJoinLost (beginChainAt .withoutContext m)))))) := by
  unfold grantAlert
  refine if_neg ?_
  unfold AIR.hasRoom
  simpa using full

end Sys2Proof.Machine
end

section
/-! A chain that begins without a record (R32, R43, R143). -/

namespace Sys2Proof.Machine

open Sys2Proof

variable {s m v c : State} {e : AlertEntry} {list : List CueEntry} {log : LOG} {due : List Due}

/-- The grant's part of LSW, DLY, OUT and the log, as one state. -/
def bareGrant (e : AlertEntry) (c : State) : State :=
  { c with
    lsw := c.lsw.heldAir
    dly := { c.dly with state := .frozen, recompute := false, kept := some c.dly.runState }
    out := { c.out with alertFlag := true }
    log := c.log.append (stamp c) .stackFull (.alert e.header.pair) (.number c.air.stack.length)
    alc := { c.alc with chainOpen := true } }

/-- ALC's part after the grant. -/
theorem bareGrant_eq (e : AlertEntry) (c : State) {g : State}
    (is : g = logStackFull (.alert e.header.pair) (alertHolds true (freeze true (holdLines c)))) :
    ∃ q, g.withAlc { g.alc with chainOpen := true } = (bareGrant e c).withPi q := by
  subst is
  obtain ⟨q, holds⟩ := holdLines_eq c
  rw [holds]
  generalize lines : (c.withLsw c.lsw.heldAir).withPi q = w
  obtain ⟨q', frozen⟩ := freezeKept_eq w
  rw [frozen, ← lines]
  exact ⟨_, rfl⟩

/-- What the first alert of a chain without a record leaves. -/
structure BareChain (list : List CueEntry) (log : LOG) (due : List Due) (e : AlertEntry) (m t : State) : Prop where
  air : t.air = { m.air with chain := .withoutContext, chainSource := some (selectedSource m) }
  list : t.cue.list = list
  held : t.cue.held = true
  dly : t.dly = { m.dly with state := .frozen, recompute := false, kept := some m.dly.runState }
  out : t.out = { m.out with alertFlag := true, alertId := some e.header.pair }
  alc : t.alc = { m.alc with chainOpen := true, go := true, goRiseAfter := none, queue := [e.airs m.boundaryNo] }
  lsw : t.lsw = m.lsw.heldAir
  log : t.log = (log.append (stamp m) .stackFull (.alert e.header.pair) (.number m.air.stack.length)).append (stamp m)
    .alertOnAir (.alert e.header.pair) (.onAir e.header.priority e.interruptions)
  due : m.lsw.anyIn .air = false → t.due = due
  rest : t.tb = m.tb ∧ t.lnk = m.lnk ∧ t.site = m.site
  raised : ∀ p, (t.port p).init = .high → (t.port p).flags.getLsbD 9 = true

/-- How the event closes in which the grant has no record to fill. -/
theorem bareChain_closes {b : State} (held : CueHeld list log due (beginChainAt .withoutContext m) c)
    (queue : m.alc.queue = [e]) (wake : m.alc.wake = false) (started : m.cue.started = false) (lsw : b.lsw = m.lsw) {q : PI} :
    BareChain list log due e m (finish b (airing false e ((bareGrant e c).withPi q))) := by
  obtain ⟨list_, held_, quiet, log_, due_, frame⟩ := held
  have alc : c.alc = m.alc := (congrArg State.alc frame :)
  have air : c.air = { m.air with chain := .withoutContext, chainSource := some (selectedSource m) } := (congrArg State.air frame :)
  have lsw_ : c.lsw = m.lsw := (congrArg State.lsw frame :)
  have dly : c.dly = m.dly := (congrArg State.dly frame :)
  have out : c.out = m.out := (congrArg State.out frame :)
  have tb : c.tb = m.tb := (congrArg State.tb frame :)
  have lnk : c.lnk = m.lnk := (congrArg State.lnk frame :)
  have site : c.site = m.site := (congrArg State.site frame :)
  have now : c.boundaryNo = m.boundaryNo := (congrArg State.boundaryNo frame :)
  have stamps : stamp c = stamp m := by
    unfold stamp
    rw [tb]
  have quiet_ : c.cue.started = false := quiet.trans started
  obtain ⟨eq, -⟩ := airing_eq (e := e) (x := e) (s := (bareGrant e c).withPi q) (by
    show c.alc.queue = [e]
    rw [alc, queue]) rfl (by
    show c.alc.wake = false
    rw [alc, wake])
  obtain ⟨x, last⟩ : ∃ x, airing false e ((bareGrant e c).withPi q) = raise .alertState x := ⟨_, rfl⟩
  generalize airing false e ((bareGrant e c).withPi q) = a at eq last
  have closed := closes_finish b (a := a) fun st => by
    rw [eq] at st
    exact absurd (quiet_.symm.trans st) nofun
  generalize finish b a = t at closed
  obtain ⟨fAir, fDly, fOut, fAlc, fTb, fLnk, fSite⟩ : t.air = a.air ∧ t.dly = a.dly ∧ t.out = a.out ∧ t.alc = a.alc ∧
      t.tb = a.tb ∧ t.lnk = a.lnk ∧ t.site = a.site :=
    ⟨closed.air, (congrArg State.dly closed.frame :), (congrArg State.out closed.frame :), (congrArg State.alc closed.frame :),
      (congrArg State.tb closed.frame :), (congrArg State.lnk closed.frame :), (congrArg State.site closed.frame :)⟩
  have aLsw : a.lsw = m.lsw.heldAir := by
    rw [eq, ← lsw_]
    rfl
  refine ⟨?_, ?_, ?_, ?_, ?_, ?_, ?_, ?_, fun none_ => ?_, ⟨?_, ?_, ?_⟩, fun p high => ?_⟩
  · rw [fAir, eq, ← air]
    rfl
  · rw [closed.list, eq, ← list_]
    rfl
  · rw [closed.held, eq, ← held_]
    rfl
  · rw [fDly, eq, ← dly]
    rfl
  · rw [fOut, eq, ← out]
    rfl
  · rw [fAlc, eq, ← alc, ← now]
    rfl
  · rw [closed.lsw, aLsw]
  · have stack : m.air.stack = c.air.stack := by rw [air]
    rw [closed.log, eq, ← stamps, ← log_, stack]
    rfl
  · rw [closed.due_same (by rw [aLsw, heldAir_still none_, lsw]), eq, ← due_]
    rfl
  · rw [fTb, eq, ← tb]
    rfl
  · rw [fLnk, eq, ← lnk]
    rfl
  · rw [fSite, eq, ← site]
    rfl
  · have told := closed.notified
    rw [last] at told
    exact told.bit high

/-- The one queued alert takes the air with no record free. -/
theorem considerAir_bare (queue : m.alc.queue = [e]) (ready : e.state = .ready) (high : 2 ≤ e.header.priority)
    (closed : m.alc.chainOpen = false) (full : m.air.maxDepth ≤ m.air.stack.length) :
    ∃ q, considerAir m = airing false e
      ((bareGrant e (endNoContext (reportJoinLost (beginChainAt .withoutContext m)))).withPi q) := by
  obtain ⟨q, granted⟩ := bareGrant_eq e (endNoContext (reportJoinLost (beginChainAt .withoutContext m)))
    (grantAlert_full (pair := e.header.pair) full)
  refine ⟨q, (considerAir_alone queue ready high closed).trans ?_⟩
  rw [← granted]
  rfl

end Sys2Proof.Machine
end

section
/-! ALERT HEADER settled. -/

namespace Sys2Proof.Machine

open Sys2Proof

variable {s t : State} {e : AlertEntry} {h : HeaderFields} {k : Header} {list : List CueEntry} {log : LOG} {due : List Due}

/-- The state in which CUE takes its part of a grant without a record. -/
def bareChainAt (e : AlertEntry) (s : State) : State := beginChainAt .withoutContext (received e (clearMarks s))

/-- An arriving alert takes the air with no record free (R32, R43). -/
theorem ready_bare (ready : e.state = .ready) (high : 2 ≤ e.header.priority) (queue : s.alc.queue = [])
    (closed : s.alc.chainOpen = false) (full : s.air.maxDepth ≤ s.air.stack.length) (wake : s.alc.wake = false)
    (mode : s.air.mode ≠ .test)
    (held : CueHeld list log due (bareChainAt e s) (endNoContext (reportJoinLost (bareChainAt e s)))) :
    let t := finish s (afterReady e (received e (clearMarks s)))
    BareChain list log due e (received e (clearMarks s)) t ∧ Notified (received e (clearMarks s)) t := by
  have free := received_free queue ready
  have queued := received_queue (e := e) queue
  intro t
  have airs : t = finish s (considerAir (received e (clearMarks s))) :=
    congrArg (finish s) (afterReady_free (m := received e (clearMarks s)) mode free)
  have kept : Keeps (received e (clearMarks s)) t := by
    rw [airs]
    exact keeps_finish _ (keeps_considerAir (keeps_refl _))
  obtain ⟨q, bare⟩ := considerAir_bare queued ready high closed full
  have begun := bareChain_closes (b := s) (q := q) held queued wake rfl rfl
  refine ⟨?_, kept.notified⟩
  rw [airs, bare]
  exact begun

/-- The same, as a statement about the state before the event. -/
theorem ready_bare_leaves (bare : BareChain list log due e (received e (clearMarks s)) t)
    (told : Notified (received e (clearMarks s)) t) :
    t.air = { s.air with chain := .withoutContext, chainSource := some (selectedSource s) } ∧
      t.cue.list = list ∧ t.cue.held = true ∧ t.dly.state = .frozen ∧ t.dly.kept = some s.dly.runState ∧
      t.out = { s.out with alertFlag := true, alertId := some e.header.pair } ∧ t.alc.chainOpen = true ∧
      t.alc.go = true ∧ t.alc.queue = [e.airs s.boundaryNo] ∧
      (∀ l, s.line l = .air → t.lsw.lines.get l = { s.lsw.lines.get l with state := .hold, waiting := some 0 }) ∧
      t.log = (log.append (stamp s) .stackFull (.alert e.header.pair) (.number s.air.stack.length)).append (stamp s)
        .alertOnAir (.alert e.header.pair) (.onAir e.header.priority e.interruptions) ∧
      (∀ p, (s.port p).init = .high → (t.port p).flags.getLsbD 8 = true ∧ (t.port p).flags.getLsbD 9 = true) ∧
      (s.lsw.anyIn .air = false → t.due = due) ∧ t.tb = s.tb ∧ t.lnk = s.lnk ∧ t.site = s.site := by
  obtain ⟨air, list_, held, dly, out, alc, lsw, log_, due_, ⟨tb, lnk, site⟩, raised⟩ := bare
  refine ⟨air, list_, held, ?_, ?_, out, ?_, ?_, ?_, fun l at_ => ?_, log_, fun p high => ⟨received_raises told high,
    raised p (((received_notified e (clearMarks s)).trans told).high high)⟩, due_, tb, lnk, site⟩
  · rw [dly]
  · rw [dly]
    rfl
  · rw [alc]
  · rw [alc]
  · rw [alc]
    rfl
  · rw [lsw]
    exact heldAir_line at_

end Sys2Proof.Machine
end

section
/-! The obligation of ALERT HEADER. -/

namespace Sys2Proof.Machine

open Sys2Proof

/-- Settles O48: by ALC's judgement of the header, and for an alert that enters READY by what stands on air. -/
theorem alertHeadersAreJudged : Obligations.AlertHeadersAreJudged := by
  unfold Obligations.AlertHeadersAreJudged
  intro h s few
  refine ⟨refusedOff_portsOf s (fun _ => rfl) rfl (header_fits few) nofun, fun a => ⟨fun bad => ?_, fun k is => ?_⟩⟩
  · have act : alertHeader h (clearMarks s) = (clearMarks s, ⟨.badValue, []⟩) := by
      unfold alertHeader
      rw [headerOf_outside bad]
      rfl
    rw [exec_alertHeader few a act]
    exact congrArg (fun t => Host.Outcome.next (replyTo .c 66 ⟨.badValue, []⟩ t)) (finish_marks rfl rfl rfl)
  · intro known matched hold e
    refine ⟨fun old => alertHeader_duplicate few a is old, fun unknown absent => ?_⟩
    have fresh : Fresh k s.alc := ⟨unknown, absent⟩
    refine ⟨fun low other => alertHeader_filtered few a is fresh low other,
      fun low matched ignore => alertHeader_ignored few a is fresh low matched ignore,
      fun goes full higher => alertHeader_full few a is fresh goes full higher,
      fun low matched action time room => ?_, fun goes queue closed chain room wake => ?_,
      fun o goes queue onAir higher stays mode wake => ?_, fun y two matched action time full last lower => ?_,
      fun three queue closed chain full wake mode => ?_⟩
    · have run := alertHeader_held few a is fresh low matched action (by rw [holdTime_eq]; exact time) room
      rw [holdTime_eq] at run
      exact run
    · have high : 2 ≤ k.priority := goes.elim (fun three => by omega) fun two => Nat.le_of_eq two.1.symm
      have run := alertHeader_ready few a is fresh goes (by rw [queue]; decide)
      intro received_
      refine ⟨_, run, ?_, fun p up => ?_, fun mode => ?_, fun mode => ?_⟩
      · by_cases mode : s.air.mode = .test
        · exact (ready_begins_test (e := arrivalEntry k s.alc .ready) rfl high queue closed room wake mode).2.1
        · exact (ready_begins (e := arrivalEntry k s.alc .ready) rfl high queue closed room wake mode).2.1
      · by_cases mode : s.air.mode = .test
        · exact received_raises (ready_begins_test (e := arrivalEntry k s.alc .ready) rfl high queue closed room wake mode).2.2 up
        · exact received_raises (ready_begins (e := arrivalEntry k s.alc .ready) rfl high queue closed room wake mode).2.2 up
      · exact (ready_begins (e := arrivalEntry k s.alc .ready) rfl high queue closed room wake mode).1
      · have begun := (ready_begins_test (e := arrivalEntry k s.alc .ready) rfl high queue closed room wake mode).1
        obtain ⟨live, test, flag, id_, open_, go⟩ := leftTest_begun mode begun
        exact ⟨live, test, flag, id_, open_, go, fun silence => leftTest_begun_whole mode silence begun⟩
    · obtain ⟨alc, out, log, raised, rest⟩ := received_interrupted (arrivalEntry k s.alc .ready) o s
      exact ⟨_, alertHeader_interrupts few a is fresh goes queue onAir higher stays mode wake, alc, out, log, raised, rest⟩
    · have run := alertHeader_displaces few a is fresh (by omega) matched action (by rw [holdTime_eq]; exact time) full last lower
      rw [holdTime_eq] at run
      exact run
    · have run := alertHeader_ready few a is fresh (.inl three) (by rw [queue]; decide)
      have high : 2 ≤ k.priority := by omega
      intro granted received_
      have arrived : (received (arrivalEntry k s.alc .ready) s).log = received_ := by
        show s.log.append (stamp s) .alertReceived (.alert k.pair) (.received k.priority .ready) = _
        rw [three]
      have grants {list : List CueEntry} {log : LOG} {due : List Due} (held : CueHeld list log due
          (bareChainAt (arrivalEntry k s.alc .ready) s)
          (endNoContext (reportJoinLost (bareChainAt (arrivalEntry k s.alc .ready) s)))) : granted list log due := by
        obtain ⟨bare, told⟩ := ready_bare rfl high queue closed full wake mode held
        have leaves := ready_bare_leaves bare told
        rw [show (arrivalEntry k s.alc .ready).header.priority = 3 from three] at leaves
        exact ⟨_, run, leaves⟩
      refine ⟨fun empty => ?_, fun r rest j f len stack breakIn alone state kind => ?_⟩
      · rw [← arrived]
        exact grants (endNoContext_empty (v := bareChainAt (arrivalEntry k s.alc .ready) s) empty)
      · rw [← arrived]
        exact grants (endNoContext_join (v := bareChainAt (arrivalEntry k s.alc .ready) s) stack breakIn alone state kind)

end Sys2Proof.Machine
end
